-- ==== Sys2Proof/Word.lean ====
section
/-! DEFINITION. The word types of the XK80 model and their plainest abbreviations.

Widths follow R68 (64-bit words), R69 (32 bits a lane, 64 bits a scalar register) and R12 (32 lanes a group). -/

namespace Sys2Proof

/-- A 64-bit word: an instruction word, a scalar register, a program counter value (R68, R69). -/
abbrev Word := BitVec 64

/-- A 32-bit value: one lane of a vector register (R69). -/
abbrev W32 := BitVec 32

/-- A byte of memory. -/
abbrev Byte := BitVec 8

/-- A set of lanes of one group: bit L stands for lane L (R12). -/
abbrev Lanes := BitVec 32

/-- A map from numbers to plain data, held as a list of pairs with strictly rising keys that lists
no key whose value is the default of that map. The operations stand in Machine/Sparse.lean. -/
abbrev Sparse (α : Type) := List (Nat × α)

end Sys2Proof
end

