-- ==== Sys2Proof/Config.lean ====
section
/-! DEFINITION. What the manual leaves to the implementation, and the free values: constants without a body, so that no
proof can see what they are (log 3). -/

namespace Sys2Proof.Config

/-- A value the manual leaves open, drawn afresh for each value of the state's counter `fresh` (R8; log 3). -/
opaque freeWord : Nat → Word

/-- Which copy of a byte an access finds whose line is mapped under different cache policies, by the turn and the byte's address
(R132; log 3). -/
opaque otherCopy : Nat → Nat → Bool

/-- What the firmware slot reads from a special source that describes a team of a grid (%groupid, %teamid, %gridslot,
%rolegroup, %rolegroups, %teamcount, %gridseq), by the source's encoding: the manual gives that slot no grid (R70, R403;
log 3). -/
opaque fwSpecial : Nat → W32

/-- Which of the eight memory controllers of its die holds a line of DRAM, by line number: the manual gives no interleave
(R57, R430; log 3). -/
opaque memController : Nat → Nat

/-- The block kind in word 0 of a snapshot bank, by the first bank number of its kind: the manual names the field and gives no
codes (R431; log 3). -/
opaque bankKind : Nat → BitVec 16

/-- The Akwick public key in the boot ROM, a point of P-384, which the manual does not give (R432; log 6). -/
opaque publicKey : Nat × Nat

/-- What the EEPROM gives the PCI Express function: vendor, subsystem and revision identifiers (R408; log 50). -/
opaque vendorId : BitVec 16

opaque subsystemId : BitVec 16

opaque revisionId : BitVec 8

/-- PKG_IDENT as the EEPROM holds it: ordering code XK80-S, part code and serial number 0 (R408, R433; log 7). -/
def pkgIdent : Word := 0

/-- PKG_TRIM as the EEPROM holds it (R433; log 7). -/
def pkgTrim : Word := 0

end Sys2Proof.Config
end

