-- ==== Sys2Proof/Syntax.lean ====
section
/-! DEFINITION. The instructions and the indivisible device events of the XK80, one constructor for each row of
spec/opcode_table.json.

A SIMT word keeps its raw fields (`Full`, `Half`): R79 lets a word with no active lane carry any field value, and R80
checks the fields only when the word issues, so no field is dropped or narrowed here. A device event has no operands of its own: which
core, port, queue or operation it happens to, and what it brings from outside the package, stand in the state
(`State.focus`, `State.input`; log 1). The constructors with operands come first, because compiled Lean code cannot
tag more than 244 constructors that have fields. -/

namespace Sys2Proof

/-- The fields of a full-form word (R68); the opcode is the constructor. -/
structure Full where
  pred : BitVec 6
  pn : Bool
  w : Bool
  d : BitVec 9
  a : BitVec 9
  b : BitVec 9
  c : BitVec 9
  fn : BitVec 11
  deriving DecidableEq, Repr

/-- One half of a paired word (R72). -/
structure Half where
  sop : BitVec 7
  pr : BitVec 3
  d : BitVec 7
  s : BitVec 7
  m : BitVec 7
  deriving DecidableEq, Repr

/-- A paired word: half A, half B and the reserved bit [0] (R72). -/
structure Paired where
  a : Half
  b : Half
  bit0 : Bool
  deriving DecidableEq, Repr

/-- The fields of a sequencer word below its opcode (R377). -/
structure SeqWord where
  ca : BitVec 4
  cb : BitVec 4
  cc : BitVec 4
  fi : BitVec 6
  md : BitVec 8
  imm : BitVec 32
  deriving DecidableEq, Repr

/-- One constructor for each row of the table of operations and events. -/
inductive Instr where
  /-- R84. Full-form no-operation that names no operand and shifts no latch. -/
  | nop (f : Full)
  /-- R85. Ends the group's run at a switch point and marks it as having reached the greed limit, optionally moving it to the pending set. -/
  | yield (f : Full)
  /-- R86. Starts a hardware loop that repeats the next n words sC[31:0] times, or skips the body when the count is 0. -/
  | loop (f : Full)
  /-- R87. Discards the group's prefetched words and loop-buffer capture so that the next word is fetched from the instruction cache. -/
  | ifence (f : Full)
  /-- R74. Executes two short-opcode halves that read all their sources before either writes, then shifts the latches twice. -/
  | pairedWord (p : Paired)
  /-- R104. Branches the active lanes by a signed 38-bit word offset, splitting the path when only some lanes take it. -/
  | bra (f : Full)
  /-- R104. Branches each active lane to a 64-bit register target. -/
  | brx (f : Full)
  /-- R104. Writes the link pc+8 to D and branches by Offset38. -/
  | call (f : Full)
  /-- R104. Returns each active lane to a register target, like BRX but with a distinct opcode. -/
  | ret (f : Full)
  /-- R106. Sets rejoin mask K to the active lanes and their meeting address to the MEET label. -/
  | join (f : Full)
  /-- R107. Holds the lanes of mask K that reach their meeting address, and releases all held lanes once the release condition holds. -/
  | meet (f : Full)
  /-- R105. Ends the active lanes, withdraws their barrier arrivals and re-evaluates every rejoin condition and team barrier. -/
  | exit (f : Full)
  /-- R110. Compares integer operands and combines the result into a predicate. -/
  | pset (f : Full)
  /-- R110. Compares floating-point operands under IEEE rules and combines the result into a predicate. -/
  | psetf (f : Full)
  /-- R111. Sets a predicate from a lookup table indexed by three predicates. -/
  | plop (f : Full)
  /-- R112. Copies each active lane's predicates to a 64-bit destination. -/
  | pmovGet (f : Full)
  /-- R112. Writes the predicates under a mask from a 64-bit value. -/
  | pmovSet (f : Full)
  /-- R113. Reduces a predicate over the active lanes as all, any or uniform. -/
  | vote (f : Full)
  /-- R108. Copies rejoin mask K to a scalar register. -/
  | kmovGet (f : Full)
  /-- R108. Writes rejoin mask K and re-evaluates its release condition. -/
  | kmovSet (f : Full)
  /-- R116. Sets a predicate to whether a pending register's operation is complete, consuming the status if it is. -/
  | ftest (f : Full)
  /-- R116. Tests an exported handle without waiting and writes the status when it is complete. -/
  | ftestH (f : Full)
  /-- R117. Blocks until a pending register's operation completes. -/
  | fwait (f : Full)
  /-- R117. Blocks until an exported handle's operation completes, then writes its status and releases the entry. -/
  | fwaitH (f : Full)
  /-- R117. Blocks until every pending register of the group has completed. -/
  | fwaitAll (f : Full)
  /-- R118. Abandons an operation, writes its status or CANCELLED, releases the entry and tells the engine to stop. -/
  | fcancel (f : Full)
  /-- R115. Moves a pending handle from one scalar register to another. -/
  | fmovMove (f : Full)
  /-- R115. Turns a pending handle into a plain value and marks its entry EXPORTED. -/
  | fmovExport (f : Full)
  /-- R115. Imports an exported handle as pending, or takes its status when the operation is complete. -/
  | fmovImport (f : Full)
  /-- R120. Arrives at team barrier n and waits for the phase to complete. -/
  | tbar (f : Full)
  /-- R120. Arrives at team barrier n without waiting. -/
  | tbarArr (f : Full)
  /-- R122. Reads a team, group or lane special register. -/
  | srd (f : Full)
  /-- R122. Writes a special register. -/
  | swr (f : Full)
  /-- R123. Raises SW_TRAP precisely with an 11-bit immediate. -/
  | trap (f : Full)
  /-- R123. Raises BREAKPOINT when the context's breakpoint enable is set; otherwise it does nothing. -/
  | bkpt (f : Full)
  /-- R126. Waits for the service future, then returns the continuation lanes to their faulting words. -/
  | fresume (f : Full)
  /-- R171. Integer add, optionally saturating. -/
  | add (f : Full)
  /-- R171. Integer subtract, optionally saturating. -/
  | sub (f : Full)
  /-- R172. Add with carry in and carry out through predicate pK. -/
  | addc (f : Full)
  /-- R172. Subtract with borrow in and borrow out through predicate pK. -/
  | subb (f : Full)
  /-- R171. Integer multiply, keeping the low half. -/
  | mul (f : Full)
  /-- R171. Integer multiply, keeping the high half. -/
  | mulh (f : Full)
  /-- R171. Integer multiply-add. -/
  | mad (f : Full)
  /-- R171. Multiplies 32-bit operands and adds a 64-bit addend. -/
  | madw (f : Full)
  /-- R171. Integer minimum. -/
  | min (f : Full)
  /-- R171. Integer maximum. -/
  | max (f : Full)
  /-- R171. Integer absolute value. -/
  | abs (f : Full)
  /-- R171. Absolute difference plus an addend. -/
  | sad (f : Full)
  /-- R171. Bitwise AND. -/
  | and (f : Full)
  /-- R171. Bitwise OR. -/
  | or (f : Full)
  /-- R171. Bitwise XOR. -/
  | xor (f : Full)
  /-- R171. AND with the complement of b. -/
  | andn (f : Full)
  /-- R173. Shift left, giving 0 for amounts of at least W. -/
  | shl (f : Full)
  /-- R173. Logical shift right. -/
  | shr (f : Full)
  /-- R173. Arithmetic shift right. -/
  | sar (f : Full)
  /-- R173. Funnel shift left or right over {b, a}. -/
  | fshf (f : Full)
  /-- R174. Bit-field extract. -/
  | bfx (f : Full)
  /-- R174. Bit-field insert. -/
  | bfi (f : Full)
  /-- R171. Population count. -/
  | popc (f : Full)
  /-- R171. Count of leading zeros. -/
  | clz (f : Full)
  /-- R171. Bit reversal. -/
  | brev (f : Full)
  /-- R175. Selects a or b per lane by predicate pK. -/
  | sel (f : Full)
  /-- R171. Forms a 64-bit address as a + (b << n). -/
  | lea (f : Full)
  /-- R171. Three-operand add. -/
  | addx (f : Full)
  /-- R175. Copies a value, carrying its poison. -/
  | mov (f : Full)
  /-- R176. Writes one 16-bit part of D and keeps the rest. -/
  | movw (f : Full)
  /-- R175. Extends an 8-bit or 16-bit value to W bits. -/
  | ext (f : Full)
  /-- R179. Floating-point add. -/
  | fadd (f : Full)
  /-- R179. Floating-point subtract. -/
  | fsub (f : Full)
  /-- R179. Floating-point multiply. -/
  | fmul (f : Full)
  /-- R179. Fused multiply-add with one rounding and optional negations. -/
  | ffma (f : Full)
  /-- R182. Floating-point minimum with −0 below +0. -/
  | fmin (f : Full)
  /-- R182. Floating-point maximum with −0 below +0. -/
  | fmax (f : Full)
  /-- R183. Correctly rounded reciprocal. -/
  | frcp (f : Full)
  /-- R184. Reciprocal square root, rounded to nearest. -/
  | frsq (f : Full)
  /-- R183. Correctly rounded square root. -/
  | fsqrt (f : Full)
  /-- R184. Base-2 exponential, rounded to nearest. -/
  | fexp2 (f : Full)
  /-- R184. Base-2 logarithm, rounded to nearest. -/
  | flog2 (f : Full)
  /-- R183. Correctly rounded division. -/
  | fdiv (f : Full)
  /-- R185. Writes a one-hot class mask of a. -/
  | fclass (f : Full)
  /-- R186. Two-element dot product plus C, rounded once to FP32. -/
  | fdot2 (f : Full)
  /-- R187. Adds FP32 to a compensated BF16 pair. -/
  | cadd (f : Full)
  /-- R189. Returns the sticky flags after earlier words retire, and clears the flags named. -/
  | fstat (f : Full)
  /-- R192. Moves values between lanes within segments, by index, up, down or xor. -/
  | shfl (f : Full)
  /-- R193. Broadcasts one lane's value to the active lanes. -/
  | bcast (f : Full)
  /-- R194. Forms the mask of active lanes whose predicate is set. -/
  | ballot (f : Full)
  /-- R195. Inclusive or exclusive prefix operation in ascending lane order. -/
  | scan (f : Full)
  /-- R195. Reduction over the participants, written to every active lane. -/
  | redux (f : Full)
  /-- R196. Mask of the participants holding an equal value. -/
  | matchLanes (f : Full)
  /-- R197. Stable rank among equal values, or per-lane bin count. -/
  | hist (f : Full)
  /-- R198. Compacts the values of selected lanes into the lowest active lanes. -/
  | pack (f : Full)
  /-- R215. Converts between number formats with one rounding. -/
  | cvt (f : Full)
  /-- R215. Converts A × 2^n with one rounding. -/
  | cvts (f : Full)
  /-- R216. Quantises lane blocks into block-scaled codes with an E5M2 scale. -/
  | qblk (f : Full)
  /-- R217. Dequantises a block-scaled code to FP32. -/
  | dqblk (f : Full)
  /-- R218. Chooses the nearest PP8 code for a value divided by a scale. -/
  | ppq (f : Full)
  /-- R219. Dequantises a PP8 code times a BF16 scale. -/
  | ppdq (f : Full)
  /-- R220. Assigns duplication-map positions to channels whose statistic exceeds the threshold. -/
  | osplit (f : Full)
  /-- R221. Quantises with error feedback, writing the residual and the code. -/
  | efq (f : Full)
  /-- R222. Encodes FP32 into the shared-scale integer format with nonfinite and overflow predicates. -/
  | iqs (f : Full)
  /-- R223. Decodes a shared-scale integer element using the flag word. -/
  | idqs (f : Full)
  /-- R224. Multiplies by 2^n with one rounding. -/
  | fscale (f : Full)
  /-- R225. Writes floor(log2|a|) as an integer. -/
  | fexpo (f : Full)
  /-- R226. Sets a predicate, and the team non-finite flag, where any element is inf or NaN. -/
  | nfchk (f : Full)
  /-- R237. Reversible fixed-point multiply that pushes the discarded bits. -/
  | rmuln (f : Full)
  /-- R237. Pops an entry and reconstructs the input of RMULN. -/
  | umuln (f : Full)
  /-- R238. Shifts right and pushes the bits shifted out. -/
  | rshr (f : Full)
  /-- R238. Pops the shifted-out bits and shifts them back in. -/
  | ushr (f : Full)
  /-- R239. Adds an addend modulo 2^32, pushing nothing. -/
  | radd (f : Full)
  /-- R239. Subtracts the addend modulo 2^32. -/
  | uadd (f : Full)
  /-- R239. Adds a shifted product modulo 2^32. -/
  | rmad (f : Full)
  /-- R239. Subtracts the shifted product modulo 2^32. -/
  | umad (f : Full)
  /-- R240. Leaky ReLU with slope 2^-K that pushes one entry. -/
  | rlrel (f : Full)
  /-- R240. Undoes the leaky ReLU using the popped entry. -/
  | ulrel (f : Full)
  /-- R241. Narrows to 8 or 16 bits after a shift and pushes the lost bits or the input. -/
  | rnarr (f : Full)
  /-- R241. Undoes the narrowing using the popped entry. -/
  | unarr (f : Full)
  /-- R242. Pushes a 28-bit marker. -/
  | rmark (f : Full)
  /-- R242. Pops a marker and traps on mismatch. -/
  | umark (f : Full)
  /-- R145. Global load of 1 to 8 bytes, weak or strong, optionally acquire or last-use. -/
  | ld (f : Full)
  /-- R146. Global store, optionally a release. -/
  | st (f : Full)
  /-- R145. Scratchpad load. -/
  | lds (f : Full)
  /-- R146. Scratchpad store. -/
  | sts (f : Full)
  /-- R145. 16-byte per-lane load into four registers. -/
  | ldv (f : Full)
  /-- R146. 16-byte per-lane store from four registers. -/
  | stv (f : Full)
  /-- R150. Prefetches lines into the LLC and, for WB pages, L1; never faults. -/
  | prefL1 (f : Full)
  /-- R150. Prefetches lines into the LLC only. -/
  | prefLlc (f : Full)
  /-- R148. Drops touched LLC lines without write-back on DISC_EN pages. -/
  | disc (f : Full)
  /-- R149. Writes dirty LLC lines back and keeps them valid. -/
  | flushWb (f : Full)
  /-- R149. Writes lines back if dirty and invalidates them in the LLC. -/
  | flushInv (f : Full)
  /-- R149. Invalidates lines in this core's L1. -/
  | flushL1 (f : Full)
  /-- R152. Global atomic read-modify-write returning the old value, optionally combined across lanes. -/
  | atom (f : Full)
  /-- R154. Global bitwise compare-and-swap. -/
  | cas (f : Full)
  /-- R152. Scratchpad atomic, including cas. -/
  | atoms (f : Full)
  /-- R152. Non-returning global atomic reduction. -/
  | red (f : Full)
  /-- R156. Acquire fence that orders earlier loads before later accesses. -/
  | fenceAcq (f : Full)
  /-- R156. Release fence that waits for earlier stores, flushes and covered posted writes. -/
  | fenceRel (f : Full)
  /-- R156. Full fence that orders every earlier access before every later access. -/
  | fenceFull (f : Full)
  /-- R156. Invalidates every L1 line of the core. -/
  | fenceL1inv (f : Full)
  /-- R158. Reads a location and waits until it differs from a compare value or a timeout expires. -/
  | mwait (f : Full)
  /-- R145. Scalar-path global load. -/
  | sld (f : Full)
  /-- R146. Scalar-path global store. -/
  | sst (f : Full)
  /-- R246. Starts an asynchronous byte copy between global memory and scratchpad. -/
  | hcopy (f : Full)
  /-- R248. Starts a 3-D linear or Morton-tiled element copy. -/
  | htile (f : Full)
  /-- R246. Starts a fill with a repeated pattern. -/
  | hfill (f : Full)
  /-- R249. Starts a gather of indexed rows. -/
  | hgather (f : Full)
  /-- R249. Starts a scatter of rows to indexed positions. -/
  | hscatter (f : Full)
  /-- R251. Reads the progress record of an exported Haul operation. -/
  | hstat (f : Full)
  /-- R261. Initialises a barrier object. -/
  | binit (f : Full)
  /-- R261. Group arrival that decrements REMAINING, returns a token and acts as a release. -/
  | barrive (f : Full)
  /-- R261. Adds expected bytes to PENDING. -/
  | bexpect (f : Full)
  /-- R261. Adds expected bytes and arrives with count 1 as one event. -/
  | bexpectArr (f : Full)
  /-- R262. Waits while PHASE equals the token, then writes the status word. -/
  | bwait (f : Full)
  /-- R262. Sets a predicate to whether the phase has flipped. -/
  | btry (f : Full)
  /-- R263. Parks the active lanes as a continuation spawned at phase completion. -/
  | bcont (f : Full)
  /-- R264. Binds or unbinds a trigger into Ashlar or a Lintel slot. -/
  | btrig (f : Full)
  /-- R274. Loads a weight matrix from scratchpad into the shadow plane. -/
  | mldw (f : Full)
  /-- R276. Exchanges the active and shadow planes. -/
  | mswap (f : Full)
  /-- R278. Streams activation rows through the active plane into accumulators, or stages a triggered stream. -/
  | mstream (f : Full)
  /-- R284. Waits for the group's scratchpad stores and opens the operand window. -/
  | mrdy (f : Full)
  /-- R287. Converts accumulators and writes them to scratchpad or sends them as Keystone rows. -/
  | mdrain (f : Full)
  /-- R288. Applies accumulated gradients to compensated-pair weights in place. -/
  | mapply (f : Full)
  /-- R289. Zeroes the plinth tiles named in a mask. -/
  | mzero (f : Full)
  /-- R271. Sets the redundant mode. -/
  | mcfg (f : Full)
  /-- R276. Replaces the tensor scale of the active or shadow plane. -/
  | mscale (f : Full)
  /-- R276. Latches a duplication map. -/
  | mdmap (f : Full)
  /-- R291. Waits for earlier engine operations, then reads a counter, state or plane. -/
  | mstat (f : Full)
  /-- R310. Allocates a run of tag numbers. -/
  | taga (f : Full)
  /-- R310. Frees a run of tag numbers. -/
  | tagf (f : Full)
  /-- R311. Sends a scratchpad payload as a Keystone operand. -/
  | ksend (f : Full)
  /-- R311. Sends a 32-bit or 64-bit register payload as an operand. -/
  | ksends (f : Full)
  /-- R312. Reads the progress record of an exported Keystone operation. -/
  | kstat (f : Full)
  /-- R312. Reads a Keystone counter of the context. -/
  | kstatCtr (f : Full)
  /-- R313. Writes a destination entry from a scratchpad image. -/
  | kcfgDest (f : Full)
  /-- R313. Sets the orphan timeout. -/
  | kcfgTmo (f : Full)
  /-- R313. Sets the overflow slot count. -/
  | kcfgOvf (f : Full)
  /-- R331. Takes the next tile item of the walk from the dispenser. -/
  | fetch (f : Full)
  /-- R332. Declares an outstanding item complete, as a package-scope release. -/
  | tdone (f : Full)
  /-- R333. Sets the target error. -/
  | gcfgTarget (f : Full)
  /-- R333. Sets the controller rung. -/
  | gcfgRung (f : Full)
  /-- R333. Sets the probe interval. -/
  | gcfgProbe (f : Full)
  /-- R334. Snapshot of the dispenser state by selector. -/
  | gstat (f : Full)
  /-- R335. Waits until every fill, measurement and update is done or a timeout expires. -/
  | gfill (f : Full)
  /-- R346. Copies an input vector from scratchpad into a Quarry input slot. -/
  | qloadx (f : Full)
  /-- R348. Starts an in-DRAM matrix-vector product over a row range. -/
  | qgemv (f : Full)
  /-- R351. Full fence followed by write-back of dirty lines on Quarry pages. -/
  | qfenceW (f : Full)
  /-- R351. Waits for the group's earlier Quarry operations and acquires their results. -/
  | qfenceR (f : Full)
  /-- R351. Does both .r and .w. -/
  | qfenceWr (f : Full)
  /-- R353. Reads the progress record of an exported Quarry operation. -/
  | qstat (f : Full)
  /-- R353. Reads QRY_STATUS, a slot header or the count of operations in flight. -/
  | qstatSt (f : Full)
  /-- R397. Checks a Lintel launch packet and multicasts it at once or stages it for a trigger. -/
  | llaunch (f : Full)
  /-- R398. Adds to a sequencer flag word as a domain-scope release. -/
  | lflagAdd (f : Full)
  /-- R398. Sets a sequencer flag word as a domain-scope release. -/
  | lflagSet (f : Full)
  /-- R399. Waits until a flag reaches a target or a timeout expires. -/
  | lwait (f : Full)
  /-- R400. Reads a slot's progress record, a flag or the state word. -/
  | lstat (f : Full)
  /-- R384. Sequencer no-operation. -/
  | seqNop (q : SeqWord)
  /-- R382. Sends a local chunk to DST. -/
  | xmit (q : SeqWord)
  /-- R382. Stores the oldest staged chunk from SRC. -/
  | rcvst (q : SeqWord)
  /-- R382. Combines a staged chunk with local data and stores it. -/
  | rcvcmb (q : SeqWord)
  /-- R382. Combines a staged chunk with local data and sends it on, optionally storing it. -/
  | rcvcf (q : SeqWord)
  /-- R382. Forwards a staged chunk, optionally storing it. -/
  | rcvfw (q : SeqWord)
  /-- R385. Waits until a flag reaches a value, as a domain-scope acquire. -/
  | waitf (q : SeqWord)
  /-- R385. Adds to or sets a local flag, as a domain-scope release. -/
  | sigf (q : SeqWord)
  /-- R385. Applies a flag change at package DST behind earlier chunks. -/
  | sigfPeer (q : SeqWord)
  /-- R384. Decrements CA and branches while it is non-zero. -/
  | seqLoop (q : SeqWord)
  /-- R384. Loads an immediate into a register, or its high half. -/
  | movi (q : SeqWord)
  /-- R384. Adds an immediate, optionally wrapping modulo CC. -/
  | addi (q : SeqWord)
  /-- R384. Adds or subtracts two registers. -/
  | seqAdd (q : SeqWord)
  /-- R384. Branches on a non-zero or zero register. -/
  | bnz (q : SeqWord)
  /-- R383. Encodes FP32 into the shared-scale integer format with exponent E. -/
  | scaleEnc (q : SeqWord)
  /-- R383. Decodes shared-scale integers to FP32 using XF. -/
  | scaleDec (q : SeqWord)
  /-- R386. Ends the slot's turn. -/
  | seqYield (q : SeqWord)
  /-- R386. Ends the slot's program and puts the slot in HALTED. -/
  | seqHalt (q : SeqWord)
  /-- R415. Launches a child grid through the pending pool. -/
  | launchc (f : Full)
  /-- R416. Waits for a child grid and copies its status word. -/
  | joinc (f : Full)
  /-- R427. Fires the instruction source of the snapshot trigger and reports whether it latched. -/
  | snap (f : Full)
  /-- R422. Switches a team out in order: groups, Haul, Ashlar, Quarry, Spoil, scratchpad, plinth, register cache. -/
  | ctxswOut (f : Full)
  /-- R422. Switches a team in once admitted, restoring state in reverse order. -/
  | ctxswIn (f : Full)
  /-- R428. Invalidates the translations of one page of a context. -/
  | tlbiVa (f : Full)
  /-- R428. Invalidates every translation of a context. -/
  | tlbiCtx (f : Full)
  /-- R428. Invalidates every translation. -/
  | tlbiAll (f : Full)
  /-- R428. Invalidates one instruction-cache line on every core. -/
  | tlbiIc (f : Full)
  /-- R428. Invalidates every instruction-cache line. -/
  | tlbiIcall (f : Full)
  /-- R405. Returns the firmware slot to FW_EPC and clears INTRAP. -/
  | eret (f : Full)
  /-- R429. Strong read at a package physical address. -/
  | psrd (f : Full)
  /-- R429. Strong write at a package physical address. -/
  | pswr (f : Full)
  /-- R417. Hands a grid to the work distributor, choosing cores and placing teams. -/
  | wdplace (f : Full)
  /-- R405. Clears the firmware slot's RUN bit. -/
  | halt (f : Full)
  /-- R42. When a group's word count on its path reaches 8, the ninth word becomes a switch point whatever it holds. -/
  | forcedSwitchPoint
  /-- R121. A team barrier whose first arrival is older than BAR_TIMEOUT traps every waiting group and clears its state except PHASE. -/
  | barTimeout
  /-- R158. A write to the monitored line re-reads the location and ends the wait if the value differs. -/
  | mwaitWake
  /-- R158. Without a free monitor, or outside local DRAM, the line is polled every 1,024 uncore cycles. -/
  | mwaitPoll
  /-- R158. C core cycles after issue, MWAIT returns the compare value. -/
  | mwaitTimeout
  /-- R145. Load data returns and is written to the destination, filling L1 for a weak miss. -/
  | loadDataReturn
  /-- R140. A queued store performs at its home slice or is accepted by a port and leaves the store queue. -/
  | storePerform
  /-- R142. A leaf, domain or system release performs once every DONE_TO reaches its recorded numbers. -/
  | wideReleasePerform
  /-- R48. A target's refusal report arrives, writes a record and stops the group at its next switch point. -/
  | deferredFaultReport
  /-- R21. A register-cache miss fills the line from the register image. -/
  | registerCacheFill
  /-- R21. An evicted dirty register line is written back to the image. -/
  | registerCacheWriteback
  /-- R55. An uncorrectable soft error poisons data, or raises MACHINE_CHECK in state that carries no poison. -/
  | softError
  /-- R243. The Haul engine moves the next round-robin 4 KiB unit of an operation, checking each access. -/
  | haulUnitTransfer
  /-- R252. Once all its writes have performed, the operation resolves its future and arrives on its barrier. -/
  | haulOpComplete
  /-- R285. An Ashlar operation finishes its writes, resolves its future and arrives. -/
  | ashlarOpComplete
  /-- R293. At each 256-cycle window end, BUDGET moves towards min(LIMIT, CAP) by at most SLEW. -/
  | ashBudgetWindow
  /-- R303. An operand arrives at its station and pairs, combines, delivers, is stored or is refused. -/
  | ksOperandArrive
  /-- R303. A waiting operand older than TIMEOUT is delivered alone as ORPHAN and an orphan record is kept. -/
  | ksOrphanTimeout
  /-- R303. An orphan record older than TIMEOUT is discarded. -/
  | ksOrphanRecordExpiry
  /-- R304. A refused forwarded operand is offered again every 1,024 uncore cycles. -/
  | ksForwardRetry
  /-- R306. A record held for a switched-out team is written when the team is resident again. -/
  | ksRecordDeferredWrite
  /-- R326. Once all its neighbours are declared, a skipped tile is reconstructed from them. -/
  | groutFill
  /-- R328. Compares the exact probe tile with its would-be reconstruction and computes P. -/
  | probeMeasure
  /-- R337. After the last team exits, the slot is released, remaining fills finish or are abandoned, and completion is reported. -/
  | gridEnd
  /-- R346. The copy finishes, sets the slot header and resolves the future. -/
  | qloadxComplete
  /-- R349. Every row is written or every operand step has finished, and the future resolves. -/
  | qgemvComplete
  /-- R349. A refused result operand is sent again every 1,024 uncore cycles. -/
  | quarryOperandResend
  /-- R352. A post-issue translation, permission, range or access-table failure stops or ends the operation. -/
  | quarryAsyncFault
  /-- R356. At each 256-cycle window end, RATE is set to min(LIMIT, CAP). -/
  | qryRateWindow
  /-- R392. A multicast launch packet is queued in each selected slot or refused with a LAUNCH_INVALID record. -/
  | launchPacketArrive
  /-- R391. A queued collective starts when its slot is free, initialising PC, XF, CHUNK, E and the registers. -/
  | collectiveStart
  /-- R376. The sequencer switches to the next READY slot at an instruction boundary. -/
  | seqTurn
  /-- R379. An arriving chunk is staged for its slot, or discarded on an owner mismatch. -/
  | chunkArrive
  /-- R385. A SIGF.peer update is applied to the slot's flag at DST. -/
  | peerFlagUpdateArrive
  /-- R382. A chunk or peer update not staged within FZ_TIMEOUT ends the instruction with UNREACHABLE. -/
  | seqSendTimeout
  /-- R415. When a pool entry falls free, a waiting LAUNCHC's record is copied into it. -/
  | childCopyTaken
  /-- R416. A team whose live groups all wait at JOINC is switched out and back in after a child completes. -/
  | joinPark
  /-- R94. The work distributor admits and starts a team on a core once the core's limits allow it. -/
  | teamPlace
  /-- R44. Stops each group of a team at its next switch point. -/
  | preemption
  /-- R411. A read returns and consumes one ticket for the next claimable packet or pool entry. -/
  | feClaimRead
  /-- R411. A packet whose header reads EMPTY is read again every 1,024 uncore cycles. -/
  | emptyPacketPoll
  /-- R410. The DEP words of an AND packet are polled every 1,024 uncore cycles until each reaches TARGET. -/
  | andDependencyPoll
  /-- R412. Writes the completion release, writes an event record and advances UQ_DONE. -/
  | packetComplete
  /-- R419. A fault record is written to the context's fault queue once a queue slot is free. -/
  | faultRecordWrite
  /-- R409. A kick advances the producer index, or is ignored, or halts the queue with BAD_KICK. -/
  | uqWptrWrite
  /-- R409. Writes queue configuration; while enabled, only ENABLE and EVQ are taken. -/
  | uqCfgWrite
  /-- R409. Clears ERR and HALTED and continues after the failed packet. -/
  | uqCtrlResume
  /-- R409. Resets every queue index to 0 when no claimed packet is incomplete. -/
  | uqCtrlReset
  /-- R420. Ends service by resuming the group or operation at the stop, or by resolving the service future DONE. -/
  | feResumeRetry
  /-- R420. Ends service by resuming past a precise fault. -/
  | feResumeSkip
  /-- R420. Ends service by terminating the team or ending the operation with the record's code. -/
  | feResumeEnd
  /-- R432. Starts the boot ROMs, which verify the signed image and start every agent or set BOOT_ERR. -/
  | feCtrlBoot
  /-- R404. Setting RUN lets the firmware slot issue again. -/
  | fwCtrlRun
  /-- R418. Requests that the agents switch out every team of the context. -/
  | ctxCtrlPreempt
  /-- R64. A host write fires the host snapshot trigger. -/
  | snapFire
  /-- R64. Writing 1 to FULL re-arms the snapshot banks. -/
  | snapStatusFullClear
  /-- R67. A rising edge on SNAP_IN fires the pin trigger within 100 ns. -/
  | snapInEdge
  /-- R66. At a snapshot packet's due time, or at once if it arrived late, the package latches. -/
  | snapPacketDue
  /-- R371. A write sends a snapshot packet multicast to the leaf group or the domain. -/
  | fzSnapSend
  /-- R368. Installs a fresh key pair for the next link training. -/
  | fzKeyctlInstall
  /-- R368. A link trains under the installed keys, consuming them and resetting the slot counters. -/
  | linkTrain
  /-- R368. Loss of alignment, excess TAG failures or clearing ENABLE takes the link down. -/
  | linkDown
  /-- R367. Each flit slot sends one encrypted flit, idle or replayed, under the next counter value. -/
  | flitTransmit
  /-- R367. A received flit is CRC- and tag-checked, then taken or discarded with a replay request. -/
  | flitReceive
  /-- R358. Sets or clears a port remap, to take effect once the port is idle. -/
  | fzRemapWrite
  /-- R358. Once port p has no outstanding request, the remap becomes ACTIVE or inactive. -/
  | remapTakeEffect
  /-- R372. A FZ_PKGCFG write takes effect once the package has no outstanding remote request. -/
  | pkgcfgTakeEffect
  /-- R362. A remote request arriving at ingress is checked and performed in sequence order, or held until its gap fills. -/
  | remoteRequestArrive
  /-- R360. Data, an old value, an acknowledgement or a refusal returns to the requesting port. -/
  | remoteResponseArrive
  /-- R362. A sequence gap unfilled for FZ_TIMEOUT is skipped. -/
  | fzGapTimeout
  /-- R364. A request without a response within FZ_TIMEOUT, or at a port down that long, ends UNREACHABLE. -/
  | fzRequestTimeout
  /-- R370. A spine timing packet corrects the fabric time without letting it run backwards. -/
  | ftimeTimingPacket
  /-- R389. In single-step mode, runs one more sequencer instruction. -/
  | lnGo
  /-- R387. Re-executes a faulted sequencer instruction from its first step. -/
  | lnSlotctlResume
  /-- R387. Puts the slot in ERROR at the next boundary with status CANCELLED. -/
  | lnSlotctlAbort
  /-- R401. Assigns a slot's owner and validity, taken only while the slot is FREE. -/
  | lnSlotcfgWrite
  /-- R136. A new scratchpad partition takes effect when the core has no resident team, invalidating L1. -/
  | spStepsTakeEffect
  /-- R6. A read of an RC register returns its value and clears it. -/
  | readClearRegister
  /-- R6. A write to a management register that has no row of its own sets its fields per their access codes. -/
  | registerWrite
  /-- R407. A host access through PF BAR2 reaches package physical memory. -/
  | hostBar2Access
  /-- R407. A host access through VF BAR2 is translated in the VF's context, or completes with Unsupported Request. -/
  | vfBar2Access
  /-- R95. At each 10 µs interval end, the vector-clock governor moves its step one towards the target. -/
  | vclkInterval
  /-- R434. Every 100 µs, lowers or raises one cap based on power and temperature. -/
  | powerGovernorEval
  /-- R432. Reads the EEPROM, trains DRAM and sets every register to its reset value. -/
  | reset
  /-- R399. When C core cycles have passed since the LWAIT's latest execution, the wait ends, D receives the flag value read, and nothing is ordered. -/
  | lwaitTimeout
  /-- R335. When GFILL's timeout runs out, counted from its latest execution, it writes the count of fills and measurements still outstanding. -/
  | gfillTimeout
  /-- R132. At a moment the device chooses, the LLC evicts a line and writes a dirty line back to its DRAM copy. -/
  | llcLineEviction
  /-- R138. At a moment the device chooses, an L1 line, or an instruction-cache line, is evicted, so the next weak load or fetch refills it from the LLC. -/
  | l1LineEviction
  /-- R379. The sender's port learns that DST has staged a chunk or applied a peer update, or that DST has consumed a chunk and freed a credit, so the waiting chunk instruction or SIGF.peer completes or may send again. -/
  | chunkCreditReturn
  /-- R142. The completion of the zero-length read that the host link issues behind posted writes advances DONE_TO for the host link and confirms event-ring writes. -/
  | zeroLengthReadCompletion
  deriving DecidableEq, Repr

end Sys2Proof
end

