-- ==== Sys2Proof/WellFormed.lean ====
section
/-! DEFINITION. Which terms of `Instr` stand for something the package can hold.

A full-form constructor that is one of several forms of an opcode is well formed when its FN selects that form (the
decoder's choice, R82 and the home chapters). Every other term is well formed: R79 lets a word hold any field value, and
a device event has no operands. -/

namespace Sys2Proof

/-- The instruction or event is well formed. -/
def Instr.wf : Instr → Bool
  | .nop _ => true
  | .yield _ => true
  | .loop _ => true
  | .ifence _ => true
  | .pairedWord _ => true
  | .bra _ => true
  | .brx _ => true
  | .call _ => true
  | .ret _ => true
  | .join _ => true
  | .meet _ => true
  | .exit _ => true
  | .pset _ => true
  | .psetf _ => true
  | .plop _ => true
  | .pmovGet f => !(f.fn.getLsbD 0)
  | .pmovSet f => (f.fn.getLsbD 0)
  | .vote _ => true
  | .kmovGet f => !(f.fn.getLsbD 4)
  | .kmovSet f => (f.fn.getLsbD 4)
  | .ftest f => !(f.fn.getLsbD 0)
  | .ftestH f => (f.fn.getLsbD 0)
  | .fwait f => !(f.fn.getLsbD 1) && !(f.fn.getLsbD 0)
  | .fwaitH f => !(f.fn.getLsbD 1) && (f.fn.getLsbD 0)
  | .fwaitAll f => (f.fn.getLsbD 1)
  | .fcancel _ => true
  | .fmovMove f => !(f.fn.getLsbD 1) && !(f.fn.getLsbD 0)
  | .fmovExport f => !(f.fn.getLsbD 1) && (f.fn.getLsbD 0)
  | .fmovImport f => (f.fn.getLsbD 1)
  | .tbar f => !(f.fn.getLsbD 4)
  | .tbarArr f => (f.fn.getLsbD 4)
  | .srd _ => true
  | .swr _ => true
  | .trap _ => true
  | .bkpt _ => true
  | .fresume _ => true
  | .add _ => true
  | .sub _ => true
  | .addc _ => true
  | .subb _ => true
  | .mul _ => true
  | .mulh _ => true
  | .mad _ => true
  | .madw _ => true
  | .min _ => true
  | .max _ => true
  | .abs _ => true
  | .sad _ => true
  | .and _ => true
  | .or _ => true
  | .xor _ => true
  | .andn _ => true
  | .shl _ => true
  | .shr _ => true
  | .sar _ => true
  | .fshf _ => true
  | .bfx _ => true
  | .bfi _ => true
  | .popc _ => true
  | .clz _ => true
  | .brev _ => true
  | .sel _ => true
  | .lea _ => true
  | .addx _ => true
  | .mov _ => true
  | .movw _ => true
  | .ext _ => true
  | .fadd _ => true
  | .fsub _ => true
  | .fmul _ => true
  | .ffma _ => true
  | .fmin _ => true
  | .fmax _ => true
  | .frcp _ => true
  | .frsq _ => true
  | .fsqrt _ => true
  | .fexp2 _ => true
  | .flog2 _ => true
  | .fdiv _ => true
  | .fclass _ => true
  | .fdot2 _ => true
  | .cadd _ => true
  | .fstat _ => true
  | .shfl _ => true
  | .bcast _ => true
  | .ballot _ => true
  | .scan _ => true
  | .redux _ => true
  | .matchLanes _ => true
  | .hist _ => true
  | .pack _ => true
  | .cvt _ => true
  | .cvts _ => true
  | .qblk _ => true
  | .dqblk _ => true
  | .ppq _ => true
  | .ppdq _ => true
  | .osplit _ => true
  | .efq _ => true
  | .iqs _ => true
  | .idqs _ => true
  | .fscale _ => true
  | .fexpo _ => true
  | .nfchk _ => true
  | .rmuln _ => true
  | .umuln _ => true
  | .rshr _ => true
  | .ushr _ => true
  | .radd _ => true
  | .uadd _ => true
  | .rmad _ => true
  | .umad _ => true
  | .rlrel _ => true
  | .ulrel _ => true
  | .rnarr _ => true
  | .unarr _ => true
  | .rmark _ => true
  | .umark _ => true
  | .ld _ => true
  | .st _ => true
  | .lds _ => true
  | .sts _ => true
  | .ldv _ => true
  | .stv _ => true
  | .prefL1 f => (f.fn.extractLsb' 0 2 == 0)
  | .prefLlc f => !(f.fn.extractLsb' 0 2 == 0)
  | .disc _ => true
  | .flushWb f => !(f.fn.getLsbD 1) && !(f.fn.getLsbD 0)
  | .flushInv f => !(f.fn.getLsbD 1) && (f.fn.getLsbD 0)
  | .flushL1 f => (f.fn.getLsbD 1)
  | .atom _ => true
  | .cas _ => true
  | .atoms _ => true
  | .red _ => true
  | .fenceAcq f => (f.fn.extractLsb' 0 2 == 0)
  | .fenceRel f => !(f.fn.extractLsb' 0 2 == 0) && (f.fn.extractLsb' 0 2 == 1)
  | .fenceFull f => !(f.fn.extractLsb' 0 2 == 0) && !(f.fn.extractLsb' 0 2 == 1) && (f.fn.extractLsb' 0 2 == 2)
  | .fenceL1inv f => !(f.fn.extractLsb' 0 2 == 0) && !(f.fn.extractLsb' 0 2 == 1) && !(f.fn.extractLsb' 0 2 == 2)
  | .mwait _ => true
  | .sld _ => true
  | .sst _ => true
  | .hcopy _ => true
  | .htile _ => true
  | .hfill _ => true
  | .hgather _ => true
  | .hscatter _ => true
  | .hstat _ => true
  | .binit _ => true
  | .barrive _ => true
  | .bexpect f => !(f.fn.getLsbD 0)
  | .bexpectArr f => (f.fn.getLsbD 0)
  | .bwait _ => true
  | .btry _ => true
  | .bcont _ => true
  | .btrig _ => true
  | .mldw _ => true
  | .mswap _ => true
  | .mstream _ => true
  | .mrdy _ => true
  | .mdrain _ => true
  | .mapply _ => true
  | .mzero _ => true
  | .mcfg _ => true
  | .mscale _ => true
  | .mdmap _ => true
  | .mstat _ => true
  | .taga _ => true
  | .tagf _ => true
  | .ksend _ => true
  | .ksends _ => true
  | .kstat f => !(f.fn.getLsbD 0)
  | .kstatCtr f => (f.fn.getLsbD 0)
  | .kcfgDest f => !(f.fn.getLsbD 1) && !(f.fn.getLsbD 0)
  | .kcfgTmo f => !(f.fn.getLsbD 1) && (f.fn.getLsbD 0)
  | .kcfgOvf f => (f.fn.getLsbD 1)
  | .fetch _ => true
  | .tdone _ => true
  | .gcfgTarget f => !(f.fn.getLsbD 1) && !(f.fn.getLsbD 0)
  | .gcfgRung f => !(f.fn.getLsbD 1) && (f.fn.getLsbD 0)
  | .gcfgProbe f => (f.fn.getLsbD 1)
  | .gstat _ => true
  | .gfill _ => true
  | .qloadx _ => true
  | .qgemv _ => true
  | .qfenceW f => !(f.fn.extractLsb' 0 2 == 3) && !(f.fn.getLsbD 1)
  | .qfenceR f => !(f.fn.extractLsb' 0 2 == 3) && (f.fn.getLsbD 1)
  | .qfenceWr f => (f.fn.extractLsb' 0 2 == 3)
  | .qstat f => !(f.fn.getLsbD 0)
  | .qstatSt f => (f.fn.getLsbD 0)
  | .llaunch _ => true
  | .lflagAdd f => !(f.fn.getLsbD 0)
  | .lflagSet f => (f.fn.getLsbD 0)
  | .lwait _ => true
  | .lstat _ => true
  | .seqNop _ => true
  | .xmit _ => true
  | .rcvst _ => true
  | .rcvcmb _ => true
  | .rcvcf _ => true
  | .rcvfw _ => true
  | .waitf _ => true
  | .sigf q => !q.md.getLsbD 1
  | .sigfPeer q => q.md.getLsbD 1
  | .seqLoop _ => true
  | .movi _ => true
  | .addi _ => true
  | .seqAdd _ => true
  | .bnz _ => true
  | .scaleEnc q => !q.md.getLsbD 0
  | .scaleDec q => q.md.getLsbD 0
  | .seqYield _ => true
  | .seqHalt _ => true
  | .launchc _ => true
  | .joinc _ => true
  | .snap _ => true
  | .ctxswOut f => !(f.fn.getLsbD 0)
  | .ctxswIn f => (f.fn.getLsbD 0)
  | .tlbiVa f => !(f.fn.getLsbD 2) && !(f.fn.extractLsb' 0 2 == 3) && !(f.fn.extractLsb' 0 2 == 2) && !(f.fn.extractLsb' 0 2 == 1)
  | .tlbiCtx f => !(f.fn.getLsbD 2) && !(f.fn.extractLsb' 0 2 == 3) && !(f.fn.extractLsb' 0 2 == 2) && (f.fn.extractLsb' 0 2 == 1)
  | .tlbiAll f => !(f.fn.getLsbD 2) && !(f.fn.extractLsb' 0 2 == 3) && (f.fn.extractLsb' 0 2 == 2)
  | .tlbiIc f => !(f.fn.getLsbD 2) && (f.fn.extractLsb' 0 2 == 3)
  | .tlbiIcall f => (f.fn.getLsbD 2)
  | .eret _ => true
  | .psrd _ => true
  | .pswr _ => true
  | .wdplace _ => true
  | .halt _ => true
  | .forcedSwitchPoint => true
  | .barTimeout => true
  | .mwaitWake => true
  | .mwaitPoll => true
  | .mwaitTimeout => true
  | .loadDataReturn => true
  | .storePerform => true
  | .wideReleasePerform => true
  | .deferredFaultReport => true
  | .registerCacheFill => true
  | .registerCacheWriteback => true
  | .softError => true
  | .haulUnitTransfer => true
  | .haulOpComplete => true
  | .ashlarOpComplete => true
  | .ashBudgetWindow => true
  | .ksOperandArrive => true
  | .ksOrphanTimeout => true
  | .ksOrphanRecordExpiry => true
  | .ksForwardRetry => true
  | .ksRecordDeferredWrite => true
  | .groutFill => true
  | .probeMeasure => true
  | .gridEnd => true
  | .qloadxComplete => true
  | .qgemvComplete => true
  | .quarryOperandResend => true
  | .quarryAsyncFault => true
  | .qryRateWindow => true
  | .launchPacketArrive => true
  | .collectiveStart => true
  | .seqTurn => true
  | .chunkArrive => true
  | .peerFlagUpdateArrive => true
  | .seqSendTimeout => true
  | .childCopyTaken => true
  | .joinPark => true
  | .teamPlace => true
  | .preemption => true
  | .feClaimRead => true
  | .emptyPacketPoll => true
  | .andDependencyPoll => true
  | .packetComplete => true
  | .faultRecordWrite => true
  | .uqWptrWrite => true
  | .uqCfgWrite => true
  | .uqCtrlResume => true
  | .uqCtrlReset => true
  | .feResumeRetry => true
  | .feResumeSkip => true
  | .feResumeEnd => true
  | .feCtrlBoot => true
  | .fwCtrlRun => true
  | .ctxCtrlPreempt => true
  | .snapFire => true
  | .snapStatusFullClear => true
  | .snapInEdge => true
  | .snapPacketDue => true
  | .fzSnapSend => true
  | .fzKeyctlInstall => true
  | .linkTrain => true
  | .linkDown => true
  | .flitTransmit => true
  | .flitReceive => true
  | .fzRemapWrite => true
  | .remapTakeEffect => true
  | .pkgcfgTakeEffect => true
  | .remoteRequestArrive => true
  | .remoteResponseArrive => true
  | .fzGapTimeout => true
  | .fzRequestTimeout => true
  | .ftimeTimingPacket => true
  | .lnGo => true
  | .lnSlotctlResume => true
  | .lnSlotctlAbort => true
  | .lnSlotcfgWrite => true
  | .spStepsTakeEffect => true
  | .readClearRegister => true
  | .registerWrite => true
  | .hostBar2Access => true
  | .vfBar2Access => true
  | .vclkInterval => true
  | .powerGovernorEval => true
  | .reset => true
  | .lwaitTimeout => true
  | .gfillTimeout => true
  | .llcLineEviction => true
  | .l1LineEviction => true
  | .chunkCreditReturn => true
  | .zeroLengthReadCompletion => true

end Sys2Proof
end

