-- ==== Sys2Proof/Machine/State.lean ====
section
/-! DEFINITION. The state of one XK80 package, as plain data.

Collections are lists or sparse maps (`Sparse`). A key that a sparse map does not list holds the default of that map,
which is its reset or admission value. The fields `agenda`, `focus`, `input`, `queued`, `turns`, `ticks` and `fresh` are the
model's own (log 1, 2, 3); every other field is the spec's. -/

namespace Sys2Proof.Machine

open Sys2Proof

/-! ## What comes from outside, and whose turn it is -/

/-- Where an uncorrectable soft error is detected (R55, R162, R169, R229, R255, R315). -/
inductive SoftTarget where
  /-- A 64-byte granule of DRAM or of the LLC, by package physical address. -/
  | memory (address : Nat)
  /-- An 8-byte granule of a team's scratchpad. -/
  | scratch (core team address : Nat)
  /-- One 32-bit lane word of the register cache. -/
  | vector (core team group reg lane : Nat)
  /-- One scalar register. -/
  | scalar (core team group reg : Nat)
  /-- One bypass latch. -/
  | latch (core team group index : Nat)
  /-- An entry of a lane's Spoil window. -/
  | spoil (core team group lane index : Nat)
  /-- State of a team that carries no poison: program counters, future-table entries, barrier objects in flight,
  NB, COUNT or LOADED. -/
  | teamState (core team : Nat)
  /-- State of a Lintel slot that carries no poison. -/
  | slotState (port slot : Nat)
  /-- The header of an operand waiting in a Keystone station. -/
  | stationHeader (station index : Nat)
  /-- An access table block. -/
  | accessTable (block : Nat)
  deriving DecidableEq, Repr

/-- A future of a team: core, the team's grid slot (64 for the firmware slot's own team) and the handle's 64 bits (R22). A
team is named by its core and grid slot, which stay as they are when it is switched out and in (R12, R13, R421). -/
structure FutureRef where
  core : Nat
  grid : Nat
  handle : Word
  deriving DecidableEq, Repr

/-- A launch packet as it reaches a package: the issuer's context and package number, the 128 bytes as sixteen words, the
issuer's future on the issuing package, and a number that this package gives it at arrival (R390, R392). -/
structure LaunchPacket where
  context : Nat
  issuer : Nat
  words : List Word
  future : Option FutureRef
  number : Nat := 0
  deriving DecidableEq, Repr

/-- A chunk as it reaches a port: source package, owner context of the sending slot, elements, chunk flags and the
indices of poisoned elements (R379, R381); in the rail all-to-all also the ranks it goes between and the place of its
first element in its block (R394); and, once it is staged, the package physical address of its staging buffer. -/
structure Chunk where
  source : Nat
  owner : Nat
  elems : List W32
  xf : W32
  poison : List Nat
  route : Option (Nat × Nat × Nat) := none
  buffer : Nat := 0
  deriving DecidableEq, Repr

/-- What a sender's port learns from DST (R379, R382, R385). -/
inductive CreditNews where
  /-- DST has staged the chunk, or applied the peer update, that the slot waits for. -/
  | landed
  /-- DST has consumed a chunk of this slot and freed a credit. -/
  | consumed (dst : Nat)
  /-- DST discarded the chunk because its slot has another owner. -/
  | denied
  deriving DecidableEq, Repr

/-- What a remote request asks of the home slice (R359). -/
inductive RemoteOp where
  | read (drop : Bool)
  | write
  | atomic (aop : Nat) (wide : Bool) (operand swap : Word)
  | drop
  deriving DecidableEq, Repr

/-- A request as a port sends it or an ingress receives it (R359, R362): package and port of its source, its number in
that sequence, the issuing context, the local physical address, the bytes it touches as offset and value pairs (a read
lists zeros), whether it is posted, the page's DISC_EN, and the offsets of poisoned bytes. -/
structure RemoteRequest where
  package : Nat
  srcPort : Nat
  seq : Nat
  context : Nat
  address : Nat
  op : RemoteOp
  bytes : List (Nat × Byte)
  posted : Bool
  discEn : Bool
  poison : List Nat
  deriving DecidableEq, Repr

/-- What comes back for a remote request (R360, R364): the bytes read, each with its poison; an old value; an
acknowledgement; a refusal; or the refusal of an ingress that is disabled. -/
inductive RemoteResponse where
  | data (bytes : List (Byte × Bool))
  | old (value : Word) (poisoned : Bool)
  | ack
  | refused
  | ingressOff
  deriving DecidableEq, Repr

/-- One host access through a memory window (R407): an address in the window, the number of bytes to read, or the bytes
to write. -/
structure HostAccess where
  address : Nat
  count : Nat
  data : Option (List Byte)
  deriving DecidableEq, Repr

/-- What a turn brings from outside the package, or draws from a set the manual leaves open (R8). -/
inductive Input where
  | none
  | soft (target : SoftTarget)
  | mismatch (row column : Nat)
  | launch (packet : LaunchPacket)
  | chunk (chunk : Chunk)
  | flagUpdate (source flag : Nat) (set : Bool) (value : W32)
  | credit (news : CreditNews)
  | request (request : RemoteRequest)
  | response (response : RemoteResponse)
  | flit (bits : BitVec 512)
  | packetData (start : Bool) (bytes : List Byte)
  | host (access : HostAccess)
  | word (value : Word)
  | flag (value : Bool)
  | sensors (power logicTemp dramTemp : Nat)
  deriving DecidableEq, Repr

/-- Which core, team, group, port, slot, context or numbered thing a step concerns. For a SIMT word, `core`, `team` and
`group` name the issuing group; team slot 8 is the firmware slot's own group (R403; log 4). -/
structure Focus where
  core : Nat := 0
  team : Nat := 0
  group : Nat := 0
  index : Nat := 0
  port : Nat := 0
  slot : Nat := 0
  context : Nat := 0
  number : Nat := 0
  deriving DecidableEq, Repr

/-- What acts next: an issue slot of a core (`focus.core`, `focus.slot`), a core's firmware slot, a port's sequencer, or a
device event. -/
inductive What where
  | issue
  | firmware
  | sequencer
  | event (i : Instr)
  deriving DecidableEq, Repr

/-- One turn: the time that passes before it, in ticks of 1/12 ns, what the host and its peers have meanwhile written in
host memory (the PCI Express window, R128), and what then acts. -/
structure Turn where
  dt : Nat := 5
  host : List Host.Cell := []
  what : What
  focus : Focus := {}
  input : Input := .none
  deriving DecidableEq, Repr

/-! ## Memory -/

/-- Byte memory by address, canonical: rising addresses, no zero byte (an unlisted byte reads 0; log 5). -/
abbrev Memory := List Host.Cell

/-- A line of the LLC, of an L1 or of an instruction cache: its bytes by offset 0 to 127 (R132, R138, R88). `mixed` tells that the
line was accessed in DRAM, through a UC mapping, while the LLC held it. -/
structure Line where
  bytes : Memory := []
  dirty : Bool := false
  first : Bool := false
  mixed : Bool := false
  poison : List Nat := []
  deriving DecidableEq, Repr

/-- A cached translation: context, level of the leaf, virtual page number at that level, leaf entry (R134). -/
structure TlbEntry where
  context : Nat
  level : Nat
  page : Nat
  leaf : Word
  deriving DecidableEq, Repr

/-- A recent strong write seen by a home slice, kept for the mixed-size detector (R161). -/
structure StrongWrite where
  address : Nat
  size : Nat
  master : Nat
  writer : Focus
  time : Nat
  deriving DecidableEq, Repr

/-! ## Groups -/

/-- A bypass latch: valid or not, 64 bits a lane, poisoned lanes (R77, R78, R162). -/
structure Latch where
  valid : Bool := false
  vals : Sparse Word := []
  poison : Lanes := 0
  deriving DecidableEq, Repr

/-- An entry of a Spoil stack (R228). -/
structure SpoilEntry where
  tag : BitVec 4 := 0
  value : W32 := 0
  poison : Bool := false
  deriving DecidableEq, Repr

/-- A lane's Spoil stack state (R229); the window lists its entries bottom first. -/
structure SpoilLane where
  depth : Nat := 0
  nb : Nat := 0
  count : Nat := 0
  loaded : Bool := true
  window : List SpoilEntry := []
  deriving DecidableEq, Repr

/-- A word in a group's store queue (R140): its bytes as address and value pairs in performing order (scratchpad
addresses, or domain physical addresses), the bytes that are poisoned, whether it bypasses the LLC or allocates first
candidates (R132), whether it is a release, its access size, its number among the group's accesses, and the first address of
each lane. A word over both cached and UC pages has two entries. `ahead` is not 0 once the word has performed ahead of earlier accesses
of its group: the scope within which it still waits its turn (R35). -/
structure StoreEntry where
  scratch : Bool := false
  drop : Bool := false
  bytes : List (Nat × Byte) := []
  poison : List Nat := []
  uc : Bool := false
  first : Bool := false
  discEn : Bool := false
  release : Bool := false
  scope : Nat := 0
  size : Nat := 4
  seq : Nat := 0
  context : Nat := 0
  pc : Word := 0
  byLane : List (Nat × Nat) := []
  ahead : Nat := 0
  deriving DecidableEq, Repr

/-- One lane of a load in flight: the lane, the address of each of its bytes, whether it is weak, whether each byte bypasses
the LLC, whether its page is STREAM, and whether the page of each byte has DISC_EN (R132, R145, R147). -/
structure LaneLoad where
  lane : Nat
  addrs : List Nat
  weak : Bool := false
  ucs : List Bool := []
  first : Bool := false
  discs : List Bool := []
  deriving DecidableEq, Repr

/-- One atomic of a word (R152, R153): its domain physical or scratchpad address, what its page says, operand and swap value,
the lanes that take its old value, each with the combined operand of the lanes before it where there are any, and its
request. -/
structure AtomPart where
  addr : Nat
  uc : Bool := false
  first : Bool := false
  operand : Word
  swap : Word := 0
  takes : List (Nat × Option Word) := []
  request : Option (Nat × Nat) := none
  deriving DecidableEq, Repr

/-- A load whose data has not returned, or an atomic whose old values have not (R141, R145, R152): number among the group's
accesses, destination (nine-bit encoding), TYPE, registers written a lane, lanes, acquire, release and last use; the requests
(port, number) that are not answered, the bytes that came back, the lanes that failed; for an atomic its operation, its parts,
and the old values that came back, by lane. `given` holds the lanes that took their bytes from the store queue when the load was
sent, `early` bytes of lanes that have been read before, by lane and place (R31, R35). `ahead` is the scope within which what has performed
early still waits its turn, and `veil` the bytes that an atomic has then written (R35). -/
structure LoadEntry where
  seq : Nat := 0
  scratch : Bool := false
  atomic : Bool := false
  posted : Bool := false
  aop : Nat := 0
  wide : Bool := false
  dest : Nat := 0x184
  ttype : Nat := 4
  regs : Nat := 1
  quad : Bool := false
  lastUse : Bool := false
  acquire : Bool := false
  release : Bool := false
  scope : Nat := 0
  size : Nat := 4
  context : Nat := 0
  lanes : List LaneLoad := []
  parts : List AtomPart := []
  got : List (Nat × Word × Bool) := []
  remote : List (Nat × Nat) := []
  arrived : List (Nat × Byte) := []
  arrivedPoison : List Nat := []
  failed : Lanes := 0
  given : List (Nat × List (Byte × Bool)) := []
  early : List (Nat × Nat × Byte × Bool) := []
  ahead : Nat := 0
  veil : List Nat := []
  pc : Word := 0
  deriving DecidableEq, Repr

/-- Why a group is stopped: for firmware service of a record, or because its team is switched out (R44, R48). -/
inductive Stop where
  | fault (seq : Nat) (pc : Word) (precise : Bool)
  | switchedOut
  deriving DecidableEq, Repr

/-- What a TLBI waits for (R428): for each group with accesses in flight when it removed its entries, the core, grid slot and
index of the group and the number of its next access then; for each port the number of its next request; the last posted
number of the host link. -/
structure Drain where
  groups : List (Nat × Nat × Nat × Nat) := []
  ports : List (Nat × Nat) := []
  host : Nat := 0
  deriving DecidableEq, Repr

/-- A group of 32 lanes. `cur` is the current path; the other paths are the remaining lanes that are neither exited nor
held, by PCV (R100). `waits` gives each lane's wait start, `deadlines` the core cycle at which a timed wait runs out, by its PCV. `waiting` names
the lanes in a long wait of R91, `stalled` those whose word waits for anything else, `blocked` those whose word has blocked on
a pending register and is a switch point for it (R41), `retry` whether an event that their words may wait for has come; `kept`
holds the latches of a path whose word waits, by its PCV, `deferred` the records of deferred faults that have yet to stop the group, with the words
that caused them (R48), `acks` the lines of stores that have performed and are not acknowledged, a word each (R141), `cancelled` the handles of operations the group has cancelled that have not stopped (R118), `run` and `greed` the counts P.run and G.run of R102 and R92, `joining` the lanes at a blocked
JOINC and `joinOn` the handles they wait for (R418), `drain` what a TLBI waits for (R428) (R12, R20, R77, R91, R100, R119, R124, R140, R229, R263). -/
structure Group where
  sreg : Sparse Word := []
  vreg : Sparse W32 := []
  sregPoison : List Nat := []
  vregPoison : List Nat := []
  evicted : List Nat := []
  pcv : Sparse Word := []
  meetv : Sparse Word := []
  predv : Sparse Word := []
  kmask : Sparse Lanes := []
  exited : Lanes := 0
  held : Lanes := 0
  heldK : Sparse Nat := []
  spend : BitVec 128 := 0
  fpflags : BitVec 5 := 0
  mwaitAddr : Word := 0
  mwaitRead : Nat := 0
  mwaitValue : Word := 0
  mwaitData : Option (List Byte × Bool) := none
  mwaitReq : Option ((Nat × Nat) × Nat) := none
  seed : Sparse W32 := []
  spoil : Sparse SpoilLane := []
  contState : Word := 0
  contLanes : Word := 0
  resumev : Sparse Word := []
  tblanes : Sparse Lanes := []
  tbwait : Sparse Lanes := []
  tbpass : Lanes := 0
  bwstate : Word := 0
  bwlanes : Word := 0
  latches : List Latch := []
  cur : Lanes := 0
  run : Nat := 0
  count : Nat := 0
  waits : Sparse Nat := []
  waiting : Lanes := 0
  stalled : Lanes := 0
  blocked : Lanes := 0
  retry : Bool := false
  kept : List (Nat × List Latch) := []
  pathLoop : Option (Nat × Nat) := none
  greed : Nat := 0
  yielded : Bool := false
  yieldPend : Bool := false
  barred : Bool := false
  active : Bool := false
  readySince : Nat := 0
  deadlines : Sparse Nat := []
  storeQ : List StoreEntry := []
  acks : List Nat := []
  loads : List LoadEntry := []
  memNext : Nat := 0
  posted : Nat := 0
  recorded : List (Nat × List (Nat × Nat)) := []
  rdy : Nat := 0
  mstats : List (Nat × Nat) := []
  stop : Option Stop := none
  deferred : List (Nat × Word) := []
  cancelled : List Word := []
  preempt : Bool := false
  joining : Lanes := 0
  joinOn : List Word := []
  drain : Option Drain := none
  deriving DecidableEq, Repr

/-! ## Teams -/

/-- The four states of a future-table entry (R114). -/
inductive FutureState where
  | free
  | pending
  | exported
  | doneExported
  deriving DecidableEq, Repr

/-- An entry of a team's future table (R19, R22, R114): state, engine, generation, the group and register that hold a
pending handle, the status word of a completed exported operation, whether it is a service entry (R125), the operation's
scope, and its progress record (R51). -/
structure FutureEntry where
  state : FutureState := .free
  engine : Nat := 0
  gen : Nat := 0
  group : Nat := 0
  reg : Nat := 0
  status : Word := 0
  service : Bool := false
  scope : Nat := 0
  progress : Word := 0
  deriving DecidableEq, Repr

/-- State of a team barrier (R119). -/
structure TeamBarrier where
  arrived : Nat := 0
  phase : Bool := false
  first : Nat := 0
  deriving DecidableEq, Repr

/-- What a byte of scratchpad held before a write, and the number of that write: an operand window that began no later may
find it (R284). -/
structure SpOld where
  seq : Nat
  addr : Nat
  byte : Byte
  poison : Bool
  deriving DecidableEq, Repr

/-- Scratchpad bytes that an engine operation writes single-copy atomically (R285). -/
structure SpUnit where
  addr : Nat
  bytes : List Byte
  poison : Bool
  deriving DecidableEq, Repr

/-- What a drain or apply under way has counted of NAN_OUT, INF_OUT and SAT_OUT (R53, R290). -/
structure DrainCounts where
  nan : Nat := 0
  inf : Nat := 0
  sat : Nat := 0
  deriving DecidableEq, Repr

/-- A staged Ashlar stream or any Ashlar operation in engine order (R270, R271, R294): opcode, FN, the operand values, the
descriptor or map as it was read at issue, barrier, handle, issuing group and word; the number of the first scratchpad write
that its operand window takes in (R284), the elements it has computed, what it has computed and not yet written, latest first,
what the elements of its row give the row's flag word, and what it has counted. -/
structure AshOp where
  op : Nat
  fn : BitVec 11
  bval : Word := 0
  desc : List W32 := []
  bar : Option Nat := none
  handle : Option Word := none
  group : Nat := 0
  pc : Word := 0
  started : Bool := true
  window : Nat := 0
  next : Nat := 0
  landing : List SpUnit := []
  flags : Nat := 0
  counts : DrainCounts := {}
  rowsSent : Nat := 0
  rowStatus : List (Nat × Word) := []
  draining : Bool := false
  full : Bool := false
  deriving DecidableEq, Repr

/-- A launch staged for a trigger (R397). -/
structure StagedLaunch where
  packet : LaunchPacket
  barrier : Nat
  phase : Bool
  deriving DecidableEq, Repr

/-- Whose step resolves when an operand's step ends (R302, R287, R349). -/
inductive Sender where
  | none
  | future (f : FutureRef)
  | drainRow (core grid : Nat) (pc : Word) (row : Nat)
  | gemv (core grid id operand : Nat)
  deriving DecidableEq, Repr

/-- A page piece of a record's global target, as it was translated at the send: virtual and physical address of its first
byte, and the leaf (R302, R309). -/
structure Piece where
  va : Nat
  pa : Nat
  leaf : Word
  deriving DecidableEq, Repr

/-- A Keystone operand (R302): `master` is the ID its arrival is checked under, `poison` its poisoned elements, `origin` the
station and DS of the step that forwarded it, until it is taken; `since` when it was stored, or last offered; `slot` the address of its
overflow slot, with the number of the first free value written there (R304). -/
structure Operand where
  tag : W32
  payload : List W32
  flags : W32 := 0
  cdf : W32 := 0
  scope : Nat := 2
  gridSlot : Nat := 0
  target : List Piece := []
  senders : List Sender := []
  sub : Bool := false
  level : Nat := 0
  since : Nat := 0
  master : Nat := 0
  poison : List Nat := []
  origin : Option (Nat × Nat) := none
  slot : Option (Nat × Nat) := none
  deriving DecidableEq, Repr

/-- A Quarry operation (R343 to R353): for QLOADX the source `src`, LEN and format; for QGEMV its descriptor, the operands
B and C, the input that it has read from its slot with its format and poison, COUNT, the operands whose steps have ended, with their
status words, and those that were refused (R349). -/
structure QuarryOp where
  id : Nat
  gemv : Bool
  slot : Nat
  fmt : Nat
  ifmt : Nat := 0
  ks : Bool := false
  len : Nat := 0
  src : Nat := 0
  desc : List W32 := []
  bval : Word := 0
  cval : W32 := 0
  scope : Nat := 2
  handle : Option Word := none
  group : Nat := 0
  pc : Word := 0
  count : Nat := 0
  outcomes : List (Nat × Word) := []
  refused : List Operand := []
  stopped : Option Nat := none
  ended : Option Nat := none
  cancelled : Bool := false
  input : Option (List W32) := none
  inputPoison : Bool := false
  deriving DecidableEq, Repr

/-- A weight plane of the Ashlar array with its latched attributes (R268, R275); weights are element codes by
128 k + n, block scales E5M2 codes by 16 n + b. -/
structure Plane where
  rows : Nat := 0
  cols : Nat := 0
  wfmt : Nat := 0
  blen : Nat := 0
  weights : Sparse Nat := []
  scales : Sparse Nat := []
  tscale : BitVec 16 := 0x3F80
  poison : Bool := false
  deriving DecidableEq, Repr

/-- The Ashlar engine of a core (R268, R270, R290). -/
structure Ashlar where
  active : Plane := {}
  shadow : Plane := {}
  dmap : BitVec 256 := 0
  redundant : Bool := false
  plinth : Sparse W32 := []
  plinthPoison : List Nat := []
  nanOut : Nat := 0
  infOut : Nat := 0
  satOut : Nat := 0
  mismatch : Nat := 0
  queue : List AshOp := []
  entered : Nat := 0
  deriving DecidableEq, Repr

/-- Where a team stands: issuing, on its way out with the handles that resolve when it is gone, or switched out with its state
in its image (R421, R422). -/
inductive Residency where
  | resident
  | leaving (writeBack : Bool) (handles : List FutureRef)
  | out (writeBack : Bool)
  deriving DecidableEq, Repr

/-- A team (R12, R18, R19, R265, R342). -/
structure Team where
  context : Nat := 0
  core : Nat := 0
  gridSlot : Nat := 0
  gridSeq : Nat := 0
  image : Nat := 0
  contAddr : Word := 0
  barTimeout : Word := 0
  nonfinite : Bool := false
  spillBase : Word := 0
  roleShape : Word := 0
  scratchSize : Nat := 0
  ftab : Sparse FutureEntry := []
  tbstate : Sparse TeamBarrier := []
  scratch : Memory := []
  scratchPoison : List Nat := []
  spSeq : Nat := 0
  spOld : List SpOld := []
  qslotHdr : Sparse Word := []
  staged : Sparse AshOp := []
  lintelStaged : Sparse StagedLaunch := []
  quarry : List QuarryOp := []
  groups : Sparse Group := []
  residency : Residency := .resident
  order : Nat := 0
  joinParked : Bool := false
  joinReady : Bool := false
  endCode : Nat := 0
  ashSaved : Option Ashlar := none
  deriving DecidableEq, Repr

/-! ## Engines of a core -/

/-- A Haul operation in flight, or kept for a switched-out team (R244 to R254, R266): the addresses it copies between (`src` is
the pattern of a fill), its descriptor, COUNT, the row whose index it has read, the record it waits on, how it has ended, and
its posted writes that are not acknowledged, as port, number, and position of their first bytes; `early` the bytes read before
their turn, by position, `ahead` the positions written before their turn, with where. -/
structure HaulOp where
  id : Nat
  grid : Nat
  group : Nat
  pc : Word
  op : Nat
  fn : BitVec 11
  bar : Option Nat := none
  dst : Word := 0
  src : Word := 0
  total : Nat := 0
  desc : List W32 := []
  handle : Option Word := none
  count : Nat := 0
  row : Option (Nat × Nat) := none
  stopped : Option Nat := none
  ended : Option Nat := none
  cancelled : Bool := false
  saved : Bool := false
  posts : List ((Nat × Nat) × Nat) := []
  early : List (Nat × Byte × Bool) := []
  ahead : List (Nat × Nat) := []
  deriving DecidableEq, Repr

/-- An issue slot of a core: its current group as (team, group), whether it selects again before it next issues, and the loop capture it holds: owner, body start and
words (R89, R91, R92). -/
structure IssueSlot where
  cur : Option (Nat × Nat) := none
  resel : Bool := true
  capture : Option (Nat × Nat × Nat × List Word) := none
  deriving DecidableEq, Repr

/-- A core (R3). Team slots 0 to 7 hold admitted teams; `fw` is the firmware slot's own team and group (R403). `issued` is the
core cycle in which a word was last issued, and its slot: words of one cycle issue in ascending slot order (R270, R347); `fwIssued` is the
time of the firmware slot's last word (R403); `spSteps` is the
partition in effect, and `spWritten` tells that LSU_CFG has been written since it took effect (R136). -/
structure Core where
  teams : Sparse Team := []
  fw : Team := { gridSlot := 64, roleShape := 0x40000000000000, groups := [(0, { exited := 0xFFFFFFFE, cur := 1 })] }
  slots : Sparse IssueSlot := []
  issued : Option (Nat × Nat) := none
  fwIssued : Option Nat := none
  l1 : Sparse Line := []
  icache : Sparse Line := []
  haul : List HaulOp := []
  nextId : Nat := 1
  ash : Ashlar := {}
  spSteps : Nat := 3
  spWritten : Bool := false
  launches : Nat := 0
  deriving DecidableEq, Repr

/-! ## Keystone -/

/-- A Keystone station: its matching store and its orphan records with their times, oldest first (R303). -/
structure Station where
  store : List Operand := []
  orphans : List (W32 × Nat) := []
  deriving DecidableEq, Repr

/-- A record that has yet to be written in full (R306, R307): its address, the cores that it is yet to be written on, or the posted
writes that are not acknowledged; the bytes of a global record that are still to be written behind them, of its flag word and its
status word, the latter also behind the posted numbers in `marks` (R314); whether some copy is written, and the failure of a
write. -/
structure HeldRecord where
  number : Nat
  operand : Operand
  station : Nat
  ds : Nat
  address : Nat := 0
  cores : List Nat := []
  wrote : Bool := false
  posts : List (Nat × Nat) := []
  left : Nat := 0
  marks : List (Nat × Nat) := []
  failed : Option Nat := none
  deriving DecidableEq, Repr

/-! ## Dispenser and Grout -/

/-- A skipped tile to fill, or a probe to measure: position, probe number (0 for a fill), the record it waits on, the measured
P of a probe, whether it is abandoned, and once it is written the posted writes that are not acknowledged (R320, R326, R328,
R336). A fill that is written in parts holds its bytes with their poison, the numbers of those still to be written, and the
posted writes so far (R327). -/
structure GroutJob where
  x : Nat
  y : Nat
  z : Nat
  probe : Nat := 0
  waiting : Option Nat := none
  measured : Option W32 := none
  abandoned : Bool := false
  posts : Option (List (Nat × Nat)) := none
  tile : Option (List (Byte × Bool)) := none
  left : List Nat := []
  sent : List (Nat × Nat) := []
  deriving DecidableEq, Repr

/-- Who is told when a grid ends: the future of WDPLACE or LAUNCHC (R415, R417). -/
structure GridOwner where
  futures : List FutureRef := []
  deriving DecidableEq, Repr

/-- A grid slot of the dispenser in use (R13, R317 to R337). -/
structure Grid where
  slot : Nat := 0
  context : Nat
  seq : Nat
  record : List Word
  cores : BitVec 96
  placed : List Nat := []
  exited : List Nat := []
  walk : Nat := 0
  skipped : Nat := 0
  probeCode : Nat := 0
  target : BitVec 16 := 0
  rung : Nat := 0
  start : Nat := 0
  lowrun : Bool := false
  lastErr : W32 := 0
  updates : Nat := 0
  probes : Nat := 0
  computeOut : Nat := 0
  probeOut : Nat := 0
  patterns : Sparse Nat := []
  outstanding : List Word := []
  jobs : List GroutJob := []
  fills : Nat := 0
  ignored : Nat := 0
  abandoned : Nat := 0
  status : Nat := 0
  owner : GridOwner := {}
  deriving DecidableEq, Repr

/-- A grid handed to the work distributor that waits for a grid slot (R318, R417). -/
structure WaitingGrid where
  context : Nat
  record : List Word
  pick : Nat
  owner : GridOwner
  deriving DecidableEq, Repr

/-! ## Fozen ports -/

/-- The team behind a word whose effects may outlast it: context, team slot, and the sequence number of its grid. -/
structure Origin where
  context : Nat := 0
  team : Nat := 0
  grid : Nat := 0
  deriving DecidableEq, Repr

/-- What reads memory of other packages a line at a time until it has all it needs (R359): a unit of a Haul operation, the
tiles of a Grout job, the next packet of a queue, a DEP word of a packet, a LAUNCHC record that is copied, a word of a group
(core, sequence number of its grid, group, PCV), or an access of a virtual function. -/
inductive Reader where
  | haul (core id : Nat)
  | grout (grid x y z : Nat)
  | packet (queue : Nat)
  | dep (queue index number : Nat)
  | childCopy
  | word (core grid group : Nat) (pc : Word)
  | virtual (number : Nat)
  deriving DecidableEq, Repr

/-- A read of bytes of one line of another package: the line, the offsets of the bytes, the request while it is not answered, and
what came back: the bytes with their poison, or a trap code with its FR_INFO (R360, R364). With `write` it is a write that the
reader waits for. -/
structure FarRead where
  reader : Reader
  line : Nat
  offsets : List Nat
  request : Option (Nat × Nat)
  got : List (Byte × Bool) := []
  fail : Option (Nat × W32) := none
  write : Bool := false
  deriving DecidableEq, Repr

/-- Who issued a remote request (R359, R364): a load or atomic of a group by the number of its entry, the read of an
MWAIT, a store of a group, a Haul operation, a Keystone delivery, a fill, the front end, or a reader. -/
inductive Issuer where
  | load (core grid group seq : Nat)
  | mwait (core grid group : Nat)
  | store (core grid group : Nat) (pc : Word) (lanes : Lanes) (origin : Origin)
  | haul (core id : Nat)
  | keystone (number : Nat)
  | grout (grid x y z : Nat)
  | frontEnd (number : Nat)
  | reads (reader : Reader)
  deriving DecidableEq, Repr

/-- A request a port has accepted and that is not answered (R361): its number at the port, its number in the port's posted
sequence when it is posted, the nanosecond of its acceptance, and whether its failure is on its way to be reported. -/
structure Outstanding where
  id : Nat
  request : RemoteRequest
  dst : Nat
  issuer : Issuer
  postedNo : Option Nat
  since : Nat
  reported : Bool := false
  deriving DecidableEq, Repr

/-- A failed posted request whose record has not been serviced (R365). -/
structure FailedPost where
  number : Nat
  context : Nat
  seq : Nat
  address : Nat
  cause : Option Nat
  issuer : Issuer
  deriving DecidableEq, Repr

/-- What an ingress keeps for one (source package, source port) pair (R362). -/
structure IngressSeq where
  next : Nat := 0
  held : List RemoteRequest := []
  gapSince : Option Nat := none
  deriving DecidableEq, Repr

/-- A key pair of a link with its salts (R367, R368). -/
structure LinkKeys where
  tx : BitVec 256 := 0
  rx : BitVec 256 := 0
  txSalt : W32 := 0
  rxSalt : W32 := 0
  deriving DecidableEq, Repr

/-- A Fozen port beyond its registers (R358 to R369, R373): requests and their sequences; what it has sent and answered; the
nanosecond since which its link is down; the keys of the link, and those installed for its next training; the retry
layer: the last 512 non-idle flits by sequence number, those to send again, the next number to send and the next to take, a
replay to ask for; TAG failures since the last training; the flit in this slot, and the packet data taken. -/
structure Port where
  outstanding : List Outstanding := []
  nextId : Nat := 0
  remap : Option Nat := none
  sendNext : Sparse Nat := []
  postedNext : Nat := 1
  failed : List FailedPost := []
  ingress : Sparse IngressSeq := []
  sent : List RemoteRequest := []
  answers : List (Nat × Nat × RemoteResponse) := []
  downSince : Option Nat := some 0
  keys : LinkKeys := {}
  installed : Option LinkKeys := none
  retry : List (Nat × List Byte) := []
  replay : List Nat := []
  txSeq : Nat := 0
  rxSeq : Nat := 0
  askReplay : Bool := false
  authFails : Nat := 0
  txFlit : BitVec 512 := 0
  received : List (List Byte) := []
  deriving DecidableEq, Repr

/-! ## Lintel sequencers -/

/-- States of a sequencer slot (R374, R402). -/
inductive SlotState where
  | free
  | ready
  | run
  | wait
  | fault
  | halted
  | error
  deriving DecidableEq, Repr

/-- A send of a slot that DST has not confirmed: destination, whether it is a peer flag update, the source whose chunk it
has consumed, its time, and whether it passes an all-to-all chunk on (R382, R385, R394). -/
structure PendingSend where
  dst : Nat
  peer : Bool
  consumes : Option Nat := none
  since : Nat
  passes : Bool := false
  deriving DecidableEq, Repr

/-- A context slot of a sequencer (R374, R379, R392). `news` is what it tells other packages, `plain` counts the instructions
since the last chunk instruction or turn, `builtin` is the next move of a built-in algorithm plus one, `gotNo` the chunks
that an all-to-all has received (R376, R394). -/
structure Slot where
  pc : Nat := 0
  creg : Sparse Word := []
  flags : Sparse W32 := []
  xf : W32 := 0
  chunk : W32 := 0
  state : SlotState := .free
  e : W32 := 0
  queue : List LaunchPacket := []
  current : Option LaunchPacket := none
  staged : List Chunk := []
  credits : Sparse Nat := []
  sending : Option PendingSend := none
  sent : List (Nat × Chunk) := []
  peerSent : List (Nat × Nat × Bool × W32) := []
  news : List (Nat × CreditNews) := []
  endCode : Nat := 0
  plain : Nat := 0
  aborting : Bool := false
  doneFault : Bool := false
  builtin : Nat := 0
  gotNo : Nat := 0
  deriving DecidableEq, Repr

/-- A sequencer: its slots, and the slot that ran last (R374, R376). -/
structure Sequencer where
  slots : Sparse Slot := []
  last : Nat := 7
  deriving DecidableEq, Repr

/-! ## Faults, front end -/

/-- A fault record on its way to its context's queue (R49, R419). -/
structure FaultRecord where
  context : Nat
  seq : Nat
  words : List Word
  deriving DecidableEq, Repr

/-- What awaits the service of a record (R420). -/
inductive Serviced where
  | group (core grid group : Nat) (pc : Word) (precise : Bool)
  | haul (core id : Nat)
  | quarry (core grid id : Nat)
  | grout (grid x y z : Nat)
  | continuation (core grid entry : Nat)
  | exitedGroup (core grid seq : Nat)
  | post (port number : Nat)
  | spoilSave (core grid : Nat)
  | childCopy
  deriving DecidableEq, Repr

/-- A record that awaits service (R420). -/
structure Service where
  context : Nat
  seq : Nat
  code : Nat
  what : Serviced
  deriving DecidableEq, Repr

/-- A refusal or failure that a target reports against a SIMT word, on its way to its group (R48, R61, R364): trap code,
the group and its team, word, FR_ADDR, lanes, FR_INFO, access kind and scope, and the port and number of the request it
ends. -/
structure Report where
  code : Nat
  core : Nat
  grid : Nat
  group : Nat
  pc : Word
  address : Nat
  lanes : Lanes
  info : W32 := 0
  access : Nat := 0
  scope : Nat := 0
  request : Option (Nat × Nat) := none
  origin : Origin := {}
  deriving DecidableEq, Repr

/-- A switch-in that waits until its core admits the team (R421). -/
structure SwitchIn where
  core : Nat
  slot : Nat
  grid : Nat
  handle : Option FutureRef
  deriving DecidableEq, Repr

/-- A packet claimed from a user queue (R410 to R412): its queue, index and words, its queue's context and configuration at the
claim, whether its work is over, the DEP words that have reached TARGET, the uncore cycle of the last poll, and the posted
numbers that its completion waits for. -/
structure ClaimedPacket where
  queue : Nat
  index : Nat
  words : List Word
  complete : Bool := false
  reached : List Nat := []
  polled : Option Nat := none
  marks : Option (List (Nat × Nat)) := none
  written : Option (List (Nat × Nat) × Word) := none
  deriving DecidableEq, Repr

/-- An entry of the pending pool, or a LAUNCHC copy that waits for one, with the core that issued it and the record whose service the copy
waits for (R52, R415). -/
structure PoolEntry where
  context : Nat
  pick : Nat
  address : Nat
  record : List Word
  owner : GridOwner
  claimed : Bool := false
  stopped : Option Nat := none
  core : Nat := 0
  deriving DecidableEq, Repr

/-- A snapshot packet as it was sent: the port it left through, its due time, and RANGE (R371). -/
structure SnapPacket where
  port : Nat
  due : Nat
  range : Bool
  deriving DecidableEq, Repr

/-- The state of a package. -/
structure State where
  agenda : List Turn := []
  focus : Focus := {}
  input : Input := .none
  queued : List Turn := []
  turns : Nat := 0
  ticks : Nat := 0
  fresh : Nat := 0
  pkgcfg : Word := 0
  ftimeOffset : Int := 0
  ftimeHold : Nat := 0
  dram : Memory := []
  llc : Sparse Line := []
  poison : List Nat := []
  tlb : List TlbEntry := []
  recent : List StrongWrite := []
  mgmt : Sparse Word := []
  cores : Sparse Core := []
  away : List Team := []
  tagsUsed : Sparse (List (Nat × Nat)) := []
  stations : Sparse Station := []
  ksOverflow : List Operand := []
  ksFlight : List Operand := []
  ksRetry : List Operand := []
  ksHeld : List HeldRecord := []
  ksNext : Nat := 0
  grids : Sparse Grid := []
  ending : List Grid := []
  gridWait : List WaitingGrid := []
  gridSeq : Nat := 0
  ports : Sparse Port := []
  far : List FarRead := []
  seqs : Sparse Sequencer := []
  hostPosted : List (Nat × Issuer) := []
  hostPostedNext : Nat := 1
  records : List FaultRecord := []
  reports : List Report := []
  services : List Service := []
  frSeq : Sparse Nat := []
  switchIns : List SwitchIn := []
  claimed : List ClaimedPacket := []
  claimNext : Nat := 0
  emptySince : Sparse Nat := []
  pool : Sparse PoolEntry := []
  poolWait : List PoolEntry := []
  evSeq : Nat := 0
  evConfirm : List Nat := []
  banks : Sparse Word := []
  lastLatch : Option Nat := none
  snapDue : List Nat := []
  snapOut : Nat := 0
  msix : List Nat := []
  msixTable : Sparse Word := []
  bar2Size : Nat := 1
  vfBar2Size : Nat := 1
  hostData : List Byte := []
  hostPoisoned : Bool := false
  hostUnsupported : Nat := 0
  launchSent : List LaunchPacket := []
  snapSent : List SnapPacket := []
  tripped : Bool := false
  atBad : List Nat := []
  deriving DecidableEq, Repr

/-- The machine right after reset (R432): every register at its reset value, nothing resident, nothing in flight, time
zero (log 2), memory with nothing listed (log 5). -/
def State.reset : State := {}

/-- Where a step can stop. No word and no event of the spec ends in one of these: they tell a step asked of an agent that
does not exist. -/
inductive Fault where
  /-- Raised by a SIMT meaning when `focus` names no resident group: `step` never calls one so. Safe. -/
  | noIssuer
  /-- Raised by a sequencer meaning when `focus` names no running slot: `step` never calls one so. Safe. -/
  | noSlot
  /-- Raised by `step` for a turn that names a core, team, port or event that does not exist. Safe. -/
  | noSuchAgent
  deriving DecidableEq, Repr

/-- Instructions without a meaning. -/
inductive Refusal where
  /-- Raised by an arm of `exec` whose instruction has no meaning yet. Safe. -/
  | notModelled (mnemonic : String)
  deriving DecidableEq, Repr

end Sys2Proof.Machine
end

