-- ==== Sys2Proof/Machine/Sparse.lean ====
section
/-! DEFINITION. Operations over sparse maps and over byte memory, in one canonical form: keys strictly rising, and, where
a map has a default, no key that holds it. -/

namespace Sys2Proof.Machine

open Sys2Proof

/-- The value a map lists for key `k`, if it lists one. -/
def sfind {α : Type} (k : Nat) : Sparse α → Option α
  | [] => none
  | (j, v) :: m => if j = k then some v else sfind k m

/-- The value of key `k` in a map whose default is `d`. -/
def sget {α : Type} (d : α) (m : Sparse α) (k : Nat) : α := (sfind k m).getD d

/-- List `v` under key `k`. -/
def sins {α : Type} (k : Nat) (v : α) : Sparse α → Sparse α
  | [] => [(k, v)]
  | (j, w) :: m => if j < k then (j, w) :: sins k v m else if j = k then (k, v) :: m else (k, v) :: (j, w) :: m

/-- No longer list key `k`. -/
def sdel {α : Type} (k : Nat) (m : Sparse α) : Sparse α := m.filter (fun e => e.1 ≠ k)

/-- Set key `k` of a map whose default is `d`. -/
def sput {α : Type} [DecidableEq α] (d : α) (m : Sparse α) (k : Nat) (v : α) : Sparse α :=
  if v = d then sdel k m else sins k v m

/-- Change the value under key `k`, if the map lists one. -/
def smod {α : Type} (k : Nat) (f : α → α) : Sparse α → Sparse α
  | [] => []
  | (j, w) :: m => if j = k then (j, f w) :: m else (j, w) :: smod k f m

/-- The keys are strictly rising and all at least `lo`. -/
def Sparse.rising {α : Type} (lo : Nat) : Sparse α → Bool
  | [] => true
  | (j, _) :: m => decide (lo ≤ j) && Sparse.rising (j + 1) m

/-- One byte of memory (an unlisted byte reads 0; log 5). -/
def Memory.byte (m : Memory) (a : Nat) : Byte := sget 0#8 m a

/-- Write one byte, keeping the canonical form. -/
def Memory.setByte (m : Memory) (a : Nat) (b : Byte) : Memory := sput 0#8 m a b

/-- The canonical form of memory: addresses strictly rising, no listed byte 0. -/
def Memory.wf (m : Memory) : Bool := Sparse.rising 0 m && m.all (fun c => c.2 != 0#8)

/-- `n` bytes from address `a` up. -/
def Memory.read (m : Memory) (a n : Nat) : List Byte := (List.range n).map (fun i => m.byte (a + i))

/-- Write bytes from address `a` up. -/
def Memory.write (m : Memory) : Nat → List Byte → Memory
  | _, [] => m
  | a, b :: bs => Memory.write (m.setByte a b) (a + 1) bs

/-- The number that little-endian bytes stand for. -/
def natOfBytes : List Byte → Nat
  | [] => 0
  | b :: bs => b.toNat + 256 * natOfBytes bs

/-- The `n` little-endian bytes of a number. -/
def bytesOfNat : Nat → Nat → List Byte
  | 0, _ => []
  | n + 1, v => BitVec.ofNat 8 v :: bytesOfNat n (v / 256)

/-- A 64-bit word from its bytes. -/
def word8 (bs : List Byte) : Word := BitVec.ofNat 64 (natOfBytes bs)

/-- The 32-bit words of a byte list, in order. -/
def words4 : List Byte → List W32
  | a :: b :: c :: d :: r => (d ++ c ++ b ++ a) :: words4 r
  | _ => []

/-- The 64-bit words of a byte list, in order. -/
def words8 : List W32 → List Word
  | a :: b :: r => (b ++ a) :: words8 r
  | _ => []

/-- The bytes of a list of 32-bit words. -/
def bytesOfWords (ws : List W32) : List Byte := ws.flatMap (fun w => bytesOfNat 4 w.toNat)

/-- The bytes of a list of 64-bit words. -/
def bytesOfWords8 (ws : List Word) : List Byte := ws.flatMap (fun w => bytesOfNat 8 w.toNat)

/-- Bits `lo` to `lo + n - 1` of a number. -/
def bits (x lo n : Nat) : Nat := x / 2 ^ lo % 2 ^ n

/-- Bit `i` of a number. -/
def bit (x i : Nat) : Bool := x / 2 ^ i % 2 == 1

/-- The lanes of a set, ascending. -/
def lanesOf (m : Lanes) : List Nat := (List.range 32).filter m.getLsbD

/-- The set of the lanes that satisfy a condition. -/
def lanesWhere (p : Nat → Bool) : Lanes :=
  BitVec.ofNat 32 ((List.range 32).foldl (fun acc l => if p l then acc + 2 ^ l else acc) 0)

/-- The set of one lane. -/
def laneBit (l : Nat) : Lanes := BitVec.ofNat 32 (2 ^ l)

/-- The number of bits set. -/
def popcount {n : Nat} (x : BitVec n) : Nat := ((List.range n).filter x.getLsbD).length

/-- The lowest lane of a set, 0 for the empty set. -/
def lowest (m : Lanes) : Nat := (lanesOf m).headD 0

/-- Change the first element that satisfies a condition. -/
def modFirst {α : Type} (p : α → Bool) (f : α → α) : List α → List α
  | [] => []
  | x :: xs => if p x then f x :: xs else x :: modFirst p f xs

/-- Remove the first element that satisfies a condition. -/
def dropFirst {α : Type} (p : α → Bool) : List α → List α
  | [] => []
  | x :: xs => if p x then xs else x :: dropFirst p xs

/-- Add an element to a list without repeats. -/
def addNew {α : Type} [DecidableEq α] (x : α) (l : List α) : List α := if x ∈ l then l else x :: l

/-- Add 1 to a counter that saturates at 0xFFFF_FFFF. -/
def satInc (w : Word) : Word := if w.toNat < 0xFFFFFFFF then w + 1 else w

end Sys2Proof.Machine
end

