-- ==== Sys2Proof/Machine/Mgmt.lean ====
section
/-! DEFINITION. Management space (R406): where each block stands, and the access code, reserved bits and reset value of
each register (R6, R7, and the register maps of R58, R64, R96, R136, R161, R293, R316, R356, R372, R373, R401, R404, R409,
R418, R425, R431, R433). `State.mgmt` lists the registers whose stored value differs from the reset value. -/

namespace Sys2Proof.Machine

open Sys2Proof

/-- What the manual gives for one 8-byte register: its reset value, the bits a write sets, the bits a 1 clears, the bits
a 1 sets, whether a read clears it, and the bits that always read as ones. -/
structure Reg where
  reset : Word := 0
  rw : Word := 0
  w1c : Word := 0
  w1s : Word := 0
  rc : Bool := false
  ones : Word := 0
  deriving DecidableEq, Repr

/-- `n` ones from bit `lo` up. -/
def mask (lo n : Nat) : Word := BitVec.ofNat 64 ((2 ^ n - 1) * 2 ^ lo)

/-- All 64 bits. -/
def allBits : Word := mask 0 64

/-- Read-only with reset value `r`. -/
def Reg.ro (r : Word := 0) : Option Reg := some { reset := r }

/-- Read-write in the bits of `m`, with reset value `r`. -/
def Reg.wr (m : Word) (r : Word := 0) : Option Reg := some { reset := r, rw := m }

/-- A counter that a read clears. -/
def Reg.clr : Option Reg := some { rc := true }

/-- Core management block (R96, R136, R293, R404). -/
def coreReg (o : Nat) : Option Reg :=
  match o with
  | 0x180 => Reg.wr (mask 0 3) 3
  | 0x188 => Reg.ro
  | 0x200 => Reg.wr (mask 0 1 ||| mask 4 3) 0x51
  | 0x208 => Reg.ro
  | 0x210 => Reg.ro 5
  | 0x240 => Reg.wr (mask 0 9 ||| mask 16 8) 0x00100100
  | 0x248 => Reg.ro 0x01000010
  | 0x300 => Reg.wr (mask 0 1)
  | 0x308 => Reg.wr (mask 3 61)
  | 0x310 => Reg.wr allBits
  | 0x318 => Reg.ro
  | 0x320 => Reg.ro
  | 0x328 => Reg.wr (mask 0 6)
  | _ => if 0x340 ≤ o ∧ o < 0x380 ∧ o % 8 = 0 then Reg.ro else none

/-- Snapshot control (R64). FIRE and FULL act through their own rows. -/
def snapReg (o : Nat) : Option Reg :=
  match o with
  | 0x000 => Reg.wr (mask 0 6) 0x13
  | 0x008 => Reg.ro
  | 0x010 => some { w1c := mask 0 1 }
  | 0x018 => Reg.ro
  | 0x020 => Reg.clr
  | _ => none

/-- LLC control block (R161). -/
def llcReg (o : Nat) : Option Reg :=
  match o with
  | 0x000 => Reg.wr (mask 0 1 ||| mask 16 16)
  | 0x008 => Reg.clr
  | _ => none

/-- Quarry control block (R356). -/
def qryReg (o : Nat) : Option Reg :=
  match o with
  | 0x000 => Reg.wr (mask 0 9) 0x100
  | 0x008 => Reg.ro 0x01000100
  | _ => none

/-- Fozen package block (R372). -/
def fzPkgReg (o : Nat) : Option Reg :=
  match o with
  | 0x000 => Reg.wr (mask 0 12 ||| mask 16 12)
  | 0x008 => Reg.wr (mask 0 32) 0x186A0
  | 0x010 => Reg.ro
  | 0x018 => Reg.ro
  | 0x020 => Reg.ro
  | 0x028 => Reg.wr (mask 0 1)
  | _ => none

/-- Front-end block (R425). -/
def feReg (o : Nat) : Option Reg :=
  match o with
  | 0x000 => some { rw := mask 0 3, w1s := mask 3 1 }
  | 0x008 => Reg.ro
  | 0x010 => Reg.clr
  | 0x018 => Reg.ro
  | 0x020 => Reg.clr
  | 0x028 => Reg.wr (mask 5 35)
  | 0x030 => Reg.wr (mask 0 32)
  | 0x038 => Reg.ro
  | 0x040 => Reg.clr
  | 0x048 => Reg.wr (mask 20 20)
  | 0x050 => Reg.ro
  | 0x058 => Reg.wr (mask 8 32)
  | 0x060 => Reg.wr (mask 24 8)
  | _ => none

/-- Power and thermal block (R433). -/
def pwrReg (o : Nat) : Option Reg :=
  match o with
  | 0x000 => Reg.wr (mask 0 12) 0x708
  | 0x008 => Reg.ro
  | 0x010 => Reg.ro
  | 0x018 => Reg.ro Config.pkgIdent
  | 0x020 => Reg.ro Config.pkgTrim
  | _ => none

/-- User queue block (R409). -/
def uqReg (o : Nat) : Option Reg :=
  match o with
  | 0x000 => Reg.wr (mask 6 58)
  | 0x008 => Reg.wr (mask 0 12)
  | 0x010 => Reg.wr (mask 0 32)
  | 0x018 => Reg.ro
  | 0x020 => Reg.ro
  | 0x028 => Reg.ro
  | 0x030 => Reg.ro
  | 0x038 => Reg.ro
  | _ => none

/-- Fozen port block (R373). The key registers are write-only: they read 0 (R6). -/
def fzPortReg (o : Nat) : Option Reg :=
  match o with
  | 0x000 => Reg.wr (mask 0 2)
  | 0x008 => Reg.ro
  | 0x010 => Reg.wr (mask 0 5)
  | 0x018 => Reg.wr allBits
  | 0x060 => some { w1s := mask 0 1 }
  | 0x068 => Reg.ro
  | 0x070 => Reg.ro
  | 0x078 => Reg.clr
  | 0x080 => Reg.clr
  | 0x088 => Reg.clr
  | 0x090 => Reg.wr (mask 0 16) 0x10
  | 0x098 => Reg.clr
  | 0x0A0 => Reg.ro
  | _ => if 0x020 ≤ o ∧ o < 0x060 ∧ o % 8 = 0 then Reg.wr allBits else none

/-- Lintel sequencer block (R401). Slot registers are held in the slots. -/
def lnReg (o : Nat) : Option Reg :=
  if o % 8 ≠ 0 then none
  else if o = 0x0000 then Reg.wr (mask 0 1)
  else if o = 0x0008 then Reg.wr (mask 0 1)
  else if o = 0x0010 then Reg.ro
  else if o = 0x0018 then Reg.ro
  else if o = 0x0020 then Reg.wr (mask 22 18)
  else if 0x100 ≤ o ∧ o < 0x140 then Reg.wr (mask 0 7)
  else if 0x140 ≤ o ∧ o < 0x180 then Reg.ro
  else if 0x180 ≤ o ∧ o < 0x1C0 then Reg.ro
  else if 0x1000 ≤ o ∧ o < 0x3000 then
    let p := (o - 0x1000) % 0x400
    if p < 0x80 then Reg.wr allBits
    else if 0x100 ≤ p ∧ p < 0x300 then Reg.wr (mask 0 32)
    else if p = 0x300 then Reg.wr (mask 0 32)
    else none
  else if 0x4000 ≤ o ∧ o < 0x5000 then Reg.wr allBits
  else none

/-- The bits of word `i` of a KDEST entry that are not reserved, for the KIND in its KD_CTRL: the NEXT of KIND 3 is a combine
field (R300, R301). With no KIND, those that are not reserved for some KIND. -/
def kdestMask (kind : Option Nat) (i : Nat) : Word :=
  let is (ks : List Nat) : Bool := kind.all ks.contains
  match i with
  | 0 => mask 0 3 ||| mask 8 7 ||| (if is [2] then mask 32 32 else if is [3] then mask 32 8 else 0)
  | 1 => if is [1] then mask 0 56 else if is [0, 2] then mask 0 32 else mask 0 26
  | 2 => mask 0 26 ||| mask 32 32
  | _ => if is [2] then allBits else 0

/-- Context block and its Keystone block (R418, R316, R300). -/
def ctxReg (o : Nat) : Option Reg :=
  match o with
  | 0x000 => some { rw := mask 0 4, w1s := mask 4 1 }
  | 0x008 => Reg.wr (mask 11 29)
  | 0x010 => Reg.wr (mask 6 34)
  | 0x018 => Reg.wr (mask 0 13) 0x10
  | 0x020 => Reg.ro
  | 0x028 => Reg.wr (mask 0 32)
  | 0x030 => Reg.wr (mask 0 6)
  | 0x800 => Reg.wr (mask 6 34)
  | 0x808 => Reg.wr (mask 0 16)
  | 0x810 => Reg.wr (mask 0 48) 0x100000
  | 0x818 => Reg.ro 0x100000
  | 0x820 => Reg.clr
  | 0x828 => Reg.clr
  | 0x830 => Reg.clr
  | 0x838 => Reg.clr
  | 0x840 => Reg.clr
  | 0x848 => Reg.ro
  | _ => if 0x900 ≤ o ∧ o < 0xB00 ∧ o % 8 = 0 then Reg.wr (kdestMask none (o % 32 / 8)) else none

/-- Access table block (R58, R60). -/
def atReg (o : Nat) : Option Reg :=
  if o % 8 ≠ 0 then none
  else if o = 0x0000 then some { reset := 1, rw := mask 0 1, w1s := mask 1 1 }
  else if o = 0x0008 then Reg.clr
  else if o = 0x0010 then Reg.ro
  else if o = 0x0018 then Reg.ro
  else if 0x100 ≤ o ∧ o < 0x500 then
    let n := (o - 0x100) / 16
    if o % 16 = 0 then Reg.wr (mask 16 48) (if n = 0 then 0 else 0xFFFFFFFFFFFF0000)
    else some { reset := if n = 0 then allBits else 0, rw := mask 16 48, ones := mask 0 16 }
  else if 0x1000 ≤ o ∧ o < 0x3000 then
    let m := (o - 0x1000) / 32
    Reg.wr allBits (if m % 64 = 0 then 1 else 0)
  else none

/-- Where the blocks of management space stand (R406). -/
def offCore (c : Nat) : Nat := c * 0x10000
def offSnap : Nat := 0x600000
def offLlc : Nat := 0x601000
def offQry : Nat := 0x602000
def offFz : Nat := 0x603000
def offFe : Nat := 0x604000
def offPwr : Nat := 0x605000
def offUq (q : Nat) : Nat := 0x610000 + 0x1000 * q
def offPort (n : Nat) : Nat := 0x800000 + 0x1000 * n
def offLn (n : Nat) : Nat := 0x900000 + 0x10000 * n
def offCtx (x : Nat) : Nat := 0xA00000 + 0x1000 * x
def offAt (i : Nat) : Nat := 0x1000000 + 0x4000 * i
def offBank (b : Nat) : Nat := 0x8000000 + 0x1000 * b

/-- The register at a management-space offset; an offset that no map lists is reserved (R406). Snapshot banks are held in
`State.banks`. -/
def mgmtReg (o : Nat) : Option Reg :=
  if o < offCore 96 then coreReg (o % 0x10000)
  else if o < offSnap then none
  else if o < offLlc then snapReg (o - offSnap)
  else if o < offQry then llcReg (o - offLlc)
  else if o < offFz then qryReg (o - offQry)
  else if o < offFe then fzPkgReg (o - offFz)
  else if o < offPwr then feReg (o - offFe)
  else if o < 0x606000 then pwrReg (o - offPwr)
  else if o < offUq 0 then none
  else if o < offUq 256 then uqReg ((o - offUq 0) % 0x1000)
  else if o < offPort 0 then none
  else if o < offPort 16 then fzPortReg ((o - offPort 0) % 0x1000)
  else if o < offLn 0 then none
  else if o < offLn 16 then lnReg ((o - offLn 0) % 0x10000)
  else if o < offCtx 64 then ctxReg ((o - offCtx 0) % 0x1000)
  else if o < offAt 0 then none
  else if o < offAt 1217 then atReg ((o - offAt 0) % 0x4000)
  else none

/-- The stored value of a management register. -/
def State.reg (s : State) (o : Nat) : Word :=
  match sfind o s.mgmt with
  | some w => w
  | none => ((mgmtReg o).getD {}).reset

/-- Store a value in a management register. -/
def State.setReg (s : State) (o : Nat) (w : Word) : State :=
  { s with mgmt := if w = ((mgmtReg o).getD {}).reset then sdel o s.mgmt else sins o w s.mgmt }

/-- Add 1 to a counter register that saturates. -/
def State.incReg (s : State) (o : Nat) : State := s.setReg o (satInc (s.reg o))

/-- What a write of `w` leaves in a register (R6, R7): RW bits take it, W1C bits it names clear, W1S bits it names set,
reserved and read-only bits keep their value. -/
def Reg.written (r : Reg) (old w : Word) : Word :=
  (((old &&& ~~~ r.rw) ||| (w &&& r.rw)) &&& ~~~ (w &&& r.w1c)) ||| (w &&& r.w1s)

/-- What word `i` of KDEST[e] of a context reads: bits reserved for its KIND read 0 (R300, R7). -/
def State.kdestWord (s : State) (ctx e i : Nat) : Word :=
  let o := offCtx ctx + 0x900 + 32 * e
  s.reg (o + 8 * i) &&& kdestMask (some (bits (s.reg o).toNat 0 2)) i

/-- Replace a field of a register's value. -/
def withField (w : Word) (lo n v : Nat) : Word := (w &&& ~~~ mask lo n) ||| BitVec.ofNat 64 (v % 2 ^ n * 2 ^ lo)

/-- Field of a management register. -/
def State.regBits (s : State) (o lo n : Nat) : Nat := bits (s.reg o).toNat lo n

end Sys2Proof.Machine
end

