-- ==== Sys2Proof/Machine/Ops.lean ====
section
/-! DEFINITION. The named operations over the state: reaching a core, a team and a group, time, futures, fault records,
taking an exception, switch points and the choice of a path. -/

namespace Sys2Proof.Machine

open Sys2Proof

/-! ## Reaching the parts of the state -/

def State.core (s : State) (c : Nat) : Core := sget {} s.cores c

def State.setCore (s : State) (c : Nat) (k : Core) : State := { s with cores := sins c k s.cores }

def State.modCore (s : State) (c : Nat) (f : Core → Core) : State := s.setCore c (f (s.core c))

/-- The team in a slot of a core; slot 8 is the firmware slot's own (R403, log 4). -/
def Core.team? (k : Core) (t : Nat) : Option Team := if t = 8 then some k.fw else sfind t k.teams

def Core.modTeam (k : Core) (t : Nat) (f : Team → Team) : Core :=
  if t = 8 then { k with fw := f k.fw } else { k with teams := smod t f k.teams }

def State.team? (s : State) (c t : Nat) : Option Team := (s.core c).team? t

def State.modTeam (s : State) (c t : Nat) (f : Team → Team) : State := s.modCore c (fun k => k.modTeam t f)

def State.group? (s : State) (c t g : Nat) : Option Group := (s.team? c t).bind (fun m => sfind g m.groups)

def Team.modGroup (m : Team) (g : Nat) (f : Group → Group) : Team := { m with groups := smod g f m.groups }

def State.modGroup (s : State) (c t g : Nat) (f : Group → Group) : State := s.modTeam c t (fun m => m.modGroup g f)

/-- The group whose word this step executes. -/
def State.own? (s : State) : Option Group := s.group? s.focus.core s.focus.team s.focus.group

def State.own (s : State) : Group := s.own?.getD {}

def State.ownTeam (s : State) : Team := (s.team? s.focus.core s.focus.team).getD {}

def State.modOwn (s : State) (f : Group → Group) : State := s.modGroup s.focus.core s.focus.team s.focus.group f

def State.modOwnTeam (s : State) (f : Team → Team) : State := s.modTeam s.focus.core s.focus.team f

/-- The slot of the team of a grid on a core, while it is resident (a core hosts one team of a grid, R12). -/
def Core.slotOf (k : Core) (grid : Nat) : Option Nat :=
  if grid = 64 then some 8 else (k.teams.find? (fun e => e.2.gridSlot = grid)).map (·.1)

/-- The team of a grid on a core, resident or switched out. -/
def State.teamBy (s : State) (c grid : Nat) : Option Team :=
  match (s.core c).slotOf grid with
  | some t => s.team? c t
  | none => s.away.find? (fun m => m.core = c ∧ m.gridSlot = grid)

def State.modTeamBy (s : State) (c grid : Nat) (f : Team → Team) : State :=
  match (s.core c).slotOf grid with
  | some t => s.modTeam c t f
  | none => { s with away := modFirst (fun m => m.core = c ∧ m.gridSlot = grid) f s.away }

/-- The context in whose name a team acts: its own, or FW_ACTX for the firmware slot (R403). -/
def State.ctxOf (s : State) (c t : Nat) : Nat :=
  if t = 8 then s.regBits (offCore c + 0x328) 0 6 else ((s.team? c t).getD {}).context

/-- The context of the team of a grid on a core, resident or switched out. -/
def State.ctxBy (s : State) (c grid : Nat) : Nat :=
  if grid = 64 then s.ctxOf c 8 else ((s.teamBy c grid).getD {}).context

def State.ownCtx (s : State) : Nat := s.ctxOf s.focus.core s.focus.team

/-! ## Time and free values -/

/-- The core-cycle counter (R70; log 2). -/
def State.clock (s : State) : Nat := s.ticks / 5

/-- Uncore cycles since reset (log 2). -/
def State.uncore (s : State) : Nat := s.ticks / 6

/-- Nanoseconds since reset, as timeouts count them (log 2). -/
def State.ns (s : State) : Nat := s.ticks / 12

/-- Fabric time in nanoseconds (R370). -/
def State.ftime (s : State) : Nat := max ((s.ns : Int) + s.ftimeOffset).toNat s.ftimeHold % 2 ^ 64

/-- Draw a free value (log 3). -/
def State.draw (s : State) : Word × State := (Config.freeWord s.fresh, { s with fresh := s.fresh + 1 })

/-- Package number, as it is in effect (R357, R372). -/
def State.pkgid (s : State) : Nat := bits s.pkgcfg.toNat 0 12

/-- The highest package number (R372). -/
def State.maxpkg (s : State) : Nat := bits s.pkgcfg.toNat 16 12

/-! ## Roles (R14, R19) -/

/-- Field of ROLE_SHAPE. -/
def Team.shape (m : Team) (lo n : Nat) : Nat := bits m.roleShape.toNat lo n

def Team.isAny (m : Team) : Bool := m.roleShape.getLsbD 54

/-- Role of a group: 0 copy, 1 matrix, 2 vector, 3 ANY; groups are numbered in role order. -/
def Team.roleOf (m : Team) (g : Nat) : Nat :=
  if m.isAny then 3
  else if g < m.shape 0 9 then 0
  else if g < m.shape 0 9 + m.shape 9 9 then 1
  else 2

/-- Registers a lane of a role may name: 256 for ANY, none in the firmware slot (R16, R403). -/
def Team.roleRegs (m : Team) (role : Nat) : Nat :=
  match role with
  | 0 => m.shape 27 9
  | 1 => m.shape 36 9
  | 2 => m.shape 45 9
  | _ => if m.gridSlot = 64 then 0 else 256

/-- Group count of a role. ANY has every group of the team. -/
def Team.roleGroups (m : Team) (role : Nat) : Nat :=
  match role with
  | 0 => m.shape 0 9
  | 1 => m.shape 9 9
  | 2 => m.shape 18 9
  | _ => m.groups.length

/-- First group of a role. -/
def Team.roleFirst (m : Team) (role : Nat) : Nat :=
  match role with
  | 1 => m.shape 0 9
  | 2 => m.shape 0 9 + m.shape 9 9
  | _ => 0

/-! ## Registers of a group -/

def Group.s (g : Group) (n : Nat) : Word := sget 0 g.sreg n

def Group.setS (g : Group) (n : Nat) (w : Word) : Group := { g with sreg := sput 0 g.sreg n w }

def Group.v (g : Group) (n l : Nat) : W32 := sget 0 g.vreg (n * 32 + l)

def Group.setV (g : Group) (n l : Nat) (w : W32) : Group := { g with vreg := sput 0 g.vreg (n * 32 + l) w }

/-- Mark or unmark one register key as poisoned. -/
def setPoison (keys : List Nat) (k : Nat) (p : Bool) : List Nat := if p then addNew k keys else keys.filter (· ≠ k)

def Group.pc (g : Group) (l : Nat) : Word := sget 0 g.pcv l

def Group.setPc (g : Group) (l : Nat) (w : Word) : Group := { g with pcv := sput 0 g.pcv l w }

def Group.meet (g : Group) (l : Nat) : Word := sget 0 g.meetv l

/-- Predicates of a lane; bit 63 reads 1, whatever is listed (R20, R109). -/
def Group.pred (g : Group) (l : Nat) : Word := sget 0x8000000000000000 g.predv l ||| 0x8000000000000000

def Group.setPredWord (g : Group) (l : Nat) (w : Word) : Group :=
  { g with predv := sput 0x8000000000000000 g.predv l (w ||| 0x8000000000000000) }

def Group.p (g : Group) (l k : Nat) : Bool := (g.pred l).getLsbD k

/-- Write predicate `k` of a lane; a write to p63 is ignored (R109). -/
def Group.setP (g : Group) (l k : Nat) (b : Bool) : Group :=
  let m : Word := BitVec.ofNat 64 (2 ^ k)
  g.setPredWord l (if b then g.pred l ||| m else g.pred l &&& ~~~ m)

def Group.k (g : Group) (n : Nat) : Lanes := sget 0 g.kmask n

/-- Scalar register `n` holds a handle and waits for it (SPEND, R22). -/
def Group.pending (g : Group) (n : Nat) : Bool := g.spend.getLsbD n

def Group.setPending (g : Group) (n : Nat) (b : Bool) : Group :=
  let m : BitVec 128 := BitVec.ofNat 128 (2 ^ n)
  { g with spend := if b then g.spend ||| m else g.spend &&& ~~~ m }

/-- Lanes parked as a continuation of a barrier (BWSTATE, BWLANES, R263). -/
def Group.parked (g : Group) : Lanes := if g.bwstate.getLsbD 33 then g.bwlanes.setWidth 32 else 0

/-- Lanes that are on some path (R100). -/
def Group.live (g : Group) : Lanes := ~~~ (g.exited ||| g.held ||| g.parked)

/-- PCV of the current path. -/
def Group.pathPc (g : Group) : Word := g.pc (lowest g.cur)

/-- Word address of a PCV (R86). -/
def pcAddr (w : Word) : Nat := bits w.toNat 0 56

def pcLooping (w : Word) : Bool := w.getLsbD 56

def pcIndex (w : Word) : Nat := bits w.toNat 57 6

/-- A PCV from its parts; the address is a multiple of 8 within 56 bits. -/
def mkPc (addr : Nat) (looping : Bool) (index : Nat) : Word :=
  BitVec.ofNat 64 (addr % 2 ^ 56 + (if looping then 2 ^ 56 else 0) + index % 64 * 2 ^ 57)

/-- The event that a group waits for may have come: its words are tried again when the turn ends (R91). -/
def Group.wake (g : Group) : Group := { g with retry := g.retry || g.waiting ||| g.stalled ≠ 0 }

/-- No word of the group waits. -/
def Group.unwait (g : Group) : Group := { g with waiting := 0, stalled := 0, blocked := 0, retry := false }

def Team.wake (m : Team) : Team := { m with groups := m.groups.map (fun e => (e.1, e.2.wake)) }

/-- The groups that act for a context try their words again, a firmware slot that acts for it among them (R403). -/
def State.wakeContext (s : State) (ctx : Nat) : State :=
  let wake (c t : Nat) (m : Team) : Team := if s.ctxOf c t = ctx then m.wake else m
  { s with cores := s.cores.map (fun e =>
      (e.1, { e.2 with teams := e.2.teams.map (fun m => (m.1, wake e.1 m.1 m.2)), fw := wake e.1 8 e.2.fw })) }

/-- Change every group of a team, of a core, of the package. -/
def Team.mapGroups (f : Group → Group) (m : Team) : Team := { m with groups := m.groups.map (fun e => (e.1, f e.2)) }

def Core.mapTeams (f : Team → Team) (k : Core) : Core :=
  { k with teams := k.teams.map (fun e => (e.1, f e.2)), fw := f k.fw }

def State.mapTeams (f : Team → Team) (s : State) : State :=
  { s with cores := s.cores.map (fun e => (e.1, e.2.mapTeams f)) }

def State.mapGroups (f : Group → Group) (s : State) : State := s.mapTeams (Team.mapGroups f)

/-- All four latches invalid (R43, R78). -/
def Group.dropLatches (g : Group) : Group := { g with latches := [] }

/-! ## Futures (R22 to R25, R114) -/

def Team.fut (m : Team) (e : Nat) : FutureEntry := sget {} m.ftab e

def Team.setFut (m : Team) (e : Nat) (f : FutureEntry) : Team := { m with ftab := sput {} m.ftab e f }

/-- The entries that are free. -/
def Team.freeFuts (m : Team) : List Nat := (List.range 256).filter (fun e => (m.fut e).state = .free)

/-- The handle of an entry (R22). -/
def mkHandle (entry engine gen : Nat) : Word := BitVec.ofNat 64 (entry % 256 + engine % 16 * 256 + gen % 65536 * 65536)

def hEntry (h : Word) : Nat := bits h.toNat 0 8

def hEngine (h : Word) : Nat := bits h.toNat 8 4

def hGen (h : Word) : Nat := bits h.toNat 16 16

/-- A completion status word (R24). -/
def statusWord (status engine result : Nat) : Word :=
  BitVec.ofNat 64 (status % 256 + engine % 16 * 256 + result % 2 ^ 48 * 65536)

/-- The entry that a handle names, when engine and generation match and it is in use. -/
def Team.futOf (m : Team) (h : Word) : Option FutureEntry :=
  let f := m.fut (hEntry h)
  if f.state ≠ .free ∧ f.engine = hEngine h ∧ f.gen = hGen h then some f else none

/-- Release an entry: it becomes free and keeps its generation (R25, R22). -/
def Team.release (m : Team) (e : Nat) : Team := (m.setFut e { gen := (m.fut e).gen }).wake

/-- Allocate one of the free entries of the issuing team; which one the manual leaves open (log 3). `reg` is the scalar
register that takes the handle, or none for an exported one. Answers nothing when none is free. -/
def State.allocFuture (s : State) (engine : Nat) (reg : Option Nat) (scope : Nat := 2) (service : Bool := false) :
    Option (Word × State) :=
  match s.ownTeam.freeFuts with
  | [] => none
  | e0 :: es =>
    let d := if es = [] then (0, s) else ((s.draw).1, (s.draw).2)
    let e := (e0 :: es).getD (d.1.toNat % (es.length + 1)) e0
    let gen := ((s.ownTeam.fut e).gen + 1) % 65536
    let h := mkHandle e engine gen
    let f : FutureEntry := {
      state := if reg.isSome then .pending else .exported, engine := engine, gen := gen
      group := s.focus.group, reg := reg.getD 0, service := service, scope := scope }
    let s := d.2.modOwnTeam (fun m => m.setFut e f)
    match reg with
    | some r => some (h, s.modOwn (fun g => (g.setS r h).setPending r true))
    | none => some (h, s)

/-- An operation has stopped: no group awaits it as cancelled (R118). -/
def Team.stoppedOp (m : Team) (h : Word) : Team :=
  { m with groups := m.groups.map (fun e =>
      if h ∈ e.2.cancelled then (e.1, { e.2.wake with cancelled := e.2.cancelled.filter (· ≠ h) }) else e) }

/-- Complete the operation of a handle: a pending register takes the status word and the entry is released; an exported
entry keeps it (R23, R25, R114). A released or reused entry takes nothing: the operation was cancelled, and has now
stopped (R118). -/
def Team.resolve (m0 : Team) (h status : Word) : Team :=
  let m := if m0.groups.any (fun e => h ∈ e.2.joinOn) then { m0 with joinReady := true } else m0
  match m.futOf h with
  | none => m.stoppedOp h
  | some f =>
    match f.state with
    | .pending => ((m.modGroup f.group (fun g =>
        { (g.setS f.reg status).setPending f.reg false with
          sregPoison := setPoison g.sregPoison f.reg false })).release (hEntry h))
    | .exported => (m.setFut (hEntry h) { f with state := .doneExported, status := status }).wake
    | _ => m

def State.resolve (s : State) (r : FutureRef) (status : Word) : State :=
  s.modTeamBy r.core r.grid (fun m => m.resolve r.handle status)

/-- Record the progress of an operation, which the status instructions read (R51). -/
def State.setProgress (s : State) (r : FutureRef) (p : Word) : State :=
  s.modTeamBy r.core r.grid (fun m =>
    match m.futOf r.handle with
    | some f => m.setFut (hEntry r.handle) { f with progress := p }
    | none => m)

/-- RESULT of a status word: a chapter's own fields, and for a trap code bits [59:16] of the progress record (R24). -/
def resultOf (status fields count : Nat) : Nat := if 0 < status ∧ status < 0x80 then count / 2 ^ 16 else fields

/-- Progress record of R51. -/
def mkProgress (engine count : Nat) : Word := BitVec.ofNat 64 (count % 2 ^ 60 + engine * 2 ^ 60)

/-- The future of the issuing team that a handle names. -/
def State.ownRef (s : State) (h : Word) : FutureRef := ⟨s.focus.core, s.ownTeam.gridSlot, h⟩

/-! ## Fault records (R48 to R50) -/

/-- What a fault record says. `kind` is 0 precise, 1 deferred, 2 asynchronous; `master` the master kind of R56; `queue` the
context whose queue takes it, where that is not the master's own (R392). -/
structure Rec where
  context : Nat
  code : Nat
  master : Nat := 0
  unit : Nat := 0
  team : Nat := 0
  group : Nat := 0
  lanes : Lanes := 0
  kind : Nat := 2
  access : Nat := 0
  scope : Nat := 0
  progress : Option Word := none
  cont : Bool := false
  pc : Word := 0
  addr : Word := 0
  info : W32 := 0
  future : Word := 0
  queue : Option Nat := none
  deriving DecidableEq, Repr

/-- FR_HDR (R50). -/
def Rec.header (r : Rec) : Word :=
  BitVec.ofNat 64 (r.code % 256 + (r.master * 64 + r.context % 64) % 256 * 2 ^ 8 + r.unit % 256 * 2 ^ 16
    + r.team % 8 * 2 ^ 24 + r.group % 256 * 2 ^ 28 + lowest r.lanes * 2 ^ 36 + r.kind % 4 * 2 ^ 41
    + r.access % 16 * 2 ^ 44 + r.scope % 16 * 2 ^ 48 + (if r.progress.isSome then 2 ^ 52 else 0)
    + (if r.cont then 2 ^ 53 else 0))

/-- The sequence number that the next record of a context takes. -/
def State.nextSeq (s : State) (x : Nat) : Nat := sget 0 s.frSeq x

/-- Form a record and hand it to its context's queue, where FAULT_RECORD_WRITE writes it (R49, R419); `what` is what
awaits its service (R420). FR_SEQ is counted modulo 2^32 (log 16). -/
def State.record (s : State) (r : Rec) (what : Option Serviced := none) : State :=
  let x := r.queue.getD r.context
  let seq := s.nextSeq x
  let words : List Word := [r.header, r.pc, r.addr, BitVec.ofNat 64 (r.lanes.toNat + r.info.toNat * 2 ^ 32),
    r.progress.getD 0, r.future, BitVec.ofNat 64 s.ftime, BitVec.ofNat 64 seq]
  { s with
    records := s.records ++ [⟨x, seq, words⟩]
    frSeq := sput 0 s.frSeq x ((seq + 1) % 2 ^ 32)
    services := match what with
      | some w => s.services ++ [⟨x, seq, r.code, w⟩]
      | none => s.services }

/-! ## Taking an exception (R48, R125, R405) -/

/-- A precise trap as the word raises it: code, faulting lanes, FR_ADDR, FR_INFO, access kind and scope. -/
structure Trap where
  code : Nat
  lanes : Lanes := 0
  addr : Word := 0
  info : W32 := 0
  access : Nat := 0
  scope : Nat := 0
  deriving DecidableEq, Repr

/-- The core management register at `o` of the issuing core. -/
def State.fwReg (s : State) (o : Nat) : Word := s.reg (offCore s.focus.core + o)

/-- FE_STATUS.AGENT_FAIL is set; MSI-X vector 1 tells that it becomes 1 (R405, R408). -/
def State.agentFail (s : State) : State :=
  if (s.reg (offFe + 8)).getLsbD 1 then s
  else { s.setReg (offFe + 8) (s.reg (offFe + 8) ||| 2) with msix := s.msix ++ [1] }

/-- A trap in the firmware slot (R405): FW_EPC, FW_ECAUSE and FW_EADDR are set and PCV becomes FW_TVEC; a nested trap
clears RUN, sets AGENT_FAIL and stops the slot. -/
def State.fwTrap (s : State) (t : Trap) : State :=
  let b := offCore s.focus.core
  let s' := s.modOwn (fun g => { g.unwait.dropLatches with count := 0, pathLoop := none, kept := [], recorded := [] })
  if (s.fwReg 0x318).getLsbD 8 then
    (s'.setReg (b + 0x300) 0).agentFail
  else
    let s1 := (s'.setReg (b + 0x310) s.own.pathPc).setReg (b + 0x318)
      (BitVec.ofNat 64 (t.code % 256 + 256 + t.info.toNat * 2 ^ 32))
    (s1.setReg (b + 0x320) t.addr).modOwn (fun g => g.setPc 0 (s.fwReg 0x308))

/-- A stopped group leaves its slot's sets and its latches, waits and loop state held in the slot (R43, R91, R102). -/
def Group.stopped (g : Group) (why : Stop) : Group :=
  { g.unwait.dropLatches with
    stop := some why, count := 0, pathLoop := none, kept := [], waits := [], active := false, run := 0
    deadlines := [], mwaitData := none, mwaitReq := none, recorded := [], mstats := []
    barred := false, greed := 0, yielded := false, yieldPend := false }

/-- Copy the PCVs of the faulting path to RESUMEV, send it to the continuation, and note its lanes (R125). -/
def Group.redirect (g : Group) (cont : Word) (handle : Word) : Group :=
  let g' := (lanesOf g.cur).foldl (fun (h : Group) l =>
    ({ h with resumev := sput 0 h.resumev l (h.pc l) }).setPc l cont) g
  { g'.dropLatches with
    contState := BitVec.ofNat 64 (1 + bits handle.toNat 0 32 * 2 ^ 32)
    contLanes := BitVec.ofNat 64 g.cur.toNat
    mstats := g.mstats.filter (fun e => e.1 % 2 ^ 64 ≠ g.pathPc.toNat)
    recorded := g.recorded.filter (fun e => e.1 % 2 ^ 64 ≠ g.pathPc.toNat)
    count := 0, pathLoop := none, waiting := g.waiting &&& ~~~ g.cur, blocked := g.blocked &&& ~~~ g.cur }

/-- Bits [55:3] of a word address as %cont and %meet keep them (R122). -/
def pcBits (w : Word) : Word := BitVec.ofNat 64 (bits w.toNat 3 53 * 8)

/-- The fault goes to the team's continuation (R125): a page fault of a data access, %cont set, no continuation running,
a future entry free. -/
def State.redirects (s : State) (t : Trap) : Bool :=
  (t.code = 0x10 || t.code = 0x11) && (t.access = 1 || t.access = 2 || t.access = 4)
    && s.ownTeam.contAddr ≠ 0 && !(s.own.contState.getLsbD 0) && !s.ownTeam.freeFuts.isEmpty

/-- The record of a precise trap of the issuing group (R48, R50). -/
def State.trapRec (s : State) (t : Trap) : Rec where
  context := s.ownTeam.context
  code := t.code
  unit := s.focus.core
  team := s.focus.team
  group := s.focus.group
  lanes := t.lanes
  kind := 0
  access := t.access
  scope := t.scope
  pc := BitVec.ofNat 64 (pcAddr s.own.pathPc)
  addr := t.addr
  info := t.info

/-- Stop the issuing group at its word for firmware service of the record (R48). -/
def State.stopTrap (s : State) (t : Trap) : State :=
  let r := s.trapRec t
  (s.record r (some (.group s.focus.core s.ownTeam.gridSlot s.focus.group r.pc true))).modOwn
    (fun g => g.stopped (.fault (s.nextSeq r.context) r.pc true))

/-- TAKE A PRECISE TRAP in the issuing group. In the firmware slot as R405 says; redirected to the continuation as R125
says; otherwise the record is written and the group stops for service at the faulting word (R48). -/
def State.takeTrap (s : State) (t : Trap) : State :=
  if s.focus.team = 8 then s.fwTrap t
  else if s.redirects t then
    match s.allocFuture 6 none 6 true with
    | some (h, s1) =>
      (s1.record { s.trapRec t with cont := true }
        (some (.continuation s.focus.core s.ownTeam.gridSlot (hEntry h)))).modOwn
        (fun g => g.redirect s.ownTeam.contAddr h)
    | none => s.stopTrap t
  else s.stopTrap t

/-- RETURN from a trap of the firmware slot (R405): PCV = FW_EPC, loop state included, and INTRAP is cleared. Bits [2:0] and
[63] of FW_EPC, which no PCV has, are taken as 0 (log 12). -/
def State.fwReturn (s : State) : State :=
  let b := offCore s.focus.core
  (s.setReg (b + 0x318) (s.fwReg 0x318 &&& ~~~ (256 : Word))).modOwn
    (fun g => { g.setPc 0 (s.fwReg 0x310 &&& 0x7FFFFFFFFFFFFFF8) with pathLoop := none })

/-- RETURN of a stopped group to its words (R420, R102): it issues again, ready from core cycle `now`, and every path counts
as having waited equally. -/
def Group.resumed (g : Group) (now : Nat) : Group :=
  { g.unwait.dropLatches with
    stop := none, waits := [], count := 0, run := 0, cur := 0, pathLoop := none, kept := [], readySince := now }

/-! ## Paths and switch points (R41 to R43, R100 to R102) -/

/-- The path of a lane: the live lanes with its PCV. -/
def Group.pathOf (g : Group) (l : Nat) : Lanes := lanesWhere (fun j => g.live.getLsbD j && decide (g.pc j = g.pc l))

/-- Every path, by its lowest lane. -/
def Group.paths (g : Group) : List Lanes :=
  (lanesOf g.live).filterMap (fun l => if lowest (g.pathOf l) = l then some (g.pathOf l) else none)

/-- The wait start of a path: the earliest of its lanes'. -/
def Group.waitStart (g : Group) (p : Lanes) : Nat :=
  (lanesOf p).foldl (fun acc l => min acc (sget 0 g.waits l)) (sget 0 g.waits (lowest p))

/-- The path's next word waits on an event of R91: it is in a long wait. -/
def Group.pathWaits (g : Group) (p : Lanes) : Bool := decide (p &&& ~~~ g.waiting = 0)

/-- Set the wait start of every lane of a set. -/
def Group.setWaits (g : Group) (p : Lanes) (now : Nat) : Group :=
  { g with waits := (lanesOf p).foldl (fun w l => sput 0 w l now) g.waits }

/-- The path with the earliest wait start; ties go to the path with the lowest lane. -/
def Group.firstPath (g : Group) : List Lanes → Lanes
  | [] => 0
  | p :: ps =>
    let q := g.firstPath ps
    if q = 0 ∨ g.waitStart p ≤ g.waitStart q then p else q

/-- No path can be chosen: every one is in a long wait (R102). -/
def Group.longWait (g : Group) : Bool := g.paths.all g.pathWaits

/-- A group that issues words: not stopped, not all exited. -/
def Group.inSlot (g : Group) : Bool := g.stop.isNone && g.exited ≠ 0xFFFFFFFF

/-- The path whose word issues next when nothing is chosen anew: the current one, or, when it is in a long wait, the path
that PATHSEL chooses. -/
def Group.nextPath (g : Group) : Lanes :=
  let cur := g.cur &&& g.live
  let p := if cur = 0 then 0 else g.pathOf (lowest cur)
  if p ≠ 0 ∧ ¬ g.pathWaits p then p else g.firstPath (g.paths.filter (fun q => !g.pathWaits q))

/-- The group is ready: its next word can issue, as far as it has been tried (R91). -/
def Group.isReady (g : Group) : Bool := g.inSlot && g.nextPath ≠ 0 && g.nextPath &&& g.stalled = 0

/-- A group that an event outside it has made ready is ready from now, in core cycles (R92). -/
def Group.noteReady (g old : Group) (now : Nat) : Group :=
  if g.isReady && !old.isReady then { g with readySince := now / 5 } else g

/-- PATHSEL (R102). A path that has issued 256 words yields to every other path that is not in a long wait (log 66). -/
def Group.pathsel (g : Group) (now : Nat) : Group :=
  let cur := g.cur &&& g.live
  let p := if cur = 0 then 0 else g.pathOf (lowest cur)
  if p ≠ 0 ∧ ¬ g.pathWaits p ∧ g.run < 256 then { g with cur := p } else
  let c := g.paths.filter (fun q => !g.pathWaits q)
  let other := c.filter (· ≠ p)
  if c = [] then { g with cur := p } else
  let q := if other = [] then p else g.firstPath other
  let g1 := if p ≠ 0 ∧ p ≠ q then g.setWaits p now else g
  { g1 with cur := q, run := 0, pathLoop := if p = q then g.pathLoop else none }

/-- The slot that issues a group's words (R91, R403); the firmware slot has a loop buffer of its own (log 4). -/
def State.ownSlot (s : State) : Nat := if s.focus.team = 8 then 4 else s.focus.group % 4

def Core.slot (k : Core) (n : Nat) : IssueSlot := sget {} k.slots n

def Core.setSlot (k : Core) (n : Nat) (i : IssueSlot) : Core := { k with slots := sput {} k.slots n i }

/-- Address of the first word of the body in which a looping PCV stands (R86). -/
def loopStart (pc : Word) : Nat := (pcAddr pc + 2 ^ 56 - 8 * pcIndex pc) % 2 ^ 56

/-- Discard a slot's loop capture if it is of group `g` of the team in slot `t`, and of the body that starts at `start` where one
is given (R89). -/
def Core.dropCapture (k : Core) (n t g : Nat) (start : Option Nat := none) : Core :=
  match (k.slot n).capture with
  | some c => if c.1 = t ∧ c.2.1 = g ∧ start.all (· = c.2.2.1) then k.setSlot n { k.slot n with capture := none } else k
  | none => k

/-- Discard every loop capture of a team. -/
def Core.dropCaptures (k : Core) (t : Nat) : Core :=
  { k with slots := k.slots.map (fun e =>
      (e.1, if e.2.capture.any (fun c => c.1 = t) then { e.2 with capture := none } else e.2)) }

/-- A group that reaches a switch point with a deferred fault reported, or with a pre-emption requested, stops there (R44,
R48). -/
def Group.stopIfDue (g : Group) : Group :=
  if g.stop.isSome ∨ g.exited = 0xFFFFFFFF then g else
  match g.deferred with
  | (seq, pc) :: rest => { g.stopped (.fault seq pc false) with deferred := rest }
  | [] => if g.preempt then { g.stopped .switchedOut with preempt := false } else g

/-- What a switch point does when it has issued (R42, R43, R48, R92, R102): latches invalid, count 0, a path is chosen, a
stop that is due takes place, and the slot selects again. -/
def State.switchPoint (s : State) : State :=
  let s1 := s.modOwn (fun g => (({ g.dropLatches with count := 0 }).pathsel s.ticks).stopIfDue)
  s1.modCore s.focus.core (fun k => k.setSlot s.ownSlot { k.slot s.ownSlot with resel := true })

end Sys2Proof.Machine
end

