-- ==== Sys2Proof/Machine/Access.lean ====
section
/-! DEFINITION. The physical map (R128, R129), the copies of package memory (R132, R138, R139), poison granules (R162),
access tables (R56 to R62, R430) and address translation (R130 to R135, R403). -/

namespace Sys2Proof.Machine

open Sys2Proof

/-! ## The physical map -/

/-- What stands at a package physical address (R128). -/
inductive Region where
  | dram
  | pci
  | mgmt
  | reserved
  deriving DecidableEq, Repr

/-- R128. -/
def region (a : Nat) : Region :=
  if a < 0x3000000000 then .dram
  else if 0x8000000000 ≤ a ∧ a < 0xC000000000 then .pci
  else if 0xC000000000 ≤ a ∧ a < 0xC100000000 then .mgmt
  else .reserved

/-- The package number of a domain physical address (R129). -/
def pkgOf (a : Nat) : Nat := bits a 40 12

/-- The package physical part of a domain physical address. -/
def localOf (a : Nat) : Nat := bits a 0 40

/-- The address is in another package. -/
def State.isRemote (s : State) (a : Nat) : Bool := pkgOf a ≠ s.pkgid

/-- The home slice of a line of local DRAM (R139). -/
def homeSlice (a : Nat) : Nat :=
  (if a < 0x1800000000 then 0 else 128)
    + (bits a 7 7 ^^^ bits a 14 7 ^^^ bits a 21 7 ^^^ bits a 28 7 ^^^ bits a 35 5)

/-! ## Copies of memory -/

/-- One byte of memory of this package, or of host memory, with its poison: the LLC copy of its line, unless the access goes
to the DRAM copy or the line has none (R132). -/
def State.peek (s : State) (uc : Bool) (a : Nat) : Byte × Bool :=
  match (if uc then none else sfind (a / 128) s.llc) with
  | some ln => (ln.bytes.byte (a % 128), ln.poison.contains (a % 128 / 64))
  | none => (s.dram.byte a, s.poison.contains (a / 64))

/-- The copy of a byte that a load goes to: that of its mapping, or, while the line is mapped under different CPOL values, either
(R132). -/
def State.loadUc (s : State) (uc : Bool) (a : Nat) : Bool :=
  match sfind (a / 128) s.llc with
  | some ln => if uc || ln.mixed then Config.otherCopy s.turns a else uc
  | none => uc

/-- One byte as a load through a mapping finds it. -/
def State.look (s : State) (uc : Bool) (a : Nat) : Byte × Bool := s.peek (s.loadUc uc a) a

/-- Bytes as a load finds them, and whether any is poisoned. -/
def State.looks (s : State) (uc : Bool) (a n : Nat) : List Byte × Bool :=
  let bs := (List.range n).map (fun i => s.look uc (a + i))
  (bs.map (·.1), bs.any (·.2))

/-- A line that is accessed in DRAM while the LLC holds it is mapped under different CPOL values (R132). -/
def State.noteMixed (s : State) (uc : Bool) (ln : Nat) : State :=
  if uc && ((sfind ln s.llc).map (fun l => !l.mixed)).getD false then
    { s with llc := smod ln (fun l => { l with mixed := true }) s.llc }
  else s

/-- Bytes of memory, and whether any is poisoned. -/
def State.peeks (s : State) (uc : Bool) (a n : Nat) : List Byte × Bool :=
  let bs := (List.range n).map (fun i => s.peek uc (a + i))
  (bs.map (·.1), bs.any (·.2))

/-- The DRAM copy of a line. -/
def State.dramLine (s : State) (ln : Nat) : Line where
  bytes := s.dram.filterMap (fun c => if c.1 / 128 = ln then some (c.1 % 128, c.2) else none)
  poison := [0, 1].filter (fun h => s.poison.contains (2 * ln + h))

/-- Mark or unmark DRAM granules as poisoned. -/
def State.poisonDram (s : State) (g : Nat) (p : Bool) : State := { s with poison := setPoison s.poison g p }

/-- Write a dirty LLC line back to DRAM; it stays, clean (R149). -/
def State.writeBack (s : State) (ln : Nat) : State :=
  match sfind ln s.llc with
  | some l =>
    if l.dirty then
      let s1 : State := { s with
        dram := (List.range 128).foldl (fun m i => m.setByte (128 * ln + i) (l.bytes.byte i)) s.dram
        llc := sins ln { l with dirty := false } s.llc }
      [0, 1].foldl (fun (s : State) h => s.poisonDram (2 * ln + h) (l.poison.contains h)) s1
    else s
  | none => s

/-- Drop an LLC line without write-back (R147). -/
def State.dropLine (s : State) (ln : Nat) : State := { s with llc := sdel ln s.llc }

/-- Write a line back if it is dirty, and invalidate it (R149; eviction, R132). -/
def State.evictLine (s : State) (ln : Nat) : State := (s.writeBack ln).dropLine ln

/-- Lines that a slice of the LLC holds: 768 KiB (R2). -/
def sliceLines : Nat := 6144

/-- A key of a cache that has no room for another line, which one the manual leaves open (log 19). -/
def State.victim (s : State) (keys : List Nat) (room : Nat) : State × Option Nat :=
  if keys.length < room then (s, none) else (s.draw.2, keys[s.draw.1.toNat % keys.length]?)

/-- Make room for a line in its home slice: of a full slice one line goes, a first candidate if it has one (R2, R132). -/
def State.sliceRoom (s : State) (ln : Nat) : State :=
  if s.llc.length < sliceLines then s else
  let mine := s.llc.filter (fun e => homeSlice (128 * e.1) = homeSlice (128 * ln))
  let firsts := mine.filter (fun e => e.2.first)
  let r := s.victim ((if firsts = [] then mine else firsts).map (·.1)) (if mine.length < sliceLines then mine.length + 1 else 0)
  match r.2 with
  | some k => r.1.evictLine k
  | none => r.1

/-- Allocate a line in the LLC when it is not there (R132); STREAM lines are the first eviction candidates. -/
def State.allocLine (s : State) (ln : Nat) (first : Bool) : State :=
  match sfind ln s.llc with
  | some l => if first && !l.first then { s with llc := sins ln { l with first := true } s.llc } else s
  | none =>
    let s1 := s.sliceRoom ln
    { s1 with llc := sins ln { s1.dramLine ln with first := first } s1.llc }

/-- Write the bytes of one line, with what becomes of each half's poison: `none` leaves it. -/
def State.pokeLine (s : State) (uc first : Bool) (ln : Nat) (bs : List (Nat × Byte)) (half : Nat → Option Bool) : State :=
  if uc then
    let s1 := { s with dram := bs.foldl (fun m e => m.setByte e.1 e.2) s.dram }
    [0, 1].foldl (fun (s : State) h =>
      match half h with
      | some p => s.poisonDram (2 * ln + h) p
      | none => s) s1
  else
    let s1 := s.allocLine ln first
    { s1 with llc := smod ln (fun l => { l with
        bytes := bs.foldl (fun m e => m.setByte (e.1 % 128) e.2) l.bytes
        dirty := true
        poison := [0, 1].foldl (fun p h =>
          match half h with
          | some b => setPoison p h b
          | none => p) l.poison }) s1.llc }

/-- Write bytes of this package or of host memory. A granule becomes poisoned when a poisoned byte is written to it, and
clean when all its 64 bytes are written (R162, R163). -/
def State.poke (s : State) (uc first : Bool) (bs : List (Nat × Byte)) (poison : List Nat) : State :=
  let lines := (bs.map (fun e => e.1 / 128)).eraseDups
  lines.foldl (fun (s : State) ln =>
    let here := bs.filter (fun e => e.1 / 128 = ln)
    let half (h : Nat) : Option Bool :=
      let g := 2 * ln + h
      if poison.any (fun a => a / 64 = g) then some true
      else if ((here.filter (fun e => e.1 / 64 = g)).map (·.1)).eraseDups.length = 64 then some false
      else none
    s.pokeLine (uc || decide (region (128 * ln) ≠ .dram)) first ln here half) s

/-- Line number of an address. -/
def lineOf (a : Nat) : Nat := a / 128

/-- Count poisoned arrivals at a core (R136, R164). -/
def State.poisonIn (s : State) (c n : Nat) : State :=
  if n = 0 then s else
  let o := offCore c + 0x188
  s.setReg o (withField (s.reg o) 32 32 (s.regBits o 32 32 + n))

/-- Count a poisoned arrival at the core that `focus` names. -/
def State.countPoison (s : State) (poisoned : Bool) : State := s.poisonIn s.focus.core (if poisoned then 1 else 0)

/-! ## Access tables (R56 to R62) -/

/-- A master ID (R56). -/
def masterId (kind ctx : Nat) : Nat := kind * 64 + ctx % 64

/-- Table `i` permits an access of kind `acc` (1 read, 2 write, 3 execute, 4 atomic) by a master at an address (R59). A table
with an uncorrectable error permits none until it is rewritten (R55). -/
def State.atAllows (s : State) (i master acc a : Nat) : Bool :=
  let b := offAt i
  !s.atBad.contains i && (s.reg b).getLsbD 0 && (List.range 64).any (fun n =>
    (s.reg (b + 0x1000 + 32 * master + 8 * (acc - 1))).getLsbD n
      && decide ((s.reg (b + 0x100 + 16 * n)).toNat ≤ a)
      && decide (a ≤ ((s.reg (b + 0x108 + 16 * n)) ||| 0xFFFF).toNat))

/-- Count a refusal (R58). -/
def State.atDeny (s : State) (i master acc a : Nat) : State :=
  let b := offAt i
  ((s.incReg (b + 8)).setReg (b + 0x10) (BitVec.ofNat 64 (master + acc * 256))).setReg (b + 0x18) (BitVec.ofNat 64 a)

/-- An access arrives at a target with table `i`: the state, and whether it is permitted (R61, R62). -/
def State.atCheck (s : State) (i master acc a : Nat) : State × Bool :=
  if s.atAllows i master acc a then (s, true) else (s.atDeny i master acc a, false)

/-- The memory controller of a DRAM address (R430): the one of its die that the interleave names, which decides nothing
where all eight of the die permit the access. -/
def State.controllerOf (s : State) (master acc a : Nat) : Nat :=
  let die := if a < 0x1800000000 then 0 else 8
  let ok := (List.range 8).map (fun k => s.atAllows (32 + die + k) master acc a)
  if ok.all id then 32 + die else 32 + die + Config.memController (a / 128) % 8

/-- An access of one granule of this package arrives at its home: the LLC slice group's table, and the memory controller's
when the DRAM copy is accessed; management space has its own table, and the PCI Express window none (R57). -/
def State.admitAt (s : State) (master acc a : Nat) (dram : Bool) : State × Bool :=
  match region a with
  | .dram =>
    let r := s.atCheck (homeSlice a / 8) master acc a
    if r.2 && (dram || (sfind (a / 128) s.llc).isNone) then r.1.atCheck (s.controllerOf master acc a) master acc a else r
  | .mgmt => s.atCheck 48 master acc (a - 0xC000000000)
  | _ => (s, true)

/-- An access of one granule through a mapping arrives at its home. -/
def State.admitOne (s : State) (master acc a : Nat) (uc : Bool) : State × Bool :=
  let q := s.admitAt master acc a uc
  (if q.2 then q.1.noteMixed uc (a / 128) else q.1, q.2)

/-- Check every granule of a byte range (R59): 64 bytes of memory, 8 of management space. -/
def State.admitAll (s : State) (master acc : Nat) (addrs : List Nat) (uc : Bool) : State × Bool :=
  let granules := (addrs.map (fun a => match region a with
    | .mgmt => a / 8 * 8
    | _ => a / 64 * 64)).eraseDups
  granules.foldl (fun (r : State × Bool) a => if r.2 then r.1.admitOne master acc a uc else r) (s, true)

/-- Uncore cycles of MIX_WINDOW (R161). -/
def State.mixWindow (s : State) : Nat := s.regBits offLlc 16 16

/-- MIXED_SIZE of a strong access of `size` bytes, which lies in one line: the recent strong write that it overlaps, by another and of
another size (R161). -/
def State.mixHit (s : State) (a size : Nat) (writer : Focus) : Option StrongWrite :=
  s.recent.find? (fun w =>
    decide (w.address < a + size ∧ a < w.address + w.size ∧ w.size ≠ size ∧ s.uncore ≤ w.time + s.mixWindow)
      && decide (w.writer ≠ writer))

/-- FR_INFO of MIXED_SIZE (R165). -/
def mixInfo (size : Nat) (w : StrongWrite) : W32 := BitVec.ofNat 32 (size % 16 + w.size % 16 * 16 + w.master * 256)

/-- Strong accesses by others than SIMT words perform at home slices (R161), each an address and a size. `unit` is the engine's UNIT,
of which a MIXED_SIZE record tells; it is none for a master elsewhere, which takes no record from here (log 51). -/
def State.noteParts (s : State) (write : Bool) (kind ctx : Nat) (unit : Option Nat) (parts : List (Nat × Nat)) : State :=
  if !(s.reg offLlc).getLsbD 0 then s else
  let writer : Focus := { core := unit.getD 0, index := 1 + kind }
  let s1 := match unit with
    | none => s
    | some u => parts.foldl (fun (t : State) p =>
        match s.mixHit p.1 p.2 writer with
        | none => t
        | some w => t.record {
            context := ctx, code := 0x16, master := kind, unit := u, kind := 1, access := if write then 2 else 1
            addr := BitVec.ofNat 64 p.1, info := mixInfo p.2 w }) s
  if !write then s1 else
  let new := parts.map (fun p =>
    ({ address := p.1, size := p.2, master := masterId kind ctx, writer := writer, time := s.uncore } : StrongWrite))
  { s1 with recent := new ++ s1.recent.filter (fun w => decide (s.uncore ≤ w.time + s.mixWindow)) }

/-- Strong accesses of an engine perform at home slices (R30, R161): an aligned 8-byte unit of which every byte is accessed counts
as one access, every other byte as an access of its own (R250; log 51). The addresses are local. -/
def State.noteAccesses (s : State) (write : Bool) (kind ctx : Nat) (unit : Option Nat) (addrs : List Nat) : State :=
  if !(s.reg offLlc).getLsbD 0 then s else
  let addrs := addrs.filter (fun a => region a = .dram)
  let full (u : Nat) : Bool := (List.range 8).all (fun i => addrs.contains (8 * u + i))
  let units := ((addrs.map (· / 8)).eraseDups).filter full
  s.noteParts write kind ctx unit (units.map (fun u => (8 * u + s.pkgid * 2 ^ 40, 8))
    ++ (addrs.filter (fun a => !units.contains (a / 8))).map (fun a => (a + s.pkgid * 2 ^ 40, 1)))

/-! ## Translation (R130 to R135) -/

/-- A translated byte address with what its leaf says (R131). -/
structure Xlat where
  pa : Nat
  leaf : Word
  deriving DecidableEq, Repr

def Xlat.cpol (x : Xlat) : Nat := bits x.leaf.toNat 6 2
def Xlat.discEn (x : Xlat) : Bool := x.leaf.getLsbD 8
def Xlat.poisonPol (x : Xlat) : Bool := x.leaf.getLsbD 9
def Xlat.qlayout (x : Xlat) : Nat := bits x.leaf.toNat 52 4
def Xlat.qfmt (x : Xlat) : Nat := bits x.leaf.toNat 56 4

/-- Lowest virtual bit that a level indexes, and the number of index bits (R130). -/
def levelBits (level : Nat) : Nat × Nat :=
  match level with
  | 4 => (48, 8)
  | 3 => (39, 9)
  | 2 => (30, 9)
  | 1 => (21, 9)
  | _ => (16, 5)

/-- Size in bytes of the table of a level. -/
def tableSize (level : Nat) : Nat := 8 * 2 ^ (levelBits level).2

/-- A reserved bit of an entry is set (R131). -/
def badEntryBits (e : Nat) : Bool :=
  if bit e 1 then bits e 10 6 ≠ 0 || bits e 60 4 ≠ 0 else bits e 2 6 ≠ 0 || bits e 40 24 ≠ 0

/-- The entry is malformed at its level (R131). -/
def malformed (level e : Nat) : Bool :=
  badEntryBits e ||
    (if bit e 1 then
      decide (bits e 6 2 = 3) || decide (level ≥ 3)
        || bits e 16 ((levelBits level).1 - 16) ≠ 0
     else
      decide (level = 0) || decide (bits e 8 32 * 256 % tableSize (level - 1) ≠ 0)
        || decide (region (bits e 8 32 * 256) ≠ .dram))

/-- A page-table word as a walker reads it, master kind 0 of context 0 (R130); none when the read is refused. -/
def State.walkRead (s : State) (a : Nat) : Option Nat :=
  if (s.admitOne 0 1 (a / 64 * 64) false).2 then some (natOfBytes (s.peeks false a 8).1) else none

/-- Walk from a table of `level` down: the level and leaf entry, or the level where it stopped and MALFORMED. A read that an
access table refuses stops it like an entry that is not present (log 69). -/
def State.walk (s : State) (va : Nat) : Nat → Nat → Except (Nat × Bool) (Nat × Word)
  | level, table =>
    match level with
    | 0 =>
      match s.walkRead (table + 8 * bits va 16 5) with
      | none => .error (0, false)
      | some e =>
        if !bit e 0 then .error (0, false)
        else if malformed 0 e then .error (0, true)
        else .ok (0, BitVec.ofNat 64 e)
    | l + 1 =>
      match s.walkRead (table + 8 * bits va (levelBits (l + 1)).1 (levelBits (l + 1)).2) with
      | none => .error (l + 1, false)
      | some e =>
        if !bit e 0 then .error (l + 1, false)
        else if malformed (l + 1) e then .error (l + 1, true)
        else if bit e 1 then .ok (l + 1, BitVec.ofNat 64 e)
        else s.walk va l (bits e 8 32 * 256)

/-- The address of the page-table word that an access table refuses a walk, if one does (R59, R130). -/
def State.walkRefused (s : State) (va : Nat) : Nat → Nat → Option Nat
  | level, table =>
    let a := table + 8 * (if level = 0 then bits va 16 5 else bits va (levelBits level).1 (levelBits level).2)
    match s.walkRead a, level with
    | none, _ => some a
    | some _, 0 => none
    | some e, l + 1 => if !bit e 0 || malformed (l + 1) e || bit e 1 then none else s.walkRefused va l (bits e 8 32 * 256)

/-- Page number of a virtual address at the level of its leaf. -/
def pageOf (level va : Nat) : Nat := bits va 0 56 / 2 ^ (levelBits level).1

/-- The fresh translation of a context: identity for context 0 while it is not VALID (R403), otherwise a walk from PT_ROOT
(R130, R131). -/
def State.walkCtx (s : State) (ctx va : Nat) : Except (Nat × Bool) (Nat × Word) :=
  let root := (s.reg (offCtx ctx + 8)).toNat
  if region root ≠ .dram then .error (4, true) else s.walk va 4 root

/-- A walk that an access table refuses is counted there (R58). -/
def State.walkDenied (s : State) (ctx va : Nat) : State :=
  let root := (s.reg (offCtx ctx + 8)).toNat
  if region root ≠ .dram then s else
  match s.walkRefused va 4 root with
  | some a => (s.admitOne 0 1 (a / 64 * 64) false).1
  | none => s

/-- Context 0 translates identically (R403). -/
def State.identity (s : State) (ctx : Nat) : Bool := ctx = 0 && !((s.reg (offCtx 0)).getLsbD 0)

/-- The cached translations of an address (R134). -/
def State.cached (s : State) (ctx va : Nat) : List (Nat × Word) :=
  (s.tlb.filter (fun e => e.context = ctx ∧ e.page = pageOf e.level va)).map (fun e => (e.level, e.leaf))

/-- Look an address up: the state with the translation cached, and the leaf. Where a cached translation differs from the
one in memory, either is used, which the manual leaves open (R134; log 3). -/
def State.lookup (s : State) (ctx va : Nat) : State × Except (Nat × Bool) (Nat × Word) :=
  let w := s.walkCtx ctx va
  let old := (s.cached ctx va).filter (fun c =>
    match w with
    | .ok l => c ≠ l
    | .error _ => true)
  let add (s : State) : State :=
    match w with
    | .ok l => { s with tlb := addNew ⟨ctx, l.1, pageOf l.1 va, l.2⟩ s.tlb }
    | .error _ => s.walkDenied ctx va
  match old with
  | [] => (add s, w)
  | c :: cs =>
    let d := s.draw
    match (c :: cs)[d.1.toNat % (cs.length + 2)]? with
    | some l => (d.2, .ok l)
    | none => (add d.2, w)

/-- Why a byte of a global access fails (R135): rank, trap code, FR_INFO. -/
structure AddrFail where
  rank : Nat
  code : Nat
  info : Nat
  deriving DecidableEq, Repr

/-- The permission bit of a leaf for an access kind (R133): read, write, execute, atomic; 0 asks for none. -/
def leafAllows (leaf : Word) (acc : Nat) : Bool :=
  match acc with
  | 0 => true
  | n => leaf.getLsbD (n + 1)

/-- Translate the page of a virtual address for an access kind (R130 to R135). -/
def State.translate (s : State) (ctx va acc : Nat) : State × Except AddrFail Xlat :=
  if va ≥ 2 ^ 56 then (s, .error ⟨1, 0x12, 0⟩)
  else if s.identity ctx then
    let pa := va % 2 ^ 40
    if va ≥ 2 ^ 40 ∨ region pa = .reserved then (s, .error ⟨5, 0x12, 1⟩)
    else (s, .ok ⟨pa + s.pkgid * 2 ^ 40, 0x3F⟩)
  else
    let r := s.lookup ctx va
    match r.2 with
    | .error e => (r.1, .error ⟨3, 0x10, e.1 + if e.2 then 8 else 0⟩)
    | .ok (level, leaf) =>
      if !leafAllows leaf acc then (r.1, .error ⟨4, 0x11, bits leaf.toNat 2 4⟩)
      else
        let size := 2 ^ (levelBits level).1
        let pa := bits leaf.toNat 16 36 * 2 ^ 16 + va % size
        if region (localOf pa) = .reserved then (r.1, .error ⟨5, 0x12, 1⟩) else (r.1, .ok ⟨pa, leaf⟩)

/-- What lies in the way of an access in a region (R406, R155): management space takes naturally aligned 8-byte accesses
only. `n` is 0 for a piece of an access that crosses pages, which no such access does. -/
def State.regionFail (s : State) (pa n : Nat) : Option AddrFail :=
  if region (localOf pa) = .mgmt ∧ ¬ s.isRemote pa ∧ ¬ (n = 8 ∧ pa % 8 = 0) then some ⟨5, 0x12, 1⟩ else none

/-- Translate the `n` bytes from a virtual address: every page is checked, and the failure of the lowest rank is the
access's (R135, R160). Bytes past 2^56 count as an address past it (log 72). The result gives each byte's translation. -/
def State.translateRange (s : State) (ctx va n acc : Nat) : State × Except AddrFail (List Xlat) :=
  let pages := (((List.range n).map (fun i => (va + i) / 0x10000)).eraseDups).map (fun p => max va (p * 0x10000))
  let step (r : State × Except AddrFail (List (Nat × Xlat))) (a : Nat) : State × Except AddrFail (List (Nat × Xlat)) :=
    let t := r.1.translate ctx a acc
    match r.2, t.2 with
    | .ok xs, .ok x => (t.1, match t.1.regionFail x.pa (if pages.length = 1 then n else 0) with
      | some e => .error e
      | none => .ok (xs ++ [(a, x)]))
    | .ok _, .error e => (t.1, .error e)
    | .error e, .ok _ => (t.1, .error e)
    | .error e, .error e2 => (t.1, .error (if e2.rank < e.rank then e2 else e))
  let r := pages.foldl step (s, .ok [])
  (r.1, match r.2 with
    | .error e => .error e
    | .ok xs => .ok ((List.range n).map (fun i =>
        let a := va + i
        let x := ((xs.find? (fun e => e.1 / 0x10000 = a / 0x10000)).map (·.2)).getD ⟨0, 0⟩
        let base := ((xs.find? (fun e => e.1 / 0x10000 = a / 0x10000)).map (·.1)).getD a
        ⟨x.pa + (a - base), x.leaf⟩)))

/-- The access is not cached: UC pages and everything outside local DRAM (R132). -/
def State.isUc (s : State) (x : Xlat) : Bool :=
  decide (x.cpol = 2) || s.isRemote x.pa || decide (region (localOf x.pa) ≠ .dram)

end Sys2Proof.Machine
end

