-- ==== Sys2Proof/Machine/Operands.lean ====
section
/-! DEFINITION. Operand forms: the nine-bit and seven-bit encodings (R69, R73), the special sources (R70), which forms a
field admits (R71, R103, R144), and reading and writing them. -/

namespace Sys2Proof.Machine

open Sys2Proof

/-- What a nine-bit field names (R69). -/
inductive Opd where
  | v (n : Nat)
  | s (n : Nat)
  | y (n : Nat)
  | special (code : Nat)
  | inline (bits6 : BitVec 6)
  deriving DecidableEq, Repr

/-- The nine-bit operand encoding (R69). -/
def opd (e : BitVec 9) : Opd :=
  let n := e.toNat
  if n < 0x100 then .v n
  else if n < 0x180 then .s (n - 0x100)
  else if n < 0x184 then .y (n - 0x180)
  else if n < 0x1C0 then .special n
  else .inline (e.extractLsb' 0 6)

/-- The nine-bit encoding of what a seven-bit field of half A or B names (R73): a vector register of the half's banks, s0
to s31, a latch, or an inline number 0 to 27. -/
def opd7 (halfB : Bool) (e : BitVec 7) : BitVec 9 :=
  let n := e.toNat
  if n < 0x40 then BitVec.ofNat 9 (4 * (n / 2) + n % 2 + (if halfB then 2 else 0))
  else if n < 0x60 then BitVec.ofNat 9 (0x100 + (n - 0x40))
  else if n < 0x64 then BitVec.ofNat 9 (0x180 + (n - 0x60))
  else BitVec.ofNat 9 (0x1C0 + (n - 0x64))

/-- The forms that a field admits. -/
inductive Kind where
  /-- Any source of R69. -/
  | any
  /-- Any source but a latch (A32 of R144). -/
  | noLatch
  /-- A vector or scalar register (A64 of R144, targets of R103). -/
  | reg
  /-- A vector register, a scalar register or an inline integer (64-bit data of R144). -/
  | regOrInline
  /-- A scalar register. -/
  | scalar
  /-- A scalar register, a special source or an inline integer (R71). -/
  | scalarIn
  /-- A vector register. -/
  | vec
  /-- Destination: a vector register, a scalar register or 0x184 (R71). -/
  | dst
  /-- Destination: a vector register or 0x184. -/
  | dstVec
  /-- Destination: a scalar register or 0x184. -/
  | dstScalar
  deriving DecidableEq, Repr

/-- One field that a word uses: its FIELD code (R81), its encoding, the forms it admits, the 32-bit registers that a vector
register form spans, whether a pending register in it blocks (R23), and whether reading it is checked for poison. -/
structure Use where
  fld : Nat
  enc : BitVec 9
  kind : Kind := .any
  regs : Nat := 1
  blocks : Bool := true
  deriving DecidableEq, Repr

/-- The encoding is one the field admits. A vector register that stands for a pair is even, for four is a multiple of
four; reserved special sources are never admitted (R70, R71, R144). -/
def Use.ok (u : Use) : Bool :=
  match opd u.enc, u.kind with
  | .v n, .any | .v n, .noLatch | .v n, .reg | .v n, .regOrInline | .v n, .vec | .v n, .dst | .v n, .dstVec =>
    n % u.regs = 0
  | .v _, _ => false
  | .s _, .vec | .s _, .dstVec => false
  | .s _, _ => true
  | .y _, .any => true
  | .y _, _ => false
  | .special c, .any | .special c, .noLatch | .special c, .scalarIn => c < 0x19C
  | .special c, .dst | .special c, .dstVec | .special c, .dstScalar => c = 0x184
  | .special _, _ => false
  | .inline _, .any | .inline _, .noLatch | .inline _, .regOrInline | .inline _, .scalarIn => true
  | .inline _, _ => false

/-- The form the scalar path admits as a source: scalar, special or inline (R71). -/
def Use.scalarSource (u : Use) : Bool :=
  match opd u.enc with
  | .s _ | .special _ | .inline _ => true
  | _ => false

/-- The field names a scalar register. -/
def Use.isScalar (u : Use) : Bool :=
  match opd u.enc with
  | .s _ => true
  | _ => false

/-- The first vector register at or beyond the role's count that the field names (R16). -/
def Use.beyond (u : Use) (count : Nat) : Option Nat :=
  match opd u.enc with
  | .v n => if n + u.regs ≤ count then none else some (max n count)
  | _ => none

/-- The invalid latch that the field names (R78). -/
def Use.lostLatch (u : Use) (g : Group) : Option Nat :=
  match opd u.enc with
  | .y i => if ((g.latches[i]?).getD {}).valid then none else some i
  | _ => none

/-- The field names a scalar register that is pending and blocks (R23). -/
def Use.isPending (u : Use) (g : Group) : Bool :=
  match opd u.enc with
  | .s n => u.blocks && g.pending n
  | _ => false

/-- The registers a nine-bit destination covers, as encodings. -/
def spanOf (enc regs : Nat) : List Nat := if enc < 0x100 then (List.range regs).map (enc + ·) else [enc]

/-- The field names a register that the load has yet to write (R145). -/
def Use.takesFrom (u : Use) (e : LoadEntry) : Bool :=
  (spanOf e.dest e.regs).any (fun r => (spanOf u.enc.toNat u.regs).contains r && r ≠ 0x184)

/-- Data of a load, or an old value, that has not returned, or a register line that is not in the register cache, stands in the
way of the field (R21, R145). -/
def Use.inFlight (u : Use) (g : Group) : Bool :=
  g.loads.any u.takesFrom
    || (spanOf u.enc.toNat u.regs).any (fun r => g.evicted.contains r && decide (r < 0x100))

/-! ## Values -/

/-- Sign-extend a number of `n` bits to 64. -/
def sext64 (n v : Nat) : Word := (BitVec.ofNat n v).signExtend 64

/-- A special source of R70 for a lane, before it is cut to the operand's width. -/
def State.special (s : State) (code l : Nat) : Word :=
  let g := s.own
  let m := s.ownTeam
  let c := s.focus.core
  let cores := ((sfind m.gridSlot s.grids).map (·.cores)).getD 0
  let role := m.roleOf s.focus.group
  let n (x : Nat) : Word := BitVec.ofNat 64 (x % 2 ^ 32)
  let own (x : Nat) : Word := if m.gridSlot = 64 then (Config.fwSpecial code).setWidth 64 else n x
  match code with
  | 0x185 => n l
  | 0x186 => own s.focus.group
  | 0x187 => own (((List.range c).filter cores.getLsbD).length)
  | 0x188 => 0xFFFFFFFF
  | 0x189 => n c
  | 0x18A => n (c / 48)
  | 0x18B => n (c / 4)
  | 0x18C => n m.context
  | 0x18D => own m.gridSlot
  | 0x18E => n role
  | 0x18F => own (s.focus.group - m.roleFirst role)
  | 0x190 => own (m.roleGroups role)
  | 0x191 => own (popcount cores)
  | 0x192 => n g.cur.toNat
  | 0x193 => n (2 ^ l - 1)
  | 0x194 => BitVec.ofNat 64 s.clock
  | 0x195 => n (s.clock / 2 ^ 32)
  | 0x196 => BitVec.ofNat 64 s.ftime
  | 0x197 => n (s.ftime / 2 ^ 32)
  | 0x198 => own m.gridSeq
  | 0x199 => n m.scratchSize
  | 0x19A => n s.pkgid
  | 0x19B => 0x3F800000
  | _ => 0

/-- Keep the low 32 bits of a 32-bit operand. -/
def cut (regs : Nat) (w : Word) : Word := if regs = 1 then (w.setWidth 32).setWidth 64 else w

/-- The value of a source in a lane at the field's width: 32 bits zero-extended, or 64 (R69, R70, R77, R168). -/
def State.value (s : State) (u : Use) (l : Nat) : Word :=
  let g := s.own
  match opd u.enc with
  | .v n => if u.regs = 1 then (g.v n l).setWidth 64 else g.v (n + 1) l ++ g.v n l
  | .s n => cut u.regs (g.s n)
  | .y i => cut u.regs (sget 0 ((g.latches[i]?).getD {}).vals l)
  | .special c => cut u.regs (s.special c l)
  | .inline b => cut u.regs (b.signExtend 64)

/-- The source is poisoned in a lane (R162, R163). -/
def Group.poisoned (g : Group) (u : Use) (l : Nat) : Bool :=
  match opd u.enc with
  | .v n => (List.range u.regs).any (fun i => g.vregPoison.contains ((n + i) * 32 + l))
  | .s n => g.sregPoison.contains n
  | .y i => ((g.latches[i]?).getD {}).poison.getLsbD l
  | _ => false

/-- Write a register destination in a lane: `regs` registers of a vector destination, or the scalar register; 0x184
discards. -/
def Group.writeDst (g : Group) (enc : BitVec 9) (regs l : Nat) (w : Word) (poison : Bool) : Group :=
  match opd enc with
  | .v n =>
    let g1 := { g.setV n l (w.setWidth 32) with vregPoison := setPoison g.vregPoison (n * 32 + l) poison }
    if regs = 1 then g1 else
      { g1.setV (n + 1) l (w.extractLsb' 32 32) with
        vregPoison := setPoison g1.vregPoison ((n + 1) * 32 + l) poison }
  | .s n => { g.setS n w with sregPoison := setPoison g.sregPoison n poison }
  | _ => g

/-- What a destination holds in a lane. -/
def Group.readDst (g : Group) (enc : BitVec 9) (regs l : Nat) : Word :=
  match opd enc with
  | .v n => if regs = 1 then (g.v n l).setWidth 64 else g.v (n + 1) l ++ g.v n l
  | .s n => g.s n
  | _ => 0

/-- What a destination is poisoned in a lane. -/
def Group.poisonDst (g : Group) (enc : BitVec 9) (regs l : Nat) : Bool :=
  match opd enc with
  | .v n => (List.range regs).any (fun i => g.vregPoison.contains ((n + i) * 32 + l))
  | _ => false

/-! ## Field uses -/

def useD (f : Full) (kind : Kind := .dst) (regs : Nat := 1) : Use := ⟨1, f.d, kind, regs, true⟩
def useA (f : Full) (kind : Kind := .any) (regs : Nat := 1) : Use := ⟨2, f.a, kind, regs, true⟩
def useB (f : Full) (kind : Kind := .any) (regs : Nat := 1) : Use := ⟨3, f.b, kind, regs, true⟩
def useC (f : Full) (kind : Kind := .any) (regs : Nat := 1) : Use := ⟨4, f.c, kind, regs, true⟩

/-- A predicate field has bits [8:6] clear (R103). -/
def badP (e : BitVec 9) : Bool := e.extractLsb' 6 3 ≠ 0

/-- The predicate number of a predicate field. -/
def pNo (e : BitVec 9) : Nat := bits e.toNat 0 6

end Sys2Proof.Machine
end

