-- ==== Sys2Proof/Machine/Flags.lean ====
section
/-! DEFINITION. Flag computations: the sticky floating-point flags (R20, R188) and the carry and borrow predicates
(R172), with the saturation of R170. -/

namespace Sys2Proof.Machine

open Sys2Proof

/-- FPFLAGS bits (R20): invalid, divide-by-zero, overflow, underflow, inexact. -/
def flV : BitVec 5 := 1
def flZ : BitVec 5 := 2
def flO : BitVec 5 := 4
def flU : BitVec 5 := 8
def flX : BitVec 5 := 16

/-- The flag set when a condition holds. -/
def flIf (b : Bool) (f : BitVec 5) : BitVec 5 := if b then f else 0

/-- Commit the flags of a word when it retires (R188). -/
def Group.raise (g : Group) (f : BitVec 5) : Group := { g with fpflags := g.fpflags ||| f }

/-- The value of an integer operand at width `w`: signed or unsigned (X of R170). -/
def intVal (signed : Bool) (w : Nat) (x : Word) : Int :=
  if signed then (BitVec.ofNat w x.toNat).toInt else ((x.toNat % 2 ^ w : Nat) : Int)

/-- Clamp to the range of a type of width `w` (SAT of R170). -/
def satInt (signed : Bool) (w : Nat) (v : Int) : Int :=
  let lo : Int := if signed then -(2 ^ (w - 1) : Nat) else 0
  let hi : Int := if signed then (2 ^ (w - 1) : Nat) - 1 else (2 ^ w : Nat) - 1
  if v < lo then lo else if v > hi then hi else v

/-- The low `w` bits of an integer. -/
def lowBits (w : Nat) (v : Int) : Nat := (v % (2 ^ w : Nat)).toNat

/-- ADDC: the low bits and the carry out of u(a) + u(b) + p (R172). -/
def addCarry (w : Nat) (a b : Word) (p : Bool) : Nat × Bool :=
  let t := a.toNat % 2 ^ w + b.toNat % 2 ^ w + p.toNat
  (t % 2 ^ w, decide (2 ^ w ≤ t))

/-- SUBB: the low bits and the borrow out of u(a) - u(b) - p (R172). -/
def subBorrow (w : Nat) (a b : Word) (p : Bool) : Nat × Bool :=
  let x := a.toNat % 2 ^ w
  let y := b.toNat % 2 ^ w + p.toNat
  ((x + 2 * 2 ^ w - y) % 2 ^ w, decide (x < y))

end Sys2Proof.Machine
end

