-- ==== Sys2Proof/Machine/Issue.lean ====
section
/-! DEFINITION. How a word issues: its active lanes (R79), the ranked checks (R80, R81), blocking (R23), and how it
retires: results, latches, program counters, loops, counts and switch points (R41, R42, R71, R77, R86, R101). -/

namespace Sys2Proof.Machine

open Sys2Proof

/-- What the manual says of an instruction before its effect: opcode, class W, privilege, whether a loop body forbids it,
the roles that may issue it, the fields it uses, further illegal-modifier conditions by FIELD code, whether it ignores W,
whether it produces a register result, its scope code for FR_HDR, and whether it reads scratchpad at issue. -/
structure Shape where
  op : Nat
  sw : Bool := true
  priv : Bool := false
  noLoop : Bool := false
  roles : List Nat := [0, 1, 2, 3]
  dst : Option Use := none
  srcs : List Use := []
  bad : List (Nat × Bool) := []
  wFree : Bool := false
  result : Bool := false
  scope : Nat := 0
  behind : Bool := false

/-- The word runs on the scalar path: its destination is a scalar register (R71, R167). -/
def Shape.scalarPath (sh : Shape) : Bool := (sh.dst.map Use.isScalar).getD false

def Shape.uses (sh : Shape) : List Use := sh.dst.toList ++ sh.srcs

/-- W = 1 is admitted (R71). -/
def Shape.wOk (sh : Shape) (f : Full) : Bool :=
  !f.w || sh.wFree || (!sh.sw && sh.result && !sh.scalarPath)

/-- The fields that break rank 4 of R80, in the order in which they are reported: D, A, B, C, FN, scope, W, PRED. -/
def Shape.badFields (sh : Shape) (f : Full) : List Nat :=
  [1, 2, 3, 4, 0, 7, 5, 6].filter (fun k =>
    sh.bad.any (fun e => e.1 = k && e.2)
      || sh.uses.any (fun u => u.fld = k && !u.ok)
      || sh.srcs.any (fun u => u.fld = k && sh.scalarPath && !u.scalarSource)
      || (k = 5 && !sh.wOk f))

/-- The first check of R80 that the word fails, with the FR_INFO of R81. -/
def Shape.check (sh : Shape) (f : Full) (m : Team) (gi : Nat) (g : Group) : Option Trap :=
  let role := m.roleOf gi
  let count := m.roleRegs role
  if sh.noLoop && pcLooping g.pathPc then some { code := 0x01, info := BitVec.ofNat 32 (sh.op + 2 * 2 ^ 10) }
  else if sh.priv && m.gridSlot ≠ 64 then some { code := 0x03, info := BitVec.ofNat 32 sh.op }
  else if !sh.roles.contains role then some { code := 0x04, info := BitVec.ofNat 32 (sh.op + role * 2 ^ 8) }
  else match sh.badFields f with
  | k :: _ => some { code := 0x02, info := BitVec.ofNat 32 k }
  | [] =>
    match sh.uses.findSome? (fun u => u.beyond count) with
    | some n => some { code := 0x06, info := BitVec.ofNat 32 (n % 256 + count * 2 ^ 8) }
    | none => (sh.srcs.findSome? (fun u => u.lostLatch g)).map (fun i =>
        { code := 0x05, info := BitVec.ofNat 32 i })

/-- The active lanes of a full-form word (R79). -/
def Group.activeFor (g : Group) (f : Full) : Lanes :=
  lanesWhere (fun l => g.cur.getLsbD l && (g.p l f.pred.toNat != f.pn))

/-- A register result: the value for each lane it is written in (for the scalar path, one), and the poisoned lanes. -/
structure Result where
  vals : List (Nat × Word)
  poison : Lanes := 0
  deriving DecidableEq, Repr

/-- What a word leaves when it retires: the state with its own effects, its register result, sticky flags and predicates
(lane, number, value), where it sends its active lanes (when it is a branch), lanes that stay at the word, and what is
evaluated at its retirement. -/
structure Retire where
  s : State
  result : Option Result := none
  flags : BitVec 5 := 0
  preds : List (Nat × Nat × Bool) := []
  target : Option (List (Nat × Word)) := none
  hold : Lanes := 0
  after : State → State := id

/-- How a word ends: it retires; it waits at its place as a long wait (R91); it waits at its place for something else; the slot
stalls for an operand; it traps; it traps after lookups that have left their mark; or the state it leaves is given. -/
inductive Effect where
  | retire (r : Retire)
  | wait (s : State)
  | pause (s : State)
  | stall
  | trap (t : Trap)
  | trapFrom (s : State) (t : Trap)
  | settled (s : State)

/-! ## Loops and next program counters -/

/-- The next PCV of the current path for a word that does not branch, whether the word ends a loop iteration, and the
group with the counter stepped (R86). `pathLoop` names the counter register; its second part is the body length minus one
that a resumed loop read from its LOOP word, or 64 where sC[37:32] gives it. -/
def Group.loopStep (g : Group) : Group × Word × Bool :=
  let pc := g.pathPc
  if pcLooping pc then
    let r := (g.pathLoop.getD (0, 64)).1
    let n := (g.pathLoop.getD (0, 64)).2
    let i := pcIndex pc
    let last := if n < 64 then n else bits (g.s r).toNat 32 6
    if i = last ∨ i = 63 then
      let left := (bits (g.s r).toNat 0 32 + 2 ^ 32 - 1) % 2 ^ 32
      let g1 := g.setS r (BitVec.ofNat 64 (bits (g.s r).toNat 32 32 * 2 ^ 32 + left))
      if left ≠ 0 then (g1, mkPc (pcAddr pc + 2 ^ 56 - 8 * i) true 0, true)
      else ({ g1 with pathLoop := none }, mkPc (pcAddr pc + 8) false 0, true)
    else (g, mkPc (pcAddr pc + 8) true (i + 1), false)
  else (g, mkPc (pcAddr pc + 8) false 0, false)

/-- Give lanes their next PCVs; the subset with the lowest stays current, the others become waiting paths from now
(R101). -/
def Group.goTo (g : Group) (next : List (Nat × Word)) (now : Nat) : Group :=
  let g1 := next.foldl (fun (h : Group) e => h.setPc e.1 e.2) g
  let low := next.foldl (fun acc e => if e.2.toNat < acc then e.2.toNat else acc) (2 ^ 64)
  let stay := lanesWhere (fun l => next.any (fun e => e.1 = l && e.2.toNat = low))
  let leave := lanesWhere (fun l => next.any (fun e => e.1 = l && e.2.toNat ≠ low))
  let g2 := if leave = 0 then g1 else g1.setWaits leave now
  { g2 with cur := stay, waiting := g2.waiting &&& ~~~ (stay ||| leave) }

/-- Move the lanes of the current path on when a word retires (R86, R101): lanes that have exited, are held or stay at the
word do not move. The flag tells the end of a loop iteration. -/
def Group.advance (g : Group) (target : Option (List (Nat × Word))) (hold : Lanes) (now : Nat) : Group × Bool :=
  let movers := lanesOf (g.cur &&& g.live &&& ~~~ hold)
  let st := if movers = [] then (g, 0, false) else g.loopStep
  let next := movers.map (fun l =>
    (l, (target.bind (fun t => (t.find? (fun e => e.1 = l)).map (·.2))).getD st.2.1))
  let g1 := st.1.goTo next now
  ({ g1 with waiting := g1.waiting ||| (g.cur &&& g.live &&& hold) }, st.2.2)

/-! ## Results and latches -/

/-- Write the register result of a word, unless W suppresses it (R71). -/
def Group.writeResult (g : Group) (sh : Shape) (f : Full) (r : Result) : Group :=
  match sh.dst with
  | none => g
  | some u =>
    if f.w && !sh.wFree then g else
      r.vals.foldl (fun (h : Group) e => h.writeDst u.enc u.regs e.1 e.2 (r.poison.getLsbD e.1)) g

/-- The latch entry of a vector-path result: the result in the lanes that have one, what the destination held in the others
(R77). `g` is the group before the word. -/
def Group.latchEntry (g : Group) (enc : BitVec 9) (regs : Nat) (r : Result) : Latch :=
  let val (l : Nat) : Word := cut regs (((r.vals.find? (fun e => e.1 = l)).map (·.2)).getD (g.readDst enc regs l))
  let has (l : Nat) : Bool := r.vals.any (fun e => e.1 = l)
  { valid := true
    vals := (List.range 32).foldl (fun m l => sput 0 m l (val l)) []
    poison := lanesWhere (fun l => if has l then r.poison.getLsbD l else g.poisonDst enc regs l) }

/-- Shift a new entry into y0 (R77). -/
def Group.shiftLatch (g : Group) (e : Latch) : Group := { g with latches := e :: g.latches.take 3 }

/-- The result, flags and predicates of a word, as it retires. `old` is the group before the word. -/
def Group.commit (g old : Group) (sh : Shape) (f : Full) (r : Retire) : Group :=
  let g1 := r.preds.foldl (fun (h : Group) e => h.setP e.1 e.2.1 e.2.2) (g.raise r.flags)
  match r.result, sh.dst with
  | some res, some u =>
    let g2 := g1.writeResult sh f res
    if sh.result && !sh.sw && !sh.wFree && !sh.scalarPath then g2.shiftLatch (old.latchEntry u.enc u.regs res) else g2
  | _, _ => g1

/-! ## Issuing -/

/-- Mark the issuing slot to select again. -/
def State.reselect (s : State) : State :=
  s.modCore s.focus.core (fun k => k.setSlot s.ownSlot { k.slot s.ownSlot with resel := true })

/-- The loop whose body a group captured has ended for the path that issued: its capture is discarded (R89). `old` is the group
before the word. -/
def State.endCapture (s : State) (old : Group) : State :=
  if pcLooping old.pathPc && !(lanesOf (old.cur &&& s.own.live)).any (fun l => pcLooping (s.own.pc l)) then
    s.modCore s.focus.core (fun k => k.dropCapture s.ownSlot s.focus.team s.focus.group (some (loopStart old.pathPc)))
  else s

/-- Retire a word. A word that blocked on a pending register is a switch point, whatever its class (R41). -/
def State.finish (s : State) (sh : Shape) (f : Full) (r : Retire) : State :=
  let old := s.own
  let s1 := r.s.modOwn (fun g => g.commit old sh f r)
  let adv := s1.own.advance r.target r.hold s.ticks
  let s2 := r.after ((s1.modOwn (fun _ =>
    { adv.1 with
      count := adv.1.count + 1, run := adv.1.run + 1, greed := adv.1.greed + 1
      blocked := adv.1.blocked &&& ~~~ old.cur })).endCapture old)
  if sh.sw || adv.2 || old.blocked &&& old.cur ≠ 0 then s2.switchPoint else s2

/-- Retire a word with no active lane: a no-operation that counts (R79). -/
def State.retireNop (s : State) (f : Full) : State := s.finish { op := 0, sw := false } f { s := s }

/-- The word waits at its place: a switch point that has not issued (R23, R41, R91). Its latches are kept for it (R43). -/
def State.waitHere (s : State) : State :=
  (s.modOwn (fun g =>
    { g with
      waiting := g.waiting ||| g.cur
      kept := if g.latches.any (·.valid) then (g.pathPc.toNat, g.latches) :: g.kept else g.kept })).switchPoint

/-- The word waits at its place, as a switch point that has not issued, for something that R91 does not list (R345). -/
def State.haltHere (s : State) : State :=
  (s.modOwn (fun g =>
    { g with
      stalled := g.stalled ||| g.cur
      kept := if g.latches.any (·.valid) then (g.pathPc.toNat, g.latches) :: g.kept else g.kept })).switchPoint

/-- The word blocks on a pending register: it waits, and it will be a switch point when it issues (R23, R41). -/
def State.blockHere (s : State) : State := (s.modOwn (fun g => { g with blocked := g.blocked ||| g.cur })).waitHere

/-- The word waits at its place for something that R91 does not list: its path stays current and its group active, and the
slot turns to another group meanwhile (log 66). -/
def State.pauseHere (s : State) : State := (s.modOwn (fun g => { g with stalled := g.stalled ||| g.cur })).reselect

/-- The word is tried: it waits no more, and takes back the latches that it keeps. -/
def Group.restore (g : Group) : Group :=
  let g1 : Group := { g with waiting := g.waiting &&& ~~~ g.cur, stalled := g.stalled &&& ~~~ g.cur }
  match g.kept.find? (fun e => e.1 = g.pathPc.toNat) with
  | some e => { g1 with latches := e.2, kept := dropFirst (fun e => e.1 = g.pathPc.toNat) g.kept }
  | none => g1

/-- A trap of the issuing word: FR_LANES names its active lanes unless the trap names others. -/
def State.trapWord (s : State) (act : Lanes) (sh : Shape) (t : Trap) : State :=
  (s.takeTrap { t with lanes := if t.lanes = 0 then act else t.lanes
                       scope := if t.scope = 0 then sh.scope else t.scope }).reselect

/-- How a word that passed its checks ends. -/
def State.apply (s : State) (sh : Shape) (f : Full) (act : Lanes) : Effect → State
  | .retire r => s.finish sh f r
  | .wait s1 => s1.waitHere
  | .pause s1 => s1.pauseHere
  | .stall => s
  | .trap t => s.trapWord act sh t
  | .trapFrom s1 t => s1.trapWord act sh t
  | .settled s1 => s1

/-- Every earlier store of the group has left its queue, and every earlier load has returned (R156). -/
def Group.quiet (g : Group) : Bool := g.storeQ = [] && g.loads = []

/-- The load's data has yet to come from beyond the LLC (R91). -/
def State.missesLlc (s : State) (e : LoadEntry) : Bool :=
  !e.scratch && (e.remote ≠ [] || (e.lanes.flatMap (·.addrs) ++ e.parts.map (·.addr)).any (fun a =>
    (sfind (localOf a / 128) s.llc).isNone))

/-- What a word does whose operands have not come: right after a switch point its group waits, as a long wait when the data of
a load comes from beyond the LLC (R91); otherwise the slot stalls (R92). -/
def State.stallFor (s : State) (uses : List Use) : State :=
  if s.own.count ≠ 0 then s
  else if s.own.loads.any (fun e => s.missesLlc e && uses.any (fun u => u.takesFrom e)) then s.waitHere
  else s.pauseHere

/-- The word reads scratchpad at issue, and earlier scratchpad loads of the group have yet to read (R34). -/
def Shape.heldUp (sh : Shape) (g : Group) : Bool := sh.behind && g.loads.any (·.scratch)

/-- Issue a word to the group that `focus` names: no-operation, trap, block, stall, or effect (R23, R79, R80). -/
def State.issueWord (s0 : State) (sh : Shape) (f : Full) (body : State → Lanes → Effect) : State :=
  let s := s0.modOwn Group.restore
  let g := s.own
  let act := g.activeFor f
  if act = 0 then s.retireNop f else
  match sh.check f s.ownTeam s.focus.group g with
  | some t => s.trapWord act sh t
  | none =>
    if sh.uses.any (fun u => u.isPending g) then s.blockHere
    else if sh.uses.any (fun u => u.inFlight g) then s.stallFor sh.uses
    else if sh.heldUp g then s.pauseHere
    else s.apply sh f act (body s act)

/-- The meaning of a full-form word: a next state whenever `focus` names a group. -/
def issue (sh : Shape) (f : Full) (s : State) (body : State → Lanes → Effect) : Host.Outcome State Fault Refusal :=
  match s.own? with
  | none => .fault .noIssuer
  | some _ => .next (s.issueWord sh f body)

/-! ## Poison, and the shared lane-wise computation -/

/-- The POISON trap of a word that reads a poisoned source (R163, R165): FR_INFO names the first such field, in the order of R435
(log 80). -/
def State.poisonTrap (s : State) (uses : List Use) (act : Lanes) : Option Trap :=
  let g := s.own
  (uses.find? (fun u => (lanesOf act).any (g.poisoned u))).map (fun u =>
    { code := 0x17, info := BitVec.ofNat 32 u.enc.toNat
      lanes := lanesWhere (fun l => act.getLsbD l && uses.any (fun u => g.poisoned u l)) })

/-- What a computation gives in one lane: a value, sticky flags, and the predicates it writes. -/
structure LaneOut where
  val : Word
  flags : BitVec 5 := 0
  preds : List (Nat × Bool) := []
  deriving DecidableEq, Repr

/-- Compute in each active lane, or once on the scalar path, from the values of the sources (R167): all sources are read
before anything is written. A predicate that the scalar path writes is written in every active lane (R109). -/
def State.compute (sh : Shape) (fn : Nat → List Word → LaneOut) (s : State) (act : Lanes) : Effect :=
  match s.poisonTrap sh.srcs act with
  | some t => .trap t
  | none =>
    let outs := (if sh.scalarPath then [lowest act] else lanesOf act).map (fun l =>
      (l, fn l (sh.srcs.map (fun u => s.value u l))))
    .retire {
      s := s
      result := some { vals := outs.map (fun e => (e.1, e.2.val)) }
      flags := outs.foldl (fun acc e => acc ||| e.2.flags) 0
      preds := outs.flatMap (fun e => e.2.preds.flatMap (fun p =>
        (if sh.scalarPath then lanesOf act else [e.1]).map (fun l => (l, p.1, p.2)))) }

/-- Operand values of a computation: `arg xs i` is the i-th source. -/
def arg (xs : List Word) (i : Nat) : Word := xs.getD i 0

end Sys2Proof.Machine
end

