-- ==== Sys2Proof/Machine/PortOps.lean ====
section
/-! DEFINITION. What the Fozen ports and the host link do for the units of the package: accepting requests (R358 to R362),
the accounting of posted requests and the gate of a wide release (R142, R363, R365), and failed requests (R364). -/

namespace Sys2Proof.Machine

open Sys2Proof

def State.port (s : State) (n : Nat) : Port := sget {} s.ports n

def State.modPort (s : State) (n : Nat) (f : Port → Port) : State := { s with ports := sput {} s.ports n (f (s.port n)) }

/-- The port that a domain physical address maps to (R129, R358). -/
def portOf (a : Nat) : Nat := a / 128 % 16

/-- A register of a port. -/
def State.portReg (s : State) (n o : Nat) : Word := s.reg (offPort n + o)

/-- The port through which requests that map to port `p` leave, with the remap in effect (R358). -/
def State.egress (s : State) (p : Nat) : Nat := (s.port p).remap.getD p

/-- The remap that FZ_REMAP asks for (R373). -/
def State.remapWanted (s : State) (p : Nat) : Option Nat :=
  let w := s.portReg p 0x10
  if w.getLsbD 4 then some (bits w.toNat 0 4) else none

/-- Whether the port of an address accepts one more request (R361), with no remap of it pending (R358). -/
def State.portAccepts (s : State) (a : Nat) : Bool :=
  let p := portOf a
  decide ((s.port (s.egress p)).outstanding.length < 512) && decide (s.remapWanted p = (s.port p).remap)

/-- The port of an address accepts a request behind others that one turn asks of the ports in `asked`. -/
def State.portTakes (s : State) (asked : List Nat) (a : Nat) : Bool :=
  let q := s.egress (portOf a)
  decide ((s.port q).outstanding.length + asked.count q < 512) && decide (s.remapWanted (portOf a) = (s.port (portOf a)).remap)

/-- Accept a request for another package at its port (R359, R361, R362). A package number above MAXPKG is not sent anywhere:
the request ends when the step ends (R364 CAUSE 0; log 14). The numbers are the port and the request's number there. -/
def State.accept (s : State) (issuer : Issuer) (r : RemoteRequest) (a : Nat) : State × (Nat × Nat) :=
  let dst := pkgOf a
  let q := s.egress (portOf a)
  let p := s.port q
  let n := sget 0 p.sendNext dst
  let r1 : RemoteRequest := { r with package := s.pkgid, srcPort := q, seq := n, address := localOf a }
  let o : Outstanding := {
    id := p.nextId, request := r1, dst := dst, issuer := issuer
    postedNo := if r.posted then some p.postedNext else none, since := s.ns }
  (s.modPort q (fun p => { p with
    outstanding := p.outstanding ++ [o], nextId := p.nextId + 1, sendNext := sput 0 p.sendNext dst (n + 1)
    postedNext := if r.posted then p.postedNext + 1 else p.postedNext
    sent := if dst > s.maxpkg then p.sent else p.sent ++ [r1] }),
   (q, p.nextId))

/-- FZ_TIMEOUT, in nanoseconds (R372). -/
def State.fzTimeout (s : State) : Nat := max 1000 (s.regBits (offFz + 8) 0 32)

/-! ## Posted requests (R142) -/

/-- The team of a grid on a core, as what it leaves behind names it. -/
def State.originOf (s : State) (c grid : Nat) : Origin where
  context := s.ctxBy c grid
  team := (if grid = 64 then none else (s.core c).slotOf grid).getD 0
  grid := ((s.teamBy c grid).map (·.gridSeq)).getD 0

/-- The team that a word came from is still there: its grid slot has not passed to another grid. -/
def State.originLives (s : State) (c grid : Nat) (o : Origin) : Bool :=
  grid = 64 || (s.teamBy c grid).any (fun m => m.gridSeq = o.grid)

/-- The issuer of posted requests of the group that `focus` names. -/
def State.storeIssuer (s : State) (pc : Word) (lanes : Lanes) : Issuer :=
  .store s.focus.core s.ownTeam.gridSlot s.focus.group pc lanes (s.originOf s.focus.core s.ownTeam.gridSlot)

/-- Add to the POSTED count of the group that issued a request, while it is there. -/
def State.addPosted (s : State) (i : Issuer) (d : Int) : State :=
  match i with
  | .store c grid g _ _ o =>
    if s.originLives c grid o then
      s.modTeamBy c grid (fun m => m.modGroup g (fun g => { g with posted := ((g.posted : Int) + d).toNat }))
    else s
  | _ => s

/-- The last posted number that port `n` accepted; 16 is the host link. -/
def State.lastPosted (s : State) (n : Nat) : Nat :=
  if n = 16 then s.hostPostedNext - 1 else (s.port n).postedNext - 1

/-- DONE_TO of port `n`; 16 is the host link. -/
def State.doneTo (s : State) (n : Nat) : Nat :=
  let open_ := (s.port n).outstanding.filterMap (·.postedNo) ++ (if n = 16 then s.hostPosted.map (·.1) else [])
  open_.foldl (fun acc k => min acc (k - 1)) (s.lastPosted n)

/-- What a wide release records (R142). -/
def State.marks (s : State) : List (Nat × Nat) := (List.range 17).map (fun n => (n, s.lastPosted n))

/-- Every DONE_TO has reached its recorded number. -/
def State.marksMet (s : State) (m : List (Nat × Nat)) : Bool := m.all (fun e => decide (e.2 ≤ s.doneTo e.1))

/-- A failed posted request, still unserviced, that recorded numbers cover (R365), with its port. -/
def State.coveredFailure (s : State) (m : List (Nat × Nat)) : Option (Nat × FailedPost) :=
  m.findSome? (fun e => ((s.port e.1).failed.find? (fun f => f.number ≤ e.2)).map (fun f => (e.1, f)))

/-- FR_INFO of UNREACHABLE (R364). -/
def unreachInfo (cause port package : Nat) : W32 := BitVec.ofNat 32 (cause + port * 16 + package % 4096 * 256)

/-- The failed request is one of a group's own. -/
def State.failureOf (s : State) (f : FailedPost) (core grid group : Nat) : Bool :=
  match f.issuer with
  | .store c r g _ _ o => c = core && r = grid && g = group && s.originLives c r o
  | _ => false

/-- The failed request is one of the issuing group's own. -/
def State.ownFailure (s : State) (f : FailedPost) : Bool := s.failureOf f s.focus.core s.ownTeam.gridSlot s.focus.group

/-- A group's wide release that has recorded these numbers performs or traps now (R142, R365). -/
def State.releaseDue (s : State) (core grid group : Nat) (m : List (Nat × Nat)) : Bool :=
  s.marksMet m && (s.coveredFailure m).all (fun f => !s.failureOf f.2 core grid group)

/-- Whether a wide release of the issuing group may perform (R142, R363, R365). -/
inductive Gate where
  /-- It performs, in this state. -/
  | go (s : State)
  /-- It waits for acknowledgements. -/
  | waits (s : State)
  /-- It is held by a failed request: its group has trapped UNREACHABLE, or, where the request is its own, stops at the word as soon
  as its record is there. -/
  | held (s : State)

/-- The trap of a held release: a deferred record at the release word, which the group executes again on resume (R365). In the
firmware slot it enters FW_TVEC and writes no record (R405). The CAUSE of a request that was refused, and the port number of the
host link, are free values: R364 gives neither (log 78). -/
def State.heldTrap (s0 : State) (act : Lanes) (scope port : Nat) (f : FailedPost) : State :=
  let d := s0.draw.1.toNat
  let s := if port = 16 || f.cause.isNone then s0.draw.2 else s0
  let t : Trap := { code := 0x18, lanes := act, addr := BitVec.ofNat 64 f.address, scope := scope,
                    info := unreachInfo (f.cause.getD (bits d 0 3)) (if port = 16 then bits d 4 4 else port) (pkgOf f.address) }
  if s.focus.team = 8 then s.fwTrap t else
  let r : Rec := { s.trapRec t with kind := 1 }
  ((s.record r (some (.group s.focus.core s.ownTeam.gridSlot s.focus.group r.pc false))).modOwn
    (fun g => g.stopped (.fault (s.nextSeq r.context) r.pc false))).reselect

/-- The gate of a release at `scope`, whose earlier accesses have all left the group's queue. Its numbers are recorded once for its
PCV and its lanes: lanes that join the path while it waits bring accesses of their own, and the numbers are taken anew. A release at package scope or
narrower does not wait (R363). -/
def State.wideGate (s : State) (act : Lanes) (scope : Nat) : Gate :=
  if scope < 7 then .go s else
  let pc := s.own.pathPc.toNat
  let key := pc + act.toNat * 2 ^ 64
  let old := (s.own.recorded.find? (fun e => e.1 = key)).map (·.2)
  let m := old.getD s.marks
  let s1 := s.modOwn (fun g => { g with recorded := (key, m) :: g.recorded.filter (fun e => e.1 % 2 ^ 64 ≠ pc) })
  if !s1.marksMet m then .waits s1 else
  match s1.coveredFailure m with
  | some (port, f) =>
    if !s1.ownFailure f then .held (s1.heldTrap act scope port f)
    else if s.focus.team = 8 then .waits s1 else .held s1.haltHere
  | none => .go (s1.modOwn (fun g => { g with recorded := g.recorded.filter (fun e => e.1 % 2 ^ 64 ≠ pc) }))

/-- Do what a release at `scope` does when it may perform; until then the word waits (R35, R142, R156). -/
def State.released (s : State) (act : Lanes) (release : Bool) (scope : Nat) (k : State → Effect) : Effect :=
  if !release then k s
  else if !s.own.quiet then .pause s
  else match s.wideGate act scope with
  | .go s1 => k s1
  | .waits s1 => .pause s1
  | .held s1 => .settled s1

/-! ## Reads of other packages a line at a time (R359) -/

/-- The read of a reader that covers a byte. -/
def State.farRead (s : State) (rd : Reader) (pa : Nat) : Option FarRead :=
  s.far.find? (fun f => f.reader = rd && !f.write && f.line = pa / 128 && f.offsets.contains (pa % 128))

/-- What has come of the read of a byte: nothing yet, a trap code with its FR_INFO, or the byte with its poison. -/
def State.farByte (s : State) (rd : Reader) (pa : Nat) : Option (Except (Nat × W32) (Byte × Bool)) :=
  (s.farRead rd pa).bind (fun f =>
    match f.fail with
    | some e => some (.error e)
    | none => ((f.offsets.zip f.got).find? (fun e => e.1 = pa % 128)).map (fun e => .ok e.2))

/-- Ask for bytes that a reader misses: one read per line, as far as the ports accept them (R359, R361). -/
def State.farAsk (s : State) (rd : Reader) (ctx : Nat) (pas : List Nat) : State :=
  ((pas.map (· / 128)).eraseDups).foldl (fun (t : State) ln =>
    let offs := ((pas.filter (fun a => a / 128 = ln && (t.farRead rd a).isNone)).map (· % 128)).eraseDups
    if offs = [] || !t.portAccepts (128 * ln) then t else
    let r := t.accept (.reads rd) {
      package := 0, srcPort := 0, seq := 0, context := ctx, address := 0, op := .read false, bytes := offs.map (·, 0)
      posted := false, discEn := false, poison := [] } (128 * ln)
    { r.1 with far := r.1.far ++ [{ reader := rd, line := ln, offsets := offs, request := some r.2 }] }) s

/-- The write that a reader makes at an address and waits for. -/
def State.farWrite (s : State) (rd : Reader) (pa : Nat) : Option FarRead :=
  s.far.find? (fun f => f.reader = rd && f.write && f.line = pa / 128 && f.offsets.head? = some (pa % 128))

/-- Write bytes of one line in another package, poisoned or not, and wait for the acknowledgement; nothing while the port is full. -/
def State.farSend (s : State) (rd : Reader) (ctx pa : Nat) (bs : List Byte) (poisoned : Bool) : State :=
  if (s.farWrite rd pa).isSome || !s.portAccepts pa then s else
  let offs := (List.range bs.length).map (pa % 128 + ·)
  let r := s.accept (.reads rd) {
    package := 0, srcPort := 0, seq := 0, context := ctx, address := 0, op := .write, bytes := offs.zip bs
    posted := false, discEn := false, poison := if poisoned then offs else [] } pa
  { r.1 with far := r.1.far ++ [{ reader := rd, line := pa / 128, offsets := offs, request := some r.2, write := true }] }

/-- A request of a reader is answered. -/
def State.farGot (s : State) (p : Nat × Nat) (f : FarRead → FarRead) : State :=
  { s with far := s.far.map (fun r => if r.request = some p then { f r with request := none } else r) }

/-- The issuing word as a reader. -/
def State.wordReader (s : State) : Reader := .word s.focus.core s.ownTeam.gridSeq s.focus.group s.own.pathPc

/-- A reader has what it needs, or is over. -/
def State.farDone (s : State) (rd : Reader) : State := { s with far := s.far.filter (fun f => f.reader ≠ rd) }

/-- What the words of a team, and operations of its core, were reading is forgotten. -/
def State.farForget (s : State) (c : Nat) (m : Team) (ids : List Nat) : State :=
  { s with far := s.far.filter (fun f => match f.reader with
      | .word k g _ _ => !(k = c && g = m.gridSeq)
      | .haul k id => !(k = c && ids.contains id)
      | _ => true) }

/-! ## Failed requests (R364) -/

/-- A target reports a failure against a SIMT word. That of a posted request, which may outlast the team, says itself whose it is. -/
def State.report (s : State) (r : Report) : State :=
  { s with reports := s.reports ++ [if r.request.isSome then r else { r with origin := s.originOf r.core r.grid }] }

/-- Wake every group whose wide release may perform now. -/
def State.wakeReleases (s : State) : State :=
  s.mapGroups (fun g => if g.recorded.any (fun e => s.marksMet e.2) then g.wake else g)

/-! ## The mixed-size detector (R161) -/

/-- The accesses that a lane makes at `bytes`, by address, with their size: one if it is aligned, else one a byte (R31). -/
def mixUnits (a n : Nat) (bytes : List Nat) : List Nat × Nat := if a % n = 0 then ([a], n) else (bytes, 1)

/-- The writer that an access names, by core, grid slot and group. -/
def State.mixWriter (s : State) : Focus := { core := s.focus.core, team := s.ownTeam.gridSlot, group := s.focus.group }

/-- Strong accesses of one lane of the group that `focus` names perform at home slices: each that overlaps a recent strong write of a
different size by another raises MIXED_SIZE against the group. -/
def State.mixCheck (s : State) (ctx : Nat) (pc : Word) (lane : Nat) (units : List Nat × Nat) (acc scope : Nat) : State :=
  if !(s.reg offLlc).getLsbD 0 then s else
  let here := units.1.filter (fun a => region (localOf a) = .dram && !s.isRemote a)
  let s1 := here.foldl (fun (t : State) a => match s.mixHit a units.2 s.mixWriter with
    | none => t
    | some w => t.report {
        code := 0x16, core := s.focus.core, grid := s.ownTeam.gridSlot, group := s.focus.group, pc := pc, address := a
        lanes := laneBit lane, info := mixInfo units.2 w, access := acc, scope := scope }) s
  if acc = 1 then s1 else
  let new := here.map (fun b =>
    ({ address := b, size := units.2, master := masterId 0 ctx, writer := s.mixWriter, time := s.uncore } : StrongWrite))
  { s1 with recent := new ++ s1.recent.filter (fun w => decide (s.uncore ≤ w.time + s.mixWindow)) }

/-! ## Accesses that have performed ahead of earlier ones (R34, R35)

A strong access may perform towards agents outside its core before one that stands earlier in its thread. It has one perform
moment for everyone (R32); but the agents of its own core, and all others within the reach of an acquire or a release that
orders the two, may find it only after the earlier one. Until then the bytes that it has written are veiled from these
agents, whose accesses to them wait, and the bytes that it has read are read again once one of these agents touches them. -/

/-- Two cores lie in one instance of a scope: core, quad or die (R28). -/
def sameInstance (scope c d : Nat) : Bool :=
  match scope with
  | 3 => decide (c = d)
  | 4 => decide (c / 4 = d / 4)
  | _ => decide (c / 48 = d / 48)

/-- The bytes of a line. -/
def lineBytes (ln : Nat) : List Nat := (List.range 128).map (128 * ln + ·)

/-- Bytes of this package that a store writes: a drop writes the whole of its lines (R147). -/
def StoreEntry.reach (e : StoreEntry) : List Nat :=
  if e.drop then ((e.bytes.map (fun b => localOf b.1 / 128)).eraseDups).flatMap lineBytes else e.bytes.map (fun b => localOf b.1)

/-- Bytes of this package that a group's accesses have written ahead of its earlier ones, with the scope of the veil. -/
def Group.veils (g : Group) : List (Nat × Nat) :=
  (g.storeQ.filter (·.ahead ≠ 0)).flatMap (fun e => e.reach.map (fun a => (e.ahead, a)))
    ++ (g.loads.filter (·.ahead ≠ 0)).flatMap (fun e => e.veil.map (fun a => (e.ahead, a)))

/-- Every group, with its core and team. -/
def State.everyGroup (s : State) : List (Nat × Nat × Nat × Group) :=
  s.cores.flatMap (fun k => ((8, k.2.fw) :: k.2.teams).flatMap (fun t => t.2.groups.map (fun g => (k.1, t.1, g.1, g.2))))

/-- Some of these bytes are veiled from a group. -/
def State.veiled (s : State) (c t g : Nat) (as : List Nat) : Bool :=
  s.everyGroup.any (fun x => !(x.1 = c && x.2.1 = t && x.2.2.1 = g)
    && x.2.2.2.veils.any (fun v => sameInstance v.1 x.1 c && as.contains v.2))

/-- Some byte of a line is veiled from the L1 of a core, which all groups of the core share. -/
def State.veiledLine (s : State) (c ln : Nat) : Bool :=
  s.everyGroup.any (fun x => x.2.2.2.veils.any (fun v => sameInstance v.1 x.1 c && v.2 / 128 = ln))

/-- Some bytes are veiled from the engines of a core. -/
def State.veiledCore (s : State) (c : Nat) : Bool := s.everyGroup.any (fun x => x.2.2.2.veils.any (fun v => sameInstance v.1 x.1 c))

/-- Some bytes are veiled at quad scope or beyond, where units outside the cores are reached (R28). -/
def State.veiledWide (s : State) : Bool := s.everyGroup.any (fun x => x.2.2.2.veils.any (fun v => decide (3 < v.1)))

/-- Bytes of this package that a load or atomic reads or writes: a last-use load drops its lines (R147). -/
def LoadEntry.bytesOf (e : LoadEntry) : List Nat :=
  if e.scratch then [] else
  if e.lastUse then ((e.lanes.flatMap (fun l => l.addrs.map (fun a => localOf a / 128))).eraseDups).flatMap lineBytes else
  (e.lanes.flatMap (·.addrs) ++ e.parts.flatMap (fun p => (List.range (if e.wide then 8 else 4)).map (p.addr + ·))).map localOf ++ e.veil

/-- Bytes that the group's accesses before number `seq` read or write. -/
def Group.bytesBefore (g : Group) (seq : Nat) : List Nat :=
  (g.storeQ.filter (fun e => !e.scratch && decide (e.seq < seq))).flatMap StoreEntry.reach
    ++ (g.loads.filter (fun e => decide (e.seq < seq))).flatMap LoadEntry.bytesOf

/-- The accesses before the group's veiled ones. -/
def Group.bytesBeforeVeiled (g : Group) : List Nat :=
  let n := ((g.storeQ.filter (·.ahead ≠ 0)).map (·.seq) ++ (g.loads.filter (·.ahead ≠ 0)).map (·.seq)).foldl max 0
  g.bytesBefore n

/-- The scope within which an access, number `seq` of its group, must not be found before earlier ones: that of the acquires
before it, and its own as a release (R35). -/
def Group.orderScope (g : Group) (seq : Nat) (release : Bool) (scope : Nat) : Nat :=
  ((g.loads.filter (fun x => decide (x.seq < seq) && x.acquire)).map (·.scope)).foldl max (if release then max 3 scope else 3)

/-- The group's access number `seq` to these bytes of package memory or of the PCI Express window may perform ahead of earlier ones: to no location of
theirs (R35), and so that no two groups can come to wait for each other. -/
def State.mayPass (s : State) (seq scope : Nat) (as : List Nat) : Bool :=
  let f := s.focus
  let before := s.own.bytesBefore seq
  decide (scope ≤ 5) && as ≠ [] && as.all (fun a => (region a = .dram || region a = .pci) && !before.contains a)
    && !s.veiled f.core f.team f.group (before ++ as)
    && s.everyGroup.all (fun x => (x.1 = f.core && x.2.1 = f.team && x.2.2.1 = f.group)
      || x.2.2.2.veils = [] || !sameInstance scope f.core x.1 || x.2.2.2.bytesBeforeVeiled.all (fun a => !as.contains a))

/-- An agent of core `c` touches bytes: what groups have read of them ahead of earlier accesses is forgotten, where these must not
be found in another order there. Without bytes, whatever they have so read. -/
def State.touch (s : State) (c : Nat) (as : Option (List Nat)) : State :=
  if !s.everyGroup.any (fun x => x.2.2.2.loads.any (fun e => e.ahead ≠ 0 && e.early ≠ [])) then s else
  let forget (e : LoadEntry) : LoadEntry :=
    let gone := (e.lanes.filter (fun l => as.elim true (fun as => l.addrs.any (fun a => as.contains (localOf a))))).map (·.lane)
    { e with early := e.early.filter (fun x => !gone.contains x.1) }
  { s with cores := s.cores.map (fun k => (k.1, k.2.mapTeams (Team.mapGroups (fun g => { g with
      loads := g.loads.map (fun e => if e.ahead ≠ 0 && e.veil = [] && sameInstance e.ahead k.1 c then forget e else e) })))) }

/-- A unit outside the cores touches memory. -/
def State.touchAll (s : State) : State := (List.range 24).foldl (fun (t : State) q => t.touch (4 * q) none) s

end Sys2Proof.Machine
end

