-- ==== Sys2Proof/Machine/Rejoin.lean ====
section
/-! DEFINITION. Shared operations of the Branch and rejoin unit: rejoin masks (R107), team barriers (R119, R120), the end
of lanes, groups and teams (R105, R265), and stopping an operation (R118). -/

namespace Sys2Proof.Machine

open Sys2Proof

/-! ## MEET (R107) -/

/-- The lanes held at a MEET that names mask `k`. -/
def Group.heldAt (g : Group) (k : Nat) : Lanes := lanesWhere (fun l => g.held.getLsbD l && sget 0 g.heldK l = k)

/-- Evaluate the release condition of mask `k`, and release when it holds: the held bits clear, and each lane goes on after
its MEET word on a path that is ready from now. -/
def Group.meetEval (now : Nat) (g : Group) (k : Nat) : Group :=
  let h := g.heldAt k
  if h ≠ 0 ∧ g.k k &&& ~~~ (g.exited ||| h) = 0 then
    let g1 := (lanesOf h).foldl (fun (a : Group) l => a.setPc l (mkPc (pcAddr (a.pc l) + 8) false 0)) g
    { g1.setWaits h now with
      held := g.held &&& ~~~ h, heldK := (lanesOf h).foldl (fun m l => sput 0 m l 0) g.heldK
      waiting := g.waiting &&& ~~~ h }
  else g

/-- Evaluate every release condition of the group (R105, R107). -/
def Group.meetAll (g : Group) (now : Nat) : Group := (List.range 16).foldl (Group.meetEval now) g

/-! ## Team barriers (R119, R120) -/

def Team.tbar (m : Team) (n : Nat) : TeamBarrier := sget {} m.tbstate n

def Team.setTbar (m : Team) (n : Nat) (b : TeamBarrier) : Team := { m with tbstate := sput {} m.tbstate n b }

/-- TBLANES of a group. -/
def Group.tbl (g : Group) (n : Nat) : Lanes := sget 0 g.tblanes n

/-- Lanes of a group that wait at a TBAR on barrier `n`. -/
def Group.tbw (g : Group) (n : Nat) : Lanes := sget 0 g.tbwait n

/-- Let the lanes that wait on barrier `n` go on after their words: a lane outside a loop at once, a lane in a loop body
when its word issues again, so that the loop steps as it does for any word (R86). -/
def Group.tbRelease (g : Group) (n now : Nat) : Group :=
  let w := g.tbw n
  let looping := lanesWhere (fun l => w.getLsbD l && pcLooping (g.pc l))
  let out := w &&& ~~~ looping
  let g1 := (lanesOf out).foldl (fun (a : Group) l => a.setPc l (mkPc (pcAddr (a.pc l) + 8) false 0)) g
  let g2 := if out = 0 then g1 else g1.setWaits out now
  ({ g2 with
    tbpass := g.tbpass ||| looping, waiting := g.waiting &&& ~~~ w
    tblanes := sput 0 g.tblanes n 0, tbwait := sput 0 g.tbwait n 0 } : Group).noteReady g now

/-- Exited lanes of a team. -/
def Team.exitedLanes (m : Team) : Nat := (m.groups.map (fun e => popcount e.2.exited)).sum

/-- Evaluate completion of team barrier `n`. -/
def Team.tbarEval (now : Nat) (m : Team) (n : Nat) : Team :=
  let b := m.tbar n
  if b.arrived + m.exitedLanes = 32 * m.groups.length then
    { m.setTbar n { phase := !b.phase } with groups := m.groups.map (fun e => (e.1, e.2.tbRelease n now)) }
  else m

/-- Withdraw the arrivals of exiting lanes of group `gi` at barrier `n` (R120). -/
def Team.tbarWithdraw (gi : Nat) (lanes : Lanes) (m : Team) (n : Nat) : Team :=
  match sfind gi m.groups with
  | none => m
  | some g =>
    let w := g.tbl n &&& lanes
    let b := m.tbar n
    let left := b.arrived - popcount w
    if w = 0 then m else
      (m.setTbar n { b with arrived := left, first := if left = 0 then 0 else b.first }).modGroup gi
        (fun g => { g with tblanes := sput 0 g.tblanes n (g.tbl n &&& ~~~ w) })

/-! ## The end of lanes, groups and teams -/

/-- Every group of the team has exited. -/
def Team.allExited (m : Team) : Bool := m.groups.all (fun e => e.2.exited = 0xFFFFFFFF)

/-- When no lane of a continuation is left, INCONT clears and the service entry is released (R126). -/
def Team.endCont (m : Team) (gi : Nat) : Team :=
  match sfind gi m.groups with
  | none => m
  | some g =>
    if g.contState.getLsbD 0 ∧ g.contLanes = 0 then
      (m.modGroup gi (fun g => { g with contState := 0 })).release (bits g.contState.toNat 32 8)
    else m

/-- The team owns the Ashlar engine of its core: it has a matrix role, or the role ANY (R269). -/
def Team.ownsAshlar (m : Team) : Bool := m.isAny || m.shape 9 9 ≠ 0

/-- Asynchronous operations and accesses of the team that are not over (R105). Service entries do not count. -/
def Core.busy (k : Core) (m : Team) : Bool :=
  m.groups.any (fun e => e.2.storeQ ≠ [] || e.2.acks ≠ [] || e.2.loads ≠ [] || e.2.cancelled ≠ [])
    || m.ftab.any (fun e => (e.2.state = .pending || e.2.state = .exported) && !e.2.service)
    || k.haul.any (fun o => o.grid = m.gridSlot) || m.quarry ≠ [] || (m.ownsAshlar && k.ash.queue ≠ [])

/-- The entries that staged operations hold, which are released without a status (R265). -/
def Team.stagedHandles (m : Team) : List Word :=
  m.staged.filterMap (fun e => e.2.handle) ++ m.lintelStaged.filterMap (fun e => e.2.packet.future.map FutureRef.handle)

/-- Discard what is still staged when the last group has exited (R265). -/
def Team.dropStaged (m : Team) : Team :=
  m.stagedHandles.foldl (fun (a : Team) h => if (a.futOf h).isSome then a.release (hEntry h) else a)
    { m with staged := [], lintelStaged := [] }

/-- Note in its grid that a core's team has ended, with the code that ends the grid when there is one (R327, R420). -/
def State.teamGone (s : State) (grid core code : Nat) : State :=
  { s with grids := smod grid (fun g =>
      { g with exited := addNew core g.exited, status := if g.status = 0 then code else g.status }) s.grids }

/-- No team of the context is left to switch out: PREEMPT clears (R418). -/
def State.endPreempt (s : State) (ctx : Nat) : State :=
  if s.cores.any (fun e => e.2.teams.any (fun t => t.2.context = ctx)) then s
  else s.setReg (offCtx ctx) (s.reg (offCtx ctx) &&& ~~~ mask 4 1)

/-- Free a team all of whose groups have exited and all of whose operations are over (R105). -/
def State.settle (s : State) (c t : Nat) : State :=
  match sfind t (s.core c).teams with
  | none => s
  | some m =>
    if m.allExited then
      let m1 := m.dropStaged
      if m.residency = .resident ∧ ¬ (s.core c).busy m1 then
        let s1 := s.modCore c (fun k => { k with teams := sdel t k.teams })
        ((s1.setReg (offCore c + 0x340 + 8 * t) 0).teamGone m.gridSlot c m.endCode).endPreempt m.context
      else s.modTeam c t (fun _ => m1)
    else s

/-- The slot of a core that holds the team of a grid. -/
def State.settleBy (s : State) (c grid : Nat) : State :=
  match (s.core c).slotOf grid with
  | some t => s.settle c t
  | none => s

/-! ## The header of a resident team (R19, R236) -/

/-- A register of 8 bytes at an address, with what a write leaves in it. -/
def overlay (bs : List (Nat × Byte)) (a : Nat) (w : Word) : Word :=
  word8 ((bytesOfNat 8 w.toNat).zipIdx.map (fun e => ((bs.find? (fun b => b.1 = a + e.2)).map (·.2)).getD e.1))

/-- A team takes what is written to the fields of its header that firmware may write. -/
def Team.takeHeader (bs : List (Nat × Byte)) (m : Team) : Team :=
  let at_ (o : Nat) (w : Word) : Word := overlay bs (m.image + o) w
  { m with
    contAddr := pcBits (at_ 8 m.contAddr), barTimeout := at_ 0x10 m.barTimeout
    nonfinite := (at_ 0x18 (if m.nonfinite then 1 else 0)).getLsbD 0, spillBase := at_ 0x20 m.spillBase }

/-- A write by firmware or by the host to the image of a resident team reaches its header (log 76). -/
def State.takeHeaders (s : State) (bs : List (Nat × Byte)) : State :=
  let hit (m : Team) : Bool := bs.any (fun b => decide (m.image + 8 ≤ b.1 ∧ b.1 < m.image + 0x28))
  (s.cores.filter (fun e => e.2.teams.any (fun t => hit t.2))).foldl (fun (t : State) e =>
    t.modCore e.1 (fun k => { k with teams := k.teams.map (fun x => (x.1, if hit x.2 then x.2.takeHeader bs else x.2)) })) s

/-- Lanes of the issuing group exit (R105): they leave the continuation, their Spoil stacks end (R229), and their team-barrier arrivals are
withdrawn. -/
def State.exitLanes (s : State) (lanes : Lanes) : State :=
  (s.modOwn (fun g => { g with
    exited := g.exited ||| lanes, spoil := (lanesOf lanes).foldl (fun m l => sdel l m) g.spoil, contLanes := g.contLanes &&& ~~~ (lanes.setWidth 64) })).modOwnTeam
    (fun m => ((List.range 16).foldl (Team.tbarWithdraw s.focus.group lanes) m).endCont s.focus.group)

/-- What the retirement of EXIT evaluates (R105, R120). -/
def State.afterExit (s : State) : State :=
  ((s.modOwn (fun g => g.meetAll s.ticks)).modOwnTeam
    (fun m => (List.range 16).foldl (Team.tbarEval s.ticks) m)).settle s.focus.core s.focus.team

/-! ## Stopping an operation (R118, R254, R294, R353, R397) -/

/-- Tell the engine of a cancelled operation to stop; the flag answers that it never runs. A staged stream or launch leaves
its slot and never starts; a Haul operation and a QGEMV stop at a unit boundary, at once when they wait for fault
service; every other operation runs to its end. -/
def State.tellStop (s : State) (h : Word) : State × Bool :=
  let m := s.ownTeam
  match hEngine h with
  | 1 => (s.modCore s.focus.core (fun k => { k with haul := k.haul.map (fun o =>
      if o.grid = m.gridSlot ∧ o.handle = some h then
        { o with cancelled := true, ended := if o.stopped.isSome then some 0x80 else o.ended, stopped := none }
      else o) }), false)
  | 2 =>
    if m.staged.any (fun e => e.2.handle = some h) then
      (s.modOwnTeam (fun m => ({ m with staged := m.staged.filter (fun e => e.2.handle ≠ some h) }).wake), true)
    else (s, false)
  | 4 => (s.modOwnTeam (fun m => { m with quarry := m.quarry.map (fun o =>
      if o.handle = some h then { o with cancelled := true } else o) }), false)
  | 5 =>
    if m.lintelStaged.any (fun e => e.2.packet.future.map FutureRef.handle = some h) then
      (s.modOwnTeam (fun m => ({ m with
        lintelStaged := m.lintelStaged.filter (fun e => e.2.packet.future.map FutureRef.handle ≠ some h) }).wake), true)
    else (s, false)
  | _ => (s, false)

/-- Cancel the running operation of a handle: its entry is released, and the group awaits its end (R118). -/
def State.cancelOp (s : State) (h : Word) : State :=
  let r := s.tellStop h
  let s1 := r.1.modOwnTeam (fun m => m.release (hEntry h))
  if r.2 then s1 else s1.modOwn (fun g => { g with cancelled := addNew h g.cancelled })

end Sys2Proof.Machine
end

