-- ==== Sys2Proof/Machine/Engine.lean ====
section
/-! DEFINITION. What the engines of a core share: scratchpad bytes with their poison (R162, R163), the descriptor checks of
asynchronous words (R245, R272, R435), their issue (R25, R38), and asynchronous faults (R48, R253). -/

namespace Sys2Proof.Machine

open Sys2Proof

/-! ## Scratchpad -/

/-- One byte of a team's scratchpad and whether its 8-byte granule is poisoned. -/
def Team.spByte (m : Team) (a : Nat) : Byte × Bool := (m.scratch.byte a, m.scratchPoison.contains (a / 8))

/-- Some granule of a scratchpad range is poisoned. -/
def Team.spPoisoned (m : Team) (a n : Nat) : Bool := m.scratchPoison.any (fun g => decide (8 * g < a + n ∧ a < 8 * g + 8))

/-- Scratchpad bytes with what becomes of each granule's poison: poisoned by a poisoned byte, clean once all its 8 bytes are
written (R162, R163). -/
def Team.spSet (m : Team) (bs : List (Nat × Byte)) (poison : List Nat) : Team :=
  let granules := (bs.map (fun e => e.1 / 8)).eraseDups
  let mark (ps : List Nat) (g : Nat) : List Nat :=
    if poison.any (fun a => a / 8 = g) then addNew g ps
    else if ((bs.filter (fun e => e.1 / 8 = g)).map (·.1)).eraseDups.length = 8 then ps.filter (· ≠ g)
    else ps
  { m with
    scratch := bs.foldl (fun s e => s.setByte e.1 e.2) m.scratch
    scratchPoison := granules.foldl mark m.scratchPoison }

/-- A write of scratchpad bytes. What they held stays open to the operations whose operand windows have begun, in the team
that owns the engine (R284). -/
def Team.spWrite (m : Team) (bs : List (Nat × Byte)) (poison : List Nat) : Team :=
  ({ m with
    spSeq := m.spSeq + (if m.ownsAshlar then 1 else 0)
    spOld := if m.ownsAshlar then bs.map (fun e => ⟨m.spSeq, e.1, m.scratch.byte e.1, (m.spByte e.1).2⟩) ++ m.spOld
      else m.spOld } : Team).spSet bs poison

/-- Write consecutive bytes from an address up. -/
def Team.spPut (m : Team) (a : Nat) (bs : List Byte) (poison : Bool := false) : Team :=
  m.spWrite (bs.zipIdx.map (fun e => (a + e.2, e.1))) (if poison then (List.range bs.length).map (a + ·) else [])

/-- The range reaches SCRATCH_SIZE or beyond. -/
def Team.spBeyond (m : Team) (a n : Nat) : Bool := decide (a + n > m.scratchSize)

/-- SP_RANGE at a scratchpad address (R165). -/
def Team.spRange (m : Team) (a : Nat) : Trap :=
  { code := 0x13, addr := BitVec.ofNat 64 a, info := BitVec.ofNat 32 m.scratchSize }

/-- The issuing team's scratchpad as a strong load of the issuing group finds it: its own queued stores are in order before
it (R32, R34). -/
def State.ownScratch (s : State) : Team :=
  (s.own.storeQ.filter (·.scratch)).foldl (fun (m : Team) e => m.spWrite e.bytes e.poison) s.ownTeam

/-- The 32-bit words of a scratchpad range. -/
def Team.spWords (m : Team) (a n : Nat) : List W32 := words4 (m.scratch.read a (4 * n))

/-- Word `i` of a descriptor, as a number. -/
def dsc (d : List W32) (i : Nat) : Nat := (d.getD i 0).toNat

/-- 64-bit field of a descriptor that starts at word `i`. -/
def dsc64 (d : List W32) (i : Nat) : Nat := dsc d i + 2 ^ 32 * dsc d (i + 1)

/-- A number of `n` bits read as signed. -/
def signedOf (n v : Nat) : Int := (BitVec.ofNat n v).toInt

/-! ## Descriptor checks (R435) -/

/-- The lowest byte that holds a set bit of a field at byte offset `off`. -/
def lowByte (off v : Nat) : Nat := off + (((List.range 64).find? (bit v)).getD 0) / 8

/-- Reserved bits of a field: the offset that is reported when one is set. -/
def reservedAt (off v : Nat) : Option Nat := if v = 0 then none else some (lowByte off v)

/-- A condition on a field that starts at byte offset `off`. -/
def badAt (off : Nat) (b : Bool) : Option Nat := if b then some off else none

/-- The failing field that is reported: the one of lowest offset. -/
def firstBad (l : List (Option Nat)) : Option Nat :=
  l.foldl (fun acc e =>
    match acc, e with
    | some a, some b => some (min a b)
    | none, e => e
    | a, none => a) none

/-- ILLEGAL_MOD for a field in memory (R245, R272, R435). -/
def fieldTrap (off : Nat) : Trap := { code := 0x02, info := BitVec.ofNat 32 (8 + off * 2 ^ 16) }

/-- The first trap of a ranked list. -/
def firstTrap (l : List (Option Trap)) : Option Trap := l.findSome? id

/-! ## Asynchronous words -/

/-- SCOPE of an asynchronous word. -/
def scopeF (f : Full) : Nat := bits f.fn.toNat 7 4

/-- SCOPE outside 2 to 9 (R245). -/
def badScope (f : Full) : Bool := scopeF f < 2 || scopeF f > 9

/-- The value of a scalar-path source of the word `f`: a special source that differs by lane is that of the lowest active lane
(R70, R71). -/
def State.src (s : State) (f : Full) (u : Use) : Word := s.value { u with regs := 2 } (lowest (s.own.activeFor f))

/-- Field uses of the asynchronous words: D scalar or 0x184, the sources scalar, special or inline (R244, R271). -/
def asyncD (f : Full) : Use := { fld := 1, enc := f.d, kind := .dstScalar }
def asyncA (f : Full) : Use := { fld := 2, enc := f.a, kind := .scalarIn, regs := 2 }
def asyncB (f : Full) : Use := { fld := 3, enc := f.b, kind := .scalarIn, regs := 2 }
def asyncC (f : Full) : Use := { fld := 4, enc := f.c, kind := .scalarIn, regs := 2 }

/-- The scalar register that takes the handle; none for an unbound operation (R244). -/
def handleReg (f : Full) : Option Nat :=
  match opd f.d with
  | .s n => some n
  | _ => none

/-- Start an asynchronous operation once its word may release (R38), a future-table entry is free (R25), and the engine has
room: `full` is what the word does while it has none. -/
def State.startAsync (s : State) (f : Full) (act : Lanes) (engine scope : Nat) (room : State → Bool)
    (start : State → Option Word → State) (full : State → Effect := Effect.pause) : Effect :=
  s.released act true scope (fun s1 =>
    let begin_ (s2 : State) (h : Option Word) : Effect := if room s1 then .retire { s := start s2 h } else full s1
    match handleReg f with
    | none => begin_ s1 none
    | some r =>
      match s1.allocFuture engine (some r) scope with
      | none => .wait s1
      | some (h, s2) => begin_ s2 (some h))

/-- Give an operation's future its status word. -/
def State.resolveOp (s : State) (core grid : Nat) (handle : Option Word) (status : Word) : State :=
  match handle with
  | some h => s.resolve ⟨core, grid, h⟩ status
  | none => s

/-- Record an operation's progress. -/
def State.noteProgress (s : State) (core grid : Nat) (handle : Option Word) (engine count : Nat) : State :=
  match handle with
  | some h => s.setProgress ⟨core, grid, h⟩ (mkProgress engine count)
  | none => s

/-- Write one progress record of R51 to D, for the `stat` words of the engines: A holds an exported handle of `engine`. -/
def State.statWord (s : State) (f : Full) (engine : Nat) : Effect :=
  let h := s.src f (asyncA f)
  match s.ownTeam.futOf h with
  | some e =>
    if (e.state = .exported ∨ e.state = .doneExported) ∧ e.engine = engine ∧ ¬ e.service then
      .retire { s := s, result := some { vals := [(0, BitVec.ofNat 64
        (bits e.progress.toNat 0 60 + engine * 2 ^ 60))] } }
    else .trap { code := 0x0A, info := BitVec.ofNat 32 (hEntry h) }
  | none => .trap { code := 0x0A, info := BitVec.ofNat 32 (hEntry h) }

/-! ## The register image: its areas (R18, R296, R342) and its traffic (R21) -/

/-- Round up to a multiple of 64 KiB. -/
def up64K (n : Nat) : Nat := (n + 0xFFFF) / 0x10000 * 0x10000

/-- The scratchpad save area: after the last group record. -/
def Team.scratchArea (m : Team) : Nat := 0x2000 + 0x9000 * m.groups.length

/-- The Ashlar save area of a team that owns the engine. -/
def Team.ashArea (m : Team) : Nat := up64K (m.scratchArea + m.scratchSize)

/-- The Quarry slot area. -/
def Team.slotArea (m : Team) : Nat := if m.ownsAshlar then m.ashArea + 0xA0000 else m.ashArea

/-- The granules of image bytes that their access tables permit master kind 0 of a context to write. -/
def State.imageAdmit (s : State) (ctx : Nat) (bs : List (Nat × Byte)) : State × List Nat :=
  ((bs.map (fun e => e.1 / 64)).eraseDups).foldl (fun (r : State × List Nat) g =>
    let q := r.1.admitOne (masterId 0 ctx) 2 (64 * g) false
    (q.1, if q.2 then g :: r.2 else r.2)) (s, [])

/-- Write image bytes as master kind 0 of the team's context: a granule that its access table refuses keeps its bytes. -/
def State.imageWrite (s : State) (ctx : Nat) (bs : List (Nat × Byte)) (poison : List Nat) : State :=
  let r := s.imageAdmit ctx bs
  r.1.poke false false (bs.filter (fun e => r.2.contains (e.1 / 64))) (poison.filter (fun a => r.2.contains (a / 64)))

/-- Write zeros over a large part of an image, `n` bytes from `a`, granule by granule: lines of the LLC that hold some of it are
written there, all other bytes in DRAM. -/
def State.imageClear (s : State) (ctx a n : Nat) : State :=
  let r := (List.range (n / 64)).foldl (fun (r : State × List Nat) i =>
    let q := r.1.admitOne (masterId 0 ctx) 2 (a + 64 * i) false
    (q.1, if q.2 then r.2 else (a / 64 + i) :: r.2)) (s, [])
  let hit (b : Nat) : Bool := decide (a ≤ b ∧ b < a + n) && !r.2.contains (b / 64)
  let wipe (e : Nat × Line) : Nat × Line :=
    if hit (128 * e.1) || hit (128 * e.1 + 64) then (e.1, { e.2 with
      bytes := e.2.bytes.filter (fun c => !hit (128 * e.1 + c.1)), dirty := true
      poison := e.2.poison.filter (fun h => !hit (128 * e.1 + 64 * h)) })
    else e
  { r.1 with
    llc := r.1.llc.map wipe, dram := r.1.dram.filter (fun c => !hit c.1), poison := r.1.poison.filter (fun g => !hit (64 * g)) }

end Sys2Proof.Machine
end

