-- ==== Sys2Proof/Machine/AshPlan.lean ====
section
/-! DEFINITION. What Ashlar words find when they issue: the planes that earlier words leave (R270, R272), the descriptors of
MLDW, MSTREAM and MDRAIN with their limits and extents (R274 to R280, R286), and the firing of a staged stream (R294). -/

namespace Sys2Proof.Machine

open Sys2Proof

/-- Fields of an Ashlar operation word (R271). -/
def AshOp.f (o : AshOp) (lo n : Nat) : Nat := bits o.fn.toNat lo n

/-- What a stream needs to know of a plane: K, N, WFMT and BLEN. -/
structure PlaneShape where
  k : Nat := 0
  n : Nat := 0
  wfmt : Nat := 0
  blen : Nat := 0
  deriving DecidableEq, Repr

/-- The planes and the map's COUNT and entries as later words find them. -/
structure Planned where
  active : PlaneShape
  shadow : PlaneShape
  map : BitVec 256
  deriving DecidableEq, Repr

def Plane.shape (p : Plane) : PlaneShape := ⟨p.rows, p.cols, p.wfmt, p.blen⟩

/-- K and N that a weight descriptor gives the plane (R275). -/
def wdShape (fn : BitVec 11) (d : List W32) : PlaneShape :=
  let rows := bits (dsc d 1) 0 9
  let cols := bits (dsc d 1) 16 9
  let west := fn.getLsbD 0
  { k := if west then cols else rows, n := if west then rows else cols
    wfmt := bits fn.toNat 1 3, blen := bits fn.toNat 4 2 }

/-- The effect of one operation on the planes' shapes. -/
def Planned.after (p : Planned) (o : AshOp) : Planned :=
  match o.op with
  | 0xB0 => { p with shadow := wdShape o.fn o.desc }
  | 0xB1 => { p with active := p.shadow, shadow := p.active }
  | 0xB9 => { p with map := BitVec.ofNat 256 (natOfBytes (bytesOfWords o.desc)) }
  | _ => p

/-- An operation enters engine order (R270). -/
def Ashlar.enter (a : Ashlar) (o : AshOp) : Ashlar := { a with queue := a.queue ++ [o], entered := a.entered + 1 }

/-- The planes as the next word in engine order finds them. -/
def Ashlar.planned (a : Ashlar) : Planned :=
  a.queue.foldl Planned.after ⟨a.active.shape, a.shadow.shape, a.dmap⟩

/-- COUNT of a duplication map (R205). -/
def mapCount (m : BitVec 256) : Nat := bits m.toNat 128 8

/-- ENTRY[i] of a duplication map. -/
def mapEntry (m : BitVec 256) (i : Nat) : Nat := bits m.toNat (8 * i) 7

/-! ## Formats -/

/-- Bits of an element of WFMT, or of AFMT (R271, R274). -/
def wBits (fmt : Nat) : Nat := if fmt = 0 then 16 else if fmt = 3 then 4 else 8

/-- Block length of BLEN and ABLEN. -/
def blockLen (b : Nat) : Nat := 4 * 2 ^ b

/-- Number of blocks of `n` elements. -/
def blocksOf (b n : Nat) : Nat := (n + blockLen b - 1) / blockLen b

/-- Bytes of a row of `n` elements of a format. -/
def rowBytes (fmt n : Nat) : Nat := (n * wBits fmt + 7) / 8

/-- The pairings of R277. -/
def pairing (wfmt afmt : Nat) : Bool :=
  match wfmt with
  | 0 | 1 | 2 | 3 => afmt < 4
  | 4 | 5 => afmt = 4
  | _ => false

/-- The format takes block scales (R204). -/
def scaled (fmt : Nat) : Bool := fmt = 1 || fmt = 2 || fmt = 3

/-! ## The stream descriptor (R278, R279) -/

/-- A stream's descriptor fields, format, and geometry against a plane. -/
structure StreamShape where
  m : Nat
  koff : Nat
  sp : Bool
  tile : Nat
  zero : Bool
  tr : Bool
  dup : Bool
  afmt : Nat
  ablen : Nat
  p : PlaneShape
  deriving DecidableEq, Repr

def streamShape (fn : BitVec 11) (d : List W32) (p : PlaneShape) : StreamShape where
  m := bits (dsc d 1) 0 9
  koff := bits (dsc d 1) 16 8
  sp := bit (dsc d 4) 0
  tile := bits (dsc d 4) 1 3
  zero := bit (dsc d 4) 4
  tr := bit (dsc d 4) 5
  dup := bit (dsc d 4) 6
  afmt := bits fn.toNat 0 3
  ablen := bits fn.toNat 3 2
  p := p

/-- Activation columns that the stream reads. -/
def StreamShape.ka (x : StreamShape) : Nat := if x.tr then x.p.n else if x.dup then 128 else x.p.k

/-- Output columns. -/
def StreamShape.width (x : StreamShape) : Nat := if x.tr then x.p.k else x.p.n

/-- Terms of a sum. -/
def StreamShape.terms (x : StreamShape) : Nat := if x.tr then x.p.n else x.p.k

/-- The integer path (R277). -/
def StreamShape.isInt (x : StreamShape) : Bool := x.afmt = 4

/-- Bytes of an accumulator element in scratchpad (R280). -/
def accBytes (int : Bool) : Nat := if int then 8 else 4

/-- Rank 5 of R272: the limits of the descriptor's own fields. -/
def sdLimits (fn : BitVec 11) (d : List W32) : List (Option Nat) :=
  let x := streamShape fn d {}
  [reservedAt 0x04 (dsc d 1 &&& 0xFF00FE00), badAt 0x04 (x.m > 128), badAt 0x06 (x.koff > 143),
   badAt 0x08 (dsc d 2 > 1048576), reservedAt 0x10 (dsc d 4 &&& 0xFFFFFF80),
   badAt 0x18 (x.sp && dsc d 6 > 1048576), reservedAt 0x1C (dsc d 7),
   badAt 0x06 (x.koff ≠ 0 && !x.dup), badAt 0x10 (x.dup && x.ablen ≠ 0), badAt 0x10 (x.tr && x.dup),
   badAt 0x10 (x.isInt && x.tile % 2 = 1)]

/-- Rank 5 of R272: the conditions on the plane and the map that the stream finds, but for the pairing (R279). -/
def sdAgainst (fn : BitVec 11) (d : List W32) (p : Planned) : List (Option Nat) :=
  let x := streamShape fn d p.active
  [badAt 0x06 (x.dup && x.koff + x.p.k > 128 + mapCount p.map),
   badAt 0x10 (x.tr && (x.p.blen ≠ 0 || x.p.wfmt = 4))]

/-- Rank 5 of R272 for a stream: FIELD 8 with the offset, or FIELD 0 for a forbidden pairing. -/
def sdTrap (fn : BitVec 11) (d : List W32) (p : Planned) : Option Trap :=
  match firstBad (sdLimits fn d ++ sdAgainst fn d p) with
  | some off => some (fieldTrap off)
  | none => if pairing p.active.wfmt (bits fn.toNat 0 3) then none else some { code := 0x02 }

/-! ## Extents -/

/-- The rows at `base`, `stride` bytes apart, of `w` bytes each, reach SCRATCH_SIZE. -/
def Team.rowsBeyond (m : Team) (base stride rows w : Nat) : Option Trap :=
  if rows ≠ 0 ∧ w ≠ 0 ∧ m.spBeyond base ((rows - 1) * stride + w) then some (m.spRange base) else none

/-- Rank 6 of R272 for a stream. -/
def Team.sdExtents (m : Team) (fn : BitVec 11) (d : List W32) (p : Planned) : Option Trap :=
  let x := streamShape fn d p.active
  let nb := blocksOf x.ablen x.ka
  firstTrap [
    m.rowsBeyond (dsc d 0) (dsc d 2) x.m (rowBytes (if x.afmt = 4 then 1 else x.afmt) x.ka),
    if x.ablen ≠ 0 ∧ scaled x.afmt then m.rowsBeyond (dsc d 3) nb x.m nb else none,
    if x.sp then m.rowsBeyond (dsc d 5) (dsc d 6) x.m (accBytes x.isInt * x.width) else none]

/-- Rank 5 of R272 for MLDW (R274, R275). -/
def wdTrap (fn : BitVec 11) (d : List W32) : Option Trap :=
  match firstBad [
    reservedAt 0x04 (dsc d 1 &&& 0xFE00FE00), badAt 0x04 (bits (dsc d 1) 0 9 > 128), badAt 0x06 (bits (dsc d 1) 16 9 > 128),
    badAt 0x08 (dsc d 2 > 1048576), reservedAt 0x10 (dsc d 4 &&& 0xFFFF0000),
    reservedAt 0x14 (dsc d 5), reservedAt 0x18 (dsc d 6), reservedAt 0x1C (dsc d 7)] with
  | some off => some (fieldTrap off)
  | none => if bits fn.toNat 4 2 ≠ 0 ∧ ¬ scaled (bits fn.toNat 1 3) then some { code := 0x02 } else none

/-- Rank 6 of R272 for MLDW. -/
def Team.wdExtents (m : Team) (fn : BitVec 11) (d : List W32) : Option Trap :=
  let x := wdShape fn d
  let nb := blocksOf x.blen x.k
  firstTrap [
    m.rowsBeyond (dsc d 0) (dsc d 2) (bits (dsc d 1) 0 9) (rowBytes x.wfmt (bits (dsc d 1) 16 9)),
    if x.blen ≠ 0 then m.rowsBeyond (dsc d 3) nb x.n nb else none]

/-! ## Firing (R294) -/

/-- Fire staging slot `slot` of a team (TKIND 1): the stream enters engine order and its operand window begins, unless it fails one of the two checks that are
made again, the pairing and the extents; the flag answers that TMISS is set. -/
def State.fireStream (s : State) (c t slot : Nat) : State × Bool :=
  match s.team? c t with
  | none => (s, true)
  | some m =>
    match sfind slot m.staged with
    | none => (s, true)
    | some o =>
      let s1 := s.modTeam c t (fun m => ({ m with staged := sdel slot m.staged }).wake)
      let p := (s.core c).ash.planned
      if !pairing p.active.wfmt (bits o.fn.toNat 0 3) then (s1.resolveOp c m.gridSlot o.handle (statusWord 0x80 2 0), true)
      else if (m.sdExtents o.fn o.desc p).isSome then (s1.resolveOp c m.gridSlot o.handle (statusWord 0x13 2 0), true)
      else (s1.modCore c (fun k => { k with ash := k.ash.enter { o with window := m.spSeq } }), false)

end Sys2Proof.Machine
end

