-- ==== Sys2Proof/Machine/Float.lean ====
section
/-! DEFINITION. Binary floating-point arithmetic: decoding a code to its exact value, exact sums, products, quotients and
roots, and one rounding (R177, R180 to R187, R208 to R211). A finite value is a sign, a natural mantissa and an exponent;
where an exact value is not representable so, `sticky` says that it lies strictly between `m` and `m + 1` units. -/

namespace Sys2Proof.Machine

open Sys2Proof

/-- A format with IEEE structure: exponent bits, fraction bits (R208). -/
structure FFmt where
  ebits : Nat
  mbits : Nat
  deriving DecidableEq, Repr

def fp32 : FFmt := ⟨8, 23⟩
def fp16 : FFmt := ⟨5, 10⟩
def bf16 : FFmt := ⟨8, 7⟩

def FFmt.width (F : FFmt) : Nat := 1 + F.ebits + F.mbits
def FFmt.bias (F : FFmt) : Int := ((2 ^ (F.ebits - 1) : Nat) : Int) - 1
/-- Exponent of the smallest normal number. -/
def FFmt.emin (F : FFmt) : Int := 1 - F.bias
def FFmt.emax (F : FFmt) : Int := F.bias
/-- Exponent of the unit of the subnormal numbers. -/
def FFmt.tiny (F : FFmt) : Int := F.emin - (F.mbits : Int)

/-- The value of a code. -/
inductive FVal where
  | nan (signalling : Bool)
  | inf (neg : Bool)
  | fin (neg : Bool) (m : Nat) (e : Int)
  deriving DecidableEq, Repr

/-- The value of a code of an IEEE-structured format; with `ftz` a subnormal reads as zero of its sign (R180). -/
def FFmt.decode (F : FFmt) (ftz : Bool) (x : Nat) : FVal :=
  let neg := bit x (F.ebits + F.mbits)
  let ex := bits x F.mbits F.ebits
  let fr := bits x 0 F.mbits
  if ex = 2 ^ F.ebits - 1 then
    if fr = 0 then .inf neg else .nan (!bit fr (F.mbits - 1))
  else if ex = 0 then .fin neg (if ftz then 0 else fr) F.tiny
  else .fin neg (2 ^ F.mbits + fr) (F.tiny + (ex : Int) - 1)

/-- The canonical NaN (R177). -/
def FFmt.nan (F : FFmt) : Nat := (2 ^ F.ebits - 1) * 2 ^ F.mbits + 2 ^ (F.mbits - 1)

def FFmt.signed (F : FFmt) (neg : Bool) (x : Nat) : Nat := x + if neg then 2 ^ (F.ebits + F.mbits) else 0

def FFmt.inf (F : FFmt) (neg : Bool) : Nat := F.signed neg ((2 ^ F.ebits - 1) * 2 ^ F.mbits)

def FFmt.maxFinite (F : FFmt) (neg : Bool) : Nat := F.signed neg ((2 ^ F.ebits - 1) * 2 ^ F.mbits - 1)

/-- The code of `n` units of exponent `q`, where `n` has at most mbits + 1 bits, or is 2^(mbits + 1). -/
def FFmt.encode (F : FFmt) (neg : Bool) (n : Nat) (q : Int) : Nat :=
  let n1 := if n = 2 ^ (F.mbits + 1) then 2 ^ F.mbits else n
  let q1 := if n = 2 ^ (F.mbits + 1) then q + 1 else q
  if n1 < 2 ^ F.mbits then F.signed neg n1
  else F.signed neg ((q1 - F.tiny + 1).toNat * 2 ^ F.mbits + (n1 - 2 ^ F.mbits))

/-- Rounding modes of R178, and stochastic rounding with the 24 bits drawn for the element (R212). -/
inductive Rm where
  | rne
  | rtz
  | rup
  | rdn
  | rsr (draw : Nat)
  deriving DecidableEq, Repr

def rmOf (n : Nat) : Rm :=
  match n with
  | 0 => .rne
  | 1 => .rtz
  | 2 => .rup
  | _ => .rdn

/-- Whether a magnitude `n + rem / unit` with `rem < unit` rounds up to `n + 1`. -/
def roundsUp (rm : Rm) (neg : Bool) (n rem unit : Nat) : Bool :=
  match rm with
  | .rne => decide (2 * rem > unit) || (decide (2 * rem = unit) && n % 2 = 1)
  | .rtz => false
  | .rup => !neg && decide (rem ≠ 0)
  | .rdn => neg && decide (rem ≠ 0)
  | .rsr draw => decide (rem * 2 ^ 24 / unit > draw)

/-- Round `m · 2^e` to a multiple of `2^q`: the multiple, and whether it is inexact. -/
def roundAt (rm : Rm) (neg : Bool) (m : Nat) (e q : Int) : Nat × Bool :=
  if q ≤ e then (m * 2 ^ (e - q).toNat, false) else
  let u := 2 ^ (q - e).toNat
  let n := m / u
  let r := m % u
  (if roundsUp rm neg n r u then n + 1 else n, decide (r ≠ 0))

/-- A mantissa with extra low bits that carry a sticky one. -/
def withSticky (m : Nat) (e : Int) (sticky : Bool) : Nat × Int :=
  if sticky then (m * 2 ^ 64 + 1, e - 64) else (m, e)

/-- The exponent of the leading one of `m · 2^e`, `m ≠ 0`. -/
def topExp (m : Nat) (e : Int) : Int := e + (Nat.log2 m : Int)

/-- ROUND with the flags of R180 and R181 for a finite exact value: `m · 2^e`, or strictly between it and the next unit
when `sticky`. `zeroNeg` is the sign of an exact zero. -/
def FFmt.round (F : FFmt) (rm : Rm) (ftz : Bool) (neg : Bool) (m0 : Nat) (e0 : Int) (sticky : Bool := false) :
    Nat × BitVec 5 :=
  let me := withSticky m0 e0 sticky
  let m := me.1
  let e := me.2
  if m = 0 then (F.signed neg 0, 0) else
  let qu := topExp m e - F.mbits
  let q := if qu < F.tiny then F.tiny else qu
  let rb := roundAt rm neg m e q
  let ru := match rm with
    | .rsr _ => if qu < q then (rb.1 * 2 ^ (q - qu).toNat, rb.2) else rb
    | _ => roundAt rm neg m e qu
  if topExp ru.1 qu > F.emax then
    let toInf := match rm with
      | .rne => true
      | .rtz => false
      | .rup => !neg
      | .rdn => neg
      | .rsr _ => true
    (if toInf then F.inf neg else F.maxFinite neg, flO ||| flX)
  else
    let sub := decide (rb.1 ≠ 0 ∧ topExp rb.1 q < F.emin)
    if ftz && sub then (F.signed neg 0, flU ||| flX)
    else (F.encode neg rb.1 q, flIf rb.2 flX ||| flIf (rb.2 && decide (topExp ru.1 qu < F.emin)) flU)

/-! ## Exact operations on values -/

def FVal.isNan : FVal → Bool
  | .nan _ => true
  | _ => false

def FVal.isSnan : FVal → Bool
  | .nan s => s
  | _ => false

def FVal.isInf : FVal → Bool
  | .inf _ => true
  | _ => false

def FVal.isZero : FVal → Bool
  | .fin _ m _ => m = 0
  | _ => false

def FVal.sign : FVal → Bool
  | .nan _ => false
  | .inf n => n
  | .fin n _ _ => n

def FVal.neg : FVal → FVal
  | .nan s => .nan s
  | .inf n => .inf !n
  | .fin n m e => .fin (!n) m e

def FVal.negIf (b : Bool) (v : FVal) : FVal := if b then v.neg else v

/-- The exact product; 0 × inf is invalid. -/
def FVal.mul (a b : FVal) : Option FVal :=
  match a, b with
  | .fin n1 m1 e1, .fin n2 m2 e2 => some (.fin (n1 != n2) (m1 * m2) (e1 + e2))
  | .inf n1, .inf n2 => some (.inf (n1 != n2))
  | .inf n1, .fin n2 m _ => if m = 0 then none else some (.inf (n1 != n2))
  | .fin n1 m _, .inf n2 => if m = 0 then none else some (.inf (n1 != n2))
  | _, _ => none

/-- A signed multiple of `2^e` of a finite value whose exponent is at least `e`. -/
def FVal.units (v : FVal) (e : Int) : Int :=
  match v with
  | .fin n m x => (if n then -1 else 1) * ((m * 2 ^ (x - e).toNat : Nat) : Int)
  | _ => 0

/-- The least exponent of the finite values of a list. -/
def leastExp : List FVal → Int → Int
  | [], e => e
  | .fin _ _ x :: vs, e => leastExp vs (if x < e then x else e)
  | _ :: vs, e => leastExp vs e

/-- The exact sum of values none of which is a NaN: none for inf − inf, an infinity, or a finite value with the zero sign of
R180 under `rm`. -/
def exactSum (rm : Rm) (vs : List FVal) : Option FVal :=
  let pos := vs.any (fun v => v = .inf false)
  let neg := vs.any (fun v => v = .inf true)
  if pos && neg then none
  else if pos then some (.inf false)
  else if neg then some (.inf true)
  else
    let e := leastExp vs 4096
    let t : Int := vs.foldl (fun acc v => acc + v.units e) 0
    if t = 0 then
      let allNeg := vs.all (fun v => v.isZero && v.sign)
      let allPos := vs.all (fun v => v.isZero && !v.sign)
      some (.fin (allNeg || (!allPos && decide (rm = .rdn))) 0 0)
    else some (.fin (decide (t < 0)) t.natAbs e)

/-- An arithmetic result: code and flags. -/
abbrev FRes := Nat × BitVec 5

/-- The NaN result of an operation with these inputs: V when one is signalling or the operation is invalid. -/
def FFmt.nanRes (F : FFmt) (ins : List FVal) (invalid : Bool) : FRes :=
  (F.nan, flIf (invalid || ins.any FVal.isSnan) flV)

/-- Round a value. -/
def FFmt.roundVal (F : FFmt) (rm : Rm) (ftz : Bool) (v : FVal) : FRes :=
  match v with
  | .nan _ => (F.nan, 0)
  | .inf n => (F.inf n, 0)
  | .fin n m e => F.round rm ftz n m e

/-- The sum of terms, rounded once; `ins` are the inputs that may be NaNs (R180). -/
def FFmt.sum (F : FFmt) (rm : Rm) (ftz : Bool) (ins terms : List FVal) : FRes :=
  if ins.any FVal.isNan then F.nanRes ins false else
  match exactSum rm terms with
  | none => F.nanRes ins true
  | some v => F.roundVal rm ftz v

/-- a + b. -/
def FFmt.add (F : FFmt) (rm : Rm) (ftz : Bool) (a b : FVal) : FRes := F.sum rm ftz [a, b] [a, b]

/-- a × b. -/
def FFmt.mul (F : FFmt) (rm : Rm) (ftz : Bool) (a b : FVal) : FRes :=
  if a.isNan || b.isNan then F.nanRes [a, b] false else
  match a.mul b with
  | none => F.nanRes [a, b] true
  | some v => F.roundVal rm ftz v

/-- ±(a × b) ± c, one rounding (R180). With a NaN among the inputs no product is formed, so only a signalling NaN sets V
(log 73). -/
def FFmt.fma (F : FFmt) (rm : Rm) (ftz : Bool) (negP negC : Bool) (a b c : FVal) : FRes :=
  if a.isNan || b.isNan || c.isNan then F.nanRes [a, b, c] (false) else
  match a.mul b with
  | none => F.nanRes [a, b, c] true
  | some p => F.sum rm ftz [a, b, c] [p.negIf negP, c.negIf negC]

/-- a / b (R183). -/
def FFmt.div (F : FFmt) (rm : Rm) (ftz : Bool) (a b : FVal) : FRes :=
  if a.isNan || b.isNan then F.nanRes [a, b] false else
  let sg := a.sign != b.sign
  match a, b with
  | .inf _, .inf _ => F.nanRes [a, b] true
  | .inf _, _ => (F.inf sg, 0)
  | _, .inf _ => (F.signed sg 0, 0)
  | .fin _ m1 e1, .fin _ m2 e2 =>
    if m2 = 0 then (if m1 = 0 then F.nanRes [a, b] true else (F.inf sg, flZ))
    else F.round rm ftz sg (m1 * 2 ^ 64 / m2) (e1 - e2 - 64) (decide (m1 * 2 ^ 64 % m2 ≠ 0))
  | _, _ => F.nanRes [a, b] false

/-- The integer square root by bits: `fuel` bits are tried from the top down. -/
def isqrtFrom (x : Nat) : Nat → Nat → Nat
  | 0, r => r
  | k + 1, r => if (r + 2 ^ k) * (r + 2 ^ k) ≤ x then isqrtFrom x k (r + 2 ^ k) else isqrtFrom x k r

/-- The integer square root. -/
def isqrt (x : Nat) : Nat := isqrtFrom x (Nat.log2 x / 2 + 1) 0

/-- √a (R183). -/
def FFmt.sqrt (F : FFmt) (rm : Rm) (ftz : Bool) (a : FVal) : FRes :=
  match a with
  | .nan _ => F.nanRes [a] false
  | .inf n => if n then F.nanRes [a] true else (F.inf false, 0)
  | .fin n m e =>
    if m = 0 then (F.signed n 0, 0)
    else if n then F.nanRes [a] true
    else
      let odd : Nat := (e % 2).toNat
      let x := m * 2 ^ odd * 2 ^ 64
      let r := isqrt x
      F.round rm ftz false r ((e - odd) / 2 - 32) (decide (r * r ≠ x))

/-- 1 / √a (R184). -/
def FFmt.rsqrt (F : FFmt) (ftz : Bool) (a : FVal) : FRes :=
  match a with
  | .nan _ => F.nanRes [a] false
  | .inf n => if n then F.nanRes [a] true else (F.signed false 0, 0)
  | .fin n m e =>
    if m = 0 then (F.inf n, flZ)
    else if n then F.nanRes [a] true
    else
      let odd : Nat := (e % 2).toNat
      let m1 := m * 2 ^ odd
      let r := isqrt (2 ^ 160 / m1)
      F.round .rne ftz false r (-((e - odd) / 2) - 80) (decide (r * r * m1 ≠ 2 ^ 160))

/-- Fixed-point width of 2^x. -/
def expBits : Nat := 128

/-- 2^(2^-1), 2^(2^-2), … as fixed-point numbers, by repeated square roots; `f` is the list of the bits of a fraction,
highest first; the product of those whose bit is set, from `acc` on. -/
def expProduct : List Bool → Nat → Nat → Nat
  | [], _, acc => acc
  | b :: bs, c, acc =>
    let c1 := isqrt (c * 2 ^ expBits)
    expProduct bs c1 (if b then acc * c1 / 2 ^ expBits else acc)

/-- 2^a (R184). Inside the range the value is formed to about 120 bits (log 20). -/
def FFmt.exp2 (F : FFmt) (ftz : Bool) (a : FVal) : FRes :=
  match a with
  | .nan _ => F.nanRes [a] false
  | .inf n => if n then (F.signed false 0, 0) else (F.inf false, 0)
  | .fin n m e =>
    if m = 0 then F.round .rne ftz false 1 0
    else if topExp m e ≥ 9 then
      if n then F.round .rne ftz false 1 (-4096) true else (F.inf false, flO ||| flX)
    else if topExp m e < -26 then
      if n then F.round .rne ftz false (2 ^ 60 - 1) (-60) true else F.round .rne ftz false (2 ^ 60) (-60) true
    else
      let x : Int := FVal.units (.fin n m e) (-50)
      let i := x / (2 ^ 50 : Nat)
      let fr := (x % (2 ^ 50 : Nat)).toNat
      if fr = 0 then F.round .rne ftz false 1 i
      else
        let p := expProduct ((List.range 50).map (fun j => bit fr (49 - j))) (2 * 2 ^ expBits) (2 ^ expBits)
        F.round .rne ftz false p (i - expBits) true

/-- The first `n` fraction bits of log2 of the fixed-point number `y` of 240 fraction bits, 1 ≤ y < 2, by squaring. -/
def logBits : Nat → Nat → Nat → Nat
  | 0, _, acc => acc
  | n + 1, y, acc =>
    let z := y * y / 2 ^ 240
    if z ≥ 2 * 2 ^ 240 then logBits n (z / 2) (2 * acc + 1) else logBits n z (2 * acc)

/-- log2 a (R184). The value is formed to 110 fraction bits (log 20). -/
def FFmt.log2 (F : FFmt) (ftz : Bool) (a : FVal) : FRes :=
  match a with
  | .nan _ => F.nanRes [a] false
  | .inf n => if n then F.nanRes [a] true else (F.inf false, 0)
  | .fin n m e =>
    if m = 0 then (F.inf true, flZ)
    else if n then F.nanRes [a] true
    else
      let k := Nat.log2 m
      let i := e + (k : Int)
      if m = 2 ^ k then (if i = 0 then (0, 0) else F.round .rne ftz (decide (i < 0)) i.natAbs 0)
      else
        let t : Int := i * (2 ^ 110 : Nat) + (logBits 110 (m * 2 ^ (240 - k)) 0 : Nat)
        if t ≥ 0 then F.round .rne ftz false t.natAbs (-110) true
        else F.round .rne ftz true (t.natAbs - 1) (-110) true

/-- Order of finite and infinite values with −0 below +0: a is at most b. -/
def FVal.le (a b : FVal) : Bool :=
  match a, b with
  | .inf n, _ => n || b = .inf false
  | _, .inf n => !n
  | .fin n1 m1 e1, .fin n2 m2 e2 =>
    if m1 = 0 ∧ m2 = 0 then n1 || !n2
    else
      let e := if e1 < e2 then e1 else e2
      decide (FVal.units (.fin n1 m1 e1) e ≤ FVal.units (.fin n2 m2 e2) e)
  | _, _ => false

/-- Numerical comparison of values that are no NaNs, −0 equal to +0: less, equal, or greater as −1, 0, 1. -/
def FVal.cmp (a b : FVal) : Int :=
  match a, b with
  | .fin n1 m1 e1, .fin n2 m2 e2 =>
    let e := if e1 < e2 then e1 else e2
    let x := FVal.units (.fin n1 m1 e1) e
    let y := FVal.units (.fin n2 m2 e2) e
    if x < y then -1 else if x = y then 0 else 1
  | _, _ => if a = b then 0 else if a.le b then -1 else 1

/-- FMIN (`max = false`) and FMAX (R182): the code of the chosen operand, which under FTZ is the zero of a subnormal. -/
def FFmt.minmax (F : FFmt) (max ftz : Bool) (x y : Nat) : FRes :=
  let a := F.decode ftz x
  let b := F.decode ftz y
  let fl := flIf (a.isSnan || b.isSnan) flV
  let code (v : FVal) (c : Nat) : Nat := if v.isZero then F.signed v.sign 0 else c
  if a.isNan && b.isNan then (F.nan, fl)
  else if a.isNan then (code b y, fl)
  else if b.isNan then (code a x, fl)
  else if a.le b != max then (code a x, fl) else (code b y, fl)

/-- FCLASS (R185): one bit of [9:0]. -/
def FFmt.classMask (F : FFmt) (ftz : Bool) (x : Nat) : Nat :=
  match F.decode ftz x with
  | .nan s => if s then 2 ^ 8 else 2 ^ 9
  | .inf n => if n then 2 ^ 0 else 2 ^ 7
  | .fin n m e =>
    let sub := decide (m < 2 ^ F.mbits ∧ e = F.tiny)
    if m = 0 then (if n then 2 ^ 3 else 2 ^ 4)
    else if n then (if sub then 2 ^ 2 else 2 ^ 1) else (if sub then 2 ^ 5 else 2 ^ 6)

/-- The compensated pair of a value S: hi = RNE_BF16(S), lo = RNE_BF16(S − hi), with the flags of R187 (R203).
The sign of a zero follows round-to-nearest-even (log 82). -/
def pairRes (v : FVal) : FRes :=
  match v with
  | .nan s => (0x7FC00000, flIf s flV)
  | .inf n => (bf16.inf n * 2 ^ 16, 0)
  | .fin _ _ _ =>
    let h := bf16.roundVal .rne false v
    let hv := bf16.decode false h.1
    if hv.isInf then (h.1 * 2 ^ 16, flO ||| flX) else
    match exactSum .rne [v, hv.neg] with
    | some d =>
      let l := bf16.roundVal .rne false d
      let lv := bf16.decode false l.1
      let inexact := d.cmp lv ≠ 0
      let sub := match lv with
        | .fin _ m e => decide (m ≠ 0 ∧ m < 2 ^ 7 ∧ e = bf16.tiny)
        | _ => false
      (h.1 * 2 ^ 16 + l.1, flIf inexact flX ||| flIf (inexact && sub) flU)
    | none => (h.1 * 2 ^ 16, 0)

/-- CADD (R187): compensated BF16 pair plus FP32. A NaN input leaves the sum out (log 73). -/
def caddRes (pair x : Nat) : FRes :=
  let hi := bf16.decode false (bits pair 16 16)
  let lo := bf16.decode false (bits pair 0 16)
  let b := fp32.decode false x
  if hi.isNan || lo.isNan || b.isNan then (0x7FC00000, flIf ([hi, lo, b].any FVal.isSnan) flV) else
  match exactSum .rne [hi, lo, b] with
  | none => (0x7FC00000, flV)
  | some v => pairRes v

end Sys2Proof.Machine
end

