-- ==== Sys2Proof/Machine/Convert.lean ====
section
/-! DEFINITION. The number formats beyond FP32, FP16 and BF16, and the conversions between all of them (R199 to R212). -/

namespace Sys2Proof.Machine

open Sys2Proof

def e5m2 : FFmt := ⟨5, 2⟩
def e4m3 : FFmt := ⟨4, 3⟩
def e2m1 : FFmt := ⟨2, 1⟩

/-- A code of a format whose all-ones exponent holds normal numbers (R199). -/
def FFmt.decodeNormal (F : FFmt) (ftz : Bool) (x : Nat) : FVal :=
  let neg := bit x (F.ebits + F.mbits)
  let ex := bits x F.mbits F.ebits
  let fr := bits x 0 F.mbits
  if ex = 0 then .fin neg (if ftz then 0 else fr) F.tiny
  else .fin neg (2 ^ F.mbits + fr) (F.tiny + (ex : Int) - 1)

/-- E4M3: 0x7F and 0xFF are quiet NaNs (R199). -/
def decE4m3 (ftz : Bool) (x : Nat) : FVal := if x % 128 = 127 then .nan false else e4m3.decodeNormal ftz x

/-- A PP8 code in 64ths (R202). -/
def pp8Units (x : Nat) : Int :=
  let term (t : Nat) : Int := if t % 8 = 7 then 0 else (if t ≥ 8 then -1 else 1) * ((2 ^ (6 - t % 8) : Nat) : Int)
  term (x / 16 % 16) + term (x % 16)

/-- A value of `n` units of `2^e`. -/
def fvalOf (n : Int) (e : Int) : FVal := .fin (decide (n < 0)) n.natAbs e

/-- The value of a compensated pair (R203). -/
def decPair (ftz : Bool) (x : Nat) : FVal :=
  let hi := bf16.decode ftz (bits x 16 16)
  let lo := bf16.decode ftz (bits x 0 16)
  if hi.isNan || lo.isNan then .nan (hi.isSnan || lo.isSnan) else (exactSum .rne [hi, lo]).getD (.nan false)

/-- Width in bits of a type code (R208). -/
def typeWidth (ty : Nat) : Nat :=
  match ty with
  | 0 | 7 | 12 | 13 => 32
  | 1 | 2 | 10 | 11 => 16
  | 3 | 4 | 6 | 8 | 9 => 8
  | 5 => 4
  | _ => 64

/-- The type codes of floating-point and integer types. -/
def typeIsInt (ty : Nat) : Bool := ty ≥ 8

/-- VALUE of R208. -/
def typeValue (ty : Nat) (ftz : Bool) (x : Nat) : FVal :=
  match ty with
  | 0 => fp32.decode ftz x
  | 1 => fp16.decode ftz x
  | 2 => bf16.decode ftz x
  | 3 => decE4m3 ftz x
  | 4 => e5m2.decode ftz x
  | 5 => e2m1.decodeNormal ftz x
  | 6 => fvalOf (pp8Units x) (-6)
  | 7 => decPair ftz x
  | _ => fvalOf (intVal (ty % 2 = 0) (typeWidth ty) (BitVec.ofNat 64 x)) 0

/-- Round a finite value to a format that saturates: `lim · 2^limE` is its largest finite value, `past` what an overflow
becomes (R209). -/
def FFmt.roundSat (F : FFmt) (lim : Nat) (limE : Int) (past : Nat) (rm : Rm) (ftz neg : Bool) (m : Nat) (e : Int) :
    FRes :=
  if m = 0 then (F.signed neg 0, 0) else
  let qu := topExp m e - F.mbits
  let q := if qu < F.tiny then F.tiny else qu
  let rb := roundAt rm neg m e q
  let ru := match rm with
    | .rsr _ => if qu < q then (rb.1 * 2 ^ (q - qu).toNat, rb.2) else rb
    | _ => roundAt rm neg m e qu
  let beyond := decide (FVal.units (.fin false ru.1 qu) (if qu < limE then qu else limE)
    > FVal.units (.fin false lim limE) (if qu < limE then qu else limE))
  if beyond then (past, flO ||| flX)
  else
    let sub := decide (rb.1 ≠ 0 ∧ topExp rb.1 q < F.emin)
    if ftz && sub then (F.signed neg 0, flU ||| flX)
    else (F.encode neg rb.1 q, flIf rb.2 flX ||| flIf (rb.2 && decide (topExp ru.1 qu < F.emin)) flU)

/-- Round a finite value to an integer: the integer, and whether it is inexact. -/
def roundInt (rm : Rm) (neg : Bool) (m : Nat) (e : Int) : Int × Bool :=
  let r := roundAt rm neg m e 0
  ((if neg then -1 else 1) * (r.1 : Int), r.2)

/-- CONVERT to an integer type (R210, R211). -/
def convInt (ty : Nat) (rm : Rm) (nosat srcInt : Bool) (v : FVal) : FRes :=
  let w := typeWidth ty
  let sg : Bool := ty % 2 = 0
  match v with
  | .nan _ => (0, flV)
  | .inf n => (lowBits w (satInt sg w (if n then -(2 ^ 64 : Nat) else (2 ^ 64 : Nat))), flV)
  | .fin n m e =>
    let r := roundInt rm n m e
    let t := satInt sg w r.1
    (lowBits w (if nosat then r.1 else t), flIf r.2 flX ||| flIf (!srcInt && decide (t ≠ r.1)) flV)

/-- CONVERT (R208 to R212). `sat5` asks an E5M2 destination to saturate (R216, R221). -/
def convert (ty : Nat) (rm : Rm) (ftz nosat sat5 srcInt : Bool) (v : FVal) : FRes :=
  let sv := flIf v.isSnan flV
  if typeIsInt ty then convInt ty rm nosat srcInt v else
  match ty, v with
  | 3, .nan _ => (0x7F, sv)
  | 3, .inf n => (if nosat then 0x7F else e4m3.signed n 0x7E, flV)
  | 3, .fin n m e => e4m3.roundSat 7 6 (if nosat then 0x7F else e4m3.signed n 0x7E) rm ftz n m e
  | 5, .nan _ => (0, flV)
  | 5, .inf n => (e2m1.signed n 7, flV)
  | 5, .fin n m e => e2m1.roundSat 3 1 (e2m1.signed n 7) rm ftz n m e
  | 7, _ => pairRes v
  | 4, .fin n m e =>
    if sat5 then e5m2.roundSat 7 13 (e5m2.signed n 0x7B) rm ftz n m e else e5m2.round rm ftz n m e
  | _, _ =>
    let F := match ty with
      | 0 => fp32
      | 1 => fp16
      | 4 => e5m2
      | _ => bf16
    match v with
    | .nan _ => (F.nan, sv)
    | _ => F.roundVal rm ftz v

/-- A value times 2^n, exactly. The exponent is cut to ±4096, beyond which no result changes: every format overflows or
underflows long before. -/
def FVal.scale (v : FVal) (n : Int) : FVal :=
  match v with
  | .fin s m e => .fin s m (e + (if n > 4096 then 4096 else if n < -4096 then -4096 else n))
  | _ => v

/-- A signed 32-bit exponent operand (R214). -/
def expOf (w : Word) : Int := intVal true 32 w

/-- One step of the stochastic-rounding state (R212). -/
def xorshift (x : W32) : W32 :=
  let a := x ^^^ (x <<< 13)
  let b := a ^^^ (a >>> 17)
  b ^^^ (b <<< 5)

/-- `n` steps. -/
def xorshifts : Nat → W32 → W32
  | 0, x => x
  | n + 1, x => xorshifts n (xorshift x)

/-- The rounding mode of a conversion: RM 4 draws from the state after this step (R212). -/
def convRm (rm : Nat) (drawn : W32) : Rm := if rm = 4 then .rsr (bits drawn.toNat 0 24) else rmOf rm

/-- E5M2 code of 2^k, −16 ≤ k ≤ 15 (R216). -/
def scaleCode (k : Int) : Nat :=
  if k ≥ -14 then (k + 15).toNat * 4 else if k = -15 then 2 else 1

/-- The type code of EFMT (R214). -/
def efmtType (ef : Nat) : Nat := if ef = 0 then 5 else if ef = 1 then 3 else 4

/-- DMAX of an EFMT as units and exponent (R216). -/
def dmax (ef : Nat) : Nat × Int := if ef = 0 then (3, 1) else if ef = 1 then (7, 6) else (7, 13)

/-- The smallest k in −16 … 15 with amax ≤ DMAX · 2^k, 15 where none is (R216). -/
def blockExp (ef : Nat) (amax : FVal) : Int :=
  (((List.range 32).find? (fun (i : Nat) =>
    amax.cmp (.fin false (dmax ef).1 ((dmax ef).2 + (i : Int) - 16)) ≤ 0)).map (fun (i : Nat) => (i : Int) - 16)).getD 15

/-- The magnitude of a value. -/
def FVal.abs : FVal → FVal
  | .fin _ m e => .fin false m e
  | .inf _ => .inf false
  | v => v

/-- The larger of two magnitudes. -/
def maxAbs (a b : FVal) : FVal := if a.abs.cmp b.abs < 0 then b.abs else a.abs

/-- The exact product of factors, none for a zero with an infinity; NaN factors are handled before. -/
def exactProduct (vs : List FVal) : Option FVal :=
  let z := vs.any FVal.isZero
  let i := vs.any FVal.isInf
  if z && i then none else
  vs.foldl (fun acc v => acc.bind (fun a => a.mul v)) (some (.fin false 1 0))

/-- A product rounded once to FP32 with NaN and 0 × inf as FMUL has them (R217, R219); beside a quiet NaN, 0 × inf sets no V (log 73). -/
def productRes (vs : List FVal) : FRes :=
  if vs.any FVal.isNan then fp32.nanRes vs false else
  match exactProduct vs with
  | none => fp32.nanRes vs true
  | some v => fp32.roundVal .rne false v

/-- PPQ (R218): the code for t = a / b. -/
def ppqRes (a b : FVal) : FRes :=
  let nan : FRes := (0x77, flV)
  match a, b with
  | .nan _, _ => nan
  | _, .nan _ => nan
  | .inf _, .inf _ => nan
  | .inf n, b => (if n != b.sign then 0x88 else 0x00, flO ||| flX)
  | .fin _ _ _, .inf _ => (0x77, flIf (!a.isZero) 0)
  | .fin n1 m1 e1, .fin n2 m2 e2 =>
    if m2 = 0 then (if m1 = 0 then nan else (if n1 != n2 then 0x88 else 0x00, flO ||| flX)) else
    let neg := n1 != n2
    let num : Nat := m1 * 2 ^ (e1 - e2).toNat
    let den : Nat := m2 * 2 ^ (e2 - e1).toNat
    if num ≥ 2 * den then (if neg then 0x88 else 0x00, flIf (num > 2 * den) (flO ||| flX)) else
    let t : Int := (if neg then -1 else 1) * (64 * num : Nat)
    let dist (c : Nat) : Nat := (t - pp8Units c * den).natAbs
    let terms (c : Nat) : Nat := (if c / 16 % 8 = 7 then 0 else 1) + (if c % 8 = 7 then 0 else 1)
    let best := (List.range 256).foldl (fun (acc : Nat) c =>
      if dist c < dist acc || (dist c = dist acc && terms c < terms acc) then c else acc) 0
    (best, flIf (dist best ≠ 0) flX)

/-- IQS (R222): code, flags, NONFINITE and OVERFLOW. -/
def iqsRes (e : Int) (v : FVal) : Nat × BitVec 5 × Bool × Bool :=
  match v with
  | .nan s => (0, flIf s flV, true, false)
  | .inf _ => (0, 0, true, false)
  | .fin _ _ _ =>
    match v.scale e with
    | .fin n m x =>
      let r := roundInt .rne n m x
      let lim : Int := 2147483647
      let t := if r.1 > lim then lim else if r.1 < -lim then -lim else r.1
      (lowBits 32 t, flIf r.2 flX, false, decide (t ≠ r.1))
    | _ => (0, 0, false, false)

/-- IDQS (R223). -/
def idqsRes (rm : Rm) (ftz : Bool) (e : Int) (flags q : Nat) : FRes :=
  if bit flags 0 then (0x7FC00000, 0)
  else fp32.roundVal rm ftz ((fvalOf (intVal true 32 (BitVec.ofNat 64 q)) 0).scale (-e))

/-- EFQ (R221): residual, code and flags for s = g + e. -/
def efqRes (ef : Nat) (rm : Rm) (ftz : Bool) (n : Int) (g e : FVal) : Nat × Nat × BitVec 5 :=
  let nanCode : Nat := if ef = 1 then 0x7F else if ef = 2 then 0x7E else 0
  let sv := flIf (g.isSnan || e.isSnan) flV
  if g.isNan || e.isNan then (0, nanCode, sv) else
  match exactSum .rne [g, e] with
  | none => (0, nanCode, flV)
  | some s =>
    if s.isInf then (0, nanCode, 0) else
    let q := convert (efmtType ef) rm ftz false true false (s.scale n)
    let back := (typeValue (efmtType ef) false q.1).scale (-n)
    match exactSum .rne [s, back.neg] with
    | some d =>
      let r := fp32.roundVal .rne false d
      (r.1, q.1, q.2 ||| r.2)
    | none => (0, q.1, q.2)

end Sys2Proof.Machine
end

