-- ==== Sys2Proof/Machine/Integer.lean ====
section
/-! DEFINITION. The meanings of the integer, logic, shift, bit-field and move instructions 0x20 to 0x3E (R170 to R176). -/

namespace Sys2Proof.Machine

open Sys2Proof

/-- ITYPE (R170). -/
def ity (f : Full) : Nat := bits f.fn.toNat 0 2

/-- The ITYPE is signed, and its width. -/
def itSigned (t : Nat) : Bool := t % 2 = 0
def itWidth (t : Nat) : Nat := if t < 2 then 32 else 64
def itRegs (t : Nat) : Nat := if t < 2 then 1 else 2

/-- SAT and X of R170. -/
def iSat (f : Full) : Bool := f.fn.getLsbD 2
def iX (f : Full) : Nat := bits f.fn.toNat 3 8

/-- The low W bits of a result as they are written: a 32-bit result sign-extended for `.s32` and zero-extended for
`.n32` (R167; a vector register takes the low 32 bits). -/
def fitInt (t : Nat) (v : Int) : Word :=
  if t ≥ 2 then BitVec.ofNat 64 (lowBits 64 v)
  else if itSigned t then sext64 32 (lowBits 32 v)
  else BitVec.ofNat 64 (lowBits 32 v)

/-- As `fitInt`, from the bits. -/
def fitBits (t v : Nat) : Word := fitInt t (v : Int)

/-- Roles of R15 for the Vector and Format units: every role with a scalar destination, else vector and ANY. -/
def vectorRoles (f : Full) : List Nat := if (useD f).isScalar then [0, 1, 2, 3] else [2, 3]

/-- Shape of an integer instruction with `n` sources of its type's width; `its` are the ITYPEs it permits, `sat` whether it
permits SAT, `xOk` whether its X field is legal (R170, R171). -/
def intShape (op n : Nat) (f : Full) (its : List Nat := [0, 1, 2, 3]) (sat : Bool := false)
    (xOk : Bool := iX f = 0) : Shape :=
  let r := itRegs (ity f)
  { op := op, sw := false, roles := vectorRoles f, dst := some (useD f .dst r)
    srcs := [useA f .any r, useB f .any r, useC f .any r].take n
    bad := [(0, !its.contains (ity f) || (iSat f && !sat) || !xOk)], result := true }

/-- The result of an exact computation over X(a), X(b), X(c) (R170). -/
def exactInt (f : Full) (fn : Int → Int → Int → Int) (_ : Nat) (xs : List Word) : LaneOut :=
  let t := ity f
  let x (i : Nat) : Int := intVal (itSigned t) (itWidth t) (arg xs i)
  let v := fn (x 0) (x 1) (x 2)
  { val := fitInt t (if iSat f then satInt (itSigned t) (itWidth t) v else v) }

/-- The result of a computation over the bits of the sources, as unsigned numbers of width W. -/
def bitsInt (f : Full) (fn : Nat → Nat → Nat → Nat → Nat) (_ : Nat) (xs : List Word) : LaneOut :=
  { val := fitBits (ity f) (fn (itWidth (ity f)) (arg xs 0).toNat (arg xs 1).toNat (arg xs 2).toNat) }

/-- R171 ADD: a + b. -/
def execAdd (f : Full) (s : State) : Host.Outcome State Fault Refusal :=
  let sh := intShape 0x20 2 f (sat := true)
  issue sh f s (State.compute sh (exactInt f (fun a b _ => a + b)))

/-- R171 SUB: a − b. -/
def execSub (f : Full) (s : State) : Host.Outcome State Fault Refusal :=
  let sh := intShape 0x21 2 f (sat := true)
  issue sh f s (State.compute sh (exactInt f (fun a b _ => a - b)))

/-- The carry predicate of ADDC and SUBB: X = [8:3] K with [10:9] 0 (R171, R172). -/
def carryK (f : Full) : Nat := bits f.fn.toNat 3 6

/-- ADDC and SUBB: the result and the carry through pK; K = 63 reads 1 and its carry out is discarded (R172). -/
def carryInt (f : Full) (fn : Nat → Word → Word → Bool → Nat × Bool) (g : Group) (l : Nat) (xs : List Word) : LaneOut :=
  let k := carryK f
  let r := fn (itWidth (ity f)) (arg xs 0) (arg xs 1) (g.p l k)
  { val := fitBits (ity f) r.1, preds := [(k, r.2)] }

def carryShape (op : Nat) (f : Full) : Shape :=
  intShape op 2 f (xOk := bits f.fn.toNat 9 2 = 0)

/-- R172 ADDC. -/
def execAddc (f : Full) (s : State) : Host.Outcome State Fault Refusal :=
  let sh := carryShape 0x22 f
  issue sh f s (fun s act => s.compute sh (carryInt f addCarry s.own) act)

/-- R172 SUBB. -/
def execSubb (f : Full) (s : State) : Host.Outcome State Fault Refusal :=
  let sh := carryShape 0x23 f
  issue sh f s (fun s act => s.compute sh (carryInt f subBorrow s.own) act)

/-- R171 MUL: a × b. -/
def execMul (f : Full) (s : State) : Host.Outcome State Fault Refusal :=
  let sh := intShape 0x24 2 f (sat := true)
  issue sh f s (State.compute sh (exactInt f (fun a b _ => a * b)))

/-- R171 MULH: (a × b) >> W. -/
def execMulh (f : Full) (s : State) : Host.Outcome State Fault Refusal :=
  let sh := intShape 0x25 2 f
  issue sh f s (State.compute sh (exactInt f (fun a b _ => a * b / (2 ^ itWidth (ity f) : Nat))))

/-- R171 MAD: a × b + c. -/
def execMad (f : Full) (s : State) : Host.Outcome State Fault Refusal :=
  let sh := intShape 0x26 3 f (sat := true)
  issue sh f s (State.compute sh (exactInt f (fun a b c => a * b + c)))

/-- MADW: 32-bit a and b, 64-bit c and result (R171). -/
def madwOut (f : Full) (_ : Nat) (xs : List Word) : LaneOut :=
  let sg := itSigned (ity f)
  let v := intVal sg 32 (arg xs 0) * intVal sg 32 (arg xs 1) + intVal sg 64 (arg xs 2)
  { val := BitVec.ofNat 64 (lowBits 64 (if iSat f then satInt sg 64 v else v)) }

/-- The shape of MADW (R171): 32-bit a and b, 64-bit c and result. -/
def madwShape (f : Full) : Shape :=
  { intShape 0x27 0 f [0, 1] true with
    dst := some (useD f .dst 2), srcs := [useA f, useB f, useC f .any 2] }

/-- R171 MADW. -/
def execMadw (f : Full) (s : State) : Host.Outcome State Fault Refusal :=
  let sh := madwShape f
  issue sh f s (State.compute sh (madwOut f))

/-- R171 MIN. -/
def execMin (f : Full) (s : State) : Host.Outcome State Fault Refusal :=
  let sh := intShape 0x28 2 f
  issue sh f s (State.compute sh (exactInt f (fun a b _ => if a ≤ b then a else b)))

/-- R171 MAX. -/
def execMax (f : Full) (s : State) : Host.Outcome State Fault Refusal :=
  let sh := intShape 0x29 2 f
  issue sh f s (State.compute sh (exactInt f (fun a b _ => if a ≤ b then b else a)))

/-- R171 ABS. -/
def execAbs (f : Full) (s : State) : Host.Outcome State Fault Refusal :=
  let sh := intShape 0x2A 1 f [0, 2] true
  issue sh f s (State.compute sh (exactInt f (fun a _ _ => if a < 0 then -a else a)))

/-- R171 SAD: |a − b| + c. -/
def execSad (f : Full) (s : State) : Host.Outcome State Fault Refusal :=
  let sh := intShape 0x2B 3 f (sat := true)
  issue sh f s (State.compute sh (exactInt f (fun a b c => (if a < b then b - a else a - b) + c)))

/-- R171 AND. -/
def execAnd (f : Full) (s : State) : Host.Outcome State Fault Refusal :=
  let sh := intShape 0x2C 2 f
  issue sh f s (State.compute sh (bitsInt f (fun _ a b _ => a &&& b)))

/-- R171 OR. -/
def execOr (f : Full) (s : State) : Host.Outcome State Fault Refusal :=
  let sh := intShape 0x2D 2 f
  issue sh f s (State.compute sh (bitsInt f (fun _ a b _ => a ||| b)))

/-- R171 XOR. -/
def execXor (f : Full) (s : State) : Host.Outcome State Fault Refusal :=
  let sh := intShape 0x2E 2 f
  issue sh f s (State.compute sh (bitsInt f (fun _ a b _ => a ^^^ b)))

/-- R171 ANDN: a & ~b. -/
def execAndn (f : Full) (s : State) : Host.Outcome State Fault Refusal :=
  let sh := intShape 0x2F 2 f
  issue sh f s (State.compute sh (bitsInt f (fun w a b _ => a &&& (2 ^ w - 1 - b))))

/-- Left shift at width W: 0 for amounts of at least W (R173). -/
def shlN (w a n : Nat) : Nat := if n ≥ w then 0 else a * 2 ^ n % 2 ^ w

/-- Logical right shift at width W (R173). -/
def shrN (w a n : Nat) : Nat := if n ≥ w then 0 else a / 2 ^ n

/-- Arithmetic right shift at width W (R173). -/
def sarN (w a n : Nat) : Nat :=
  let neg := bit a (w - 1)
  if n ≥ w then (if neg then 2 ^ w - 1 else 0)
  else a / 2 ^ n + (if neg then 2 ^ w - 2 ^ (w - n) else 0)

/-- Funnel shift over T = b, a with n = c mod 2W (R173). -/
def fshfN (left : Bool) (w a b c : Nat) : Nat :=
  let n := c % (2 * w)
  let t := a + b * 2 ^ w
  if left then t * 2 ^ n % 2 ^ (2 * w) / 2 ^ w else t / 2 ^ n % 2 ^ w

/-- R173 SHL. -/
def execShl (f : Full) (s : State) : Host.Outcome State Fault Refusal :=
  let sh := intShape 0x30 2 f
  issue sh f s (State.compute sh (bitsInt f (fun w a b _ => shlN w a b)))

/-- R173 SHR. -/
def execShr (f : Full) (s : State) : Host.Outcome State Fault Refusal :=
  let sh := intShape 0x31 2 f
  issue sh f s (State.compute sh (bitsInt f (fun w a b _ => shrN w a b)))

/-- R173 SAR. -/
def execSar (f : Full) (s : State) : Host.Outcome State Fault Refusal :=
  let sh := intShape 0x32 2 f
  issue sh f s (State.compute sh (bitsInt f (fun w a b _ => sarN w a b)))

/-- R173 FSHF: FN[3] is DIR, FN[10:4] are 0. -/
def execFshf (f : Full) (s : State) : Host.Outcome State Fault Refusal :=
  let sh := intShape 0x33 3 f (xOk := iX f ≤ 1)
  issue sh f s (State.compute sh (bitsInt f (fshfN (iX f = 1))))

/-- BFX: bits pos to pos + len − 1 of a, with the sign or 0 above W, extended from len bits (R174). -/
def bfxN (signed : Bool) (w a b : Nat) : Nat :=
  let pos := bits b 0 8
  let len := bits b 8 8
  if len = 0 then 0 else
  let x := intVal signed w (BitVec.ofNat 64 a)
  let field := lowBits len (x / (2 ^ pos : Nat))
  lowBits w (if signed && bit field (len - 1) then (field : Int) - (2 ^ len : Nat) else field)

/-- BFI (R174). -/
def bfiN (w a b c : Nat) : Nat :=
  let pos := bits c 0 8
  let len := bits c 8 8
  let m := (2 ^ min len w - 1) * 2 ^ pos % 2 ^ w
  (a &&& (2 ^ w - 1 - m)) ||| (b * 2 ^ pos % 2 ^ w &&& m)

/-- R174 BFX. -/
def execBfx (f : Full) (s : State) : Host.Outcome State Fault Refusal :=
  let sh := intShape 0x34 2 f
  issue sh f s (State.compute sh (bitsInt f (fun w a b _ => bfxN (itSigned (ity f)) w a b)))

/-- R174 BFI. -/
def execBfi (f : Full) (s : State) : Host.Outcome State Fault Refusal :=
  let sh := intShape 0x35 3 f
  issue sh f s (State.compute sh (bitsInt f bfiN))

/-- The number of 1 bits. -/
def popcN (w a : Nat) : Nat := ((List.range w).filter (bit a)).length

/-- Leading zeros at width W; W for 0. -/
def clzN (w a : Nat) : Nat := if a = 0 then w else w - 1 - Nat.log2 a

/-- Bits in reverse order. -/
def brevN (w a : Nat) : Nat :=
  (List.range w).foldl (fun acc i => if bit a i then acc + 2 ^ (w - 1 - i) else acc) 0

/-- R171 POPC. -/
def execPopc (f : Full) (s : State) : Host.Outcome State Fault Refusal :=
  let sh := intShape 0x36 1 f
  issue sh f s (State.compute sh (bitsInt f (fun w a _ _ => popcN w a)))

/-- R171 CLZ. -/
def execClz (f : Full) (s : State) : Host.Outcome State Fault Refusal :=
  let sh := intShape 0x37 1 f
  issue sh f s (State.compute sh (bitsInt f (fun w a _ _ => clzN w a)))

/-- R171 BREV. -/
def execBrev (f : Full) (s : State) : Host.Outcome State Fault Refusal :=
  let sh := intShape 0x38 1 f
  issue sh f s (State.compute sh (bitsInt f (fun w a _ _ => brevN w a)))

/-- SEL: a where pK, inverted by NEG, is true, else b (R175). -/
def selOut (f : Full) (g : Group) (l : Nat) (xs : List Word) : LaneOut :=
  { val := fitBits (ity f) (arg xs (if g.p l (carryK f) != f.fn.getLsbD 9 then 0 else 1)).toNat }

/-- R175 SEL: [8:3] K, [9] NEG, [10] 0. -/
def execSel (f : Full) (s : State) : Host.Outcome State Fault Refusal :=
  let sh := intShape 0x39 2 f (xOk := !f.fn.getLsbD 10)
  issue sh f s (fun s act => s.compute sh (selOut f s.own) act)

/-- LEA: a + (X(b) << n), modulo 2^64 (R171). -/
def leaOut (f : Full) (_ : Nat) (xs : List Word) : LaneOut :=
  { val := BitVec.ofNat 64 (lowBits 64 (((arg xs 0).toNat : Int)
      + intVal (itSigned (ity f)) 32 (arg xs 1) * (2 ^ bits f.fn.toNat 3 3 : Nat))) }

/-- The shape of LEA (R171): 64-bit a and result, 32-bit b. -/
def leaShape (f : Full) : Shape :=
  { intShape 0x3A 0 f [0, 1] false (bits f.fn.toNat 6 5 = 0) with
    dst := some (useD f .dst 2), srcs := [useA f .any 2, useB f] }

/-- R171 LEA. -/
def execLea (f : Full) (s : State) : Host.Outcome State Fault Refusal :=
  let sh := leaShape f
  issue sh f s (State.compute sh (leaOut f))

/-- R171 ADDX: a + b + c. -/
def execAddx (f : Full) (s : State) : Host.Outcome State Fault Refusal :=
  let sh := intShape 0x3B 3 f (sat := true)
  issue sh f s (State.compute sh (exactInt f (fun a b c => a + b + c)))

/-- MOV copies the value and its poison (R163, R175); poison in one register of a 64-bit source poisons both destination registers
(log 82). -/
def movBody (sh : Shape) (f : Full) (s : State) (act : Lanes) : Effect :=
  let g := s.own
  let u := useA f .any (itRegs (ity f))
  let path := if sh.scalarPath then [lowest act] else lanesOf act
  .retire {
    s := s
    result := some {
      vals := path.map (fun l => (l, fitBits (ity f) (s.value u l).toNat))
      poison := lanesWhere (fun l => act.getLsbD l && g.poisoned u l) } }

/-- R175 MOV. -/
def execMov (f : Full) (s : State) : Host.Outcome State Fault Refusal :=
  let sh := intShape 0x3C 1 f
  issue sh f s (movBody sh f)

/-- MOVW: one 16-bit part of D replaced, the rest kept (R176). -/
def movwOut (f : Full) (_ : Nat) (xs : List Word) : LaneOut :=
  let h := 16 * bits f.b.toNat 0 2
  let imm := bits f.c.toNat 0 5 * 2 ^ 11 + f.fn.toNat
  { val := (arg xs 0 &&& ~~~ BitVec.ofNat 64 (0xFFFF * 2 ^ h)) ||| BitVec.ofNat 64 (imm * 2 ^ h) }

/-- R176 MOVW: D is destination and preserved source; H against a vector D names D (R435). D = 0x184 discards, with H
of 0 or 1 (log 74). -/
def movwShape (f : Full) : Shape :=
  let sc := (useD f).isScalar
  let r := if sc then 2 else 1
  { op := 0x3D, sw := false, roles := vectorRoles f, dst := some (useD f .dst r), srcs := [useD f .dst r]
    bad := [(1, !sc && bits f.b.toNat 0 2 ≥ 2), (3, bits f.b.toNat 2 7 ≠ 0), (4, bits f.c.toNat 5 4 ≠ 0)]
    result := true }

/-- R176 MOVW. -/
def execMovw (f : Full) (s : State) : Host.Outcome State Fault Refusal :=
  let sh := movwShape f
  issue sh f s (State.compute sh (movwOut f))

/-- EXT: a[7:0] or a[15:0] extended to W (R175). -/
def extOut (f : Full) (_ : Nat) (xs : List Word) : LaneOut :=
  let n := if iX f = 1 then 16 else 8
  { val := fitInt (ity f) (intVal (itSigned (ity f)) n (arg xs 0)) }

/-- R175 EXT: FN[3] FROM16, FN[10:4] 0. -/
def execExt (f : Full) (s : State) : Host.Outcome State Fault Refusal :=
  let sh := intShape 0x3E 1 f (xOk := iX f ≤ 1)
  issue sh f s (State.compute sh (extOut f))

end Sys2Proof.Machine
end

