-- ==== Sys2Proof/Machine/FloatUnit.lean ====
section
/-! DEFINITION. The meanings of the floating-point instructions 0x3F to 0x4E (R177 to R189). -/

namespace Sys2Proof.Machine

open Sys2Proof

/-- RM, FTZ, FTYPE, X2 and X of R178. -/
def fRm (f : Full) : Nat := bits f.fn.toNat 0 2
def fFtz (f : Full) : Bool := f.fn.getLsbD 2
def fType (f : Full) : Nat := bits f.fn.toNat 3 2
def fX2 (f : Full) : Bool := f.fn.getLsbD 5
def fX (f : Full) : Nat := bits f.fn.toNat 6 5

/-- The element format of an FTYPE. -/
def fFmt (t : Nat) : FFmt := if t = 0 then fp32 else if t = 1 then fp16 else bf16

/-- Shape of a floating-point instruction with `n` sources (R179): the FTYPEs, X2, RM, FTZ and X it permits. -/
def floatShape (op n : Nat) (f : Full) (types : List Nat) (x2 rm ftz : Bool) (xOk : Bool := fX f = 0) : Shape :=
  let r := if fX2 f then 2 else 1
  { op := op, sw := false, roles := vectorRoles f, dst := some (useD f .dst r)
    srcs := [useA f .any r, useB f .any r, useC f .any r].take n
    bad := [(0, !types.contains (fType f) || (fX2 f && (!x2 || fType f ≠ 0)) || (fRm f ≠ 0 && !rm)
      || (fFtz f && !ftz) || !xOk)]
    result := true }

/-- The elements of an operand: their width and count. -/
def elemWidth (t : Nat) : Nat := if t = 0 then 32 else 16
def elemCount (f : Full) : Nat := if fType f = 0 then (if fX2 f then 2 else 1) else 2

/-- Compute each element from the codes of the operands (R177, R180). -/
def floatOut (f : Full) (fn : FFmt → Rm → Bool → List Nat → FRes) (_ : Nat) (xs : List Word) : LaneOut :=
  let w := elemWidth (fType f)
  let rs := (List.range (elemCount f)).map (fun i =>
    fn (fFmt (fType f)) (rmOf (fRm f)) (fFtz f) (xs.map (fun x => bits x.toNat (i * w) w)))
  { val := BitVec.ofNat 64 (rs.foldr (fun r acc => r.1 + 2 ^ w * acc) 0)
    flags := rs.foldl (fun acc r => acc ||| r.2) 0 }

/-- The values of element operands. -/
def decIn (F : FFmt) (ftz : Bool) (xs : List Nat) (i : Nat) : FVal := F.decode ftz (xs.getD i 0)

def addEl (F : FFmt) (rm : Rm) (ftz : Bool) (xs : List Nat) : FRes :=
  F.add rm ftz (decIn F ftz xs 0) (decIn F ftz xs 1)

/-- a − b: a plus b with its sign inverted; a NaN stays a NaN. -/
def subEl (F : FFmt) (rm : Rm) (ftz : Bool) (xs : List Nat) : FRes :=
  F.add rm ftz (decIn F ftz xs 0) (decIn F ftz xs 1).neg

def mulEl (F : FFmt) (rm : Rm) (ftz : Bool) (xs : List Nat) : FRes :=
  F.mul rm ftz (decIn F ftz xs 0) (decIn F ftz xs 1)

/-- R179 FADD. -/
def execFadd (f : Full) (s : State) : Host.Outcome State Fault Refusal :=
  let sh := floatShape 0x3F 2 f [0, 1, 2] true true true
  issue sh f s (State.compute sh (floatOut f addEl))

/-- R179 FSUB. -/
def execFsub (f : Full) (s : State) : Host.Outcome State Fault Refusal :=
  let sh := floatShape 0x40 2 f [0, 1, 2] true true true
  issue sh f s (State.compute sh (floatOut f subEl))

/-- R179 FMUL. -/
def execFmul (f : Full) (s : State) : Host.Outcome State Fault Refusal :=
  let sh := floatShape 0x41 2 f [0, 1, 2] true true true
  issue sh f s (State.compute sh (floatOut f mulEl))

/-- R179 FFMA: X bits NEGP and NEGC. -/
def execFfma (f : Full) (s : State) : Host.Outcome State Fault Refusal :=
  let sh := floatShape 0x42 3 f [0, 1, 2] true true true (fX f ≤ 3)
  issue sh f s (State.compute sh (floatOut f (fun F rm ftz xs =>
    F.fma rm ftz (bit (fX f) 0) (bit (fX f) 1) (decIn F ftz xs 0) (decIn F ftz xs 1) (decIn F ftz xs 2))))

/-- R182 FMIN. -/
def execFmin (f : Full) (s : State) : Host.Outcome State Fault Refusal :=
  let sh := floatShape 0x43 2 f [0, 1, 2] true false true
  issue sh f s (State.compute sh (floatOut f (fun F _ ftz xs => F.minmax false ftz (xs.getD 0 0) (xs.getD 1 0))))

/-- R182 FMAX. -/
def execFmax (f : Full) (s : State) : Host.Outcome State Fault Refusal :=
  let sh := floatShape 0x44 2 f [0, 1, 2] true false true
  issue sh f s (State.compute sh (floatOut f (fun F _ ftz xs => F.minmax true ftz (xs.getD 0 0) (xs.getD 1 0))))

/-- R183 FRCP: 1 / a. -/
def execFrcp (f : Full) (s : State) : Host.Outcome State Fault Refusal :=
  let sh := floatShape 0x45 1 f [0] false true true
  issue sh f s (State.compute sh (floatOut f (fun F rm ftz xs =>
    F.div rm ftz (.fin false 1 0) (decIn F ftz xs 0))))

/-- R184 FRSQ. -/
def execFrsq (f : Full) (s : State) : Host.Outcome State Fault Refusal :=
  let sh := floatShape 0x46 1 f [0] false false true
  issue sh f s (State.compute sh (floatOut f (fun F _ ftz xs => F.rsqrt ftz (decIn F ftz xs 0))))

/-- R183 FSQRT. -/
def execFsqrt (f : Full) (s : State) : Host.Outcome State Fault Refusal :=
  let sh := floatShape 0x47 1 f [0] false true true
  issue sh f s (State.compute sh (floatOut f (fun F rm ftz xs => F.sqrt rm ftz (decIn F ftz xs 0))))

/-- R184 FEXP2. -/
def execFexp2 (f : Full) (s : State) : Host.Outcome State Fault Refusal :=
  let sh := floatShape 0x48 1 f [0] false false true
  issue sh f s (State.compute sh (floatOut f (fun F _ ftz xs => F.exp2 ftz (decIn F ftz xs 0))))

/-- R184 FLOG2. -/
def execFlog2 (f : Full) (s : State) : Host.Outcome State Fault Refusal :=
  let sh := floatShape 0x49 1 f [0] false false true
  issue sh f s (State.compute sh (floatOut f (fun F _ ftz xs => F.log2 ftz (decIn F ftz xs 0))))

/-- R183 FDIV. -/
def execFdiv (f : Full) (s : State) : Host.Outcome State Fault Refusal :=
  let sh := floatShape 0x4A 2 f [0] false true true
  issue sh f s (State.compute sh (floatOut f (fun F rm ftz xs =>
    F.div rm ftz (decIn F ftz xs 0) (decIn F ftz xs 1))))

/-- FCLASS: the class mask of a, or of a[15:0] (R185). -/
def fclassOut (f : Full) (_ : Nat) (xs : List Word) : LaneOut :=
  let F := fFmt (fType f)
  { val := BitVec.ofNat 64 (F.classMask (fFtz f) (bits (arg xs 0).toNat 0 F.width)) }

/-- R185 FCLASS. -/
def execFclass (f : Full) (s : State) : Host.Outcome State Fault Refusal :=
  let sh := floatShape 0x4B 1 f [0, 1, 2] false false true
  issue sh f s (State.compute sh (fclassOut f))

/-- FDOT2: both products and C summed exactly and rounded once to FP32 (R186). A NaN input leaves the products out (log 73). -/
def fdot2Out (f : Full) (_ : Nat) (xs : List Word) : LaneOut :=
  let F := fFmt (fType f)
  let el (i j : Nat) : FVal := F.decode (fFtz f) (bits (arg xs i).toNat (16 * j) 16)
  let c := fp32.decode (fFtz f) (bits (arg xs 2).toNat 0 32)
  let ins := [el 0 0, el 0 1, el 1 0, el 1 1, c]
  let r : FRes :=
    if ins.any FVal.isNan then fp32.nanRes ins false else
    match (el 0 0).mul (el 1 0), (el 0 1).mul (el 1 1) with
    | some p, some q => fp32.sum (rmOf (fRm f)) (fFtz f) ins [p, q, c]
    | _, _ => fp32.nanRes ins true
  { val := BitVec.ofNat 64 r.1, flags := r.2 }

/-- R186 FDOT2: A and B packed, C and D FP32. -/
def execFdot2 (f : Full) (s : State) : Host.Outcome State Fault Refusal :=
  let sh := floatShape 0x4C 3 f [1, 2] false true true
  issue sh f s (State.compute sh (fdot2Out f))

/-- CADD in one lane (R187). -/
def caddOut (_ : Nat) (xs : List Word) : LaneOut :=
  let r := caddRes (bits (arg xs 0).toNat 0 32) (bits (arg xs 1).toNat 0 32)
  { val := BitVec.ofNat 64 r.1, flags := r.2 }

/-- R187 CADD. -/
def execCadd (f : Full) (s : State) : Host.Outcome State Fault Refusal :=
  let sh := floatShape 0x4D 2 f [0] false false false
  issue sh f s (State.compute sh caddOut)

/-- FSTAT returns the flags of every earlier word and clears the ones CLEAR names (R189). -/
def fstatBody (sh : Shape) (f : Full) (s : State) (act : Lanes) : Effect :=
  let v : Word := s.own.fpflags.setWidth 64
  let clear : BitVec 5 := f.fn.extractLsb' 0 5
  .retire {
    s := s.modOwn (fun g => { g with fpflags := g.fpflags &&& ~~~ clear })
    result := some { vals := (if sh.scalarPath then [lowest act] else lanesOf act).map (fun l => (l, v)) } }

/-- The shape of FSTAT (R189). -/
def fstatShape (f : Full) : Shape :=
  { op := 0x4E, sw := false, roles := vectorRoles f, dst := some (useD f), wFree := true
    bad := [(0, bits f.fn.toNat 5 6 ≠ 0)] }

/-- R189 FSTAT: FN[10:5] are 0; W is ignored; no latch shifts. -/
def execFstat (f : Full) (s : State) : Host.Outcome State Fault Refusal :=
  let sh := fstatShape f
  issue sh f s (fstatBody sh f)

end Sys2Proof.Machine
end

