-- ==== Sys2Proof/Machine/CrossLane.lean ====
section
/-! DEFINITION. The meanings of the cross-lane instructions 0x4F to 0x56 (R190 to R198). -/

namespace Sys2Proof.Machine

open Sys2Proof

/-- The FN bits outside those listed are 0. -/
def fnOnly (f : Full) (listed : Nat) : Bool := f.fn &&& ~~~ BitVec.ofNat 11 listed = 0

/-- WIDE of the cross-lane words, FN[2]. -/
def xWide (f : Full) : Nat := if f.fn.getLsbD 2 then 2 else 1

/-- Which lanes each active lane reads the source of. -/
abbrev Reads := Nat → List Nat

/-- The POISON trap of a cross-lane word: the lanes that read a poisoned value, through A or at their own B (R169). -/
def State.crossPoison (s : State) (act : Lanes) (a : Use) (reads : Reads) (own : List Use) : Option Trap :=
  let g := s.own
  let byA := lanesWhere (fun l => act.getLsbD l && (reads l).any (g.poisoned a))
  let byOwn := lanesWhere (fun l => act.getLsbD l && own.any (fun u => g.poisoned u l))
  if byA ||| byOwn = 0 then none
  else
    let enc := if byA ≠ 0 then a.enc
      else ((own.find? (fun u => (lanesOf act).any (g.poisoned u))).map Use.enc).getD 0
    some { code := 0x17, lanes := byA ||| byOwn, info := BitVec.ofNat 32 enc.toNat }

/-- A cross-lane word: every source lane is read before any destination lane is written (R190). `fn` gives the value of
each active lane from the source values. -/
def State.cross (s : State) (act : Lanes) (a : Use) (reads : Reads) (own : List Use)
    (fn : (Nat → Nat) → Nat → Nat) (flags : (Nat → Nat) → BitVec 5 := fun _ => 0) : Effect :=
  match s.crossPoison act a reads own with
  | some t => .trap t
  | none =>
    let v (l : Nat) : Nat := (s.value a l).toNat
    .retire {
      s := s
      result := some { vals := (lanesOf act).map (fun l => (l, BitVec.ofNat 64 (fn v l))) }
      flags := flags v }

/-- The source lane of SHFL (R192). -/
def shflSrc (mode seg l n : Nat) : Nat :=
  let size := 2 ^ seg
  let first := l / size * size
  let off := l - first
  match mode with
  | 0 => first + n % size
  | 1 => if n ≤ off then l - n else l
  | 2 => if off + n < size then l + n else l
  | _ => first + (off ^^^ n) % size

/-- The shape of SHFL (R192). -/
def shflShape (f : Full) : Shape :=
  let seg := bits f.fn.toNat 3 3
  let a := useA f .any (xWide f)
  let b := useB f
  { op := 0x4F, sw := false, roles := vectorRoles f, dst := some (useD f .dstVec (xWide f)), srcs := [a, b]
    bad := [(0, !fnOnly f 0x3F || decide (seg ≥ 6))], result := true }

/-- R192 SHFL. -/
def execShfl (f : Full) (s : State) : Host.Outcome State Fault Refusal :=
  let seg := bits f.fn.toNat 3 3
  let a := useA f .any (xWide f)
  let b := useB f
  issue (shflShape f) f s (fun s act =>
    let src (l : Nat) : Nat := shflSrc (bits f.fn.toNat 0 2) seg l (s.value b l).toNat
    s.cross act a (fun l => [src l]) [b] (fun v l => v (src l)))

/-- The shape of BCAST (R193). -/
def bcastShape (f : Full) : Shape :=
  let a := useA f .any (xWide f)
  let b := useB f .scalarIn
  { op := 0x50, sw := false, roles := vectorRoles f, dst := some (useD f .dstVec (xWide f)), srcs := [a, b]
    bad := [(0, !fnOnly f 0x4)], result := true }

/-- R193 BCAST. A per-lane special source as B gives the value of the lowest active lane (log 82). -/
def execBcast (f : Full) (s : State) : Host.Outcome State Fault Refusal :=
  let a := useA f .any (xWide f)
  let b := useB f .scalarIn
  issue (bcastShape f) f s (fun s act =>
    let src : Nat := (s.value b (lowest act)).toNat % 32
    s.cross act a (fun _ => [src]) [b] (fun v _ => v src))

/-- The mask of BALLOT (R194). -/
def ballotMask (g : Group) (act : Lanes) (k : Nat) (neg : Bool) : Lanes :=
  lanesWhere (fun l => act.getLsbD l && (g.p l k != neg))

/-- The shape of BALLOT (R194). -/
def ballotShape (f : Full) : Shape :=
  { op := 0x51, sw := false, roles := vectorRoles f, dst := some (useD f)
    bad := [(2, badP f.a), (0, !fnOnly f 0x1)], result := true }

/-- R194 BALLOT. -/
def execBallot (f : Full) (s : State) : Host.Outcome State Fault Refusal :=
  let sh := ballotShape f
  issue sh f s (fun s act =>
    let m : Word := (ballotMask s.own act (pNo f.a) (f.fn.getLsbD 0)).setWidth 64
    .retire {
      s := s
      result := some { vals := (if sh.scalarPath then [lowest act] else lanesOf act).map (fun l => (l, m)) } })

/-- The steps of SCAN and REDUX on numbers of width W (R195); fadd is step 7. -/
def scanStep (op t : Nat) (ftz : Bool) (a x : Nat) : FRes :=
  let w := itWidth t
  let sg := itSigned t
  let i (v : Nat) : Int := intVal sg w (BitVec.ofNat 64 v)
  match op with
  | 0 => ((a + x) % 2 ^ w, 0)
  | 1 => (lowBits w (satInt sg w (i a + i x)), 0)
  | 2 => (if i a ≤ i x then a else x, 0)
  | 3 => (if i a ≤ i x then x else a, 0)
  | 4 => (a &&& x, 0)
  | 5 => (a ||| x, 0)
  | 6 => (a ^^^ x, 0)
  | _ => fp32.add .rne ftz (fp32.decode ftz a) (fp32.decode ftz x)

/-- The exclusive identity (R195). -/
def scanIdentity (op t : Nat) : Nat :=
  let w := itWidth t
  match op with
  | 2 => if itSigned t then 2 ^ (w - 1) - 1 else 2 ^ w - 1
  | 3 => if itSigned t then 2 ^ (w - 1) else 0
  | 4 => 2 ^ w - 1
  | _ => 0

/-- Reduce values from the first on, in order, with the flags of every step. -/
def scanFold (op t : Nat) (ftz : Bool) (xs : List Nat) : FRes :=
  match xs with
  | [] => (0, 0)
  | x :: rest => rest.foldl (fun (acc : FRes) y =>
      let r := scanStep op t ftz acc.1 y
      (r.1, acc.2 ||| r.2)) (x, 0)

def scanOp (f : Full) : Nat := bits f.fn.toNat 3 4

/-- Shape of SCAN and REDUX (R191, R195). -/
def scanShape (op listed : Nat) (f : Full) : Shape :=
  let r := itRegs (ity f)
  { op := op, sw := false, roles := vectorRoles f, dst := some (useD f .dstVec r), srcs := [useA f .any r]
    bad := [(0, !fnOnly f listed || decide (scanOp f ≥ 8) || (f.fn.getLsbD 8 && decide (scanOp f ≠ 7))
      || (decide (scanOp f = 7) && decide (ity f ≠ 0)))]
    result := true }

/-- R195 SCAN, inclusive or exclusive. Either form reads A up to the lane itself (R169). -/
def execScan (f : Full) (s : State) : Host.Outcome State Fault Refusal :=
  let sh := scanShape 0x52 0x1FB f
  let excl := f.fn.getLsbD 7
  let op := scanOp f
  issue sh f s (fun s act =>
    let upto (l : Nat) : List Nat := (lanesOf act).filter (fun j => if excl then j < l else j ≤ l)
    s.cross act (useA f .any (itRegs (ity f))) (fun l => (lanesOf act).filter (· ≤ l)) []
      (fun v l => if upto l = [] then scanIdentity op (ity f)
        else (scanFold op (ity f) (f.fn.getLsbD 8) ((upto l).map v)).1)
      (fun v => (scanFold op (ity f) (f.fn.getLsbD 8) ((lanesOf act).map v)).2))

/-- R195 REDUX. -/
def execRedux (f : Full) (s : State) : Host.Outcome State Fault Refusal :=
  let sh := scanShape 0x53 0x17B f
  issue sh f s (fun s act =>
    s.cross act (useA f .any (itRegs (ity f))) (fun _ => lanesOf act) []
      (fun v _ => (scanFold (scanOp f) (ity f) (f.fn.getLsbD 8) ((lanesOf act).map v)).1)
      (fun v => (scanFold (scanOp f) (ity f) (f.fn.getLsbD 8) ((lanesOf act).map v)).2))

/-- The shape of MATCH (R196). -/
def matchLanesShape (f : Full) : Shape :=
  let a := useA f .any (xWide f)
  { op := 0x54, sw := false, roles := vectorRoles f, dst := some (useD f .dstVec), srcs := [a]
    bad := [(0, !fnOnly f 0x4)], result := true }

/-- R196 MATCH. -/
def execMatchLanes (f : Full) (s : State) : Host.Outcome State Fault Refusal :=
  let a := useA f .any (xWide f)
  issue (matchLanesShape f) f s (fun s act =>
    s.cross act a (fun _ => lanesOf act) []
      (fun v l => (lanesWhere (fun j => act.getLsbD j && decide (v j = v l))).toNat))

/-- The shape of HIST (R197). -/
def histShape (f : Full) : Shape :=
  { op := 0x55, sw := false, roles := vectorRoles f, dst := some (useD f .dstVec), srcs := [useA f]
    bad := [(0, !fnOnly f 0x1)], result := true }

/-- R197 HIST: rank or count. -/
def execHist (f : Full) (s : State) : Host.Outcome State Fault Refusal :=
  let count := f.fn.getLsbD 0
  issue (histShape f) f s (fun s act =>
    let who (l : Nat) : List Nat := (lanesOf act).filter (fun j => count || decide (j ≤ l))
    s.cross act (useA f) who []
      (fun v l => ((lanesOf act).filter (fun j => if count then v j = l else j < l && v j = v l)).length))

/-- The shape of PACK (R198). -/
def packShape (f : Full) : Shape :=
  let a := useA f .any (xWide f)
  { op := 0x56, sw := false, roles := vectorRoles f, dst := some (useD f .dstVec (xWide f)), srcs := [a]
    bad := [(3, badP f.b), (0, !fnOnly f 0x4)], result := true }

/-- R198 PACK: the selected lanes' values, in order, into the lowest active lanes. -/
def execPack (f : Full) (s : State) : Host.Outcome State Fault Refusal :=
  let a := useA f .any (xWide f)
  issue (packShape f) f s (fun s act =>
    let chosen := lanesOf (ballotMask s.own act (pNo f.b) false)
    let from? (l : Nat) : Option Nat := chosen[((lanesOf act).filter (· < l)).length]?
    s.cross act a (fun l => (from? l).toList) []
      (fun v l => ((from? l).map v).getD 0))

end Sys2Proof.Machine
end

