-- ==== Sys2Proof/Machine/Format.lean ====
section
/-! DEFINITION. The meanings of the Format unit's instructions 0x60 to 0x6C (R213 to R226), with the stochastic-rounding
state of each lane (R212). -/

namespace Sys2Proof.Machine

open Sys2Proof

/-- SEED of a lane at admission (R212). -/
def seedAt (core gi l : Nat) : W32 := 0x6A09E667 ^^^ BitVec.ofNat 32 (l ^^^ (gi * 2 ^ 5) ^^^ (core * 2 ^ 14))

/-- SEED of a lane: what was stored, or the value of admission (R212). -/
def State.seed (s : State) (l : Nat) : W32 := sget (seedAt s.focus.core s.focus.group l) s.own.seed l

/-- Advance SEED once in each of these lanes (R212). -/
def State.stepSeeds (s : State) (ls : List Nat) : State :=
  s.modOwn (fun g => { g with seed := ls.foldl (fun m l => sins l (xorshift (s.seed l)) m) g.seed })

/-- The SEEDs of these lanes advance when the word retires; a trap leaves them (R53). -/
def Effect.stepSeeds (e : Effect) (on : Bool) (ls : List Nat) : Effect :=
  match e with
  | .retire r => .retire { r with s := if on then r.s.stepSeeds ls else r.s }
  | e => e

/-- The lanes in which a word computes: the active ones, or the lowest on the scalar path. -/
def Shape.path (sh : Shape) (act : Lanes) : List Nat := if sh.scalarPath then [lowest act] else lanesOf act

/-! ## CVT and CVTS -/

def cvDt (f : Full) : Nat := bits f.fn.toNat 0 4
def cvSt (f : Full) : Nat := bits f.fn.toNat 4 4
def cvRm (f : Full) : Nat := bits f.fn.toNat 8 3
def cvPos (f : Full) : Nat := bits f.c.toNat 0 3
def cvMrg (f : Full) : Bool := f.c.getLsbD 3
def cvFtz (f : Full) : Bool := f.c.getLsbD 4
def cvNosat (f : Full) : Bool := f.c.getLsbD 5

/-- POS is legal: below 32 / width for each narrow operand, 0 when none is narrow (R215). -/
def cvPosOk (f : Full) : Bool :=
  let d := typeWidth (cvDt f)
  let a := typeWidth (cvSt f)
  (d ≥ 32 || cvPos f < 32 / d) && (a ≥ 32 || cvPos f < 32 / a) && (d < 32 || a < 32 || cvPos f = 0)

/-- NOSAT is legal (R215). -/
def cvNosatOk (f : Full) : Bool :=
  !cvNosat f || (if typeIsInt (cvDt f) then typeIsInt (cvSt f) else !([0, 1, 2, 4, 5].contains (cvDt f)))

/-- Shape of CVT and CVTS; with MRG, D is read as well (R214, R215). A condition that joins a modifier
with a type names FN (R435). -/
def cvtShape (op : Nat) (withB : Bool) (f : Full) : Shape :=
  let dr := if typeWidth (cvDt f) = 64 then 2 else 1
  let ar := if typeWidth (cvSt f) = 64 then 2 else 1
  let sc := (useD f).isScalar
  { op := op, sw := false, roles := vectorRoles f, dst := some (useD f .dst dr)
    srcs := [useA f .any ar] ++ (if withB then [useB f] else [])
      ++ (if cvMrg f then [useD f .dst (if sc then 2 else 1)] else [])
    bad := [(4, decide (bits f.c.toNat 6 3 ≠ 0)),
      (0, !cvPosOk f || (cvMrg f && typeWidth (cvDt f) ≥ 32) || !cvNosatOk f || decide (cvDt f = 6) || decide (cvRm f > 4) || (decide (cvRm f = 4) && typeIsInt (cvDt f))
        || (decide (cvRm f ≠ 0) && decide (cvDt f = 7)))]
    result := true }

/-- One conversion: element POS of A, times 2^n, placed at element POS (R215). -/
def cvtOut (f : Full) (withB : Bool) (s : State) (l : Nat) (xs : List Word) : LaneOut :=
  let st := cvSt f
  let dt := cvDt f
  let a := (arg xs 0).toNat
  let w := typeWidth st
  let x := if w < 32 then bits a (cvPos f * w) w else bits a 0 w
  let v0 := typeValue st (cvFtz f) x
  let v := if withB then v0.scale (expOf (arg xs 1)) else v0
  let r := convert dt (convRm (cvRm f) (xorshift (s.seed l))) (cvFtz f) (cvNosat f) false (typeIsInt st) v
  let dw := typeWidth dt
  let old := if cvMrg f then (arg xs (if withB then 2 else 1)).toNat else 0
  let p := cvPos f * dw
  let val : Word :=
    if dw < 32 then
      (BitVec.ofNat 64 old &&& ~~~ BitVec.ofNat 64 ((2 ^ dw - 1) * 2 ^ p)) ||| BitVec.ofNat 64 (r.1 * 2 ^ p)
    else if dt = 12 then sext64 32 r.1
    else BitVec.ofNat 64 r.1
  { val := val, flags := r.2 }

/-- The body shared by CVT and CVTS. -/
def cvtBody (sh : Shape) (f : Full) (withB : Bool) (s : State) (act : Lanes) : Effect :=
  (s.compute sh (cvtOut f withB s) act).stepSeeds (cvRm f = 4) (sh.path act)

/-- R215 CVT. -/
def execCvt (f : Full) (s : State) : Host.Outcome State Fault Refusal :=
  let sh := cvtShape 0x60 false f
  issue sh f s (fun s act => cvtBody sh f false s act)

/-- R215 CVTS. -/
def execCvts (f : Full) (s : State) : Host.Outcome State Fault Refusal :=
  let sh := cvtShape 0x61 true f
  issue sh f s (fun s act => cvtBody sh f true s act)

/-! ## Block scaling -/

def efRm (f : Full) : Nat := bits f.fn.toNat 0 3
def efFtz (f : Full) : Bool := f.fn.getLsbD 3
def efFmt (f : Full) : Nat := bits f.fn.toNat 4 2

/-- The active lanes of a lane's block (R216). -/
def blockLanes (act : Lanes) (bl l : Nat) : List Nat := (lanesOf act).filter (fun j => j / bl = l / bl)

/-- One lane of QBLK: scale and code, with flags (R216). -/
def qblkLane (f : Full) (rm : Rm) (vals : List FVal) (v : FVal) : FRes :=
  if vals.any (fun x => x.isNan || x.isInf) then (0x7E00, flIf (vals.any FVal.isSnan) flV)
  else
    let k := blockExp (efFmt f) (vals.foldl maxAbs (.fin false 0 0))
    let c := convert (efmtType (efFmt f)) rm (efFtz f) false true false (v.scale (-k))
    (scaleCode k * 256 + c.1, c.2)

/-- The shape of QBLK (R216). -/
def qblkShape (f : Full) : Shape :=
  { op := 0x62, sw := false, roles := vectorRoles f, dst := some (useD f .dstVec), srcs := [useA f]
    bad := [(0, decide (efRm f > 4) || decide (efFmt f = 3) || decide (bits f.fn.toNat 6 2 = 3)
      || decide (bits f.fn.toNat 8 3 ≠ 0))]
    result := true }

/-- R216 QBLK. -/
def execQblk (f : Full) (s : State) : Host.Outcome State Fault Refusal :=
  let bl := 8 * 2 ^ bits f.fn.toNat 6 2
  issue (qblkShape f) f s (fun s act =>
    let val (v : Nat → Nat) (l : Nat) : FVal := fp32.decode (efFtz f) (v l)
    let one (v : Nat → Nat) (l : Nat) : FRes :=
      qblkLane f (convRm (efRm f) (xorshift (s.seed l))) ((blockLanes act bl l).map (val v)) (val v l)
    (s.cross act (useA f) (blockLanes act bl) [] (fun v l => (one v l).1)
      (fun v => (lanesOf act).foldl (fun acc l => acc ||| (one v l).2) 0)).stepSeeds (efRm f = 4) (lanesOf act))

/-- DQBLK: value(code) × value(scale) × t, rounded once (R217). -/
def dqblkOut (f : Full) (_ : Nat) (xs : List Word) : LaneOut :=
  let a := (arg xs 0).toNat
  let ef := efFmt f
  let code := typeValue (efmtType ef) false (if ef = 0 then bits a 0 4 else bits a 0 8)
  let sc := e5m2.decode false (bits a 8 8)
  let ts := f.fn.getLsbD 8
  let r := productRes ([code, sc] ++ if ts then [bf16.decode false (bits (arg xs 1).toNat 0 16)] else [])
  { val := BitVec.ofNat 64 r.1, flags := r.2 }

/-- The shape of DQBLK (R217). -/
def dqblkShape (f : Full) : Shape :=
  { op := 0x63, sw := false, roles := vectorRoles f, dst := some (useD f)
    srcs := [useA f] ++ (if f.fn.getLsbD 8 then [useC f] else [])
    bad := [(0, !fnOnly f 0x130 || decide (efFmt f = 3))], result := true }

/-- R217 DQBLK. -/
def execDqblk (f : Full) (s : State) : Host.Outcome State Fault Refusal :=
  let sh := dqblkShape f
  issue sh f s (State.compute sh (dqblkOut f))

/-- PPQ in one lane (R218). -/
def ppqOut (_ : Nat) (xs : List Word) : LaneOut :=
  let r := ppqRes (fp32.decode false (bits (arg xs 0).toNat 0 32)) (bf16.decode false (bits (arg xs 1).toNat 0 16))
  { val := BitVec.ofNat 64 r.1, flags := r.2 }

/-- The shape of PPQ (R218). -/
def ppqShape (f : Full) : Shape :=
  { op := 0x64, sw := false, roles := vectorRoles f, dst := some (useD f), srcs := [useA f, useB f]
    bad := [(0, f.fn ≠ 0)], result := true }

/-- R218 PPQ. -/
def execPpq (f : Full) (s : State) : Host.Outcome State Fault Refusal :=
  let sh := ppqShape f
  issue sh f s (State.compute sh ppqOut)

/-- PPDQ in one lane (R219). -/
def ppdqOut (_ : Nat) (xs : List Word) : LaneOut :=
  let r := productRes [typeValue 6 false (bits (arg xs 0).toNat 0 8), bf16.decode false (bits (arg xs 1).toNat 0 16)]
  { val := BitVec.ofNat 64 r.1, flags := r.2 }

/-- The shape of PPDQ (R219). -/
def ppdqShape (f : Full) : Shape :=
  { op := 0x65, sw := false, roles := vectorRoles f, dst := some (useD f), srcs := [useA f, useB f]
    bad := [(0, f.fn ≠ 0)], result := true }

/-- R219 PPDQ. -/
def execPpdq (f : Full) (s : State) : Host.Outcome State Fault Refusal :=
  let sh := ppdqShape f
  issue sh f s (State.compute sh ppdqOut)

/-- The channels past the threshold take positions in ascending lane order while the map has room (R220). -/
def osplitFold (past : Nat → Bool) : List Nat → Nat → List (Nat × Word)
  | [], _ => []
  | l :: ls, n =>
    if past l then
      if n < 16 then (l, BitVec.ofNat 64 (0x80000000 + n)) :: osplitFold past ls (n + 1)
      else (l, 0x40000000) :: osplitFold past ls n
    else (l, 0) :: osplitFold past ls n

/-- The shape of OSPLIT (R220). -/
def osplitShape (f : Full) : Shape :=
  let c := useC f .scalarIn
  { op := 0x66, sw := false, roles := vectorRoles f, dst := some (useD f .dstVec), srcs := [useA f, useB f, c]
    bad := [(0, f.fn ≠ 0)], result := true }

/-- R220 OSPLIT. -/
def execOsplit (f : Full) (s : State) : Host.Outcome State Fault Refusal :=
  let c := useC f .scalarIn
  let sh := osplitShape f
  issue sh f s (fun s act =>
    match s.poisonTrap sh.srcs act with
    | some t => .trap t
    | none =>
      let a (l : Nat) : FVal := fp32.decode false (bits (s.value (useA f) l).toNat 0 32)
      let b (l : Nat) : FVal := fp32.decode false (bits (s.value (useB f) l).toNat 0 32)
      let past (l : Nat) : Bool := !(a l).isNan && !(b l).isNan && decide ((b l).abs.cmp (a l).abs < 0)
      let n := min (bits (s.value c (lowest act)).toNat 0 5) 16
      .retire {
        s := s
        result := some { vals := osplitFold past (lanesOf act) n }
        flags := flIf ((lanesOf act).any (fun l => (a l).isSnan || (b l).isSnan)) flV })

/-- EFQ in one lane: residual in the even register, code in the odd (R221). -/
def efqOut (f : Full) (s : State) (l : Nat) (xs : List Word) : LaneOut :=
  let dec (i : Nat) : FVal := fp32.decode (efFtz f) (bits (arg xs i).toNat 0 32)
  let r := efqRes (efFmt f) (convRm (efRm f) (xorshift (s.seed l))) (efFtz f) (expOf (arg xs 2)) (dec 0) (dec 1)
  { val := BitVec.ofNat 64 (r.1 + r.2.1 * 2 ^ 32), flags := r.2.2 }

/-- The shape of EFQ (R221). -/
def efqShape (f : Full) : Shape :=
  { op := 0x67, sw := false, roles := vectorRoles f, dst := some (useD f .dstVec 2)
    srcs := [useA f, useB f, useC f .scalarIn]
    bad := [(0, decide (efRm f > 4) || !([1, 2].contains (efFmt f)) || decide (bits f.fn.toNat 6 5 ≠ 0))]
    result := true }

/-- R221 EFQ. -/
def execEfq (f : Full) (s : State) : Host.Outcome State Fault Refusal :=
  let sh := efqShape f
  issue sh f s (fun s act => (s.compute sh (efqOut f s) act).stepSeeds (efRm f = 4) (sh.path act))

/-- IQS in one lane: the element, and NONFINITE and OVERFLOW in pK and p(K+1) (R222). -/
def iqsOut (f : Full) (_ : Nat) (xs : List Word) : LaneOut :=
  let r := iqsRes (expOf (arg xs 1)) (fp32.decode false (bits (arg xs 0).toNat 0 32))
  let k := bits f.fn.toNat 0 6
  { val := sext64 32 r.1, flags := r.2.1, preds := [(k, r.2.2.1), (k + 1, r.2.2.2)] }

/-- The shape of IQS (R222). -/
def iqsShape (f : Full) : Shape :=
  { op := 0x68, sw := false, roles := vectorRoles f, dst := some (useD f), srcs := [useA f, useB f]
    bad := [(0, decide (f.fn.toNat > 61))], result := true }

/-- R222 IQS: K is 0 to 61. -/
def execIqs (f : Full) (s : State) : Host.Outcome State Fault Refusal :=
  let sh := iqsShape f
  issue sh f s (State.compute sh (iqsOut f))

/-- IDQS in one lane (R223). -/
def idqsOut (f : Full) (_ : Nat) (xs : List Word) : LaneOut :=
  let r := idqsRes (rmOf (bits f.fn.toNat 0 2)) (f.fn.getLsbD 3) (expOf (arg xs 1)) (arg xs 2).toNat (arg xs 0).toNat
  { val := BitVec.ofNat 64 r.1, flags := r.2 }

/-- The shape of IDQS (R223). -/
def idqsShape (f : Full) : Shape :=
  { op := 0x69, sw := false, roles := vectorRoles f, dst := some (useD f), srcs := [useA f, useB f, useC f]
    bad := [(0, !fnOnly f 0xB)], result := true }

/-- R223 IDQS. -/
def execIdqs (f : Full) (s : State) : Host.Outcome State Fault Refusal :=
  let sh := idqsShape f
  issue sh f s (State.compute sh (idqsOut f))

/-- FSCALE: every element of A times 2^n, n from B[31:0] (R224). -/
def fscaleOut (f : Full) (l : Nat) (xs : List Word) : LaneOut :=
  let n := expOf (arg xs 1)
  floatOut f (fun F rm ftz ys =>
    let a := decIn F ftz ys 0
    if a.isNan then F.nanRes [a] false else F.roundVal rm ftz (a.scale n)) l [arg xs 0]

/-- The shape of FSCALE (R224). -/
def fscaleShape (f : Full) : Shape :=
  let sh := floatShape 0x6A 1 f [0, 1, 2] true true true
  { sh with srcs := sh.srcs ++ [useB f] }

/-- R224 FSCALE. -/
def execFscale (f : Full) (s : State) : Host.Outcome State Fault Refusal :=
  let sh := fscaleShape f
  issue sh f s (State.compute sh (fscaleOut f))

/-- ⌊log2 |a|⌋ (R225). -/
def fexpoRes (v : FVal) : Nat :=
  match v with
  | .fin _ m e => if m = 0 then 0x80000000 else lowBits 32 (topExp m e)
  | _ => 0x7FFFFFFF

/-- FEXPO in one lane. -/
def fexpoOut (f : Full) (_ : Nat) (xs : List Word) : LaneOut :=
  let F := fFmt (fType f)
  let v := F.decode (fFtz f) (bits (arg xs 0).toNat 0 F.width)
  { val := sext64 32 (fexpoRes v), flags := flIf v.isSnan flV }

/-- R225 FEXPO. -/
def execFexpo (f : Full) (s : State) : Host.Outcome State Fault Refusal :=
  let sh := floatShape 0x6B 1 f [0, 1, 2] false false true
  issue sh f s (State.compute sh (fexpoOut f))

/-- Whether any element of a word is an infinity or NaN, by NTYPE (R226). -/
def nfAny (ntype x : Nat) : Bool :=
  let bad (v : FVal) : Bool := v.isNan || v.isInf
  match ntype with
  | 0 => bad (fp32.decode false (bits x 0 32))
  | 1 => (List.range 2).any (fun i => bad (fp16.decode false (bits x (16 * i) 16)))
  | 2 => (List.range 2).any (fun i => bad (bf16.decode false (bits x (16 * i) 16)))
  | 3 => (List.range 4).any (fun i => bad (decE4m3 false (bits x (8 * i) 8)))
  | _ => (List.range 4).any (fun i => bad (e5m2.decode false (bits x (8 * i) 8)))

/-- NFCHK: pK in each active lane, and the team non-finite flag (R226). -/
def nfchkBody (f : Full) (s : State) (act : Lanes) : Effect :=
  match s.poisonTrap [useA f] act with
  | some t => .trap t
  | none =>
    let hit (l : Nat) : Bool := nfAny (bits f.fn.toNat 0 3) (s.value (useA f) l).toNat
    let any := (lanesOf act).any hit
    .retire {
      s := if any then s.modOwnTeam (fun m => { m with nonfinite := true }) else s
      preds := (lanesOf act).map (fun l => (l, bits f.fn.toNat 3 6, hit l)) }

/-- The shape of NFCHK (R226). -/
def nfchkShape (f : Full) : Shape :=
  let a := useA f
  { op := 0x6C, sw := false, roles := if a.scalarSource then [0, 1, 2, 3] else [2, 3], srcs := [a]
    bad := [(0, decide (bits f.fn.toNat 0 3 > 4) || decide (bits f.fn.toNat 9 2 ≠ 0))] }

/-- R226 NFCHK. A word whose source is scalar, special or inline is open to every role (R213). -/
def execNfchk (f : Full) (s : State) : Host.Outcome State Fault Refusal :=
  issue (nfchkShape f) f s (nfchkBody f)

end Sys2Proof.Machine
end

