-- ==== Sys2Proof/Machine/Branch.lean ====
section
/-! DEFINITION. The meanings of the issue words NOP, YIELD, LOOP and IFENCE (R84 to R87), and of the Branch and rejoin
unit (R103 to R126). -/

namespace Sys2Proof.Machine

open Sys2Proof

/-- The shape of NOP (R84). -/
def nopShape (_ : Full) : Shape :=
  { op := 0x00, sw := false, wFree := true }

/-- R84 NOP. -/
def execNop (f : Full) (s : State) : Host.Outcome State Fault Refusal :=
  issue (nopShape f) f s (fun s _ => .retire { s := s })

/-- The shape of YIELD (R85). -/
def yieldShape (f : Full) : Shape :=
  { op := 0x13, wFree := true, bad := [(0, !fnOnly f 0x1)] }

/-- R85 YIELD. -/
def execYield (f : Full) (s : State) : Host.Outcome State Fault Refusal :=
  issue (yieldShape f) f s (fun s _ =>
    .retire { s := s.modOwn (fun g => { g with yielded := true, yieldPend := f.fn.getLsbD 0 }) })

/-- The scalar register that a scalar form names. -/
def sNo (e : BitVec 9) : Nat := bits e.toNat 0 7

/-- The shape of LOOP (R86). -/
def loopShape (f : Full) : Shape :=
  let d := useD f .scalar
  { op := 0x14, noLoop := true, dst := some d
    bad := [(0, !fnOnly f 0x3F), (6, f.pred ≠ 63 || f.pn)] }

/-- R86 LOOP. A LOOP word is a switch point (R41). -/
def execLoop (f : Full) (s : State) : Host.Outcome State Fault Refusal :=
  let n := bits f.fn.toNat 0 6 + 1
  let d := useD f .scalar
  issue (loopShape f) f s (fun s act =>
    match s.poisonTrap [d] act with
    | some t => .trap t
    | none =>
      let g := s.own
      let r := sNo f.d
      let count := bits (g.s r).toNat 0 32
      let pc := pcAddr g.pathPc
      if count = 0 then .retire { s := s, target := some ((lanesOf act).map (fun l => (l, mkPc (pc + 8 + 8 * n) false 0))) }
      else .retire {
        s := s.modOwn (fun g =>
          { g.setS r (BitVec.ofNat 64 ((n - 1) * 2 ^ 32 + count)) with pathLoop := some (r, 64) })
        target := some ((lanesOf act).map (fun l => (l, mkPc (pc + 8) true 0))) })

/-- Discard the loop capture that a group owns in its slot (R87, R89). -/
def State.dropCapture (s : State) : State :=
  s.modCore s.focus.core (fun k => k.dropCapture s.ownSlot s.focus.team s.focus.group)

/-- The shape of IFENCE (R87). -/
def ifenceShape (f : Full) : Shape :=
  { op := 0x1A, wFree := true, bad := [(0, f.fn ≠ 0)] }

/-- R87 IFENCE. A word is fetched when it issues, so no prefetched word remains to discard. -/
def execIfence (f : Full) (s : State) : Host.Outcome State Fault Refusal :=
  issue (ifenceShape f) f s (fun s _ => .retire { s := s.dropCapture })

/-! ## Branches, calls, exit (R104, R105) -/

/-- A word address a signed number of words from another, modulo 2^56. -/
def relPc (pc : Nat) (off : Int) : Word := mkPc (((pc : Int) + 8 * off) % (2 ^ 56 : Nat)).toNat false 0

/-- Offset38: {A, B, C, FN}. -/
def off38 (f : Full) : Int := (f.a ++ f.b ++ f.c ++ f.fn).toInt

/-- Offset29: {B, C, FN}. -/
def off29 (f : Full) : Int := (f.b ++ f.c ++ f.fn).toInt

/-- The shape of BRA (R104). -/
def braShape (_ : Full) : Shape :=
  { op := 0x01, sw := false, noLoop := true }

/-- R104 BRA. -/
def execBra (f : Full) (s : State) : Host.Outcome State Fault Refusal :=
  issue (braShape f) f s (fun s act =>
    .retire { s := s, target := some ((lanesOf act).map (fun l => (l, relPc (pcAddr s.own.pathPc) (off38 f)))) })

/-- The effect of BRX and RET: each active lane goes to the word address in A. -/
def branchTo (f : Full) (s : State) (act : Lanes) : Effect :=
  let a := useA f .reg 2
  match s.poisonTrap [a] act with
  | some t => .trap t
  | none => .retire {
      s := s
      target := some ((lanesOf act).map (fun l => (l, mkPc (bits (s.value a l).toNat 3 53 * 8) false 0))) }

/-- The shape of BRX (R104). -/
def brxShape (f : Full) : Shape :=
  { op := 0x02, sw := false, noLoop := true, srcs := [useA f .reg 2], bad := [(0, f.fn ≠ 0)] }

/-- R104 BRX. -/
def execBrx (f : Full) (s : State) : Host.Outcome State Fault Refusal :=
  issue (brxShape f) f s (branchTo f)

/-- The shape of CALL (R104). -/
def callShape (f : Full) : Shape :=
  let d := useD f .dst 2
  { op := 0x03, sw := false, noLoop := true, dst := some d, result := true }

/-- R104 CALL. -/
def execCall (f : Full) (s : State) : Host.Outcome State Fault Refusal :=
  let d := useD f .dst 2
  issue (callShape f) f s (fun s act =>
    let pc := pcAddr s.own.pathPc
    let link : Word := BitVec.ofNat 64 ((pc + 8) % 2 ^ 56)
    .retire {
      s := s
      result := some { vals := (if d.isScalar then [lowest act] else lanesOf act).map (fun l => (l, link)) }
      target := some ((lanesOf act).map (fun l => (l, relPc pc (off38 f)))) })

/-- The shape of RET (R104). -/
def retShape (f : Full) : Shape :=
  { op := 0x04, sw := false, noLoop := true, srcs := [useA f .reg 2], bad := [(0, f.fn ≠ 0)] }

/-- R104 RET. -/
def execRet (f : Full) (s : State) : Host.Outcome State Fault Refusal :=
  issue (retShape f) f s (branchTo f)

/-- The shape of JOIN (R106). -/
def joinShape (f : Full) : Shape :=
  { op := 0x05, sw := false, noLoop := true, bad := [(2, f.a.extractLsb' 4 5 ≠ 0)] }

/-- R106 JOIN. Release conditions are evaluated at its retirement (R107). -/
def execJoin (f : Full) (s : State) : Host.Outcome State Fault Refusal :=
  let k := bits f.a.toNat 0 4
  issue (joinShape f) f s (fun s act =>
    let t := relPc (pcAddr s.own.pathPc) (off29 f)
    .retire {
      s := s.modOwn (fun g => { g with
        kmask := sput 0 g.kmask k act
        meetv := (lanesOf act).foldl (fun m l => sput 0 m l t) g.meetv })
      after := fun s => s.modOwn (fun g => g.meetAll s.ticks) })

/-- The shape of MEET (R107). -/
def meetShape (f : Full) : Shape :=
  { op := 0x06, noLoop := true, bad := [(0, !fnOnly f 0xF)] }

/-- R107 MEET. -/
def execMeet (f : Full) (s : State) : Host.Outcome State Fault Refusal :=
  let k := bits f.fn.toNat 0 4
  issue (meetShape f) f s (fun s act =>
    let g := s.own
    let pc := pcAddr g.pathPc
    let h := lanesWhere (fun l => act.getLsbD l && (g.k k).getLsbD l && decide ((g.meet l).toNat = pc))
    .retire {
      s := s.modOwn (fun g => { g with
        held := g.held ||| h, heldK := (lanesOf h).foldl (fun m l => sput 0 m l k) g.heldK })
      after := fun s => s.modOwn (fun g => g.meetAll s.ticks) })

/-- The shape of EXIT (R105). -/
def exitShape (f : Full) : Shape :=
  { op := 0x07, noLoop := true, bad := [(0, f.fn ≠ 0)] }

/-- R105 EXIT. -/
def execExit (f : Full) (s : State) : Host.Outcome State Fault Refusal :=
  issue (exitShape f) f s (fun s act =>
    .retire { s := s.exitLanes act, after := State.afterExit })

/-! ## Predicates (R109 to R113) -/

/-- Combine a comparison with predicate C (R110). -/
def bop (code : Nat) (r c : Bool) : Bool :=
  match code with
  | 0 => r
  | 1 => r && c
  | 2 => r || c
  | _ => r != c

/-- The integer comparison of PSET (R110). -/
def psetCmp (cmp : Nat) (x y : Int) : Bool :=
  match cmp with
  | 0 => decide (x = y)
  | 1 => decide (x ≠ y)
  | 2 => decide (x < y)
  | 3 => decide (x ≤ y)
  | 4 => decide (x > y)
  | _ => decide (x ≥ y)

/-- The shape of PSET (R110). -/
def psetShape (f : Full) : Shape :=
  let cmp := bits f.fn.toNat 0 4
  let ty := bits f.fn.toNat 4 3
  let bo := bits f.fn.toNat 7 2
  let r := if ty = 2 ∨ ty = 3 then 2 else 1
  { op := 0x08, sw := false, srcs := [useA f .any r, useB f .any r]
    bad := [(1, badP f.d), (4, decide (bo ≠ 0) && badP f.c), (0, !fnOnly f 0x1FF || decide (cmp ≥ 6) || decide (ty ≥ 4))] }

/-- R110 PSET. -/
def execPset (f : Full) (s : State) : Host.Outcome State Fault Refusal :=
  let cmp := bits f.fn.toNat 0 4
  let ty := bits f.fn.toNat 4 3
  let bo := bits f.fn.toNat 7 2
  let r := if ty = 2 ∨ ty = 3 then 2 else 1
  let x (w : Word) : Int := intVal (ty % 2 = 0) (32 * r) w
  let sh := psetShape f
  issue sh f s (fun s act => s.compute sh (fun l xs =>
    { val := 0, preds := [(pNo f.d, bop bo (psetCmp cmp (x (arg xs 0)) (x (arg xs 1))) (s.own.p l (pNo f.c)))] }) act)

/-- The floating comparison of PSETF with the invalid flag (R110). -/
def psetfCmp (cmp : Nat) (x y : FVal) : Bool × BitVec 5 :=
  let nan := x.isNan || y.isNan
  let c := x.cmp y
  let r := match cmp with
    | 0 => !nan && decide (c = 0)
    | 1 => nan || decide (c ≠ 0)
    | 2 => !nan && decide (c < 0)
    | 3 => !nan && decide (c ≤ 0)
    | 4 => !nan && decide (c > 0)
    | 5 => !nan && decide (c ≥ 0)
    | 6 => !nan
    | _ => nan
  (r, flIf (x.isSnan || y.isSnan || (nan && decide (2 ≤ cmp ∧ cmp ≤ 5))) flV)

/-- The shape of PSETF (R110). -/
def psetfShape (f : Full) : Shape :=
  let cmp := bits f.fn.toNat 0 4
  let ty := bits f.fn.toNat 4 2
  let bo := bits f.fn.toNat 7 2
  { op := 0x09, sw := false, srcs := [useA f, useB f]
    bad := [(1, badP f.d), (4, decide (bo ≠ 0) && badP f.c), (0, !fnOnly f 0x1FF || decide (cmp ≥ 8) || decide (ty = 3))] }

/-- R110 PSETF. -/
def execPsetf (f : Full) (s : State) : Host.Outcome State Fault Refusal :=
  let cmp := bits f.fn.toNat 0 4
  let ty := bits f.fn.toNat 4 2
  let bo := bits f.fn.toNat 7 2
  let F := if ty = 1 then fp16 else if ty = 2 then bf16 else fp32
  let x (w : Word) : FVal := F.decode (f.fn.getLsbD 6) (w.toNat % 2 ^ F.width)
  let sh := psetfShape f
  issue sh f s (fun s act => s.compute sh (fun l xs =>
    let r := psetfCmp cmp (x (arg xs 0)) (x (arg xs 1))
    { val := 0, flags := r.2, preds := [(pNo f.d, bop bo r.1 (s.own.p l (pNo f.c)))] }) act)

/-- The shape of PLOP (R111). -/
def plopShape (f : Full) : Shape :=
  { op := 0x0A, sw := false
    bad := [(1, badP f.d), (2, badP f.a), (3, badP f.b), (4, badP f.c), (0, !fnOnly f 0xFF)] }

/-- R111 PLOP. -/
def execPlop (f : Full) (s : State) : Host.Outcome State Fault Refusal :=
  let sh := plopShape f
  issue sh f s (fun s act => s.compute sh (fun l _ =>
    let p (e : BitVec 9) : Nat := (s.own.p l (pNo e)).toNat
    { val := 0, preds := [(pNo f.d, f.fn.getLsbD (4 * p f.a + 2 * p f.b + p f.c))] }) act)

/-- The shape of PMOV (R112). -/
def pmovGetShape (f : Full) : Shape :=
  { op := 0x0B, sw := false, dst := some (useD f .dst 2), bad := [(0, !fnOnly f 0x1)], result := true }

/-- R112 PMOV.get. -/
def execPmovGet (f : Full) (s : State) : Host.Outcome State Fault Refusal :=
  let sh := pmovGetShape f
  issue sh f s (fun s act => s.compute sh (fun l _ => { val := s.own.pred l }) act)

/-- The shape of PMOV (R112). -/
def pmovSetShape (f : Full) : Shape :=
  let a := useA f .any 2
  let b := useB f .any 2
  { op := 0x0B, sw := false, srcs := [a, b], bad := [(0, !fnOnly f 0x1)] }

/-- R112 PMOV.set. -/
def execPmovSet (f : Full) (s : State) : Host.Outcome State Fault Refusal :=
  let a := useA f .any 2
  let b := useB f .any 2
  issue (pmovSetShape f) f s (fun s act =>
    match s.poisonTrap [a, b] act with
    | some t => .trap t
    | none => .retire {
        s := s.modOwn (fun g => (lanesOf act).foldl (fun (h : Group) l =>
          h.setPredWord l ((h.pred l &&& ~~~ s.value b l) ||| (s.value a l &&& s.value b l))) g) })

/-- The shape of VOTE (R113). -/
def voteShape (f : Full) : Shape :=
  let mode := bits f.fn.toNat 0 2
  { op := 0x0C, sw := false, bad := [(1, badP f.d), (2, badP f.a), (0, !fnOnly f 0x3 || decide (mode = 3))] }

/-- R113 VOTE. -/
def execVote (f : Full) (s : State) : Host.Outcome State Fault Refusal :=
  let mode := bits f.fn.toNat 0 2
  issue (voteShape f) f s (fun s act =>
    let t := lanesWhere (fun l => act.getLsbD l && s.own.p l (pNo f.a))
    let r := match mode with
      | 0 => t = act
      | 1 => t ≠ 0
      | _ => t = 0 || t = act
    .retire { s := s, preds := (lanesOf act).map (fun l => (l, pNo f.d, r)) })

/-- The shape of KMOV, mask to register (R108). -/
def kmovGetShape (f : Full) : Shape :=
  { op := 0x0D, sw := false, dst := some (useD f .scalar), bad := [(0, !fnOnly f 0x1F)], result := true }

/-- R108 KMOV, mask to register. -/
def execKmovGet (f : Full) (s : State) : Host.Outcome State Fault Refusal :=
  let sh := kmovGetShape f
  issue sh f s (fun s act => s.compute sh (fun _ _ => { val := (s.own.k (bits f.fn.toNat 0 4)).setWidth 64 }) act)

/-- The shape of KMOV, register to mask (R108). -/
def kmovSetShape (f : Full) : Shape :=
  let a := useA f .scalarIn
  { op := 0x0D, sw := false, srcs := [a], bad := [(0, !fnOnly f 0x1F)] }

/-- R108 KMOV, register to mask. -/
def execKmovSet (f : Full) (s : State) : Host.Outcome State Fault Refusal :=
  let a := useA f .scalarIn
  issue (kmovSetShape f) f s (fun s act =>
    match s.poisonTrap [a] act with
    | some t => .trap t
    | none => .retire {
        s := s.modOwn (fun g => { g with
          kmask := sput 0 g.kmask (bits f.fn.toNat 0 4) ((s.value a (lowest act)).setWidth 32) })
        after := fun s => s.modOwn (fun g => g.meetAll s.ticks) })

/-! ## Futures (R114 to R118) -/

/-- Field A of a future instruction: a scalar register that does not block (R23). -/
def futA (f : Full) : Use := { fld := 2, enc := f.a, kind := .scalar, blocks := false }

/-- FUTURE_INVALID for a handle value (R114). -/
def badFuture (h : Word) : Trap := { code := 0x0A, info := BitVec.ofNat 32 (hEntry h) }

/-- Write a status word to a scalar destination; 0x184 discards it. -/
def State.giveStatus (s : State) (d : BitVec 9) (w : Word) : State := s.modOwn (fun g => g.writeDst d 1 0 w false)

/-- What a `.h` form finds behind a handle value: an exported entry, or nothing (R114). -/
def State.exported (s : State) (h : Word) : Option FutureEntry :=
  match s.ownTeam.futOf h with
  | some e => if e.state = .exported ∨ e.state = .doneExported then some e else none
  | none => none

/-- Consume a complete exported operation: its status goes to D, and the entry is released unless it is a service entry
(R114, R116, R117). -/
def State.consume (s : State) (d : BitVec 9) (h : Word) (e : FutureEntry) : State :=
  let s1 := s.giveStatus d e.status
  if e.service then s1 else s1.modOwnTeam (fun m => m.release (hEntry h))

/-- The shape of FTEST, H = 0 (R116). -/
def ftestShape (f : Full) : Shape :=
  let a := futA f
  { op := 0x0E, srcs := [a], bad := [(1, f.d ≠ 0x184), (0, !fnOnly f 0x7F)] }

/-- R116 FTEST, H = 0. A pending register takes its status word at the completion (R23), so a register that is still
pending waits for a running operation. -/
def execFtest (f : Full) (s : State) : Host.Outcome State Fault Refusal :=
  let a := futA f
  issue (ftestShape f) f s (fun s act =>
    match s.poisonTrap [a] act with
    | some t => .trap t
    | none => .retire {
        s := s, preds := (lanesOf act).map (fun l => (l, bits f.fn.toNat 1 6, !(s.own.pending (sNo f.a)))) })

/-- The shape of FTEST, H = 1 (R116). -/
def ftestHShape (f : Full) : Shape :=
  let a := futA f
  { op := 0x0E, dst := some (useD f .dstScalar), srcs := [a], bad := [(0, !fnOnly f 0x7F)] }

/-- R116 FTEST, H = 1. -/
def execFtestH (f : Full) (s : State) : Host.Outcome State Fault Refusal :=
  let a := futA f
  issue (ftestHShape f) f s (fun s act =>
    match s.poisonTrap [a] act with
    | some t => .trap t
    | none =>
      let h := s.own.s (sNo f.a)
      let pd (b : Bool) : List (Nat × Nat × Bool) := (lanesOf act).map (fun l => (l, bits f.fn.toNat 1 6, b))
      match s.exported h with
      | none => .trap (badFuture h)
      | some e =>
        if e.state = .doneExported then .retire { s := s.consume f.d h e, preds := pd true }
        else .retire { s := s, preds := pd false })

/-- The shape of FWAIT, H = 0, ALL = 0 (R117). -/
def fwaitShape (f : Full) : Shape :=
  let a := useA f .scalar
  { op := 0x0F, dst := some (useD f .dstScalar), srcs := [a], bad := [(0, !fnOnly f 0x3)] }

/-- R117 FWAIT, H = 0, ALL = 0: it blocks as any read of a pending sA does. -/
def execFwait (f : Full) (s : State) : Host.Outcome State Fault Refusal :=
  let a := useA f .scalar
  issue (fwaitShape f) f s (fun s act =>
    match s.poisonTrap [a] act with
    | some t => .trap t
    | none => .retire { s := s })

/-- The shape of FWAIT, H = 1 (R117). -/
def fwaitHShape (f : Full) : Shape :=
  let a := useA f .scalar
  { op := 0x0F, dst := some (useD f .dstScalar), srcs := [a], bad := [(0, !fnOnly f 0x3)] }

/-- R117 FWAIT, H = 1. -/
def execFwaitH (f : Full) (s : State) : Host.Outcome State Fault Refusal :=
  let a := useA f .scalar
  issue (fwaitHShape f) f s (fun s act =>
    match s.poisonTrap [a] act with
    | some t => .trap t
    | none =>
      let h := s.own.s (sNo f.a)
      match s.exported h with
      | none => .trap (badFuture h)
      | some e => if e.state = .doneExported then .retire { s := s.consume f.d h e } else .wait s)

/-- The shape of FWAIT, ALL = 1 (R117). -/
def fwaitAllShape (f : Full) : Shape :=
  { op := 0x0F, bad := [(0, !fnOnly f 0x3 || f.fn.getLsbD 0)] }

/-- R117 FWAIT, ALL = 1. -/
def execFwaitAll (f : Full) (s : State) : Host.Outcome State Fault Refusal :=
  issue (fwaitAllShape f) f s (fun s _ =>
    if s.own.spend = 0 then .retire { s := s } else .wait s)

/-- Status CANCELLED of an operation's engine (R24, R118). -/
def cancelledStatus (h : Word) : Word := statusWord 0x80 (hEngine h) 0

/-- The shape of FCANCEL (R118). -/
def fcancelShape (f : Full) : Shape :=
  let a := futA f
  { op := 0x10, dst := some (useD f .dstScalar), srcs := [a], bad := [(0, !fnOnly f 0x1)] }

/-- R118 FCANCEL. -/
def execFcancel (f : Full) (s : State) : Host.Outcome State Fault Refusal :=
  let a := futA f
  issue (fcancelShape f) f s (fun s act =>
    match s.poisonTrap [a] act with
    | some t => .trap t
    | none =>
      let r := sNo f.a
      let h := s.own.s r
      if f.fn.getLsbD 0 then
        match s.exported h with
        | none => .trap (badFuture h)
        | some e =>
          if e.service then .trap (badFuture h)
          else if e.state = .doneExported then .retire { s := s.consume f.d h e }
          else .retire { s := (s.cancelOp h).giveStatus f.d (cancelledStatus h) }
      else if s.own.pending r then
        .retire { s := (s.cancelOp h).modOwn (fun g => (g.setS r (cancelledStatus h)).setPending r false) }
      else .retire { s := s })

/-- Shape of FMOV (R115). -/
def fmovShape (f : Full) : Shape := {
  op := 0x11, dst := some (useD f .scalar), srcs := [futA f]
  bad := [(0, !fnOnly f 0x3 || decide (bits f.fn.toNat 0 2 = 3))] }

/-- The entry of a handle now belongs to a scalar register of the issuing group, or to none. -/
def State.bindFuture (s : State) (h : Word) (reg : Option Nat) : State :=
  s.modOwnTeam (fun m => m.setFut (hEntry h) { m.fut (hEntry h) with
    state := if reg.isSome then .pending else .exported, group := s.focus.group, reg := reg.getD 0 })

/-- FMOV of a register that is not pending: sD = sA. -/
def State.copyScalar (s : State) (d a : Nat) : State :=
  s.modOwn (fun g => { g.setS d (g.s a) with sregPoison := setPoison g.sregPoison d false })

/-- R115 FMOV.move. -/
def execFmovMove (f : Full) (s : State) : Host.Outcome State Fault Refusal :=
  issue (fmovShape f) f s (fun s act =>
    match s.poisonTrap [futA f] act with
    | some t => .trap t
    | none =>
      let a := sNo f.a
      let d := sNo f.d
      if s.own.pending a then .retire {
        s := ((s.copyScalar d a).bindFuture (s.own.s a) (some d)).modOwn
          (fun g => (g.setPending a false).setPending d true) }
      else .retire { s := s.copyScalar d a })

/-- R115 FMOV.export. -/
def execFmovExport (f : Full) (s : State) : Host.Outcome State Fault Refusal :=
  issue (fmovShape f) f s (fun s act =>
    match s.poisonTrap [futA f] act with
    | some t => .trap t
    | none =>
      let a := sNo f.a
      let d := sNo f.d
      if s.own.pending a then .retire {
        s := ((s.copyScalar d a).bindFuture (s.own.s a) none).modOwn (fun g => g.setPending a false) }
      else .retire { s := s.copyScalar d a })

/-- R115 FMOV.import; MODE 3 is reserved. -/
def execFmovImport (f : Full) (s : State) : Host.Outcome State Fault Refusal :=
  issue (fmovShape f) f s (fun s act =>
    match s.poisonTrap [futA f] act with
    | some t => .trap t
    | none =>
      let h := s.own.s (sNo f.a)
      let d := sNo f.d
      match s.exported h with
      | none => .trap (badFuture h)
      | some e =>
        if e.service then .trap (badFuture h)
        else if e.state = .doneExported then .retire { s := s.consume f.d h e }
        else .retire {
          s := ((s.copyScalar d (sNo f.a)).bindFuture h (some d)).modOwn (fun g => g.setPending d true) })

/-! ## Team barriers (R120, R121) -/

/-- First arrivals of lanes at barrier `n` (R120). -/
def Team.tbarArrive (m : Team) (gi n : Nat) (lanes : Lanes) (clock : Nat) : Team :=
  let b := m.tbar n
  if lanes = 0 then m else
    (m.setTbar n { b with
      arrived := b.arrived + popcount lanes, first := if b.arrived = 0 then clock % 2 ^ 48 else b.first }).modGroup gi
      (fun g => { g with tblanes := sput 0 g.tblanes n (g.tbl n ||| lanes) })

/-- TBAR and TBAR.ARR: lanes that have not arrived in this phase arrive, once their earlier accesses have performed, since the
arrival is a release at team scope; with ARR those go on; every other active lane waits at the word until the phase
completes, and goes on if it has. -/
def tbarBody (f : Full) (arr : Bool) (s : State) (act : Lanes) : Effect :=
  let n := bits f.fn.toNat 0 4
  let g := s.own
  let pass := act &&& g.tbpass
  let fresh := act &&& ~~~ pass &&& ~~~ (g.tbl n)
  let wait := if arr then act &&& ~~~ pass &&& g.tbl n else act &&& ~~~ pass
  if fresh ≠ 0 && !g.quiet then .pause s else
  let s1 := (s.modOwnTeam (fun m => m.tbarArrive s.focus.group n fresh s.clock)).modOwn (fun g =>
    { (g.setWaits wait s.ticks) with tbpass := g.tbpass &&& ~~~ pass, tbwait := sput 0 g.tbwait n (g.tbw n ||| wait) })
  .retire { s := s1, hold := wait, after := fun s => s.modOwnTeam (fun m => m.tbarEval s.ticks n) }

/-- The shape of TBAR (R120). -/
def tbarShape (f : Full) : Shape :=
  { op := 0x12, bad := [(0, !fnOnly f 0x1F)] }

/-- R120 TBAR. -/
def execTbar (f : Full) (s : State) : Host.Outcome State Fault Refusal :=
  issue (tbarShape f) f s (tbarBody f false)

/-- The shape of TBAR (R120). -/
def tbarArrShape (f : Full) : Shape :=
  { op := 0x12, bad := [(0, !fnOnly f 0x1F)] }

/-- R120 TBAR.ARR. -/
def execTbarArr (f : Full) (s : State) : Host.Outcome State Fault Refusal :=
  issue (tbarArrShape f) f s (tbarBody f true)

/-- One group's BAR_TIMEOUT (R121): a precise record that names the TBAR word of its lowest waiting lane, and the group
stops. -/
def State.tbarTimeoutGroup (n arrived : Nat) (s : State) (gi : Nat) : State :=
  let c := s.focus.core
  let t := s.focus.team
  match s.group? c t gi with
  | none => s
  | some g =>
    let w := g.tbw n
    if w = 0 then s else
      let pc : Word := BitVec.ofNat 64 (pcAddr (g.pc (lowest w)))
      let m := (s.team? c t).getD {}
      let r : Rec := {
        context := m.context, code := 0x0B, unit := c, team := t, group := gi, lanes := w, kind := 0, pc := pc
        info := BitVec.ofNat 32 (n + arrived % 2 ^ 14 * 16) }
      (s.record r (some (.group c m.gridSlot gi pc true))).modTeam c t (fun m => m.modGroup gi
        (fun g => { g.stopped (.fault (s.nextSeq m.context) pc true) with tbwait := sput 0 g.tbwait n 0 }))

/-- R121 BAR_TIMEOUT of barrier `focus.index` of a team: it takes place when %clock[47:0] − FIRST exceeds a non-zero
BAR_TIMEOUT. -/
def execBarTimeout (s : State) : Host.Outcome State Fault Refusal :=
  let c := s.focus.core
  let t := s.focus.team
  let n := s.focus.index % 16
  match s.team? c t with
  | none => .next s
  | some m =>
    let b := m.tbar n
    if m.barTimeout ≠ 0 ∧ b.arrived ≠ 0 ∧ m.barTimeout.toNat < (s.clock + 2 ^ 48 - b.first) % 2 ^ 48 then
      let s1 := (m.groups.map (·.1)).foldl (State.tbarTimeoutGroup n b.arrived) s
      .next (s1.modTeam c t (fun m => { m.setTbar n { phase := b.phase } with
        groups := m.groups.map (fun e => (e.1, { e.2 with tblanes := sput 0 e.2.tblanes n 0 })) }))
    else .next s

/-! ## Special registers (R122) -/

/-- Width of a special register in 32-bit registers. -/
def sregRegs (n : Nat) : Nat := if n = 2 ∨ n = 4 ∨ n = 6 ∨ n = 7 ∨ 10 ≤ n then 1 else 2

/-- Value of a special register in a lane. -/
def State.readSreg (s : State) (n l : Nat) : Word :=
  let g := s.own
  let m := s.ownTeam
  match n with
  | 0 => m.contAddr
  | 1 => m.barTimeout
  | 2 => if m.nonfinite then 1 else 0
  | 3 => m.spillBase
  | 4 => g.fpflags.setWidth 64
  | 5 => g.meet l
  | 6 => BitVec.ofNat 64 ((sget {} g.spoil l).depth % 2 ^ 32)
  | 7 => (s.seed l).setWidth 64
  | 8 => sget 0 g.resumev l
  | 9 => if g.contState.getLsbD 0 then g.contState >>> 32 else 0
  | 10 => BitVec.ofNat 64 (g.contLanes.toNat % 2 ^ 32)
  | 11 => g.exited.setWidth 64
  | _ => g.held.setWidth 64

/-- The shape of SRD (R122). -/
def srdShape (f : Full) : Shape :=
  let n := bits f.fn.toNat 0 8
  { op := 0x15, sw := false, dst := some (useD f .dst (sregRegs n))
    bad := [(0, !fnOnly f 0xFF || decide (n > 0x0C))], result := true }

/-- R122 SRD. -/
def execSrd (f : Full) (s : State) : Host.Outcome State Fault Refusal :=
  let n := bits f.fn.toNat 0 8
  let sh := srdShape f
  issue sh f s (fun s act => s.compute sh (fun l _ => { val := s.readSreg n l }) act)

/-- Write a special register: per team and per group from the lowest active lane, per lane in the active lanes. -/
def State.writeSreg (s : State) (n : Nat) (a : Use) (act : Lanes) : State :=
  let w := s.value a (lowest act)
  let perLane (f : Group → Nat → Word → Group) : State :=
    s.modOwn (fun g => (lanesOf act).foldl (fun (h : Group) l => f h l (s.value a l)) g)
  match n with
  | 0 => s.modOwnTeam (fun m => { m with contAddr := pcBits w })
  | 1 => s.modOwnTeam (fun m => { m with barTimeout := w })
  | 2 => s.modOwnTeam (fun m => { m with nonfinite := w.getLsbD 0 })
  | 4 => s.modOwn (fun g => { g with fpflags := w.setWidth 5 })
  | 5 => perLane (fun g l v => { g with meetv := sput 0 g.meetv l (pcBits v) })
  | _ => perLane (fun g l v => { g with seed := sins l (if v.setWidth 32 = 0#32 then 0x6A09E667 else v.setWidth 32) g.seed })

/-- The shape of SWR (R122). -/
def swrShape (f : Full) : Shape :=
  let n := bits f.fn.toNat 0 8
  let a := useA f .any (sregRegs n)
  let ro := !([0, 1, 2, 4, 5, 7].contains n)
  { op := 0x16, sw := false, srcs := [a], bad := [(0, !fnOnly f 0xFF || ro)] }

/-- R122 SWR. -/
def execSwr (f : Full) (s : State) : Host.Outcome State Fault Refusal :=
  let n := bits f.fn.toNat 0 8
  let a := useA f .any (sregRegs n)
  issue (swrShape f) f s (fun s act =>
    match s.poisonTrap [a] act with
    | some t => .trap t
    | none => .retire { s := s.writeSreg n a act })

/-! ## Traps and continuations (R123 to R126) -/

/-- The shape of TRAP (R123). -/
def trapShape (_ : Full) : Shape :=
  { op := 0x17 }

/-- R123 TRAP. -/
def execTrap (f : Full) (s : State) : Host.Outcome State Fault Refusal :=
  issue (trapShape f) f s (fun _ _ => .trap { code := 0x08, info := f.fn.setWidth 32 })

/-- The shape of BKPT (R123). -/
def bkptShape (_ : Full) : Shape :=
  { op := 0x18 }

/-- R123 BKPT. -/
def execBkpt (f : Full) (s : State) : Host.Outcome State Fault Refusal :=
  issue (bkptShape f) f s (fun s _ =>
    if (s.reg (offCtx s.ownTeam.context)).getLsbD 3 then .trap { code := 0x09, info := f.fn.setWidth 32 }
    else .retire { s := s })

/-- Lanes go back to the word that faulted. -/
def Group.returnLanes (g : Group) (lanes : Lanes) : Group :=
  let g1 := (lanesOf lanes).foldl (fun (h : Group) l => h.setPc l (sget 0 h.resumev l)) g
  { g1 with contLanes := g.contLanes &&& ~~~ (lanes.setWidth 64) }

/-- A service that ended in a trap code (R126): the group traps it precisely at the resumed word. FR_ADDR, ACCESS, SCOPE
and FR_INFO of that record the manual does not state: they are free values (log 3). -/
def State.resumeTrap (s : State) (lanes : Lanes) (code : Nat) : State :=
  let d := s.draw
  let e := d.2.draw
  (e.2.modOwn (fun g => { g with cur := lanes })).stopTrap {
    code := code, lanes := lanes, addr := d.1, info := e.1.setWidth 32
    access := bits e.1.toNat 32 4, scope := bits e.1.toNat 36 4 }

/-- The shape of FRESUME (R126). -/
def fresumeShape (f : Full) : Shape :=
  { op := 0x19, noLoop := true, bad := [(0, f.fn ≠ 0)] }

/-- R126 FRESUME. -/
def execFresume (f : Full) (s : State) : Host.Outcome State Fault Refusal :=
  issue (fresumeShape f) f s (fun s act =>
    let g := s.own
    let back := act &&& g.contLanes.setWidth 32
    let e := s.ownTeam.fut (bits g.contState.toNat 32 8)
    if back = 0 then .retire { s := s }
    else if e.state ≠ .doneExported then
      if back = act then .wait s else .retire { s := s, hold := back }
    else
      let code := bits e.status.toNat 0 8
      let s1 := s.modOwn (fun g => { g with contLanes := g.contLanes &&& ~~~ (back.setWidth 64) })
      if code = 0 then .retire {
        s := s1.modOwnTeam (fun m => m.endCont s.focus.group)
        target := some ((lanesOf back).map (fun l => (l, sget 0 g.resumev l))) }
      else .retire {
        s := s
        hold := back
        after := fun s => ((s.modOwn (fun g => g.returnLanes back)).modOwnTeam
          (fun m => m.endCont s.focus.group)).resumeTrap back code })

end Sys2Proof.Machine
end

