-- ==== Sys2Proof/Machine/Launch.lean ====
section
/-! DEFINITION. Collectives up to their start: launch packets and their checks (R390, R391), the slots of the sequencers
(R374, R375, R401), the arrival of a packet (R392), and launches staged for a trigger (R397). -/

namespace Sys2Proof.Machine

open Sys2Proof

/-! ## Slots -/

def State.slot (s : State) (p i : Nat) : Slot := sget {} (sget {} s.seqs p).slots i

def State.modSlot (s : State) (p i : Nat) (f : Slot → Slot) : State :=
  let q := sget {} s.seqs p
  { s with seqs := sput {} s.seqs p { q with slots := sput {} q.slots i (f (sget {} q.slots i)) } }

/-- OWNER of a slot (R401). -/
def State.slotOwner (s : State) (p i : Nat) : Nat := s.regBits (offLn p + 0x100 + 8 * i) 0 6

/-- VALID of a slot. -/
def State.slotValid (s : State) (p i : Nat) : Bool := (s.reg (offLn p + 0x100 + 8 * i)).getLsbD 6

/-! ## The packet (R390, R391) -/

/-- Field of word `i` of a packet. -/
def LaunchPacket.f (l : LaunchPacket) (i lo n : Nat) : Nat := bits (l.words.getD i 0).toNat lo n

def LaunchPacket.algo (l : LaunchPacket) : Nat := l.f 0 0 4
def LaunchPacket.op (l : LaunchPacket) : Nat := l.f 0 4 4
def LaunchPacket.cop (l : LaunchPacket) : Nat := l.f 0 8 4
def LaunchPacket.dtype (l : LaunchPacket) : Nat := l.f 0 12 2
def LaunchPacket.slot (l : LaunchPacket) : Nat := l.f 0 14 3
def LaunchPacket.trigEn (l : LaunchPacket) : Bool := l.f 0 17 1 = 1
def LaunchPacket.doneEn (l : LaunchPacket) : Bool := l.f 0 18 1 = 1
def LaunchPacket.ports (l : LaunchPacket) : List Nat := (List.range 16).filter (bit (l.f 0 32 16))
def LaunchPacket.count (l : LaunchPacket) : Nat := l.f 1 0 32
def LaunchPacket.ndim (l : LaunchPacket) : Nat := l.f 4 12 2
def LaunchPacket.dimCount (l : LaunchPacket) (d : Nat) : Nat := if d < l.ndim then l.f (5 + d) 0 13 else 1
def LaunchPacket.dimStride (l : LaunchPacket) (d : Nat) : Nat := if d < l.ndim then l.f (5 + d) 16 12 else 0

/-- Number of ranks. -/
def LaunchPacket.ranks (l : LaunchPacket) : Nat := l.dimCount 0 * l.dimCount 1 * l.dimCount 2

/-- The package of a rank (R391). -/
def LaunchPacket.package (l : LaunchPacket) (r : Nat) : Nat :=
  l.f 4 0 12 + r % l.dimCount 0 * l.dimStride 0 + r / l.dimCount 0 % l.dimCount 1 * l.dimStride 1
    + r / l.dimCount 0 / l.dimCount 1 * l.dimStride 2

/-- The packages of the group in rank order. -/
def LaunchPacket.group (l : LaunchPacket) : List Nat := (List.range l.ranks).map l.package

/-- The rank of a package. -/
def LaunchPacket.rankOf (l : LaunchPacket) (p : Nat) : Nat := (l.group.findIdx? (· = p)).getD 0

/-- A failing condition of R390 or R391: byte offset and CAUSE. -/
abbrev PacketFail := Nat × Nat

/-- Reserved bits `m` of word `i`. -/
def LaunchPacket.res (l : LaunchPacket) (i : Nat) (m : Word) : List PacketFail :=
  ((reservedAt (8 * i) ((l.words.getD i 0) &&& m).toNat).map (fun o => (o, 0))).toList

/-- A condition at an offset. -/
def failIf (off cause : Nat) (b : Bool) : List PacketFail := if b then [(off, cause)] else []

/-- The failing conditions of one dimension. -/
def LaunchPacket.dimFails (l : LaunchPacket) (d : Nat) : List PacketFail :=
  if d < l.ndim then
    l.res (5 + d) 0xFFFFFFFFF000E000 ++ failIf (0x28 + 8 * d) 1 (l.f (5 + d) 0 13 = 0 || l.f (5 + d) 0 13 > 4096)
  else failIf 0x21 1 (l.words.getD (5 + d) 0 ≠ 0)

/-- The failing conditions of the rank group (R391). With NDIM 0 or a COUNT of 0 there is no group to judge (log 80). -/
def LaunchPacket.groupFails (l : LaunchPacket) (pkg maxpkg : Nat) : List PacketFail :=
  let top := l.f 4 0 12 + ((List.range 3).map (fun d => (l.dimCount d - 1) * l.dimStride d)).sum
  if l.ndim = 0 ∨ (List.range 3).any (fun d => l.dimCount d = 0) then []
  else if top > maxpkg then [(0x20, 1)]
  else failIf 0x20 5 (l.ranks > 4096 || l.group.eraseDups.length ≠ l.ranks || !l.group.contains pkg)

/-- Every failing condition of a packet that `pkg` issues. -/
def LaunchPacket.fails (l : LaunchPacket) (pkg maxpkg : Nat) : List PacketFail :=
  let builtin := l.algo ≠ 0
  l.res 0 0xFFFF0000FFF80000
    ++ failIf 0x00 0 (l.algo > 3 || (builtin && l.op > 3)) ++ failIf 0x01 0 ((builtin && l.cop > 6) || l.dtype > 1)
    ++ failIf 0x04 1 (l.f 0 32 16 = 0)
    ++ failIf 0x00 1 ((l.algo = 2 && l.op ≠ 0) || (l.algo = 3 && (l.op ≠ 3 || l.dtype ≠ 0)))
    ++ failIf 0x01 1 (builtin && l.dtype = 1 && l.cop ≠ 0)
    ++ failIf 0x00 1 (l.algo = 3 && l.ranks ≠ 0 && l.count % l.ranks ≠ 0)
    ++ l.res 1 0xFFFFFFFF00000000
    ++ failIf 0x10 1 (builtin && l.f 2 0 2 ≠ 0) ++ failIf 0x18 1 (builtin && l.f 3 0 2 ≠ 0)
    ++ l.res 4 0xFFFFFFFFFFFFC000 ++ failIf 0x21 1 (l.ndim = 0)
    ++ (List.range 3).flatMap l.dimFails ++ l.groupFails pkg maxpkg
    ++ l.res 8 0xFFFFFFFFFFFFFE00
    ++ (if l.trigEn then l.res 9 0xFFFFFFF800000000 else [])
    ++ failIf 0x50 1 (l.doneEn && l.f 10 0 3 ≠ 0)
    ++ l.res 11 0xFFFFFFFF00000000 ++ (if builtin then l.res 12 0x00000000FFFFFFC0 else [])

/-- The failing condition that is reported: lowest offset, then lowest CAUSE (R435). -/
def LaunchPacket.fail (l : LaunchPacket) (pkg maxpkg : Nat) : Option PacketFail :=
  (l.fails pkg maxpkg).foldl (fun acc e =>
    match acc with
    | none => some e
    | some a => if e.1 < a.1 ∨ (e.1 = a.1 ∧ e.2 < a.2) then some e else some a) none

/-! ## Arrival (R392) -/

/-- A refusing port writes its record to context 0's queue. CAUSE of a refusal by a disabled sequencer (R401) the manual does
not state (log 3). -/
def State.refuseLaunch (s : State) (p cause : Nat) (l : LaunchPacket) : State :=
  s.record {
    context := l.context, queue := some 0, code := 0x26, master := 2, unit := 0x80 + p, addr := BitVec.ofNat 64 l.issuer
    info := BitVec.ofNat 32 (l.slot + cause % 4 * 2 ^ 4 + l.context % 64 * 2 ^ 8) }

/-- One port of PORTMASK queues the packet, or refuses it. -/
def State.launchAt (l : LaunchPacket) (s : State) (p : Nat) : State :=
  let i := l.slot
  if !(s.reg (offLn p)).getLsbD 0 then
    let d := s.draw
    d.2.refuseLaunch p (d.1.toNat % 4) l
  else if !s.slotValid p i then s.refuseLaunch p 0 l
  else if s.slotOwner p i ≠ l.context then s.refuseLaunch p 1 l
  else if (s.slot p i).queue.length ≥ 4 then s.refuseLaunch p 2 l
  else s.modSlot p i (fun t => { t with queue := t.queue ++ [l] })

/-- A packet reaches this package. -/
def State.launchArrive (s : State) (l : LaunchPacket) : State :=
  l.ports.foldl (State.launchAt { l with number := s.fresh }) { s with fresh := s.fresh + 1 }

/-- Multicast a packet: the packages of its group receive it, this one by LAUNCH_PACKET_ARRIVE (R392). -/
def State.multicast (s : State) (l : LaunchPacket) : State := { s with launchSent := s.launchSent ++ [l] }

/-- Fire Lintel staging slot `slot` of a team (TKIND 2), for a barrier address and the phase that completed; the flag answers
that TMISS is set (R397). -/
def State.fireLaunch (s : State) (c t slot addr : Nat) (phase : Bool) : State × Bool :=
  match (s.team? c t).bind (fun m => sfind slot m.lintelStaged) with
  | none => (s, true)
  | some l =>
    if l.barrier / 16 = addr / 16 ∧ l.phase = phase then
      ((s.modTeam c t (fun m => ({ m with lintelStaged := sdel slot m.lintelStaged }).wake)).multicast l.packet, false)
    else (s, true)

end Sys2Proof.Machine
end

