-- ==== Sys2Proof/Machine/Barrier.lean ====
section
/-! DEFINITION. Barrier objects (R26, R27, R256 to R259, R264, R265) and the barrier instructions (R260 to R264). -/

namespace Sys2Proof.Machine

open Sys2Proof

/-- Replace a field of a number. -/
def putBits (x lo n v : Nat) : Nat := x - bits x lo n * 2 ^ lo + v % 2 ^ n * 2 ^ lo

/-! ## The object (R256) -/

/-- The 16 bytes of an object as one number. -/
abbrev Bar := Nat

def Bar.expected (b : Bar) : Nat := bits b 0 20
def Bar.remaining (b : Bar) : Nat := bits b 20 20
def Bar.phase (b : Bar) : Bool := bit b 40
def Bar.pending (b : Bar) : Int := signedOf 40 (bits b 64 40)
def Bar.tkind (b : Bar) : Nat := bits b 104 2
def Bar.trearm (b : Bar) : Bool := bit b 106
def Bar.tslot (b : Bar) : Nat := bits b 112 8

/-- Token and status words (R260): PHASE, INCOMPLETE, OVERRUN, TMISS. -/
def Bar.token (b : Bar) : Word := BitVec.ofNat 64 (bits b 40 4)

/-- What BINIT writes. -/
def Bar.init (expected : Nat) : Bar := expected % 2 ^ 20 * (1 + 2 ^ 20)

/-- The object's address: bits [3:0] are ignored (R245, R260). -/
def barAddr (a : Nat) : Nat := a % 2 ^ 32 / 16 * 16

def Team.bar (m : Team) (a : Nat) : Bar := natOfBytes (m.scratch.read a 16)

def Team.setBar (m : Team) (a : Nat) (b : Bar) : Team := m.spPut a (bytesOfNat 16 b)

/-! ## Events (R257, R258) -/

/-- An event on an object: group arrivals (none where no group arrives), the change of PENDING, whether it sets INCOMPLETE,
and the group, word and handle that BAR_OVERRUN names. -/
structure BarEvent where
  arrivals : Option Nat := none
  pending : Int := 0
  incomplete : Bool := false
  group : Nat := 0
  pc : Word := 0
  handle : Word := 0
  deriving DecidableEq, Repr

/-- The object after the event's own counts: the object, and the BAR_OVERRUN records as (ARRIVALS, EXCESS). -/
def Bar.count (b : Bar) (e : BarEvent) : Bar × List (Bool × Nat) :=
  let b1 : Bar := if e.incomplete then putBits b 41 1 1 else b
  let n := e.arrivals.getD 0
  let r := b1.remaining
  let past := decide (n > r)
  let b2 : Bar := putBits (if past then putBits b1 42 1 1 else b1) 20 20 (r - n)
  let want := b2.pending + e.pending
  let lim : Int := 2 ^ 39
  let got := max (-lim) (min (lim - 1) want)
  let b3 : Bar := putBits (if got = want then b2 else putBits b2 42 1 1) 64 40 (lowBits 40 got)
  let recs := if past then [(true, n - r)] else []
  if b3.remaining = 0 ∧ b3.pending < 0 then
    (putBits (putBits b3 42 1 1) 64 40 0, recs ++ [(false, (-b3.pending).toNat)])
  else (b3, recs)

/-- The phase completes (R258). -/
def Bar.done (b : Bar) : Bool := b.remaining = 0 && b.pending = 0

/-- The object after a completion: PHASE toggles, REMAINING reloads, CONTS clears, and TKIND unless TREARM (R258, R264). -/
def Bar.complete (b : Bar) : Bar :=
  let b1 := putBits (putBits (putBits b 40 1 (if b.phase then 0 else 1)) 20 20 b.expected) 48 8 0
  if b.trearm then b1 else putBits b1 104 2 0

/-- The parked lanes of a group form a path that is ready from now (R263). -/
def Group.spawn (g : Group) (a : Nat) (phase : Bool) (now : Nat) : Group :=
  if g.bwstate.getLsbD 33 ∧ barAddr (bits g.bwstate.toNat 0 32) = a ∧ g.bwstate.getLsbD 32 = phase then
    ({ g.setWaits g.parked now with
      bwstate := 0, bwlanes := 0, waiting := g.waiting &&& ~~~ g.parked } : Group).noteReady g now
  else g

/-- Fire an object's trigger (R264, R265): the state, and whether TMISS is set. -/
def State.fire (s : State) (c t a : Nat) (b : Bar) : State × Bool :=
  match b.tkind with
  | 1 => if b.tslot < 8 then s.fireStream c t b.tslot else (s, true)
  | 2 => if b.tslot < 4 then s.fireLaunch c t b.tslot a b.phase else (s, true)
  | _ => (s, false)

/-- Steps 1 to 5 of R26 for the object as it stands at its completion. -/
def State.barComplete (s : State) (c t a : Nat) (b : Bar) : State :=
  let s1 := s.modTeam c t (fun m => ((m.setBar a b.complete).wake).mapGroups (fun g => g.spawn a b.phase s.ticks))
  let r := s1.fire c t a b
  if r.2 then r.1.modTeam c t (fun m => m.setBar a (putBits (m.bar a) 43 1 1)) else r.1

/-- The BAR_OVERRUN record (R259). -/
def overrunRec (m : Team) (c t a : Nat) (e : BarEvent) (x : Bool × Nat) : Rec where
  context := m.context
  code := 0x20
  unit := c
  team := t
  group := e.group
  pc := e.pc
  addr := BitVec.ofNat 64 a
  future := e.handle
  info := BitVec.ofNat 32 (min x.2 (2 ^ 31 - 1) + if x.1 then 2 ^ 31 else 0)

/-- One event on the object at `a` of a resident team, and its evaluation. -/
def State.barEvent (s : State) (c t a : Nat) (e : BarEvent) : State :=
  match s.team? c t with
  | none => s
  | some m =>
    let r := (m.bar a).count e
    let s1 := r.2.foldl (fun (s : State) x => s.record (overrunRec m c t a e x)) s
    if r.1.done then s1.barComplete c t a r.1 else s1.modTeam c t (fun m => m.setBar a r.1)

/-- One event on an object of the team of a grid. -/
def State.barEventBy (s : State) (c grid a : Nat) (e : BarEvent) : State :=
  match (s.core c).slotOf grid with
  | some t => s.barEvent c t a e
  | none => s

/-! ## Barrier instructions (R260) -/

/-- The shape of a barrier instruction: which of D and B it uses, the FN bits it has. -/
def barShape (op : Nat) (f : Full) (d b : Bool) (fnBits : Nat) : Shape where
  op := op
  dst := if d then some (asyncD f) else none
  srcs := asyncA f :: if b then [asyncB f] else []
  bad := [(0, !fnOnly f fnBits)]
  behind := true

/-- The event that the issuing word causes. -/
def State.wordEvent (s : State) (e : BarEvent) : BarEvent :=
  { e with group := s.focus.group, pc := BitVec.ofNat 64 (pcAddr s.own.pathPc) }

/-- The group's earlier scratchpad accesses have performed, so that an event on an object is ordered behind them (R32, R34). -/
def State.scratchQuiet (s : State) : Bool := !s.own.storeQ.any (·.scratch) && !s.own.loads.any (·.scratch)

/-- A word that writes an object takes place behind the group's earlier scratchpad accesses. -/
def State.inOrder (s : State) (e : Effect) : Effect := if s.scratchQuiet then e else .pause s

/-- Run a barrier word: poison, then SP_RANGE, then a poisoned object where the word reads one, then its effect on the object
at A. The group reads the object as its own earlier stores leave it. -/
def barBody (sh : Shape) (f : Full) (reads : Bool) (k : State → Lanes → Nat → Effect) (s : State) (act : Lanes) : Effect :=
  match s.poisonTrap sh.srcs act with
  | some t => .trap t
  | none =>
    let a := barAddr (s.src f (asyncA f)).toNat
    if s.ownTeam.spBeyond a 16 then .trap (s.ownTeam.spRange a)
    else if reads && s.ownScratch.spPoisoned a 16 then .trap { code := 0x17, info := f.a.setWidth 32 }
    else k s act a

/-- A word of the issuing group arrives with an event, as a release at team scope, and writes the token to D (R261). -/
def State.arriveWord (s : State) (act : Lanes) (a : Nat) (e : BarEvent) : Effect :=
  s.released act true 2 (fun s1 =>
    let tok := (s1.ownTeam.bar a).token
    .retire {
      s := s1.barEvent s1.focus.core s1.focus.team a (s1.wordEvent e)
      result := some { vals := [(0, tok)] } })

/-- R261 BINIT. -/
def execBinit (f : Full) (s : State) : Host.Outcome State Fault Refusal :=
  let sh := barShape 0xA6 f false true 0
  issue sh f s (barBody sh f false (fun s _ a =>
    s.inOrder (.retire { s := s.modOwnTeam (fun m => m.setBar a (Bar.init (s.src f (asyncB f)).toNat)) })))

/-- R261 BARRIVE. -/
def execBarrive (f : Full) (s : State) : Host.Outcome State Fault Refusal :=
  let sh := barShape 0xA7 f true true 0
  issue sh f s (barBody sh f true (fun s act a =>
    s.arriveWord act a { arrivals := some (bits (s.src f (asyncB f)).toNat 0 20) }))

/-- R261 BEXPECT, ARR = 0. -/
def execBexpect (f : Full) (s : State) : Host.Outcome State Fault Refusal :=
  let sh := barShape 0xA8 f false true 1
  issue sh f s (barBody sh f true (fun s _ a =>
    let e := s.wordEvent { pending := (bits (s.src f (asyncB f)).toNat 0 32 : Nat) }
    s.inOrder (.retire { s := s.barEvent s.focus.core s.focus.team a e })))

/-- R261 BEXPECT, ARR = 1. -/
def execBexpectArr (f : Full) (s : State) : Host.Outcome State Fault Refusal :=
  let sh := barShape 0xA8 f true true 1
  issue sh f s (barBody sh f true (fun s act a =>
    s.arriveWord act a { arrivals := some 1, pending := (bits (s.src f (asyncB f)).toNat 0 32 : Nat) }))

/-- PHASE of the object differs from the token in B. -/
def State.flipped (s : State) (f : Full) (a : Nat) : Bool := (s.ownScratch.bar a).phase != (s.src f (asyncB f)).getLsbD 0

/-- R262 BWAIT. -/
def execBwait (f : Full) (s : State) : Host.Outcome State Fault Refusal :=
  let sh := barShape 0xA9 f true true 0
  issue sh f s (barBody sh f true (fun s _ a =>
    if s.flipped f a then .retire { s := s, result := some { vals := [(0, (s.ownScratch.bar a).token)] } } else .wait s))

/-- R262 BTRY. -/
def execBtry (f : Full) (s : State) : Host.Outcome State Fault Refusal :=
  let sh := barShape 0xAA f false true 0x3F
  issue sh f s (barBody sh f true (fun s act a =>
    .retire { s := s, preds := (lanesOf act).map (fun l => (l, bits f.fn.toNat 0 6, s.flipped f a)) }))

/-- Offset20 of BCONT: C[8:0] above FN. -/
def off20 (f : Full) : Int := (f.c ++ f.fn).toInt

/-- Park the active lanes at a label (R263): the registration counts in CONTS. -/
def State.park (s : State) (act : Lanes) (a : Nat) (token : Bool) (label : Word) : State :=
  let st : Word := BitVec.ofNat 64 (a + (if token then 2 ^ 32 else 0) + 2 ^ 33)
  (s.modOwn (fun g =>
    { (lanesOf act).foldl (fun (h : Group) l => h.setPc l label) g with
      cur := g.cur &&& ~~~ act, bwstate := st, bwlanes := (g.parked ||| act).setWidth 64 })).modOwnTeam
    (fun m => m.setBar a (putBits (m.bar a) 48 8 (min 255 (bits (m.bar a) 48 8 + 1))))

/-- The shape of BCONT (R263). -/
def bcontShape (f : Full) : Shape :=
  { barShape 0xAB f false true 0x7FF with noLoop := true }

/-- R263 BCONT. -/
def execBcont (f : Full) (s : State) : Host.Outcome State Fault Refusal :=
  let sh := bcontShape f
  issue sh f s (barBody sh f true (fun s act a =>
    let label := relPc (pcAddr s.own.pathPc) (off20 f)
    let token := (s.src f (asyncB f)).getLsbD 0
    if s.flipped f a then .retire { s := s, target := some ((lanesOf act).map (fun l => (l, label))) }
    else
      let st := s.own.bwstate
      if st.getLsbD 33 ∧ ¬ (barAddr (bits st.toNat 0 32) = a ∧ st.getLsbD 32 = token) then .wait s
      else s.inOrder (.retire { s := s.park act a token label })))

/-- R264 BTRIG. -/
def execBtrig (f : Full) (s : State) : Host.Outcome State Fault Refusal :=
  let sh := barShape 0xAC f false true 0
  issue sh f s (barBody sh f true (fun s _ a =>
    let b := (s.src f (asyncB f)).toNat
    if bits b 0 2 = 3 then Effect.trap { code := 0x02, info := 3 }
    else s.inOrder (.retire { s := s.modOwnTeam (fun m =>
      m.setBar a (putBits (putBits (m.bar a) 104 3 (bits b 0 3)) 112 8 (bits b 8 8))) })))

end Sys2Proof.Machine
end

