-- ==== Sys2Proof/Machine/Global.lean ====
section
/-! DEFINITION. Global accesses of the engines: reading and writing single bytes that are translated, of this package's memory, of
host memory and of other packages (R135, R138, R252, R359). -/

namespace Sys2Proof.Machine

open Sys2Proof

/-- Why an engine access fails: trap code, FR_INFO of R165 or R364, and the physical address. -/
structure EngineFail where
  code : Nat
  info : W32 := 0
  pa : Nat := 0
  deriving DecidableEq, Repr

/-- FR_ADDR of a failed engine access: its virtual address, or the request's address in the domain where another package is
concerned (R61, R253, R364). -/
def State.failAddr (s : State) (e : EngineFail) (va : Nat) : Nat :=
  if (e.code = 0x15 || e.code = 0x18) && s.isRemote e.pa then e.pa else va

/-- UNREACHABLE by the local port, which counts it (R364). -/
def State.unreachable (s : State) (pa cause : Nat) : State × EngineFail :=
  let q := s.egress (portOf pa)
  (s.incReg (offPort q + 0x98), ⟨0x18, unreachInfo cause q (pkgOf pa), pa⟩)

/-- An engine access to one byte is translated and admitted at its target: access kind 1 read, 2 write. -/
def State.engineByte (s : State) (kind ctx va acc : Nat) : State × Except EngineFail Xlat :=
  match s.translate ctx va acc with
  | (s1, .error e) => (s1, .error ⟨e.code, BitVec.ofNat 32 e.info, 0⟩)
  | (s1, .ok x) =>
    match s1.regionFail x.pa 1 with
    | some e => (s1, .error ⟨e.code, BitVec.ofNat 32 e.info, x.pa⟩)
    | none =>
      if s1.isRemote x.pa then
        if pkgOf x.pa > s1.maxpkg then
          let r := s1.unreachable x.pa 0
          (r.1, .error r.2)
        else (s1, .ok x)
      else
        let r := s1.admitOne (masterId kind ctx) acc (localOf x.pa) (s1.isUc x)
        if r.2 then (r.1, .ok x) else (r.1, .error ⟨0x15, 0, x.pa⟩)

/-- The byte that an admitted read finds, which it may have found before: none while a remote byte has not come. The host can
complete a read with an error (R155). -/
def State.engineRead (s : State) (x : Xlat) (rd : Reader) : Except EngineFail (Option (Byte × Bool)) :=
  match s.farByte rd x.pa with
  | some (.error e) => .error ⟨e.1, e.2, x.pa⟩
  | some (.ok b) => .ok (some b)
  | none =>
  if s.isRemote x.pa then .ok none
  else if region (localOf x.pa) = .pci ∧ s.input = .flag true then .error ⟨0x15, 0, x.pa⟩
  else .ok (some (s.look (s.isUc x) (localOf x.pa)))

/-- The remote byte that a read at a virtual address would have to ask for, if there is one. -/
def State.farWant (s : State) (rd : Reader) (ctx va : Nat) : Option Nat :=
  match (s.translate ctx va 1).2 with
  | .ok x => if s.isRemote x.pa && decide (pkgOf x.pa ≤ s.maxpkg) && (s.farRead rd x.pa).isNone then some x.pa else none
  | .error _ => none

/-- The master kind of the engine that writes (R56). -/
def Issuer.kind (i : Issuer) : Nat :=
  match i with
  | .haul _ _ => 1
  | .keystone _ | .grout _ _ _ _ => 3
  | .load _ _ _ _ | .mwait _ _ _ | .store _ _ _ _ _ _ | .frontEnd _ | .reads _ => 0

/-- UNIT of the engine that issues a request, where its accesses raise MIXED_SIZE (R50, R161). -/
def Issuer.unit (i : Issuer) : Option Nat :=
  match i with
  | .haul c _ => some c
  | .keystone _ | .grout _ _ _ _ => some 0xC0
  | .load _ _ _ _ | .mwait _ _ _ | .store _ _ _ _ _ _ | .frontEnd _ | .reads _ => none

/-- One byte to write: its translation, value and poison. -/
structure OutByte where
  x : Xlat
  val : Byte
  poison : Bool := false
  deriving DecidableEq, Repr

/-- Two bytes in a row that one request can write. -/
def Xlat.near (x y : Xlat) : Bool := decide (x.pa / 128 = y.pa / 128) && decide (x.leaf = y.leaf)

/-- The leading bytes that one access writes: those of the first byte's line and kind, with the rest. -/
def runOf (same : OutByte → Bool) : List OutByte → List OutByte × List OutByte
  | [] => ([], [])
  | b :: bs => if same b then ((b :: (runOf same bs).1), (runOf same bs).2) else ([], b :: bs)

/-- Write bytes of one line. The answer names the posted request, if there is one: port 16 is the host link. -/
def State.emitRun (s : State) (i : Issuer) (ctx : Nat) (bs : List OutByte) : State × List (Nat × Nat) :=
  match bs with
  | [] => (s, [])
  | b :: _ =>
    if s.isRemote b.x.pa then
      let r := s.accept i {
        package := 0, srcPort := 0, seq := 0, context := ctx, address := 0, op := .write
        bytes := bs.map (fun e => (e.x.pa % 128, e.val)), posted := true, discEn := false
        poison := (bs.filter (·.poison)).map (fun e => e.x.pa % 128) } b.x.pa
      (r.1, [r.2])
    else
      let s1 := s.poke (s.isUc b.x) (b.x.cpol = 1) (bs.map (fun e => (localOf e.x.pa, e.val)))
        ((bs.filter (·.poison)).map (fun e => localOf e.x.pa))
      if region (localOf b.x.pa) = .pci then
        ({ s1 with hostPosted := s1.hostPosted ++ [(s1.hostPostedNext, i)], hostPostedNext := s1.hostPostedNext + 1 },
          [(16, s1.hostPostedNext)])
      else (s1.noteAccesses true i.kind ctx i.unit (bs.map (fun e => localOf e.x.pa)), [])

/-- Write bytes in order, line by line (R359). -/
def State.emit (s : State) (i : Issuer) (ctx : Nat) : Nat → List OutByte → State × List (Nat × Nat)
  | 0, _ => (s, [])
  | _, [] => (s, [])
  | n + 1, b :: bs =>
    let r := runOf (fun e => e.x.near b.x) (b :: bs)
    let w := s.emitRun i ctx r.1
    let q := w.1.emit i ctx n r.2
    (q.1, w.2 ++ q.2)

/-- The ports asked once the byte at `x` is written behind the byte at `last`, if its port accepts what it needs (R361). -/
def State.portStep (s : State) (last : Option Xlat) (asked : List Nat) (x : Xlat) : Option (List Nat) :=
  if !s.isRemote x.pa || last.any x.near then some asked
  else if s.portTakes asked x.pa then some (s.egress (portOf x.pa) :: asked)
  else none

/-- The ports accept all requests that these bytes take (R361). -/
def State.portsTake (s : State) (bs : List OutByte) : Bool :=
  (bs.foldl (fun (r : Option (Option Xlat × List Nat)) b =>
    r.bind (fun q => (s.portStep q.1 q.2 b.x).map (fun asked => (some b.x, asked)))) (some (none, []))).isSome

/-- The posted request is still open. -/
def State.postOpen (s : State) (e : Nat × Nat) : Bool :=
  if e.1 = 16 then s.hostPosted.any (fun h => h.1 = e.2) else (s.port e.1).outstanding.any (fun o => o.id = e.2)

/-! ## Runs of bytes -/

/-- An engine's read under way: the bytes so far, and how it stopped: with a failure at a virtual address, or for want of a
remote byte; then `missing` collects the remote bytes to ask for. `near` holds the bytes found in this package, last first. -/
structure Reading where
  s : State
  reader : Reader
  bytes : List (Byte × Bool) := []
  fail : Option (EngineFail × Nat) := none
  paused : Bool := false
  missing : List Nat := []
  near : List (Nat × Byte × Bool) := []

/-- Read one more byte. -/
def Reading.byte (kind ctx : Nat) (r : Reading) (va : Nat) : Reading :=
  if r.fail.isSome then r
  else if r.paused then { r with missing := r.missing ++ (r.s.farWant r.reader ctx va).toList }
  else
  match r.s.engineByte kind ctx va 1 with
  | (s1, .error e) => { r with s := s1, fail := some (e, va) }
  | (s1, .ok x) =>
    match s1.engineRead x r.reader with
    | .error e => { r with s := s1, fail := some (e, va) }
    | .ok none => { r with s := s1, paused := true, missing := (s1.farWant r.reader ctx va).toList }
    | .ok (some b) => { r with
        s := s1, bytes := r.bytes ++ [b], near := if s1.isRemote x.pa then r.near else (x.pa, b) :: r.near }

/-- A reading ends. One that lacks remote bytes asks for them and is made again; otherwise the bytes that it has found in this package
have been read as strong accesses (R30, R161). -/
def Reading.over (r : Reading) (kind ctx : Nat) : Reading :=
  if r.paused then { r with s := r.s.farAsk r.reader ctx r.missing } else
  let unit := if kind = 0 then none else some (if kind = 1 then r.s.focus.core else 0xC0)
  { r with s := (r.s.noteAccesses false kind ctx unit (r.near.map (fun e => localOf e.1))).farDone r.reader }

/-- Some of the bytes of a reading, as free values choose, have been read in this turn; the rest is read later (R31). -/
def Reading.early (r : Reading) : State :=
  let n := r.s.fresh
  let kept := (r.near.zipIdx.filter (fun e =>
    (Config.freeWord (n + e.2)).getLsbD 0 && (r.s.farByte r.reader e.1.1).isNone)).map (·.1)
  { r.s with
    fresh := n + r.near.length
    far := r.s.far ++ kept.map (fun e => { reader := r.reader, line := e.1 / 128, offsets := [e.1 % 128], request := none, got := [e.2] }) }

/-- Read the bytes at virtual addresses. -/
def State.engineReads (s : State) (kind ctx : Nat) (rd : Reader) (vas : List Nat) : Reading :=
  (vas.foldl (Reading.byte kind ctx) { s := s, reader := rd }).over kind ctx

/-- Read `n` bytes from a virtual address. -/
def State.engineReadRun (s : State) (kind ctx va n : Nat) (rd : Reader) : Reading :=
  s.engineReads kind ctx rd ((List.range n).map (fun i => (va + i) % 2 ^ 64))

/-- Admit the writes of bytes at virtual addresses: their translations, or the first failure; paused while a port is full. `asked`
holds the ports of the requests that the bytes so far take. -/
structure Admitting where
  s : State
  asked : List Nat := []
  out : List OutByte := []
  fail : Option (EngineFail × Nat) := none
  paused : Bool := false

/-- Admit one more byte to write. -/
def Admitting.byte (kind ctx : Nat) (r : Admitting) (e : Nat × Byte × Bool) : Admitting :=
  if r.fail.isSome || r.paused then r else
  match r.s.engineByte kind ctx e.1 2 with
  | (s1, .error f) => { r with s := s1, fail := some (f, e.1) }
  | (s1, .ok x) =>
    match s1.portStep (r.out.head?.map (·.x)) r.asked x with
    | none => { r with s := s1, paused := true }
    | some asked => { r with s := s1, asked := asked, out := ⟨x, e.2.1, e.2.2⟩ :: r.out }

/-- Admit writes, in order. -/
def State.engineAdmit (s : State) (kind ctx : Nat) (bs : List (Nat × Byte × Bool)) : Admitting :=
  let r := bs.foldl (Admitting.byte kind ctx) { s := s }
  { r with out := r.out.reverse }

end Sys2Proof.Machine
end

