-- ==== Sys2Proof/Machine/Keystone.lean ====
section
/-! DEFINITION. Keystone stations (R297 to R316). -/

namespace Sys2Proof.Machine

open Sys2Proof

/-! ## Tags (R297 to R299) -/

def tagCtx (t : W32) : Nat := bits t.toNat 26 6
def tagNo (t : W32) : Nat := bits t.toNat 0 26

def mkTag (ctx u : Nat) : W32 := BitVec.ofNat 32 (ctx % 64 * 2 ^ 26 + u % 2 ^ 26)

/-- The station of a tag (R298). -/
def stationOf (t : W32) : Nat :=
  let n := t.toNat
  bits n 0 7 ^^^ bits n 7 7 ^^^ bits n 14 7 ^^^ bits n 21 7 ^^^ bits n 28 4

/-- The allocated runs of a context's pool: first number and length, rising and disjoint. -/
abbrev Runs := List (Nat × Nat)

def Runs.has (r : Runs) (u : Nat) : Bool := r.any (fun e => decide (e.1 ≤ u ∧ u < e.1 + e.2))

def Runs.total (r : Runs) : Nat := (r.map (·.2)).sum

/-- No number of [b, b + n) is allocated. -/
def Runs.free (r : Runs) (b n : Nat) : Bool := r.all (fun e => decide (e.1 + e.2 ≤ b ∨ b + n ≤ e.1))

/-- The lowest start of a free run of `n` numbers: 0, or the end of an allocated run (R299). -/
def Runs.fit (r : Runs) (n : Nat) : Option Nat :=
  (0 :: r.map (fun e => e.1 + e.2)).find? (fun b => r.free b n && decide (b + n ≤ 2 ^ 20))

/-- Allocate a run, keeping the order. -/
def Runs.add (b n : Nat) : Runs → Runs
  | [] => [(b, n)]
  | e :: r => if e.1 < b then e :: Runs.add b n r else (b, n) :: e :: r

/-- Free the numbers of [b, b + n). -/
def Runs.sub (b n : Nat) (r : Runs) : Runs :=
  r.flatMap (fun e =>
    [(e.1, min (e.1 + e.2) b - e.1), (max e.1 (b + n), e.1 + e.2 - max e.1 (b + n))].filter (fun x => x.2 ≠ 0))

def State.tagPool (s : State) (ctx : Nat) : Runs := sget [] s.tagsUsed ctx

/-- Change a pool; KS_POOL_FREE tracks the free count (R310). -/
def State.setPool (s : State) (ctx : Nat) (r : Runs) : State :=
  { s with tagsUsed := sput [] s.tagsUsed ctx r }.setReg (offCtx ctx + 0x818) (BitVec.ofNat 64 (2 ^ 20 - r.total))

/-- Why a tag is not valid in a context: the CAUSE of R309. -/
def State.tagFail (s : State) (ctx : Nat) (t : W32) : Option Nat :=
  if tagCtx t ≠ ctx then some 0
  else if tagNo t ≥ 2 ^ 20 then some 1
  else if !(s.tagPool ctx).has (tagNo t) then some 2
  else none

/-! ## Destination entries (R300, R301) -/

/-- A word of KDEST[e] of a context. -/
def State.kdest (s : State) (ctx e i : Nat) : Nat := (s.kdestWord ctx e i).toNat

def cdfCop (c : W32) : Nat := bits c.toNat 0 4
def cdfDest (c : W32) : Nat := bits c.toNat 4 4

/-- The target of tag number `u` through entry `e` (R301). -/
def State.ktarget (s : State) (ctx e u : Nat) : Nat :=
  let t := s.kdest ctx e 2
  (((s.kdest ctx e 1 : Nat) : Int) + ((u : Int) - bits t 0 26) * signedOf 32 (bits t 32 32) : Int).emod (2 ^ 64 : Nat) |>.toNat

/-- Follow a chain (R301): the final entry and tag, or the CAUSE and entry that R309 reports; the fuel counts the re-tags
that are left. -/
def State.chain (s : State) (ctx : Nat) : Nat → W32 → W32 → Except (Nat × Nat) (Nat × W32)
  | n, t, c =>
    let e := cdfDest c
    let k := s.kdest ctx e 0
    if !bit k 2 then .error (3, e)
    else if bits k 0 2 ≠ 3 then .ok (e, t)
    else match n with
      | 0 => .error (4, e)
      | m + 1 =>
        let t1 := mkTag ctx (bits (s.ktarget ctx e (tagNo t)) 0 26)
        if (s.tagFail ctx t1).isSome then .error (5, e)
        else s.chain ctx m t1 (BitVec.ofNat 32 (bits k 32 32))

/-- Rank 5 of R309: TAG_INVALID for a tag and a combine field. -/
def State.tagTrap (s : State) (ctx : Nat) (t c : W32) : Option Trap :=
  let mk (cause e : Nat) : Trap := { code := 0x25, addr := t.setWidth 64, info := BitVec.ofNat 32 (cause + e * 16) }
  match s.tagFail ctx t with
  | some k => some (mk k (cdfDest c))
  | none =>
    match s.chain ctx 8 t c with
    | .error (k, e) => some (mk k e)
    | .ok _ => none

/-- The pieces of a global range, one a page. -/
def piecesOf (va : Nat) (xs : List Xlat) : List Piece :=
  (xs.zipIdx.filter (fun e => e.2 = 0 || (va + e.2) % 0x10000 = 0)).map (fun e => ⟨va + e.2, e.1.pa, e.1.leaf⟩)

/-- Translate the record of a final KIND 1 target for write, in a context (R302, R309 rank 6). -/
def State.ktranslate (s : State) (ctx va n : Nat) : State × Except AddrFail (List Piece) :=
  let r := s.translateRange ctx va n 2
  (r.1, r.2.map (piecesOf va))

/-- The translation that an operand carries: none unless its chain ends in KIND 1. -/
def State.ksTarget (s : State) (ctx : Nat) (t c : W32) (len : Nat) : State × Except (AddrFail × Nat) (List Piece) :=
  match s.chain ctx 8 t c with
  | .error _ => (s, .ok [])
  | .ok (e, u) =>
    if bits (s.kdest ctx e 0) 0 2 ≠ 1 then (s, .ok []) else
    let va := s.ktarget ctx e (tagNo u) / 4 * 4
    let r := s.ktranslate ctx va (len + 8)
    (r.1, r.2.mapError (fun x => (x, va)))

/-! ## Combining (R305) -/

/-- One element of a combine, with OVERFLOW; a reserved COP has no result stated, and takes `free` (log 3). -/
def combineEl (cop : Nat) (x y free : W32) : W32 × Bool :=
  let f (r : FRes) : W32 × Bool := (BitVec.ofNat 32 r.1, false)
  match cop with
  | 0 =>
    let v := x.toInt + y.toInt
    let q := max (-(2 ^ 31 - 1 : Int)) (min (2 ^ 31 - 1) v)
    (BitVec.ofInt 32 q, decide (q ≠ v))
  | 1 => f (fp32.add .rne false (fp32.decode false x.toNat) (fp32.decode false y.toNat))
  | 2 => (if x.toInt ≥ y.toInt then x else y, false)
  | 3 => (if x.toInt ≤ y.toInt then x else y, false)
  | 4 => f (fp32.minmax true false x.toNat y.toNat)
  | 5 => f (fp32.minmax false false x.toNat y.toNat)
  | 6 => (x ||| y, false)
  | _ => (free, false)

/-- Combine two runs of elements: the results, and whether any clamps. -/
def combineAll (cop : Nat) (free : Nat → W32) (xs ys : List W32) : List W32 × Bool :=
  let rs := ((xs.zip ys).zipIdx).map (fun e => combineEl cop e.1.1 e.1.2 (free e.2))
  (rs.map (·.1), rs.any (·.2))

/-- COMBINE of R303: `x` waited, `y` arrived. -/
def Operand.combine (x y : Operand) (free : Nat → W32) : Operand :=
  let r := combineAll (cdfCop x.cdf) free x.payload y.payload
  { x with
    payload := r.1
    flags := x.flags ||| y.flags ||| (if r.2 then 2 else 0)
    scope := max x.scope y.scope
    target := if x.target = [] then y.target else x.target
    senders := x.senders ++ y.senders
    sub := x.sub || y.sub
    level := max x.level y.level
    poison := (x.poison ++ y.poison).eraseDups }

/-! ## Counters and senders -/

/-- A counter of the context's Keystone block (R316): 0 ORPHANS, 1 LATES, 2 MISMATCHES, 3 FULLS, 4 DROPPED. -/
def State.ksCount (s : State) (ctx i : Nat) : State := s.incReg (offCtx ctx + 0x820 + 8 * i)

/-- RESULT of a Keystone step (R307). -/
def ksResult (ds : Nat) (fwd : Bool) (station : Nat) : Nat := ds + (if fwd then 8 else 0) + station * 16

/-- Tell a sender how its operand's step ended: its future, the drain or the QGEMV that sent it. -/
def State.tellSender (status result : Nat) (fwd : Bool) (s : State) (d : Sender) : State :=
  let w := statusWord status 3 (resultOf status result (if fwd then 1 else 0))
  match d with
  | .none => s
  | .future r => (s.setProgress r (mkProgress 3 (if fwd then 1 else 0))).resolve r w
  | .drainRow c _ pc row => s.modCore c (fun k => { k with ash := { k.ash with
      queue := modFirst (fun o => o.pc = pc ∧ o.draining) (fun o => { o with rowStatus := o.rowStatus ++ [(row, w)] })
        k.ash.queue } })
  | .gemv c grid id n => s.modTeamBy c grid (fun m => { m with quarry := m.quarry.map (fun o =>
      if o.id ≠ id then o else { o with outcomes := o.outcomes ++ [(n, w)] }) })

/-- Resolve the senders of a step. -/
def State.tell (s : State) (ds : List Sender) (status result : Nat) (fwd : Bool) : State :=
  ds.foldl (State.tellSender status result fwd) s

/-- No sender of an operand is left to be told. -/
def Operand.told (y : Operand) : Bool := y.senders.all (· = .none)

/-- A step that writes and forwards nothing (R61, R307): its senders learn the code; with no sender left, an asynchronous
record says so. KS_DROPPED counts it, unless `drop` says that it has been counted or that it is no drop. -/
def State.ksFail (s : State) (y : Operand) (code ds : Nat) (drop : Bool := true) : State :=
  let s1 := if drop then s.ksCount (tagCtx y.tag) 4 else s
  if !y.told then s1.tell y.senders code (ksResult ds false (stationOf y.tag)) false
  else if y.level = 0 then s1
  else s1.record {
    context := tagCtx y.tag, code := code, master := 3, unit := 0xC0, scope := y.scope
    access := if code = 0x25 then 0 else 2
    progress := some (mkProgress 3 1), addr := y.tag.setWidth 64 }

/-! ## Delivery (R303, R306, R307) -/

/-- The words of a result record: payload, flags, status (R306). -/
def Operand.recordWords (y : Operand) (ds station : Nat) : List W32 :=
  y.payload ++ [y.flags, BitVec.ofNat 32 (ds + (if y.sub then 8 else 0) + cdfCop y.cdf * 16 + station * 2 ^ 8 + y.level * 2 ^ 16)]

/-- What becomes of a scratchpad record at one core (R306). -/
inductive SpFate where
  | written (s : State)
  | dropped
  | held

/-- Write a record in the scratchpad of the team of the operand's grid slot on a core. -/
def State.spRecord (s : State) (y : Operand) (ds station a core : Nat) : SpFate :=
  let ws := y.recordWords ds station
  match s.teamBy core y.gridSlot with
  | none => .dropped
  | some m =>
    if m.spBeyond a (4 * ws.length) then .dropped
    else match (s.core core).slotOf y.gridSlot with
      | none => .held
      | some t =>
        let bs := (bytesOfWords ws).zipIdx.map (fun e => (a + e.2, e.1))
        .written (s.modTeam core t (fun m => m.spWrite bs (y.poison.map (fun i => a + 4 * i))))

/-- Write scratchpad records at every core of a list: the state, the cores that hold theirs back, and whether one is
written. -/
def State.spRecords (y : Operand) (ds station a : Nat) (r : State × List Nat × Bool) (core : Nat) : State × List Nat × Bool :=
  match r.1.spRecord y ds station a core with
  | .written s => (s, r.2.1, true)
  | .dropped => (r.1.ksCount (tagCtx y.tag) 4, r.2)
  | .held => (r.1, r.2.1 ++ [core], r.2.2)

/-- Tell the senders of a record that is written or dropped everywhere (R307). -/
def State.ksFinish (s : State) (y : Operand) (ds station : Nat) (wrote : Bool) (code : Nat := 0x13) : State :=
  if wrote then s.tell y.senders 0 (ksResult ds false station) false
  else s.ksFail y code ds false

/-- The posted numbers that the status word of a record waits for: it is a release at SCOPE (R142, R314). -/
def State.recordMarks (s : State) (y : Operand) : List (Nat × Nat) := if y.scope < 7 then [] else s.marks

/-- KIND 0 and 2: scratchpad records (R306). -/
def State.deliverSp (s : State) (y : Operand) (ds station a : Nat) (cores : List Nat) : State :=
  let marks := s.recordMarks y
  let r := if s.marksMet marks then cores.foldl (State.spRecords y ds station a) (s, [], false) else (s, cores, false)
  if r.2.1 = [] then r.1.ksFinish y ds station r.2.2
  else { r.1 with
    ksHeld := r.1.ksHeld ++ [{ number := s.ksNext, operand := y, station := station, ds := ds, address := a
                               cores := r.2.1, wrote := r.2.2, marks := marks }]
    ksNext := s.ksNext + 1 }

/-- The bytes of a global record through its pieces. -/
def recordBytes (ps : List Piece) (ws : List W32) (poison : List Nat) (va : Nat) : List OutByte :=
  (bytesOfWords ws).zipIdx.map (fun e =>
    let p := ((ps.filter (fun p => p.va ≤ va + e.2)).getLast?).getD ⟨0, 0, 0⟩
    { x := ⟨p.pa + (va + e.2 - p.va), p.leaf⟩, val := e.1, poison := poison.contains (e.2 / 4) })

/-- The next part of a global record, its flag word or its status word, once everything before it has performed (R306). -/
def State.recordStep (s : State) (r : HeldRecord) : State × HeldRecord :=
  let y := r.operand
  let bs := recordBytes y.target (y.recordWords r.ds r.station) y.poison r.address
  let part := (bs.drop (bs.length - r.left)).take 4
  if r.left = 0 ∨ r.posts ≠ [] ∨ r.failed.isSome ∨ (r.left ≤ 4 ∧ !s.marksMet r.marks) ∨ !s.portsTake part then (s, r) else
  let w := s.emit (.keystone r.number) (tagCtx y.tag) 8 part
  (w.1, { r with left := r.left - 4, posts := w.2 })

/-- KIND 1: a global record, in its three parts, each once all before it has performed. None when a port it needs is full. -/
def State.deliverGlobal (s : State) (y : Operand) (ds station va : Nat) (ps : List Piece) : Option State :=
  let ctx := tagCtx y.tag
  let bs := recordBytes ps (y.recordWords ds station) y.poison va
  let far := bs.filter (fun b => s.isRemote b.x.pa)
  let near := bs.filter (fun b => !s.isRemote b.x.pa)
  if far.any (fun b => pkgOf b.x.pa > s.maxpkg) then
    let r := s.unreachable ((far.headD ⟨⟨0, 0⟩, 0, false⟩).x.pa) 0
    some (r.1.ksFail y 0x18 ds)
  else if !s.portsTake (bs.take (bs.length - 8)) then none
  else
    let r := near.foldl (fun (r : State × Bool) b =>
      if r.2 then r.1.admitAll (masterId 3 ctx) 2 [localOf b.x.pa] (r.1.isUc b.x) else r) (s, true)
    if !r.2 then some (r.1.ksFail y 0x15 ds)
    else
      let w := r.1.emit (.keystone s.ksNext) ctx (bs.length + 1) (bs.take (bs.length - 8))
      let h : HeldRecord := {
        number := s.ksNext, operand := { y with target := ps }, station := station, ds := ds, address := va, wrote := true
        posts := w.2, left := 8, marks := s.recordMarks y }
      let flag := w.1.recordStep h
      let q := flag.1.recordStep flag.2
      if q.2.posts = [] ∧ q.2.left = 0 then some (q.1.ksFinish y ds station true)
      else some { q.1 with ksHeld := q.1.ksHeld ++ [q.2], ksNext := s.ksNext + 1 }

/-- The pieces of a KIND 1 target: those the operand carries, or a translation at delivery (R307). -/
def State.ksPieces (s : State) (y : Operand) (va : Nat) : State × Except AddrFail (List Piece) :=
  if (y.target.head?.map (·.va)) = some va then (s, .ok y.target)
  else s.ktranslate (tagCtx y.tag) va (4 * y.payload.length + 8)

/-- DELIVER of R303. None when it cannot take place now. -/
def State.deliver (s : State) (y : Operand) (ds : Nat) : Option State :=
  let ctx := tagCtx y.tag
  let st := stationOf y.tag
  let e := cdfDest y.cdf
  let k := s.kdest ctx e 0
  let s1 := match ds with
    | 2 => s.ksCount ctx 0
    | 3 => s.ksCount ctx 1
    | 4 => s.ksCount ctx 2
    | _ => s
  let target := s1.ktarget ctx e (tagNo y.tag)
  if !bit k 2 then some (s1.ksFail y 0x25 ds) else
  match bits k 0 2 with
  | 0 => some (s1.deliverSp y ds st (target / 4 * 4) [bits k 8 7])
  | 1 =>
    let va := target / 4 * 4
    let r := s1.ksPieces y va
    match r.2 with
    | .error f => some (r.1.ksFail y f.code ds)
    | .ok ps => r.1.deliverGlobal y ds st va ps
  | 2 => some (s1.deliverSp y ds st (target / 4 * 4)
      ((List.range 96).filter (fun c => if c < 64 then bit (s1.kdest ctx e 3) c else bit k (32 + (c - 64)))))
  | _ =>
    let t := mkTag ctx (bits target 0 26)
    if (s1.tagFail ctx t).isSome || y.level + 1 > 8 then some (s1.ksFail y 0x25 ds)
    else some { s1 with ksFlight := s1.ksFlight ++ [{ y with
      tag := t, cdf := BitVec.ofNat 32 (bits k 32 32), sub := y.sub || ds ≠ 1, level := y.level + 1
      master := masterId 3 ctx, origin := some (st, ds) }] }

/-! ## Arrival (R303, R304) -/

def State.station (s : State) (h : Nat) : Station := sget {} s.stations h

def State.modStation (s : State) (h : Nat) (f : Station → Station) : State :=
  { s with stations := sput {} s.stations h (f (s.station h)) }

/-- Entries in use at a station: stored operands, operands it forwards or offers again (R304), and records that wait there. -/
def State.stationLoad (s : State) (h : Nat) : Nat :=
  let from_ (os : List Operand) : Nat := (os.filter (fun o => (o.origin.map (·.1)) = some h)).length
  (s.station h).store.length + from_ s.ksFlight + from_ s.ksRetry + (s.ksHeld.filter (fun r => r.station = h)).length

/-- TIMEOUT of a context in uncore cycles (R303, R313). -/
def State.ksTimeout (s : State) (ctx : Nat) : Nat := max 1024 (s.regBits (offCtx ctx + 0x810) 0 32)

/-- Overflow slots of a context in use. -/
def State.ovfUsed (s : State) (ctx : Nat) : Nat := (s.ksOverflow.filter (fun o => tagCtx o.tag = ctx)).length

/-- Bring KS_OVF_USED up to date. -/
def State.ovfNote (s : State) (ctx : Nat) : State :=
  let n := s.ovfUsed ctx
  let peak := max n (s.regBits (offCtx ctx + 0x848) 16 16)
  s.setReg (offCtx ctx + 0x848) (BitVec.ofNat 64 (n + peak * 2 ^ 16))

/-- What the stations write in an overflow slot is private to them: free values from number `f` on (R304; log 28). -/
def ovfBytes (f : Nat) : List Byte := (List.range 72).flatMap (fun i => bytesOfNat 8 (Config.freeWord (f + i)).toNat)

/-- Put an operand in the lowest free slot of its context's overflow area. -/
def State.ovfPlace (s : State) (o : Operand) : State :=
  let base := (s.reg (offCtx (tagCtx o.tag) + 0x800)).toNat
  let used := (s.ksOverflow.filter (fun x => tagCtx x.tag = tagCtx o.tag)).filterMap (fun x => x.slot.map (·.1))
  let a := ((List.range (used.length + 1)).map (fun n => base + 576 * n)).find? (fun a => !used.contains a)
  let at_ := a.getD base
  let bytes := ((ovfBytes s.fresh).zipIdx.map (fun e => (at_ + e.2, e.1))).filter (fun e => region e.1 = .dram)
  ({ s with
    fresh := s.fresh + 72
    ksOverflow := s.ksOverflow ++ [{ o with since := s.uncore, slot := some (at_, s.fresh) }] }.poke false false bytes []).ovfNote
    (tagCtx o.tag)

/-- Take an operand out of its slot: a poisoned slot poisons it, and one that another has written to leaves its payload free. -/
def State.ovfTake (s : State) (o : Operand) : State × Operand :=
  match o.slot with
  | none => (s, o)
  | some (a, f) =>
    let r := s.peeks false a 576
    let o1 := { o with slot := none, poison := if r.2 then List.range o.payload.length else o.poison }
    if r.1 = ovfBytes f || region a ≠ .dram then (s, o1)
    else ({ s with fresh := s.fresh + o.payload.length },
      { o1 with payload := (List.range o.payload.length).map (fun i => (Config.freeWord (s.fresh + i)).setWidth 32) })

/-- Remove an operand that waits with a tag: the operand, and the state without it. -/
def State.takeWaiting (s : State) (t : W32) : Option (Operand × State) :=
  let h := stationOf t
  match (s.station h).store.find? (fun o => o.tag = t) with
  | some x => some (x, s.modStation h (fun st => { st with store := dropFirst (fun o => o.tag = t) st.store }))
  | none =>
    match s.ksOverflow.find? (fun o => o.tag = t) with
    | some x =>
      let q := ({ s with ksOverflow := dropFirst (fun o => o.tag = t) s.ksOverflow }.ovfNote (tagCtx t)).ovfTake x
      some (q.2, q.1)
    | none => none

/-- An orphan record has not aged past TIMEOUT (R303). -/
def State.orphanFresh (s : State) (e : W32 × Nat) : Bool := decide (s.uncore ≤ e.2 + s.ksTimeout (tagCtx e.1))

/-- The orphan records of a station that have aged past TIMEOUT are gone. -/
def State.dropExpired (s : State) (h : Nat) : State :=
  s.modStation h (fun st => { st with orphans := st.orphans.filter s.orphanFresh })

/-- An orphan record of the tag is held. -/
def State.orphanHeld (s : State) (t : W32) : Bool :=
  (s.station (stationOf t)).orphans.any (fun e => e.1 = t && s.orphanFresh e)

/-- A refused operand of a QGEMV stays with it, to be sent again as it is (R349); one whose operation was cancelled and is gone is
offered again like a forwarded one. -/
def State.keepRefused (s : State) (o : Operand) (d : Sender) : State :=
  match d with
  | .gemv c grid id _ =>
    if !(s.teamBy c grid).any (fun m => m.quarry.any (fun q => q.id = id)) then
      { s with ksRetry := s.ksRetry ++ [{ o with since := s.uncore }] } else
    s.modTeamBy c grid (fun m => { m with quarry := m.quarry.map (fun q =>
      if q.id = id then { q with refused := q.refused ++ [{ o with since := s.uncore }] } else q) })
  | .none | .future _ | .drainRow _ _ _ _ => s.tell [d] 0x81 (ksResult 0 false (stationOf o.tag)) false

/-- REFUSE (R304): a sender learns KS_FULL; a forwarded operand is offered again. -/
def State.refuse (s : State) (o : Operand) : State :=
  let s1 := s.ksCount (tagCtx o.tag) 3
  if o.origin.isSome then { s1 with ksRetry := s1.ksRetry ++ [{ o with since := s.uncore }] }
  else o.senders.foldl (State.keepRefused · o ·) s1

/-- The next station has taken a forwarded operand: the step that forwarded it is over for its senders (R307). -/
def State.taken (s : State) (o : Operand) : State × Operand :=
  match o.origin with
  | some (st, ds) => (s.tell o.senders 0 (ksResult ds true st) true, { o with senders := [], origin := none })
  | none => (s, o)

/-- ARRIVE of R303. None when a delivery it calls for cannot take place now. -/
def State.arrive (s : State) (o : Operand) : Option State :=
  let h := stationOf o.tag
  let ctx := tagCtx o.tag
  let chk := s.atCheck (49 + h) o.master 2 (tagNo o.tag)
  if !chk.2 then some (chk.1.ksFail o 0x15 ((o.origin.map (·.2)).getD 0) o.told) else
  match chk.1.takeWaiting o.tag with
  | some (x, s1) =>
    let q := s1.taken o
    if x.payload.length ≠ o.payload.length ∨ x.cdf ≠ o.cdf then
      (q.1.deliver x 4).bind (fun s2 => s2.deliver q.2 4)
    else
      let free (i : Nat) : W32 := (Config.freeWord (s.fresh + i)).setWidth 32
      { q.1 with fresh := q.1.fresh + (if cdfCop x.cdf < 7 then 0 else x.payload.length) }.deliver (x.combine q.2 free) 1
  | none =>
    let s1 := chk.1.dropExpired h
    if s1.orphanHeld o.tag then
      let q := s1.taken o
      (q.1.modStation h (fun st => { st with orphans := dropFirst (fun e => e.1 = o.tag) st.orphans })).deliver q.2 3
    else if s1.stationLoad h < 64 then
      let q := s1.taken o
      some (q.1.modStation h (fun st => { st with store := st.store ++ [{ q.2 with since := s.uncore }] }))
    else if s1.ovfUsed ctx < s1.regBits (offCtx ctx + 0x810) 32 16 then
      let q := s1.taken o
      some (q.1.ovfPlace q.2)
    else some (s1.refuse o)

/-- R303: the operand in flight that the turn names arrives at its station. -/
def execKsOperandArrive (s : State) : Host.Outcome State Fault Refusal :=
  let n := s.focus.number % max 1 s.ksFlight.length
  match s.ksFlight[n]? with
  | none => .next s
  | some o => .next (({ s with ksFlight := s.ksFlight.eraseIdx n }.arrive o).getD s)

/-- R304: a forwarded operand that was refused is offered again, 1,024 uncore cycles after it last was. -/
def execKsForwardRetry (s : State) : Host.Outcome State Fault Refusal :=
  match s.ksRetry.findIdx? (fun o => s.uncore ≥ o.since + 1024) with
  | none => .next s
  | some n =>
    match s.ksRetry[n]? with
    | none => .next s
    | some o => .next (({ s with ksRetry := s.ksRetry.eraseIdx n }.arrive o).getD s)

/-- The operand has waited for TIMEOUT. -/
def State.ksDue (s : State) (o : Operand) : Bool := decide (s.uncore ≥ o.since + s.ksTimeout (tagCtx o.tag))

/-- Hold an orphan record; a 65th displaces the oldest (R303). -/
def Station.addOrphan (st : Station) (t : W32) (now : Nat) : Station :=
  let l := if st.orphans.length ≥ 64 then st.orphans.drop 1 else st.orphans
  { st with orphans := l ++ [(t, now)] }

/-- R303: an operand older than TIMEOUT is delivered alone, and an orphan record is held. -/
def execKsOrphanTimeout (s : State) : Host.Outcome State Fault Refusal :=
  match (s.stations.flatMap (fun e => e.2.store) ++ s.ksOverflow).find? s.ksDue with
  | none => .next s
  | some x =>
    match s.takeWaiting x.tag with
    | none => .next s
    | some (y, s1) =>
      let h := stationOf y.tag
      .next ((((s1.dropExpired h).modStation h (fun st => st.addOrphan y.tag s.uncore)).deliver y 2).getD s)

/-- R303: orphan records older than TIMEOUT are discarded. -/
def execKsOrphanRecordExpiry (s : State) : Host.Outcome State Fault Refusal :=
  .next { s with stations := s.stations.foldl (fun m e => sput {} m e.1 { e.2 with
    orphans := e.2.orphans.filter s.orphanFresh }) [] }

/-- Write what a held record can write now. -/
def State.ksRelease (s : State) (r : HeldRecord) : State :=
  let r0 := { r with posts := r.posts.filter s.postOpen }
  let w := if s.marksMet r.marks then r.cores.foldl (State.spRecords r.operand r.ds r.station r.address) (s, [], r.wrote)
    else (s, r.cores, r.wrote)
  let flag := w.1.recordStep { r0 with cores := w.2.1, wrote := w.2.2 }
  let q := flag.1.recordStep flag.2
  let r1 := q.2
  if r1.cores = [] ∧ r1.posts = [] ∧ (r1.left = 0 ∨ r1.failed.isSome) then
    let s1 : State := { q.1 with ksHeld := q.1.ksHeld.filter (fun h => h.number ≠ r.number) }
    match r1.failed with
    | some c => s1.ksFail r.operand c r.ds
    | none => s1.ksFinish r.operand r.ds r.station r1.wrote
  else { q.1 with ksHeld := q.1.ksHeld.map (fun h => if h.number = r.number then r1 else h) }

/-- A held record has something to write, or is over. -/
def State.ksMoves (s : State) (r : HeldRecord) : Bool :=
  (s.marksMet r.marks || decide (r.cores = [] ∧ r.left ≠ 4)) && (r.cores.any (fun c => ((s.core c).slotOf r.operand.gridSlot).isSome
    || (s.teamBy c r.operand.gridSlot).isNone) || (r.cores = [] && r.posts.all (fun p => !s.postOpen p)))

/-- R306, R307: a record that was held is written where it can be now. -/
def execKsRecordDeferredWrite (s : State) : Host.Outcome State Fault Refusal :=
  match s.ksHeld.find? s.ksMoves with
  | none => .next s
  | some r => .next (s.ksRelease r)

/-- A posted write of a record was acknowledged, or failed with a code. -/
def State.ksAck (s : State) (n : Nat) (fail : Option Nat) : State :=
  match s.ksHeld.find? (fun r => r.number = n) with
  | none => s
  | some r => s.ksRelease { r with failed := if r.failed.isSome then r.failed else fail }

/-! ## The words (R308 to R313) -/

/-- Shape of the Keystone words. -/
def ksShape (op : Nat) (dst : Option Use) (srcs : List Use) (bad : List (Nat × Bool)) : Shape where
  op := op
  roles := [1, 2, 3]
  dst := dst
  srcs := srcs
  bad := bad

/-- R310 TAGA. -/
def execTaga (f : Full) (s : State) : Host.Outcome State Fault Refusal :=
  let sh := ksShape 0xC0 (some (useD f .scalar)) [asyncB f] [(0, f.fn ≠ 0)]
  issue sh f s (fun s act =>
    match s.poisonTrap sh.srcs act with
    | some t => .trap t
    | none =>
      let n := bits (s.src f (asyncB f)).toNat 0 32
      let r := s.tagPool s.ownCtx
      match (if n = 0 ∨ n > 65536 then none else r.fit n) with
      | none => .retire { s := s, result := some { vals := [(0, 0xFFFFFFFF)] } }
      | some b => .retire {
          s := s.setPool s.ownCtx (r.add b n)
          result := some { vals := [(0, (mkTag s.ownCtx b).setWidth 64)] } })

/-- Why a run of TAGF is not valid (R297, R310). -/
def State.tagfFail (s : State) (ctx : Nat) (t : W32) (n : Nat) : Option Trap :=
  let mk (cause : Nat) : Trap := { code := 0x25, addr := t.setWidth 64, info := BitVec.ofNat 32 cause }
  if n = 0 then none
  else if tagCtx t ≠ ctx then some (mk 0)
  else if tagNo t + n > 2 ^ 20 then some (mk 1)
  else if (List.range n).all (fun i => (s.tagPool ctx).has (tagNo t + i)) then none
  else some (mk 2)

/-- R310 TAGF. -/
def execTagf (f : Full) (s : State) : Host.Outcome State Fault Refusal :=
  let sh := ksShape 0xC1 none [asyncA f, asyncB f] [(0, f.fn ≠ 0)]
  issue sh f s (fun s act =>
    match s.poisonTrap sh.srcs act with
    | some t => .trap t
    | none =>
      let t : W32 := (s.src f (asyncA f)).setWidth 32
      let n := bits (s.src f (asyncB f)).toNat 0 32
      match s.tagfFail s.ownCtx t n with
      | some x => .trap x
      | none => .retire { s := s.setPool s.ownCtx ((s.tagPool s.ownCtx).sub (tagNo t) n) })

/-- Rank 4 of R309 for a combine field: a reserved COP, or a bit of [31:8]. -/
def badCdf (c : W32) : Bool := cdfCop c > 6 || bits c.toNat 8 24 ≠ 0

/-- Send one operand (R311), after ranks 4 to 6 of R309. -/
def State.sendWord (s : State) (f : Full) (act : Lanes) (payload : List W32) (poison : List Nat) : Effect :=
  let ctx := s.ownCtx
  let b := s.src f (asyncB f)
  let t : W32 := b.setWidth 32
  let c : W32 := b.extractLsb' 32 32
  if badCdf c then .trap { code := 0x02, info := 3 } else
  match s.tagTrap ctx t c with
  | some x => .trap x
  | none =>
    match s.ksTarget ctx t c (4 * payload.length) with
    | (s1, .error (e, va)) => .trapFrom s1 { code := e.code, addr := BitVec.ofNat 64 va, info := BitVec.ofNat 32 e.info, access := 2 }
    | (s1, .ok ps) =>
      let o : Operand := {
        tag := t, payload := payload, flags := (s.src f (asyncC f)).setWidth 32, cdf := c, scope := bits f.fn.toNat 7 4
        gridSlot := s.ownTeam.gridSlot, target := ps, poison := poison, master := masterId 0 ctx }
      s1.startAsync f act 3 (bits f.fn.toNat 7 4) (fun _ => true) (fun s h =>
        let from_ : List Sender := match h with
          | some h => [.future (s.ownRef h)]
          | none => []
        let s2 : State := { s with ksFlight := s.ksFlight ++ [{ o with senders := from_ }] }
        s2.noteProgress s.focus.core s.ownTeam.gridSlot h 3 0)

/-- SCOPE outside 2 to 9. -/
def ksBadScope (f : Full) : Bool := bits f.fn.toNat 7 4 < 2 || bits f.fn.toNat 7 4 > 9

/-- The shape of KSEND (R311). -/
def ksendShape (f : Full) : Shape :=
  let sh0 := ksShape 0xC2 (some (asyncD f)) [asyncA f, asyncB f, asyncC f] [(7, ksBadScope f)]
  { sh0 with scope := bits f.fn.toNat 7 4, behind := true }

/-- R311 KSEND. -/
def execKsend (f : Full) (s : State) : Host.Outcome State Fault Refusal :=
  let sh := ksendShape f
  issue sh f s (fun s act =>
    match s.poisonTrap sh.srcs act with
    | some t => .trap t
    | none =>
      let n := bits f.fn.toNat 0 7 + 1
      let a := bits (s.src f (asyncA f)).toNat 0 32 / 4 * 4
      let m := s.ownScratch
      if m.spBeyond a (4 * n) then .trap (m.spRange a)
      else s.sendWord f act (m.spWords a n) ((List.range n).filter (fun i => m.spPoisoned (a + 4 * i) 4)))

/-- The shape of KSENDS (R311). -/
def ksendsShape (f : Full) : Shape :=
  let sh0 := ksShape 0xC3 (some (asyncD f)) [asyncA f, asyncB f, asyncC f]
    [(7, ksBadScope f), (0, bits f.fn.toNat 1 6 ≠ 0)]
  { sh0 with scope := bits f.fn.toNat 7 4 }

/-- R311 KSENDS. -/
def execKsends (f : Full) (s : State) : Host.Outcome State Fault Refusal :=
  let sh := ksendsShape f
  issue sh f s (fun s act =>
    match s.poisonTrap sh.srcs act with
    | some t => .trap t
    | none =>
      let a := s.src f (asyncA f)
      s.sendWord f act (if f.fn.getLsbD 0 then [a.setWidth 32, a.extractLsb' 32 32] else [a.setWidth 32]) [])

/-- R312 KSTAT, MODE 0. -/
def execKstat (f : Full) (s : State) : Host.Outcome State Fault Refusal :=
  let a := asyncA f
  let sh := ksShape 0xC4 (some (useD f .scalar)) [a] [(0, !fnOnly f 1)]
  issue sh f s (fun s act =>
    match s.poisonTrap [a] act with
    | some t => .trap t
    | none => s.statWord f 3)

/-- R312 KSTAT, MODE 1. -/
def execKstatCtr (f : Full) (s : State) : Host.Outcome State Fault Refusal :=
  let sh := ksShape 0xC4 (some (useD f .scalar)) [asyncB f] [(0, !fnOnly f 1)]
  issue sh f s (fun s act =>
    match s.poisonTrap sh.srcs act with
    | some t => .trap t
    | none =>
      let sel := bits (s.src f (asyncB f)).toNat 0 8
      let base := offCtx s.ownCtx
      let v : Word :=
        if sel < 5 then s.reg (base + 0x820 + 8 * sel)
        else if sel = 5 then s.reg (base + 0x848)
        else if sel = 6 then s.reg (base + 0x818) else 0
      .retire { s := s, result := some { vals := [(0, v)] } })

/-- The limits of a destination entry's image (R300, R313). -/
def kdestBad (d : List W32) : Option Nat :=
  let kind := bits (dsc d 0) 0 2
  let next := dsc d 1
  firstBad [
    reservedAt 0x00 (dsc d 0 &&& 0xFFFF80F8),
    badAt 0x01 (bits (dsc d 0) 8 7 > 95),
    if kind = 3 then firstBad [reservedAt 0x04 (next &&& 0xFFFFFF00), badAt 0x04 (bits next 0 4 > 6)]
    else if kind = 2 then none else reservedAt 0x04 next,
    if kind = 1 then reservedAt 0x0C (dsc d 3 &&& 0xFF000000)
    else if kind = 3 then
      (if dsc d 2 &&& 0xFC000000 ≠ 0 then reservedAt 0x08 (dsc d 2 &&& 0xFC000000) else reservedAt 0x0C (dsc d 3))
    else reservedAt 0x0C (dsc d 3),
    reservedAt 0x10 (dsc d 4 &&& 0xFC000000),
    if kind = 2 then none else
      (if dsc d 6 ≠ 0 then reservedAt 0x18 (dsc d 6) else reservedAt 0x1C (dsc d 7))]

/-- R313 KCFG, ITEM 0: the image goes into KDEST[B[3:0]]. -/
def execKcfgDest (f : Full) (s : State) : Host.Outcome State Fault Refusal :=
  let sh := { ksShape 0xC5 none [asyncA f, asyncB f] [(0, !fnOnly f 3)] with behind := true }
  issue sh f s (fun s act =>
    match s.poisonTrap sh.srcs act with
    | some t => .trap t
    | none =>
      let a := bits (s.src f (asyncA f)).toNat 0 32
      let b := bits (s.src f (asyncB f)).toNat 0 32
      let m := s.ownScratch
      let d := m.spWords a 8
      if m.spBeyond a 32 then .trap (m.spRange a)
      else if m.spPoisoned a 32 then .trap { code := 0x17, info := f.a.setWidth 32 }
      else match kdestBad d with
        | some off => .trap (fieldTrap off)
        | none =>
          if b ≥ 16 then .trap { code := 0x02, info := 3 }
          else
            let base := offCtx s.ownCtx + 0x900 + 32 * b
            .retire { s := ((List.range 4).zip (words8 d)).foldl (fun (s : State) e => s.setReg (base + 8 * e.1) e.2) s })

/-- Set a field of KS_CFG of the issuing context. -/
def State.setKsCfg (s : State) (lo n v : Nat) : State :=
  let o := offCtx s.ownCtx + 0x810
  let w := (s.reg o).toNat
  s.setReg o (BitVec.ofNat 64 (w - bits w lo n * 2 ^ lo + v % 2 ^ n * 2 ^ lo))

/-- R313 KCFG, ITEM 1. -/
def execKcfgTmo (f : Full) (s : State) : Host.Outcome State Fault Refusal :=
  let sh := ksShape 0xC5 none [asyncB f] [(0, !fnOnly f 3)]
  issue sh f s (fun s act =>
    match s.poisonTrap sh.srcs act with
    | some t => .trap t
    | none => .retire { s := s.setKsCfg 0 32 (bits (s.src f (asyncB f)).toNat 0 32) })

/-- R313 KCFG, ITEM 2; ITEM 3 is reserved. -/
def execKcfgOvf (f : Full) (s : State) : Host.Outcome State Fault Refusal :=
  let sh := ksShape 0xC5 none [asyncB f] [(0, !fnOnly f 3 || f.fn.getLsbD 0)]
  issue sh f s (fun s act =>
    match s.poisonTrap sh.srcs act with
    | some t => .trap t
    | none =>
      let lim := s.regBits (offCtx s.ownCtx + 0x808) 0 16
      .retire { s := s.setKsCfg 32 16 (min (bits (s.src f (asyncB f)).toNat 0 32) lim) })

end Sys2Proof.Machine
end

