-- ==== Sys2Proof/Machine/Ashlar.lean ====
section
/-! DEFINITION. The Ashlar matrix engine (R268 to R295): its arithmetic, its operations in engine order, and its words. -/

namespace Sys2Proof.Machine

open Sys2Proof

/-! ## The plinth (R268, R280) -/

def Ashlar.el (a : Ashlar) (tile m j : Nat) : W32 := sget 0 a.plinth (tile * 16384 + m * 128 + j)

def Ashlar.setEl (a : Ashlar) (tile m j : Nat) (w : W32) (poison : Bool) : Ashlar :=
  let k := tile * 16384 + m * 128 + j
  { a with plinth := sput 0 a.plinth k w, plinthPoison := setPoison a.plinthPoison k poison }

def Ashlar.elPoison (a : Ashlar) (tile m j : Nat) : Bool := a.plinthPoison.contains (tile * 16384 + m * 128 + j)

/-- Where an accumulator stands: plinth tile, or scratchpad address and row stride; and its kind (R280). -/
structure AccRef where
  sp : Bool
  tile : Nat
  addr : Nat
  stride : Nat
  int : Bool
  deriving DecidableEq, Repr

/-- What a running operation works on: the engine and its team; the scratchpad bytes that it has computed and not yet written,
latest first; the flags that its row has so far: NONFINITE, OVERFLOW and, above them, poison; and what it has counted. -/
structure Ash where
  e : Ashlar
  m : Team
  out : List SpUnit := []
  flags : Nat := 0
  counts : DrainCounts := {}

/-! ## Operand windows (R284, R285) -/

/-- The scratchpad as operand reads find it whose window takes in write number `window` and those after it: each byte holds what
it holds now or anything that it has held in the window (R284). `n` numbers the free values. -/
def Team.seen (m : Team) (window n : Nat) : Team :=
  let es := m.spOld.takeWhile (fun e => decide (window ≤ e.seq))
  let picks := (es.map (·.addr)).eraseDups.filterMap (fun a =>
    let xs := es.filter (fun e => e.addr = a)
    xs[(Config.freeWord (n + a)).toNat % (xs.length + 1)]?)
  if picks = [] then m else m.spSet (picks.map (fun e => (e.addr, e.byte))) ((picks.filter (·.poison)).map (·.addr))

/-- The bytes of units that lie in no order, and the poisoned ones. -/
def SpUnit.cells (u : SpUnit) : List (Nat × Byte) := u.bytes.zipIdx.map (fun e => (u.addr + e.2, e.1))
def SpUnit.bad (u : SpUnit) : List Nat := if u.poison then (List.range u.bytes.length).map (u.addr + ·) else []

def SpUnit.meets (u : SpUnit) (a n : Nat) : Bool := decide (u.addr < a + n ∧ a < u.addr + u.bytes.length)

/-- Engine writes of units, oldest first. No later operation finds what these bytes held before, since it observes every effect
of this one (R270). -/
def Team.spLand (m : Team) (us : List SpUnit) : Team :=
  if us = [] then m else
  { m.spSet (us.flatMap SpUnit.cells) (us.flatMap SpUnit.bad) with
    spOld := m.spOld.filter (fun e => !us.any (fun u => u.meets e.addr 1)) }

/-- Everything computed is written. -/
def Ash.land (x : Ash) : Ash := { x with m := x.m.spLand x.out.reverse, out := [] }

/-- Some of what is computed is written: the units that free values from number `n` choose, each after the earlier ones that
it overlaps. -/
def Ash.landSome (x : Ash) (n : Nat) : Ash :=
  let r := x.out.reverse.zipIdx.foldl (fun (r : List SpUnit × List SpUnit) e =>
    if (Config.freeWord (n + e.2)).getLsbD 0 && !r.2.any (fun u => u.meets e.1.addr e.1.bytes.length) then (r.1 ++ [e.1], r.2)
    else (r.1, r.2 ++ [e.1])) ([], [])
  { x with m := x.m.spLand r.1, out := r.2.reverse }

/-- What element `k` of an operation reads: the scratchpad within the operand window, under what the operation itself has
computed for the bytes at `ranges`. `n` numbers the operation's free values. -/
def Ash.view (x : Ash) (window n k : Nat) (ranges : List (Nat × Nat)) : Ash :=
  let mine := x.out.reverse.filter (fun u => ranges.any (fun r => u.meets r.1 r.2))
  let m := x.m.seen window (n + 2 ^ 21 * (k + 1))
  { x with m := if mine = [] then m else m.spSet (mine.flatMap SpUnit.cells) (mine.flatMap SpUnit.bad) }

/-- An element's bytes are to be written, each byte by itself. -/
def Ash.give (x : Ash) (a : Nat) (bs : List Byte) (poison : Bool) : Ash :=
  { x with out := bs.zipIdx.foldl (fun l e => ⟨a + e.2, [e.1], poison⟩ :: l) x.out }

/-! ## Accumulators (R280) -/

/-- The bits of accumulator element (m, j): 32 on the float path, 48 on the integer path; and its poison. -/
def Ash.acc (x : Ash) (r : AccRef) (m j : Nat) : Nat × Bool :=
  if r.sp then
    let a := r.addr + m * r.stride + accBytes r.int * j
    (natOfBytes (x.m.scratch.read a (if r.int then 6 else 4)), x.m.spPoisoned a (accBytes r.int))
  else if r.int then
    ((x.e.el r.tile m j).toNat + bits (x.e.el (r.tile + 1) m j).toNat 0 16 * 2 ^ 32,
      x.e.elPoison r.tile m j || x.e.elPoison (r.tile + 1) m j)
  else ((x.e.el r.tile m j).toNat, x.e.elPoison r.tile m j)

/-- Write accumulator element (m, j), in scratchpad single-copy atomically (R285). -/
def Ash.setAcc (x : Ash) (r : AccRef) (m j v : Nat) (poison : Bool) : Ash :=
  if r.sp then
    let a := r.addr + m * r.stride + accBytes r.int * j
    let w := if r.int then ((BitVec.ofNat 48 v).signExtend 64).toNat else v
    { x with out := ⟨a, bytesOfNat (accBytes r.int) w, poison⟩ :: x.out }
  else if r.int then
    { x with e := ((x.e.setEl r.tile m j (BitVec.ofNat 32 v) poison).setEl (r.tile + 1) m j
      ((BitVec.ofNat 16 (v / 2 ^ 32)).signExtend 32) poison) }
  else { x with e := x.e.setEl r.tile m j (BitVec.ofNat 32 v) poison }

/-! ## Elements (R204, R274) -/

/-- Element `c` of a packed row that starts at address `a`. -/
def Team.element (m : Team) (fmt a c : Nat) : Nat :=
  let b := wBits fmt
  if b = 4 then bits (m.scratch.byte (a + c / 2)).toNat (4 * (c % 2)) 4
  else natOfBytes (m.scratch.read (a + c * (b / 8)) (b / 8))

/-- The type code of R208 for a float WFMT or AFMT. -/
def fmtType (fmt : Nat) : Nat :=
  match fmt with
  | 0 => 2
  | 1 => 3
  | 2 => 4
  | _ => 5

/-- The value of an element code of a float format. -/
def elValue (fmt x : Nat) : FVal := typeValue (fmtType fmt) false x

/-- A weight in units of 2^-6 (R283). -/
def weightUnits (wfmt x : Nat) : Int := if wfmt = 4 then pp8Units x else signedOf 8 x * 64

/-! ## Streams (R281 to R283) -/

/-- The activation column of term `i` (R279). -/
def StreamShape.col (x : StreamShape) (map : BitVec 256) (i : Nat) : Nat :=
  if x.dup then (if x.koff + i < 128 then x.koff + i else mapEntry map (x.koff + i - 128)) else i

/-- The weight of term `i` of output column `j`: its code, and its block's scale code. -/
def Plane.term (p : Plane) (tr : Bool) (i j : Nat) : Nat × Nat :=
  let k := if tr then j else i
  let n := if tr then i else j
  (sget 0 p.weights (128 * k + n), if p.blen = 0 then 0x3C else sget 0 p.scales (16 * n + k / blockLen p.blen))

/-- E5M2 value of a scale code (0x3C is 1.0). -/
def scaleValue (x : Nat) : FVal := e5m2.decode false x

/-- An element's value with its block scale (R204): a NaN, or 0 × infinity, is NaN. -/
def scaledValue (v s : FVal) : FVal := if s.isNan then .nan false else (v.mul s).getD (.nan false)

/-- NONFINITE(G): the exact sum of the products, infinities and NaNs as R282 says. -/
def nonfinite (ps : List (Option FVal)) : FVal :=
  if ps.any (fun p => p.isNone || (p.map FVal.isNan).getD false) then .nan false
  else (exactSum .rne (ps.filterMap id)).getD (.nan false)

/-- The contribution of one 8-group, as an FP32 code: pairs of activation and weight values, and the two scales. -/
def groupSum (terms : List (FVal × FVal)) (sa sw : FVal) : Nat :=
  let fin (v : FVal) : Bool := !v.isNan && !v.isInf
  if fin sa && fin sw && terms.all (fun t => fin t.1 && fin t.2) then
    let s := (exactSum .rne (terms.filterMap (fun t => t.1.mul t.2))).getD (.fin false 0 0)
    let p := ((s.mul sa).bind (fun q => q.mul sw)).getD (.fin false 0 0)
    (fp32.roundVal .rne false p).1
  else
    let v := nonfinite (terms.map (fun t =>
      let x := scaledValue t.1 sa
      let y := scaledValue t.2 sw
      if x.isNan || y.isNan then none else x.mul y))
    (fp32.roundVal .rne false v).1

/-- FP32 addition and multiplication of codes, NaN results canonical. -/
def f32add (x y : Nat) : Nat := (fp32.add .rne false (fp32.decode false x) (fp32.decode false y)).1
def f32mul (x y : FVal) : Nat := (fp32.mul .rne false x y).1

/-- What a stream works with: its shape and descriptor, plane and map; `free` is the number of its first free value, when it
found at its firing a plane or a map for which the manual states no result (R279, R294; log 3). -/
structure Stream where
  x : StreamShape
  d : List W32
  p : Plane
  map : BitVec 256
  free : Option Nat := none

/-- Activation code and block-scale code of row `m`, column `c`. -/
def Stream.act (q : Stream) (t : Team) (m c : Nat) : Nat × Nat :=
  (t.element (if q.x.afmt = 4 then 1 else q.x.afmt) (dsc q.d 0 + m * dsc q.d 2) c,
   if q.x.ablen = 0 || !scaled q.x.afmt then 0x3C
   else (t.scratch.byte (dsc q.d 3 + m * blocksOf q.x.ablen q.x.ka + c / blockLen q.x.ablen)).toNat)

/-- Some activation that row `m` reads is poisoned. -/
def Stream.rowPoison (q : Stream) (t : Team) (m : Nat) : Bool :=
  let a := dsc q.d 0 + m * dsc q.d 2
  let nb := blocksOf q.x.ablen q.x.ka
  (List.range q.x.terms).any (fun i =>
      let c := q.x.col q.map i
      t.spPoisoned (a + c * wBits q.x.afmt / 8) (max 1 (wBits q.x.afmt / 8)))
    || (q.x.ablen ≠ 0 && scaled q.x.afmt && q.x.terms ≠ 0 && t.spPoisoned (dsc q.d 3 + m * nb) nb)

/-- The float result r of output (m, j), before it meets the accumulator (R281). -/
def Stream.float (q : Stream) (t : Team) (m j : Nat) : Nat :=
  let groups := (q.x.terms + 7) / 8
  let r := (List.range groups).foldl (fun r g =>
    let is := (List.range 8).map (8 * g + ·) |>.filter (· < q.x.terms)
    let sa := scaleValue (q.act t m (q.x.col q.map (8 * g))).2
    let sw := scaleValue (q.p.term q.x.tr (8 * g) j).2
    f32add r (groupSum (is.map (fun i =>
      (elValue q.x.afmt (q.act t m (q.x.col q.map i)).1, elValue q.p.wfmt (q.p.term q.x.tr i j).1))) sa sw)) 0
  f32mul (fp32.decode false r) (bf16.decode false q.p.tscale.toNat)

/-- The exact integer sum of output (m, j), with 6 fractional bits (R283). -/
def Stream.int (q : Stream) (t : Team) (m j : Nat) : Int :=
  ((List.range q.x.terms).map (fun i =>
    signedOf 8 (q.act t m (q.x.col q.map i)).1 * weightUnits q.p.wfmt (q.p.term q.x.tr i j).1)).sum

/-- SAT48 (R283). -/
def sat48 (v : Int) : Int := max (-(2 ^ 47 - 1)) (min (2 ^ 47 - 1) v)

/-- Where the stream accumulates (R278, R280). -/
def Stream.ref (q : Stream) : AccRef := ⟨q.x.sp, q.x.tile, dsc q.d 5, dsc q.d 6, q.x.isInt⟩

/-- Accumulate output (m, j) (R281, R283), whose operands are read from `v`. -/
def Stream.output (q : Stream) (v y : Ash) (m j : Nat) : Ash :=
  let t := v.m
  let bad := q.rowPoison t m
  let old := v.acc q.ref m j
  let poison := bad || q.p.poison || (!q.x.zero && old.2)
  let open_ (v : Nat) : Nat := q.free.elim v (fun n => (Config.freeWord (n + 128 * m + j)).toNat)
  if q.x.terms = 0 ∧ ¬ q.x.zero then y
  else if q.x.isInt then
    let v := if q.free.isSome then signedOf 48 (open_ 0) else q.int t m j
    y.setAcc q.ref m j (lowBits 48 (sat48 (if q.x.zero then v else signedOf 48 old.1 + v))) poison
  else
    let r := open_ (q.float t m j) % 2 ^ 32
    y.setAcc q.ref m j (if q.x.zero then r else f32add old.1 r) poison

/-- Accumulate output number `k`, counted by rows; `n` numbers the free values. -/
def Stream.element (q : Stream) (window n : Nat) (y : Ash) (k : Nat) : Ash :=
  q.output (y.view window n k []) y (k / q.x.width) (k % q.x.width)

/-- The stream of an operation against the engine's planes; `n` numbers the free values. -/
def AshOp.stream (o : AshOp) (e : Ashlar) (n : Nat) : Stream where
  x := streamShape o.fn o.desc e.active.shape
  d := o.desc
  p := e.active
  map := e.dmap
  free := if (firstBad (sdAgainst o.fn o.desc ⟨e.active.shape, e.shadow.shape, e.dmap⟩)).isSome then some n else none

/-! ## Loading (R274, R275) -/

/-- The plane that MLDW loads. -/
def AshOp.plane (o : AshOp) (t : Team) : Plane :=
  let s := wdShape o.fn o.desc
  let d := o.desc
  let west := o.fn.getLsbD 0
  let at_ (r c : Nat) : Nat := t.element (if s.wfmt > 3 then 1 else s.wfmt) (dsc d 0 + r * dsc d 2) c
  let nb := blocksOf s.blen s.k
  let cells := (List.range s.k).flatMap (fun k => (List.range s.n).map (fun n => (k, n)))
  let rows := bits (dsc d 1) 0 9
  let width := rowBytes (if s.wfmt > 3 then 1 else s.wfmt) (bits (dsc d 1) 16 9)
  { rows := s.k, cols := s.n, wfmt := s.wfmt, blen := s.blen
    weights := cells.foldl (fun w e => sput 0 w (128 * e.1 + e.2) (if west then at_ e.2 e.1 else at_ e.1 e.2)) []
    scales := if s.blen = 0 then [] else
      (List.range s.n).foldl (fun w n => (List.range nb).foldl (fun w b =>
        sput 0 w (16 * n + b) (t.scratch.byte (dsc d 3 + n * nb + b)).toNat) w) []
    tscale := BitVec.ofNat 16 (dsc d 4)
    poison := (List.range rows).any (fun r => width ≠ 0 && t.spPoisoned (dsc d 0 + r * dsc d 2) width)
      || (s.blen ≠ 0 && s.n * nb ≠ 0 && t.spPoisoned (dsc d 3) (s.n * nb)) }

/-! ## Drain and apply (R286 to R288, R290) -/

/-- Source accumulator of a drain or apply. -/
def AshOp.src (o : AshOp) : AccRef :=
  ⟨bit (dsc o.desc 0) 0, bits (dsc o.desc 0) 1 3, dsc o.desc 1, dsc o.desc 2, bit (dsc o.desc 0) 4⟩

def AshOp.dm (o : AshOp) : Nat := bits (dsc o.desc 3) 0 9
def AshOp.dn (o : AshOp) : Nat := bits (dsc o.desc 3) 16 9
def AshOp.cs (o : AshOp) : Bool := bit (dsc o.desc 0) 5
def AshOp.dfmt (o : AshOp) : Nat := o.f 0 3
def AshOp.ef (o : AshOp) : Bool := o.fn.getLsbD 3
def AshOp.ks (o : AshOp) : Bool := o.op = 0xB4 && o.fn.getLsbD 5
def AshOp.clr (o : AshOp) : Bool := if o.op = 0xB4 then o.fn.getLsbD 4 else o.fn.getLsbD 0

/-- Bytes of a drained element. -/
def dfmtBytes (d : Nat) : Nat := if d = 1 ∨ d = 2 then 2 else if d = 3 ∨ d = 4 then 1 else 4

/-- The type code of a DFMT other than `.iqs`. -/
def dfmtType (d : Nat) : Nat :=
  match d with
  | 0 => 0
  | 1 => 2
  | 2 => 1
  | 3 => 3
  | 4 => 4
  | _ => 12

/-- One drained element: its output code, the new error-buffer word with EF, whether v is NaN or infinite, whether SAT_OUT
counts it, NONFINITE and OVERFLOW of `.iqs`, and its poison. -/
structure DrainEl where
  out : Nat
  err : Nat := 0
  nan : Bool := false
  inf : Bool := false
  sat : Bool := false
  nf : Bool := false
  ov : Bool := false
  poison : Bool := false
  deriving DecidableEq, Repr

/-- The value v of element (m, n) of the source (R287), and its poison. -/
def AshOp.drainVal (o : AshOp) (y : Ash) (m n : Nat) : FVal × Bool :=
  let a := y.acc o.src m n
  if o.src.int then
    let v := fvalOf (signedOf 48 a.1) (-6)
    if o.cs then
      let b := dsc o.desc 6 + 2 * n
      ((v.mul (bf16.decode false (natOfBytes (y.m.scratch.read b 2)))).getD (.nan false), a.2 || y.m.spPoisoned b 2)
    else (v, a.2)
  else (fp32.decode false a.1, a.2)

/-- Drain element (m, n) (R287). -/
def AshOp.drainEl (o : AshOp) (y : Ash) (m n : Nat) : DrainEl :=
  let v := o.drainVal y m n
  let x := v.1.scale (expOf o.bval)
  let finite := !v.1.isNan && !v.1.isInf
  let full := o.src.int && (decide (signedOf 48 (y.acc o.src m n).1 = 2 ^ 47 - 1)
    || decide (signedOf 48 (y.acc o.src m n).1 = -(2 ^ 47 - 1)))
  let base : DrainEl := { out := 0, nan := v.1.isNan, inf := v.1.isInf, poison := v.2 }
  if o.ef then
    let b := dsc o.desc 6 + 4 * (m * o.dn + n)
    let e := fp32.decode false (natOfBytes (y.m.scratch.read b 4))
    let q := efqRes (if o.dfmt = 3 then 1 else 2) .rne false (expOf o.bval) v.1 e
    { base with out := q.2.1, err := q.1, sat := finite && (q.2.2 &&& flO) ≠ 0, poison := v.2 || y.m.spPoisoned b 4 }
  else if o.dfmt = 6 then
    let q := iqsRes 0 x
    { base with out := q.1, nf := v.1.isNan || v.1.isInf, ov := q.2.2.2, sat := finite && (q.2.2.2 || full) }
  else
    let q := convert (dfmtType o.dfmt) .rne false false true false x
    { base with out := q.1, sat := finite && ((q.2 &&& (flO ||| flV)) ≠ 0 || full) }

/-- Count one drained or applied element, unless it is poisoned (R290). -/
def DrainCounts.add (a : DrainCounts) (nan inf sat poison : Bool) : DrainCounts :=
  let up (c : Nat) (b : Bool) : Nat := if b && !poison then c + 1 else c
  { nan := up a.nan nan, inf := up a.inf inf, sat := up a.sat sat }

/-- The operation at the head retires: what it has counted reaches the counters, once (R53, R290). -/
def Ashlar.retireHead (a : Ashlar) : Ashlar :=
  let d := (a.queue.head?).elim ({} : DrainCounts) (·.counts)
  let up (c n : Nat) : Nat := min 0xFFFFFFFF (c + n)
  { a with nanOut := up a.nanOut d.nan, infOut := up a.infOut d.inf, satOut := up a.satOut d.sat, queue := a.queue.drop 1 }

/-- Flag word of a drained `.iqs` row. -/
def rowFlags (es : List DrainEl) : W32 := (if es.any (·.nf) then 1 else 0) ||| (if es.any (·.ov) then 2 else 0)

/-- The flags that a drained element adds to its row's. -/
def DrainEl.flags (x : DrainEl) : Nat := (if x.nf then 1 else 0) ||| (if x.ov then 2 else 0) ||| (if x.poison then 4 else 0)

/-- Elements that a row takes: its outputs, and with `.iqs` into scratchpad its flag word. -/
def AshOp.cols (o : AshOp) : Nat := o.dn + (if o.op = 0xB4 ∧ o.dfmt = 6 ∧ !o.ks then 1 else 0)

/-- Scratchpad that element (m, n) of a drain or apply reads (R284). -/
def AshOp.reads (o : AshOp) (m n : Nat) : List (Nat × Nat) :=
  (if o.src.sp then [(o.src.addr + m * o.src.stride + accBytes o.src.int * n, accBytes o.src.int)] else [])
    ++ (if o.op = 0xB5 then [(dsc o.desc 4 + m * dsc o.desc 5 + 4 * n, 4)] else [])
    ++ (if o.op = 0xB4 ∧ o.ef then [(dsc o.desc 6 + 4 * (m * o.dn + n), 4)] else [])
    ++ (if o.cs then [(dsc o.desc 6 + 2 * n, 2)] else [])

/-- What draining element (m, n) leaves beside its output: the counters, the error buffer, and the row's flags. -/
def AshOp.noteEl (o : AshOp) (y : Ash) (m n : Nat) (x : DrainEl) : Ash :=
  let y1 : Ash := { y with counts := y.counts.add x.nan x.inf x.sat x.poison, flags := y.flags ||| x.flags }
  if o.ef then y1.give (dsc o.desc 6 + 4 * (m * o.dn + n)) (bytesOfNat 4 x.err) x.poison else y1

/-- The source element is cleared with CLR, after all else that its element writes (R287). -/
def AshOp.clearEl (o : AshOp) (y : Ash) (m n : Nat) : Ash := if o.clr then y.setAcc o.src m n 0 false else y

/-- Drain element number `k` to scratchpad, counted by rows; `f` numbers the free values. -/
def AshOp.drainAt (o : AshOp) (f : Nat) (y : Ash) (k : Nat) : Ash :=
  let m := k / o.cols
  let n := k % o.cols
  let a := dsc o.desc 4 + m * dsc o.desc 5
  if n = o.dn then { y.give (a + 4 * o.dn) (bytesOfNat 4 (y.flags % 4)) (decide (4 ≤ y.flags)) with flags := 0 }
  else
    let x := o.drainEl (y.view o.window f k (o.reads m n)) m n
    let w := dfmtBytes o.dfmt
    o.clearEl ((o.noteEl y m n x).give (a + w * n) (bytesOfNat w x.out) x.poison) m n

/-- Apply element number `k` (R288). -/
def AshOp.applyAt (o : AshOp) (f : Nat) (y : Ash) (k : Nat) : Ash :=
  let m := k / o.cols
  let n := k % o.cols
  let v := y.view o.window f k (o.reads m n)
  let g := v.acc o.src m n
  let a := dsc o.desc 4 + m * dsc o.desc 5 + 4 * n
  let lr := fp32.decode false (bits o.bval.toNat 0 32)
  let x := f32mul lr.neg (fp32.decode false g.1)
  let w := (caddRes (natOfBytes (v.m.scratch.read a 4)) x).1
  let poison := g.2 || v.m.spPoisoned a 4
  let hi := bf16.decode false (bits w 16 16)
  let nan := (typeValue 7 false w).isNan
  o.clearEl (({ y with counts := y.counts.add nan (hi.isInf && !nan) false poison } : Ash).give a (bytesOfNat 4 w) poison) m n

/-- The elements of row `m` of a Keystone drain. -/
def AshOp.drainRow (o : AshOp) (f : Nat) (y : Ash) (m : Nat) : List DrainEl :=
  (List.range o.dn).map (fun n => o.drainEl (y.view o.window f (m * o.dn + n) (o.reads m n)) m n)

/-- What sending row `m` of a Keystone drain leaves: the counters, and with CLR the cleared source. -/
def AshOp.afterRow (o : AshOp) (y : Ash) (m : Nat) (es : List DrainEl) : Ash :=
  es.zipIdx.foldl (fun y e => o.clearEl { y with counts := y.counts.add e.1.nan e.1.inf e.1.sat e.1.poison } m e.2) y

/-- Elements of an operation are computed from where it stands up to number `upto`, and written: all, row by row, or in a turn
that leaves the operation under way what free values choose. -/
def AshOp.work (o : AshOp) (element : Ash → Nat → Ash) (cols upto f : Nat) (part : Bool) (y : Ash) : Ash :=
  let y1 := (List.range (upto - o.next)).foldl (fun y i =>
    let y1 := element y (o.next + i)
    if !part && decide ((o.next + i + 1) % cols = 0) then y1.land else y1) y
  if part then y1.landSome (f + 1) else y1.land

/-! ## Completion (R273, R285) -/

/-- The owner of a core's engine (R269). -/
def Core.ashOwner (k : Core) : Option (Nat × Team) := k.teams.find? (fun e => e.2.ownsAshlar)

/-- What the running operation works on. -/
def State.ashOf (s : State) (c t : Nat) (o : AshOp) : Ash := ⟨(s.core c).ash, (s.team? c t).getD {}, o.landing, o.flags, o.counts⟩

/-- Put back a running operation's results, and what of it is still to come: its elements from number `next` on, and what it has
not written yet. -/
def State.putAsh (s : State) (c t next : Nat) (y : Ash) : State :=
  (s.modCore c (fun k => { k with ash := { y.e with queue :=
    match y.e.queue with
    | p :: ps => { p with next := next, landing := y.out, flags := y.flags, counts := y.counts } :: ps
    | [] => [] } })).modTeam c t (fun _ => y.m.wake)

/-- A turn of an operation that works element by element. It comes to its end, or, where the turn says so, stays under way with
some of its writes performed (R285; log 10). -/
def State.ashWork (s : State) (c t : Nat) (o : AshOp) (element : Ash → Nat → Ash) (cols total : Nat) (finish : State → State) :
    State :=
  let part := decide (s.input = .flag true)
  let upto := if part then o.next + (Config.freeWord s.fresh).toNat % (total - o.next + 1) else total
  let s1 := ({ s with fresh := s.fresh + 2 ^ 36 } : State).putAsh c t upto
    (o.work element cols upto s.fresh part (s.ashOf c t o))
  if part then s1 else finish s1

/-- The head operation is over: it leaves the engine, its future resolves, and it arrives on its barrier. -/
def State.ashEnd (s : State) (c t : Nat) (o : AshOp) (status rows : Nat) (orphan late : Bool) : State :=
  let m := (s.team? c t).getD {}
  let st := statusWord status 2 (rows + (if orphan then 2 ^ 9 else 0) + (if late then 2 ^ 10 else 0))
  let s1 := s.modCore c (fun k => { k with ash := k.ash.retireHead })
  let s2 := (s1.resolveOp c m.gridSlot o.handle st).modTeam c t Team.wake
  let s3 := match o.bar with
    | some a => s2.barEvent c t a {
        arrivals := some 1, incomplete := decide (0 < status ∧ status < 0x80), group := o.group, pc := o.pc
        handle := o.handle.getD 0 }
    | none => s2
  s3.settle c t

/-- The ASHLAR_MISMATCH record (R292). -/
def mismatchRec (m : Team) (c t : Nat) (o : AshOp) (q : Stream) (row col : Nat) : Rec where
  context := m.context
  code := 0x23
  unit := c
  team := t
  group := o.group
  scope := o.f 7 4
  progress := some (mkProgress 2 row)
  pc := o.pc
  addr := BitVec.ofNat 64 (if q.x.sp then dsc o.desc 5 + row * dsc o.desc 6 else 0)
  info := BitVec.ofNat 32 (q.x.tile + (if q.x.sp then 8 else 0) + row * 16 + col % 256 * 2 ^ 13)
  future := o.handle.getD 0

/-- A stream runs; in redundant mode the two computations may differ at a row that the turn names (R292). -/
def State.ashStream (s : State) (c t : Nat) (m : Team) (o : AshOp) : State :=
  let e := (s.core c).ash
  let q := o.stream e (s.fresh + 2 ^ 20)
  let hit := match s.input with
    | .mismatch row col =>
      if e.redundant && decide (row < q.x.m ∧ col < q.x.width ∧ o.next ≤ row * q.x.width) then some (row, col) else none
    | _ => none
  let work := s.ashWork c t o (q.element o.window s.fresh) q.x.width
  match hit with
  | some (row, col) =>
    work (row * q.x.width) (fun s =>
      ((s.modCore c (fun k => { k with ash := { k.ash with mismatch := min 0xFFFFFFFF (k.ash.mismatch + 1) } })).record
        (mismatchRec m c t o q row col)).ashEnd c t o 0x23 row false false)
  | none => work (q.x.m * q.x.width) (fun s => s.ashEnd c t o 0 q.x.m false false)

/-- Send row `m` of a Keystone drain; `f` numbers the free values, and the flag answers that it was refused, or that it cannot be sent now (R287). -/
def State.ashSendRow (f c t : Nat) (o : AshOp) (r : State × Bool) (row : Nat) : State × Bool :=
  if r.2 then r else
  let s := r.1
  let m := (s.team? c t).getD {}
  let es := o.drainRow f (s.ashOf c t ((s.core c).ash.queue.headD o)) row
  let tag : W32 := BitVec.ofNat 32 (dsc o.desc 4 + row)
  let op : Operand := {
    tag := tag, payload := es.map (fun e => BitVec.ofNat 32 e.out), flags := if o.dfmt = 6 then rowFlags es else 0
    cdf := BitVec.ofNat 32 (dsc o.desc 6), scope := o.f 7 4, gridSlot := m.gridSlot
    target := match (s.ksTarget m.context tag (BitVec.ofNat 32 (dsc o.desc 6)) (4 * o.dn)).2 with
      | .ok ps => ps
      | .error _ => []
    senders := [.drainRow c m.gridSlot o.pc row], master := masterId 0 m.context
    poison := (es.zipIdx.filter (fun e => e.1.poison)).map (·.2)
      ++ (if o.dfmt = 6 ∧ es.any (·.poison) then [o.dn] else []) }
  match s.arrive op with
  | none => (s, true)
  | some s1 =>
    let head := (s1.core c).ash.queue.headD o
    if head.rowStatus.any (fun e => e.1 = row && e.2.toNat % 256 = 0x81) then
      let mark (k : Core) : Core := { k with ash := { k.ash with
        queue := modFirst (fun p => p.draining) (fun p => { p with full := true }) k.ash.queue } }
      (s1.modCore c mark, true)
    else
      let y1 := o.afterRow (s1.ashOf c t head) row es
      let mark (k : Core) : Core := { k with ash := { k.ash with
        queue := modFirst (fun p => p.draining) (fun p => { p with rowsSent := row + 1 }) k.ash.queue } }
      ((s1.putAsh c t 0 y1).modCore c mark, false)

/-- A Keystone drain: send the rows that are left, and end once every sent row has resolved (R287). -/
def State.ashDrainKs (s : State) (c t : Nat) (o : AshOp) : State :=
  let s0 := s.modCore c (fun k => { k with ash := { k.ash with queue :=
    match k.ash.queue with
    | p :: ps => { p with draining := true } :: ps
    | [] => [] } })
  let rows := if o.dn = 0 ∨ o.full then [] else (List.range o.dm).drop o.rowsSent
  let s1 := (rows.foldl (State.ashSendRow s.fresh c t o) (({ s0 with fresh := s.fresh + 2 ^ 36 } : State), false)).1
  let y := s1.ashOf c t ((s1.core c).ash.queue.headD o)
  let part := decide (s.input = .flag true)
  let s1 := s1.putAsh c t 0 (if part then y.landSome (s.fresh + 1) else y.land)
  let p := (s1.core c).ash.queue.headD o
  let sent := p.rowStatus.filter (fun e => e.2.toNat % 256 ≠ 0x81)
  let code (e : Nat × Word) : Nat := e.2.toNat % 256
  let ds (e : Nat × Word) : Nat := bits e.2.toNat 16 3
  if !part ∧ (p.full ∨ o.dn = 0 ∨ p.rowsSent = o.dm) ∧ sent.length = p.rowsSent then
    let first := (List.range p.rowsSent).findSome? (fun r => (sent.find? (fun e => e.1 = r ∧ code e ≠ 0)).map code)
    s1.ashEnd c t p (if p.full then 0x81 else first.getD 0) (if o.dn = 0 then o.dm else p.rowsSent)
      (sent.any (fun e => ds e = 2)) (sent.any (fun e => ds e = 3))
  else s1

/-- Run the head operation of a core's engine. -/
def State.ashRun (s : State) (c t : Nat) (m : Team) (o : AshOp) : State :=
  let e := (s.core c).ash
  let setE (e : Ashlar) : State := s.modCore c (fun k => { k with ash := e })
  match o.op with
  | 0xB0 =>
    ({ setE { e with shadow := o.plane (m.seen o.window s.fresh) } with fresh := s.fresh + 2 ^ 36 } : State).ashEnd c t o 0 0 false false
  | 0xB1 => (setE { e with active := e.shadow, shadow := e.active }).ashEnd c t o 0 0 false false
  | 0xB2 => s.ashStream c t m o
  | 0xB4 =>
    if o.ks then s.ashDrainKs c t o
    else s.ashWork c t o (o.drainAt s.fresh) o.cols (o.dm * o.cols) (fun s => s.ashEnd c t o 0 o.dm false false)
  | 0xB5 => s.ashWork c t o (o.applyAt s.fresh) o.cols (o.dm * o.cols) (fun s => s.ashEnd c t o 0 o.dm false false)
  | 0xB6 =>
    let clear (k : Nat) : Bool := bit (bits o.bval.toNat 0 8) (k / 16384)
    (setE { e with
      plinth := e.plinth.filter (fun p => !clear p.1)
      plinthPoison := e.plinthPoison.filter (fun k => !clear k) }).ashEnd c t o 0 0 false false
  | 0xB7 => (setE { e with redundant := o.bval.getLsbD 0 }).ashEnd c t o 0 0 false false
  | 0xB8 =>
    let sc : BitVec 16 := o.bval.setWidth 16
    (setE (if o.fn.getLsbD 0 then { e with shadow := { e.shadow with tscale := sc } }
      else { e with active := { e.active with tscale := sc } })).ashEnd c t o 0 0 false false
  | _ => (setE { e with dmap := BitVec.ofNat 256 (natOfBytes (bytesOfWords o.desc)) }).ashEnd c t o 0 0 false false

/-- R285: the operation at the head of engine order takes its effect and ends, unless the turn leaves it under way; a Keystone
drain ends once its rows have. -/
def execAshlarOpComplete (s : State) : Host.Outcome State Fault Refusal :=
  let c := s.focus.core
  match (s.core c).ash.queue, (s.core c).ashOwner with
  | o :: _, some (t, m) => .next (s.ashRun c t m o)
  | _, _ => .next s

/-- R293: at a window's end BUDGET moves towards min(LIMIT, CAP), by at most SLEW upwards; the turn says whether the array
waited for budget in the window. -/
def execAshBudgetWindow (s : State) : Host.Outcome State Fault Refusal :=
  let b := offCore s.focus.core
  let limit := max 1 (s.regBits (b + 0x240) 0 9)
  let slew := max 1 (s.regBits (b + 0x240) 16 8)
  let st := s.reg (b + 0x248)
  let budget := bits st.toNat 0 9
  let cap := bits st.toNat 16 9
  let target := min limit cap
  let next := if target < budget then target else min target (budget + slew)
  let waited := bits st.toNat 32 32 + (if s.input = .flag true then 1 else 0)
  .next (s.setReg (b + 0x248) (BitVec.ofNat 64 (next + cap * 2 ^ 16 + waited % 2 ^ 32 * 2 ^ 32)))

/-! ## The words (R271, R272) -/

/-- Shape of an Ashlar word. -/
def ashShape (op : Nat) (f : Full) (dst : Option Use) (srcs : List Use) (opWord : Bool) (bad : Bool) : Shape where
  op := op
  roles := [1, 3]
  dst := dst
  srcs := srcs
  bad := [(7, opWord && (bits f.fn.toNat 7 4 < 2 || bits f.fn.toNat 7 4 > 9)), (0, bad)]
  scope := if opWord then bits f.fn.toNat 7 4 else 0
  behind := [0xB0, 0xB2, 0xB4, 0xB5, 0xB9].contains op

/-- The engine has room for one more operation: those in engine order count, and the staged streams, which have issued too
(R270). -/
def State.ashRoom (s : State) : Bool := decide ((s.core s.focus.core).ash.queue.length + s.ownTeam.staged.length < 32)

/-- An operation enters engine order. -/
def State.ashEnter (s : State) (o : AshOp) : State :=
  s.modCore s.focus.core (fun k => { k with ash := k.ash.enter o })

/-- The planes as the issuing word finds them. -/
def State.ashPlanned (s : State) : Planned := (s.core s.focus.core).ash.planned

/-- The operation of the issuing word; bit 6 of FN is BAR where the word has it. -/
def State.ashOp (s : State) (sh : Shape) (f : Full) (hasBar : Bool) (d : List W32) : AshOp where
  op := sh.op
  fn := f.fn
  bval := s.src f (asyncB f)
  desc := d
  bar := if hasBar && f.fn.getLsbD 6 then some (barAddr ((s.src f (asyncC f)).toNat / 2 ^ 32)) else none
  group := s.focus.group
  pc := BitVec.ofNat 64 (pcAddr s.own.pathPc)
  window := s.own.rdy

/-- Ranks 3 and 4 of R272: a descriptor or map of 32 bytes at A, whose address ignores its low `al` bits, and the barrier
object. -/
def State.ashDesc (s : State) (f : Full) (o : AshOp) (has : Bool) (al : Nat) : Except Trap (List W32) :=
  let m := s.ownScratch
  let a := bits (s.src f (asyncA f)).toNat 0 32 / 2 ^ al * 2 ^ al
  match firstTrap [
    if has && m.spBeyond a 32 then some (m.spRange a) else none,
    match o.bar with
    | some b => if m.spBeyond b 16 then some (m.spRange b) else none
    | none => none,
    if has && m.spPoisoned a 32 then some { code := 0x17, info := f.a.setWidth 32 } else none] with
  | some t => .error t
  | none => .ok (if has then m.spWords a 8 else [])

/-- The staging slot of a triggered stream holds one. -/
def State.ashStaged (slot : Option Nat) (s : State) : Bool := slot.elim false (fun n => (sfind n s.ownTeam.staged).isSome)

/-- The engine, and the staging slot of a triggered stream, have room. -/
def State.ashMay (slot : Option Nat) (s : State) : Bool := !s.ashStaged slot && s.ashRoom

/-- An operation enters the engine, or its staging slot, with its handle. -/
def State.ashStart (slot : Option Nat) (o : AshOp) (s : State) (h : Option Word) : State :=
  let o1 := { o with handle := h }
  match slot with
  | some n => s.modOwnTeam (fun m => { m with staged := sins n { o1 with started := false } m.staged })
  | none => s.ashEnter o1

/-- The barrier word of an operation word, which is used only with BAR (R271). -/
def ashBar (f : Full) : List Use := if f.fn.getLsbD 6 then [asyncC f] else []

/-- An operation word runs: ranks 2 to 7, then its start. `slot` names the staging slot of a triggered stream. -/
def ashBody (sh : Shape) (f : Full) (has : Bool) (slot : Option Nat) (late : Team → List W32 → State → Option Trap) (s : State)
    (act : Lanes) : Effect :=
  match s.poisonTrap sh.srcs act with
  | some t => .trap t
  | none =>
    let o := s.ashOp sh f true []
    match s.ashDesc f o has 3 with
    | .error t => .trap t
    | .ok d =>
      match late s.ownScratch d s with
      | some t => .trap t
      | none =>
        if s.ashStaged slot then .wait s else
        s.startAsync f act 2 (bits f.fn.toNat 7 4) (State.ashMay slot) (State.ashStart slot { o with desc := d })

/-- R274 MLDW. -/
def execMldw (f : Full) (s : State) : Host.Outcome State Fault Refusal :=
  let sh := ashShape 0xB0 f (some (asyncD f)) ([asyncA f] ++ ashBar f) true (bits f.fn.toNat 1 3 > 5)
  issue sh f s (ashBody sh f true none (fun m d _ => firstTrap [wdTrap f.fn d, m.wdExtents f.fn d]))

/-- R276 MSWAP. -/
def execMswap (f : Full) (s : State) : Host.Outcome State Fault Refusal :=
  let sh := ashShape 0xB1 f (some (asyncD f)) (ashBar f) true (bits f.fn.toNat 0 6 ≠ 0)
  issue sh f s (ashBody sh f false none (fun _ _ _ => none))

/-- R278 MSTREAM, R294 its triggered form. -/
def execMstream (f : Full) (s : State) : Host.Outcome State Fault Refusal :=
  let trig := f.fn.getLsbD 5
  let sh := ashShape 0xB2 f (some (asyncD f)) ([asyncA f] ++ (if trig then [asyncB f] else []) ++ ashBar f) true
    (bits f.fn.toNat 0 3 > 4)
  issue sh f s (fun s act =>
    let slot := if trig then some (bits (s.src f (asyncB f)).toNat 0 3) else none
    ashBody sh f true slot (fun m d s =>
      firstTrap [sdTrap f.fn d s.ashPlanned, m.sdExtents f.fn d s.ashPlanned]) s act)

/-- Earlier values of scratchpad that no operand window can still take in are of no more use: every group that issues operations
has moved on, and no operation in engine order, whose windows are `open_`, reaches back to them. -/
def Team.trimOld (open_ : List Nat) (m : Team) : Team :=
  let first := ((m.groups.filter (fun e => m.roleOf e.1 = 1 || m.roleOf e.1 = 3)).map (·.2.rdy) ++ open_).foldl min m.spSeq
  { m with spOld := m.spOld.takeWhile (fun e => decide (first ≤ e.seq)) }

/-- The operand windows of the group's next operations begin here (R284). -/
def State.openWindow (s : State) : State :=
  (s.modOwn (fun g => { g with rdy := s.ownTeam.spSeq })).modOwnTeam
    (Team.trimOld ((s.core s.focus.core).ash.queue.map (·.window)))

/-- R284 MRDY. -/
def execMrdy (f : Full) (s : State) : Host.Outcome State Fault Refusal :=
  issue (ashShape 0xB3 f none [] false (f.fn ≠ 0)) f s (fun s _ =>
    if s.own.storeQ.any (·.scratch) then .pause s else .retire { s := s.openWindow })

/-- Rank 5 of R272 for MDRAIN and MAPPLY: the limits of the drain descriptor (R286). -/
def ddTrap (o : AshOp) (d : List W32) : Option Trap :=
  let apply := decide (o.op = 0xB5)
  let int := bit (dsc d 0) 4
  let sp := bit (dsc d 0) 0
  let ef := o.op = 0xB4 && o.ef
  let aux := dsc d 6
  match firstBad [
    reservedAt 0x00 (dsc d 0 &&& 0xFFFFFFC0), badAt 0x00 (bit (dsc d 0) 5 && !int), badAt 0x00 (ef && int),
    badAt 0x00 (int && bits (dsc d 0) 1 3 % 2 = 1), badAt 0x00 (apply && int),
    badAt 0x08 (sp && dsc d 2 > 1048576),
    reservedAt 0x0C (dsc d 3 &&& 0xFE00FE00), badAt 0x0C (bits (dsc d 3) 0 9 > 128), badAt 0x0E (bits (dsc d 3) 16 9 > 128),
    badAt 0x14 (!o.ks && dsc d 5 > 1048576),
    reservedAt 0x18 (if o.ks then aux &&& 0xFFFFFF00 else 0), badAt 0x18 (o.ks && bits aux 0 4 > 6),
    badAt 0x18 (apply && aux ≠ 0), reservedAt 0x1C (dsc d 7)] with
  | some off => some (fieldTrap off)
  | none =>
    if (ef && ((o.dfmt ≠ 3 && o.dfmt ≠ 4) || o.ks)) || (o.ks && o.dfmt ≠ 0 && o.dfmt ≠ 5 && o.dfmt ≠ 6) then
      some { code := 0x02 }
    else none

/-- Rank 6 of R272 for MDRAIN and MAPPLY. -/
def Team.ddExtents (m : Team) (o : AshOp) : Option Trap :=
  let aux := dsc o.desc 6
  let rows := o.dm
  let n := o.dn
  let w := if o.op = 0xB5 then 4 * n else dfmtBytes o.dfmt * n + (if o.dfmt = 6 then 4 else 0)
  firstTrap [
    if o.src.sp then m.rowsBeyond o.src.addr o.src.stride rows (accBytes o.src.int * n) else none,
    if o.op = 0xB4 ∧ o.ef then m.rowsBeyond aux 0 1 (4 * rows * n) else none,
    if o.cs ∧ rows ≠ 0 then m.rowsBeyond aux 0 1 (2 * n) else none,
    if o.ks then none else m.rowsBeyond (dsc o.desc 4) (dsc o.desc 5) rows w]

/-- Rank 7 of R272: the first row whose tag KSEND would refuse. -/
def State.ddTags (s : State) (o : AshOp) : Option Trap :=
  if o.ks && o.dn ≠ 0 then
    (List.range o.dm).findSome? (fun r =>
      s.tagTrap s.ownCtx (BitVec.ofNat 32 (dsc o.desc 4 + r)) (BitVec.ofNat 32 (dsc o.desc 6)))
  else none

/-- The late ranks of MDRAIN and MAPPLY. -/
def ddLate (sh : Shape) (f : Full) (m : Team) (d : List W32) (s : State) : Option Trap :=
  let o := s.ashOp sh f true d
  firstTrap [ddTrap o d, m.ddExtents o, s.ddTags o]

/-- R287 MDRAIN. -/
def execMdrain (f : Full) (s : State) : Host.Outcome State Fault Refusal :=
  let sh := ashShape 0xB4 f (some (asyncD f)) ([asyncA f, asyncB f] ++ ashBar f) true (bits f.fn.toNat 0 3 = 7)
  issue sh f s (ashBody sh f true none (ddLate sh f))

/-- R288 MAPPLY. -/
def execMapply (f : Full) (s : State) : Host.Outcome State Fault Refusal :=
  let sh := ashShape 0xB5 f (some (asyncD f)) ([asyncA f, asyncB f] ++ ashBar f) true (bits f.fn.toNat 1 5 ≠ 0)
  issue sh f s (ashBody sh f true none (ddLate sh f))

/-- R289 MZERO. -/
def execMzero (f : Full) (s : State) : Host.Outcome State Fault Refusal :=
  let sh := ashShape 0xB6 f (some (asyncD f)) ([asyncB f] ++ ashBar f) true (bits f.fn.toNat 0 6 ≠ 0)
  issue sh f s (ashBody sh f false none (fun _ _ _ => none))

/-- MCFG, MSCALE and MDMAP enter engine order without a future or barrier (R271). -/
def ashSetBody (sh : Shape) (f : Full) (has : Bool) (late : List W32 → Option Trap) (s : State) (act : Lanes) : Effect :=
  match s.poisonTrap sh.srcs act with
  | some t => .trap t
  | none =>
    let o := s.ashOp sh f false []
    match s.ashDesc f o has 5 with
    | .error t => .trap t
    | .ok d =>
      match late d with
      | some t => .trap t
      | none => if s.ashRoom then .retire { s := s.ashEnter { o with desc := d } } else .pause s

/-- R271, R292 MCFG. -/
def execMcfg (f : Full) (s : State) : Host.Outcome State Fault Refusal :=
  let sh := ashShape 0xB7 f none [asyncB f] false (f.fn ≠ 0)
  issue sh f s (ashSetBody sh f false (fun _ => none))

/-- R276 MSCALE. -/
def execMscale (f : Full) (s : State) : Host.Outcome State Fault Refusal :=
  let sh := ashShape 0xB8 f none [asyncB f] false (!fnOnly f 1)
  issue sh f s (ashSetBody sh f false (fun _ => none))

/-- The limits of a duplication map (R205, R276). -/
def mapTrap (d : List W32) : Option Trap :=
  let w := natOfBytes (bytesOfWords d)
  let count := bits w 128 8
  (firstBad ([badAt 0x10 (count > 16), reservedAt 0x11 (bits w 136 56), reservedAt 0x18 (bits w 192 64)]
    ++ (List.range 16).map (fun i => badAt i (i < count && bit w (8 * i + 7))))).map fieldTrap

/-- R276 MDMAP. -/
def execMdmap (f : Full) (s : State) : Host.Outcome State Fault Refusal :=
  let sh := ashShape 0xB9 f none [asyncA f] false (f.fn ≠ 0)
  issue sh f s (ashSetBody sh f true mapTrap)

/-- Selectors 5 and 6 of MSTAT. -/
def Plane.describe (p : Plane) : Nat := p.wfmt + p.blen * 8 + p.rows * 32 + p.cols * 2 ^ 14

/-- The value that MSTAT reads (R291). -/
def State.mstat (s : State) (sel : Nat) : Nat :=
  let e := (s.core s.focus.core).ash
  match sel with
  | 0 => e.nanOut
  | 1 => e.infOut
  | 2 => e.satOut
  | 3 => e.mismatch
  | 4 => (s.reg (offCore s.focus.core + 0x248)).toNat
  | 5 => e.active.describe + if e.redundant then 2 ^ 23 else 0
  | 6 => e.shadow.describe
  | 7 => e.queue.length + 2 ^ 8 * (s.ownTeam.staged.map (fun p => 2 ^ p.1)).sum
  | _ => 0

/-- MSTAT's clear of selectors 0 to 3. -/
def Ashlar.clear (a : Ashlar) : Ashlar := { a with nanOut := 0, infOut := 0, satOut := 0, mismatch := 0 }

/-- Operations that have completed. -/
def Ashlar.ended (a : Ashlar) : Nat := a.entered - a.queue.length

/-- The MSTAT that the active lanes are at, and the operations that had entered engine order when it began to wait (R291). -/
def State.mstatKey (s : State) (act : Lanes) : Nat := s.own.pathPc.toNat + act.toNat * 2 ^ 64

def State.mstatSince (s : State) (act : Lanes) : Nat :=
  ((s.own.mstats.find? (fun e => e.1 = s.mstatKey act)).map (·.2)).getD (s.core s.focus.core).ash.entered

/-- The group's MSTAT of its current path is noted, or forgotten. -/
def State.noteMstat (s : State) (new : List (Nat × Nat)) : State :=
  s.modOwn (fun g => { g with mstats := new ++ g.mstats.filter (fun e => e.1 % 2 ^ 64 ≠ g.pathPc.toNat) })

/-- R291 MSTAT. -/
def execMstat (f : Full) (s : State) : Host.Outcome State Fault Refusal :=
  let sh := ashShape 0xBA f (some (useD f .dstScalar)) [asyncB f] false (!fnOnly f 1)
  issue sh f s (fun s act =>
    match s.poisonTrap sh.srcs act with
    | some t => .trap t
    | none =>
      let since := s.mstatSince act
      if (s.core s.focus.core).ash.ended < since then .wait (s.noteMstat [(s.mstatKey act, since)]) else
      let sel := bits (s.src f (asyncB f)).toNat 0 8
      let s1 := s.noteMstat []
      .retire {
        s := if f.fn.getLsbD 0 then s1.modCore s.focus.core (fun k => { k with ash := k.ash.clear }) else s1
        result := some { vals := [(0, BitVec.ofNat 64 (s.mstat sel))] } })

end Sys2Proof.Machine
end

