-- ==== Sys2Proof/Machine/Grids.lean ====
section
/-! DEFINITION. Launch records with their checks (R317, R318, R322), what a core must have to admit a team (R94, R269), and
the grids by slot and by sequence number (R13, R337). -/

namespace Sys2Proof.Machine

open Sys2Proof

/-! ## The launch record -/

/-- The 24 words of a launch record. -/
abbrev LRec := List Word

/-- Field of word `i`. -/
def recF (r : LRec) (i lo n : Nat) : Nat := bits (r.getD i 0).toNat lo n

def recCores (r : LRec) : BitVec 96 := BitVec.ofNat 96 (recF r 1 0 64 + recF r 2 0 32 * 2 ^ 64)
def recArgs (r : LRec) : Nat := recF r 2 32 8
def recScratch (r : LRec) : Nat := recF r 4 0 21

/-- Group count and register count of role `i` (R19). -/
def recGroups (r : LRec) (i : Nat) : Nat := recF r 3 (9 * i) 9
def recRegs (r : LRec) (i : Nat) : Nat := recF r 3 (27 + 9 * i) 9
def recAny (r : LRec) : Bool := recF r 3 54 1 = 1

/-- All groups of a team. -/
def recTotal (r : LRec) : Nat := recGroups r 0 + recGroups r 1 + recGroups r 2

/-- F of R94: the register bytes of a team. -/
def recBytes (r : LRec) : Nat :=
  if recAny r then recGroups r 0 * 32 * 256 * 4
  else ((List.range 3).map (fun i => recGroups r i * 32 * recRegs r i * 4)).sum

/-- The team needs the Ashlar engine (R269). -/
def recAshlar (r : LRec) : Bool := recAny r || recGroups r 1 ≠ 0

def recXT (r : LRec) : Nat := recF r 7 0 16
def recYT (r : LRec) : Nat := recF r 7 16 16
def recZT (r : LRec) : Nat := recF r 7 32 16
def recCov (r : LRec) : Nat := recF r 8 0 8
def recPattern (r : LRec) : Nat := recF r 8 8 4
def recKernel (r : LRec) : Nat := recF r 8 12 3
def recProbe (r : LRec) : Nat := recF r 8 16 2
def recTarget (r : LRec) : Nat := recF r 8 32 16
def recBatch (r : LRec) : Nat := recF r 8 48 9
def recOut (r : LRec) : Nat := recF r 9 0 64
def recPitch (r : LRec) : Nat := recF r 10 0 32
def recTW (r : LRec) : Nat := recF r 10 32 9
def recTH (r : LRec) : Nat := recF r 10 41 9
def recOtype (r : LRec) : Nat := recF r 10 50 4
def recLayer (r : LRec) : Nat := recF r 11 0 64

/-- An FP16 TARGET that is below zero, infinite or NaN; −0 is accepted (R322). -/
def badTarget (t : Nat) : Bool := bits t 10 5 = 31 || (bit t 15 && t ≠ 0x8000)

/-- A failing condition of R318: byte offset and CAUSE. -/
abbrev RecFail := Nat × Nat

def recIf (off cause : Nat) (b : Bool) : List RecFail := if b then [(off, cause)] else []

/-- Reserved bits `m` of word `i`. -/
def recRes (r : LRec) (i : Nat) (m : Word) : List RecFail :=
  ((reservedAt (8 * i) ((r.getD i 0) &&& m).toNat).map (fun o => (o, 0))).toList

/-- Rules of LR_ROLES (R317). A condition on a role's group and register counts names the group count (R435). -/
def roleFails (r : LRec) : List RecFail :=
  let g := recGroups r
  let q := recRegs r
  if recAny r then
    recIf 0x18 1 (g 0 = 0 || g 0 > 256) ++ recIf 0x19 1 (g 1 ≠ 0) ++ recIf 0x1A 1 (g 2 ≠ 0)
      ++ recIf 0x1B 1 (q 0 ≠ 0) ++ recIf 0x1C 1 (q 1 ≠ 0) ++ recIf 0x1D 1 (q 2 ≠ 0)
  else
    (List.range 3).flatMap (fun i =>
      recIf (0x18 + 9 * i / 8) 1 (g i > 256 || decide (g i = 0) != decide (q i = 0))
        ++ recIf (0x18 + (27 + 9 * i) / 8) 1 (q i > 256))
      ++ recIf 0x18 1 (recTotal r = 0 || recTotal r > 256)

/-- Rules of the coverage fields (R318, R322). -/
def covFails (r : LRec) : List RecFail :=
  recIf 0x41 0 ((recPattern r ≥ 9 && recPattern r ≤ 14) || recKernel r > 3)
    ++ recIf 0x41 4 (recPattern r = 15 && recKernel r = 3)
    ++ recRes r 8 0xFE000000FFFC8000
    ++ recIf 0x44 1 (badTarget (recTarget r)) ++ recIf 0x46 1 (recBatch r < 4 || recBatch r > 256)

/-- Every failing condition of a record in itself. -/
def recFails (r : LRec) : List RecFail :=
  recRes r 0 0xFF00000000000007
    ++ recIf 0x08 2 (recCores r = 0) ++ recIf 0x14 1 (recArgs r > 8) ++ recRes r 2 0xFFFFFF0000000000
    ++ roleFails r ++ recRes r 3 0xFF80000000000000
    ++ recIf 0x20 1 (recScratch r % 256 ≠ 0 || recScratch r > 1572864) ++ recRes r 4 0xFFFFFFFFFFE00000
    ++ recIf 0x38 1 (recXT r = 0) ++ recIf 0x3A 1 (recYT r = 0) ++ recIf 0x3C 1 (recZT r = 0)
    ++ recRes r 7 0xFFFF000000000000
    ++ covFails r
    ++ recIf 0x54 1 (recTW r = 0 || recTW r > 256) ++ recIf 0x55 1 (recTH r = 0 || recTH r > 256)
    ++ recIf 0x56 0 ([5, 6, 7, 14].contains (recOtype r)) ++ recRes r 10 0xFFC0000000000000
    ++ [12, 13, 14, 15].flatMap (fun i => recRes r i allBits)

/-- OSF of a context (R17, R418); the reserved code 3 is taken as code 2 (log 67). -/
def State.osf (s : State) (ctx : Nat) : Nat := 2 ^ min 2 (s.regBits (offCtx ctx) 1 2)

/-- Scratchpad partition of a core in bytes (R136). -/
def State.partition (s : State) (c : Nat) : Nat := (s.core c).spSteps * 262144

/-- Conditions of R94 that an empty core does not meet; a scratchpad beyond a core's partition is named at LR_SCRATCH (log 80). -/
def State.emptyFails (s : State) (ctx : Nat) (r : LRec) : List RecFail :=
  recIf 0x18 3 (recBytes r > 2097152 * s.osf ctx)
    ++ recIf 0x20 3 ((List.range 96).any (fun c => (recCores r).getLsbD c && decide (recScratch r > s.partition c)))

/-- The failing condition that LAUNCH_INVALID reports for a record in a context with PICK (R318, R415): lowest offset, then
lowest CAUSE. -/
def State.recordFail (s : State) (ctx pick : Nat) (r : LRec) : Option RecFail :=
  (recFails r ++ s.emptyFails ctx r ++ recIf 0x08 1 (pick > popcount (recCores r))).foldl (fun acc e =>
    match acc with
    | none => some e
    | some a => if e.1 < a.1 ∨ (e.1 = a.1 ∧ e.2 < a.2) then some e else some a) none

/-- FR_INFO of LAUNCH_INVALID. -/
def recInfo (e : RecFail) : W32 := BitVec.ofNat 32 (e.1 + e.2 * 256)

/-! ## Admission (R94, R269) -/

/-- F of a resident team. -/
def Team.regBytes (m : Team) : Nat :=
  if m.isAny then m.groups.length * 32 * 256 * 4
  else ((List.range 3).map (fun i => m.roleGroups i * 32 * m.roleRegs i * 4)).sum

/-- Register bytes of the resident teams in quarters, each divided by its OSF. -/
def State.committed (s : State) (c : Nat) : Nat :=
  ((s.core c).teams.map (fun e => e.2.regBytes * 4 / s.osf e.2.context)).sum

/-- Resident groups of a core. -/
def Core.groupCount (k : Core) : Nat := (k.teams.map (fun e => e.2.groups.length)).sum

/-- The core admits a team of a grid slot with these needs. -/
def State.admits (s : State) (c ctx grid groups regBytes scratch : Nat) (ashlar : Bool) : Bool :=
  let k := s.core c
  decide (k.teams.length < 8) && k.teams.all (fun e => e.2.gridSlot ≠ grid)
    && decide (k.groupCount + groups ≤ 256)
    && decide (s.committed c + regBytes * 4 / s.osf ctx ≤ 2097152 * 4)
    && decide ((k.teams.map (fun e => e.2.scratchSize)).sum + scratch ≤ s.partition c)
    && !(ashlar && k.teams.any (fun e => e.2.ownsAshlar))

/-! ## Grids -/

def State.grid? (s : State) (slot : Nat) : Option Grid := sfind slot s.grids

def State.modGrid (s : State) (slot : Nat) (f : Grid → Grid) : State := { s with grids := smod slot f s.grids }

/-- Every grid, in a slot or on its way out. -/
def State.allGrids (s : State) : List Grid := s.grids.map (·.2) ++ s.ending

def State.gridBy (s : State) (seq : Nat) : Option Grid := s.allGrids.find? (fun g => g.seq = seq)

def State.modGridBy (s : State) (seq : Nat) (f : Grid → Grid) : State :=
  let h (g : Grid) : Grid := if g.seq = seq then f g else g
  { s with grids := s.grids.map (fun e => (e.1, h e.2)), ending := s.ending.map h }

/-- Wake the groups of a grid's teams. -/
def State.wakeGrid (s : State) (seq : Nat) : State :=
  match s.grids.find? (fun e => e.2.seq = seq) with
  | some e => s.mapTeams (fun m => if m.gridSlot = e.1 then m.wake else m)
  | none => s

/-! ## Timed waits (R335, R159, R400) -/

/-- The timed wait of the issuing word has run out. -/
def State.timedOut (s : State) : Bool :=
  match sfind s.own.pathPc.toNat s.own.deadlines with
  | some d => decide (d ≤ s.clock)
  | none => false

/-- Wait, for `n` core cycles at most from the word's first execution here; 0 sets no limit. -/
def State.timedWait (s : State) (n : Nat) : Effect :=
  let key := s.own.pathPc.toNat
  if n = 0 ∨ (sfind key s.own.deadlines).isSome then .wait s
  else .wait (s.modOwn (fun g => { g with deadlines := sins key (s.clock + n) g.deadlines }))

/-- The timed wait of the issuing word is over. -/
def State.endWait (s : State) : State := s.modOwn (fun g => { g with deadlines := sdel s.own.pathPc.toNat g.deadlines })

/-- A group one of whose timed waits has run out tries its words again. -/
def State.wakeExpired (s : State) : State :=
  s.modGroup s.focus.core s.focus.team s.focus.group (fun g => if g.deadlines.any (fun e => e.2 ≤ s.clock) then g.wake else g)

end Sys2Proof.Machine
end

