-- ==== Sys2Proof/Machine/Dispenser.lean ====
section
/-! DEFINITION. The tile dispenser and the Grout units (R320 to R337). -/

namespace Sys2Proof.Machine

open Sys2Proof

/-! ## Lattices (R323) -/

/-- The tile lies on a pattern's lattice. -/
def kept (pat x y : Nat) : Bool :=
  match pat with
  | 0 => true
  | 1 => (x + y) % 2 = 0
  | 2 => y % 2 = 0
  | 3 => (x + y) % 3 = 0
  | 4 => x % 2 = 0 && y % 2 = 0
  | 5 => (x + 2 * y) % 4 = 0
  | 6 => x % 3 = 0 && y % 3 = 0
  | 7 => x % 4 = 0 && y % 4 = 0
  | _ => x % 2 = 0 && y % 2 = 0 && (x / 2 + y / 2) % 2 = 0

/-- The reciprocal of a pattern's fraction. -/
def patDen (pat : Nat) : Nat :=
  match pat with
  | 0 => 1
  | 1 | 2 => 2
  | 3 => 3
  | 4 | 5 => 4
  | 6 => 9
  | 7 => 16
  | _ => 8

/-- FRAC. -/
def patFrac (pat : Nat) : Nat := 256 / patDen pat - 1

/-- S, the window radius of LINEAR. -/
def patRadius (pat : Nat) : Nat := if pat ≥ 6 then 2 else 1

/-- The pattern of a rung. -/
def rungPat (r : Nat) : Nat := [0, 1, 3, 4, 8, 6, 7].getD r 0

/-- START: the sparsest rung whose fraction is at least (COV + 1) / 256. -/
def startRung (cov : Nat) : Nat :=
  ((List.range 7).filter (fun r => patDen (rungPat r) * (cov + 1) ≤ 256)).getLast?.getD 0

/-! ## The walk (R320, R321) -/

def Grid.xt (g : Grid) : Nat := recXT g.record
def Grid.yt (g : Grid) : Nat := recYT g.record
def Grid.adapt (g : Grid) : Bool := recPattern g.record = 15
def Grid.hold (g : Grid) : Bool := recKernel g.record = 3

/-- Tiles of the index space. -/
def Grid.total (g : Grid) : Nat := g.xt * g.yt * recZT g.record

/-- The pattern next in force. -/
def Grid.pattern (g : Grid) : Nat := if g.adapt then rungPat g.rung else recPattern g.record

/-- The tile at a place of the walk: x, y, z. -/
def Grid.tileAt (g : Grid) (n : Nat) : Nat × Nat × Nat :=
  let z := n / (g.xt * g.yt)
  let r := n % (g.xt * g.yt)
  let b := r / (8 * g.xt)
  let h := min 8 (g.yt - 8 * b)
  let r1 := r - 8 * b * g.xt
  let a := r1 / (8 * h)
  let w := min 8 (g.xt - 8 * a)
  let r2 := r1 - 8 * a * h
  (8 * a + r2 % w, 8 * b + r2 / w, z)

/-- The place of a tile in the walk. -/
def Grid.placeOf (g : Grid) (x y z : Nat) : Nat :=
  let h := min 8 (g.yt - y / 8 * 8)
  let w := min 8 (g.xt - x / 8 * 8)
  z * (g.xt * g.yt) + y / 8 * 8 * g.xt + x / 8 * 8 * h + y % 8 * w + x % 8

/-- The number of a tile's super-block. -/
def Grid.blockOf (g : Grid) (x y z : Nat) : Nat := (z * ((g.yt + 7) / 8) + y / 8) * ((g.xt + 7) / 8) + x / 8

/-- The pattern in force for a tile's super-block, once the walk has reached it. -/
def Grid.patAt (g : Grid) (x y z : Nat) : Nat := sget 0 g.patterns (g.blockOf x y z)

/-- The item word of a tile. -/
def itemWord (x y z kind : Nat) : Word := BitVec.ofNat 64 (x + y * 2 ^ 16 + z * 2 ^ 32 + kind * 2 ^ 62)

/-- The END word. -/
def endWord : Word := 0x8000000000000000

/-- The walk passes one tile: the item when it is handed out. -/
def Grid.stepWalk (g : Grid) : Grid × Option Word :=
  let (x, y, z) := g.tileAt g.walk
  let k := g.blockOf x y z
  let g1 : Grid := { g with
    walk := g.walk + 1
    patterns := if (sfind k g.patterns).isSome then g.patterns else sins k g.pattern g.patterns }
  if kept (g1.patAt x y z) x y then
    let w := itemWord x y z 0
    ({ g1 with computeOut := g1.computeOut + 1, outstanding := g1.outstanding ++ [w] }, some w)
  else if g1.hold then ({ g1 with skipped := g1.skipped + 1 }, none)
  else
    let c := g1.skipped + 1
    if c % (16 * 2 ^ g1.probeCode) = 0 then
      let w := itemWord x y z 1
      ({ g1 with
        skipped := c, probes := g1.probes + 1, probeOut := g1.probeOut + 1, outstanding := g1.outstanding ++ [w]
        jobs := g1.jobs ++ [{ x := x, y := y, z := z, probe := g1.probes + 1 }] }, some w)
    else ({ g1 with skipped := c, jobs := g1.jobs ++ [{ x := x, y := y, z := z }] }, none)

/-- The next item; the fuel is the number of tiles that are left. -/
def Grid.nextItem : Nat → Grid → Grid × Word
  | 0, g => (g, endWord)
  | n + 1, g =>
    match g.stepWalk with
    | (g1, some w) => (g1, w)
    | (g1, none) => Grid.nextItem n g1

/-! ## Neighbours (R324, R325) -/

/-- A COMPUTE tile that the walk has handed out. -/
def Grid.computeTile (g : Grid) (x y z : Nat) : Bool :=
  decide (x < g.xt ∧ y < g.yt ∧ g.placeOf x y z < g.walk) && kept (g.patAt x y z) x y

/-- The walk has passed every super-block of the layer within one of the tile's own. -/
def Grid.settled (g : Grid) (x y z : Nat) : Bool :=
  let mx := min (g.xt - 1) (x / 8 * 8 + 15)
  let my := min (g.yt - 1) (y / 8 * 8 + 15)
  decide (g.placeOf mx my z < g.walk)

/-- A neighbour: weight in halves, and position. -/
abbrev Neighbour := Nat × Nat × Nat

/-- How a tile is reconstructed: by copying, or by a weighted mean. -/
structure Recipe where
  copy : Bool
  from_ : List Neighbour
  deriving DecidableEq, Repr

/-- Squared distance of two coordinates. -/
def sqDist (a b : Nat) : Nat := (a - b) * (a - b) + (b - a) * (b - a)

/-- The nearest COMPUTE tile of a rectangle [x0, x1) × [y0, y1): rows and columns rise, so the first of the least distance
is the one of R325. -/
def Grid.nearest (g : Grid) (x y z x0 x1 y0 y1 : Nat) : Option (Nat × Nat) :=
  let step (best : Option (Nat × Nat)) (t : Nat × Nat) : Option (Nat × Nat) :=
    if !g.computeTile t.1 t.2 z then best else
    match best with
    | none => some t
    | some b => if sqDist t.1 x + sqDist t.2 y < sqDist b.1 x + sqDist b.2 y then some t else some b
  (List.range (y1 - y0)).foldl (fun best j =>
    (List.range (x1 - x0)).foldl (fun best i => step best (x0 + i, y0 + j)) best) none

/-- NEAREST: the super-blocks about the tile's, and then, once it is walked, the layer. -/
def Grid.nearestRecipe (g : Grid) (x y z : Nat) : Option Recipe :=
  let one (t : Nat × Nat) : Recipe := { copy := true, from_ := [(2, t.1, t.2)] }
  match g.nearest x y z (x / 8 * 8 - 8) (min g.xt (x / 8 * 8 + 16)) (y / 8 * 8 - 8) (min g.yt (y / 8 * 8 + 16)) with
  | some t => some (one t)
  | none => if g.walk ≥ (z + 1) * (g.xt * g.yt) then (g.nearest x y z 0 g.xt 0 g.yt).map one else none

/-- The COMPUTE tiles of the window of radius `r`, in ascending dy, then dx, with their weights. -/
def Grid.window (g : Grid) (x y z r : Nat) (cross : Bool) : List Neighbour :=
  (List.range (2 * r + 1)).flatMap (fun j => (List.range (2 * r + 1)).filterMap (fun i =>
    let nx := x + i - r
    let ny := y + j - r
    let d := max (max (nx - x) (x - nx)) (max (ny - y) (y - ny))
    if d = 0 ∨ (cross ∧ nx ≠ x ∧ ny ≠ y) ∨ ¬ g.computeTile nx ny z then none
    else some (if d = 1 then 2 else 1, nx, ny)))

/-- The recipe of a skipped tile, once its neighbour set is fixed (R324, R325). -/
def Grid.recipe (g : Grid) (x y z : Nat) : Option Recipe :=
  if !g.settled x y z then none else
  let k := if recOtype g.record = 15 then 0 else recKernel g.record
  let r := if k = 1 then patRadius (g.patAt x y z) else 1
  let border := x < r || y < r || decide (x + r ≥ g.xt) || decide (y + r ≥ g.yt)
  let ns := if k = 0 ∨ border then [] else g.window x y z r (k = 2)
  if ns = [] then g.nearestRecipe x y z else some { copy := false, from_ := ns }

/-- A handed-out tile that TDONE has declared. -/
def Grid.declared (g : Grid) (x y z kind : Nat) : Bool := !g.outstanding.contains (itemWord x y z kind)

/-- The job is not over. -/
def GroutJob.open_ (j : GroutJob) : Bool := !j.abandoned && j.measured.isNone

/-- Every tile that the job reads has been declared (R326, R328). -/
def Grid.mayRun (g : Grid) (j : GroutJob) : Bool :=
  j.open_ && (j.probe = 0 || g.declared j.x j.y j.z 1)
    && ((g.recipe j.x j.y j.z).map (fun r => r.from_.all (fun n => g.declared n.2.1 n.2.2 j.z 0))).getD false

/-- Fills and measurements outstanding. -/
def Grid.openJobs (g : Grid) : Nat := (g.jobs.filter GroutJob.open_).length

/-- Change the job of a tile. -/
def Grid.modJob (g : Grid) (x y z : Nat) (f : GroutJob → GroutJob) : Grid :=
  { g with jobs := modFirst (fun j => j.x = x ∧ j.y = y ∧ j.z = z) f g.jobs }

/-! ## Elements (R317, R326, R328) -/

/-- Bytes of an element. -/
def otypeSize (t : Nat) : Nat := if t = 15 then 1 else typeWidth t / 8

/-- Addresses of a tile's bytes, row by row. -/
def tileBytes (r : LRec) (x y z : Nat) : List Nat :=
  let sz := otypeSize (recOtype r)
  (List.range (recTH r)).flatMap (fun j =>
    let a := recOut r + z * recLayer r + (recTH r * y + j) * recPitch r + recTW r * x * sz
    (List.range (recTW r * sz)).map (fun k => (a + k) % 2 ^ 64))

/-- The elements of a tile as codes, with their poison. -/
def tileElems (sz : Nat) (bs : List (Byte × Bool)) : List (Nat × Bool) :=
  (List.range (bs.length / sz)).map (fun k =>
    let e := (bs.drop (k * sz)).take sz
    (natOfBytes (e.map (·.1)), e.any (·.2)))

/-- A code read as FP32. -/
def otypeFp32 (t code : Nat) : FVal :=
  fp32.decode false (fp32.roundVal .rne false (typeValue (if t = 15 then 9 else t) false code)).1

/-- Weighted mean of one floating-point element over its neighbours, as weights in halves and codes (R326). -/
def meanFloat (t : Nat) (ws : List (Nat × Nat)) : Nat :=
  let d (c : Nat) : FVal := fp32.decode false c
  let s := ws.foldl (fun acc e =>
    (fp32.add .rne false (d acc) (d (fp32.mul .rne false (.fin false e.1 (-1)) (otypeFp32 t e.2)).1)).1) 0
  let r := (fp32.div .rne false (d s) (.fin false (ws.map (·.1)).sum (-1))).1
  (convert t .rne false false true false (d r)).1

/-- Weighted mean of one integer element, ties to even, saturated. -/
def meanInt (t : Nat) (ws : List (Nat × Nat)) : Nat :=
  let w := typeWidth t
  let sg : Bool := t % 2 = 0
  let num : Int := (ws.map (fun e => (e.1 : Int) * intVal sg w (BitVec.ofNat 64 e.2))).sum
  let den : Int := ((ws.map (·.1)).sum : Nat)
  let q := num / den
  let rem := num - q * den
  lowBits w (satInt sg w (if 2 * rem > den ∨ (2 * rem = den ∧ q % 2 = 1) then q + 1 else q))

/-- The reconstruction of a tile from its neighbours' elements. -/
def Recipe.rebuild (c : Recipe) (t : Nat) (tiles : List (List (Nat × Bool))) : List (Nat × Bool) :=
  match tiles with
  | [] => []
  | first :: _ =>
    if c.copy then first else
      (List.range first.length).map (fun k =>
        let es := (c.from_.zip tiles).map (fun e => (e.1.1, e.2.getD k (0, false)))
        let ws := es.map (fun e => (e.1, e.2.1))
        (if typeIsInt t then meanInt t ws else meanFloat t ws, es.any (·.2.2)))

/-- |a − b| and sums in FP32 (R328). -/
def absCode (c : Nat) : Nat := c % 2 ^ 31

/-- P of a probe: its exact elements against their reconstruction (R328). -/
def probeError (t : Nat) (es rs : List (Nat × Bool)) : W32 :=
  let d (c : Nat) : FVal := fp32.decode false c
  let bad := (es ++ rs).any (fun e => e.2 || (otypeFp32 t e.1).isNan)
  if bad then 0x7F800000 else
  let sum (xs : List Nat) : Nat := xs.foldl (fun acc x => (fp32.add .rne false (d acc) (d x)).1) 0
  let n := sum ((es.zip rs).map (fun e =>
    absCode (fp32.add .rne false (otypeFp32 t e.1.1) (otypeFp32 t e.2.1).neg).1))
  let m := sum (es.map (fun e => absCode (fp32.roundVal .rne false (otypeFp32 t e.1)).1))
  let area : FVal := .fin false es.length 0
  BitVec.ofNat 32 (
    if (d n).isZero then 0
    else if (d m).isZero then 0x7F800000
    else (fp32.div .rne false (d (fp32.div .rne false (d n) area).1) (d (fp32.div .rne false (d m) area).1)).1)

/-! ## The controller (R329) -/

/-- Step the rung for the error of a batch. -/
def Grid.control (g : Grid) (e : FVal) : Grid :=
  let t := fp16.decode false g.target.toNat
  if !g.adapt then g
  else if !e.isNan && decide (e.cmp t > 0) then { g with rung := g.rung - 1, lowrun := false }
  else if !e.isNan && decide (e.cmp (t.scale (-2)) < 0) then
    if g.lowrun then { g with rung := min (g.rung + 1) g.start, lowrun := false } else { g with lowrun := true }
  else { g with lowrun := false }

/-- Update instants that are due, in order: a batch with every probe measured updates. -/
def Grid.update : Nat → Grid → Grid
  | 0, g => g
  | n + 1, g =>
    let b := recBatch g.record
    let ps := (List.range b).map (fun i => (g.jobs.find? (fun j => j.probe = g.updates * b + i + 1)).bind (·.measured))
    if ps.all Option.isSome then
      let d (c : Nat) : FVal := fp32.decode false c
      let sum := ps.foldl (fun acc p => (fp32.add .rne false (d acc) (d (p.getD 0).toNat)).1) 0
      let e := (fp32.div .rne false (d sum) (.fin false b 0)).1
      let g1 : Grid := { g with
        lastErr := BitVec.ofNat 32 e, updates := g.updates + 1
        jobs := g.jobs.filter (fun j => j.probe = 0 || decide (j.probe > (g.updates + 1) * b)) }
      Grid.update n (g1.control (d e))
    else g

/-! ## Fills and measurements -/

/-- Abandon a job that is not abandoned yet (R336). -/
def State.groutAbandon (s : State) (seq x y z : Nat) : State :=
  if !(s.gridBy seq).any (fun g => (g.jobs.find? (fun j => j.x = x ∧ j.y = y ∧ j.z = z)).any (!·.abandoned)) then s else
  (s.modGridBy seq (fun g => { g.modJob x y z (fun j => { j with abandoned := true, posts := none, waiting := none }) with
    abandoned := g.abandoned + 1 })).wakeGrid seq

/-- A Grout access fails (R336): a page fault waits for service, and the job starts again from its first element. -/
def State.groutFault (s : State) (g : Grid) (j : GroutJob) (e : EngineFail) (va acc : Nat) : State :=
  let stays := e.code = 0x10 || e.code = 0x11
  let s1 := s.record {
    context := g.context, code := e.code, master := 3, unit := 0xC0, access := acc, addr := BitVec.ofNat 64 (s.failAddr e va)
    info := BitVec.ofNat 32 (j.x + j.y * 2 ^ 16) }
    (if stays then some (.grout g.seq j.x j.y j.z) else none)
  if stays then (s1.farDone (.grout g.seq j.x j.y j.z)).modGridBy g.seq (fun g => g.modJob j.x j.y j.z (fun j => { j with
    waiting := some (s.nextSeq g.context), tile := none, left := [] }))
  else s1.groutAbandon g.seq j.x j.y j.z

/-- The writes of a fill have performed. -/
def State.groutFilled (s : State) (seq x y z : Nat) : State :=
  (s.modGridBy seq (fun g => { g with
    fills := g.fills + 1, jobs := dropFirst (fun j => j.x = x ∧ j.y = y ∧ j.z = z) g.jobs })).wakeGrid seq

/-- A posted write of a fill was acknowledged, or failed. -/
def State.groutAck (s : State) (seq x y z : Nat) (p : Nat × Nat) (fail : Bool) : State :=
  if fail then s.groutAbandon seq x y z else
  let s1 := s.modGridBy seq (fun g => g.modJob x y z (fun j =>
    { j with posts := j.posts.map (·.filter (· ≠ p)), sent := j.sent.filter (· ≠ p) }))
  match (s1.gridBy seq).bind (fun g => g.jobs.find? (fun j => j.x = x ∧ j.y = y ∧ j.z = z)) with
  | some j => if j.posts = some [] then s1.groutFilled seq x y z else s1
  | none => s1

/-- Read tiles in order: the reading, and the elements of each. -/
def State.readTiles (s : State) (g : Grid) (j : GroutJob) (ts : List (Nat × Nat × Nat)) : Reading × List (List (Nat × Bool)) :=
  let vas := ts.flatMap (fun t => tileBytes g.record t.1 t.2.1 t.2.2)
  let r := s.engineReads 3 g.context (.grout g.seq j.x j.y j.z) vas
  let sz := otypeSize (recOtype g.record)
  let n := recTW g.record * recTH g.record * sz
  (r, (List.range ts.length).map (fun i => tileElems sz ((r.bytes.drop (i * n)).take n)))

/-- Write bytes of a reconstructed tile: those left to write, or, in a turn that leaves the fill under way, those of them that
free values choose (R327). -/
def State.writeTile (s : State) (g : Grid) (j : GroutJob) (bs : List (Byte × Bool)) (left : List Nat) (part : Bool) : State :=
  let now := if part then left.filter (fun i => (Config.freeWord (s.fresh + 1 + i)).getLsbD 0) else left
  let all := (tileBytes g.record j.x j.y j.z).zip bs
  let a := s.engineAdmit 3 g.context (now.filterMap (fun i => all[i]?))
  if a.paused then s else
  match a.fail with
  | some (e, va) => a.s.groutFault g j e va 2
  | none =>
    let w := a.s.emit (.grout g.seq j.x j.y j.z) g.context (a.out.length + 1) a.out
    if part then
      ({ w.1 with fresh := w.1.fresh + 1 + bs.length } : State).modGridBy g.seq (fun g => g.modJob j.x j.y j.z (fun j => { j with
        tile := some bs, left := left.filter (!now.contains ·), sent := j.sent ++ w.2 }))
    else if j.sent ++ w.2 = [] then w.1.groutFilled g.seq j.x j.y j.z
    else w.1.modGridBy g.seq (fun g => g.modJob j.x j.y j.z (fun j => { j with posts := some (j.sent ++ w.2) }))

/-- The bytes of a rebuilt tile. -/
def elemBytes (sz : Nat) (es : List (Nat × Bool)) : List (Byte × Bool) :=
  es.flatMap (fun e => (bytesOfNat sz e.1).map (fun b => (b, e.2)))

/-- Run a job whose neighbours are declared, to its end or, where the turn says so, in part: it reads some bytes early, or
writes some of the tile (R327; log 10). -/
def State.groutRun (s : State) (g : Grid) (j : GroutJob) : State :=
  match g.recipe j.x j.y j.z, j.tile with
  | none, _ => s
  | some _, some bs => s.writeTile g j bs j.left (decide (s.input = .flag false))
  | some c, none =>
    let ts := c.from_.map (fun n => (n.2.1, n.2.2, j.z))
    let us := if j.probe = 0 then ts else ts ++ [(j.x, j.y, j.z)]
    let part := decide (s.input = .flag false)
    if part && (j.probe ≠ 0 || (Config.freeWord s.fresh).getLsbD 1) then
      let e := ((us.flatMap (fun t => tileBytes g.record t.1 t.2.1 t.2.2)).foldl (Reading.byte 3 g.context)
        { s := { s with fresh := s.fresh + 1 }, reader := .grout g.seq j.x j.y j.z })
      if e.fail.isSome then s else e.early
    else
    let r := s.readTiles g j us
    if r.1.paused then r.1.s else
    match r.1.fail with
    | some (e, va) => r.1.s.groutFault g j e va 1
    | none =>
      let t := recOtype g.record
      let es := c.rebuild t (r.2.take c.from_.length)
      if j.probe = 0 then
        let bs := elemBytes (otypeSize t) es
        r.1.s.writeTile g j bs (List.range bs.length) part
      else
        let p := probeError t ((r.2.getLast?).getD []) es
        (r.1.s.modGridBy g.seq (fun g =>
          let g1 := g.modJob j.x j.y j.z (fun j => { j with measured := some p })
          g1.update g1.jobs.length)).wakeGrid g.seq

/-- Jobs that may run now: fills or measurements. -/
def State.groutReady (s : State) (probe : Bool) : List (Grid × GroutJob) :=
  s.allGrids.flatMap (fun g => (g.jobs.filter (fun j =>
    j.waiting.isNone && j.posts.isNone && decide (j.probe ≠ 0) == probe && g.mayRun j)).map (fun j => (g, j)))

/-- Run the job that the turn picks among those that may run. -/
def State.groutTurn (s : State) (probe : Bool) : State :=
  if s.veiledWide then s else
  let s := s.touchAll
  let js := s.groutReady probe
  match js[s.focus.number % max 1 js.length]? with
  | some e => s.groutRun e.1 e.2
  | none => s

/-- R326: a skipped tile all of whose neighbours are declared is filled. -/
def execGroutFill (s : State) : Host.Outcome State Fault Refusal := .next (s.groutTurn false)

/-- R328: a probe whose tile and neighbours are declared is measured. -/
def execProbeMeasure (s : State) : Host.Outcome State Fault Refusal := .next (s.groutTurn true)

/-- The grid's slot is released: what the walk has not handed out, every fill whose neighbours were not all declared, and every
measurement is abandoned (R337). -/
def Grid.release (g : Grid) : Grid :=
  let stays (j : GroutJob) : Bool := g.mayRun j && decide (j.probe = 0)
  let dropped := (g.jobs.filter (fun j => j.open_ && !stays j)).length
  { g with
    jobs := g.jobs.filter stays
    abandoned := g.abandoned + dropped + (g.total - g.walk) }

/-! ## The words (R330 to R335) -/

/-- The grid of the issuing team; none in the firmware slot. -/
def State.ownGrid (s : State) : Option Grid := s.grid? s.ownTeam.gridSlot

def State.modOwnGrid (s : State) (f : Grid → Grid) : State := s.modGrid s.ownTeam.gridSlot f

/-- A word's value where the manual gives the firmware slot no grid: free (log 3). -/
def State.noGrid (s : State) : Effect :=
  .retire { s := s.draw.2, result := some { vals := [(0, s.draw.1)] } }

/-- The shape of FETCH (R331). -/
def fetchShape (f : Full) : Shape :=
  { op := 0xC8, dst := some (useD f .scalar), bad := [(0, f.fn ≠ 0)] }

/-- R331 FETCH. -/
def execFetch (f : Full) (s : State) : Host.Outcome State Fault Refusal :=
  issue (fetchShape f) f s (fun s _ =>
    match s.ownGrid with
    | none => s.noGrid
    | some g =>
      let r := g.nextItem (g.total - g.walk)
      let s1 := s.modOwnGrid (fun _ => r.1)
      .retire { s := if r.2 = endWord ∨ r.1.walk = r.1.total then s1.wakeGrid g.seq else s1, result := some { vals := [(0, r.2)] } })

/-- Declare an item (R332). -/
def Grid.declare (g : Grid) (w : Word) : Grid :=
  if w = endWord then g
  else if g.outstanding.contains w then { g with outstanding := dropFirst (· = w) g.outstanding }
  else { g with ignored := g.ignored + 1 }

/-- The shape of TDONE, a release at package scope (R327) (R332). -/
def tdoneShape (f : Full) : Shape :=
  { op := 0xC9, srcs := [asyncA f], bad := [(0, f.fn ≠ 0)], scope := 6 }

/-- R332 TDONE, a release at package scope (R327). -/
def execTdone (f : Full) (s : State) : Host.Outcome State Fault Refusal :=
  let sh := tdoneShape f
  issue sh f s (fun s act =>
    match s.poisonTrap sh.srcs act with
    | some t => .trap t
    | none => s.released act true 6 (fun s =>
        .retire { s := s.modOwnGrid (fun g => g.declare (s.src f (asyncA f))) }))

/-- The shape of GCFG (R333). -/
def gcfgShape (f : Full) : Shape :=
  { op := 0xCA, srcs := [asyncB f], bad := [(0, !fnOnly f 3 || bits f.fn.toNat 0 2 = 3)] }

/-- A GCFG word (R330, R333): `bad` tells a value outside its limits. -/
def gcfgWord (f : Full) (s : State) (bad : Nat → Bool) (set : Grid → Nat → Grid) : Host.Outcome State Fault Refusal :=
  let sh := gcfgShape f
  issue sh f s (fun s act =>
    match s.poisonTrap sh.srcs act with
    | some t => .trap t
    | none =>
      let b := (s.src f (asyncB f)).toNat
      if bad b then .trap { code := 0x02, info := 3 } else .retire { s := s.modOwnGrid (fun g => set g b) })

/-- R333 GCFG, ITEM 0. -/
def execGcfgTarget (f : Full) (s : State) : Host.Outcome State Fault Refusal :=
  gcfgWord f s (fun b => badTarget (bits b 0 16)) (fun g b => { g with target := BitVec.ofNat 16 b })

/-- R333 GCFG, ITEM 1. -/
def execGcfgRung (f : Full) (s : State) : Host.Outcome State Fault Refusal :=
  gcfgWord f s (fun b => bits b 0 3 = 7) (fun g b =>
    if g.adapt then { g with rung := min (bits b 0 3) g.start, lowrun := false } else g)

/-- R333 GCFG, ITEM 2; ITEM 3 is reserved. -/
def execGcfgProbe (f : Full) (s : State) : Host.Outcome State Fault Refusal :=
  gcfgWord f s (fun _ => false) (fun g b => { g with probeCode := bits b 0 2 })

/-- A count as GSTAT shows it. -/
def sat32 (n : Nat) : Nat := min n 0xFFFFFFFF

/-- What GSTAT reads (R334). -/
def Grid.stat (g : Grid) (sel : Nat) : Word :=
  BitVec.ofNat 64 (match sel with
    | 0 => g.pattern + (if g.adapt then g.rung else 7) * 2 ^ 4 + (if g.adapt then 2 ^ 7 else 0) + patFrac g.pattern * 2 ^ 8
      + (if g.lowrun then 2 ^ 16 else 0) + g.target.toNat * 2 ^ 32
    | 1 => g.lastErr.toNat
    | 2 => sat32 g.updates
    | 3 => sat32 g.computeOut + sat32 g.probeOut * 2 ^ 32
    | 4 => sat32 g.fills + sat32 g.openJobs * 2 ^ 32
    | 5 => sat32 g.ignored + sat32 g.abandoned * 2 ^ 32
    | _ => 0)

/-- The shape of GSTAT (R334). -/
def gstatShape (f : Full) : Shape :=
  { op := 0xCB, dst := some (useD f .scalar), srcs := [asyncB f], bad := [(0, f.fn ≠ 0)] }

/-- R334 GSTAT. -/
def execGstat (f : Full) (s : State) : Host.Outcome State Fault Refusal :=
  let sh := gstatShape f
  issue sh f s (fun s act =>
    match s.poisonTrap sh.srcs act, s.ownGrid with
    | some t, _ => .trap t
    | none, none => s.noGrid
    | none, some g => .retire {
        s := s, result := some { vals := [(0, g.stat (bits (s.src f (asyncB f)).toNat 0 8))] } })

/-- The shape of GFILL (R335). -/
def gfillShape (f : Full) : Shape :=
  { op := 0xCC, dst := some (asyncD f), srcs := [asyncB f], bad := [(0, f.fn ≠ 0)] }

/-- R335 GFILL. -/
def execGfill (f : Full) (s : State) : Host.Outcome State Fault Refusal :=
  let sh := gfillShape f
  issue sh f s (fun s act =>
    match s.poisonTrap sh.srcs act, s.ownGrid with
    | some t, _ => .trap t
    | none, none => s.noGrid
    | none, some g =>
      if (g.walk = g.total ∧ g.openJobs = 0) ∨ s.timedOut then
        .retire { s := s.endWait, result := some { vals := [(0, BitVec.ofNat 64 g.openJobs)] } }
      else s.timedWait (bits (s.src f (asyncB f)).toNat 0 32))

/-- R335: a GFILL whose timeout has run out is tried again, and writes the count. -/
def execGfillTimeout (s : State) : Host.Outcome State Fault Refusal := .next s.wakeExpired

end Sys2Proof.Machine
end

