-- ==== Sys2Proof/Decode.lean ====
section
/-! DEFINITION. Decoding of SIMT words (R68, R72, R82) and of sequencer words (R377), and the encoder.

Decoding is total: a reserved major opcode or sequencer opcode is refused by name; every other word has an instruction,
because a paired word's short opcodes and a full-form word's FN and operand fields are checked only when the word issues
with an active lane (R79, R80, R83). -/

namespace Sys2Proof

/-- Why the decoder gives no instruction. -/
inductive DecodeError where
  /-- A reserved major opcode (R82, R83); issued with an active lane it traps ILLEGAL_OP. -/
  | reservedOpcode (op : BitVec 8)
  /-- A sequencer opcode 0x10 to 0x3F (R378 CAUSE 0); executed it traps SEQ_ILLEGAL. -/
  | reservedSeqOpcode (opc : BitVec 6)
  /-- Fewer than the eight bytes of a word (R68). -/
  | shortInput
  deriving DecidableEq, Repr

/-- Bits [lo + n - 1 : lo] of a word. -/
def field (w : Word) (lo n : Nat) : BitVec n := w.extractLsb' lo n

/-- The fields of a full-form word below its opcode (R68). -/
def Full.ofWord (w : Word) : Full where
  pred := field w 49 6
  pn := w.getLsbD 48
  w := w.getLsbD 47
  d := field w 38 9
  a := field w 29 9
  b := field w 20 9
  c := field w 11 9
  fn := field w 0 11

/-- The word of a full-form instruction (R68). -/
def Full.toWord (op : BitVec 8) (f : Full) : Word :=
  0#1 ++ op ++ f.pred ++ BitVec.ofBool f.pn ++ BitVec.ofBool f.w ++ f.d ++ f.a ++ f.b ++ f.c ++ f.fn

/-- One half of a paired word from its 31 bits (R72). -/
def Half.ofBits (h : BitVec 31) : Half where
  sop := h.extractLsb' 24 7
  pr := h.extractLsb' 21 3
  d := h.extractLsb' 14 7
  s := h.extractLsb' 7 7
  m := h.extractLsb' 0 7

/-- The 31 bits of one half (R72). -/
def Half.toBits (h : Half) : BitVec 31 := h.sop ++ h.pr ++ h.d ++ h.s ++ h.m

/-- A paired word's two halves (R72). -/
def Paired.ofWord (w : Word) : Paired where
  a := Half.ofBits (field w 32 31)
  b := Half.ofBits (field w 1 31)
  bit0 := w.getLsbD 0

/-- The word of a paired instruction (R72). -/
def Paired.toWord (p : Paired) : Word := 1#1 ++ p.a.toBits ++ p.b.toBits ++ BitVec.ofBool p.bit0

/-- The fields of a sequencer word below its opcode (R377). -/
def SeqWord.ofWord (w : Word) : SeqWord where
  ca := field w 54 4
  cb := field w 50 4
  cc := field w 46 4
  fi := field w 40 6
  md := field w 32 8
  imm := field w 0 32

/-- The word of a sequencer instruction (R377). -/
def SeqWord.toWord (opc : BitVec 6) (q : SeqWord) : Word :=
  opc ++ q.ca ++ q.cb ++ q.cc ++ q.fi ++ q.md ++ q.imm

/-- The instruction of a full-form word, by its major opcode (R82). -/
def decodeFull (op : BitVec 8) (f : Full) : Except DecodeError Instr :=
  match op.toNat with
  | 0x00 => .ok (.nop f)
  | 0x01 => .ok (.bra f)
  | 0x02 => .ok (.brx f)
  | 0x03 => .ok (.call f)
  | 0x04 => .ok (.ret f)
  | 0x05 => .ok (.join f)
  | 0x06 => .ok (.meet f)
  | 0x07 => .ok (.exit f)
  | 0x08 => .ok (.pset f)
  | 0x09 => .ok (.psetf f)
  | 0x0A => .ok (.plop f)
  | 0x0B => .ok (if f.fn.getLsbD 0 then .pmovSet f else .pmovGet f)
  | 0x0C => .ok (.vote f)
  | 0x0D => .ok (if f.fn.getLsbD 4 then .kmovSet f else .kmovGet f)
  | 0x0E => .ok (if f.fn.getLsbD 0 then .ftestH f else .ftest f)
  | 0x0F => .ok (if f.fn.getLsbD 1 then .fwaitAll f else if f.fn.getLsbD 0 then .fwaitH f else .fwait f)
  | 0x10 => .ok (.fcancel f)
  | 0x11 => .ok (if f.fn.getLsbD 1 then .fmovImport f else if f.fn.getLsbD 0 then .fmovExport f else .fmovMove f)
  | 0x12 => .ok (if f.fn.getLsbD 4 then .tbarArr f else .tbar f)
  | 0x13 => .ok (.yield f)
  | 0x14 => .ok (.loop f)
  | 0x15 => .ok (.srd f)
  | 0x16 => .ok (.swr f)
  | 0x17 => .ok (.trap f)
  | 0x18 => .ok (.bkpt f)
  | 0x19 => .ok (.fresume f)
  | 0x1A => .ok (.ifence f)
  | 0x20 => .ok (.add f)
  | 0x21 => .ok (.sub f)
  | 0x22 => .ok (.addc f)
  | 0x23 => .ok (.subb f)
  | 0x24 => .ok (.mul f)
  | 0x25 => .ok (.mulh f)
  | 0x26 => .ok (.mad f)
  | 0x27 => .ok (.madw f)
  | 0x28 => .ok (.min f)
  | 0x29 => .ok (.max f)
  | 0x2A => .ok (.abs f)
  | 0x2B => .ok (.sad f)
  | 0x2C => .ok (.and f)
  | 0x2D => .ok (.or f)
  | 0x2E => .ok (.xor f)
  | 0x2F => .ok (.andn f)
  | 0x30 => .ok (.shl f)
  | 0x31 => .ok (.shr f)
  | 0x32 => .ok (.sar f)
  | 0x33 => .ok (.fshf f)
  | 0x34 => .ok (.bfx f)
  | 0x35 => .ok (.bfi f)
  | 0x36 => .ok (.popc f)
  | 0x37 => .ok (.clz f)
  | 0x38 => .ok (.brev f)
  | 0x39 => .ok (.sel f)
  | 0x3A => .ok (.lea f)
  | 0x3B => .ok (.addx f)
  | 0x3C => .ok (.mov f)
  | 0x3D => .ok (.movw f)
  | 0x3E => .ok (.ext f)
  | 0x3F => .ok (.fadd f)
  | 0x40 => .ok (.fsub f)
  | 0x41 => .ok (.fmul f)
  | 0x42 => .ok (.ffma f)
  | 0x43 => .ok (.fmin f)
  | 0x44 => .ok (.fmax f)
  | 0x45 => .ok (.frcp f)
  | 0x46 => .ok (.frsq f)
  | 0x47 => .ok (.fsqrt f)
  | 0x48 => .ok (.fexp2 f)
  | 0x49 => .ok (.flog2 f)
  | 0x4A => .ok (.fdiv f)
  | 0x4B => .ok (.fclass f)
  | 0x4C => .ok (.fdot2 f)
  | 0x4D => .ok (.cadd f)
  | 0x4E => .ok (.fstat f)
  | 0x4F => .ok (.shfl f)
  | 0x50 => .ok (.bcast f)
  | 0x51 => .ok (.ballot f)
  | 0x52 => .ok (.scan f)
  | 0x53 => .ok (.redux f)
  | 0x54 => .ok (.matchLanes f)
  | 0x55 => .ok (.hist f)
  | 0x56 => .ok (.pack f)
  | 0x60 => .ok (.cvt f)
  | 0x61 => .ok (.cvts f)
  | 0x62 => .ok (.qblk f)
  | 0x63 => .ok (.dqblk f)
  | 0x64 => .ok (.ppq f)
  | 0x65 => .ok (.ppdq f)
  | 0x66 => .ok (.osplit f)
  | 0x67 => .ok (.efq f)
  | 0x68 => .ok (.iqs f)
  | 0x69 => .ok (.idqs f)
  | 0x6A => .ok (.fscale f)
  | 0x6B => .ok (.fexpo f)
  | 0x6C => .ok (.nfchk f)
  | 0x70 => .ok (.rmuln f)
  | 0x71 => .ok (.umuln f)
  | 0x72 => .ok (.rshr f)
  | 0x73 => .ok (.ushr f)
  | 0x74 => .ok (.radd f)
  | 0x75 => .ok (.uadd f)
  | 0x76 => .ok (.rmad f)
  | 0x77 => .ok (.umad f)
  | 0x78 => .ok (.rlrel f)
  | 0x79 => .ok (.ulrel f)
  | 0x7A => .ok (.rnarr f)
  | 0x7B => .ok (.unarr f)
  | 0x7C => .ok (.rmark f)
  | 0x7D => .ok (.umark f)
  | 0x80 => .ok (.ld f)
  | 0x81 => .ok (.st f)
  | 0x82 => .ok (.lds f)
  | 0x83 => .ok (.sts f)
  | 0x84 => .ok (.ldv f)
  | 0x85 => .ok (.stv f)
  | 0x86 => .ok (if f.fn.extractLsb' 0 2 == 0 then .prefL1 f else .prefLlc f)
  | 0x87 => .ok (.disc f)
  | 0x88 => .ok (if f.fn.getLsbD 1 then .flushL1 f else if f.fn.getLsbD 0 then .flushInv f else .flushWb f)
  | 0x89 => .ok (.atom f)
  | 0x8A => .ok (.cas f)
  | 0x8B => .ok (.atoms f)
  | 0x8C => .ok (.red f)
  | 0x8D => .ok (if f.fn.extractLsb' 0 2 == 0 then .fenceAcq f else if f.fn.extractLsb' 0 2 == 1 then .fenceRel f else if f.fn.extractLsb' 0 2 == 2 then .fenceFull f else .fenceL1inv f)
  | 0x8E => .ok (.mwait f)
  | 0x8F => .ok (.sld f)
  | 0x90 => .ok (.sst f)
  | 0xA0 => .ok (.hcopy f)
  | 0xA1 => .ok (.htile f)
  | 0xA2 => .ok (.hfill f)
  | 0xA3 => .ok (.hgather f)
  | 0xA4 => .ok (.hscatter f)
  | 0xA5 => .ok (.hstat f)
  | 0xA6 => .ok (.binit f)
  | 0xA7 => .ok (.barrive f)
  | 0xA8 => .ok (if f.fn.getLsbD 0 then .bexpectArr f else .bexpect f)
  | 0xA9 => .ok (.bwait f)
  | 0xAA => .ok (.btry f)
  | 0xAB => .ok (.bcont f)
  | 0xAC => .ok (.btrig f)
  | 0xB0 => .ok (.mldw f)
  | 0xB1 => .ok (.mswap f)
  | 0xB2 => .ok (.mstream f)
  | 0xB3 => .ok (.mrdy f)
  | 0xB4 => .ok (.mdrain f)
  | 0xB5 => .ok (.mapply f)
  | 0xB6 => .ok (.mzero f)
  | 0xB7 => .ok (.mcfg f)
  | 0xB8 => .ok (.mscale f)
  | 0xB9 => .ok (.mdmap f)
  | 0xBA => .ok (.mstat f)
  | 0xC0 => .ok (.taga f)
  | 0xC1 => .ok (.tagf f)
  | 0xC2 => .ok (.ksend f)
  | 0xC3 => .ok (.ksends f)
  | 0xC4 => .ok (if f.fn.getLsbD 0 then .kstatCtr f else .kstat f)
  | 0xC5 => .ok (if f.fn.getLsbD 1 then .kcfgOvf f else if f.fn.getLsbD 0 then .kcfgTmo f else .kcfgDest f)
  | 0xC8 => .ok (.fetch f)
  | 0xC9 => .ok (.tdone f)
  | 0xCA => .ok (if f.fn.getLsbD 1 then .gcfgProbe f else if f.fn.getLsbD 0 then .gcfgRung f else .gcfgTarget f)
  | 0xCB => .ok (.gstat f)
  | 0xCC => .ok (.gfill f)
  | 0xD0 => .ok (.qloadx f)
  | 0xD1 => .ok (.qgemv f)
  | 0xD2 => .ok (if f.fn.extractLsb' 0 2 == 3 then .qfenceWr f else if f.fn.getLsbD 1 then .qfenceR f else .qfenceW f)
  | 0xD3 => .ok (if f.fn.getLsbD 0 then .qstatSt f else .qstat f)
  | 0xD8 => .ok (.llaunch f)
  | 0xD9 => .ok (if f.fn.getLsbD 0 then .lflagSet f else .lflagAdd f)
  | 0xDA => .ok (.lwait f)
  | 0xDB => .ok (.lstat f)
  | 0xE0 => .ok (.launchc f)
  | 0xE1 => .ok (.joinc f)
  | 0xE2 => .ok (.snap f)
  | 0xE3 => .ok (if f.fn.getLsbD 0 then .ctxswIn f else .ctxswOut f)
  | 0xE4 => .ok (if f.fn.getLsbD 2 then .tlbiIcall f else if f.fn.extractLsb' 0 2 == 3 then .tlbiIc f else if f.fn.extractLsb' 0 2 == 2 then .tlbiAll f else if f.fn.extractLsb' 0 2 == 1 then .tlbiCtx f else .tlbiVa f)
  | 0xE5 => .ok (.eret f)
  | 0xE6 => .ok (.psrd f)
  | 0xE7 => .ok (.pswr f)
  | 0xE8 => .ok (.wdplace f)
  | 0xE9 => .ok (.halt f)
  | _ => .error (.reservedOpcode op)

/-- The instruction of a 64-bit SIMT word (R68, R72, R82). -/
def decodeWord (w : Word) : Except DecodeError Instr :=
  if w.getLsbD 63 then .ok (.pairedWord (Paired.ofWord w)) else decodeFull (field w 55 8) (Full.ofWord w)

/-- The instruction of a 64-bit sequencer word (R377). -/
def decodeSeqWord (w : Word) : Except DecodeError Instr :=
  let q := SeqWord.ofWord w
  match (field w 58 6).toNat with
  | 0x00 => .ok (.seqNop q)
  | 0x01 => .ok (.xmit q)
  | 0x02 => .ok (.rcvst q)
  | 0x03 => .ok (.rcvcmb q)
  | 0x04 => .ok (.rcvcf q)
  | 0x05 => .ok (.rcvfw q)
  | 0x06 => .ok (.waitf q)
  | 0x07 => .ok (if q.md.getLsbD 1 then .sigfPeer q else .sigf q)
  | 0x08 => .ok (.seqLoop q)
  | 0x09 => .ok (.movi q)
  | 0x0A => .ok (.addi q)
  | 0x0B => .ok (.seqAdd q)
  | 0x0C => .ok (.bnz q)
  | 0x0D => .ok (if q.md.getLsbD 0 then .scaleDec q else .scaleEnc q)
  | 0x0E => .ok (.seqYield q)
  | 0x0F => .ok (.seqHalt q)
  | _ => .error (.reservedSeqOpcode (field w 58 6))

/-- Eight bytes, the first at the lowest address, as a little-endian word (R68). -/
def wordOfBytes (l : List Byte) : Word :=
  l.foldr (fun b acc => (acc <<< 8) ||| b.setWidth 64) 0

/-- The first SIMT word of a run of bytes, and the bytes after it (R68). -/
def decodeBytes (l : List Byte) : Except DecodeError (Instr × List Byte) :=
  if l.length < 8 then .error .shortInput
  else match decodeWord (wordOfBytes (l.take 8)) with
    | .ok i => .ok (i, l.drop 8)
    | .error e => .error e

/-- The instruction the decoder reads from a SIMT word whose bits, numbered from the least significant, are `w`; a word of
this machine has 64 bits, so every bit above a shorter `nbits` is 0 and `nbits` selects nothing. -/
def decodeTableWord (_nbits w : Nat) : Option Instr :=
  match decodeWord (BitVec.ofNat 64 w) with
  | .ok i => some i
  | .error _ => none

/-- The word of an instruction; `none` for a device event, which no word of memory encodes. -/
def encode : Instr → Option Word
  | .nop f => some (f.toWord 0x00)
  | .yield f => some (f.toWord 0x13)
  | .loop f => some (f.toWord 0x14)
  | .ifence f => some (f.toWord 0x1A)
  | .pairedWord p => some p.toWord
  | .bra f => some (f.toWord 0x01)
  | .brx f => some (f.toWord 0x02)
  | .call f => some (f.toWord 0x03)
  | .ret f => some (f.toWord 0x04)
  | .join f => some (f.toWord 0x05)
  | .meet f => some (f.toWord 0x06)
  | .exit f => some (f.toWord 0x07)
  | .pset f => some (f.toWord 0x08)
  | .psetf f => some (f.toWord 0x09)
  | .plop f => some (f.toWord 0x0A)
  | .pmovGet f => some (f.toWord 0x0B)
  | .pmovSet f => some (f.toWord 0x0B)
  | .vote f => some (f.toWord 0x0C)
  | .kmovGet f => some (f.toWord 0x0D)
  | .kmovSet f => some (f.toWord 0x0D)
  | .ftest f => some (f.toWord 0x0E)
  | .ftestH f => some (f.toWord 0x0E)
  | .fwait f => some (f.toWord 0x0F)
  | .fwaitH f => some (f.toWord 0x0F)
  | .fwaitAll f => some (f.toWord 0x0F)
  | .fcancel f => some (f.toWord 0x10)
  | .fmovMove f => some (f.toWord 0x11)
  | .fmovExport f => some (f.toWord 0x11)
  | .fmovImport f => some (f.toWord 0x11)
  | .tbar f => some (f.toWord 0x12)
  | .tbarArr f => some (f.toWord 0x12)
  | .srd f => some (f.toWord 0x15)
  | .swr f => some (f.toWord 0x16)
  | .trap f => some (f.toWord 0x17)
  | .bkpt f => some (f.toWord 0x18)
  | .fresume f => some (f.toWord 0x19)
  | .add f => some (f.toWord 0x20)
  | .sub f => some (f.toWord 0x21)
  | .addc f => some (f.toWord 0x22)
  | .subb f => some (f.toWord 0x23)
  | .mul f => some (f.toWord 0x24)
  | .mulh f => some (f.toWord 0x25)
  | .mad f => some (f.toWord 0x26)
  | .madw f => some (f.toWord 0x27)
  | .min f => some (f.toWord 0x28)
  | .max f => some (f.toWord 0x29)
  | .abs f => some (f.toWord 0x2A)
  | .sad f => some (f.toWord 0x2B)
  | .and f => some (f.toWord 0x2C)
  | .or f => some (f.toWord 0x2D)
  | .xor f => some (f.toWord 0x2E)
  | .andn f => some (f.toWord 0x2F)
  | .shl f => some (f.toWord 0x30)
  | .shr f => some (f.toWord 0x31)
  | .sar f => some (f.toWord 0x32)
  | .fshf f => some (f.toWord 0x33)
  | .bfx f => some (f.toWord 0x34)
  | .bfi f => some (f.toWord 0x35)
  | .popc f => some (f.toWord 0x36)
  | .clz f => some (f.toWord 0x37)
  | .brev f => some (f.toWord 0x38)
  | .sel f => some (f.toWord 0x39)
  | .lea f => some (f.toWord 0x3A)
  | .addx f => some (f.toWord 0x3B)
  | .mov f => some (f.toWord 0x3C)
  | .movw f => some (f.toWord 0x3D)
  | .ext f => some (f.toWord 0x3E)
  | .fadd f => some (f.toWord 0x3F)
  | .fsub f => some (f.toWord 0x40)
  | .fmul f => some (f.toWord 0x41)
  | .ffma f => some (f.toWord 0x42)
  | .fmin f => some (f.toWord 0x43)
  | .fmax f => some (f.toWord 0x44)
  | .frcp f => some (f.toWord 0x45)
  | .frsq f => some (f.toWord 0x46)
  | .fsqrt f => some (f.toWord 0x47)
  | .fexp2 f => some (f.toWord 0x48)
  | .flog2 f => some (f.toWord 0x49)
  | .fdiv f => some (f.toWord 0x4A)
  | .fclass f => some (f.toWord 0x4B)
  | .fdot2 f => some (f.toWord 0x4C)
  | .cadd f => some (f.toWord 0x4D)
  | .fstat f => some (f.toWord 0x4E)
  | .shfl f => some (f.toWord 0x4F)
  | .bcast f => some (f.toWord 0x50)
  | .ballot f => some (f.toWord 0x51)
  | .scan f => some (f.toWord 0x52)
  | .redux f => some (f.toWord 0x53)
  | .matchLanes f => some (f.toWord 0x54)
  | .hist f => some (f.toWord 0x55)
  | .pack f => some (f.toWord 0x56)
  | .cvt f => some (f.toWord 0x60)
  | .cvts f => some (f.toWord 0x61)
  | .qblk f => some (f.toWord 0x62)
  | .dqblk f => some (f.toWord 0x63)
  | .ppq f => some (f.toWord 0x64)
  | .ppdq f => some (f.toWord 0x65)
  | .osplit f => some (f.toWord 0x66)
  | .efq f => some (f.toWord 0x67)
  | .iqs f => some (f.toWord 0x68)
  | .idqs f => some (f.toWord 0x69)
  | .fscale f => some (f.toWord 0x6A)
  | .fexpo f => some (f.toWord 0x6B)
  | .nfchk f => some (f.toWord 0x6C)
  | .rmuln f => some (f.toWord 0x70)
  | .umuln f => some (f.toWord 0x71)
  | .rshr f => some (f.toWord 0x72)
  | .ushr f => some (f.toWord 0x73)
  | .radd f => some (f.toWord 0x74)
  | .uadd f => some (f.toWord 0x75)
  | .rmad f => some (f.toWord 0x76)
  | .umad f => some (f.toWord 0x77)
  | .rlrel f => some (f.toWord 0x78)
  | .ulrel f => some (f.toWord 0x79)
  | .rnarr f => some (f.toWord 0x7A)
  | .unarr f => some (f.toWord 0x7B)
  | .rmark f => some (f.toWord 0x7C)
  | .umark f => some (f.toWord 0x7D)
  | .ld f => some (f.toWord 0x80)
  | .st f => some (f.toWord 0x81)
  | .lds f => some (f.toWord 0x82)
  | .sts f => some (f.toWord 0x83)
  | .ldv f => some (f.toWord 0x84)
  | .stv f => some (f.toWord 0x85)
  | .prefL1 f => some (f.toWord 0x86)
  | .prefLlc f => some (f.toWord 0x86)
  | .disc f => some (f.toWord 0x87)
  | .flushWb f => some (f.toWord 0x88)
  | .flushInv f => some (f.toWord 0x88)
  | .flushL1 f => some (f.toWord 0x88)
  | .atom f => some (f.toWord 0x89)
  | .cas f => some (f.toWord 0x8A)
  | .atoms f => some (f.toWord 0x8B)
  | .red f => some (f.toWord 0x8C)
  | .fenceAcq f => some (f.toWord 0x8D)
  | .fenceRel f => some (f.toWord 0x8D)
  | .fenceFull f => some (f.toWord 0x8D)
  | .fenceL1inv f => some (f.toWord 0x8D)
  | .mwait f => some (f.toWord 0x8E)
  | .sld f => some (f.toWord 0x8F)
  | .sst f => some (f.toWord 0x90)
  | .hcopy f => some (f.toWord 0xA0)
  | .htile f => some (f.toWord 0xA1)
  | .hfill f => some (f.toWord 0xA2)
  | .hgather f => some (f.toWord 0xA3)
  | .hscatter f => some (f.toWord 0xA4)
  | .hstat f => some (f.toWord 0xA5)
  | .binit f => some (f.toWord 0xA6)
  | .barrive f => some (f.toWord 0xA7)
  | .bexpect f => some (f.toWord 0xA8)
  | .bexpectArr f => some (f.toWord 0xA8)
  | .bwait f => some (f.toWord 0xA9)
  | .btry f => some (f.toWord 0xAA)
  | .bcont f => some (f.toWord 0xAB)
  | .btrig f => some (f.toWord 0xAC)
  | .mldw f => some (f.toWord 0xB0)
  | .mswap f => some (f.toWord 0xB1)
  | .mstream f => some (f.toWord 0xB2)
  | .mrdy f => some (f.toWord 0xB3)
  | .mdrain f => some (f.toWord 0xB4)
  | .mapply f => some (f.toWord 0xB5)
  | .mzero f => some (f.toWord 0xB6)
  | .mcfg f => some (f.toWord 0xB7)
  | .mscale f => some (f.toWord 0xB8)
  | .mdmap f => some (f.toWord 0xB9)
  | .mstat f => some (f.toWord 0xBA)
  | .taga f => some (f.toWord 0xC0)
  | .tagf f => some (f.toWord 0xC1)
  | .ksend f => some (f.toWord 0xC2)
  | .ksends f => some (f.toWord 0xC3)
  | .kstat f => some (f.toWord 0xC4)
  | .kstatCtr f => some (f.toWord 0xC4)
  | .kcfgDest f => some (f.toWord 0xC5)
  | .kcfgTmo f => some (f.toWord 0xC5)
  | .kcfgOvf f => some (f.toWord 0xC5)
  | .fetch f => some (f.toWord 0xC8)
  | .tdone f => some (f.toWord 0xC9)
  | .gcfgTarget f => some (f.toWord 0xCA)
  | .gcfgRung f => some (f.toWord 0xCA)
  | .gcfgProbe f => some (f.toWord 0xCA)
  | .gstat f => some (f.toWord 0xCB)
  | .gfill f => some (f.toWord 0xCC)
  | .qloadx f => some (f.toWord 0xD0)
  | .qgemv f => some (f.toWord 0xD1)
  | .qfenceW f => some (f.toWord 0xD2)
  | .qfenceR f => some (f.toWord 0xD2)
  | .qfenceWr f => some (f.toWord 0xD2)
  | .qstat f => some (f.toWord 0xD3)
  | .qstatSt f => some (f.toWord 0xD3)
  | .llaunch f => some (f.toWord 0xD8)
  | .lflagAdd f => some (f.toWord 0xD9)
  | .lflagSet f => some (f.toWord 0xD9)
  | .lwait f => some (f.toWord 0xDA)
  | .lstat f => some (f.toWord 0xDB)
  | .seqNop q => some (q.toWord 0x00)
  | .xmit q => some (q.toWord 0x01)
  | .rcvst q => some (q.toWord 0x02)
  | .rcvcmb q => some (q.toWord 0x03)
  | .rcvcf q => some (q.toWord 0x04)
  | .rcvfw q => some (q.toWord 0x05)
  | .waitf q => some (q.toWord 0x06)
  | .sigf q => some (q.toWord 0x07)
  | .sigfPeer q => some (q.toWord 0x07)
  | .seqLoop q => some (q.toWord 0x08)
  | .movi q => some (q.toWord 0x09)
  | .addi q => some (q.toWord 0x0A)
  | .seqAdd q => some (q.toWord 0x0B)
  | .bnz q => some (q.toWord 0x0C)
  | .scaleEnc q => some (q.toWord 0x0D)
  | .scaleDec q => some (q.toWord 0x0D)
  | .seqYield q => some (q.toWord 0x0E)
  | .seqHalt q => some (q.toWord 0x0F)
  | .launchc f => some (f.toWord 0xE0)
  | .joinc f => some (f.toWord 0xE1)
  | .snap f => some (f.toWord 0xE2)
  | .ctxswOut f => some (f.toWord 0xE3)
  | .ctxswIn f => some (f.toWord 0xE3)
  | .tlbiVa f => some (f.toWord 0xE4)
  | .tlbiCtx f => some (f.toWord 0xE4)
  | .tlbiAll f => some (f.toWord 0xE4)
  | .tlbiIc f => some (f.toWord 0xE4)
  | .tlbiIcall f => some (f.toWord 0xE4)
  | .eret f => some (f.toWord 0xE5)
  | .psrd f => some (f.toWord 0xE6)
  | .pswr f => some (f.toWord 0xE7)
  | .wdplace f => some (f.toWord 0xE8)
  | .halt f => some (f.toWord 0xE9)
  | .forcedSwitchPoint => none
  | .barTimeout => none
  | .mwaitWake => none
  | .mwaitPoll => none
  | .mwaitTimeout => none
  | .loadDataReturn => none
  | .storePerform => none
  | .wideReleasePerform => none
  | .deferredFaultReport => none
  | .registerCacheFill => none
  | .registerCacheWriteback => none
  | .softError => none
  | .haulUnitTransfer => none
  | .haulOpComplete => none
  | .ashlarOpComplete => none
  | .ashBudgetWindow => none
  | .ksOperandArrive => none
  | .ksOrphanTimeout => none
  | .ksOrphanRecordExpiry => none
  | .ksForwardRetry => none
  | .ksRecordDeferredWrite => none
  | .groutFill => none
  | .probeMeasure => none
  | .gridEnd => none
  | .qloadxComplete => none
  | .qgemvComplete => none
  | .quarryOperandResend => none
  | .quarryAsyncFault => none
  | .qryRateWindow => none
  | .launchPacketArrive => none
  | .collectiveStart => none
  | .seqTurn => none
  | .chunkArrive => none
  | .peerFlagUpdateArrive => none
  | .seqSendTimeout => none
  | .childCopyTaken => none
  | .joinPark => none
  | .teamPlace => none
  | .preemption => none
  | .feClaimRead => none
  | .emptyPacketPoll => none
  | .andDependencyPoll => none
  | .packetComplete => none
  | .faultRecordWrite => none
  | .uqWptrWrite => none
  | .uqCfgWrite => none
  | .uqCtrlResume => none
  | .uqCtrlReset => none
  | .feResumeRetry => none
  | .feResumeSkip => none
  | .feResumeEnd => none
  | .feCtrlBoot => none
  | .fwCtrlRun => none
  | .ctxCtrlPreempt => none
  | .snapFire => none
  | .snapStatusFullClear => none
  | .snapInEdge => none
  | .snapPacketDue => none
  | .fzSnapSend => none
  | .fzKeyctlInstall => none
  | .linkTrain => none
  | .linkDown => none
  | .flitTransmit => none
  | .flitReceive => none
  | .fzRemapWrite => none
  | .remapTakeEffect => none
  | .pkgcfgTakeEffect => none
  | .remoteRequestArrive => none
  | .remoteResponseArrive => none
  | .fzGapTimeout => none
  | .fzRequestTimeout => none
  | .ftimeTimingPacket => none
  | .lnGo => none
  | .lnSlotctlResume => none
  | .lnSlotctlAbort => none
  | .lnSlotcfgWrite => none
  | .spStepsTakeEffect => none
  | .readClearRegister => none
  | .registerWrite => none
  | .hostBar2Access => none
  | .vfBar2Access => none
  | .vclkInterval => none
  | .powerGovernorEval => none
  | .reset => none
  | .lwaitTimeout => none
  | .gfillTimeout => none
  | .llcLineEviction => none
  | .l1LineEviction => none
  | .chunkCreditReturn => none
  | .zeroLengthReadCompletion => none

/-- The instruction is a word of a Lintel sequencer (R377). -/
def Instr.isSeqWord : Instr → Bool
  | .seqNop _ => true
  | .xmit _ => true
  | .rcvst _ => true
  | .rcvcmb _ => true
  | .rcvcf _ => true
  | .rcvfw _ => true
  | .waitf _ => true
  | .sigf _ => true
  | .sigfPeer _ => true
  | .seqLoop _ => true
  | .movi _ => true
  | .addi _ => true
  | .seqAdd _ => true
  | .bnz _ => true
  | .scaleEnc _ => true
  | .scaleDec _ => true
  | .seqYield _ => true
  | .seqHalt _ => true
  | _ => false

/-- The instruction is a device event: no word encodes it. -/
def Instr.isEvent (i : Instr) : Bool := (encode i).isNone

end Sys2Proof
end

