-- ==== Sys2Proof/Machine/Fetch.lean ====
section
/-! DEFINITION. What happens before a SIMT word takes effect: selection of a group (R91, R92), the instruction cache and loop
buffer (R86, R88 to R90), and what the decoder's refusal becomes (R79, R80, R83). -/

namespace Sys2Proof.Machine

open Sys2Proof

/-! ## Selection (R91, R92) -/

/-- Insert a team by launch order. -/
def insertByOrder (e : Nat × Team) : List (Nat × Team) → List (Nat × Team)
  | [] => [e]
  | x :: xs => if e.2.order ≤ x.2.order then e :: x :: xs else x :: insertByOrder e xs

/-- The groups bound to a slot that are in one of its sets, oldest first: launch order, then group index. -/
def Core.slotGroups (k : Core) (n : Nat) : List (Nat × Nat) :=
  (k.teams.foldr insertByOrder []).flatMap (fun t =>
    (t.2.groups.filter (fun g => g.1 % 4 = n && g.2.inSlot)).map (fun g => (t.1, g.1)))

/-- What SELECT works on: the state, the core and the slot's groups, oldest first. -/
structure Sel where
  s : State
  core : Nat
  groups : List (Nat × Nat)

def Sel.get (x : Sel) (e : Nat × Nat) : Group := (x.s.group? x.core e.1 e.2).getD {}

def Sel.mod (x : Sel) (e : Nat × Nat) (f : Group → Group) : Sel := { x with s := x.s.modGroup x.core e.1 e.2 f }

def Sel.active (x : Sel) : List (Nat × Nat) := x.groups.filter (fun e => (x.get e).active)

def Sel.pendings (x : Sel) : List (Nat × Nat) := x.groups.filter (fun e => !(x.get e).active)

/-- The oldest ready group of the pending set that satisfies a condition. -/
def Sel.readyPending (x : Sel) (p : Nat × Nat → Group → Bool := fun _ _ => true) : Option (Nat × Nat) :=
  x.pendings.find? (fun e => (x.get e).isReady && p e (x.get e))

/-- Move ready pending groups into the active set while it holds fewer than eight. -/
def Sel.refill : Nat → Sel → Sel
  | 0, x => x
  | n + 1, x =>
    if 8 ≤ x.active.length then x else
    match x.readyPending with
    | some e => Sel.refill n (x.mod e (fun g => { g with active := true }))
    | none => x

/-- A current group that reached the greed limit or yielded is barred, and may change places with a pending one (R92). It counts as
ready in the pending set from that moment (log 81). -/
def Sel.greedy (x : Sel) (cur : Option (Nat × Nat)) : Sel :=
  match cur with
  | none => x
  | some e =>
    let g := x.get e
    if g.active && (decide (64 ≤ g.greed) || g.yielded) then
      let other (f : Nat × Nat) (_ : Group) : Bool := f ≠ e
      let p := match (if g.yieldPend then x.readyPending other else none) with
        | some f => some f
        | none => x.readyPending (fun _ h => decide (h.readySince + 4096 ≤ x.s.clock))
      let x1 := x.mod e (fun g => { g with barred := true, greed := 0, yielded := false, yieldPend := false })
      match p with
      | some f =>
        (x1.mod e (fun g => { g with active := false, readySince := x.s.clock })).mod f (fun g => { g with active := true })
      | none => x1
    else x

/-- The next group of the slot (R92). -/
def Sel.next (x : Sel) (cur : Option (Nat × Nat)) : Sel × Option (Nat × Nat) :=
  let ok (x : Sel) (e : Nat × Nat) : Bool := (x.get e).isReady && !(x.get e).barred
  match cur.filter (fun e => (x.get e).active && ok x e) with
  | some e => (x, some e)
  | none =>
    match x.active.find? (ok x) with
    | some e => (x, some e)
    | none =>
      let x1 := x.active.foldl (fun (x : Sel) e => x.mod e (fun g => { g with barred := false })) x
      (x1, x1.active.find? (fun e => (x1.get e).isReady))

/-- SELECT (R92) for slot `n` of core `c`. A capture is discarded when another group is selected, and when its group has left the
slot's sets (R89). -/
def State.select (s : State) (c n : Nat) : State :=
  let groups := (s.core c).slotGroups n
  let slot := (s.core c).slot n
  let cur := slot.cur.filter groups.contains
  let x0 : Sel := { s := s, core := c, groups := groups }
  let x1 := match cur with
    | some e => if (x0.get e).longWait then x0.mod e (fun g => { g with active := false }) else x0
    | none => x0
  let x2 := x1.pendings.foldl (fun (x : Sel) e =>
    if (x.get e).isReady then x else x.mod e (fun g => { g with readySince := s.clock })) x1
  let r := ((x2.greedy cur).refill 8).next cur
  let x3 := match r.2 with
    | some e => if cur = some e then r.1 else r.1.mod e (fun g => { g with greed := 0, pathLoop := none })
    | none => r.1
  x3.s.modCore c (fun k => k.setSlot n {
    cur := r.2, resel := false
    capture := slot.capture.filter (fun p => groups.contains (p.1, p.2.1) && r.2.all (· = (p.1, p.2.1))) })

/-! ## Fetch (R86, R88, R89) -/

/-- A fetch that fails (R88). -/
def fetchTrap (code info addr : Nat) : Trap :=
  { code := code, info := BitVec.ofNat 32 info, addr := BitVec.ofNat 64 addr, access := 3 }

/-- Lines that the instruction cache of a core holds: 128 KiB (R88). -/
def icacheLines : Nat := 1024

/-- Put a line in the instruction cache of a core; of a full one one line goes. A poisoned line is a poisoned arrival (R164). -/
def State.fillIcache (s : State) (ln : Nat) (l : Line) : State :=
  let c := s.focus.core
  let r := s.victim ((sdel ln (s.core c).icache).map (·.1)) icacheLines
  (r.1.modCore c (fun k => { k with icache := sins ln l (match r.2 with
    | some v => sdel v k.icache
    | none => k.icache) })).countPoison (l.poison ≠ [])

/-- The context in which a group's words are fetched: the firmware slot is a group of context 0, and only its accesses and
engine operations are made in its acting context (R403). -/
def State.fetchCtx (s : State) : Nat := if s.focus.team = 8 then 0 else s.ownCtx

/-- Fetch the word at an address through the instruction cache (R88). Memory of another package and management space cannot
fill a line: ADDR_RANGE. The host may complete a read of its memory with an error (R155). -/
def State.fetchWord (s : State) (a : Nat) : State × Except Trap Word :=
  let c := s.focus.core
  let ctx := s.fetchCtx
  let r := s.translate ctx a 3
  match r.2 with
  | .error e => (r.1, .error (fetchTrap e.code e.info a))
  | .ok x =>
    let s1 := r.1
    let pa := localOf x.pa
    let ln := pa / 128
    let take (s : State) (l : Line) : State × Except Trap Word :=
      if l.poison.contains (pa % 128 / 64) then (s, .error (fetchTrap 0x17 1024 a))
      else (s, .ok (word8 (l.bytes.read (pa % 128) 8)))
    if s.isRemote x.pa || region pa = .mgmt then (s1, .error (fetchTrap 0x12 1 a)) else
    match sfind ln (s1.core c).icache with
    | some l => take s1 l
    | none =>
      let uc := s1.isUc x
      let q := s1.admitOne (masterId 0 ctx) 3 (pa / 64 * 64) uc
      if !q.2 || (decide (region pa = .pci) && decide (s.input = .flag true)) then (q.1, .error (fetchTrap 0x15 0 a)) else
      let s2 := if uc then q.1 else q.1.allocLine ln (x.cpol = 1)
      let l : Line := match (if uc then none else sfind ln s2.llc) with
        | some l => { bytes := l.bytes, poison := l.poison }
        | none => s2.dramLine ln
      take (s2.fillIcache ln l) l

/-- The loop state of a path that resumes inside a loop is read from its LOOP word (R86). A failure of that read traps at the body
word, with the address of the LOOP word (log 81). -/
def State.resumeLoop (s : State) : State × Option Trap :=
  let pc := s.own.pathPc
  if pcLooping pc && s.own.pathLoop.isNone then
    let r := s.fetchWord ((pcAddr pc + 2 ^ 56 - 8 * (pcIndex pc + 1)) % 2 ^ 56)
    match r.2 with
    | .error t => (r.1, some t)
    | .ok w => (r.1.modOwn (fun g =>
        { g with pathLoop := some (bits w.toNat 38 7, bits w.toNat 0 6) }), none)
  else (s, none)

/-- The word of the current path: from the slot's capture of its loop body, or through the instruction cache; a pass through a
body captures it when the slot's buffer is free or holds another group's capture (R89). -/
def State.fetchNext (s : State) : State × Except Trap Word :=
  let pc := s.own.pathPc
  let a := pcAddr pc
  if pcLooping pc then
    let i := pcIndex pc
    let start := loopStart pc
    let n := s.ownSlot
    let own := ((s.core s.focus.core).slot n).capture.filter (fun c => c.1 = s.focus.team ∧ c.2.1 = s.focus.group)
    let mine := own.filter (fun c => c.2.2.1 = start)
    match mine.bind (fun c => c.2.2.2[i]?) with
    | some w => (s, .ok w)
    | none =>
      let r := s.fetchWord a
      match r.2 with
      | .error t => (r.1, .error t)
      | .ok w =>
        let words := match mine with
          | some c => if c.2.2.2.length = i then some (c.2.2.2 ++ [w]) else none
          | none => if i = 0 ∧ own.isNone then some [w] else none
        match words with
        | some ws => (r.1.modCore s.focus.core (fun k => k.setSlot n { k.slot n with
            capture := some (s.focus.team, s.focus.group, start, ws) }), .ok w)
        | none => (r.1, .ok w)
  else s.fetchWord a

/-- The fault of a fetch names the lanes of the current path, whose word was not read; it is precise, also when an access
table refused the fetch (R88, log 68). -/
def State.fetchFault (s : State) (t : Trap) : State := (s.takeTrap { t with lanes := s.own.cur }).reselect

/-- A word with a reserved major opcode: ILLEGAL_OP when it has an active lane (R79, R80). -/
def State.illegalWord (s : State) (op : BitVec 8) (w : Word) : State :=
  let f := Full.ofWord w
  let s1 := s.modOwn Group.restore
  let act := s1.own.activeFor f
  if act = 0 then s1.retireNop f
  else s1.trapWord act { op := op.toNat } { code := 0x01, info := op.setWidth 32 }

/-- The group that `focus` names is to issue a word: a path is chosen when the current one is in a long wait (R102). -/
def State.enterGroup (s : State) : State × Bool :=
  if !s.own.isReady then (s, false)
  else if s.own.cur &&& s.own.live ≠ 0 && !s.own.pathWaits (s.own.cur &&& s.own.live) then (s, true)
  else (s.modOwn (fun g => g.pathsel s.ticks), true)

/-- The core has issued no word from a slot later than `n` in this core cycle. -/
def State.slotFree (s : State) (c n : Nat) : Bool := (s.core c).issued.all (fun e => e.1 ≠ s.clock || decide (e.2 ≤ n))

/-- The firmware slot of core `c` issues next through issue slot 0: RUN is set, it is ready, and 4 vector cycles have passed
since its last word (R95, R403, R404). -/
def State.firmwareDue (s : State) (c : Nat) : Bool :=
  (s.reg (offCore c + 0x300)).getLsbD 0 && ((s.group? c 8 0).map Group.isReady).getD false
    && (s.core c).fwIssued.all (fun t => decide (480 ≤ (s.ticks - t) * (24 + s.regBits (offCore c + 0x208) 0 3)))

/-- The slot `n` of core `c` is to issue: it selects when it must, and `focus` names its group (R91, R92). The slots of a core
issue in ascending order within a core cycle (R270, R347), and the firmware slot ahead of slot 0's group (R403). -/
def State.enterSlot (s : State) (c n : Nat) : State × Bool :=
  if !s.slotFree c n || (n = 0 && s.firmwareDue c) then (s, false) else
  let slot := (s.core c).slot n
  let live := match slot.cur with
    | some e => ((s.group? c e.1 e.2).map Group.inSlot).getD false
    | none => false
  let s1 := if slot.resel || !live then s.select c n else s
  match ((s1.core c).slot n).cur with
  | none => (s1, false)
  | some e =>
    let s2 := s1.modCore c (fun k => { k with issued := some (s.clock, n) })
    ({ s2 with focus := { core := c, team := e.1, group := e.2, slot := n } }).enterGroup

/-- The firmware slot of core `c` is to issue, through issue slot 0 (R403). -/
def State.enterFirmware (s : State) (c : Nat) : State × Bool :=
  if !s.slotFree c 0 || !s.firmwareDue c then (s, false) else
  let s1 := s.modCore c (fun k => { k with issued := some (s.clock, 0), fwIssued := some s.ticks })
  ({ s1 with focus := { core := c, team := 8 } }).enterGroup

/-- R42 FORCED_SWITCH_POINT: the ninth word since the last switch point is one, whatever it holds. -/
def execForcedSwitchPoint (s : State) : Host.Outcome State Fault Refusal :=
  match s.own? with
  | none => .next s
  | some g => if 9 ≤ g.count then .next s.switchPoint else .next s

end Sys2Proof.Machine
end

