-- ==== Sys2Proof/Machine/Haul.lean ====
section
/-! DEFINITION. The Haul engine (R243 to R255). -/

namespace Sys2Proof.Machine

open Sys2Proof

/-! ## An operation's element order (R246 to R249) -/

def HaulOp.dsp (o : HaulOp) : Bool := o.fn.getLsbD 5
def HaulOp.ssp (o : HaulOp) : Bool := o.fn.getLsbD 4
def HaulOp.mode (o : HaulOp) : Nat := bits o.fn.toNat 0 2
/-- Element size of HTILE, pattern size of HFILL. -/
def HaulOp.esize (o : HaulOp) : Nat := 2 ^ bits o.fn.toNat 2 2

/-- HTILE's descriptor (R247). -/
def HaulOp.ext (o : HaulOp) (i : Nat) : Nat := dsc o.desc i
def HaulOp.tb (o : HaulOp) : Nat := bits (dsc o.desc 3) 0 3
def HaulOp.step (o : HaulOp) (i : Nat) : Int := signedOf 64 (dsc64 o.desc i)

/-- Interleave the low bits of `i` at even and of `j` at odd positions (R248). -/
def morton : Nat → Nat → Nat → Nat
  | 0, _, _ => 0
  | n + 1, i, j => i % 2 + 2 * (j % 2) + 4 * morton n (i / 2) (j / 2)

/-- POS of element (i, j, k) on one side of HTILE, relative to its base. -/
def HaulOp.pos (o : HaulOp) (tiled : Bool) (sj : Nat) (i j k : Nat) : Int :=
  let e : Int := o.esize
  let t := 2 ^ o.tb
  if tiled then
    (k : Int) * o.step (sj + 2)
      + ((j / t * ((o.ext 0 + t - 1) / t) + i / t) * (t * t) + morton o.tb (i % t) (j % t) : Nat) * e
  else (i : Int) * e + (j : Int) * o.step sj + (k : Int) * o.step (sj + 2)

/-- Source and destination offsets of HTILE's element `n` (R248). -/
def HaulOp.tilePos (o : HaulOp) (n : Nat) : Int × Int :=
  let i := n % o.ext 0
  let j := n / o.ext 0 % o.ext 1
  let k := n / o.ext 0 / o.ext 1
  (o.pos (o.mode = 2) 4 i j k, o.pos (o.mode = 1) 8 i j k)

/-- GX fields (R249). -/
def HaulOp.rowBytes (o : HaulOp) : Nat := dsc o.desc 2
def HaulOp.stride (o : HaulOp) : Nat := dsc64 o.desc 4

/-- An address plus an offset, modulo 2^64. -/
def addr64 (base : Nat) (off : Int) : Nat := (((base : Int) + off) % (2 ^ 64 : Nat)).toNat

/-- Base address of a side: bits [31:0] of the operand for scratchpad (R244). -/
def HaulOp.base (o : HaulOp) (dest : Bool) : Nat :=
  let w := if dest then o.dst else o.src
  if (if dest then o.dsp else o.ssp) then bits w.toNat 0 32 else w.toNat

/-- Address of byte `k` of the element order on a side; `x` is the index of its row. -/
def HaulOp.addr (o : HaulOp) (dest : Bool) (x k : Nat) : Nat :=
  let b := o.base dest
  match o.op with
  | 0xA1 =>
    let p := o.tilePos (k / o.esize)
    addr64 b ((if dest then p.2 else p.1) + (k % o.esize : Nat))
  | 0xA3 => if dest then addr64 b k else addr64 b (x * o.stride + k % o.rowBytes : Nat)
  | 0xA4 => if dest then addr64 b (x * o.stride + k % o.rowBytes : Nat) else addr64 b k
  | _ => addr64 b k

/-- The operation reads a row index. -/
def HaulOp.indexed (o : HaulOp) : Bool := o.op = 0xA3 || o.op = 0xA4

/-! ## Moving bytes -/

/-- Why an operation stops (R253): code, FR_INFO, address, side. -/
structure HaulStop where
  code : Nat
  info : W32 := 0
  addr : Nat := 0
  dest : Bool := false
  deriving DecidableEq, Repr

/-- One byte to write: scratchpad address or translation, value, poison, position, its address and that of its source as the
operation counts them, and the physical address of a source in this package. `skip` tells that it is not written: it was before
its turn, or a later byte of the order has its place already. -/
structure HaulByte where
  sp : Option Nat := none
  x : Xlat := ⟨0, 0⟩
  val : Byte := 0
  poison : Bool := false
  k : Nat := 0
  va : Nat := 0
  from_ : Option Nat := none
  near : Option Nat := none
  skip : Bool := false
  deriving DecidableEq, Repr

/-- Where a byte is written: its scratchpad or physical address. -/
def HaulByte.place (b : HaulByte) : Nat := b.sp.getD b.x.pa

/-- A transfer under way: the bytes read so far, latest first, the ports that their requests take, the remote source bytes to ask
for, whether it waits for a port, and why it stopped. -/
structure HaulRun where
  s : State
  o : HaulOp
  out : List HaulByte := []
  asked : List Nat := []
  missing : List Nat := []
  paused : Bool := false
  stop : Option HaulStop := none

/-- Read the index of the row of byte `k`, when the engine reaches it (R249), and check a scratchpad row. -/
def HaulRun.index (r : HaulRun) (m : Team) (k : Nat) : HaulRun :=
  let o := r.o
  if !o.indexed then r else
  let row := k / o.rowBytes
  if (o.row.map (·.1)) = some row then r else
  let a := dsc o.desc 0 + 4 * row
  if m.spPoisoned a 4 then { r with stop := some { code := 0x17, addr := a } } else
  let x := natOfBytes (m.scratch.read a 4)
  let dest := decide (o.op = 0xA4)
  let first := ({ o with row := some (row, x) } : HaulOp).addr dest x (row * o.rowBytes)
  if (if dest then o.dsp else o.ssp) && (first + o.rowBytes > m.scratchSize || first + o.rowBytes > 2 ^ 32) then
    { r with stop := some { code := 0x12, info := 3, addr := first, dest := dest } }
  else { r with o := { o with row := some (row, x) } }

/-- Address of the source byte at position `k`; a fill has none. -/
def HaulRun.sourceAddr (r : HaulRun) (k : Nat) : Option Nat :=
  if r.o.op = 0xA2 then none else some (r.o.addr false ((r.o.row.map (·.2)).getD 0) k)

/-- Why an operation stops at a global address (R253). -/
def State.haulStop (s : State) (e : EngineFail) (va : Nat) (dest : Bool) : HaulStop := ⟨e.code, e.info, s.failAddr e va, dest⟩

/-- The source byte at position `k`, or none while it has not come: value, poison and physical address in this package. -/
def HaulRun.source (r : HaulRun) (m : Team) (c ctx k : Nat) : HaulRun × Option (Byte × Bool × Option Nat) :=
  let o := r.o
  match r.sourceAddr k with
  | none => (r, some (BitVec.ofNat 8 (bits o.src.toNat (8 * (k % o.esize)) 8), false, none))
  | some a =>
    match o.early.find? (fun e => e.1 = k) with
    | some e => (r, some (e.2.1, e.2.2, none))
    | none =>
    if o.ssp then (r, some ((m.spByte a).1, (m.spByte a).2, none)) else
    match r.s.engineByte 1 ctx a 1 with
    | (s1, .error e) => ({ r with s := s1, stop := some (r.s.haulStop e a false) }, none)
    | (s1, .ok x) =>
      match s1.engineRead x (.haul c o.id) with
      | .error e => ({ r with s := s1, stop := some (s1.haulStop e a false) }, none)
      | .ok none => ({ r with s := s1, missing := (s1.farWant (.haul c o.id) ctx a).toList, paused := true }, none)
      | .ok (some b) => ({ r with s := s1 }, some (b.1, b.2, if s1.isRemote x.pa then none else some (localOf x.pa)))

/-- Admit the destination byte at position `k`. -/
def HaulRun.dest (r : HaulRun) (ctx k : Nat) (v : Byte × Bool × Option Nat) : HaulRun :=
  let a := r.o.addr true ((r.o.row.map (·.2)).getD 0) k
  let b : HaulByte := { val := v.1, poison := v.2.1, k := k, va := a, from_ := r.sourceAddr k, near := v.2.2 }
  let put (b : HaulByte) : HaulByte := { b with skip := r.o.ahead.any (fun p => p.2 = b.place && decide (k < p.1)) }
  if r.o.dsp then { r with out := put { b with sp := some a } :: r.out } else
  match r.s.engineByte 1 ctx a 2 with
  | (s1, .error e) => { r with s := s1, stop := some (r.s.haulStop e a true) }
  | (s1, .ok x) =>
    let y := put { b with x := x }
    if y.skip then { r with s := s1, out := y :: r.out } else
    match s1.portStep ((r.out.find? (!·.skip)).map (·.x)) r.asked x with
    | none => { r with s := s1, paused := true }
    | some asked => { r with s := s1, asked := asked, out := y :: r.out }

/-- Move the byte at position `k`, unless it was written before its turn. Behind a missing remote byte, those that are missing too are
only collected. -/
def HaulRun.byte (m : Team) (c ctx : Nat) (r : HaulRun) (k : Nat) : HaulRun :=
  if r.stop.isSome || (r.paused && r.missing = []) then r else
  let r1 := r.index m k
  if r.o.ahead.any (fun p => p.1 = k) then
    if r.paused || r1.stop.isSome then r1 else
    { r1 with out := { k := k, va := r1.o.addr true ((r1.o.row.map (·.2)).getD 0) k, from_ := r1.sourceAddr k, skip := true } :: r1.out }
  else if r.paused then
    if r1.stop.isSome || r.o.ssp then r
    else { r1 with missing := r.missing ++ ((r1.sourceAddr k).bind (r.s.farWant (.haul c r.o.id) ctx)).toList }
  else if r1.stop.isSome then r1 else
  let q := r1.source m c ctx k
  match q.2 with
  | none => q.1
  | some v => q.1.dest ctx k v

/-- Two bytes in a row that belong to one single-copy atomic unit: consecutive in one aligned 8-byte unit on either side (R250). -/
def HaulByte.joins (a b : HaulByte) : Bool :=
  decide (b.va = a.va + 1 ∧ b.va % 8 ≠ 0) && (match a.from_, b.from_ with
    | some x, some y => decide (y = x + 1 ∧ y % 8 = b.va % 8)
    | _, _ => false)

/-- The bytes moved, latest first, without those of a unit that `next` would go on with. -/
def HaulByte.cut (next : HaulByte) : List HaulByte → List HaulByte
  | [] => []
  | b :: bs => if b.joins next then HaulByte.cut b bs else b :: bs

/-- The bytes of a turn, latest first, cut where no single-copy atomic unit that position `k` would go on with is split. -/
def HaulRun.whole (r : HaulRun) (k : Nat) : List HaulByte :=
  let x := (r.o.row.map (·.2)).getD 0
  if k ≥ r.o.total ∨ (r.o.indexed ∧ k % r.o.rowBytes = 0) ∨ (r.o.op = 0xA1 ∧ k % r.o.esize = 0) then r.out
  else HaulByte.cut { va := r.o.addr true x k, from_ := r.sourceAddr k } r.out

/-- Write the global bytes of a turn, request by request; posted writes are noted with the position of their first
bytes. -/
def State.haulEmit (s : State) (c : Nat) (o : HaulOp) (ctx : Nat) : Nat → List HaulByte → State × List ((Nat × Nat) × Nat)
  | 0, _ => (s, [])
  | _, [] => (s, [])
  | n + 1, b :: bs =>
    let out (e : HaulByte) : OutByte := ⟨e.x, e.val, e.poison⟩
    let len := (runOf (fun e => e.x.near b.x) ((b :: bs).map out)).1.length
    let w := s.emitRun (.haul c o.id) ctx (((b :: bs).take len).map out)
    let q := w.1.haulEmit c o ctx n ((b :: bs).drop len)
    (q.1, w.2.map (fun p => (p, b.k)) ++ q.2)

/-- Write the bytes that were moved, in the element order. -/
def State.haulWrite (s : State) (c : Nat) (o : HaulOp) (ctx : Nat) (moved : List HaulByte) : State × List ((Nat × Nat) × Nat) :=
  let out := moved.filter (fun e => !e.skip)
  if o.dsp then
    (s.modTeamBy c o.grid (fun m => m.spWrite (out.filterMap (fun e => e.sp.map (fun a => (a, e.val))))
      ((out.filter (·.poison)).filterMap (·.sp))), [])
  else s.haulEmit c o ctx (out.length + 1) out

/-- The operation's COUNT: bytes of the prefix whose writes have performed, for HTILE of whole elements (R51, R248, R252). -/
def HaulOp.done (o : HaulOp) : Nat :=
  let n := o.posts.foldl (fun acc e => min acc e.2) o.count
  if o.op = 0xA1 then n / o.esize * o.esize else n

def Core.haulOp (k : Core) (id : Nat) : Option HaulOp := k.haul.find? (fun o => o.id = id)

def State.modHaul (s : State) (c id : Nat) (f : HaulOp → HaulOp) : State :=
  s.modCore c (fun k => { k with haul := k.haul.map (fun o => if o.id = id then f o else o) })

/-- Bring the progress record of an operation's future up to date (R251). -/
def State.haulNote (s : State) (c id : Nat) : State :=
  match (s.core c).haulOp id with
  | some o => s.noteProgress c o.grid o.handle 1 o.done
  | none => s

/-- A fault of an operation (R253): the record, and what becomes of the operation. A cancelled one does not wait for service
(R254). -/
def State.haulFault (s : State) (c id : Nat) (e : HaulStop) : State :=
  match (s.core c).haulOp id with
  | none => s
  | some o =>
    let t := ((s.core c).slotOf o.grid).getD 0
    let page := e.code = 0x10 || e.code = 0x11
    let stays := page && !o.cancelled
    let ctx := s.ctxBy c o.grid
    let extra : W32 := if e.code = 0x18 then 0 else BitVec.ofNat 32 (o.op * 2 ^ 8 + if e.dest then 2 ^ 16 else 0)
    let s1 := s.record {
      context := ctx, code := e.code, master := 1, unit := c, team := t, group := o.group
      access := if e.code = 0x17 ∨ e.code = 0x18 then 0 else if e.dest then 2 else 1
      scope := bits o.fn.toNat 7 4, progress := some (mkProgress 1 o.done), pc := o.pc
      addr := BitVec.ofNat 64 e.addr, info := e.info ||| extra, future := o.handle.getD 0 }
      (if stays then some (.haul c id) else none)
    s1.modHaul c id (fun o => if stays then { o with stopped := some (s.nextSeq ctx) }
      else { o with ended := some (o.ended.getD (if page then 0x80 else e.code)) })

/-- The operation is to stop at its next 64-byte boundary: it is cancelled (R254), or its team is being switched out and its groups
have stopped (R266). -/
def State.haulHalts (s : State) (c : Nat) (o : HaulOp) : Bool :=
  o.cancelled || (s.teamBy c o.grid).any (fun m =>
    (match m.residency with
      | .leaving _ _ => true
      | _ => false) && m.groups.all (fun e => e.2.stop.isSome || e.2.exited = 0xFFFFFFFF))

/-- The bounds of the element or row that position `k` lies in. -/
def HaulOp.bounds (o : HaulOp) (k : Nat) : Nat × Nat :=
  let n := if o.indexed then o.rowBytes else if o.op = 0xA1 then o.esize else 0
  if n = 0 then (0, o.total) else (k / n * n, k / n * n + n)

/-- The positions of the single-copy atomic unit that position `k` lies in, where `x` is the index of its row (R250). -/
def HaulOp.piece (o : HaulOp) (x k : Nat) : List Nat :=
  let va := o.addr true x k
  let lo := k - va % 8
  if o.op ≠ 0xA2 && va % 8 ≤ k && decide ((o.bounds k).1 ≤ lo) && decide (lo + 8 ≤ (o.bounds k).2)
      && decide (o.addr false x k % 8 = va % 8) then (List.range 8).map (lo + ·) else [k]

/-- Positions of the next unit: 4 KiB, or for an operation that is to stop up to the next 64-byte boundary (R243, R254, R266). -/
def HaulOp.unit (o : HaulOp) (halts : Bool) : List Nat :=
  let n := if halts then (64 - o.count % 64) % 64 else 4096
  (List.range (min n (o.total - o.count))).map (o.count + ·)

/-- The positions behind a unit that finish its last single-copy atomic unit (R250). -/
def HaulRun.tail (r : HaulRun) : List Nat :=
  match r.out with
  | b :: _ => (r.o.piece ((r.o.row.map (·.2)).getD 0) b.k).filter (fun k => decide (b.k < k))
  | [] => []

/-- Poisoned granules that arrive at the core with these bytes (R164). -/
def HaulOp.poisonedIn (o : HaulOp) (out : List HaulByte) : Nat :=
  if o.ssp || o.op = 0xA2 then 0 else
  ((out.filter (fun b => b.poison && !o.early.any (fun e => e.1 = b.k))).filterMap (fun b => b.from_.map (· / 64))).eraseDups.length

/-- Move one unit of an operation: nothing while bytes of its source in another package are missing, and otherwise up to the byte
that its port has no room for or that fails. COUNT of an operation that is to stop goes no further than its 64-byte boundary; bytes
beyond it that finish an atomic unit are written before their turn. -/
def State.haulUnit (s : State) (c : Nat) (o : HaulOp) : State :=
  let m := (s.teamBy c o.grid).getD {}
  let ctx := s.ctxBy c o.grid
  let halts := s.haulHalts c o
  let r0 := (o.unit halts).foldl (HaulRun.byte m c ctx) { s := s, o := o }
  let r := if halts then r0.tail.foldl (HaulRun.byte m c ctx) r0 else r0
  if r.missing ≠ [] then r.s.farAsk (.haul c o.id) ctx r.missing else
  let out := (r.whole (o.count + r.out.length)).reverse
  let upTo := if halts then min (o.count + out.length) (o.count + (o.unit true).length) else o.count + out.length
  let s0 := ((r.s.noteAccesses false 1 ctx (some c) (out.filterMap (·.near))).farDone (.haul c o.id)).poisonIn c (o.poisonedIn out)
  let w := s0.haulWrite c o ctx out
  let s1 := w.1.modHaul c o.id (fun p => { p with
    count := upTo, row := r.o.row, posts := p.posts ++ w.2, early := p.early.filter (fun e => decide (upTo ≤ e.1))
    ahead := p.ahead.filter (fun e => decide (upTo ≤ e.1))
      ++ (out.filter (fun b => decide (upTo ≤ b.k) && !b.skip)).map (fun b => (b.k, b.place))
    ended := if o.cancelled ∧ ¬ r.paused ∧ r.stop.isNone then some 0x80 else p.ended })
  let s2 := match r.stop with
    | some e => s1.haulFault c o.id e
    | none => s1
  s2.haulNote c o.id

/-- The single-copy atomic unit that position `k` lies in is read, and with `write` written, before its turn (R250, R252): the
writes of an operation become visible in any order, and a source byte that it writes itself is read before or after. Nothing
happens where a byte of the unit fails or waits. -/
def State.haulAhead (s : State) (c : Nat) (o : HaulOp) (k : Nat) (write : Bool) : State :=
  let m := (s.teamBy c o.grid).getD {}
  let ctx := s.ctxBy c o.grid
  let x := ((({ s := s, o := o } : HaulRun).index m k).o.row.map (·.2)).getD 0
  let ps := (o.piece x k).filter (fun k => decide (o.count ≤ k))
  let r := ps.foldl (HaulRun.byte m c ctx) { s := s, o := o }
  if k < o.count || k ≥ o.total || s.haulHalts c o || r.stop.isSome || r.paused || ps.any (fun k => o.ahead.any (fun p => p.1 = k))
    then s else
  let out := r.out.reverse
  let s0 := (r.s.noteAccesses false 1 ctx (some c) (out.filterMap (·.near))).poisonIn c (o.poisonedIn out)
  if write then
    let w := s0.haulWrite c o ctx out
    w.1.modHaul c o.id (fun p => { p with
      posts := p.posts ++ w.2, ahead := p.ahead ++ out.map (fun b => (b.k, b.place)), early := p.early.filter (fun e => !ps.contains e.1) })
  else s0.modHaul c o.id (fun p => { p with
    early := p.early.filter (fun e => !ps.contains e.1) ++ out.map (fun b => (b.k, b.val, b.poison)) })

/-- The operation has something to move. -/
def State.haulRuns (s : State) (c : Nat) (o : HaulOp) : Bool :=
  o.stopped.isNone && o.ended.isNone && !o.saved && (o.cancelled
    || (decide (o.count < o.total) && (decide (o.count % 64 ≠ 0) || !s.haulHalts c o)))

/-- R243 HAUL_UNIT_TRANSFER: the operation whose turn it is moves a unit, and goes to the end of the round. With `focus.number` 1 the
atomic unit at position `focus.index` of the operation at place `focus.slot` is read before its turn, and with 2 it is written
too. -/
def execHaulUnitTransfer (s : State) : Host.Outcome State Fault Refusal :=
  let c := s.focus.core
  if s.veiledCore c then .next s else
  if s.focus.number ≠ 0 then
    match (s.core c).haul[s.focus.slot]? with
    | none => .next s
    | some o => .next (if s.haulRuns c o then (s.touch c none).haulAhead c o s.focus.index (decide (s.focus.number = 2)) else s)
  else
  match (s.core c).haul.find? (s.haulRuns c) with
  | none => .next s
  | some o =>
    .next (((s.touch c none).modCore c (fun k => { k with haul := dropFirst (fun p => p.id = o.id) k.haul ++ [o] })).haulUnit c o)

/-- The operation is over: it moved everything or has ended, and every write it made has performed (R252). -/
def State.haulOver (s : State) (o : HaulOp) : Bool :=
  !o.saved && o.stopped.isNone && (o.ended.isSome || (decide (o.count ≥ o.total) && !o.cancelled))
    && o.posts.all (fun e => !s.postOpen e.1)

/-- The status word of an operation that is over. RESULT of DONE the manual does not state (log 3). -/
def State.haulStatus (s : State) (o : HaulOp) : Word × State :=
  match o.ended with
  | none => (statusWord 0 1 s.draw.1.toNat, s.draw.2)
  | some 0x80 => (statusWord 0x80 1 0, s)
  | some c => (statusWord c 1 (o.done / 2 ^ 16), s)

/-- R252 HAUL_OP_COMPLETE: an operation whose writes have performed resolves its future and arrives on its barrier; words of the core
that wait for room are tried again (R243). -/
def execHaulOpComplete (s : State) : Host.Outcome State Fault Refusal :=
  let c := s.focus.core
  match (s.core c).haul.find? (fun o => s.haulOver o && ((s.core c).slotOf o.grid).isSome) with
  | none => .next s
  | some o =>
    let st := s.haulStatus { o with posts := [] }
    let s1 := st.2.modCore c (fun k => { k with haul := k.haul.filter (fun p => p.id ≠ o.id) })
    let s2 := (s1.noteProgress c o.grid o.handle 1 ({ o with posts := [] } : HaulOp).done).farDone (.haul c o.id)
    let s3 := s2.resolveOp c o.grid o.handle st.1
    let s4 := match o.bar with
      | some a => s3.barEventBy c o.grid a {
          pending := -(o.total : Int), incomplete := o.ended.isSome, group := o.group, pc := o.pc
          handle := o.handle.getD 0 }
      | none => s3
    .next ((s4.modCore c (Core.mapTeams Team.wake)).settleBy c o.grid)

/-- A posted write of an operation was acknowledged, or has failed (R252, R253). -/
def State.haulAck (s : State) (c id : Nat) (p : Nat × Nat) : State :=
  (s.modHaul c id (fun o => { o with posts := o.posts.filter (fun e => e.1 ≠ p) })).haulNote c id

/-- A posted write failed: the operation ends, with COUNT at the position of the write, and its record names the request's address in
the domain (R61, R364). -/
def State.haulLost (s : State) (c id : Nat) (p : Nat × Nat) (code : Nat) (info : W32) (pa : Nat) : State :=
  match (s.core c).haulOp id with
  | none => s
  | some o =>
    let k := ((o.posts.find? (fun e => e.1 = p)).map (·.2)).getD o.count
    let s1 := s.modHaul c id (fun o => { o with count := min o.count k, posts := o.posts.filter (fun e => e.1 ≠ p) })
    (s1.haulFault c id ⟨code, info, pa, true⟩).haulNote c id

/-! ## The words (R244, R245) -/

/-- Shape of the copy words. -/
def haulShape (op : Nat) (f : Full) (bad : Bool) : Shape where
  op := op
  roles := [0, 3]
  dst := some (asyncD f)
  srcs := [asyncA f, asyncB f, asyncC f]
  bad := [(7, badScope f), (0, bad)]
  scope := scopeF f
  behind := [0xA1, 0xA3, 0xA4].contains op

/-- Rank 4 for HTILE's descriptor (R247). -/
def tileBad (fn : BitVec 11) (d : List W32) : Option Nat :=
  let lin := bits fn.toNat 0 2 = 0
  firstBad [
    badAt 0x00 (dsc d 0 > 1048576), badAt 0x04 (dsc d 1 > 65536), badAt 0x08 (dsc d 2 > 65536),
    badAt 0x0C (lin && bits (dsc d 3) 0 3 ≠ 0), reservedAt 0x0C (dsc d 3 &&& 0xFFFFFFF8),
    reservedAt 0x30 (dsc d 12), reservedAt 0x34 (dsc d 13), reservedAt 0x38 (dsc d 14), reservedAt 0x3C (dsc d 15),
    badAt 0x00 (dsc d 0 * dsc d 1 * dsc d 2 * 2 ^ bits fn.toNat 2 2 > 2 ^ 32 - 1)]

/-- Rank 4 for the gather descriptor (R249). -/
def gatherBad (d : List W32) : Option Nat :=
  firstBad [
    badAt 0x00 (dsc d 0 % 4 ≠ 0), badAt 0x04 (dsc d 1 > 65536), badAt 0x08 (dsc d 2 > 1048576),
    reservedAt 0x0C (dsc d 3), reservedAt 0x18 (dsc64 d 6), badAt 0x04 (dsc d 1 * dsc d 2 > 2 ^ 32 - 1)]

/-- Rank 5: a contiguous global range of `n` bytes (R245). -/
def globalRange (a n acc : Nat) : Option Trap :=
  if n ≠ 0 ∧ (a ≥ 2 ^ 56 ∨ (a + n - 1) % 2 ^ 64 ≥ 2 ^ 56) then
    some { code := 0x12, addr := BitVec.ofNat 64 a, access := acc }
  else none

/-- The ranges that the word can bound at ranks 5 and 6, as (destination side, address, bytes); a scratchpad side of HTILE
gives its lowest and highest byte. -/
def HaulOp.contiguous (o : HaulOp) : List Bool :=
  match o.op with
  | 0xA0 => [true, false]
  | 0xA2 | 0xA3 => [true]
  | 0xA4 => [false]
  | _ => []

/-- Lowest and highest byte offset of a side of HTILE: positions grow along each dimension that has no negative step, so the
extremes lie at corners of the extents (R248). -/
def HaulOp.tileSpan (o : HaulOp) (dest : Bool) : Int × Int :=
  let tiled := if dest then o.mode = 1 else o.mode = 2
  let sj := if dest then 8 else 4
  let ps := [0, o.ext 2 - 1].flatMap (fun k => [0, o.ext 1 - 1].flatMap (fun j =>
    [0, o.ext 0 - 1].map (fun i => o.pos tiled sj i j k)))
  (ps.foldl min (ps.headD 0), ps.foldl max (ps.headD 0) + o.esize - 1)

/-- Rank 6 for one side. -/
def HaulOp.spSide (o : HaulOp) (m : Team) (dest : Bool) : Option Trap :=
  let b := o.base dest
  if o.total = 0 ∨ ¬ (if dest then o.dsp else o.ssp) then none
  else if o.op = 0xA1 then
    let p := o.tileSpan dest
    if (b : Int) + p.1 < 0 ∨ (b : Int) + p.2 ≥ m.scratchSize then some (m.spRange b) else none
  else if o.contiguous.contains dest && m.spBeyond b o.total then some (m.spRange b)
  else none

/-- Ranks 5 and 6 of R245. -/
def HaulOp.ranges (o : HaulOp) (m : Team) : Option Trap :=
  firstTrap (o.contiguous.map (fun dest =>
      if (if dest then o.dsp else o.ssp) then none else globalRange (o.base dest) o.total (if dest then 2 else 1))
    ++ [o.spSide m true, o.spSide m false])

/-- Ranks 3 and 4 of R245 for an operation whose descriptor has `n` words (0 for a count word); `bad` gives rank 4. -/
def HaulOp.describe (o : HaulOp) (m : Team) (f : Full) (c : Nat) (n : Nat) (bad : List W32 → Option Nat) :
    Except Trap (List W32) :=
  let a := c % 2 ^ 32 / 8 * 8
  let d := m.spWords a n
  let early := firstTrap [
    if n ≠ 0 ∧ m.spBeyond a (4 * n) then some (m.spRange a) else none,
    match o.bar with
    | some b => if m.spBeyond b 16 then some (m.spRange b) else none
    | none => none,
    if n ≠ 0 ∧ m.spPoisoned a (4 * n) then some { code := 0x17, info := f.c.setWidth 32 } else none,
    if o.indexed then m.rowsBeyond (dsc d 0) 0 1 (4 * dsc d 1) else none]
  match early with
  | some t => .error t
  | none =>
    match bad d with
    | some off => .error (fieldTrap off)
    | none => .ok d

/-- The byte count of an operation (R246 to R249). -/
def HaulOp.bytes (o : HaulOp) (c : Nat) : Nat :=
  match o.op with
  | 0xA1 => o.ext 0 * o.ext 1 * o.ext 2 * o.esize
  | 0xA3 | 0xA4 => dsc o.desc 1 * o.rowBytes
  | _ => c % 2 ^ 32

/-- The operation of a copy word, without its descriptor. -/
def State.haulDraft (s : State) (sh : Shape) (f : Full) : HaulOp where
  id := (s.core s.focus.core).nextId
  grid := s.ownScratch.gridSlot
  group := s.focus.group
  pc := BitVec.ofNat 64 (pcAddr s.own.pathPc)
  op := sh.op
  fn := f.fn
  bar := if f.fn.getLsbD 6 then some (barAddr ((s.src f (asyncC f)).toNat / 2 ^ 32)) else none
  dst := s.src f (asyncA f)
  src := s.src f (asyncB f)

/-- A copy enters the engine, with its handle. -/
def State.haulStart (o : HaulOp) (s : State) (h : Option Word) : State :=
  (s.modCore s.focus.core (fun k =>
    { k with haul := k.haul ++ [{ o with handle := h }], nextId := k.nextId + 1 })).noteProgress s.focus.core o.grid h 1 0

/-- The engine has room for a copy: those kept for switched-out teams are not in flight (R243). -/
def State.haulRoom (s : State) : Bool := ((s.core s.focus.core).haul.filter (!·.saved)).length < 64

/-- A copy word runs (R245): its checks, then its start. -/
def haulBody (sh : Shape) (f : Full) (n : Nat) (bad : List W32 → Option Nat) (s : State) (act : Lanes) : Effect :=
  match s.poisonTrap sh.srcs act with
  | some t => .trap t
  | none =>
    let c := (s.src f (asyncC f)).toNat
    let m := s.ownScratch
    let o0 := s.haulDraft sh f
    match o0.describe m f c n bad with
    | .error t => .trap t
    | .ok d =>
      let o1 := { o0 with desc := d }
      let o := { o1 with total := o1.bytes c }
      match o.ranges m with
      | some t => .trap t
      | none => s.startAsync f act 1 (scopeF f) State.haulRoom (State.haulStart o)

/-- R246 HCOPY. -/
def execHcopy (f : Full) (s : State) : Host.Outcome State Fault Refusal :=
  let sh := haulShape 0xA0 f (bits f.fn.toNat 0 4 ≠ 0)
  issue sh f s (haulBody sh f 0 (fun _ => none))

/-- R248 HTILE. -/
def execHtile (f : Full) (s : State) : Host.Outcome State Fault Refusal :=
  let sh := haulShape 0xA1 f (bits f.fn.toNat 0 2 = 3)
  issue sh f s (haulBody sh f 16 (tileBad f.fn))

/-- R246 HFILL. -/
def execHfill (f : Full) (s : State) : Host.Outcome State Fault Refusal :=
  let sh := haulShape 0xA2 f (bits f.fn.toNat 0 2 ≠ 0 || f.fn.getLsbD 4)
  issue sh f s (haulBody sh f 0 (fun _ => none))

/-- R249 HGATHER. -/
def execHgather (f : Full) (s : State) : Host.Outcome State Fault Refusal :=
  let sh := haulShape 0xA3 f (bits f.fn.toNat 0 4 ≠ 0)
  issue sh f s (haulBody sh f 8 gatherBad)

/-- R249 HSCATTER. -/
def execHscatter (f : Full) (s : State) : Host.Outcome State Fault Refusal :=
  let sh := haulShape 0xA4 f (bits f.fn.toNat 0 4 ≠ 0)
  issue sh f s (haulBody sh f 8 gatherBad)

/-- The shape of HSTAT (R251). -/
def hstatShape (f : Full) : Shape :=
  let a := useA f .scalar
  { op := 0xA5, roles := [0, 3], dst := some (useD f .scalar), srcs := [a], bad := [(0, f.fn ≠ 0)] }

/-- R251 HSTAT. -/
def execHstat (f : Full) (s : State) : Host.Outcome State Fault Refusal :=
  let a := useA f .scalar
  issue (hstatShape f) f s
    (fun s act =>
      match s.poisonTrap [a] act with
      | some t => .trap t
      | none => s.statWord f 1)

end Sys2Proof.Machine
end

