-- ==== Sys2Proof/Machine/Aes.lean ====
section
/-! DEFINITION. AES-256 (FIPS 197), GCM (NIST SP 800-38D) and CRC-32 (IEEE 802.3), as R366 to R369 use them on flits. -/

namespace Sys2Proof.Machine

open Sys2Proof

/-! ## AES-256 -/

/-- Multiply by x in GF(2^8). -/
def xtime (b : Byte) : Byte := (b <<< 1) ^^^ (if b.getLsbD 7 then 0x1B else 0)

/-- Multiply in GF(2^8), over the low `n` bits of the second factor. -/
def gmul : Nat → Byte → Byte → Byte
  | 0, _, _ => 0
  | n + 1, a, b => (if b.getLsbD 0 then a else 0) ^^^ gmul n (xtime a) (b >>> 1)

/-- Square `n` times. -/
def gsquare : Nat → Byte → Byte
  | 0, a => a
  | n + 1, a => gsquare n (gmul 8 a a)

/-- The multiplicative inverse a^254, 0 for 0. -/
def ginv (a : Byte) : Byte := (List.range 7).foldl (fun acc i => gmul 8 acc (gsquare (i + 1) a)) 1

/-- The S-box. -/
def sbox (a : Byte) : Byte :=
  let b := ginv a
  b ^^^ b.rotateLeft 1 ^^^ b.rotateLeft 2 ^^^ b.rotateLeft 3 ^^^ b.rotateLeft 4 ^^^ 0x63

/-- Xor two byte lists. -/
def xorBytes (a b : List Byte) : List Byte := (a.zip b).map (fun e => e.1 ^^^ e.2)

/-- The next word of the key schedule, from word `i - 1` and word `i - 8`. -/
def nextKeyWord (i : Nat) (prev old : List Byte) (rcon : Byte) : List Byte :=
  if i % 8 = 0 then
    xorBytes old (xorBytes ((prev.drop 1 ++ prev.take 1).map sbox) [rcon, 0, 0, 0])
  else if i % 8 = 4 then xorBytes old (prev.map sbox)
  else xorBytes old prev

/-- The key schedule: words of 4 bytes, newest first. -/
def keyWords : Nat → Nat → List (List Byte) → Byte → List (List Byte)
  | 0, _, ws, _ => ws
  | n + 1, i, ws, rcon =>
    let w := nextKeyWord i (ws.headD []) (ws.getD 7 []) rcon
    keyWords n (i + 1) (w :: ws) (if i % 8 = 0 then xtime rcon else rcon)

/-- The four bytes at a place of a list. -/
def quad (bs : List Byte) (i : Nat) : List Byte := (bs.drop (4 * i)).take 4

/-- The 15 round keys of AES-256. -/
def roundKeys (key : List Byte) : List (List Byte) :=
  let ws := (keyWords 52 8 ((List.range 8).map (quad key)).reverse 1).reverse
  (List.range 15).map (fun r => ((ws.drop (4 * r)).take 4).flatten)

/-- SHIFTROWS: byte `i` of the state is row i mod 4 of column i / 4. -/
def shiftRows (s : List Byte) : List Byte := (List.range 16).map (fun i => s.getD ((i + 4 * (i % 4)) % 16) 0)

/-- MIXCOLUMNS. -/
def mixColumns (s : List Byte) : List Byte :=
  (List.range 16).map (fun i =>
    let c := i / 4 * 4
    let x (k : Nat) : Byte := s.getD (c + (i + k) % 4) 0
    xtime (x 0) ^^^ (xtime (x 1) ^^^ x 1) ^^^ x 2 ^^^ x 3)

/-- Encrypt a block of 16 bytes. -/
def aesBlock (keys : List (List Byte)) (b : List Byte) : List Byte :=
  let s0 := xorBytes b (keys.headD [])
  let s := ((keys.drop 1).take 13).foldl (fun s k => xorBytes (mixColumns (shiftRows (s.map sbox))) k) s0
  xorBytes (shiftRows (s.map sbox)) (keys.getD 14 [])

/-! ## GCM -/

/-- The big-endian number of a byte list. -/
def beNat (bs : List Byte) : Nat := bs.foldl (fun n b => 256 * n + b.toNat) 0

/-- The `n` big-endian bytes of a number. -/
def beBytes (n v : Nat) : List Byte := (bytesOfNat n v).reverse

/-- Multiply in GF(2^128): `n` bits of `x` remain, its most significant first. -/
def ghashMul : Nat → BitVec 128 → BitVec 128 → BitVec 128
  | 0, _, _ => 0
  | n + 1, x, v =>
    (if x.getLsbD n then v else 0)
      ^^^ ghashMul n x ((v >>> 1) ^^^ (if v.getLsbD 0 then 0xE1000000000000000000000000000000 else 0))

/-- GHASH over blocks. -/
def ghash (h : BitVec 128) (blocks : List (BitVec 128)) : BitVec 128 :=
  blocks.foldl (fun y b => ghashMul 128 (y ^^^ b) h) 0

/-- Counter block `n` of a 12-byte IV. -/
def ctrBlock (iv : List Byte) (n : Nat) : List Byte := iv ++ beBytes 4 n

/-- En- or decrypt 48 bytes. -/
def gcmCrypt (keys : List (List Byte)) (iv text : List Byte) : List Byte :=
  xorBytes text ((List.range 3).flatMap (fun i => aesBlock keys (ctrBlock iv (i + 2))))

/-- The tag over 48 bytes of ciphertext with no additional data, cut to 12 bytes. -/
def gcmTag (keys : List (List Byte)) (iv ct : List Byte) : List Byte :=
  let h := BitVec.ofNat 128 (beNat (aesBlock keys (List.replicate 16 0)))
  let blocks := (List.range 3).map (fun i => BitVec.ofNat 128 (beNat ((ct.drop (16 * i)).take 16)))
  let y := ghash h (blocks ++ [BitVec.ofNat 128 (8 * ct.length)])
  (xorBytes (beBytes 16 y.toNat) (aesBlock keys (ctrBlock iv 1))).take 12

/-! ## CRC-32 -/

/-- Shift a reflected CRC by `n` bits. -/
def crcShift : Nat → W32 → W32
  | 0, c => c
  | n + 1, c => crcShift n ((c >>> 1) ^^^ (if c.getLsbD 0 then 0xEDB88320 else 0))

/-- CRC-32 of bytes, each entering least significant bit first (R369). -/
def crc32 (bs : List Byte) : W32 :=
  ~~~ (bs.foldl (fun c b => crcShift 8 (c ^^^ b.setWidth 32)) 0xFFFFFFFF)

end Sys2Proof.Machine
end

