-- ==== Sys2Proof/Machine/Link.lean ====
section
/-! DEFINITION. Fozen links: keys and training (R368), flits, encryption, checking and replay (R366, R367, R369), fabric time
and snapshot packets (R370, R371), and remaps (R358). The manual does not say how packets fill the packet data of flits:
those 40 bytes come with the turn, and what is received is kept as it came (log 11). -/

namespace Sys2Proof.Machine

open Sys2Proof

/-! ## Status (R373) -/

/-- LINK of FZ_STATUS. -/
def State.linkState (s : State) (p : Nat) : Nat := bits (s.portReg p 8).toNat 0 2

/-- The link of a port is up. -/
def State.linkUp (s : State) (p : Nat) : Bool := s.linkState p = 2

/-- Set LINK and ENC_ON. -/
def State.setLink (s : State) (p link : Nat) (enc : Bool) : State :=
  s.setReg (offPort p + 8) ((s.portReg p 8 &&& ~~~ (7 : Word)) ||| BitVec.ofNat 64 (link + if enc then 4 else 0))

/-- The lowest-numbered port that is up. -/
def State.lowestUp (s : State) : Option Nat := (List.range 16).find? s.linkUp

/-- The link goes down (R368). Fabric time is no longer locked through this plane. -/
def State.linkDown (s : State) (p : Nat) : State :=
  let s1 := (s.setLink p 0 false).modPort p (fun q =>
    { q with downSince := q.downSince.or (some s.ns), authFails := 0 })
  let o := offFz + 0x18
  if (s.reg o).getLsbD 0 ∧ s.regBits o 4 4 = p then s1.setReg o 0 else s1

/-- R368 LINK_DOWN. -/
def execLinkDown (s : State) : Host.Outcome State Fault Refusal := .next (s.linkDown s.focus.port)

/-! ## Keys and training (R368) -/

/-- The 256-bit value of four key registers. -/
def State.keyOf (s : State) (p o : Nat) : BitVec 256 :=
  s.portReg p (o + 24) ++ s.portReg p (o + 16) ++ s.portReg p (o + 8) ++ s.portReg p o

/-- INSTALL: the keys and salts of the registers are those of the next training, which LINK 3 no longer waits for. -/
def State.installKeys (s : State) (p : Nat) : State :=
  let salt := s.portReg p 0x18
  let k : LinkKeys := {
    tx := s.keyOf p 0x20, rx := s.keyOf p 0x40, txSalt := salt.setWidth 32, rxSalt := salt.extractLsb' 32 32 }
  let s1 := if bits (s.portReg p 8).toNat 0 2 = 3 then s.setLink p 0 false else s
  (s1.setReg (offPort p + 0x60) 1).modPort p (fun q => { q with installed := some k })

/-- R368 FZ_KEYCTL_INSTALL. -/
def execFzKeyctlInstall (s : State) : Host.Outcome State Fault Refusal := .next (s.installKeys s.focus.port)

/-- The link is trained: slot counters restart and TRAININGS counts. -/
def State.linkTrained (s : State) (p : Nat) (enc : Bool) : State :=
  let n := (bits (s.portReg p 8).toNat 32 32 + 1) % 2 ^ 32
  let s1 := (s.setLink p 2 enc).modPort p (fun q => { q with downSince := none, authFails := 0 })
  let s2 := s1.setReg (offPort p + 8) (BitVec.ofNat 64 (bits (s1.portReg p 8).toNat 0 32 + n * 2 ^ 32))
  (s2.setReg (offPort p + 0x68) 0).setReg (offPort p + 0x70) 0

/-- R368 LINK_TRAIN. The input tells whether the other end fails it: ends that disagree on ENC_EN do. -/
def execLinkTrain (s : State) : Host.Outcome State Fault Refusal :=
  let p := s.focus.port
  let enc := (s.portReg p 0).getLsbD 1
  if !(s.portReg p 0).getLsbD 0 || s.linkUp p then .next s
  else if enc && (s.port p).installed.isNone then .next (s.setLink p 3 false)
  else if s.input = .flag false then .next (s.setLink p 1 false)
  else if !enc then .next (s.linkTrained p false)
  else match (s.port p).installed with
    | none => .next (s.setLink p 3 false)
    | some k => .next (((s.modPort p (fun q => { q with keys := k, installed := none })).setReg (offPort p + 0x60) 0).linkTrained
        p true)

/-! ## Flits (R366, R367, R369) -/

/-- The key bytes of a 256-bit key. -/
def keyBytes (k : BitVec 256) : List Byte := beBytes 32 k.toNat

/-- The IV of slot `c`. -/
def flitIv (salt : W32) (c : Nat) : List Byte := beBytes 4 salt.toNat ++ beBytes 8 c

/-- The link header. -/
def linkHeader (seq ack kind : Nat) : List Byte := bytesOfNat 8 (seq % 65536 + ack % 65536 * 2 ^ 16 + kind % 16 * 2 ^ 32)

/-- A flit's bytes from its plaintext of 48 bytes. -/
def flitBytes (enc : Bool) (k : LinkKeys) (c : Nat) (plain : List Byte) : List Byte :=
  let body := if enc then
      let keys := roundKeys (keyBytes k.tx)
      let ct := gcmCrypt keys (flitIv k.txSalt c) plain
      ct ++ gcmTag keys (flitIv k.txSalt c) ct
    else plain ++ List.replicate 12 0
  body ++ bytesOfNat 4 (crc32 body).toNat

/-- The bits of a flit. -/
def flitBits (bs : List Byte) : BitVec 512 := BitVec.ofNat 512 (natOfBytes bs)

/-- ENC_ON. -/
def State.encOn (s : State) (p : Nat) : Bool := (s.portReg p 8).getLsbD 2

/-- The last sequence number received intact. -/
def Port.ack (q : Port) : Nat := (q.rxSeq + 65535) % 65536

/-- Forty bytes that the manual leaves open (log 3). -/
def State.fillData (s : State) : List Byte × State :=
  ((List.range 5).flatMap (fun i => bytesOfNat 8 (Config.freeWord (s.fresh + i)).toNat), { s with fresh := s.fresh + 5 })

/-- Put a plaintext in the flit of this slot. -/
def State.putFlit (s : State) (p : Nat) (plain : List Byte) : State :=
  let o := offPort p + 0x68
  let c := (s.reg o).toNat
  (s.setReg o (s.reg o + 1)).modPort p (fun q =>
    { q with txFlit := flitBits (flitBytes (s.encOn p) q.keys c plain) })

/-- Send a new non-idle flit, which the retry layer keeps. -/
def State.newFlit (s : State) (p kind : Nat) (data : List Byte) : State :=
  let q := s.port p
  let plain := linkHeader q.txSeq q.ack kind ++ (data ++ List.replicate 40 0).take 40
  (s.modPort p (fun q => { q with
    txSeq := (q.txSeq + 1) % 65536
    retry := (q.retry ++ [(q.txSeq, plain)]).drop (q.retry.length + 1 - 512) })).putFlit p plain

/-- R367 FLIT_TRANSMIT: a replay request, a flit to send again, a flit of packet data that the turn brings, or an idle flit.
What an idle flit holds beyond ACK and KIND the manual does not state (log 3); the number that a replay request names stands
in the first two bytes of its packet data (log 11). -/
def execFlitTransmit (s : State) : Host.Outcome State Fault Refusal :=
  let p := s.focus.port
  let q := s.port p
  if !s.linkUp p then .next s
  else if q.askReplay then
    .next ((s.modPort p (fun q => { q with askReplay := false })).newFlit p 3 (bytesOfNat 2 q.rxSeq))
  else match q.replay with
    | n :: rest =>
      let s1 := s.modPort p (fun q => { q with replay := rest })
      match q.retry.find? (fun e => e.1 = n) with
      | some e => .next ((s1.incReg (offPort p + 0x88)).putFlit p e.2)
      | none => .next s1
    | [] =>
      match s.input with
      | .packetData start bs => .next (s.newFlit p (if start then 1 else 2) bs)
      | _ =>
        let d := s.fillData
        let n := d.2.draw
        .next (n.2.putFlit p (linkHeader n.1.toNat q.ack 0 ++ d.1))

/-- A corrupt flit is discarded and counted; a replay is requested. -/
def State.badFlit (s : State) (p counter : Nat) : State :=
  (s.incReg (offPort p + counter)).modPort p (fun q => { q with askReplay := true })

/-- Take an intact flit: one that is next in sequence is taken, one that is not is left for its replay. -/
def State.takeFlit (s : State) (p : Nat) (plain : List Byte) : State :=
  let h := natOfBytes (plain.take 8)
  let data := plain.drop 8
  let kind := bits h 32 4
  let q := s.port p
  if kind = 0 ∨ kind > 3 ∨ bits h 0 16 ≠ q.rxSeq then s else
  let s1 := s.modPort p (fun q => { q with rxSeq := (q.rxSeq + 1) % 65536 })
  if kind = 3 then
    let n := natOfBytes (data.take 2)
    s1.modPort p (fun q => { q with replay := (q.retry.map (·.1)).dropWhile (· ≠ n) })
  else s1.modPort p (fun q => { q with received := q.received ++ [data] })

/-- R367 FLIT_RECEIVE. -/
def execFlitReceive (s : State) : Host.Outcome State Fault Refusal :=
  let p := s.focus.port
  match s.input with
  | .flit f =>
    if !s.linkUp p then .next s else
    let o := offPort p + 0x70
    let c := (s.reg o).toNat
    let s1 := s.setReg o (s.reg o + 1)
    let bs := bytesOfNat 64 f.toNat
    let ct := bs.take 48
    let tag := (bs.drop 48).take 12
    if natOfBytes (bs.drop 60) ≠ (crc32 (bs.take 60)).toNat then .next (s1.badFlit p 0x78)
    else if !s.encOn p then .next (s1.takeFlit p ct)
    else
      let k := (s.port p).keys
      let keys := roundKeys (keyBytes k.rx)
      let iv := flitIv k.rxSalt c
      if gcmTag keys iv ct = tag then .next (s1.takeFlit p (gcmCrypt keys iv ct))
      else
        let s2 := (s1.badFlit p 0x80).modPort p (fun q => { q with authFails := q.authFails + 1 })
        .next (if (s2.port p).authFails > s2.regBits (offPort p + 0x90) 0 16 then s2.linkDown p else s2)
  | _ => .next s

/-! ## Remaps and the package number (R358, R372) -/

/-- Every group tries its words again: a request has ended or a port has changed (R141). -/
def State.wakeAll (s : State) : State := s.mapGroups Group.wake

/-- Write FZ_REMAP: ACTIVE is read-only. Words that wait for a remap to take effect are tried again: none may be wanted any more. -/
def State.writeRemap (s : State) (p : Nat) (w : Word) : State := (s.setReg (offPort p + 0x10) (w &&& 0x1F)).wakeAll

/-- R358 FZ_REMAP_WRITE. -/
def execFzRemapWrite (s : State) : Host.Outcome State Fault Refusal :=
  match s.input with
  | .word w => .next (s.writeRemap s.focus.port w)
  | _ => .next s

/-- A port has no outstanding request, and no request that maps to it is outstanding elsewhere. -/
def State.portIdle (s : State) (p : Nat) : Bool :=
  (s.port p).outstanding = []
    && (List.range 16).all (fun q => (s.port q).outstanding.all (fun o => portOf o.request.address ≠ p))

/-- R358 REMAP_TAKE_EFFECT. -/
def execRemapTakeEffect (s : State) : Host.Outcome State Fault Refusal :=
  let p := s.focus.port
  if s.portIdle p && decide ((s.port p).remap ≠ s.remapWanted p) then
    .next (s.modPort p (fun q => { q with remap := s.remapWanted p })).wakeAll
  else .next s

/-- R372 PKGCFG_TAKE_EFFECT. -/
def execPkgcfgTakeEffect (s : State) : Host.Outcome State Fault Refusal :=
  if (List.range 16).all (fun p => (s.port p).outstanding = []) then .next { s with pkgcfg := s.reg offFz } else .next s

/-! ## Fabric time and snapshot packets (R370, R371) -/

/-- Correct the fabric time to a reference without letting it run backwards. -/
def State.setFtime (s : State) (ref : Nat) : State :=
  { s with ftimeOffset := (ref : Int) - s.ns, ftimeHold := s.ftime }

/-- R370 FTIME_TIMING_PACKET: the input is the domain reference; packets of the lowest plane that is up count. LOCKED is 1 only if the
time is then within 32 ns of the reference: while it is held it may be further ahead. -/
def execFtimeTimingPacket (s : State) : Host.Outcome State Fault Refusal :=
  match s.input, s.lowestUp with
  | .word w, some p =>
    let s1 := s.setFtime w.toNat
    let locked := if s1.ftime ≤ w.toNat + 32 then 1 else 0
    if s.focus.port = p then .next (s1.setReg (offFz + 0x18) (BitVec.ofNat 64 (locked + p * 16))) else .next s
  | _, _ => .next s

/-- Send a snapshot packet through the lowest-numbered port that is up, if one is. -/
def State.sendSnap (s : State) (due : Nat) : State :=
  match s.lowestUp with
  | some p => { s with snapSent := s.snapSent ++ [⟨p, due, (s.reg (offFz + 0x28)).getLsbD 0⟩] }
  | none => s

/-- R371 FZ_SNAP_SEND. -/
def execFzSnapSend (s : State) : Host.Outcome State Fault Refusal :=
  match s.input with
  | .word w => .next (s.sendSnap w.toNat)
  | _ => .next s

end Sys2Proof.Machine
end

