-- ==== Sys2Proof/Machine/LoadStore.lean ====
section
/-! DEFINITION. The Load-store unit (R128 to R165): addresses and their checks, the words that send loads, stores and atomics
on their way, and what an access does when it performs in this package's memory. -/

namespace Sys2Proof.Machine

open Sys2Proof

/-! ## Fields (R143, R144) -/

def lsSem (f : Full) : Nat := bits f.fn.toNat 5 2
def lsType (f : Full) : Nat := bits f.fn.toNat 0 3
def lsLu (f : Full) : Bool := f.fn.getLsbD 4
def lsBp (f : Full) : Bool := f.fn.getLsbD 3
def lsAcq (f : Full) : Bool := lsSem f = 1

/-- SCOPE and SEM rules of R143 for a word whose SEM may be one of a list. -/
def semBad (f : Full) (sems : List Nat) : List (Nat × Bool) :=
  [(7, scopeF f ≥ 10), (0, !sems.contains (lsSem f) || decide (lsSem f = 0) != decide (scopeF f = 0))]

/-- Bytes of a TYPE. -/
def typeBytes (t : Nat) : Nat :=
  match t with
  | 0 | 1 => 1
  | 2 | 3 => 2
  | 4 => 4
  | _ => 8

/-- off18 of a load, and of a store. -/
def loadOff (f : Full) : Int := (f.b ++ f.c).toInt
def storeOff (f : Full) : Int := (f.d ++ f.c).toInt

/-- The lanes in which a word acts: one on the scalar path. -/
def actLanes (scalar : Bool) (act : Lanes) : List Nat := if scalar then [lowest act] else lanesOf act

/-! ## Addresses (R135, R137, R160) -/

/-- A lane's access: lane, effective address, and the translation of each byte. -/
structure Access where
  lane : Nat
  ea : Nat
  xs : List Xlat
  deriving DecidableEq, Repr

/-- What a global word asks of its addresses: bytes a lane, access kind, natural alignment, and whether the PCI Express
window carries it. -/
structure Ask where
  n : Nat
  acc : Nat
  aligned : Bool := false
  pci : Bool := true
  deriving DecidableEq, Repr

/-- Check and translate one lane (R135). -/
def State.laneXlat (s : State) (q : Ask) (ea : Nat) : State × Except AddrFail (List Xlat) :=
  if ea ≥ 2 ^ 56 then (s, .error ⟨1, 0x12, 0⟩)
  else if q.aligned && ea % q.n ≠ 0 then (s, .error ⟨2, 0x14, q.n⟩)
  else
    match s.translateRange s.ownCtx ea q.n q.acc with
    | (s1, .ok xs) =>
      if !q.pci && xs.any (fun x => !s1.isRemote x.pa && decide (region (localOf x.pa) = .pci)) then
        (s1, .error ⟨5, 0x12, 2⟩)
      else (s1, .ok xs)
    | r => r

/-- The trap of the lanes that failed: the lowest rank, with every lane of that rank (R135, R137). The scalar path names the
word's active lanes. -/
def failTrap (scalar : Bool) (acc : Nat) (fs : List (Nat × Nat × AddrFail)) : Option Trap :=
  let r := fs.foldl (fun m e => min m e.2.2.rank) 9
  match fs.filter (fun e => e.2.2.rank = r) with
  | [] => none
  | e :: es => some {
      code := e.2.2.code, addr := BitVec.ofNat 64 e.2.1, info := BitVec.ofNat 32 e.2.2.info, access := acc
      lanes := if scalar then 0 else lanesWhere (fun l => (e :: es).any (fun x => x.1 = l)) }

/-- POISON at a word that reads poisoned operands, with the word's access kind (R163, R165). -/
def State.operandPoison (s : State) (acc : Nat) (us : List Use) (act : Lanes) : Option Trap :=
  (s.poisonTrap us act).map (fun t => { t with access := acc })

/-- Check every lane of a global word before any performs. -/
def State.accesses (s : State) (scalar : Bool) (q : Ask) (eas : List (Nat × Nat)) : State × Except Trap (List Access) :=
  let r := eas.foldl (fun (r : State × List Access × List (Nat × Nat × AddrFail)) e =>
    match r.1.laneXlat q e.2 with
    | (s1, .ok xs) => (s1, r.2.1 ++ [⟨e.1, e.2, xs⟩], r.2.2)
    | (s1, .error f) => (s1, r.2.1, r.2.2 ++ [(e.1, e.2, f)])) (s, [], [])
  match failTrap scalar q.acc r.2.2 with
  | some t => (r.1, .error t)
  | none => (r.1, .ok r.2.1)

/-- Check every lane of a scratchpad word (R137). -/
def Team.spAccesses (m : Team) (n : Nat) (aligned : Bool) (acc : Nat) (eas : List (Nat × Nat)) : Option Trap :=
  failTrap false acc (eas.filterMap (fun e =>
    if aligned && e.2 % n ≠ 0 then some (e.1, e.2, ⟨1, 0x14, n⟩)
    else if m.spBeyond e.2 n then some (e.1, e.2, ⟨2, 0x13, m.scratchSize⟩)
    else none))

/-- Effective addresses of the lanes: a 64-bit global sum. -/
def State.eas (s : State) (a : Use) (off : Int) (lanes : List Nat) : List (Nat × Nat) :=
  lanes.map (fun l => (l, (((s.value a l).toNat : Int) + off) % (2 ^ 64 : Nat) |>.toNat))

/-- Scratchpad addresses of the lanes, modulo 2^32. -/
def State.spEas (s : State) (a : Use) (off : Int) (lanes : List Nat) : List (Nat × Nat) :=
  lanes.map (fun l => (l, (((s.value a l).toNat : Int) + off) % (2 ^ 32 : Nat) |>.toNat))

/-! ## Queues and tables (R140, R141) -/

/-- Words in a group's store queue: a store leaves it when it performs, be it ahead of earlier accesses (R140). -/
def Group.queued (g : Group) : Nat := ((g.storeQ.filter (·.ahead = 0)).map (·.seq)).eraseDups.length

/-- Outstanding-request entries of a load: one a line. -/
def LoadEntry.entries (e : LoadEntry) : Nat :=
  if e.scratch then 0
  else
    let near := e.lanes.flatMap (fun (l : LaneLoad) => l.addrs.map (· / 128))
    let parts := e.parts.map (fun (p : AtomPart) => p.addr / 128)
    (near ++ parts).eraseDups.length

/-- Distinct lines of a queued store. -/
def StoreEntry.lines (e : StoreEntry) : Nat := ((e.bytes.map (fun b => b.1 / 128)).eraseDups).length

/-- Entries of a group: its loads and atomics, its drops from their issue, and the stores that have performed and are not
acknowledged (R141, R148). -/
def Group.ortUsed (g : Group) : Nat :=
  (g.loads.map LoadEntry.entries).sum + ((g.storeQ.filter (·.drop)).map StoreEntry.lines).sum + g.acks.sum

/-- Entries of a core's table in use. -/
def Core.ortUsed (k : Core) : Nat :=
  (k.teams.map (fun t => (t.2.groups.map (fun g => g.2.ortUsed)).sum)).sum + (k.fw.groups.map (fun g => g.2.ortUsed)).sum

/-- `n` more entries are free for the issuing group. -/
def State.ortRoom (s : State) (n : Nat) : Bool :=
  decide ((s.core s.focus.core).ortUsed + n ≤ 1024) && decide (s.own.ortUsed + n ≤ 256)

/-- Distinct lines of a list of accesses. -/
def linesOf (as : List Access) : List Nat := (as.flatMap (fun a => a.xs.map (fun x => x.pa / 128))).eraseDups

/-- A queued store of the group touches one of these bytes (a drop touches its whole line). -/
def StoreEntry.touches (e : StoreEntry) (scratch : Bool) (addrs : List Nat) : Bool :=
  (e.scratch == scratch) && (if e.drop then e.bytes.any (fun b => addrs.any (fun a => a / 128 = b.1 / 128))
    else e.bytes.any (fun b => addrs.contains b.1))

/-- What the group's queue gives the bytes of a lane: nothing, their values, or a wait until the store has left. -/
inductive Forward where
  | none_
  | bytes (bs : List (Byte × Bool))
  | blocked

/-- R140: the newest earlier store word that overlaps the bytes gives them when it covers them all. -/
def Group.forward (g : Group) (e : LoadEntry) (addrs : List Nat) : Forward :=
  let past := g.storeQ.filter (fun q => q.ahead = 0 && decide (q.seq < e.seq) && q.touches e.scratch addrs)
  match past.getLast? with
  | none => .none_
  | some q =>
    let word := past.filter (fun x => x.seq = q.seq)
    if word.any (·.drop) then .blocked else
    let bs := word.flatMap (·.bytes)
    let bad := word.flatMap (·.poison)
    if addrs.all (fun a => bs.any (fun b => b.1 = a)) then
      .bytes (addrs.map (fun a => (((bs.filter (fun b => b.1 = a)).getLast?.map (·.2)).getD 0, bad.contains a)))
    else .blocked

/-- An earlier access of the group holds back requests to other packages: an acquire that has not returned (R35). -/
def Group.heldBack (g : Group) : Bool := g.loads.any (·.acquire)

/-! ## Requests to other packages (R359) -/

/-- Sending requests: the state, the requests sent with what each is for, and whether a port is full. -/
structure Sending (α : Type) where
  s : State
  sent : List ((Nat × Nat) × α) := []
  full : Bool := false

/-- Send one request. -/
def Sending.one {α : Type} (i : Issuer) (r : Sending α) (e : α × Nat × RemoteRequest) : Sending α :=
  if r.full then r
  else if !r.s.portAccepts e.2.1 then { r with full := true }
  else
    let q := r.s.accept i e.2.2 e.2.1
    { r with s := q.1, sent := r.sent ++ [(q.2, e.1)] }

/-- A request to another package. -/
def remoteReq (ctx : Nat) (op : RemoteOp) (bytes : List (Nat × Byte)) (posted disc : Bool)
    (poison : List Nat := []) : RemoteRequest where
  package := 0
  srcPort := 0
  seq := 0
  context := ctx
  address := 0
  op := op
  bytes := bytes
  posted := posted
  discEn := disc
  poison := poison

/-! ## Loads (R145) -/

/-- What a load word is. -/
structure LoadForm where
  n : Nat
  regs : Nat
  quad : Bool := false
  scalar : Bool := false
  ttype : Nat
  deriving DecidableEq, Repr

/-- The entry of a load word. -/
def State.loadEntry (s : State) (f : Full) (q : LoadForm) : LoadEntry where
  seq := s.own.memNext
  dest := f.d.toNat
  ttype := q.ttype
  regs := q.regs
  quad := q.quad
  lastUse := lsLu f
  acquire := lsAcq f
  scope := scopeF f
  size := q.n
  context := s.ownCtx
  pc := BitVec.ofNat 64 (pcAddr s.own.pathPc)

/-- Put a load in flight. -/
def State.pushLoad (s : State) (e : LoadEntry) : State :=
  s.modOwn (fun g => { g with loads := g.loads ++ [e], memNext := g.memNext + 1 })

/-- The issuer of a load's requests. -/
def State.loadIssuer (s : State) : Issuer := .load s.focus.core s.ownTeam.gridSlot s.focus.group s.own.memNext

/-- One lane of a global load (R30, R132, R145): it is weak on a WB page of local DRAM, unless the word asks for a strong
load. -/
def State.laneLoad (s : State) (f : Full) (a : Access) : LaneLoad where
  lane := a.lane
  addrs := a.xs.map (·.pa)
  weak := !lsBp f && !lsLu f && !lsAcq f && a.xs.all (fun x => x.cpol = 0 && !s.isUc x)
  ucs := a.xs.map s.isUc
  first := a.xs.any (fun x => x.cpol = 1)
  discs := a.xs.map Xlat.discEn

/-- The reads that a load sends to other packages, one a line: the line's lanes, an address in it, and the request. -/
def State.remoteReads (s : State) (f : Full) (as : List Access) : List (Lanes × Nat × RemoteRequest) :=
  let far := as.flatMap (fun a => (a.xs.filter (fun x => s.isRemote x.pa)).map (fun x => (a.lane, x)))
  ((far.map (fun e => e.2.pa / 128)).eraseDups).map (fun ln =>
    let here := far.filter (fun e => e.2.pa / 128 = ln)
    (lanesWhere (fun l => here.any (fun e => e.1 = l)), 128 * ln,
      remoteReq s.ownCtx (.read (lsLu f)) (((here.map (fun e => e.2.pa % 128)).eraseDups).map (fun o => (o, 0)))
        false (here.any (fun e => e.2.discEn))))

/-- What the store queue gives the lanes that address other packages, when their load is sent (R140): nothing while a store that
overlaps one of them in part has to leave first. -/
def State.givenLanes (s : State) (e : LoadEntry) (as : List Access) : Option (List (Nat × List (Byte × Bool))) :=
  (as.filter (fun a => a.xs.any (fun x => s.isRemote x.pa))).foldr (fun a r =>
    match r, s.own.forward e (a.xs.map (·.pa)) with
    | some l, .bytes bs => some ((a.lane, bs) :: l)
    | some l, .none_ => some l
    | _, _ => none) (some [])

/-- Send a checked load. -/
def State.sendLoad (s : State) (f : Full) (q : LoadForm) (as : List Access) : Effect :=
  let e := s.loadEntry f q
  match s.givenLanes e as with
  | none => .pause s
  | some given =>
    let reads := s.remoteReads f (as.filter (fun a => !given.any (fun x => x.1 = a.lane)))
    if !s.ortRoom (linesOf as).length || (reads ≠ [] && s.own.heldBack) then .pause s
    else
      let r := reads.foldl (Sending.one s.loadIssuer) ({ s := s } : Sending Lanes)
      if r.full then .pause s else
      .retire { s := r.s.pushLoad { e with lanes := as.map (s.laneLoad f), remote := r.sent.map (·.1), given := given } }

/-- A global load. -/
def loadBody (f : Full) (q : LoadForm) (s : State) (act : Lanes) : Effect :=
  let a := useA f (if q.scalar then .scalar else .reg) 2
  match s.operandPoison 1 [a] act with
  | some t => .trap t
  | none =>
    match s.accesses q.scalar { n := q.n, acc := 1 } (s.eas a (loadOff f) (actLanes q.scalar act)) with
    | (s1, .error t) => .trapFrom s1 t
    | (s1, .ok as) => s1.sendLoad f q as

/-- The shape of LD (R145). -/
def ldShape (f : Full) : Shape :=
  let t := lsType f
  let r := if t = 5 then 2 else 1
  { op := 0x80, roles := [2, 3], dst := some (useD f .dstVec r), srcs := [useA f .reg 2]
    bad := semBad f [0, 1] ++ [(0, decide (t ≥ 6))], scope := scopeF f }

/-- R145 LD. -/
def execLd (f : Full) (s : State) : Host.Outcome State Fault Refusal :=
  let t := lsType f
  let r := if t = 5 then 2 else 1
  issue (ldShape f) f s (loadBody f { n := typeBytes t, regs := r, ttype := t })

/-- The shape of LDV (R145). -/
def ldvShape (f : Full) : Shape :=
  { op := 0x84, roles := [2, 3], dst := some (useD f .vec 4), srcs := [useA f .reg 2]
    bad := semBad f [0, 1] ++ [(0, decide (lsType f ≠ 0))], scope := scopeF f }

/-- R145 LDV. -/
def execLdv (f : Full) (s : State) : Host.Outcome State Fault Refusal :=
  issue (ldvShape f) f s (loadBody f { n := 16, regs := 4, quad := true, ttype := 4 })

/-- The shape of SLD (R145). -/
def sldShape (f : Full) : Shape :=
  let t := lsType f
  { op := 0x8F, dst := some (useD f .dstScalar), srcs := [useA f .scalar 2]
    bad := semBad f [0, 1] ++ [(0, decide (t ≥ 6))], scope := scopeF f }

/-- R145 SLD. -/
def execSld (f : Full) (s : State) : Host.Outcome State Fault Refusal :=
  let t := lsType f
  issue (sldShape f) f s (loadBody f { n := typeBytes t, regs := 2, scalar := true, ttype := t })

/-- The shape of LDS (R145). -/
def ldsShape (f : Full) : Shape :=
  let t := lsType f
  let r := if t = 5 then 2 else 1
  let a := useA f .noLatch
  { op := 0x82, roles := [2, 3], dst := some (useD f .dstVec r), srcs := [a]
    bad := semBad f [0, 1] ++ [(0, t ≥ 6 || lsLu f || lsBp f)], scope := scopeF f }

/-- R145 LDS. -/
def execLds (f : Full) (s : State) : Host.Outcome State Fault Refusal :=
  let t := lsType f
  let r := if t = 5 then 2 else 1
  let a := useA f .noLatch
  issue (ldsShape f) f s (fun s act =>
    match s.operandPoison 1 [a] act with
    | some t => .trap t
    | none =>
      let n := typeBytes t
      let eas := s.spEas a (loadOff f) (lanesOf act)
      match s.ownTeam.spAccesses n false 1 eas with
      | some tr => .trap tr
      | none => .retire { s := s.pushLoad { s.loadEntry f { n := n, regs := r, ttype := t } with
          scratch := true, lanes := eas.map (fun e => { lane := e.1, addrs := (List.range n).map (e.2 + ·) }) } })

/-! ## Stores (R146) -/

/-- The bytes that a lane stores, from the 32-bit registers of its data. -/
def State.storeBytes (s : State) (b : Use) (n l : Nat) : List Byte :=
  match opd b.enc with
  | .v v => if n = 16 then (List.range 4).flatMap (fun i => bytesOfNat 4 (s.own.v (v + i) l).toNat)
            else bytesOfNat n (s.value b l).toNat
  | _ => bytesOfNat n (s.value b l).toNat

/-- What a stored byte needs of its page: another package, no LLC copy, first candidate, DISC_EN, region. -/
abbrev StoreKind := Bool × Bool × Bool × Bool × Region

def State.storeKind (s : State) (x : Xlat) : StoreKind :=
  (s.isRemote x.pa, s.isUc x, x.cpol = 1, x.discEn, region (localOf x.pa))

/-- The queue entries of a global store word: one for each kind of page that it touches. -/
def State.storeEntries (s : State) (f : Full) (drop : Bool) (n : Nat) (as : List Access) (data : Nat → List Byte)
    (poison : Lanes) : List StoreEntry :=
  let all := as.flatMap (fun a => (a.xs.zip (data a.lane)).map (fun e => (a.lane, e.1, e.2)))
  ((all.map (fun e => s.storeKind e.2.1)).eraseDups).map (fun k =>
    let here := all.filter (fun e => s.storeKind e.2.1 = k)
    { drop := drop, bytes := here.map (fun e => (e.2.1.pa, e.2.2))
      poison := (here.filter (fun e => poison.getLsbD e.1)).map (fun e => e.2.1.pa)
      uc := k.2.1, first := k.2.2.1, discEn := k.2.2.2.1, release := !drop && lsSem f = 1, scope := scopeF f, size := n
      seq := s.own.memNext, context := s.ownCtx, pc := BitVec.ofNat 64 (pcAddr s.own.pathPc)
      byLane := (as.filter (fun a => here.any (fun e => e.1 = a.lane))).map (fun a => (a.lane, (a.xs.headD ⟨0, 0⟩).pa)) })

/-- Put a store word in the queue. -/
def State.pushStore (s : State) (es : List StoreEntry) : State :=
  s.modOwn (fun g => { g with storeQ := g.storeQ ++ es, memNext := g.memNext + 1 })

/-- A store word enters the queue once it has room; a release at leaf, domain or system scope waits for its gate at the word
(R140, R142, R365). -/
def State.enqueue (s : State) (f : Full) (act : Lanes) (es : State → List StoreEntry) : Effect :=
  s.released act (lsSem f = 1 && scopeF f ≥ 7) (scopeF f) (fun s1 =>
    if 16 ≤ s1.own.queued then .pause s1 else .retire { s := s1.pushStore (es s1) })

/-- Lanes whose data operand is poisoned (R163). -/
def State.dataPoison (s : State) (b : Use) (act : Lanes) : Lanes := lanesWhere (fun l => act.getLsbD l && s.own.poisoned b l)

/-- A global store. -/
def storeBody (f : Full) (n : Nat) (scalar : Bool) (b : Use) (s : State) (act : Lanes) : Effect :=
  let a := useA f (if scalar then .scalar else .reg) 2
  match s.operandPoison 2 [a] act with
  | some t => .trap t
  | none =>
    match s.accesses scalar { n := n, acc := 2 } (s.eas a (storeOff f) (actLanes scalar act)) with
    | (s1, .error t) => .trapFrom s1 t
    | (s1, .ok as) =>
      let bad := s.dataPoison b act
      s1.enqueue f act (fun s2 => s2.storeEntries f false n as (fun l => s.storeBytes b n l) bad)

/-- Data operand of a store of a TYPE. -/
def storeData (f : Full) (t : Nat) : Use := if t = 5 then useB f .regOrInline 2 else useB f

/-- TYPE of a store: no sign extension, none reserved. -/
def badStoreType (t : Nat) : Bool := t = 1 || t = 3 || t ≥ 6

/-- The shape of ST (R146). -/
def stShape (f : Full) : Shape :=
  let t := lsType f
  let b := storeData f t
  { op := 0x81, roles := [2, 3], srcs := [useA f .reg 2, b]
    bad := semBad f [0, 1] ++ [(0, badStoreType t || lsLu f || lsBp f)], scope := scopeF f }

/-- R146 ST. -/
def execSt (f : Full) (s : State) : Host.Outcome State Fault Refusal :=
  let t := lsType f
  let b := storeData f t
  issue (stShape f) f s (storeBody f (typeBytes t) false b)

/-- The shape of STV (R146). -/
def stvShape (f : Full) : Shape :=
  let b := useB f .vec 4
  { op := 0x85, roles := [2, 3], srcs := [useA f .reg 2, b]
    bad := semBad f [0, 1] ++ [(0, lsType f ≠ 0 || lsLu f || lsBp f)], scope := scopeF f }

/-- R146 STV. -/
def execStv (f : Full) (s : State) : Host.Outcome State Fault Refusal :=
  let b := useB f .vec 4
  issue (stvShape f) f s (storeBody f 16 false b)

/-- The shape of SST (R146). -/
def sstShape (f : Full) : Shape :=
  let t := lsType f
  let b := useB f .scalarIn 2
  { op := 0x90, srcs := [useA f .scalar 2, b]
    bad := semBad f [0, 1] ++ [(0, badStoreType t || lsLu f || lsBp f)], scope := scopeF f }

/-- R146 SST. -/
def execSst (f : Full) (s : State) : Host.Outcome State Fault Refusal :=
  let t := lsType f
  let b := useB f .scalarIn 2
  issue (sstShape f) f s (storeBody f (typeBytes t) true b)

/-- The shape of STS (R146). -/
def stsShape (f : Full) : Shape :=
  let t := lsType f
  let a := useA f .noLatch
  let b := storeData f t
  { op := 0x83, roles := [2, 3], srcs := [a, b]
    bad := semBad f [0, 1] ++ [(0, badStoreType t || lsLu f || lsBp f)], scope := scopeF f }

/-- R146 STS. -/
def execSts (f : Full) (s : State) : Host.Outcome State Fault Refusal :=
  let t := lsType f
  let a := useA f .noLatch
  let b := storeData f t
  issue (stsShape f) f s (fun s act =>
    match s.operandPoison 2 [a] act with
    | some tr => .trap tr
    | none =>
      let n := typeBytes t
      let eas := s.spEas a (storeOff f) (lanesOf act)
      match s.ownTeam.spAccesses n false 2 eas with
      | some tr => .trap tr
      | none =>
        let bytes := eas.flatMap (fun e => (s.storeBytes b n e.1).zipIdx.map (fun d => (e.2 + d.2, d.1)))
        let bad := eas.flatMap (fun e => if s.own.poisoned b e.1 then (List.range n).map (e.2 + ·) else [])
        s.enqueue f act (fun s1 => [{
          scratch := true, bytes := bytes, poison := bad, release := lsSem f = 1, scope := scopeF f, size := n
          seq := s1.own.memNext, context := s1.ownCtx, pc := BitVec.ofNat 64 (pcAddr s1.own.pathPc), byLane := eas }]))

/-! ## Lines (R148 to R150) -/

/-- The checked lines of a word that touches a line a lane: one byte each. -/
def lineBody (f : Full) (acc : Nat) (k : State → List Access → Effect) (s : State) (act : Lanes) : Effect :=
  let a := useA f .reg 2
  match s.operandPoison acc [a] act with
  | some t => .trap t
  | none =>
    match s.accesses false { n := 1, acc := acc } (s.eas a (loadOff f) (lanesOf act)) with
    | (s1, .error t) => .trapFrom s1 t
    | (s1, .ok as) => k s1 as

/-- Shape of PREF, DISC and FLUSH. -/
def lineShape (op : Nat) (f : Full) (bad : Bool) (sw : Bool := true) : Shape where
  op := op
  sw := sw
  roles := [2, 3]
  srcs := [useA f .reg 2]
  bad := [(0, bad)]

/-- R148 DISC. -/
def execDisc (f : Full) (s : State) : Host.Outcome State Fault Refusal :=
  issue (lineShape 0x87 f (f.fn ≠ 0)) f s (fun s act => lineBody f 2 (fun s1 as =>
    if !s1.ortRoom (linesOf as).length then .pause s1 else
    s1.enqueue f act (fun s2 => s2.storeEntries f true 128 as (fun _ => [0]) 0)) s act)

/-- A line that a core's FLUSH or PREF reaches in local DRAM. -/
def State.nearLine (s : State) (a : Access) : Option Nat :=
  match a.xs with
  | x :: _ => if s.isRemote x.pa || decide (region (localOf x.pa) ≠ .dram) then none else some (localOf x.pa / 128)
  | [] => none

/-- Write one lane's line back, or write it back and invalidate it, when its access table lets it (R149). -/
def State.flushLine (inv : Bool) (pc : Word) (s : State) (a : Access) : State :=
  match s.nearLine a with
  | none => s
  | some ln =>
    let r := s.admitAt (masterId 0 s.ownCtx) 1 (128 * ln) true
    if r.2 then (if inv then r.1.evictLine ln else r.1.writeBack ln)
    else r.1.report {
      code := 0x15, core := s.focus.core, grid := s.ownTeam.gridSlot, group := s.focus.group, pc := pc
      address := (a.xs.headD ⟨0, 0⟩).pa, lanes := laneBit a.lane, access := 1 }

/-- FLUSH.wb and FLUSH.inv follow the group's queued stores to their lines. -/
def flushBody (f : Full) (inv : Bool) (s : State) (act : Lanes) : Effect :=
  lineBody f 1 (fun s1 as =>
    let addrs := as.flatMap (fun a => a.xs.map (·.pa))
    if !s1.ortRoom (linesOf as).length then .pause s1
    else if s1.own.storeQ.any (fun e => !e.scratch && e.bytes.any (fun b => addrs.any (fun a => a / 128 = b.1 / 128))) then .pause s1
    else
      let one := (linesOf as).filterMap (fun ln => as.find? (fun a => a.xs.any (fun x => x.pa / 128 = ln)))
      .retire { s := one.foldl (State.flushLine inv (BitVec.ofNat 64 (pcAddr s1.own.pathPc))) s1 }) s act

/-- R149 FLUSH, MODE 0. -/
def execFlushWb (f : Full) (s : State) : Host.Outcome State Fault Refusal :=
  issue (lineShape 0x88 f (f.fn ≠ 0)) f s (flushBody f false)

/-- R149 FLUSH, MODE 1. -/
def execFlushInv (f : Full) (s : State) : Host.Outcome State Fault Refusal :=
  issue (lineShape 0x88 f (f.fn ≠ 1)) f s (flushBody f true)

/-- R149 FLUSH, MODE 2; MODE 3 is reserved. -/
def execFlushL1 (f : Full) (s : State) : Host.Outcome State Fault Refusal :=
  issue (lineShape 0x88 f (f.fn ≠ 2)) f s (fun s act => lineBody f 1 (fun s1 as =>
    let lines := as.filterMap s1.nearLine
    if !s1.ortRoom (linesOf as).length then .pause s1 else
    .retire { s := s1.modCore s1.focus.core (fun k => { k with l1 := k.l1.filter (fun e => !lines.contains e.1) }) }) s act)

/-- Lines that the L1 of a core holds: what the scratchpad partition leaves of 1,536 KiB (R3, R136). -/
def Core.l1Lines (k : Core) : Nat := (6 - k.spSteps) * 2048

/-- Fill a line of the issuing core's L1 from the LLC (R33, R138); of a full L1 one line goes. A line with bytes veiled from the
core goes at once: its groups may not find them yet (R34). -/
def State.fillL1 (s : State) (c ln : Nat) : State :=
  let room := (s.core c).l1Lines
  if room = 0 || s.veiledLine c ln then s else
  match sfind ln s.llc with
  | some l =>
    let r := s.victim ((sdel ln (s.core c).l1).map (·.1)) room
    r.1.modCore c (fun k => { k with
      l1 := sins ln { bytes := l.bytes, poison := l.poison } (match r.2 with
        | some v => sdel v k.l1
        | none => k.l1) })
  | none => s

/-- Prefetch one lane's line; a lane that fails is dropped (R150). -/
def State.prefetch (l1 : Bool) (s : State) (ea : Nat) : State :=
  match s.laneXlat { n := 1, acc := 1 } ea with
  | (s1, .error _) => s1
  | (s1, .ok xs) =>
    match xs with
    | [] => s1
    | x :: _ =>
      if s1.isUc x || !s1.ortRoom 1 then s1 else
      let ln := localOf x.pa / 128
      let r := s1.admitOne (masterId 0 s1.ownCtx) 1 (localOf x.pa / 64 * 64) false
      if !r.2 then r.1 else
      let s2 := r.1.allocLine ln (x.cpol = 1)
      if l1 && x.cpol = 0 then
        (s2.fillL1 s2.focus.core ln).countPoison ((sfind ln s2.llc).any (fun l => l.poison ≠ []))
      else s2

/-- PREF. A poisoned address register traps POISON before there is a lane to drop (R163, log 71). -/
def prefBody (f : Full) (l1 : Bool) (s : State) (act : Lanes) : Effect :=
  let a := useA f .reg 2
  match s.operandPoison 1 [a] act with
  | some t => .trap t
  | none => .retire { s := (s.eas a (loadOff f) (lanesOf act)).foldl (fun (s : State) e => s.prefetch l1 e.2) s }

/-- R150 PREF, LEVEL 0. -/
def execPrefL1 (f : Full) (s : State) : Host.Outcome State Fault Refusal :=
  issue (lineShape 0x86 f (f.fn ≠ 0) false) f s (prefBody f true)

/-- R150 PREF, LEVEL 1; LEVELs 2 and 3 are reserved. -/
def execPrefLlc (f : Full) (s : State) : Host.Outcome State Fault Refusal :=
  issue (lineShape 0x86 f (f.fn ≠ 1) false) f s (prefBody f false)

/-! ## Atomics (R151 to R155) -/

/-- new = f(old, b), with c for cas (R151). -/
def atomicNew (aop : Nat) (wide : Bool) (old b c : Word) : Word :=
  let w := if wide then 64 else 32
  let u (x : Word) : Nat := x.toNat % 2 ^ w
  let i (x : Word) : Int := signedOf w (u x)
  let k (v : Nat) : Word := BitVec.ofNat 64 (v % 2 ^ w)
  let f32 (x : Nat) : FVal := fp32.decode false x
  let half (n : Nat) (x : Word) : FVal := bf16.decode false (bits x.toNat (16 * n) 16)
  match aop with
  | 0 => k (u old + u b)
  | 1 => k (u (old &&& b))
  | 2 => k (u (old ||| b))
  | 3 => k (u (old ^^^ b))
  | 4 => k (if i old ≤ i b then u old else u b)
  | 5 => k (if i old ≥ i b then u old else u b)
  | 6 => k (min (u old) (u b))
  | 7 => k (max (u old) (u b))
  | 8 => k (u b)
  | 9 => if u old ≥ u b then 0 else k (u old + 1)
  | 10 => if u old = 0 ∨ u old > u b then k (u b) else k (u old - 1)
  | 11 => k (fp32.add .rne false (f32 (u old)) (f32 (u b))).1
  | 12 => k (fp32.minmax false false (u old) (u b)).1
  | 13 => k (fp32.minmax true false (u old) (u b)).1
  | 14 => k ((bf16.add .rne false (half 0 old) (half 0 b)).1 + (bf16.add .rne false (half 1 old) (half 1 b)).1 * 2 ^ 16)
  | _ => if u old = u b then k (u c) else k (u old)

/-- The combine g of R153: the operation itself; exch keeps the later value. -/
def combineAtomic (aop : Nat) (wide : Bool) (x y : Word) : Word := atomicNew aop wide x y 0

/-- One lane of an atomic word: lane, address, first-byte translation, operand and swap. -/
structure AtomLane where
  lane : Nat
  addr : Nat
  uc : Bool := false
  first : Bool := false
  b : Word
  c : Word := 0
  deriving DecidableEq, Repr

/-- The atomics of a word: one a lane, or one a location (R152, R153). -/
def atomParts (aop : Nat) (wide comb : Bool) (ls : List AtomLane) : List AtomPart :=
  if !comb then ls.map (fun l => { addr := l.addr, uc := l.uc, first := l.first, operand := l.b, swap := l.c, takes := [(l.lane, none)] })
  else ((ls.map (·.addr)).eraseDups).filterMap (fun a =>
    match ls.filter (fun l => l.addr = a) with
    | [] => none
    | l1 :: rest =>
      let step (acc : Word × List (Nat × Option Word)) (l : AtomLane) : Word × List (Nat × Option Word) :=
        (combineAtomic aop wide acc.1 l.b, acc.2 ++ [(l.lane, some acc.1)])
      let r := rest.foldl step (l1.b, [(l1.lane, none)])
      some { addr := a, uc := l1.uc, first := l1.first, operand := r.1, takes := r.2 })

/-- What the lanes of a part take from its old value. -/
def AtomPart.values (p : AtomPart) (aop : Nat) (wide : Bool) (old : Word) (poison : Bool) : List (Nat × Word × Bool) :=
  p.takes.map (fun t => (t.1, match t.2 with
    | none => old
    | some x => atomicNew aop wide old x 0, poison))

/-- Perform an atomic on memory of this package, or of the host: the old value and whether its bytes were poisoned, in which
case nothing is written (R152, R164). -/
def State.atomicAt (s : State) (uc first : Bool) (a aop : Nat) (wide : Bool) (b c : Word) : State × Word × Bool :=
  let n := if wide then 8 else 4
  let r := s.peeks uc a n
  let old := BitVec.ofNat 64 (natOfBytes r.1)
  if r.2 then (s, old, true)
  else
    let new := bytesOfNat n (atomicNew aop wide old b c).toNat
    (s.poke uc first (new.zipIdx.map (fun e => (a + e.2, e.1))) [], old, false)

/-- What an atomic word is: operation, width, combining, SEM, whether it returns a value. -/
structure AtomForm where
  aop : Nat
  wide : Bool
  comb : Bool := false
  returns : Bool := true
  deriving DecidableEq, Repr

def AtomForm.n (q : AtomForm) : Nat := if q.wide then 8 else 4

/-- The PCI Express window carries it (R155). -/
def AtomForm.pci (q : AtomForm) : Bool := q.aop = 0 || q.aop = 8 || q.aop = 15

/-- The entry of an atomic word. -/
def State.atomEntry (s : State) (f : Full) (q : AtomForm) (d : Nat) : LoadEntry where
  seq := s.own.memNext
  atomic := true
  posted := !q.returns
  aop := q.aop
  wide := q.wide
  dest := d
  ttype := if q.wide then 5 else 4
  regs := if q.wide then 2 else 1
  acquire := bit (lsSem f) 0
  release := bit (lsSem f) 1
  scope := scopeF f
  size := q.n
  context := s.ownCtx
  pc := BitVec.ofNat 64 (pcAddr s.own.pathPc)

/-- Send the parts that address other packages: their parts carry the request; those that are posted are done with. -/
def State.sendAtoms (s : State) (f : Full) (q : AtomForm) (act : Lanes) (ps : List AtomPart) : Effect :=
  let far := ps.filter (fun p => s.isRemote p.addr)
  let near := ps.filter (fun p => !s.isRemote p.addr)
  let outside := ps.any (fun p => s.isRemote p.addr || decide (region (localOf p.addr) ≠ .dram))
  if !s.ortRoom ((ps.map (fun p => p.addr / 128)).eraseDups).length then .pause s
  else if outside && (s.own.storeQ.any (fun e => !e.scratch) || s.own.loads.any (fun e => !e.scratch || e.acquire)
      || (bit (lsSem f) 1 && !s.own.quiet)) then .pause s
  else
    let issuer : Issuer := if q.returns then s.loadIssuer
      else s.storeIssuer (BitVec.ofNat 64 (pcAddr s.own.pathPc)) act
    let req (p : AtomPart) : AtomPart × Nat × RemoteRequest :=
      (p, p.addr, remoteReq s.ownCtx (.atomic q.aop q.wide p.operand p.swap)
        ((List.range q.n).map (fun i => (p.addr % 128 + i, 0))) (!q.returns) false)
    let r := (far.map req).foldl (Sending.one issuer) ({ s := s } : Sending AtomPart)
    if r.full then .pause s else
    let sent := r.sent.map (fun e => { e.2 with request := some e.1 })
    let e : LoadEntry := { s.atomEntry f q (if q.returns then f.d.toNat else 0x184) with
      parts := near ++ (if q.returns then sent else []), remote := if q.returns then r.sent.map (·.1) else [] }
    let s1 := if q.returns then r.s else r.s.addPosted issuer r.sent.length
    .retire { s := if e.parts = [] then s1 else s1.pushLoad e }

/-- A global atomic word. -/
def atomBody (f : Full) (q : AtomForm) (srcs : List Use) (s : State) (act : Lanes) : Effect :=
  match s.operandPoison 4 srcs act with
  | some t => .trap t
  | none =>
    let a := useA f .reg 2
    match s.accesses false { n := q.n, acc := 4, aligned := true, pci := q.pci } (s.eas a 0 (lanesOf act)) with
    | (s1, .error t) => .trapFrom s1 t
    | (s1, .ok as) =>
      let val (i l : Nat) : Word := ((srcs[i]?).map (fun u => s.value u l)).getD 0
      let ls := as.map (fun x =>
        let t := x.xs.headD ⟨0, 0⟩
        { lane := x.lane, addr := t.pa, uc := s1.isUc t, first := t.cpol = 1, b := val 1 x.lane, c := val 2 x.lane : AtomLane })
      s1.released act (bit (lsSem f) 1 && scopeF f ≥ 7) (scopeF f) (fun s2 =>
        s2.sendAtoms f q act (atomParts q.aop q.wide q.comb ls))

/-- Operand field of an atomic. -/
def atomOperand (f : Full) (wide : Bool) (c : Bool) : Use :=
  let u := if wide then Kind.regOrInline else Kind.any
  if c then useC f u (if wide then 2 else 1) else useB f u (if wide then 2 else 1)

/-- AOP, WIDE and COMB of ATOM and RED that R151 does not permit together. -/
def badAop (aop comb : Nat) (wide : Bool) : Bool :=
  aop = 15 || (wide && aop ≥ 11)
    || (comb ≠ 0 && !(aop ≤ 8 || (comb = 2 && (aop = 11 || aop = 14))))

/-- Shape of ATOM and RED. -/
def atomShape (op : Nat) (f : Full) (ret : Bool) : Shape where
  op := op
  roles := [2, 3]
  dst := if ret then some (useD f .dstVec (if f.fn.getLsbD 4 then 2 else 1)) else none
  srcs := [useA f .reg 2, atomOperand f (f.fn.getLsbD 4) false]
  bad := semBad f (if ret then [0, 1, 2, 3] else [0, 2])
    ++ [(4, decide (bits f.c.toNat 0 2 = 3) || decide (bits f.c.toNat 2 7 ≠ 0)),
        (0, badAop (bits f.fn.toNat 0 4) (bits f.c.toNat 0 2) (f.fn.getLsbD 4))]
  scope := scopeF f

/-- The form that ATOM and RED encode. -/
def atomForm (f : Full) (ret : Bool) : AtomForm where
  aop := bits f.fn.toNat 0 4
  wide := f.fn.getLsbD 4
  comb := bits f.c.toNat 0 2 ≠ 0
  returns := ret

/-- R152 ATOM. -/
def execAtom (f : Full) (s : State) : Host.Outcome State Fault Refusal :=
  let sh := atomShape 0x89 f true
  issue sh f s (atomBody f (atomForm f true) sh.srcs)

/-- R152 RED. -/
def execRed (f : Full) (s : State) : Host.Outcome State Fault Refusal :=
  let sh := atomShape 0x8C f false
  issue sh f s (atomBody f (atomForm f false) sh.srcs)

/-- The shape of CAS (R154). -/
def casShape (f : Full) : Shape :=
  let wide := f.fn.getLsbD 0
  { op := 0x8A, roles := [2, 3], dst := some (useD f .vec (if wide then 2 else 1))
    srcs := [useA f .reg 2, atomOperand f wide false, atomOperand f wide true]
    bad := semBad f [0, 1, 2, 3] ++ [(0, decide (bits f.fn.toNat 1 4 ≠ 0))], scope := scopeF f }

/-- R154 CAS. -/
def execCas (f : Full) (s : State) : Host.Outcome State Fault Refusal :=
  let wide := f.fn.getLsbD 0
  let sh := casShape f
  issue sh f s (atomBody f { aop := 15, wide := wide } sh.srcs)

/-- The shape of ATOMS (R152). -/
def atomsShape (f : Full) : Shape :=
  let aop := bits f.fn.toNat 0 4
  let wide := f.fn.getLsbD 4
  let a := useA f .noLatch
  { op := 0x8B, roles := [2, 3], dst := some (useD f .dstVec (if wide then 2 else 1))
    srcs := [a, atomOperand f wide false] ++ (if aop = 15 then [atomOperand f wide true] else [])
    bad := semBad f [0, 1, 2, 3] ++ [(0, wide && decide (aop ≥ 11 ∧ aop ≤ 14))], scope := scopeF f }

/-- R152 ATOMS. -/
def execAtoms (f : Full) (s : State) : Host.Outcome State Fault Refusal :=
  let aop := bits f.fn.toNat 0 4
  let wide := f.fn.getLsbD 4
  let a := useA f .noLatch
  let sh := atomsShape f
  issue sh f s (fun s act =>
    match s.operandPoison 4 sh.srcs act with
    | some t => .trap t
    | none =>
      let n := if wide then 8 else 4
      let eas := s.spEas a 0 (lanesOf act)
      match s.ownTeam.spAccesses n true 4 eas with
      | some t => .trap t
      | none =>
        let val (i l : Nat) : Word := ((sh.srcs[i]?).map (fun u => s.value u l)).getD 0
        let ls := eas.map (fun e => { lane := e.1, addr := e.2, b := val 1 e.1, c := val 2 e.1 : AtomLane })
        s.released act (bit (lsSem f) 1 && scopeF f ≥ 7) (scopeF f) (fun s1 =>
          .retire { s := s1.pushLoad { s1.atomEntry f { aop := aop, wide := wide } f.d.toNat with
            scratch := true, parts := atomParts aop wide false ls } }))

/-! ## Fences (R156, R157) -/

/-- Shape of FENCE. -/
def fenceShape (f : Full) (bad : Bool) (none_ : Bool) : Shape where
  op := 0x8D
  bad := [(7, scopeF f ≥ 10), (0, bad || lsSem f ≠ 0 || f.fn.getLsbD 4 || f.fn.getLsbD 2
    || (if none_ then scopeF f ≠ 0 else scopeF f = 0))]
  scope := scopeF f

/-- Invalidate the L1 of the issuing core when the word asks for it. -/
def State.l1inv (s : State) (f : Full) : State :=
  if f.fn.getLsbD 3 then s.modCore s.focus.core (fun k => { k with l1 := [] }) else s

/-- R156 FENCE, KIND 0. -/
def execFenceAcq (f : Full) (s : State) : Host.Outcome State Fault Refusal :=
  issue (fenceShape f false false) f s (fun s _ =>
    if s.own.loads = [] then .retire { s := s.l1inv f } else .pause s)

/-- R156 FENCE, KIND 1. -/
def execFenceRel (f : Full) (s : State) : Host.Outcome State Fault Refusal :=
  issue (fenceShape f false false) f s (fun s act =>
    s.released act true (scopeF f) (fun s1 => .retire { s := s1.l1inv f }))

/-- R156 FENCE, KIND 2. It waits until every operation the group has cancelled has stopped (R118). -/
def execFenceFull (f : Full) (s : State) : Host.Outcome State Fault Refusal :=
  issue (fenceShape f false false) f s (fun s act =>
    if s.own.cancelled ≠ [] then .pause s else
    s.released act true (scopeF f) (fun s1 => .retire { s := s1.l1inv f }))

/-- R156 FENCE, KIND 3. -/
def execFenceL1inv (f : Full) (s : State) : Host.Outcome State Fault Refusal :=
  issue (fenceShape f (!f.fn.getLsbD 3) true) f s (fun s _ => .retire { s := s.l1inv f })

end Sys2Proof.Machine
end

