-- ==== Sys2Proof/Machine/Fozen.lean ====
section
/-! DEFINITION. Remote requests: what an ingress performs and in which order (R359, R360, R362), what a response does for the
unit that waits for it (R360, R361), and requests that fail (R61, R364, R365). -/

namespace Sys2Proof.Machine

open Sys2Proof

/-! ## The destination (R359, R360, R362) -/

/-- Access kind under which a request is checked. -/
def RemoteOp.access (o : RemoteOp) : Nat :=
  match o with
  | .read _ => 1
  | .write | .drop => 2
  | .atomic _ _ _ _ => 4

/-- The local addresses that a request touches. -/
def RemoteRequest.addrs (r : RemoteRequest) : List Nat := r.bytes.map (fun e => r.address / 128 * 128 + e.1)

/-- The drop of R147 and R148: the line is dropped where the page has DISC_EN, and is a first eviction candidate elsewhere. -/
def State.dropOrAge (s : State) (ln : Nat) (disc : Bool) : State :=
  if disc then s.dropLine ln else { s with llc := smod ln (fun l => { l with first := true }) s.llc }

/-- A request performs at its home slice as a strong access. -/
def State.performRemote (s : State) (r : RemoteRequest) : State × RemoteResponse :=
  let ln := r.address / 128
  match r.op with
  | .read drop =>
    let bs := r.addrs.map (s.look false)
    (if drop then s.dropOrAge ln r.discEn else s, .data bs)
  | .write =>
    ((s.poke false false (r.bytes.map (fun e => (128 * ln + e.1, e.2))) (r.poison.map (128 * ln + ·))).noteAccesses true 2 r.context
      none r.addrs, .ack)
  | .atomic aop wide b c =>
    let q := s.atomicAt false false (r.addrs.headD 0) aop wide b c
    (if q.2.2 then q.1 else q.1.noteParts true 2 r.context none [(r.address / 128 * 128 + (r.addrs.headD 0) % 128 + s.pkgid * 2 ^ 40,
      if wide then 8 else 4)], if r.posted then .ack else .old q.2.1 q.2.2)
  | .drop => (if r.discEn then s.dropLine ln else s, .ack)

/-- The ingress of port `p` checks a request and performs it, or refuses it (R57, R61). -/
def State.ingress (s : State) (p : Nat) (r : RemoteRequest) : State × RemoteResponse :=
  let m := masterId 2 r.context
  let acc := r.op.access
  if r.addrs.any (fun a => decide (region a ≠ .dram)) then (s, .refused) else
  let c := ((r.addrs.map (fun a => a / 64 * 64)).eraseDups).foldl (fun (q : State × Bool) a =>
    if q.2 then q.1.atCheck (1201 + p) m acc a else q) (s, true)
  if !c.2 then (c.1, .refused) else
  let h := c.1.admitAll m acc r.addrs false
  if !h.2 then (h.1, .refused) else h.1.performRemote r

/-- Answer a request. -/
def State.answer (s : State) (p : Nat) (r : RemoteRequest) (a : RemoteResponse) : State :=
  s.modPort p (fun q => { q with answers := q.answers ++ [(r.package, r.seq, a)] })

/-- The key of a (source package, source port) pair. -/
def ingressKey (package srcPort : Nat) : Nat := package * 16 + srcPort

/-- What the ingress of port `p` keeps for a pair. -/
def State.ingressSeq (s : State) (p k : Nat) : IngressSeq := sget {} (s.port p).ingress k

def State.setIngressSeq (s : State) (p k : Nat) (i : IngressSeq) : State :=
  s.modPort p (fun q => { q with ingress := sput {} q.ingress k i })

/-- Perform the request of a pair that is next in sequence, and those held behind it, `n` at most. -/
def State.drainIngress (p k : Nat) : Nat → State → State
  | 0, s => s
  | n + 1, s =>
    let i := s.ingressSeq p k
    match i.held.find? (fun r => r.seq = i.next) with
    | none => s.setIngressSeq p k { i with gapSince := if i.held = [] then none else i.gapSince.or (some s.ns) }
    | some r =>
      let q := s.ingress p r
      State.drainIngress p k n ((q.1.answer p r q.2).setIngressSeq p k {
        next := i.next + 1, held := dropFirst (fun x => x.seq = i.next) i.held, gapSince := none })

/-- R362 REMOTE_REQUEST_ARRIVE. -/
def execRemoteRequestArrive (s : State) : Host.Outcome State Fault Refusal :=
  let p := s.focus.port
  match s.input with
  | .request r =>
    if !(s.portReg p 0).getLsbD 0 then .next (s.answer p r .ingressOff) else
    let k := ingressKey r.package r.srcPort
    let i := s.ingressSeq p k
    if r.seq < i.next then .next s
    else .next (State.drainIngress p k (i.held.length + 2) (s.setIngressSeq p k { i with held := i.held ++ [r] }))
  | _ => .next s

/-- R362 FZ_GAP_TIMEOUT: the gap of a pair (`focus.number` is its key) is skipped. -/
def execFzGapTimeout (s : State) : Host.Outcome State Fault Refusal :=
  let p := s.focus.port
  let k := s.focus.number
  let i := s.ingressSeq p k
  match i.gapSince, i.held with
  | some t, r :: rest =>
    if s.ns < t + s.fzTimeout then .next s else
    let low := rest.foldl (fun m x => min m x.seq) r.seq
    .next (State.drainIngress p k (i.held.length + 2) (s.setIngressSeq p k { i with next := low, gapSince := none }))
  | _, _ => .next s

/-! ## The requester (R360, R361) -/

/-- A request has ended: it leaves its port, and what waits for a free port or for DONE_TO tries again. -/
def State.endRequest (s : State) (p id : Nat) : State :=
  (s.modPort p (fun q => { q with outstanding := q.outstanding.filter (fun o => o.id ≠ id) })).wakeAll

/-- The domain physical address of a request. -/
def Outstanding.address (o : Outstanding) : Nat := o.dst * 2 ^ 40 + o.request.address

/-- Change the load of a group that a request belongs to. -/
def State.modLoad (s : State) (c grid g seq : Nat) (f : LoadEntry → LoadEntry) : State :=
  s.modTeamBy c grid (fun m => m.modGroup g (fun x =>
    { x.wake with loads := x.loads.map (fun e => if e.seq = seq then f e else e) }))

/-- The bytes of a read come back to its load. -/
def LoadEntry.takeBytes (e : LoadEntry) (p : Nat) (o : Outstanding) (bs : List (Byte × Bool)) : LoadEntry :=
  let at_ := (o.request.bytes.map (fun b => o.dst * 2 ^ 40 + o.request.address / 128 * 128 + b.1)).zip bs
  { e with
    remote := e.remote.filter (· ≠ (p, o.id))
    arrived := e.arrived ++ at_.map (fun x => (x.1, x.2.1))
    arrivedPoison := e.arrivedPoison ++ (at_.filter (fun x => x.2.2)).map (·.1) }

/-- The old value of an atomic comes back. -/
def LoadEntry.takeOld (e : LoadEntry) (p : Nat) (o : Outstanding) (old : Word) (poison : Bool) : LoadEntry :=
  let mine := e.parts.filter (fun x => x.request = some (p, o.id))
  { e with
    remote := e.remote.filter (· ≠ (p, o.id))
    parts := e.parts.filter (fun x => x.request ≠ some (p, o.id))
    got := e.got ++ mine.flatMap (fun x => x.values e.aop e.wide old poison) }

/-- The lanes that a request serves. -/
def LoadEntry.lanesFor (e : LoadEntry) (p : Nat) (o : Outstanding) : Lanes :=
  if e.atomic then
    lanesWhere (fun l => e.parts.any (fun x => x.request = some (p, o.id) && x.takes.any (fun t => t.1 = l)))
  else lanesWhere (fun l => e.lanes.any (fun x => x.lane = l && x.addrs.any (fun a => a / 128 = o.address / 128)))

/-- A request of a load has failed: its lanes keep their destination. -/
def LoadEntry.takeLoss (e : LoadEntry) (p : Nat) (o : Outstanding) : LoadEntry :=
  { e with
    failed := e.failed ||| e.lanesFor p o
    remote := e.remote.filter (· ≠ (p, o.id))
    parts := e.parts.filter (fun x => x.request ≠ some (p, o.id)) }

/-- An acknowledgement of a posted write reaches its issuer (R142, R252, R306, R328). -/
def State.acked (s : State) (p : Nat) (o : Outstanding) : State :=
  let s1 := s.endRequest p o.id
  match o.issuer with
  | .store _ _ _ _ _ _ => s1.addPosted o.issuer (-1)
  | .haul c id => s1.haulAck c id (p, o.id)
  | .keystone n => s1.ksAck n none
  | .grout q x y z => s1.groutAck q x y z (p, o.id) false
  | .reads _ => s1.farGot (p, o.id) id
  | _ => s1

/-- What comes back with a value. -/
def State.returned (s : State) (p : Nat) (o : Outstanding) (r : RemoteResponse) : State :=
  let s1 := s.endRequest p o.id
  match o.issuer, r with
  | .load c grid g seq, .data bs => s1.modLoad c grid g seq (fun e => e.takeBytes p o bs)
  | .load c grid g seq, .old v bad => s1.modLoad c grid g seq (fun e => e.takeOld p o v bad)
  | .mwait c grid g, .data bs => s1.modTeamBy c grid (fun m => m.modGroup g (fun x =>
      if x.mwaitReq.map (·.1) = some (p, o.id) then { x.wake with mwaitData := some (bs.map (·.1), bs.any (·.2)) } else x))
  | .reads _, .data bs => s1.farGot (p, o.id) (fun f => { f with got := bs })
  | _, _ => s1

/-! ## Failures (R61, R364, R365) -/

/-- The failure of a posted request of an engine is kept until the record that the engine has written is serviced (R365). -/
def State.keepFailure (s0 s : State) (p : Nat) (o : Outstanding) (code cause : Nat) : State :=
  let x := o.request.context
  match o.postedNo with
  | some n =>
    if s.nextSeq x = s0.nextSeq x then s else
    let f : FailedPost := {
      number := n, context := x, seq := s0.nextSeq x, address := o.address, cause := if code = 0x18 then some cause else none
      issuer := o.issuer }
    { s.modPort p (fun q => { q with failed := q.failed ++ [f] }) with
      services := s.services ++ [⟨x, s0.nextSeq x, code, .post p n⟩] }
  | none => s

/-- A request has failed, with ACCESS_DENIED or with UNREACHABLE of a CAUSE. The failure of a SIMT word is deferred: a store's
request stays in POSTED until it is reported (R365). -/
def State.failRequest (s : State) (p : Nat) (o : Outstanding) (code cause : Nat) : State :=
  let info := if code = 0x18 then unreachInfo cause p o.dst else 0
  let s0 := if code = 0x18 then s.incReg (offPort p + 0x98) else s
  match o.issuer with
  | .load c grid g seq =>
    let e := (((s.teamBy c grid).bind (fun m => sfind g m.groups)).bind (fun x => x.loads.find? (fun e => e.seq = seq))).getD {}
    ((s0.endRequest p o.id).modLoad c grid g seq (fun e => e.takeLoss p o)).report {
      code := code, core := c, grid := grid, group := g, pc := e.pc, address := o.address, lanes := e.lanesFor p o
      info := info, access := if e.atomic then 4 else 1, scope := e.scope }
  | .mwait c grid g =>
    let x := ((s.teamBy c grid).bind (fun m => sfind g m.groups)).getD {}
    ((s0.endRequest p o.id).modTeamBy c grid (fun m => m.modGroup g (fun x =>
      if x.mwaitReq.map (·.1) = some (p, o.id) then { x with mwaitReq := none, mwaitData := none } else x))).report {
      code := code, core := c, grid := grid, group := g, pc := BitVec.ofNat 64 (pcAddr x.pathPc), address := o.address
      lanes := x.cur, info := info, access := 1 }
  | .store c grid g pc lanes origin =>
    let s1 := s0.modPort p (fun q => { q with outstanding := q.outstanding.map (fun u =>
      if u.id = o.id then { u with reported := true } else u) })
    s1.report {
      code := code, core := c, grid := grid, group := g, pc := pc, address := o.address, lanes := lanes, info := info
      access := o.request.op.access, request := some (p, o.id), origin := origin }
  | .haul c id => (s0.endRequest p o.id).haulLost c id (p, o.id) code info o.address |> fun s1 => s0.keepFailure s1 p o code cause
  | .keystone n => (s0.endRequest p o.id).ksAck n (some code) |> fun s1 => s0.keepFailure s1 p o code cause
  | .grout q x y z =>
    let s1 := s0.endRequest p o.id
    let s2 := match (s1.gridBy q).bind (fun g =>
        (g.jobs.find? (fun j => j.x = x ∧ j.y = y ∧ j.z = z)).map (fun j => (g, j))) with
      | some (g, j) => s1.groutFault g j ⟨code, info, o.address⟩ o.address 2
      | none => s1
    s0.keepFailure s2 p o code cause
  | .reads _ => (s0.endRequest p o.id).farGot (p, o.id) (fun f => { f with fail := some (code, info) })
  | .frontEnd _ => s0.keepFailure ((s0.endRequest p o.id).record {
      context := o.request.context, code := code, unit := 0x80 + p, access := o.request.op.access
      addr := BitVec.ofNat 64 o.address, info := info }) p o code cause

/-- Requests to a package above MAXPKG end (R364 CAUSE 0). -/
def State.failBeyond (s : State) : State :=
  (s.ports.flatMap (fun e => (e.2.outstanding.filter (fun o => !o.reported && decide (o.dst > s.maxpkg))).map (fun o =>
    (e.1, o)))).foldl (fun (t : State) e => t.failRequest e.1 e.2 0x18 0) s

/-- R360 REMOTE_RESPONSE_ARRIVE: the response to request `focus.number` of port `focus.port`. -/
def execRemoteResponseArrive (s : State) : Host.Outcome State Fault Refusal :=
  let p := s.focus.port
  match s.input, (s.port p).outstanding.find? (fun o => o.id = s.focus.number ∧ !o.reported) with
  | .response r, some o =>
    .next (match r with
      | .refused => s.failRequest p o 0x15 0
      | .ingressOff => s.failRequest p o 0x18 3
      | .ack => s.acked p o
      | r => s.returned p o r)
  | _, _ => .next s

/-- R364 FZ_REQUEST_TIMEOUT: CAUSE 1 when the port has been down since before the request reached it, CAUSE 2 otherwise. -/
def execFzRequestTimeout (s : State) : Host.Outcome State Fault Refusal :=
  let p := s.focus.port
  match (s.port p).outstanding.find? (fun o => o.id = s.focus.number ∧ !o.reported) with
  | none => .next s
  | some o =>
    if s.ns < o.since + s.fzTimeout then .next s
    else
      let down := ((s.port p).downSince.map (fun t => decide (t ≤ o.since))).getD false
      .next (s.failRequest p o 0x18 (if down then 1 else 2))

end Sys2Proof.Machine
end

