-- ==== Sys2Proof/Machine/Queues.lean ====
section
/-! DEFINITION. User queues and their packets (R409 to R414), tickets (R411), and the event ring with its interrupts (R408,
R423, R424). A queue is named by `focus.number`, one of its packets by `focus.index`. -/

namespace Sys2Proof.Machine

open Sys2Proof

/-! ## The event ring (R423, R424) -/

/-- A register of the front end. -/
def State.feReg (s : State) (o : Nat) : Word := s.reg (offFe + o)

def State.setFeReg (s : State) (o : Nat) (w : Word) : State := s.setReg (offFe + o) w

/-- Event records written, those that are not confirmed included. -/
def State.eventsOut (s : State) : Nat := (s.feReg 0x38).toNat + s.evConfirm.length

/-- Write one record as a posted write of the host link, and signal MSI-X vector 0 behind it. -/
def State.writeEvent (s : State) (ws : List Word) : State :=
  let a := (s.feReg 0x28).toNat + 32 * (s.eventsOut % 4096)
  let n := s.hostPostedNext
  { s with
    dram := s.dram.write a (bytesOfWords8 ws)
    hostPosted := s.hostPosted ++ [(n, .frontEnd n)]
    hostPostedNext := n + 1
    evConfirm := s.evConfirm ++ [n]
    msix := if (s.feReg 0).getLsbD 2 then s.msix ++ [0] else s.msix }

/-- Generate an event: kind, queue, context, and its two data words. EV_DATA1 of OVERFLOW is free (log 3). -/
def State.event (s : State) (kind queue ctx : Nat) (d0 d1 : Word) : State :=
  if !(s.feReg 0).getLsbD 1 then s else
  let hdr (k : Nat) : Word := BitVec.ofNat 64 (k + queue % 256 * 2 ^ 8 + ctx % 64 * 2 ^ 16 + s.evSeq % 2 ^ 32 * 2 ^ 32)
  let s1 : State := { s with evSeq := (s.evSeq + 1) % 2 ^ 32 }
  let used := (s.eventsOut + 2 ^ 32 - (s.feReg 0x30).toNat) % 2 ^ 32
  let time := BitVec.ofNat 64 s.ftime
  if used + 2 ≤ 4096 then s1.writeEvent [hdr kind, d0, d1, time]
  else if used + 1 = 4096 then (s1.draw.2.writeEvent [hdr 3, hdr kind, s1.draw.1, time]).incReg (offFe + 0x40)
  else s1.incReg (offFe + 0x40)

/-! ## Queue registers (R409) -/

/-- A register of a queue. -/
def State.uq (s : State) (q o : Nat) : Word := s.reg (offUq q + o)

def State.setUq (s : State) (q o : Nat) (w : Word) : State := s.setReg (offUq q + o) w

def State.uqCtx (s : State) (q : Nat) : Nat := bits (s.uq q 0x8).toNat 0 6
def State.uqSize (s : State) (q : Nat) : Nat := 2 ^ (bits (s.uq q 0x8).toNat 6 4 + 4)
def State.uqOn (s : State) (q : Nat) : Bool := (s.uq q 0x8).getLsbD 10
def State.uqHalted (s : State) (q : Nat) : Bool := (s.uq q 0x28).getLsbD 8

/-- Virtual address of a packet of a queue. -/
def State.packetAddr (s : State) (q i : Nat) : Nat := ((s.uq q 0).toNat + 64 * (i % s.uqSize q)) % 2 ^ 64

/-- UQ_DONE: the leading packets that are complete. -/
def State.uqAdvance (s : State) (q : Nat) : State :=
  let mine := s.claimed.filter (fun c => c.queue = q)
  let rest := mine.dropWhile (fun c => c.complete)
  let s1 : State := { s with
    claimed := (mine.takeWhile (fun c => c.complete)).foldl (fun l c => dropFirst (· = c) l) s.claimed }
  s1.setUq q 0x20 ((rest.head?).elim (s.uq q 0x18) (fun c => BitVec.ofNat 64 c.index))

/-- A queue error halts the queue (R414); the packet it names, if any, is over. -/
def State.queueError (s : State) (q err info : Nat) (index : Option Nat) : State :=
  if s.uqHalted q then s else
  let d := match index with
    | some i => (i, s)
    | none => (s.draw.1.toNat % 2 ^ 32, s.draw.2)
  let s1 := (d.2.setUq q 0x28 (BitVec.ofNat 64 (err + 256 + d.1 * 2 ^ 32))).setUq q 0x30 (BitVec.ofNat 64 (info % 2 ^ 32))
  s1.event 2 q (s.uqCtx q) (BitVec.ofNat 64 d.1) (BitVec.ofNat 64 (err + info % 2 ^ 32 * 2 ^ 32))

/-- A write to UQ_WPTR: the index advances by at most the size of the ring; behind it the value is ignored. -/
def State.writeWptr (s : State) (q v : Nat) : State :=
  let ahead := (v % 2 ^ 32 + 2 ^ 32 - (s.uq q 0x10).toNat) % 2 ^ 32
  if !s.uqOn q ∨ ahead = 0 ∨ ahead ≥ 2 ^ 31 then s
  else if ahead ≤ s.uqSize q then s.setUq q 0x10 (BitVec.ofNat 64 (v % 2 ^ 32))
  else s.queueError q 0x02 (v % 2 ^ 32) none

/-- R409 UQ_WPTR_WRITE. -/
def execUqWptrWrite (s : State) : Host.Outcome State Fault Refusal :=
  match s.input with
  | .word w => .next (s.writeWptr (s.focus.number % 256) w.toNat)
  | _ => .next s

/-- A write to UQ_CFG. -/
def State.writeUqCfg (s : State) (q : Nat) (w : Word) : State :=
  let old := s.uq q 0x8
  if bits w.toNat 6 4 > 12 then s
  else if old.getLsbD 10 then s.setUq q 0x8 ((old &&& mask 0 10) ||| (w &&& mask 10 2))
  else s.setUq q 0x8 (w &&& mask 0 12)

/-- R409 UQ_CFG_WRITE. -/
def execUqCfgWrite (s : State) : Host.Outcome State Fault Refusal :=
  match s.input with
  | .word w => .next (s.writeUqCfg (s.focus.number % 256) w)
  | _ => .next s

/-- UQ_CTRL.RESUME clears ERR and HALTED; the failed index and UQ_ERRINFO stay. -/
def State.uqResume (s : State) (q : Nat) : State := s.setUq q 0x28 (s.uq q 0x28 &&& ~~~ mask 0 9)

/-- UQ_CTRL.RESET sets every index to 0, that of a failed packet included, and ends the error (R414). It is taken only while no claimed
packet is incomplete. -/
def State.uqReset (s : State) (q : Nat) : State :=
  if s.uq q 0x20 ≠ s.uq q 0x18 then s else
  let s1 := [0x10, 0x18, 0x20, 0x28].foldl (fun (s : State) o => s.setUq q o 0) s
  { s1 with
    emptySince := sdel q s1.emptySince
    far := s1.far.filter (fun f => match f.reader with
      | .packet n | .dep n _ _ => decide (n ≠ q)
      | _ => true) }

/-- R409 UQ_CTRL_RESUME. -/
def execUqCtrlResume (s : State) : Host.Outcome State Fault Refusal := .next (s.uqResume (s.focus.number % 256))

/-- R409 UQ_CTRL_RESET. -/
def execUqCtrlReset (s : State) : Host.Outcome State Fault Refusal := .next (s.uqReset (s.focus.number % 256))

/-! ## Tickets (R410, R411) -/

/-- KIND of a packet. -/
def packetKind (h : Word) : Nat := bits h.toNat 0 4

/-- BARRIER applies; MARKER always acts as if it were set. -/
def packetBarrier (h : Word) : Bool := h.getLsbD 4 || packetKind h = 5

/-- A reserved KIND or a reserved header bit. -/
def badHeader (h : Word) : Bool := decide (packetKind h ≥ 6) || (h &&& (mask 7 9 ||| mask 23 41)) ≠ 0

/-- A packet is over and its queue is halted with a code. -/
def State.packetFailed (s : State) (q i err info : Nat) : State :=
  let s1 := s.queueError q err info (some i)
  let s2 : State := { s1 with
    claimed := s1.claimed.map (fun c => if c.queue = q ∧ c.index = i then { c with complete := true } else c) }
  s2.uqAdvance q

/-- Take the next packet of a queue off its ring: UQ_RPTR advances, and the packet's words are as they were read. -/
def State.takePacket (s : State) (q i : Nat) (ws : List Word) : State :=
  let s1 := s.setUq q 0x18 (BitVec.ofNat 64 ((i + 1) % 2 ^ 32))
  { s1 with claimed := s1.claimed ++ [{ queue := q, index := i, words := ws }], emptySince := sdel q s1.emptySince }

/-- Write 0 to the header of a packet that is claimed; the claim waits while the write cannot be sent. -/
def State.clearHeader (s : State) (q i : Nat) (claim : State → State × Option Word) : State × Option Word :=
  let a := s.packetAddr q i
  let r := s.engineAdmit 0 (s.uqCtx q) ((List.range 8).map (fun k => (a + k, 0, false)))
  if r.paused then (r.s, none)
  else claim (if r.fail.isSome then r.s else (r.s.emit (.frontEnd q) (s.uqCtx q) 2 r.out).1)

/-- Try to claim the next packet of a queue. -/
def State.claimQueue (s : State) (q : Nat) : State × Option Word :=
  let i := (s.uq q 0x18).toNat
  if !s.uqOn q || s.uqHalted q || s.uq q 0x10 = s.uq q 0x18
      || ((sfind q s.emptySince).map (fun t => decide (s.uncore < t + 1024))).getD false then (s, none) else
  let r := s.engineReadRun 0 (s.uqCtx q) (s.packetAddr q i) 64 (.packet q)
  if r.paused then (r.s, none) else
  match r.fail with
  | some (e, _) => ((r.s.takePacket q i []).packetFailed q i 0x03 e.code, none)
  | none =>
    let ws := words8 (words4 (r.bytes.map (·.1)))
    let h := ws.headD 0
    if r.bytes.any (·.2) then ((r.s.takePacket q i ws).packetFailed q i 0x03 0x17, none)
    else if packetKind h = 0 then ({ r.s with emptySince := sins q s.uncore r.s.emptySince }, none)
    else if packetBarrier h && s.claimed.any (fun c => c.queue = q && !c.complete) then (r.s, none)
    else r.s.clearHeader q i (fun t =>
      if badHeader h then ((t.takePacket q i ws).packetFailed q i 0x01 0, none)
      else (t.takePacket q i ws, some (BitVec.ofNat 64 (i + q * 2 ^ 32 + 2 ^ 63))))

/-- Try to claim an entry of the pending pool. -/
def State.claimPool (s : State) : State × Option Word :=
  match s.pool.find? (fun e => !e.2.claimed) with
  | some e => ({ s with pool := smod e.1 (fun x => { x with claimed := true }) s.pool },
      some (BitVec.ofNat 64 (e.1 + 2 ^ 60 + 2 ^ 63)))
  | none => (s, none)

/-- Serve the sources in rotation: queues 0 to 255 and the pool. -/
def State.claimFrom : List Nat → State → State × Word
  | [], s => (s, 0)
  | n :: ns, s =>
    match (if n = 256 then s.claimPool else s.claimQueue n) with
    | (s1, some w) => ({ s1 with claimNext := (n + 1) % 257 }, w)
    | (s1, none) => State.claimFrom ns s1

/-- A read of FE_CLAIM returns one ticket and consumes it. -/
def State.claim (s : State) : State × Word :=
  if !(s.feReg 0).getLsbD 0 then (s, 0)
  else State.claimFrom ((List.range 257).map (fun k => (s.claimNext + k) % 257)) s

/-- R411 FE_CLAIM_READ. -/
def execFeClaimRead (s : State) : Host.Outcome State Fault Refusal := .next s.claim.1

/-- R411 EMPTY_PACKET_POLL: an EMPTY packet is read again. -/
def execEmptyPacketPoll (s : State) : Host.Outcome State Fault Refusal :=
  let q := s.focus.number % 256
  match sfind q s.emptySince with
  | none => .next s
  | some t =>
    if s.uncore < t + 1024 then .next s else
    let r := s.engineReadRun 0 (s.uqCtx q) (s.packetAddr q (s.uq q 0x18).toNat) 8 (.packet q)
    let empty := !r.paused && r.fail.isNone && decide (packetKind (word8 (r.bytes.map (·.1))) = 0)
    .next (if r.paused then r.s
      else if empty then { r.s with emptySince := sins q s.uncore r.s.emptySince }
      else { r.s with emptySince := sdel q r.s.emptySince })

/-! ## Completion (R410, R412) -/

/-- Change a claimed packet. -/
def State.modPacket (s : State) (q i : Nat) (f : ClaimedPacket → ClaimedPacket) : State :=
  { s with claimed := s.claimed.map (fun c => if c.queue = q ∧ c.index = i then f c else c) }

def ClaimedPacket.header (c : ClaimedPacket) : Word := c.words.headD 0

def ClaimedPacket.word (c : ClaimedPacket) (i : Nat) : Word := c.words.getD i 0

/-- The used DEP words of an AND packet, by number. -/
def ClaimedPacket.deps (c : ClaimedPacket) : List Nat := [0, 1, 2, 3].filter (fun k => c.word (3 + k) ≠ 0)

/-- Read one DEP word. -/
def State.pollDep (q i : Nat) (s : State) (c : ClaimedPacket) (k : Nat) : State :=
  if k ∈ c.reached then s else
  let r := s.engineReadRun 0 (s.uqCtx q) (c.word (3 + k)).toNat 8 (.dep q i k)
  if r.paused then r.s else
  match r.fail with
  | some (e, _) => r.s.packetFailed q i 0x03 e.code
  | none =>
    if r.bytes.any (·.2) then r.s.packetFailed q i 0x03 0x17
    else if (word8 (r.bytes.map (·.1))).toNat ≥ (c.word 7).toNat then
      r.s.modPacket q i (fun c => { c with reached := addNew k c.reached })
    else r.s

/-- R410 AND_DEPENDENCY_POLL: the poll, or the rest of one whose words in another package had not come. -/
def execAndDependencyPoll (s : State) : Host.Outcome State Fault Refusal :=
  let q := s.focus.number % 256
  let i := s.focus.index
  match s.claimed.find? (fun c => c.queue = q ∧ c.index = i ∧ ¬ c.complete ∧ packetKind c.header = 3) with
  | none => .next s
  | some c =>
    let early := (c.polled.map (fun t => decide (s.uncore < t + 1024))).getD false
    let s1 := if early then s else s.modPacket q i (fun c => { c with polled := some s.uncore })
    let deps := if early then c.deps.filter (fun k => s.far.any (fun f => f.reader = .dep q i k)) else c.deps
    .next (deps.foldl (fun (t : State) k => t.pollDep q i c k) s1)

/-- The word that the turn brings is what the agent of core `focus.core` knows of a packet's work (R410, R415): the status word of an
operation of the work's engine, which has come to a scalar register of the firmware slot; or the trap that the slot has met as it read
the packet's record, or as WDPLACE checked it, from FW_ECAUSE (log 79). -/
def State.agentKnows (s : State) (kind : Nat) : Bool :=
  match s.input with
  | .word w =>
    let e := s.fwReg 0x318
    let engine := match kind with
      | 1 => 6
      | 2 => 1
      | _ => 5
    let held (g : Group) : Bool := (List.range 128).any (fun n => g.s n = w && !g.spend.getLsbD n && !g.sregPoison.contains n)
    if w.getLsbD 63 then e.getLsbD 8 && decide (bits e.toNat 0 8 = bits w.toNat 0 8)
    else (decide (kind = 1) && w = e && e.getLsbD 8 && decide (bits e.toNat 0 8 = 0x26))
      || (decide (bits w.toNat 8 4 = engine) && (s.core s.focus.core).fw.groups.any (fun g => held g.2))
  | _ => false

/-- The work of a packet is over. MARKER completes at once, AND once every used DEP word has reached TARGET; of the others an agent
`knows` that it is. -/
def ClaimedPacket.over (c : ClaimedPacket) (knows : Bool) : Bool :=
  match packetKind c.header with
  | 3 => c.deps.all (fun k => k ∈ c.reached)
  | 5 => true
  | _ => knows

/-- The queue error that a status word tells, with its detail (R414): bit 63 of the input says that reading the packet's
record met the trap; of LAUNCH_INVALID bits 62:32 bring the low bits of FR_INFO. -/
def packetError (kind : Nat) (w : Word) : Option (Nat × Nat) :=
  let code := bits w.toNat 0 8
  if w.getLsbD 63 then some (0x03, code)
  else if code = 0 ∨ kind = 4 then none
  else if kind = 2 then some (0x06, code)
  else if code = 0x26 then some (0x04, bits w.toNat 32 31)
  else some (0x05, code)

/-- The last steps of a packet's completion: the event record, and UQ_DONE. -/
def State.packetEnd (s : State) (c : ClaimedPacket) (status : Word) : State :=
  let q := c.queue
  let d0 := if packetKind c.header = 5 then c.word 3 else BitVec.ofNat 64 c.index
  let s1 := if c.header.getLsbD 5 && (s.uq q 0x8).getLsbD 11 then s.event 1 q (s.uqCtx q) d0 status else s
  (s1.modPacket q c.index (fun c => { c with complete := true })).uqAdvance q

/-- Complete a packet: the completion release, behind which the rest waits until its write has performed. -/
def State.packetDone (s : State) (c : ClaimedPacket) (status : Word) : State :=
  let q := c.queue
  let ctx := s.uqCtx q
  let a := (c.word 1).toNat
  if a = 0 then s.packetEnd c status else
  let r := s.engineAdmit 0 ctx ((bytesOfNat 8 (c.word 2).toNat).zipIdx.map (fun e => (a + e.2, e.1, false)))
  if r.paused then r.s else
  match r.fail with
  | some (e, _) => r.s.packetFailed q c.index 0x03 e.code
  | none =>
    let s1 := (r.s.emit (.frontEnd q) ctx 9 r.out).1
    if s1.marksMet s1.marks then s1.packetEnd c status
    else s1.modPacket q c.index (fun c => { c with written := some (s1.marks, status) })

/-- A word that comes with the turn, or a free value (log 3). -/
def State.givenOrFree (s : State) : Word × State :=
  match s.input with
  | .word w => (w, s)
  | _ => s.draw

/-- R412 PACKET_COMPLETE. The status word of the work comes with the turn; AND and MARKER have none, and the word is free (log
3). The completion release waits for every posted write that was accepted before it (R142), and for the
service of a failed one (R365). -/
def execPacketComplete (s : State) : Host.Outcome State Fault Refusal :=
  let q := s.focus.number % 256
  match s.claimed.find? (fun c => c.queue = q ∧ c.index = s.focus.index ∧ ¬ c.complete) with
  | none => .next s
  | some c =>
    match c.written with
    | some (m, w) => .next (if s.marksMet m then s.packetEnd c w else s)
    | none =>
    let kind := packetKind c.header
    if !c.over (s.agentKnows kind) then .next s else
    let w := s.givenOrFree
    match (if kind = 3 ∨ kind = 5 then none else packetError kind w.1) with
    | some (err, info) => .next (s.packetFailed q c.index err info)
    | none =>
      let m := c.marks.getD s.marks
      if s.marksMet m && (s.coveredFailure m).isNone then .next (w.2.packetDone c w.1)
      else .next (s.modPacket q c.index (fun c => { c with marks := some m }))

end Sys2Proof.Machine
end

