-- ==== Sys2Proof/Machine/Quarry.lean ====
section
/-! DEFINITION. The Quarry units (R339 to R356). -/

namespace Sys2Proof.Machine

open Sys2Proof

/-! ## Slots and operands -/

/-- QSLOT_HDR of a team's slot (R342). -/
def Team.qhdr (m : Team) (n : Nat) : Word := sget 0 m.qslotHdr n

/-- Header word of LEN elements of a format. -/
def qslotWord (len fmt : Nat) : Word := BitVec.ofNat 64 (len + fmt * 2 ^ 16)

/-- Bytes of an input element (R346). -/
def ifmtBytes (fmt : Nat) : Nat := if fmt = 0 then 2 else 1

/-- LEN and IFMT of a slot as every earlier QLOADX of the team leaves it (R347). -/
def Team.qplanned (m : Team) (slot : Nat) : Nat × Nat :=
  match (m.quarry.filter (fun o => !o.gemv && o.slot = slot)).getLast? with
  | some o => (o.len, o.fmt)
  | none => (bits (m.qhdr slot).toNat 0 15, bits (m.qhdr slot).toNat 16 2)

/-- The pairings of WFMT and IFMT that R341 permits. -/
def qpairOk (wfmt ifmt : Nat) : Bool := if wfmt = 1 || wfmt = 3 then ifmt = 0 || ifmt = 1 else ifmt = 2

/-- Descriptor fields (R344). -/
def QuarryOp.wbase (o : QuarryOp) : Nat := dsc64 o.desc 0
def QuarryOp.sbase (o : QuarryOp) : Nat := dsc64 o.desc 2
def QuarryOp.pitch (o : QuarryOp) : Nat := dsc o.desc 4
def QuarryOp.row0 (o : QuarryOp) : Nat := dsc o.desc 5
def QuarryOp.rows (o : QuarryOp) : Nat := dsc o.desc 6

/-- Bytes of a weight row. -/
def QuarryOp.rowBytes (o : QuarryOp) : Nat := if o.fmt = 1 then (o.len + 1) / 2 else o.len

/-- Scale blocks of a row. -/
def QuarryOp.blocks (o : QuarryOp) : Nat := (o.len + 31) / 32

/-- First weight byte of row `i` of the range. -/
def QuarryOp.rowAddr (o : QuarryOp) (i : Nat) : Nat := (o.wbase + (o.row0 + i) * o.pitch) % 2 ^ 64

/-- Scale bytes of row `i` of the range: address and count. -/
def QuarryOp.scaleAddr (o : QuarryOp) (i : Nat) : Nat × Nat :=
  match o.fmt with
  | 1 => ((o.sbase + (o.row0 + i) * o.blocks) % 2 ^ 64, o.blocks)
  | 2 => ((o.sbase + 2 * (o.row0 + i)) % 2 ^ 64, 2)
  | _ => (0, 0)

/-- Rows of a Keystone operand, or of a bundle (R340, R349). -/
def QuarryOp.chunk (o : QuarryOp) : Nat := if o.ks then 128 else 64

/-- Keystone operands of an operation. -/
def QuarryOp.operands (o : QuarryOp) : Nat := if o.ks then (o.rows + 127) / 128 else 0

/-! ## Pages -/

/-- The first address of a byte range on each of its 64 KiB pages. -/
def pagesOf (va n : Nat) : List Nat :=
  if n = 0 then [] else
  (List.range ((va + n - 1) / 0x10000 - va / 0x10000 + 1)).map (fun i => max va ((va / 0x10000 + i) * 0x10000))

/-- The first address of the operation's weight rows, or of their scales, on each page that they span. -/
def QuarryOp.pages (o : QuarryOp) (scales : Bool) : List Nat :=
  let all := (List.range o.rows).flatMap (fun i =>
    if scales then pagesOf (o.scaleAddr i).1 (o.scaleAddr i).2 else pagesOf (o.rowAddr i) o.rowBytes)
  all.foldl (fun acc a => if (acc.head?.map (· / 0x10000)) = some (a / 0x10000) then acc else a :: acc) [] |>.reverse

/-- The page is local DRAM. -/
def State.localDram (s : State) (x : Xlat) : Bool := !s.isRemote x.pa && decide (region (localOf x.pa) = .dram)

/-- The leaf of a page maps 2 MiB or 1 GiB: its level, as the walk or the TLB gives it. -/
def State.bigPage (s : State) (ctx va : Nat) : Bool :=
  match (s.lookup ctx va).2 with
  | .ok (l, _) => decide (l = 1 ∨ l = 2)
  | .error _ => false

/-- CAUSE of QUARRY_FORMAT for a weight page (R345). -/
def State.weightCause (s : State) (ctx va fmt : Nat) (x : Xlat) : Option Nat :=
  if x.qlayout = 0 then some 0
  else if x.qlayout > 3 || x.qfmt > 4 then some 1
  else if x.qfmt ≠ fmt then some 2
  else if !s.bigPage ctx va || !s.localDram x then some 3
  else none

/-- Rank 6: translate pages in order; the first that fails. -/
def State.pageTrap (s : State) (ctx : Nat) (vas : List Nat) : Option Trap :=
  vas.findSome? (fun va =>
    match (s.translate ctx va 1).2 with
    | .error e => some { code := e.code, addr := BitVec.ofNat 64 va, info := BitVec.ofNat 32 e.info, access := 1 }
    | .ok _ => none)

/-- QUARRY_FORMAT. -/
def formatTrap (cause va : Nat) : Trap := { code := 0x24, addr := BitVec.ofNat 64 va, info := BitVec.ofNat 32 cause }

/-- Rank 7: weight pages, then scale pages, then the slot. -/
def State.formatFail (s : State) (ctx : Nat) (o : QuarryOp) (slot : Nat × Nat) : Option Trap :=
  let leaf (va : Nat) : Option Xlat := (s.translate ctx va 1).2.toOption
  firstTrap [
    (o.pages false).findSome? (fun va => ((leaf va).bind (s.weightCause ctx va o.fmt)).map (formatTrap · va)),
    (o.pages true).findSome? (fun va => (leaf va).bind (fun x => if s.localDram x then none else some (formatTrap 3 va))),
    if slot.1 = 0 then some (formatTrap 4 0) else none,
    if qpairOk o.fmt slot.2 then none else some (formatTrap 5 0)]

/-! ## Computing a row (R348) -/

/-- A weight, or an input element, on the float path. -/
def qweight (fmt x : Nat) : FVal := if fmt = 1 then typeValue 5 false x else typeValue 3 false x
def qinput (fmt x : Nat) : FVal := if fmt = 0 then bf16.decode false x else typeValue 3 false x

/-- Weight code `k` of a row's bytes. -/
def qcode (fmt : Nat) (bs : List Byte) (k : Nat) : Nat :=
  if fmt = 1 then bits (bs.getD (k / 2) 0).toNat (4 * (k % 2)) 4 else (bs.getD k 0).toNat

/-- The float path: a row's weight bytes and scale bytes against the input. -/
def qfloatRow (fmt ifmt : Nat) (ws ss : List Byte) (xs : List W32) : Nat :=
  (List.range ((xs.length + 7) / 8)).foldl (fun acc g =>
    let ks := ((List.range 8).map (8 * g + ·)).filter (· < xs.length)
    let sw : FVal := if fmt = 1 then scaleValue (ss.getD (8 * g / 32) 0).toNat else .fin false 1 0
    f32add acc (groupSum (ks.map (fun k => (qinput ifmt (xs.getD k 0).toNat, qweight fmt (qcode fmt ws k)))) (.fin false 1 0) sw)) 0

/-- The exact integer sum of a row: units of 2^-6 for PP8, of 1 for INT8. -/
def qintSum (fmt : Nat) (ws : List Byte) (xs : List W32) : Int :=
  ((List.range xs.length).map (fun k =>
    signedOf 8 (xs.getD k 0).toNat * (if fmt = 2 then pp8Units (qcode fmt ws k) else signedOf 8 (qcode fmt ws k)))).sum

/-- One result (R348). -/
def qresult (fmt ifmt : Nat) (ws ss : List Byte) (xs : List W32) : W32 :=
  BitVec.ofNat 32 (match fmt with
    | 2 => f32mul (fvalOf (qintSum 2 ws xs) (-6)) (bf16.decode false (natOfBytes ss))
    | 4 => lowBits 32 (qintSum 4 ws xs)
    | _ => qfloatRow fmt ifmt ws ss xs)

/-- Why an operation stops (R352): code, FR_INFO of R165, address, scales, access. -/
structure RowStop where
  code : Nat
  info : Nat
  va : Nat
  scales : Bool
  access : Nat := 1
  deriving DecidableEq, Repr

/-- Read bytes from the DRAM copy, page by page: the state, the bytes with their poison, and whether some page is not one
that Quarry units read. `fmt` is the format that a weight page must have. -/
def State.quarryRead (s : State) (ctx va n : Nat) (fmt : Option Nat) : State × Except (AddrFail × Nat) (List (Byte × Bool) × Bool) :=
  (pagesOf va n).foldl (fun (r : State × Except (AddrFail × Nat) (List (Byte × Bool) × Bool)) a =>
    match r.2 with
    | .error e => (r.1, .error e)
    | .ok (bs, odd) =>
      match r.1.translate ctx a 1 with
      | (s1, .error e) => (s1, .error (e, a))
      | (s1, .ok x) =>
        let m := min (va + n) ((a / 0x10000 + 1) * 0x10000) - a
        let here := (List.range m).map (fun i => s1.peek true (localOf x.pa + i))
        let strange := !s1.localDram x || (match fmt with
          | some k => decide (x.qlayout = 0 ∨ x.qlayout > 3 ∨ x.qfmt ≠ k)
          | none => false)
        (s1, .ok (bs ++ here, odd || strange))) (s, .ok ([], false))

/-- Access table of the unit that holds a bundle (R57, R340, R430); G comes from the address of the page, which its leaf gives
(R131). -/
def quarryTable (x : Xlat) (bundle : Nat) : Nat :=
  let die := if localOf x.pa < 0x1800000000 then 0 else 512
  let g := bits x.leaf.toNat 21 19
  177 + die + (match x.qlayout with
    | 2 => 64 * (g % 8) + bundle % 64
    | 3 => 8 * (g % 64) + bundle % 8
    | _ => bundle % 512)

/-- Compute row `i` of an operation: its result with its poison, or why it stops. A row on a page whose layout or format was
changed, or that is no longer local DRAM, is a value that the manual leaves open (R350; log 3). -/
def State.quarryRow (s : State) (m : Team) (o : QuarryOp) (i : Nat) : State × Except RowStop (W32 × Bool) :=
  let a := o.rowAddr i
  match s.translate m.context a 1 with
  | (s1, .error e) => (s1, .error ⟨e.code, e.info, a, false, 1⟩)
  | (s1, .ok x) =>
    let chk := if s1.localDram x then s1.atCheck (quarryTable x (i / 64)) (masterId 3 m.context) 1 (localOf x.pa) else (s1, true)
    if !chk.2 then (chk.1, .error ⟨0x15, 0, a, false, 1⟩) else
    match chk.1.quarryRead m.context a o.rowBytes (some o.fmt) with
    | (s2, .error (e, va)) => (s2, .error ⟨e.code, e.info, va, false, 1⟩)
    | (s2, .ok (ws, odd1)) =>
      match s2.quarryRead m.context (o.scaleAddr i).1 (o.scaleAddr i).2 none with
      | (s3, .error (e, va)) => (s3, .error ⟨e.code, e.info, va, true, 1⟩)
      | (s3, .ok (ss, odd2)) =>
        let poison := o.inputPoison || (ws ++ ss).any (·.2)
        if odd1 || odd2 then (s3.draw.2, .ok (s3.draw.1.setWidth 32, poison))
        else (s3, .ok (qresult o.fmt o.ifmt (ws.map (·.1)) (ss.map (·.1)) (o.input.getD []), poison))

/-- Compute rows from COUNT to the end of the chunk, with KS = 0 no more than `focus.index` if that is not 0: their results, and what stops the operation. -/
def State.quarryRows (s : State) (m : Team) (o : QuarryOp) : State × List (W32 × Bool) × Option RowStop :=
  let stop := min o.rows (if o.ks || s.focus.index = 0 then (o.count / o.chunk + 1) * o.chunk else o.count + s.focus.index)
  ((List.range (stop - o.count)).map (o.count + ·)).foldl
    (fun (r : State × List (W32 × Bool) × Option RowStop) i =>
      if r.2.2.isSome then r else
      match r.1.quarryRow m o i with
      | (s1, .ok v) => (s1, r.2.1 ++ [v], none)
      | (s1, .error e) => (s1, r.2.1, some e)) (s, [], none)

/-! ## Running operations -/

def State.modQuarry (s : State) (c t id : Nat) (f : QuarryOp → QuarryOp) : State :=
  s.modTeam c t (fun m => { m with quarry := m.quarry.map (fun o => if o.id = id then f o else o) })

/-- Earlier operations of the team in Quarry order. -/
def Team.quarryBefore (m : Team) (o : QuarryOp) : List QuarryOp := m.quarry.takeWhile (fun p => p.id ≠ o.id)

/-- A QLOADX may write its slot; a QGEMV may read its (R347). -/
def Team.slotReady (m : Team) (o : QuarryOp) : Bool :=
  (m.quarryBefore o).all (fun p => p.slot ≠ o.slot || (o.gemv && p.gemv) || (p.gemv && p.input.isSome))

/-- End an operation with a status word. Operands of a cancelled one that were refused are sent again all the same (R118, R349). -/
def State.quarryEnd (s : State) (c t : Nat) (m : Team) (o : QuarryOp) (status : Word) : State :=
  let s1 := { s with ksRetry := s.ksRetry ++ o.refused }.modTeam c t (fun m => ({ m with quarry := m.quarry.filter (fun p => p.id ≠ o.id) }).wake)
  ((s1.noteProgress c m.gridSlot o.handle 4 o.count).resolveOp c m.gridSlot o.handle status).settle c t

/-- A fault of an operation (R352). -/
def State.quarryFault (s : State) (c t : Nat) (m : Team) (o : QuarryOp) (row : Nat) (e : RowStop) : State :=
  let stays := e.code = 0x10 || e.code = 0x11
  let s1 := s.record {
    context := m.context, code := e.code, master := 3, unit := c, team := t, group := o.group, access := e.access
    scope := o.scope, progress := some (mkProgress 4 o.count), pc := o.pc, addr := BitVec.ofNat 64 e.va
    info := BitVec.ofNat 32 (row + if e.scales then 2 ^ 17 else 0), future := o.handle.getD 0 }
    (if stays then some (.quarry c m.gridSlot o.id) else none)
  s1.modQuarry c t o.id (fun o => if stays then { o with stopped := some (s.nextSeq m.context) } else { o with ended := some e.code })

/-- The elements of an input slot stand in the team's image (R342): the address of element `i`. -/
def Team.slotAddr (m : Team) (slot sz i : Nat) : Nat := m.image + m.slotArea + 0x8000 * slot + sz * i

/-- R346: an input vector is copied into its slot. A write that an access table refuses ends the operation (log 77). -/
def State.qload (s : State) (c t : Nat) (m : Team) (o : QuarryOp) : State :=
  let sz := ifmtBytes o.fmt
  let bs := (List.range (sz * o.len)).map (fun i => (m.slotAddr o.slot 1 i, m.spByte (o.src + i)))
  let w := bs.map (fun b => (b.1, b.2.1))
  let ok := (s.imageAdmit m.context w).2
  let s1 := s.imageWrite m.context w ((bs.filter (·.2.2)).map (·.1))
  match w.find? (fun b => !ok.contains (b.1 / 64)) with
  | some b => (s1.quarryFault c t m o 0 ⟨0x15, 0, b.1, false, 2⟩).quarryEnd c t m o (statusWord 0x15 4 0)
  | none => (s1.modTeam c t (fun m => { m with qslotHdr := sput 0 m.qslotHdr o.slot (qslotWord o.len o.fmt) })).quarryEnd c t m
      { o with count := o.len } (statusWord 0 4 o.len)

/-- A QGEMV reads its slot, through the access tables (R21, R342). -/
def State.readSlot (s : State) (m : Team) (o : QuarryOp) : State × Except RowStop QuarryOp :=
  let fmt := bits (m.qhdr o.slot).toNat 16 2
  let sz := ifmtBytes fmt
  let q := s.admitAll (masterId 0 m.context) 1 ((List.range (sz * o.len)).map (m.slotAddr o.slot 1)) false
  if !q.2 then (q.1, .error ⟨0x15, 0, m.slotAddr o.slot sz 0, false, 1⟩) else
  let bs := (List.range (sz * o.len)).map (fun i => q.1.peek false (m.slotAddr o.slot 1 i))
  (q.1, .ok { o with
    input := some ((List.range o.len).map (fun i => BitVec.ofNat 32 (natOfBytes (((bs.drop (sz * i)).take sz).map (·.1)))))
    ifmt := fmt, inputPoison := bs.any (·.2) })

/-- The operation with its input. -/
def State.withInput (s : State) (m : Team) (o : QuarryOp) : State × Except RowStop QuarryOp :=
  if o.input.isSome then (s, .ok o) else s.readSlot m o

/-- An FP32 result is not finite (R349). -/
def nonfinite32 (w : W32) : Bool := bits w.toNat 23 8 = 255

/-- Send operand `j`, with the results of its rows (R349). -/
def State.sendOperand (s : State) (c : Nat) (m : Team) (o : QuarryOp) (j : Nat) (vs : List (W32 × Bool)) : State :=
  let tag : W32 := BitVec.ofNat 32 (o.bval.toNat % 2 ^ 32 + j)
  let x := s.ksTarget m.context tag o.cval (4 * vs.length)
  let op : Operand := {
    tag := tag, payload := vs.map (·.1), cdf := o.cval, scope := o.scope, gridSlot := m.gridSlot
    flags := if o.fmt ≠ 4 && vs.any (fun v => nonfinite32 v.1) then 1 else 0
    target := match x.2 with
      | .ok ps => ps
      | .error _ => []
    senders := [.gemv c m.gridSlot o.id j], master := masterId 3 m.context
    poison := (vs.zipIdx.filter (fun e => e.1.2)).map (·.2) }
  { x.1 with ksFlight := x.1.ksFlight ++ [op] }

/-- The steps of the operands that were sent have all ended. -/
def QuarryOp.stepsOver (o : QuarryOp) : Bool := !o.ks || decide (o.outcomes.length = (o.count + 127) / 128)

/-- The status word of an operation that is over (R24, R349, R353). -/
def QuarryOp.status (o : QuarryOp) : Word :=
  let outs := (List.range o.operands).filterMap (fun j => (o.outcomes.find? (fun e => e.1 = j)).map (·.2))
  let code := ((outs.map (fun w => w.toNat % 256)).find? (· ≠ 0)).getD 0
  let ds := ((outs.map (fun w => bits w.toNat 16 3)).find? (· ≥ 2)).getD 0
  let rows := if o.cancelled then o.count else resultOf (o.ended.getD 0) o.count o.count
  statusWord (if o.cancelled then 0x80 else o.ended.getD code) 4 (rows + ds * 2 ^ 17)

/-- The operation has nothing more to do. -/
def QuarryOp.over (o : QuarryOp) : Bool :=
  o.cancelled || ((o.ended.isSome || decide (o.count ≥ o.rows)) && o.stepsOver)

/-- Deliver the results of the rows from COUNT (R349). -/
def State.qdeliver (s : State) (c t : Nat) (m : Team) (o : QuarryOp) (vs : List (W32 × Bool)) (whole : Bool) : State :=
  if o.ks then
    if whole ∧ vs ≠ [] then
      (s.sendOperand c m o (o.count / 128) vs).modQuarry c t o.id (fun o => { o with count := o.count + vs.length })
    else s
  else
    let a := bits o.bval.toNat 0 32 + 4 * o.count
    let bs := (bytesOfWords (vs.map (·.1))).zipIdx.map (fun e => (a + e.2, e.1))
    let bad := (vs.zipIdx.filter (fun e => e.1.2)).map (fun e => a + 4 * e.2)
    (s.modTeam c t (fun m => m.spWrite bs bad)).modQuarry c t o.id (fun o => { o with count := o.count + vs.length })

/-- Compute and deliver the next chunk of an operation. A row that cannot be computed stops it, or ends it (R352). -/
def State.qrun (s : State) (c t : Nat) (m : Team) (o : QuarryOp) : State :=
  let q := s.withInput m o
  match q.2 with
  | .error e => q.1.quarryFault c t m o o.count e
  | .ok o1 =>
    let s0 := q.1.modQuarry c t o.id (fun _ => o1)
    let r := s0.quarryRows m o1
    let s1 := r.1.qdeliver c t m o1 r.2.1 r.2.2.isNone
    let p := (((s1.team? c t).getD {}).quarry.find? (fun p => p.id = o.id)).getD o1
    let s2 := s1.noteProgress c m.gridSlot p.handle 4 p.count
    match r.2.2 with
    | some e => s2.quarryFault c t m p (o.count + r.2.1.length) e
    | none => s2

/-- The operation may compute its next chunk. -/
def Team.qmayRun (m : Team) (o : QuarryOp) : Bool :=
  o.gemv && o.stopped.isNone && o.ended.isNone && !o.cancelled && decide (o.count < o.rows)
    && (o.input.isSome || m.slotReady o)

/-- Choose an operation of the team that the turn names: the turn's number picks among those that satisfy a condition. -/
def State.pickQuarry (s : State) (p : Team → QuarryOp → Bool) : Option (Team × QuarryOp) :=
  match s.team? s.focus.core s.focus.team with
  | none => none
  | some m =>
    let os := m.quarry.filter (p m)
    (os[s.focus.number % max 1 os.length]?).map (fun o => (m, o))

/-- R346: a QLOADX whose slot is free takes effect and ends. -/
def execQloadxComplete (s : State) : Host.Outcome State Fault Refusal :=
  match s.pickQuarry (fun m o => !o.gemv && m.slotReady o) with
  | some (m, o) => .next (s.qload s.focus.core s.focus.team m o)
  | none => .next s

/-- R349: a QGEMV that has delivered everything ends; another delivers its next chunk. -/
def execQgemvComplete (s : State) : Host.Outcome State Fault Refusal :=
  let c := s.focus.core
  let t := s.focus.team
  match s.pickQuarry (fun m o => o.gemv && (o.over || m.qmayRun o)) with
  | none => .next s
  | some (m, o) => if o.over then .next (s.quarryEnd c t m o o.status) else .next (s.qrun c t m o)

/-- A refused operand of an operation is due again. -/
def State.resendDue (s : State) (o : QuarryOp) : Bool := o.refused.any (fun x => decide (s.uncore ≥ x.since + 1024))

/-- R349: an operand that was refused is sent again, 1,024 uncore cycles after it last was. -/
def execQuarryOperandResend (s : State) : Host.Outcome State Fault Refusal :=
  match s.pickQuarry (fun _ o => s.resendDue o) with
  | none => .next s
  | some (_, o) =>
    match o.refused.find? (fun x => s.uncore ≥ x.since + 1024) with
    | none => .next s
    | some x => .next ({ s with ksFlight := s.ksFlight ++ [x] }.modQuarry s.focus.core s.focus.team o.id
        (fun o => { o with refused := dropFirst (· = x) o.refused }))

/-- The next rows of an operation cannot be computed. -/
def State.qstops (s : State) (m : Team) (o : QuarryOp) : Bool :=
  let q := s.withInput m o
  match q.2 with
  | .error _ => true
  | .ok o1 => (q.1.quarryRows m o1).2.2.isSome

/-- R352: an operation whose next rows cannot be read stops, or ends. -/
def execQuarryAsyncFault (s : State) : Host.Outcome State Fault Refusal :=
  match s.pickQuarry (fun m o => m.qmayRun o && s.qstops m o) with
  | none => .next s
  | some (m, o) => .next (s.qrun s.focus.core s.focus.team m o)

/-- R356: at a window's end RATE follows min(LIMIT, CAP); the turn says whether some unit waited for activation budget. -/
def execQryRateWindow (s : State) : Host.Outcome State Fault Refusal :=
  let st := s.reg (offQry + 8)
  let cap := bits st.toNat 16 9
  let rate := min (max 1 (s.regBits offQry 0 9)) cap
  let n := bits st.toNat 32 32 + if s.input = .flag true then 1 else 0
  .next (s.setReg (offQry + 8) (BitVec.ofNat 64 (rate + cap * 2 ^ 16 + n % 2 ^ 32 * 2 ^ 32)))

/-! ## The words (R343, R345) -/

/-- Shape of QLOADX and QGEMV. -/
def quarryShape (op : Nat) (f : Full) (srcs : List Use) (bad : Bool) : Shape where
  op := op
  roles := [2, 3]
  dst := some (asyncD f)
  srcs := srcs
  bad := [(7, badScope f), (0, bad)]
  scope := scopeF f
  behind := op = 0xD1

/-- Enter the team's Quarry order. -/
def State.quarryEnter (s : State) (o : QuarryOp) (h : Option Word) : State :=
  let c := s.focus.core
  ((s.modOwnTeam (fun m => { m with quarry := m.quarry ++ [{ o with handle := h }] })).modCore c
    (fun k => { k with nextId := k.nextId + 1 })).noteProgress c s.ownTeam.gridSlot h 4 0

/-- The common fields of an operation that the issuing word starts. -/
def State.quarryOp (s : State) (f : Full) (gemv : Bool) (fmt : Nat) : QuarryOp where
  id := (s.core s.focus.core).nextId
  gemv := gemv
  slot := bits f.fn.toNat 5 1
  fmt := fmt
  scope := scopeF f
  group := s.focus.group
  pc := BitVec.ofNat 64 (pcAddr s.own.pathPc)

/-- R346 QLOADX. -/
def execQloadx (f : Full) (s : State) : Host.Outcome State Fault Refusal :=
  let fmt := bits f.fn.toNat 0 2
  let sh := quarryShape 0xD0 f [asyncA f, asyncB f] (fmt = 3 || bits f.fn.toNat 2 3 ≠ 0 || f.fn.getLsbD 6)
  issue sh f s (fun s act =>
    match s.poisonTrap sh.srcs act with
    | some t => .trap t
    | none =>
      let a := bits (s.src f (asyncA f)).toNat 0 32
      let n := bits (s.src f (asyncB f)).toNat 0 15
      if n ≠ 0 && s.ownTeam.spBeyond a (n * ifmtBytes fmt) then .trap (s.ownTeam.spRange a)
      else if n = 0 ∨ n > 16384 then .trap { code := 0x02, info := 3 }
      else s.startAsync f act 4 (scopeF f) (fun s => s.ownTeam.quarry.length < 8) (fun s h =>
        s.quarryEnter { s.quarryOp f false fmt with len := n, src := a } h) (fun s => .settled s.haltHere))

/-- Rank 5 of R345 for the descriptor. -/
def gemvBad (o : QuarryOp) : Option Nat :=
  firstBad [
    badAt 0x10 (o.pitch % 64 ≠ 0 || decide (o.pitch < o.rowBytes) || decide (o.pitch > 1048576)
      || decide ((o.row0 + o.rows) * o.pitch > 2 ^ 36)),
    badAt 0x18 (o.rows > 65536), reservedAt 0x1C (dsc o.desc 7)]

/-- Ranks 3 to 8 of R345 for QGEMV; `a` is the descriptor's address. -/
def State.gemvTrap (s : State) (f : Full) (m : Team) (o : QuarryOp) (a : Nat) : State × Option Trap :=
  let b := bits o.bval.toNat 0 32
  let early := firstTrap [
    if m.spBeyond a 32 then some (m.spRange a) else none,
    if !o.ks && o.rows ≠ 0 && m.spBeyond b (4 * o.rows) then some (m.spRange b) else none,
    if m.spPoisoned a 32 then some { code := 0x17, info := f.a.setWidth 32 } else none,
    (gemvBad o).map fieldTrap]
  match early with
  | some t => (s, some t)
  | none =>
    let vas := o.pages false ++ o.pages true
    let walked := vas.foldl (fun (s : State) va => (s.translate s.ownCtx va 1).1) s
    (walked, firstTrap [
      s.pageTrap s.ownCtx vas,
      s.formatFail s.ownCtx o (m.qplanned o.slot),
      (List.range o.operands).findSome? (fun j =>
        s.tagTrap s.ownCtx (BitVec.ofNat 32 (o.bval.toNat % 2 ^ 32 + j)) o.cval)])

/-- R348 QGEMV. -/
def execQgemv (f : Full) (s : State) : Host.Outcome State Fault Refusal :=
  let ks := f.fn.getLsbD 6
  let fmt := bits f.fn.toNat 0 4
  let sh := quarryShape 0xD1 f ([asyncA f, asyncB f] ++ if ks then [asyncC f] else [])
    (fmt = 0 || fmt > 4 || f.fn.getLsbD 4)
  issue sh f s (fun s act =>
    let cv : W32 := (s.src f (asyncC f)).setWidth 32
    if ks && badCdf cv then .trap { code := 0x02, info := 4 } else
    match s.poisonTrap sh.srcs act with
    | some t => .trap t
    | none =>
      let m := s.ownScratch
      let a := bits (s.src f (asyncA f)).toNat 0 32 / 8 * 8
      let o0 := s.quarryOp f true fmt
      let o : QuarryOp := { o0 with
        ks := ks, len := (m.qplanned o0.slot).1, desc := m.spWords a 8, bval := s.src f (asyncB f), cval := cv }
      match s.gemvTrap f m o a with
      | (_, some t) => .trap t
      | (s1, none) =>
        s1.startAsync f act 4 (scopeF f) (fun s => s.ownTeam.quarry.length < 8) (fun s h => s.quarryEnter o h)
          (fun s => .settled s.haltHere))

/-- Every leaf that a table reaches, as package address, size and leaf (R130, R131). -/
def State.leaves (s : State) : Nat → Nat → List (Nat × Nat × Word)
  | level, table =>
    let bitsN := levelBits level
    match level with
    | 0 => (List.range (2 ^ bitsN.2)).filterMap (fun i =>
        let e := natOfBytes (s.peeks false (table + 8 * i) 8).1
        if bit e 0 && !malformed 0 e then some (bits e 16 36 * 2 ^ 16, 2 ^ bitsN.1, BitVec.ofNat 64 e) else none)
    | l + 1 => (List.range (2 ^ bitsN.2)).flatMap (fun i =>
        let e := natOfBytes (s.peeks false (table + 8 * i) 8).1
        if !bit e 0 || malformed (l + 1) e then []
        else if bit e 1 then [(bits e 16 36 * 2 ^ 16, 2 ^ bitsN.1, BitVec.ofNat 64 e)]
        else s.leaves l (bits e 8 32 * 256))

/-- Page tables in use: those of the valid contexts. -/
def State.quarryPages (s : State) : List (Nat × Nat) :=
  ((List.range 64).filter (fun x => (s.reg (offCtx x)).getLsbD 0)).flatMap (fun x =>
    ((s.leaves 4 (s.reg (offCtx x + 8)).toNat).filter (fun e =>
      bits e.2.2.toNat 52 4 ≠ 0 && !s.isRemote e.1)).map (fun e => (localOf e.1, e.2.1)))

/-- Write back every dirty LLC line on a page with QLAYOUT ≠ 0 (R351). -/
def State.flushQuarry (s : State) : State :=
  let pages := s.quarryPages
  (s.llc.filter (fun e => e.2.dirty && pages.any (fun p => p.1 ≤ 128 * e.1 && decide (128 * e.1 < p.1 + p.2)))).foldl
    (fun (s : State) e => s.writeBack e.1) s

/-- Shape of QFENCE. -/
def qfenceShape (f : Full) (bad : Bool) : Shape where
  op := 0xD2
  roles := [2, 3]
  bad := [(7, badScope f), (0, bits f.fn.toNat 2 5 ≠ 0 || bad)]
  scope := scopeF f

/-- Quarry operations of the issuing group. -/
def State.ownQuarry (s : State) : Bool := s.ownTeam.quarry.any (fun o => o.group = s.focus.group)

/-- R351 QFENCE.w, which waits as FENCE.full does for the operations that the group has cancelled (R118); KIND 0 is reserved. -/
def execQfenceW (f : Full) (s : State) : Host.Outcome State Fault Refusal :=
  issue (qfenceShape f (bits f.fn.toNat 0 2 = 0)) f s (fun s act =>
    if s.own.cancelled ≠ [] then .pause s else
    s.released act true (scopeF f) (fun s => .retire { s := s.flushQuarry }))

/-- R351 QFENCE.r. -/
def execQfenceR (f : Full) (s : State) : Host.Outcome State Fault Refusal :=
  issue (qfenceShape f false) f s (fun s _ => if s.ownQuarry then .pause s else .retire { s := s })

/-- R351 QFENCE.wr: `.r` first, then `.w`. -/
def execQfenceWr (f : Full) (s : State) : Host.Outcome State Fault Refusal :=
  issue (qfenceShape f false) f s (fun s act =>
    if s.ownQuarry || s.own.cancelled ≠ [] then .pause s
    else s.released act true (scopeF f) (fun s => .retire { s := s.flushQuarry }))

/-- The shape of QSTAT, MODE 0 (R353). -/
def qstatShape (f : Full) : Shape :=
  let a := asyncA f
  { op := 0xD3, roles := [2, 3], dst := some (useD f .scalar), srcs := [a], bad := [(0, !fnOnly f 1)] }

/-- R353 QSTAT, MODE 0. -/
def execQstat (f : Full) (s : State) : Host.Outcome State Fault Refusal :=
  let a := asyncA f
  issue (qstatShape f) f s
    (fun s act =>
      match s.poisonTrap [a] act with
      | some t => .trap t
      | none => s.statWord f 4)

/-- The shape of QSTAT, MODE 1 (R353). -/
def qstatStShape (f : Full) : Shape :=
  { op := 0xD3, roles := [2, 3], dst := some (useD f .scalar), srcs := [asyncB f], bad := [(0, !fnOnly f 1)] }

/-- R353 QSTAT, MODE 1. -/
def execQstatSt (f : Full) (s : State) : Host.Outcome State Fault Refusal :=
  let sh := qstatStShape f
  issue sh f s (fun s act =>
    match s.poisonTrap sh.srcs act with
    | some t => .trap t
    | none =>
      let m := s.ownTeam
      let v : Word := match bits (s.src f (asyncB f)).toNat 0 8 with
        | 0 => s.reg (offQry + 8)
        | 1 => m.qhdr 0
        | 2 => m.qhdr 1
        | 3 => BitVec.ofNat 64 m.quarry.length
        | _ => 0
      .retire { s := s, result := some { vals := [(0, v)] } })

end Sys2Proof.Machine
end

