-- ==== Sys2Proof/Machine/Image.lean ====
section
/-! DEFINITION. The register image of a team (R18 to R21, R119, R124, R263, R267, R296, R342, R355): where each piece of a team's state
stands in it, writing it, and taking it back. -/

namespace Sys2Proof.Machine

open Sys2Proof

/-! ## The image as fields -/

/-- A field of the image: offset, bytes, value. -/
abbrev ImgField := Nat × Nat × Nat

/-- A 64-bit field. -/
def img8 (off : Nat) (w : Word) : ImgField := (off, 8, w.toNat)

/-- A 32-bit field. -/
def img4 (off : Nat) (w : W32) : ImgField := (off, 4, w.toNat)

/-- THDR_ID of a team in a slot. -/
def Team.thdrId (m : Team) (slot : Nat) : Word :=
  BitVec.ofNat 64 (m.context + m.core * 2 ^ 6 + slot % 8 * 2 ^ 13 + m.gridSlot % 64 * 2 ^ 16 + m.gridSeq % 2 ^ 32 * 2 ^ 32)

/-- TBSTATE of a barrier. -/
def TeamBarrier.word (b : TeamBarrier) : Word :=
  BitVec.ofNat 64 (b.arrived + (if b.phase then 2 ^ 14 else 0) + b.first % 2 ^ 48 * 2 ^ 16)

/-- The team's header but for FTAB and the private bytes of save records. -/
def Team.headerFields (m : Team) (slot : Nat) (hauls : List HaulOp) : List ImgField :=
  [img8 0 (m.thdrId slot), img8 8 m.contAddr, img8 0x10 m.barTimeout, img8 0x18 (if m.nonfinite then 1 else 0),
    img8 0x20 m.spillBase, img8 0x28 m.roleShape, img8 0x30 (BitVec.ofNat 64 m.scratchSize)]
  ++ (List.range 16).map (fun n => img8 (0x80 + 8 * n) (sget {} m.tbstate n).word)
  ++ (List.range 2).map (fun n => img8 (0xD00 + 8 * n) (sget 0 m.qslotHdr n))
  ++ ((List.range 64).drop hauls.length).map (fun n => (0x100 + 48 * n, 1, 0))
  ++ ((List.range 8).drop m.quarry.length).map (fun n => (0xD40 + 48 * n, 1, 0))
  ++ hauls.zipIdx.flatMap (fun e => [(0x100 + 48 * e.2, 1, 1), img8 (0x120 + 48 * e.2) (mkProgress 1 e.1.done)])
  ++ m.quarry.zipIdx.flatMap (fun e => [(0xD40 + 48 * e.2, 1, 1), img8 (0xD60 + 48 * e.2) (mkProgress 4 e.1.count)])

/-- A group's control block (R20). -/
def Group.blockFields (g : Group) (seed : Nat → W32) : List ImgField :=
  let lanes := List.range 32
  (List.range 128).map (fun n => img8 (8 * n) (g.s n))
  ++ lanes.map (fun l => img8 (0x400 + 8 * l) (g.pc l)) ++ lanes.map (fun l => img8 (0x500 + 8 * l) (g.meet l))
  ++ lanes.map (fun l => img8 (0x600 + 8 * l) (g.pred l)) ++ (List.range 16).map (fun n => img4 (0x700 + 4 * n) (g.k n))
  ++ [img4 0x740 g.exited, img4 0x744 g.held, img8 0x748 (g.spend.setWidth 64), img8 0x750 (g.spend.extractLsb' 64 64),
    img8 0x758 (g.fpflags.setWidth 64), img8 0x760 g.mwaitAddr, img8 0x768 g.mwaitValue, img8 0x770 g.contState,
    img8 0x778 g.contLanes]
  ++ lanes.map (fun l => img4 (0x780 + 4 * l) (seed l))
  ++ lanes.map (fun l => img4 (0x800 + 4 * l) (BitVec.ofNat 32 (sget {} g.spoil l).depth))
  ++ lanes.map (fun l => img8 (0x880 + 8 * l) (sget 0 g.resumev l))
  ++ (List.range 16).map (fun n => img4 (0x980 + 4 * n) (sget 0 g.tblanes n))
  ++ [img8 0x9C0 g.bwstate, img8 0x9C8 g.bwlanes]

/-- The seeds of a group. -/
def seedsOf (core gi : Nat) (g : Group) (l : Nat) : W32 := sget (seedAt core gi l) g.seed l

/-- Offset of a group's record. -/
def recordOff (g : Nat) : Nat := 0x2000 + 0x9000 * g

/-- The bytes of a list of fields. -/
def fieldBytes (base : Nat) (fs : List ImgField) : List (Nat × Byte) :=
  fs.flatMap (fun f => (bytesOfNat f.2.1 f.2.2).zipIdx.map (fun e => (base + f.1 + e.2, e.1)))

/-- Bytes that are 0. -/
def zeroBytes (base n : Nat) : List (Nat × Byte) := (List.range n).map (fun i => (base + i, 0))

/-- The future table in the image (R19): an entry at its reset value is 0; what any other holds is private to the hardware, a free
value (log 3, log 47). -/
def State.ftabFields (s : State) (m : Team) : State × List ImgField :=
  (List.range 256).foldl (fun (r : State × List ImgField) n =>
    if m.fut n = {} then (r.1, r.2 ++ [(0x1000 + 16 * n, 16, 0)]) else
    let d := r.1.draw
    let e := d.2.draw
    (e.2, r.2 ++ [img8 (0x1000 + 16 * n) d.1, img8 (0x1008 + 16 * n) e.1])) (s, [])

/-! ## Image traffic (R21) -/

/-- A field of the image as it stands in memory. -/
def State.imageGet (s : State) (base off n : Nat) : Nat := natOfBytes (s.peeks false (base + off) n).1

/-- One 64-bit field. -/
def State.imageWord (s : State) (base off : Nat) : Word := BitVec.ofNat 64 (s.imageGet base off 8)

/-- One 32-bit field. -/
def State.imageW32 (s : State) (base off : Nat) : W32 := BitVec.ofNat 32 (s.imageGet base off 4)

/-! ## Register lines -/

/-- The bytes of a register's line, with the addresses of those whose lane word is poisoned. -/
def Group.lineBytes (g : Group) (base n : Nat) : List (Nat × Byte) × List Nat :=
  ((List.range 32).flatMap (fun l => (bytesOfNat 4 (g.v n l).toNat).zipIdx.map (fun e => (base + 128 * n + 4 * l + e.2, e.1))),
    ((List.range 32).filter (fun l => g.vregPoison.contains (n * 32 + l))).map (fun l => base + 128 * n + 4 * l))

/-- Write one register's line back to the image (R21, R162). -/
def State.writeReg (s : State) (m : Team) (gi : Nat) (g : Group) (n : Nat) : State :=
  let b := g.lineBytes (m.image + recordOff gi) n
  s.imageWrite m.context b.1 b.2

/-- Fill one register from its line in the image: every lane word of a poisoned half is poisoned (R162). -/
def State.fillReg (s : State) (m : Team) (gi n : Nat) (g : Group) : Group :=
  let a := m.image + recordOff gi + 128 * n
  (List.range 32).foldl (fun (h : Group) l =>
    let r := s.peeks false (a + 4 * l) 4
    { h.setV n l (BitVec.ofNat 32 (natOfBytes r.1)) with vregPoison := setPoison h.vregPoison (n * 32 + l) r.2 }) g

/-- Registers that a group's role names. -/
def Team.regsOf (m : Team) (gi : Nat) : Nat := m.roleRegs (m.roleOf gi)

/-- Lines of the register cache of a core (R21). -/
def regLines : Nat := 16384

/-- The lines of a team that are in the register cache, by group and register. -/
def Team.regKeys (m : Team) : List (Nat × Nat) :=
  m.groups.flatMap (fun e => ((List.range (m.regsOf e.1)).filter (fun n => !e.2.evicted.contains n)).map (fun n => (e.1, n)))

/-- How many lines of a team are in the register cache. -/
def Team.regCount (m : Team) : Nat := (m.groups.map (fun e => m.regsOf e.1 - e.2.evicted.length)).sum

/-- How many lines of the register cache of a core are in use. -/
def Core.regCount (k : Core) : Nat := (k.teams.map (fun e => e.2.regCount)).sum

/-- A load of the group has the register as a destination. -/
def Group.awaits (g : Group) (n : Nat) : Bool :=
  g.loads.any (fun e => (spanOf e.dest e.regs).contains n || (e.quad && decide (e.dest ≤ n ∧ n < e.dest + 4)))

/-- Evict a register of the group that `focus` names: its line is written back to the image. A line whose write-back is refused stays,
and ACCESS_DENIED is reported (R21, R61). -/
def State.evictReg (s : State) (n : Nat) : State × Bool :=
  let m := s.ownTeam
  let b := s.own.lineBytes (m.image + recordOff s.focus.group) n
  let r := s.imageAdmit m.context b.1
  if b.1.all (fun e => r.2.contains (e.1 / 64)) then
    ((r.1.poke false false b.1 b.2).modOwn (fun g => { g with evicted := g.evicted ++ [n] }), true)
  else (r.1.report {
    code := 0x15, core := s.focus.core, grid := m.gridSlot, group := s.focus.group, pc := BitVec.ofNat 64 (pcAddr s.own.pathPc)
    address := m.image + recordOff s.focus.group + 128 * n + s.pkgid * 2 ^ 40, lanes := s.own.cur, access := 2 }, false)

/-- Make room for one line in the register cache of the core that `focus` names: of a full one, a line goes that is no destination
of a load, which one the manual leaves open (log 19). -/
def State.regRoom (s : State) : State × Bool :=
  let k := s.core s.focus.core
  if k.regCount < regLines then (s, true) else
  let keys := k.teams.flatMap (fun t => (t.2.regKeys.filter (fun e =>
    ((sfind e.1 t.2.groups).map (fun g => !g.awaits e.2)).getD false)).map (fun e => (t.1, e)))
  match keys[s.draw.1.toNat % max 1 keys.length]? with
  | none => (s, false)
  | some (t, g, n) =>
    let r := ({ s.draw.2 with focus := { s.focus with team := t, group := g } } : State).evictReg n
    ({ r.1 with focus := s.focus }, r.2)

/-- Of a team that comes to a core, the lines that the register cache has no room for are not in it: its highest registers, which are
written back first where the image does not hold them (log 19). -/
def State.trimRegs (s : State) (c t : Nat) (write : Bool) : State :=
  match s.team? c t with
  | none => s
  | some m =>
    (m.regKeys.reverse.take ((s.core c).regCount - regLines)).foldl (fun (x : State) e =>
      let x1 := if write then ((sfind e.1 m.groups).map (fun g => x.writeReg m e.1 g e.2)).getD x else x
      x1.modGroup c t e.1 (fun g => { g with evicted := g.evicted ++ [e.2] })) s

/-! ## Saving (R422) -/

/-- The team's header, control blocks and save areas, without its register lines. -/
def Team.imageBytes (m : Team) (slot : Nat) (hauls : List HaulOp) (ash : Ashlar) : List (Nat × Byte) :=
  fieldBytes m.image (m.headerFields slot hauls)
  ++ m.groups.flatMap (fun e => fieldBytes (m.image + recordOff e.1 + 0x8000) (e.2.blockFields (seedsOf m.core e.1 e.2)))
  ++ (m.scratch.read 0 m.scratchSize).zipIdx.map (fun e => (m.image + m.scratchArea + e.2, e.1))
  ++ (if m.ownsAshlar then fieldBytes (m.image + m.ashArea) ((List.range (8 * 128 * 128)).map (fun i =>
        img4 (0x10000 * (i / 16384) + 4 * (i % 16384)) (sget 0 ash.plinth i))) else [])

/-- The bytes of ASH_STATE, which is private to the hardware: free values from number `f` on (R296; log 47). -/
def Team.ashState (m : Team) (f : Nat) : List (Nat × Byte) :=
  if m.ownsAshlar then
    (List.range 0x20000).map (fun i => (m.image + m.ashArea + 0x80000 + i, (Config.freeWord (f + i)).setWidth 8))
  else []

/-- Addresses in the image of poisoned data: scratchpad, scalar registers and plinth (R162). -/
def Team.imagePoison (m : Team) (ash : Ashlar) : List Nat :=
  m.scratchPoison.map (fun g => m.image + m.scratchArea + 8 * g)
  ++ m.groups.flatMap (fun e => e.2.sregPoison.map (fun n => m.image + recordOff e.1 + 0x8000 + 8 * n))
  ++ (if m.ownsAshlar then ash.plinthPoison.map (fun i => m.image + m.ashArea + 4 * i) else [])

/-- Write a team's image; its register lines too when they are written back. -/
def State.saveImage (s : State) (m : Team) (slot : Nat) (hauls : List HaulOp) (ash : Ashlar) (lines : Bool) : State :=
  let s1 := { s with fresh := s.fresh + 0x20000 }.imageWrite m.context (m.imageBytes slot hauls ash ++ m.ashState s.fresh)
    (m.imagePoison ash)
  if !lines then s1 else
  m.groups.foldl (fun (t : State) e =>
    (List.range (m.regsOf e.1)).foldl (fun (t : State) n => t.writeReg m e.1 e.2 n) t) s1

/-! ## Restoring -/

/-- Spoil state of a lane from its depth (R233). -/
def spoilFrom (d : Nat) : SpoilLane :=
  if d = 0 then { depth := 0, nb := 0, count := 0, loaded := false }
  else { depth := d, nb := (d - 1) / 8, count := d - 8 * ((d - 1) / 8), loaded := false }

/-- Every lane of a group takes its Spoil state from SPOILD. -/
def Group.reloadSpoil (g : Group) : Group :=
  { g with spoil := (List.range 32).foldl (fun m l =>
      let d := (sget {} m l).depth
      if d = 0 then sdel l m else sins l (spoilFrom d) m) g.spoil }

/-- A group as its record in memory gives it. -/
def State.loadGroup (s : State) (m : Team) (gi : Nat) (g : Group) : Group :=
  let b := m.image + recordOff gi + 0x8000
  let w (o : Nat) : Word := s.imageWord b o
  let h (o : Nat) : W32 := s.imageW32 b o
  let row (k : Nat) (f : Word → Word) (o : Nat) : Sparse Word := (List.range k).foldl (fun m n => sput 0 m n (f (w (o + 8 * n)))) []
  let row4 (k o : Nat) : Sparse W32 := (List.range k).foldl (fun m n => sput 0 m n (h (o + 4 * n))) []
  let g1 : Group := { g with
    sregPoison := (List.range 128).filter (fun n => (s.peek false (b + 8 * n)).2)
    sreg := row 128 id 0, 
    pcv := row 32 (fun w => w &&& ~~~ mask 63 1) 0x400, meetv := row 32 pcBits 0x500
    predv := (List.range 32).foldl (fun m l =>
      sput 0x8000000000000000 m l (w (0x600 + 8 * l) ||| 0x8000000000000000)) []
    kmask := row4 16 0x700, exited := h 0x740, held := h 0x744, spend := w 0x750 ++ w 0x748
    fpflags := (w 0x758).setWidth 5, mwaitAddr := w 0x760 &&& ~~~ mask 56 7, mwaitValue := w 0x768, contState := w 0x770
    contLanes := w 0x778, seed := (List.range 32).foldl (fun m l => sins l (h (0x780 + 4 * l)) m) [], resumev := row 32 id 0x880, tblanes := row4 16 0x980
    bwstate := w 0x9C0, bwlanes := w 0x9C8
    spoil := (List.range 32).foldl (fun m l =>
      let d := (h (0x800 + 4 * l)).toNat
      if d = 0 then sdel l m else sins l (spoilFrom d) m) g.spoil }
  (List.range (m.regsOf gi)).foldl (fun (x : Group) n => s.fillReg m gi n x) g1

/-- A team as its image in memory gives it; what is private to the hardware, and what firmware may only read, stays. -/
def State.loadTeam (s : State) (m : Team) : Team :=
  let b := m.image
  let w (o : Nat) : Word := s.imageWord b o
  let hdr (n : Nat) : Word := w (0xD00 + 8 * n)
  { m with
    scratchPoison := (List.range ((m.scratchSize + 7) / 8)).filter (fun g => (s.peek false (b + m.scratchArea + 8 * g)).2)
    contAddr := pcBits (w 8), barTimeout := w 0x10, nonfinite := (w 0x18).getLsbD 0, spillBase := w 0x20
    tbstate := (List.range 16).foldl (fun t n =>
      let x := w (0x80 + 8 * n)
      sput {} t n { arrived := bits x.toNat 0 14, phase := x.getLsbD 14, first := bits x.toNat 16 48 }) []
    qslotHdr := (List.range 2).foldl (fun t n => sput 0 t n (hdr n)) []
    scratch := (List.range m.scratchSize).foldl (fun t i => t.setByte i (s.peek false (b + m.scratchArea + i)).1) []
    groups := m.groups.map (fun e => (e.1, s.loadGroup m e.1 e.2))
    quarry := m.quarry.zipIdx.map (fun e => { e.1 with count := bits (w (0xD60 + 48 * e.2)).toNat 0 60 })
    ashSaved := m.ashSaved.map (fun a => { a with
      plinth := (List.range (8 * 128 * 128)).foldl (fun t i =>
        sput 0 t i (s.imageW32 (b + m.ashArea) (0x10000 * (i / 16384) + 4 * (i % 16384)))) []
      plinthPoison := (List.range (8 * 128 * 128)).filter (fun i => (s.peek false (b + m.ashArea + 4 * i)).2) }) }

/-- How many granules of a team's image arrive poisoned at its core when the team takes its state from it (R164). -/
def State.imagePoisoned (s : State) (m : Team) : Nat :=
  ((s.poison ++ s.llc.flatMap (fun e => e.2.poison.map (2 * e.1 + ·))).eraseDups.filter (fun g =>
    decide (m.image / 64 ≤ g ∧ g < (m.image + m.slotArea) / 64) && (s.peek false (64 * g)).2)).length

end Sys2Proof.Machine
end

