-- ==== Sys2Proof/Machine/Lintel.lean ====
section
/-! DEFINITION. Sequencer slots while a collective runs in them: flags, faults and ends (R387, R388, R392, R393), the memory a
chunk instruction touches (R375), and the chunk instructions over it (R379 to R383). -/

namespace Sys2Proof.Machine

open Sys2Proof

/-! ## Slots -/

/-- DTYPE of the collective of a slot is `.iqs`. -/
def Slot.iqs (t : Slot) : Bool := (t.current.map LaunchPacket.dtype).getD 0 = 1

/-- Register c`k`. -/
def Slot.c (t : Slot) (k : BitVec 4) : Word := sget 0 t.creg k.toNat

def Slot.setC (t : Slot) (k : BitVec 4) (w : Word) : Slot := { t with creg := sput 0 t.creg k.toNat w }

/-- The slot holds or has ended its program. -/
def Slot.ended (t : Slot) : Bool := t.state = .halted || t.state = .error

/-- Code of a state in the state word (R402). -/
def SlotState.code (x : SlotState) : Nat :=
  match x with
  | .free => 0
  | .ready => 1
  | .run => 2
  | .wait => 3
  | .fault => 4
  | .halted => 5
  | .error => 6

/-- The state word (R402). -/
def State.slotWord (s : State) (p i : Nat) : Word :=
  let t := s.slot p i
  BitVec.ofNat 64 (t.state.code + t.pc % 512 * 2 ^ 4 + t.queue.length % 8 * 2 ^ 13 + s.slotOwner p i * 2 ^ 16
    + t.chunk.toNat * 2 ^ 32)

def State.sequencer (s : State) (p : Nat) : Sequencer := sget {} s.seqs p

/-- The slot that runs. -/
def State.running (s : State) (p : Nat) : Option Nat := (List.range 8).find? (fun i => (s.slot p i).state = .run)

/-- The first READY slot in ascending order after the one that ran (R376). -/
def State.nextReady (s : State) (p : Nat) : Option Nat :=
  ((List.range 8).map (fun k => ((s.sequencer p).last + 1 + k) % 8)).find? (fun i => (s.slot p i).state = .ready)

/-- An instruction of a port has completed: in single-step mode the sequencer stops (R389). -/
def State.seqStep (s : State) (p : Nat) : State :=
  if !(s.reg (offLn p + 8)).getLsbD 0 then s else
  let i := ((s.running p).or (s.nextReady p)).getD (s.sequencer p).last
  s.setReg (offLn p + 0x18) (BitVec.ofNat 64 (1 + i * 2 + (s.slot p i).pc % 512 * 16))

/-- The sequencer of a port may run an instruction (R389, R401). -/
def State.seqRuns (s : State) (p : Nat) : Bool :=
  (s.reg (offLn p)).getLsbD 0 && !((s.reg (offLn p + 8)).getLsbD 0 && (s.reg (offLn p + 0x18)).getLsbD 0)

/-! ## Messages to other packages -/

/-- Tell a package something of its slot with the same index; this package's own slot learns it at once. -/
def State.tellSlot (s : State) (p i dst : Nat) (n : CreditNews) : State :=
  if dst = s.pkgid then
    match n with
    | .consumed d => s.modSlot p i (fun t => { t with credits := sput 0 t.credits d (sget 0 t.credits d - 1) })
    | _ => s
  else s.modSlot p i (fun t => { t with news := t.news ++ [(dst, n)] })

/-- Drop the oldest staged chunk from a source; its credit returns (R379). -/
def State.freeChunk (s : State) (p i src : Nat) : State :=
  (s.modSlot p i (fun t => { t with staged := dropFirst (fun c => c.source = src) t.staged })).tellSlot p i src
    (.consumed s.pkgid)

/-! ## Local completion (R392, R393) -/

/-- The ports on which a packet's collective runs here, when it has started on all of PORTMASK. -/
def State.started (s : State) (l : LaunchPacket) : Bool :=
  l.ports.all (fun p => (s.slot p l.slot).current.map (·.number) = some l.number)

/-- The record of a sequencer fault (R388). -/
def State.slotRecord (s : State) (p i code cause operand addr acc : Nat) : State :=
  let t := s.slot p i
  s.record {
    context := s.slotOwner p i, code := code, master := 2, unit := 0x80 + p, access := acc
    progress := some (mkProgress 5 t.chunk.toNat), pc := BitVec.ofNat 64 t.pc, addr := BitVec.ofNat 64 addr
    future := ((t.current.bind (·.future)).map FutureRef.handle).getD 0
    info := BitVec.ofNat 32 (i + cause * 16 + operand * 256) }

/-- A page piece of a range that a slot accesses: virtual address, length, translation. -/
structure Span where
  va : Nat
  len : Nat
  x : Xlat
  deriving DecidableEq, Repr

/-- Translate every page of a range for a slot: local DRAM only (R375). The failure is a trap code and an address. -/
def State.seqSpans (s : State) (ctx va n acc : Nat) : State × Except (Nat × Nat) (List Span) :=
  let first := min n (0x10000 - va % 0x10000)
  let pieces := [(va, first)] ++ (if first < n then [((va + first) % 2 ^ 64, n - first)] else [])
  pieces.foldl (fun (r : State × Except (Nat × Nat) (List Span)) e =>
    match r.2 with
    | .error f => (r.1, .error f)
    | .ok xs =>
      match r.1.translate ctx e.1 acc with
      | (s1, .error f) => (s1, .error (f.code, e.1))
      | (s1, .ok x) =>
        if s1.isRemote x.pa || decide (region (localOf x.pa) ≠ .dram) then (s1, .error (0x12, e.1))
        else (s1, .ok (xs ++ [⟨e.1, e.2, x⟩]))) (s, .ok [])

/-- Elements up to the next granule of 64 bytes. -/
def granuleRoom (a : Nat) : Nat := (64 - a % 64) / 4

/-- Read elements in order, granule by granule, until an access table refuses one: the elements with their poison, and the
address of the refusal. -/
def State.seqGet (p ctx : Nat) (sp : Span) : Nat → State → Nat → State × List (W32 × Bool) × Option Nat
  | 0, s, _ => (s, [], none)
  | n + 1, s, off =>
    if sp.len ≤ off then (s, [], none) else
    let a := localOf sp.x.pa + off
    let k := min (granuleRoom a) ((sp.len - off) / 4)
    let uc := s.isUc sp.x
    let r := s.admitOne (masterId 2 ctx) 1 (a / 64 * 64) uc
    if !r.2 then (r.1, [], some (sp.va + off)) else
    let bs := r.1.looks uc a (4 * k)
    let q := State.seqGet p ctx sp n (r.1.noteAccesses false 2 ctx (some (0x80 + p)) ((List.range (4 * k)).map (a + ·)))
      (off + 4 * k)
    (q.1, (words4 bs.1).map (fun w => (w, bs.2)) ++ q.2.1, q.2.2)

/-- Write elements in order, granule by granule, until an access table refuses one. -/
def State.seqPut (p ctx : Nat) (sp : Span) : Nat → State → Nat → List (W32 × Bool) → State × Option Nat
  | 0, s, _, _ => (s, none)
  | _, s, _, [] => (s, none)
  | n + 1, s, off, e :: es =>
    let a := localOf sp.x.pa + off
    let k := granuleRoom a
    let uc := s.isUc sp.x
    let r := s.admitOne (masterId 2 ctx) 2 (a / 64 * 64) uc
    if !r.2 then (r.1, some (sp.va + off)) else
    let now := (e :: es).take k
    let bytes := (bytesOfWords (now.map (·.1))).zipIdx.map (fun b => (a + b.2, b.1))
    let bad := now.zipIdx.filterMap (fun b => if b.1.2 then some (a + 4 * b.2) else none)
    State.seqPut p ctx sp n ((r.1.poke uc (sp.x.cpol = 1) bytes bad).noteAccesses true 2 ctx (some (0x80 + p))
      (bytes.map (·.1))) (off + 4 * k) ((e :: es).drop k)

/-- Read every span. -/
def State.seqRead (s : State) (p ctx : Nat) (ps : List Span) : State × List (W32 × Bool) × Option Nat :=
  ps.foldl (fun (r : State × List (W32 × Bool) × Option Nat) sp =>
    if r.2.2.isSome then r else
    let q := State.seqGet p ctx sp (sp.len / 4 + 1) r.1 0
    (q.1, r.2.1 ++ q.2.1, q.2.2)) (s, [], none)

/-- Write every span. -/
def State.seqWrite (s : State) (p ctx : Nat) (ps : List Span) (es : List (W32 × Bool)) : State × Option Nat :=
  (ps.foldl (fun (r : State × List (W32 × Bool) × Option Nat) sp =>
    if r.2.2.isSome then r else
    let k := sp.len / 4
    let q := State.seqPut p ctx sp (k + 1) r.1 0 (r.2.1.take k)
    (q.1, r.2.1.drop k, q.2)) (s, es, none)) |> fun r => (r.1, r.2.2)

/-- What becomes of the write of a completion record. -/
inductive DoneWrite where
  | wrote (s : State)
  /-- The writing slot is in FAULT. -/
  | waits (s : State)
  /-- The write is abandoned with a trap code. -/
  | lost (s : State) (code : Nat)

/-- Write the completion record as the slot of port `p` (R393). OPERAND of a fault record for it the manual does not state
(log 3). -/
def State.writeDone (s : State) (l : LaunchPacket) (p : Nat) (w : Word) : DoneWrite :=
  let a := (l.words.getD 10 0).toNat
  let bad (s : State) (code addr : Nat) : State :=
    let d := s.draw
    d.2.slotRecord p l.slot code 0 (d.1.toNat % 3) addr 2
  match s.seqSpans (s.slotOwner p l.slot) a 8 2 with
  | (s1, .error (code, addr)) =>
    if code = 0x10 ∨ code = 0x11 then
      .waits ((bad s1 code addr).modSlot p l.slot (fun t => { t with state := .fault, doneFault := true }))
    else .lost (bad s1 code addr) code
  | (s1, .ok ps) =>
    match s1.seqWrite p (s.slotOwner p l.slot) ps [(w.setWidth 32, false), (w.extractLsb' 32 32, false)] with
    | (s2, some addr) => .lost (bad s2 0x15 addr) 0x15
    | (s2, none) => .wrote s2

/-- The slots return to FREE and the LLAUNCH handle held here resolves (R392 steps 3 and 4); the progress behind a trap code is that of
the slot whose code it is (R24). -/
def State.freeSlots (s : State) (l : LaunchPacket) (status xft : Nat) : State :=
  let p := (l.ports.find? (fun p => (s.slot p l.slot).endCode ≠ 0)).getD (l.ports.headD 0)
  let count := (s.slot p l.slot).chunk.toNat
  let s1 := l.ports.foldl (fun (s : State) p => s.modSlot p l.slot (fun t =>
    { t with state := .free, current := none, builtin := 0, gotNo := 0, doneFault := false, aborting := false
             endCode := 0, plain := 0 })) s
  match l.future with
  | some r => s1.resolve r (statusWord status 5 (resultOf status xft count))
  | none => s1

/-- OR of the XF of a collective's slots. -/
def State.xft (s : State) (l : LaunchPacket) : Nat := (l.ports.foldl (fun (x : W32) p => x ||| (s.slot p l.slot).xf) 0).toNat

/-- STATUS of a collective: the code of the lowest port whose slot ended in ERROR. -/
def State.collStatus (s : State) (l : LaunchPacket) : Nat :=
  ((l.ports.map (fun p => (s.slot p l.slot).endCode)).find? (· ≠ 0)).getD 0

/-- The ports whose slot ended in ERROR, as a mask. -/
def State.collFailed (s : State) (l : LaunchPacket) : Nat :=
  (l.ports.map (fun p => if (s.slot p l.slot).endCode ≠ 0 then 2 ^ p else 0)).sum

/-- A slot has ended: when every slot of its collective here has, local completion is reached (R392). -/
def State.slotEnded (s : State) (p i : Nat) : State :=
  match (s.slot p i).current with
  | none => s
  | some l =>
    if !(s.started l && l.ports.all (fun q => (s.slot q l.slot).ended)) then s else
    let status := s.collStatus l
    let xft := s.xft l
    if !l.doneEn then s.freeSlots l status xft else
    let w := BitVec.ofNat 64 (status + 256 + s.collFailed l * 2 ^ 16 + xft * 2 ^ 32)
    match s.writeDone l (l.ports.headD 0) w with
    | .wrote s1 => s1.freeSlots l status xft
    | .waits s1 => s1
    | .lost s1 code => s1.freeSlots l code xft

/-! ## Faults (R387) -/

/-- A slot goes to ERROR: its staged chunks are discarded and its collective ends here. -/
def State.slotError (s : State) (p i code : Nat) : State :=
  let s1 := (s.slot p i).staged.foldl (fun (s : State) c => s.freeChunk p i c.source) s
  (s1.modSlot p i (fun t => { t with
    state := .error, endCode := code, sending := none, sent := [], peerSent := [], aborting := false })).slotEnded p i

/-- A sequencer trap: cause for SEQ_ILLEGAL, operand, address and access kind. -/
structure SeqTrap where
  code : Nat
  cause : Nat := 0
  operand : Nat := 0
  addr : Nat := 0
  access : Nat := 0
  deriving DecidableEq, Repr

/-- TAKE A SEQUENCER TRAP (R387, R388): the record is written; a page fault leaves the slot in FAULT at its instruction, any
other puts it in ERROR. FZ_UNREACH counts UNREACHABLE (R364). The instruction is over: in single-step mode the sequencer stops
(R389). -/
def State.seqTrap (s : State) (p i : Nat) (t : SeqTrap) : State :=
  let s0 := if t.code = 0x18 then s.incReg (offPort p + 0x98) else s
  let s1 := s0.slotRecord p i t.code t.cause t.operand t.addr t.access
  (if t.code = 0x10 ∨ t.code = 0x11 then s1.modSlot p i (fun u => { u with state := .fault, plain := 0 })
    else s1.slotError p i t.code).seqStep p

/-- SEQ_ILLEGAL with a CAUSE of R378. -/
def State.seqIllegal (s : State) (p i cause : Nat) : State := s.seqTrap p i { code := 0x28, cause := cause }

/-! ## Chunk instructions (R379 to R383) -/

/-- What a chunk instruction does: the range it reads and the one it writes, the source it receives from, the destination
it sends to, its length, and how it combines or scales; `route` is what an all-to-all chunk is sent with, and `passes` marks
one that was received in an all-to-all (R394). -/
structure ChunkForm where
  len : Nat
  read : Option Nat := none
  write : Option Nat := none
  recv : Option Nat := none
  send : Option Nat := none
  cop : Option Nat := none
  scale : Option Bool := none
  route : Option (Nat × Nat × Nat) := none
  passes : Bool := false
  deriving DecidableEq, Repr

/-- The chunk that the form would consume. -/
def Slot.chunkFrom (t : Slot) (src : Nat) : Option Chunk := t.staged.find? (fun c => c.source = src)

/-- A credit is free at a destination (R379). -/
def Slot.creditFree (t : Slot) (dst : Nat) : Bool := sget 0 t.credits dst < 2

/-- The staged chunk that a word would consume is of another length than the word's (R378 CAUSE 5). -/
def Slot.wrongLen (t : Slot) (src len : Nat) : Bool := (t.chunkFrom src).any (fun ch => decide (4 * ch.elems.length ≠ len))

/-- The form need not wait (R382 step 2). -/
def Slot.canMove (t : Slot) (c : ChunkForm) : Bool :=
  (c.recv.elim true (fun r => (t.chunkFrom r).isSome)) && (c.send.elim true t.creditFree)

/-- The next instruction or move after one that has completed. -/
def Slot.advance (t : Slot) (passes : Bool) : Slot :=
  if t.builtin = 0 then { t with pc := t.pc + 1 }
  else if passes then { t with gotNo := t.gotNo + 1 }
  else { t with builtin := t.builtin + 1 }

/-- A chunk instruction completes: the staging buffer it consumed is freed, CHUNK counts it, and the slot's turn ends. -/
def State.chunkDone (s : State) (p i : Nat) (consumed : Option Nat) (passes : Bool) : State :=
  let s1 := match consumed with
    | some src => s.freeChunk p i src
    | none => s
  let s2 := s1.modSlot p i (fun t =>
    { t.advance passes with chunk := t.chunk + 1, state := .ready, plain := 0, sending := none })
  (if (s.slot p i).aborting then s2.slotError p i 0x80 else s2).seqStep p

/-- SCALE of one element: the element and the bits it sets in XF (R383). -/
def scaleEl (dec : Bool) (e xf x : W32) : W32 × W32 :=
  if dec then (BitVec.ofNat 32 (idqsRes .rne false e.toInt xf.toNat x.toNat).1, 0)
  else
    let r := iqsRes e.toInt (fp32.decode false x.toNat)
    (BitVec.ofNat 32 r.1, (if r.2.2.1 then 1 else 0) ||| (if r.2.2.2 then 2 else 0))

/-- The elements that a chunk instruction produces from the staged and the local elements, and what it adds to XF. -/
def ChunkForm.result (c : ChunkForm) (t : Slot) (free : W32) (staged near : List (W32 × Bool)) : List (W32 × Bool) × W32 :=
  match c.cop, c.scale with
  | some k, _ =>
    let r := combineAll k (fun _ => free) (staged.map (·.1)) (near.map (·.1))
    (r.1.zip ((staged.zip near).map (fun e => e.1.2 || e.2.2)), if r.2 then 2 else 0)
  | none, some dec =>
    let rs := near.map (fun e => (scaleEl dec t.e t.xf e.1, e.2))
    (rs.map (fun e => (e.1.1, e.2)), rs.foldl (fun x e => x ||| e.1.2) 0)
  | none, none => (if c.recv.isSome then staged else near, 0)

/-- The elements of a staged chunk with their poison, as its staging buffer holds them (R379; log 36). -/
def State.chunkCells (s : State) (c : Chunk) : List (W32 × Bool) :=
  (List.range c.elems.length).map (fun i =>
    let r := s.peeks false (c.buffer + 4 * i) 4
    (BitVec.ofNat 32 (natOfBytes r.1), r.2 || c.poison.contains i))

/-- Send a chunk. The slot stays the one that runs until DST has staged it: a sequencer never changes slot within a chunk
instruction (R376). -/
def State.sendChunk (s : State) (p i dst : Nat) (c : ChunkForm) (es : List (W32 × Bool)) : State :=
  let t := s.slot p i
  let ch : Chunk := {
    source := s.pkgid, owner := s.slotOwner p i, elems := es.map (·.1), xf := t.xf
    poison := es.zipIdx.filterMap (fun e => if e.1.2 then some e.2 else none), route := c.route }
  s.modSlot p i (fun t => { t with
    plain := 0, sent := t.sent ++ [(dst, ch)]
    credits := sput 0 t.credits dst (sget 0 t.credits dst + 1)
    sending := some { dst := dst, peer := false, consumes := c.recv, since := s.ns, passes := c.passes } })

/-- Step 4 of R382, over ranges that are translated. -/
def State.chunkPerform (s : State) (p i : Nat) (c : ChunkForm) (rs ws : List Span) : State :=
  let t := s.slot p i
  let ctx := s.slotOwner p i
  let ch := c.recv.bind t.chunkFrom
  match s.seqRead p ctx rs with
  | (s1, _, some a) => s1.seqTrap p i { code := 0x15, addr := a, access := 1 }
  | (s1, near, none) =>
    let d := s1.draw
    let r := c.result t (d.1.setWidth 32) ((ch.map s.chunkCells).getD []) near
    let s2 := d.2.modSlot p i (fun t => { t with xf := t.xf ||| (ch.map (·.xf)).getD 0 ||| r.2 })
    match s2.seqWrite p ctx ws r.1 with
    | (s3, some a) => s3.seqTrap p i { code := 0x15, operand := 1, addr := a, access := 2 }
    | (s3, none) =>
      match c.send with
      | some dst => s3.sendChunk p i dst c r.1
      | none => s3.chunkDone p i c.recv c.passes

/-- The spans of a range that a chunk word may have. -/
def State.chunkSpans (s : State) (ctx len : Nat) (a : Option Nat) (acc : Nat) : State × Except (Nat × Nat) (List Span) :=
  match a with
  | some va => s.seqSpans ctx va len acc
  | none => (s, .ok [])

/-- The reduction unit of the leaf switch, as the source and destination of a tree's chunks: no package has this number. -/
def treeUnit : Nat := 4096

/-- R382 from the check of DST in step 1 on. -/
def State.chunkStep (s : State) (p i : Nat) (c : ChunkForm) : State :=
  let t := s.slot p i
  match c.send.filter (fun d => decide (s.maxpkg < d ∧ d ≠ treeUnit)) with
  | some d => s.seqTrap p i { code := 0x18, operand := 2, addr := d }
  | none =>
  if c.recv.any (fun src => t.wrongLen src c.len) then s.seqIllegal p i 5
  else if !t.canMove c then s.modSlot p i (fun t => { t with state := .wait, plain := 0 })
  else
    match s.chunkSpans (s.slotOwner p i) c.len c.read 1 with
    | (s1, .error e) => s1.seqTrap p i { code := e.1, addr := e.2, access := 1 }
    | (s1, .ok rs) =>
      match s1.chunkSpans (s.slotOwner p i) c.len c.write 2 with
      | (s2, .error e) => s2.seqTrap p i { code := e.1, operand := 1, addr := e.2, access := 2 }
      | (s2, .ok ws) => s2.chunkPerform p i c rs ws

end Sys2Proof.Machine
end

