-- ==== Sys2Proof/Machine/Sequencer.lean ====
section
/-! DEFINITION. The Lintel sequencers at work: the words (R377, R378, R382 to R386), the built-in algorithms (R394, R395), turns
(R376), what arrives at a port (R379, R385, R392), and firmware's writes (R387, R389, R401). -/

namespace Sys2Proof.Machine

open Sys2Proof

/-! ## Flags (R374, R385) -/

def Slot.flag (t : Slot) (f : Nat) : W32 := sget 0 t.flags f

/-- F has reached a target, counted modulo 2^32. -/
def reached (f target : W32) : Bool := decide ((f - target).toNat < 2 ^ 31)

/-- The peer word's SRC and DST (R377). -/
def peerSrc (w : Word) : Nat := bits w.toNat 0 12
def peerDst (w : Word) : Nat := bits w.toNat 16 12

/-! ## Illegal words (R378) -/

/-- Which fields a form uses: CA, CB, CC, FI, IMM and the bits of MOD. -/
structure SeqUses where
  ca : Bool := false
  cb : Bool := false
  cc : Bool := false
  fi : Bool := false
  imm : Bool := false
  md : BitVec 8 := 0
  deriving DecidableEq, Repr

/-- CAUSE 1: a field or MOD bit that the form does not use is not zero. -/
def SeqUses.bad (u : SeqUses) (q : SeqWord) : Bool :=
  (!u.ca && q.ca ≠ 0) || (!u.cb && q.cb ≠ 0) || (!u.cc && q.cc ≠ 0) || (!u.fi && q.fi ≠ 0) || (!u.imm && q.imm ≠ 0)
    || q.md &&& ~~~ u.md ≠ 0

/-- LEN. -/
def seqLen (q : SeqWord) : Nat := bits q.imm.toNat 0 17

/-- CAUSE 3: LEN outside its limits. -/
def seqBadLen (q : SeqWord) : Bool :=
  q.imm.toNat ≥ 2 ^ 17 || seqLen q < 4 || seqLen q > 65536 || seqLen q % 4 ≠ 0

/-- COP and ST. -/
def seqCop (q : SeqWord) : Nat := bits q.md.toNat 0 4
def seqSt (q : SeqWord) : Bool := q.md.getLsbD 4

/-- CAUSE 2: a reserved COP, or one other than 0 under DTYPE `.iqs`. -/
def seqBadCop (q : SeqWord) (t : Slot) : Bool := seqCop q ≥ 7 || (t.iqs && seqCop q ≠ 0)

/-- CAUSE 7: two ranges overlap without being equal. -/
def overlap (a b n : Nat) : Bool := a ≠ b && a < b + n && b < a + n

/-- The first of CAUSEs 1 to 4, 6 and 7 that a chunk form meets. -/
def chunkCause (u : SeqUses) (q : SeqWord) (t : Slot) (combines : Bool) (c : ChunkForm) : Option Nat :=
  if u.bad q then some 1
  else if combines && seqBadCop q t then some 2
  else if seqBadLen q then some 3
  else if t.pc + 1 > 511 then some 4
  else if (c.read.elim false (fun a => a % 4 ≠ 0)) || (c.write.elim false (fun a => a % 4 ≠ 0)) then some 6
  else match c.read, c.write with
    | some a, some b => if overlap a b c.len then some 7 else none
    | _, _ => none

/-! ## Issuing -/

/-- The meaning of a sequencer word: a next state whenever `focus` names the slot that runs. -/
def seqIssue (s : State) (body : State → Nat → Nat → Slot → State) : Host.Outcome State Fault Refusal :=
  let p := s.focus.port
  let i := s.focus.slot
  let t := s.slot p i
  if t.state = .run ∧ t.current.isSome ∧ t.sending.isNone then .next (body s p i t) else .fault .noSlot

/-- An instruction that is not a chunk instruction completes: after 64 in a row the turn ends (R376). -/
def State.plainDone (s : State) (p i : Nat) (f : Slot → Slot) : State :=
  (s.modSlot p i (fun t =>
    let u := f t
    if t.plain + 1 < 64 then { u with plain := t.plain + 1 } else { u with plain := 0, state := .ready })).seqStep p

/-- A word that goes on to the instruction at `next`, when that lies in 0 to 511 (CAUSE 4). -/
def State.plainWord (s : State) (p i : Nat) (u : SeqUses) (q : SeqWord) (next : Int) (f : Slot → Slot) : State :=
  if u.bad q then s.seqIllegal p i 1
  else if next < 0 ∨ next > 511 then s.seqIllegal p i 4
  else s.plainDone p i (fun t => { f t with pc := next.toNat })

/-- Next instruction in order. -/
def Slot.seqNext (t : Slot) : Int := (t.pc : Int) + 1

/-- Target of a branch. -/
def Slot.seqTarget (t : Slot) (q : SeqWord) : Int := (t.pc : Int) + q.imm.toInt

/-- The instruction after a branch. A target outside 0 to 511 is illegal whether or not the branch is taken (R378 CAUSE 4,
R384), so it is the answer then too. -/
def Slot.branchNext (t : Slot) (q : SeqWord) (taken : Bool) : Int :=
  let g := t.seqTarget q
  if taken || decide (g < 0 ∨ g > 511) then g else t.seqNext

/-- A chunk word: the illegal words of step 1 of R382, then the rest. -/
def State.chunkWord (s : State) (p i : Nat) (t : Slot) (u : SeqUses) (q : SeqWord) (combines : Bool) (c : ChunkForm) : State :=
  match chunkCause u q t combines c with
  | some k => s.seqIllegal p i k
  | none => s.chunkStep p i c

/-! ## Chunk words (R382, R383) -/

/-- R382 XMIT. -/
def execXmit (q : SeqWord) (s : State) : Host.Outcome State Fault Refusal :=
  seqIssue s (fun s p i t => s.chunkWord p i t { ca := true, cb := true, imm := true } q false
    { len := seqLen q, read := some (t.c q.ca).toNat, send := some (peerDst (t.c q.cb)) })

/-- R382 RCVST. -/
def execRcvst (q : SeqWord) (s : State) : Host.Outcome State Fault Refusal :=
  seqIssue s (fun s p i t => s.chunkWord p i t { cb := true, cc := true, imm := true } q false
    { len := seqLen q, recv := some (peerSrc (t.c q.cb)), write := some (t.c q.cc).toNat })

/-- R382 RCVCMB. -/
def execRcvcmb (q : SeqWord) (s : State) : Host.Outcome State Fault Refusal :=
  seqIssue s (fun s p i t => s.chunkWord p i t { ca := true, cb := true, cc := true, imm := true, md := 0x0F } q true
    { len := seqLen q, recv := some (peerSrc (t.c q.cb)), read := some (t.c q.ca).toNat, write := some (t.c q.cc).toNat
      cop := some (seqCop q) })

/-- R382 RCVCF. -/
def execRcvcf (q : SeqWord) (s : State) : Host.Outcome State Fault Refusal :=
  seqIssue s (fun s p i t => s.chunkWord p i t { ca := true, cb := true, cc := seqSt q, imm := true, md := 0x1F } q true
    { len := seqLen q, recv := some (peerSrc (t.c q.cb)), read := some (t.c q.ca).toNat
      write := if seqSt q then some (t.c q.cc).toNat else none, send := some (peerDst (t.c q.cb)), cop := some (seqCop q) })

/-- R382 RCVFW. -/
def execRcvfw (q : SeqWord) (s : State) : Host.Outcome State Fault Refusal :=
  seqIssue s (fun s p i t => s.chunkWord p i t { cb := true, cc := seqSt q, imm := true, md := 0x10 } q false
    { len := seqLen q, recv := some (peerSrc (t.c q.cb)), write := if seqSt q then some (t.c q.cc).toNat else none
      send := some (peerDst (t.c q.cb)) })

/-- SCALE of R383. -/
def State.scaleWord (s : State) (p i : Nat) (t : Slot) (q : SeqWord) (dec : Bool) : State :=
  s.chunkWord p i t { ca := true, cc := true, imm := true, md := 1 } q false
    { len := seqLen q, read := some (t.c q.ca).toNat, write := some (t.c q.cc).toNat, scale := some dec }

/-- R383 SCALE, DEC 0. -/
def execScaleEnc (q : SeqWord) (s : State) : Host.Outcome State Fault Refusal :=
  seqIssue s (fun s p i t => s.scaleWord p i t q false)

/-- R383 SCALE, DEC 1. -/
def execScaleDec (q : SeqWord) (s : State) : Host.Outcome State Fault Refusal :=
  seqIssue s (fun s p i t => s.scaleWord p i t q true)

/-! ## Register, branch and flag words (R384 to R386) -/

/-- R384 NOP. -/
def execSeqNop (q : SeqWord) (s : State) : Host.Outcome State Fault Refusal :=
  seqIssue s (fun s p i t => s.plainWord p i {} q t.seqNext id)

/-- R384 MOVI. -/
def execMovi (q : SeqWord) (s : State) : Host.Outcome State Fault Refusal :=
  seqIssue s (fun s p i t => s.plainWord p i { ca := true, imm := true, md := 1 } q t.seqNext (fun u =>
    u.setC q.ca (if q.md.getLsbD 0 then q.imm ++ (u.c q.ca).setWidth 32 else q.imm.signExtend 64)))

/-- R384 ADDI. -/
def addiValue (wrap : Bool) (b c : Word) (imm : W32) : Word :=
  let t := b + imm.signExtend 64
  if !wrap then t
  else if t.toInt < 0 then t + c
  else if t.toInt ≥ c.toInt then t - c
  else t

/-- R384 ADDI. -/
def execAddi (q : SeqWord) (s : State) : Host.Outcome State Fault Refusal :=
  let wrap := q.md.getLsbD 0
  seqIssue s (fun s p i t => s.plainWord p i { ca := true, cb := true, cc := wrap, imm := true, md := 1 } q t.seqNext
    (fun u => u.setC q.ca (addiValue wrap (u.c q.cb) (u.c q.cc) q.imm)))

/-- R384 ADD. -/
def execSeqAdd (q : SeqWord) (s : State) : Host.Outcome State Fault Refusal :=
  seqIssue s (fun s p i t => s.plainWord p i { ca := true, cb := true, cc := true, md := 1 } q t.seqNext (fun u =>
    u.setC q.ca (if q.md.getLsbD 0 then u.c q.cb - u.c q.cc else u.c q.cb + u.c q.cc)))

/-- R384 LOOP. -/
def execSeqLoop (q : SeqWord) (s : State) : Host.Outcome State Fault Refusal :=
  seqIssue s (fun s p i t =>
    let v := t.c q.ca - 1
    s.plainWord p i { ca := true, imm := true } q (t.branchNext q (v ≠ 0)) (fun u => u.setC q.ca v))

/-- R384 BNZ. -/
def execBnz (q : SeqWord) (s : State) : Host.Outcome State Fault Refusal :=
  seqIssue s (fun s p i t =>
    let taken := decide (t.c q.ca ≠ 0) != q.md.getLsbD 0
    s.plainWord p i { ca := true, imm := true, md := 1 } q (t.branchNext q taken) id)

/-- R385 WAITF. -/
def execWaitf (q : SeqWord) (s : State) : Host.Outcome State Fault Refusal :=
  seqIssue s (fun s p i t =>
    let u : SeqUses := { fi := true, imm := true }
    if u.bad q ∨ t.pc + 1 > 511 ∨ reached (t.flag q.fi.toNat) q.imm then s.plainWord p i u q t.seqNext id
    else s.modSlot p i (fun t => { t with state := .wait, plain := 0 }))

/-- F[f] with an amount added, or set to it. -/
def flagValue (old : W32) (set : Bool) (v : W32) : W32 := if set then v else old + v

/-- Change a flag of a slot: the groups of its owner that wait try their words again (R399). -/
def State.setFlag (s : State) (p i f : Nat) (set : Bool) (v : W32) : State :=
  (s.modSlot p i (fun t => { t with flags := sput 0 t.flags f (flagValue (t.flag f) set v) })).wakeContext (s.slotOwner p i)

/-- R385 SIGF. -/
def execSigf (q : SeqWord) (s : State) : Host.Outcome State Fault Refusal :=
  seqIssue s (fun s p i t =>
    let u : SeqUses := { fi := true, imm := true, md := 1 }
    let ok := !u.bad q && decide (t.pc + 1 ≤ 511)
    (if ok then s.setFlag p i q.fi.toNat (q.md.getLsbD 0) q.imm else s).plainWord p i u q t.seqNext id)

/-- R385 SIGF with PEER: the update leaves for DST, and the word completes when DST has applied it. -/
def execSigfPeer (q : SeqWord) (s : State) : Host.Outcome State Fault Refusal :=
  seqIssue s (fun s p i t =>
    let u : SeqUses := { cb := true, fi := true, imm := true, md := 3 }
    let d := peerDst (t.c q.cb)
    if u.bad q then s.seqIllegal p i 1
    else if t.pc + 1 > 511 then s.seqIllegal p i 4
    else if d > s.maxpkg then s.seqTrap p i { code := 0x18, operand := 2, addr := d }
    else s.modSlot p i (fun t => { t with
      peerSent := t.peerSent ++ [(d, q.fi.toNat, q.md.getLsbD 0, q.imm)]
      sending := some { dst := d, peer := true, since := s.ns } }))

/-- R386 YIELD. -/
def execSeqYield (q : SeqWord) (s : State) : Host.Outcome State Fault Refusal :=
  seqIssue s (fun s p i t => s.plainWord p i {} q t.seqNext (fun u => { u with state := .ready, plain := 0 }))

/-- R386 HALT: PC advances as after every other instruction (R384), and past 511 too (log 37). -/
def execSeqHalt (q : SeqWord) (s : State) : Host.Outcome State Fault Refusal :=
  seqIssue s (fun s p i _ =>
    let u : SeqUses := {}
    if u.bad q then s.seqIllegal p i 1
    else ((s.modSlot p i (fun t => { t with state := .halted, plain := 0, pc := t.pc + 1 })).slotEnded p i).seqStep p)

/-! ## Built-in algorithms (R394, R395) -/

/-- A move of a built-in algorithm. -/
inductive Move where
  /-- Wait until F[GFLAG] has reached GVALUE. -/
  | gate
  | chunk (c : ChunkForm)
  /-- An empty chunk, which every rank skips. -/
  | skip
  /-- The program ends. -/
  | stop
  deriving DecidableEq, Repr

/-- Elements of the largest chunk. -/
def chunkMax : Nat := 16384

/-- ⌈a / b⌉. -/
def ceilDiv (a b : Nat) : Nat := (a + b - 1) / b

/-- The stripe of a port: its first element and their number. -/
def LaunchPacket.stripe (l : LaunchPacket) (port : Nat) : Nat × Nat :=
  let j := (l.ports.findIdx? (· = port)).getD 0
  let q := ceilDiv l.count l.ports.length
  (min (j * q) l.count, min ((j + 1) * q) l.count - min (j * q) l.count)

/-- Send and receive buffer. With `.iqs` the moves run in place in the receive buffer. -/
def LaunchPacket.recvAt (l : LaunchPacket) : Nat := (l.words.getD 3 0).toNat
def LaunchPacket.sendAt (l : LaunchPacket) : Nat := if l.dtype = 1 then l.recvAt else (l.words.getD 2 0).toNat

/-- Chunk moves over one chunk of elements, named by what they do (R382). -/
structure RingMove where
  chunk : Nat
  recv : Bool := false
  send : Bool := false
  local_ : Bool := false
  store : Bool := false
  deriving DecidableEq, Repr

/-- The number of moves of a ring of `n` ranks in one round. -/
def ringMoves (op n : Nat) : Nat :=
  if n ≤ 1 then (if op ≤ 2 then 1 else 0)
  else match op with
    | 0 => 2 * n - 1
    | 1 => n
    | 2 => n + 1
    | _ => 0

/-- Move `k` of a round of a ring. -/
def ringMove (op n r k : Nat) : RingMove :=
  let ch (d : Nat) : Nat := (r + n * n - d) % n
  if n ≤ 1 then { chunk := 0, local_ := true, store := true }
  else match op with
    | 2 =>
      if k = 0 then { chunk := r, local_ := true, store := true }
      else if k = 1 then { chunk := r, local_ := true, send := true }
      else if k < n then { chunk := ch (k - 1), recv := true, send := true, store := true }
      else { chunk := ch (n - 1), recv := true, store := true }
    | _ =>
      if k = 0 then { chunk := r, local_ := true, send := true }
      else if k ≤ n - 2 then { chunk := ch k, recv := true, local_ := true, send := true }
      else if k = n - 1 then { chunk := ch k, recv := true, local_ := true, send := op = 0, store := true }
      else if k < 2 * n - 2 then { chunk := ch (k - n), recv := true, send := true, store := true }
      else { chunk := ch (n - 2), recv := true, store := true }

/-- The move of a ring at place `k`, over all rounds of the stripe. -/
def LaunchPacket.ring (l : LaunchPacket) (port r k : Nat) : Move :=
  let n := l.ranks
  let per := ringMoves l.op n
  let st := l.stripe port
  let rounds := ceilDiv st.2 (n * chunkMax)
  if per = 0 ∨ k ≥ rounds * per then .stop else
  let g := k / per
  let m := ringMove l.op n r (k % per)
  let base := st.1 + g * (n * chunkMax)
  let size := min (n * chunkMax) (st.2 - g * (n * chunkMax))
  let len := ceilDiv size n
  let lo := m.chunk * len
  let cnt := min (lo + len) size - lo
  if cnt = 0 then .skip else
  .chunk {
    len := 4 * cnt
    read := if m.local_ then some (l.sendAt + 4 * (base + lo)) else none
    write := if m.store then some (l.recvAt + 4 * (base + lo)) else none
    recv := if m.recv then some (l.package ((r + n - 1) % n)) else none
    send := if m.send then some (l.package ((r + 1) % n)) else none
    cop := if m.recv && m.local_ then some l.cop else none }

/-- The move of a tree at place `k`: each chunk goes to the reduction unit, and its result comes back (R394). -/
def LaunchPacket.tree (l : LaunchPacket) (port k : Nat) : Move :=
  let st := l.stripe port
  let lo := k / 2 * chunkMax
  if lo ≥ st.2 then .stop else
  let cnt := min chunkMax (st.2 - lo)
  let a := 4 * (st.1 + lo)
  if k % 2 = 0 then .chunk { len := 4 * cnt, read := some (l.sendAt + a), send := some treeUnit }
  else .chunk { len := 4 * cnt, recv := some treeUnit, write := some (l.recvAt + a) }

/-- SCALE over the stripe at place `k`, encoding into the receive buffer or decoding it in place (R395). -/
def LaunchPacket.scaleMove (l : LaunchPacket) (port k : Nat) (dec : Bool) : Move :=
  let st := l.stripe port
  let lo := k * chunkMax
  let cnt := min chunkMax (st.2 - lo)
  let a := 4 * (st.1 + lo)
  .chunk { len := 4 * cnt, read := some ((if dec then l.recvAt else (l.words.getD 2 0).toNat) + a)
           write := some (l.recvAt + a), scale := some dec }

/-- Number of moves of a ring or a tree. -/
def LaunchPacket.moves (l : LaunchPacket) (port : Nat) : Nat :=
  let st := l.stripe port
  if l.algo = 2 then 2 * ceilDiv st.2 chunkMax else ceilDiv st.2 (l.ranks * chunkMax) * ringMoves l.op l.ranks

/-- The move of a ring or a tree at place `k`, encoding and decoding included. -/
def LaunchPacket.move (l : LaunchPacket) (port r k : Nat) : Move :=
  let inner (k : Nat) : Move := if l.algo = 2 then l.tree port k else l.ring port r k
  if l.dtype ≠ 1 then inner k else
  let e := ceilDiv (l.stripe port).2 chunkMax
  let m := l.moves port
  if k < e then l.scaleMove port k false
  else if k < e + m then inner (k - e)
  else if k < e + m + e then l.scaleMove port (k - e - m) true
  else .stop

/-! ### Rail all-to-all -/

/-- Elements of a block. -/
def LaunchPacket.block (l : LaunchPacket) : Nat := l.count / max 1 l.ranks

/-- The pieces of block `b` that a port's stripe holds: place in the block and length. -/
def LaunchPacket.blockPieces (l : LaunchPacket) (port b : Nat) : List (Nat × Nat) :=
  let st := l.stripe port
  let lo := max st.1 (b * l.block)
  let hi := min (st.1 + st.2) ((b + 1) * l.block)
  (List.range (ceilDiv (hi - lo) chunkMax)).map (fun k =>
    (lo - b * l.block + k * chunkMax, min chunkMax (hi - lo - k * chunkMax)))

/-- The package to which a chunk from package `p` for package `q` goes first. -/
def railHop (p q : Nat) : Nat := if p / 64 = q / 64 then q else 64 * (q / 64) + p % 64

/-- What rank `r` sends: destination rank, place in the block, length; its own block is copied. -/
def LaunchPacket.railSends (l : LaunchPacket) (port r : Nat) : List (Nat × Nat × Nat) :=
  ((List.range l.ranks).map (fun k => (r + k) % l.ranks)).flatMap (fun b =>
    (l.blockPieces port b).map (fun e => (b, e)))

/-- Chunks that rank `r` receives: those of its own block, and those that it passes on. -/
def LaunchPacket.railGets (l : LaunchPacket) (port r : Nat) : Nat :=
  let me := l.package r
  let own := (l.ranks - 1) * (l.blockPieces port r).length
  let passed := ((List.range l.ranks).filter (fun b => b ≠ r && l.package b / 64 = me / 64)).map (fun b =>
    (l.blockPieces port b).length
      * ((List.range l.ranks).filter (fun a => railHop (l.package a) (l.package b) = me
          && l.package a / 64 ≠ me / 64)).length)
  own + passed.sum

/-- The next moves that an all-to-all could make: chunks that are staged, then the next to send. -/
def LaunchPacket.railMoves (l : LaunchPacket) (port r k : Nat) (t : Slot) : List ChunkForm :=
  let gets := ((t.staged.map (·.source)).eraseDups).filterMap (fun src => (t.chunkFrom src).map (fun c =>
    let rt := c.route.getD (0, r, 0)
    let len := 4 * c.elems.length
    if rt.2.1 = r then
      ({ len := len, recv := some src, passes := true
         write := some (l.recvAt + 4 * (rt.1 * l.block + rt.2.2)) } : ChunkForm)
    else { len := len, recv := some src, send := some (l.package rt.2.1), route := some rt, passes := true }))
  let sends := ((l.railSends port r)[k]?).toList.map (fun e =>
    let at_ := 4 * (e.1 * l.block + e.2.1)
    if e.1 = r then
      ({ len := 4 * e.2.2, read := some (l.sendAt + at_), write := some (l.recvAt + at_) } : ChunkForm)
    else { len := 4 * e.2.2, read := some (l.sendAt + at_), send := some (railHop (l.package r) (l.package e.1))
           route := some (r, e.1, e.2.1) })
  gets ++ sends

/-- The next move of a slot that runs a built-in algorithm (R394). -/
def State.nextMove (s : State) (p i : Nat) : Move :=
  let t := s.slot p i
  match t.current with
  | none => .stop
  | some l =>
    let k := t.builtin - 2
    let r := l.rankOf s.pkgid
    if t.builtin ≤ 1 then .gate
    else if l.algo ≠ 3 then l.move p r k
    else
      let ms := l.railMoves p r k t
      match (ms.find? t.canMove).or ms.head? with
      | some c => .chunk c
      | none => if t.gotNo < l.railGets p r then .chunk { len := 4, recv := some treeUnit } else .stop

/-- The gate of a built-in algorithm is open. -/
def Slot.gateOpen (t : Slot) : Bool :=
  match t.current with
  | some l => reached (t.flag (l.f 12 0 6)) (BitVec.ofNat 32 (l.f 12 32 32))
  | none => false

/-- Run the next move of a built-in algorithm. -/
def State.runMove (s : State) (p i : Nat) : State :=
  match s.nextMove p i with
  | .gate =>
    if (s.slot p i).gateOpen then s.plainDone p i (fun t => { t with builtin := 2 })
    else s.modSlot p i (fun t => { t with state := .wait, plain := 0 })
  | .skip => s.plainDone p i (fun t => { t with builtin := t.builtin + 1 })
  | .chunk c => s.chunkStep p i c
  | .stop => ((s.modSlot p i (fun t => { t with state := .halted, plain := 0 })).slotEnded p i).seqStep p

/-! ## Turns (R376) -/

/-- The instruction word at a slot's PC. -/
def State.seqFetch (s : State) (p i : Nat) : Word := s.reg (offLn p + 0x4000 + 8 * (s.slot p i).pc)

/-- What a waiting slot waits for holds; a staged chunk of a wrong length ends the wait for a credit too (R382 step 2). -/
def State.waitHolds (s : State) (p i : Nat) : Bool :=
  let t := s.slot p i
  if t.sending.isSome then false
  else if t.builtin ≠ 0 then
    match s.nextMove p i with
    | .gate => t.gateOpen
    | .chunk c => t.canMove c || c.recv.any (fun src => t.wrongLen src c.len)
    | _ => true
  else match decodeSeqWord (s.seqFetch p i) with
    | .ok (.waitf q) => reached (t.flag q.fi.toNat) q.imm
    | .ok (.xmit q) => t.creditFree (peerDst (t.c q.cb))
    | .ok (.rcvst q) | .ok (.rcvcmb q) => (t.chunkFrom (peerSrc (t.c q.cb))).isSome
    | .ok (.rcvcf q) | .ok (.rcvfw q) =>
      ((t.chunkFrom (peerSrc (t.c q.cb))).isSome && t.creditFree (peerDst (t.c q.cb)))
        || t.wrongLen (peerSrc (t.c q.cb)) (seqLen q)
    | _ => true

/-- A waiting slot becomes READY when its wait condition holds. -/
def State.wakeSlot (s : State) (p i : Nat) : State :=
  if (s.slot p i).state = .wait ∧ s.waitHolds p i then s.modSlot p i (fun t => { t with state := .ready }) else s

/-- The sequencer of a port takes the next READY slot, when none runs. -/
def State.seqTurn (s : State) (p : Nat) : State :=
  let s1 := (List.range 8).foldl (fun (s : State) i => s.wakeSlot p i) s
  if (s1.running p).isSome || !s1.seqRuns p then s1 else
  match s1.nextReady p with
  | none => s1
  | some i =>
    let s2 := s1.modSlot p i (fun t => { t with state := .run, plain := 0 })
    { s2 with seqs := sput {} s2.seqs p { s2.sequencer p with last := i } }

/-- R376 SEQ_TURN. -/
def execSeqTurn (s : State) : Host.Outcome State Fault Refusal := .next (s.seqTurn s.focus.port)

/-- R389 LN_GO: a stopped sequencer runs one more instruction. -/
def execLnGo (s : State) : Host.Outcome State Fault Refusal :=
  let o := offLn s.focus.port + 0x18
  .next (s.setReg o (s.reg o &&& ~~~ (1 : Word)))

/-! ## Collectives start and end -/

/-- A slot starts its oldest queued collective (R391). The PC and CHUNK of a built-in program the manual does not state
(log 3). -/
def State.startCollective (s : State) (p i : Nat) : State :=
  match (s.slot p i).queue with
  | [] => s
  | l :: rest =>
    if (s.slot p i).state ≠ .free then s else
    let n := l.ranks
    let r := l.rankOf s.pkgid
    let peer := l.package ((r + n - 1) % n) + l.package ((r + 1) % n) * 2 ^ 16
    let regs : List Word := [BitVec.ofNat 64 r, BitVec.ofNat 64 n, l.words.getD 2 0, l.words.getD 3 0,
      BitVec.ofNat 64 l.count, BitVec.ofNat 64 peer, BitVec.ofNat 64 s.pkgid, BitVec.ofNat 64 p,
      l.words.getD 13 0, l.words.getD 14 0, l.words.getD 15 0]
    let d := s.draw
    let s1 := if l.algo = 0 then s else d.2
    s1.modSlot p i (fun t => { t with
      queue := rest, current := some l, state := .ready, xf := 0, chunk := 0, e := BitVec.ofNat 32 (l.f 11 0 32)
      pc := if l.algo = 0 then l.f 8 0 9 else d.1.toNat % 512
      creg := regs.zipIdx.foldl (fun m e => sput 0 m e.2 e.1) []
      builtin := if l.algo = 0 then 0 else 1, gotNo := 0, plain := 0, endCode := 0, aborting := false })

/-- R391 COLLECTIVE_START. -/
def execCollectiveStart (s : State) : Host.Outcome State Fault Refusal :=
  .next (s.startCollective s.focus.port s.focus.slot)

/-- R392 LAUNCH_PACKET_ARRIVE: a packet from another package, or the oldest that this package has multicast. -/
def execLaunchPacketArrive (s : State) : Host.Outcome State Fault Refusal :=
  match s.input with
  | .launch l => .next (s.launchArrive { l with future := none })
  | _ =>
    match s.launchSent with
    | l :: rest => .next (({ s with launchSent := rest } : State).launchArrive l)
    | [] => .next s

/-! ## Arrivals and confirmations (R379, R382, R385) -/

/-- DST has staged the chunk, or applied the update, that a slot waits for. -/
def State.sendLanded (s : State) (p i : Nat) : State :=
  match (s.slot p i).sending with
  | none => s
  | some d =>
    if d.peer then
      let s1 := s.plainDone p i (fun t => { t with sending := none, peerSent := t.peerSent.drop 1, pc := t.pc + 1 })
      if (s.slot p i).aborting then s1.slotError p i 0x80 else s1
    else (s.modSlot p i (fun t => { t with sent := t.sent.drop 1 })).chunkDone p i d.consumes d.passes

/-- DST discarded the chunk: the sender's instruction ends with ACCESS_DENIED. -/
def State.sendDenied (s : State) (p i : Nat) : State :=
  match (s.slot p i).sending with
  | none => s
  | some d =>
    (s.modSlot p i (fun t => { t with credits := sput 0 t.credits d.dst (sget 0 t.credits d.dst - 1) })).seqTrap p i
      { code := 0x15, operand := 2, addr := d.dst }

/-- R379, R382 CHUNK_CREDIT_RETURN. -/
def execChunkCreditReturn (s : State) : Host.Outcome State Fault Refusal :=
  let p := s.focus.port
  let i := s.focus.slot
  match s.input with
  | .credit .landed => .next ((s.sendLanded p i).wakeSlot p i)
  | .credit (.consumed dst) => .next ((s.modSlot p i (fun t =>
      { t with credits := sput 0 t.credits dst (sget 0 t.credits dst - 1) })).wakeSlot p i)
  | .credit .denied => .next (s.sendDenied p i)
  | _ => .next s

/-- Staging buffer `k` of a slot, in the area that LN_STAGE names (R379; log 36). -/
def State.stageBuffer (s : State) (p i k : Nat) : Nat := s.regBits (offLn p + 0x20) 22 18 * 2 ^ 22 + (8 * i + k) * 0x10000

/-- Stage a chunk that reaches a port in the lowest free staging buffer, unless its sender's owner is another (R379); none while
all eight are in use. -/
def State.stageChunk (s : State) (p i : Nat) (c : Chunk) : Option (State × Bool) :=
  if c.owner ≠ s.slotOwner p i then some (s, false)
  else
    match ((List.range 8).map (s.stageBuffer p i)).find? (fun a => (s.slot p i).staged.all (fun x => x.buffer ≠ a)) with
    | none => none
    | some a =>
      let s1 := s.poke false false ((bytesOfWords c.elems).zipIdx.map (fun e => (a + e.2, e.1))) []
      some ((s1.modSlot p i (fun t => { t with staged := t.staged ++ [{ c with buffer := a }] })).wakeSlot p i, true)

/-- R379 CHUNK_ARRIVE: a chunk from another package, or the chunk that the slot sends to its own package. -/
def execChunkArrive (s : State) : Host.Outcome State Fault Refusal :=
  let p := s.focus.port
  let i := s.focus.slot
  match s.input with
  | .chunk c =>
    match s.stageChunk p i c with
    | some (s1, ok) => .next (s1.tellSlot p i c.source (if ok then .landed else .denied))
    | none => .next s
  | _ =>
    match (s.slot p i).sent with
    | (d, c) :: _ =>
      if d ≠ s.pkgid then .next s else
      match s.stageChunk p i c with
      | some (s1, true) => .next ((s1.sendLanded p i).wakeSlot p i)
      | some (s1, false) => .next (s1.sendDenied p i)
      | none => .next s
    | [] => .next s

/-- R385 PEER_FLAG_UPDATE_ARRIVE: an update from another package, or the slot's own update of its own package. -/
def execPeerFlagUpdateArrive (s : State) : Host.Outcome State Fault Refusal :=
  let p := s.focus.port
  let i := s.focus.slot
  match s.input with
  | .flagUpdate src f set v => .next (((s.setFlag p i (f % 64) set v).wakeSlot p i).tellSlot p i src .landed)
  | _ =>
    match (s.slot p i).peerSent with
    | (d, f, set, v) :: _ => if d = s.pkgid then .next ((s.setFlag p i f set v).sendLanded p i) else .next s
    | [] => .next s

/-- R382, R385 SEQ_SEND_TIMEOUT: the chunk was not staged, and gives its credit back (log 36). -/
def execSeqSendTimeout (s : State) : Host.Outcome State Fault Refusal :=
  let p := s.focus.port
  let i := s.focus.slot
  match (s.slot p i).sending with
  | some d =>
    if s.ns < d.since + s.fzTimeout then .next s
    else
      let s1 := if d.peer then s else
        s.modSlot p i (fun t => { t with credits := sput 0 t.credits d.dst (sget 0 t.credits d.dst - 1) })
      .next (s1.seqTrap p i { code := 0x18, operand := 2, addr := d.dst })
  | none => .next s

/-! ## Firmware's writes (R387, R401) -/

/-- RESUME: a slot in FAULT executes its instruction again, or tries its completion record again. -/
def State.slotResume (s : State) (p i : Nat) : State :=
  let t := s.slot p i
  if t.state ≠ .fault then s
  else if t.doneFault then
    (s.modSlot p i (fun t => { t with doneFault := false, state := if t.endCode = 0 then .halted else .error })).slotEnded p i
  else s.modSlot p i (fun t => { t with state := .ready })

/-- ABORT: the slot goes to ERROR with status CANCELLED at the next instruction boundary; a completion record that faulted is
given up. -/
def State.slotAbort (s : State) (p i : Nat) : State :=
  let t := s.slot p i
  match t.current with
  | none => s
  | some l =>
    if t.doneFault then s.freeSlots l 0x80 (s.xft l)
    else if t.ended then s
    else if t.sending.isSome then s.modSlot p i (fun t => { t with aborting := true })
    else s.slotError p i 0x80

/-- R387 LN_SLOTCTL, RESUME. -/
def execLnSlotctlResume (s : State) : Host.Outcome State Fault Refusal := .next (s.slotResume s.focus.port s.focus.slot)

/-- R387 LN_SLOTCTL, ABORT. -/
def execLnSlotctlAbort (s : State) : Host.Outcome State Fault Refusal := .next (s.slotAbort s.focus.port s.focus.slot)

/-- A write of LN_SLOTCFG is taken only while the slot is FREE. -/
def State.writeSlotcfg (s : State) (p i : Nat) (w : Word) : State :=
  if (s.slot p i).state = .free then s.setReg (offLn p + 0x100 + 8 * i) (w &&& 0x7F) else s

/-- R401 LN_SLOTCFG_WRITE. -/
def execLnSlotcfgWrite (s : State) : Host.Outcome State Fault Refusal :=
  match s.input with
  | .word w => .next (s.writeSlotcfg s.focus.port s.focus.slot w)
  | _ => .next s

/-- The slot that runs on a port executes: the state, and the word it executes, if it is a user program's. -/
def State.seqEnter (s : State) (p : Nat) : State × Option Word :=
  let s1 := s.seqTurn p
  if !s1.seqRuns p then (s1, none) else
  match s1.running p with
  | none => (s1, none)
  | some i =>
    let t := s1.slot p i
    let s2 : State := { s1 with focus := { s1.focus with port := p, slot := i } }
    if t.sending.isSome then (s2, none)
    else if t.builtin ≠ 0 then (s2.runMove p i, none)
    else if t.pc > 511 then (s2.seqIllegal p i 4, none)
    else (s2, some (s2.seqFetch p i))

/-- A word with a reserved opcode (R378 CAUSE 0). -/
def State.seqReserved (s : State) : State := s.seqIllegal s.focus.port s.focus.slot 0

end Sys2Proof.Machine
end

