-- ==== Sys2Proof/Machine/LintelWords.lean ====
section
/-! DEFINITION. The SIMT words of the sequencers: LLAUNCH, LFLAG, LWAIT and LSTAT (R396 to R400). -/

namespace Sys2Proof.Machine

open Sys2Proof

/-! ## Records that a word reads from global memory -/

/-- What the read of a record of a SIMT word gives: its bytes, or how the word ends. -/
inductive RecordRead where
  | bytes (s : State) (bs : List Byte)
  | ends (e : Effect)

/-- Read a record of `n` bytes as a strong load of the issuing group (R397, R415): page faults are precise, a refusal by a
target is deferred, poison traps. While bytes of another package have not come the word waits. -/
def State.readRecord (s : State) (f : Full) (act : Lanes) (a n : Nat) : RecordRead :=
  let r := s.engineReadRun 0 s.ownCtx a n s.wordReader
  match r.fail with
  | some (e, _) =>
    if e.code = 0x15 ∨ e.code = 0x18 then
      .ends (.retire { s := r.s.report {
        code := e.code, core := s.focus.core, grid := s.ownTeam.gridSlot, group := s.focus.group
        pc := BitVec.ofNat 64 (pcAddr s.own.pathPc), address := e.pa, lanes := act, info := e.info, access := 1 } })
    else .ends (.trap { code := e.code, addr := BitVec.ofNat 64 a, info := e.info, access := 1 })
  | none =>
    if r.paused then .ends (.pause r.s)
    else if r.bytes.any (·.2) then .ends (.trap { code := 0x17, info := f.a.setWidth 32 })
    else .bytes r.s (r.bytes.map (·.1))

/-! ## LLAUNCH (R397) -/

/-- The packet that a word launches, with its future. -/
def State.packetOf (s : State) (ws : List Word) (h : Option Word) : LaunchPacket :=
  { context := s.ownCtx, issuer := s.pkgid, words := ws, future := h.map s.ownRef }

/-- Multicast a packet or stage it for its trigger. -/
def State.startLaunch (s : State) (l : LaunchPacket) : State :=
  if l.trigEn then
    let e : StagedLaunch := { packet := l, barrier := l.f 9 0 32, phase := bit (l.f 9 32 1) 0 }
    s.modOwnTeam (fun m => { m with lintelStaged := sins (l.f 9 33 2) e m.lintelStaged })
  else s.multicast l

/-- The shape of LLAUNCH (R397). -/
def llaunchShape (f : Full) : Shape :=
  let a := asyncA f
  { op := 0xD8, dst := some (asyncD f), srcs := [a], bad := [(0, f.fn ≠ 0)] }

/-- R397 LLAUNCH. -/
def execLlaunch (f : Full) (s : State) : Host.Outcome State Fault Refusal :=
  let a := asyncA f
  issue (llaunchShape f) f s (fun s act =>
    let base := (s.src f a).toNat
    if act ≠ 0 ∧ base % 64 ≠ 0 then .trap { code := 0x02, info := 2 } else
    match s.poisonTrap [a] act with
    | some t => .trap t
    | none =>
      s.released act true 8 (fun s1 =>
        match s1.readRecord f act base 128 with
        | .ends e => e
        | .bytes s2 bs =>
          let ws := words8 (words4 bs)
          let l := s2.packetOf ws none
          match l.fail s2.pkgid s2.maxpkg with
          | some e => .trap { code := 0x26, info := BitVec.ofNat 32 (e.1 + e.2 * 256) }
          | none =>
            if l.trigEn && (sfind (l.f 9 33 2) s2.ownTeam.lintelStaged).isSome then .wait s2 else
            match handleReg f with
            | none => .retire { s := s2.startLaunch l }
            | some r =>
              match s2.allocFuture 5 (some r) 8 with
              | none => .wait s2
              | some (h, s3) => .retire { s := s3.startLaunch (s3.packetOf ws (some h)) }))

/-! ## Flags (R398 to R400) -/

/-- PORTS, SLOT and FLAG of a selector (R396). -/
def selPorts (w : Word) : List Nat := (List.range 16).filter (bit w.toNat)
def selSlot (w : Word) : Nat := bits w.toNat 16 3
def selFlag (w : Word) : Nat := bits w.toNat 24 6

/-- A selected slot belongs to another context: deferred ACCESS_DENIED. -/
def State.denySlot (s : State) (act : Lanes) (acc : Nat) : State :=
  s.report { code := 0x15, core := s.focus.core, grid := s.ownTeam.gridSlot, group := s.focus.group
             pc := BitVec.ofNat 64 (pcAddr s.own.pathPc), address := 0, lanes := act, access := acc }

/-- Apply a flag change in one port. -/
def State.flagAt (i fl : Nat) (set : Bool) (v : W32) (s : State) (p : Nat) : State :=
  if s.slotOwner p i = s.ownCtx then (s.setFlag p i fl set v).wakeSlot p i else s

/-- LFLAG. -/
def lflagBody (f : Full) (set : Bool) (s : State) (act : Lanes) : Effect :=
  match s.poisonTrap [asyncA f, asyncB f] act with
  | some t => .trap t
  | none =>
    let sel := s.src f (asyncA f)
    let v := (s.src f (asyncB f)).setWidth 32
    let i := selSlot sel
    if selPorts sel = [] then .trap { code := 0x02, info := 2 } else
    s.released act true 8 (fun s1 =>
      let s2 := (selPorts sel).foldl (State.flagAt i (selFlag sel) set v) s1
      .retire { s := if (selPorts sel).any (fun p => s1.slotOwner p i ≠ s1.ownCtx) then s2.denySlot act 2 else s2 })

/-- Shape of LFLAG. -/
def lflagShape (f : Full) : Shape where
  op := 0xD9
  srcs := [asyncA f, asyncB f]
  bad := [(0, !fnOnly f 1)]
  scope := 8

/-- R398 LFLAG, SET 0. -/
def execLflagAdd (f : Full) (s : State) : Host.Outcome State Fault Refusal :=
  issue (lflagShape f) f s (lflagBody f false)

/-- R398 LFLAG, SET 1. -/
def execLflagSet (f : Full) (s : State) : Host.Outcome State Fault Refusal :=
  issue (lflagShape f) f s (lflagBody f true)

/-- Do what a word does with the one slot that its selector names, when the group's context owns it. -/
def State.oneSlot (s : State) (f : Full) (act : Lanes) (k : Nat → Nat → Nat → Effect) : Effect :=
  let sel := s.src f (asyncA f)
  match selPorts sel with
  | [p] =>
    if s.slotOwner p (selSlot sel) ≠ s.ownCtx then .retire { s := s.denySlot act 1 }
    else k p (selSlot sel) (selFlag sel)
  | _ => .trap { code := 0x02, info := 2 }

/-- The shape of LWAIT (R399). -/
def lwaitShape (f : Full) : Shape :=
  { op := 0xDA, dst := some (asyncD f), srcs := [asyncA f, asyncB f, asyncC f], bad := [(0, f.fn ≠ 0)] }

/-- R399 LWAIT. -/
def execLwait (f : Full) (s : State) : Host.Outcome State Fault Refusal :=
  let sh := lwaitShape f
  issue sh f s (fun s act =>
    match s.poisonTrap sh.srcs act with
    | some t => .trap t
    | none => s.oneSlot f act (fun p i fl =>
      let v := (s.slot p i).flag fl
      if reached v ((s.src f (asyncB f)).setWidth 32) || s.timedOut then
        .retire { s := s.endWait, result := some { vals := [(0, v.setWidth 64)] } }
      else s.timedWait (bits (s.src f (asyncC f)).toNat 0 32)))

/-- R399 LWAIT_TIMEOUT. -/
def execLwaitTimeout (s : State) : Host.Outcome State Fault Refusal := .next s.wakeExpired

/-- The shape of LSTAT (R400). -/
def lstatShape (f : Full) : Shape :=
  { op := 0xDB, dst := some (useD f .scalar), srcs := [asyncA f]
    bad := [(0, !fnOnly f 3 || decide (bits f.fn.toNat 0 2 = 3))] }

/-- R400 LSTAT. -/
def execLstat (f : Full) (s : State) : Host.Outcome State Fault Refusal :=
  let sh := lstatShape f
  issue sh f s (fun s act =>
    match s.poisonTrap sh.srcs act with
    | some t => .trap t
    | none => s.oneSlot f act (fun p i fl =>
      let v : Word := match bits f.fn.toNat 0 2 with
        | 0 => mkProgress 5 (s.slot p i).chunk.toNat
        | 1 => ((s.slot p i).flag fl).setWidth 64
        | _ => s.slotWord p i
      .retire { s := s, result := some { vals := [(0, v)] } }))

end Sys2Proof.Machine
end

