-- ==== Sys2Proof/Machine/Signature.lean ====
section
/-! DEFINITION. SHA-384 (FIPS 180-4) and the verification of an ECDSA P-384 signature (FIPS 186-4), as the boot ROM uses them
(R432; log 6). -/

namespace Sys2Proof.Machine

open Sys2Proof

/-! ## SHA-384 -/

/-- The first 80 primes. -/
def primes80 : List Nat := (List.range 410).filter (fun n => decide (2 ≤ n) && (List.range 21).all (fun d => d < 2 || n ≤ d || n % d ≠ 0))

/-- The first 64 bits of the fractional part of the root of degree `k` of a small number. -/
def rootBits (k n : Nat) : Word := BitVec.ofNat 64 (((List.range 72).foldl (fun acc i =>
  let c := acc + 2 ^ (71 - i)
  if c ^ k ≤ n * 2 ^ (64 * k) then c else acc) 0) % 2 ^ 64)

/-- The round constants: cube roots of the first 80 primes. -/
def shaConstants : List Word := primes80.map (rootBits 3)

/-- The first hash value: square roots of the ninth to the sixteenth prime. -/
def shaStart : List Word := ((primes80.drop 8).take 8).map (rootBits 2)

/-- The message schedule: words, newest first. -/
def shaSchedule : Nat → List Word → List Word
  | 0, ws => ws
  | n + 1, ws =>
    let a := ws.getD 1 0
    let b := ws.getD 14 0
    let s1 := a.rotateRight 19 ^^^ a.rotateRight 61 ^^^ (a >>> 6)
    let s0 := b.rotateRight 1 ^^^ b.rotateRight 8 ^^^ (b >>> 7)
    shaSchedule n ((s1 + ws.getD 6 0 + s0 + ws.getD 15 0) :: ws)

/-- One round on the working variables a to h. -/
def shaRound (v : List Word) (kw : Word × Word) : List Word :=
  let g (i : Nat) : Word := v.getD i 0
  let e := g 4
  let a := g 0
  let t1 := g 7 + (e.rotateRight 14 ^^^ e.rotateRight 18 ^^^ e.rotateRight 41) + ((e &&& g 5) ^^^ (~~~ e &&& g 6)) + kw.1 + kw.2
  let t2 := (a.rotateRight 28 ^^^ a.rotateRight 34 ^^^ a.rotateRight 39) + ((a &&& g 1) ^^^ (a &&& g 2) ^^^ (g 1 &&& g 2))
  [t1 + t2, a, g 1, g 2, g 3 + t1, e, g 5, g 6]

/-- Bytes as a number, the first byte the most significant. -/
def bigNat (bs : List Byte) : Nat := bs.foldl (fun n b => n * 256 + b.toNat) 0

/-- Fold one block of 128 bytes into the hash value. -/
def shaBlock (h : List Word) (block : List Byte) : List Word :=
  let ws := (List.range 16).map (fun i => BitVec.ofNat 64 (bigNat ((block.drop (8 * i)).take 8)))
  let v := (shaConstants.zip (shaSchedule 64 ws.reverse).reverse).foldl shaRound h
  h.zipWith (· + ·) v

/-- Fold `n` blocks. -/
def shaBlocks : Nat → List Word → List Byte → List Word
  | 0, h, _ => h
  | n + 1, h, bs => shaBlocks n (shaBlock h (bs.take 128)) (bs.drop 128)

/-- SHA-384 of a message, as a number of 384 bits. -/
def sha384 (m : List Byte) : Nat :=
  let zeros := (128 - (m.length + 17) % 128) % 128
  let padded := m ++ [0x80] ++ List.replicate zeros 0
    ++ (List.range 16).map (fun i => BitVec.ofNat 8 (8 * m.length / 256 ^ (15 - i)))
  ((shaBlocks (padded.length / 128) shaStart padded).take 6).foldl (fun n w => n * 2 ^ 64 + w.toNat) 0

/-! ## ECDSA over P-384 -/

/-- The prime of the field. -/
def curvePrime : Nat := 2 ^ 384 - 2 ^ 128 - 2 ^ 96 + 2 ^ 32 - 1

/-- The order of the base point. -/
def curveOrder : Nat := 0xFFFFFFFFFFFFFFFFFFFFFFFFFFFFFFFFFFFFFFFFFFFFFFFFC7634D81F4372DDF581A0DB248B0A77AECEC196ACCC52973

/-- The base point. -/
def curveBase : Nat × Nat :=
  (0xAA87CA22BE8B05378EB1C71EF320AD746E1D3B628BA79B9859F741E082542A385502F25DBF55296C3A545E3872760AB7,
    0x3617DE4A96262C6F5D9E98BF9292DC29F8F41DBD289A147CE9DA3113B5F0B8C00A60B1CE1D7E819D7A431D7C90EA0E5F)

/-- `b` to the power `e`, modulo `m`. -/
def powMod (b e m : Nat) : Nat :=
  (List.range 384).foldl (fun acc i =>
    let sq := acc * acc % m
    if e.testBit (383 - i) then sq * b % m else sq) 1

/-- The inverse modulo a prime. -/
def invMod (a m : Nat) : Nat := powMod (a % m) (m - 2) m

/-- The sum of two points of the curve y² = x³ - 3x + b; none is the point at infinity. -/
def pointAdd : Option (Nat × Nat) → Option (Nat × Nat) → Option (Nat × Nat)
  | none, q => q
  | q, none => q
  | some (x, y), some (u, v) =>
    let p := curvePrime
    if x = u ∧ (y + v) % p = 0 then none else
    let slope := (if x = u then (3 * x * x + (p - 3)) * invMod (2 * y) p else (v + p - y) * invMod (u + p - x) p) % p
    let w := (slope * slope + 2 * p - x - u) % p
    some (w, (slope * (x + p - w) + p - y) % p)

/-- A multiple of a point. -/
def pointMul (k : Nat) (q : Option (Nat × Nat)) : Option (Nat × Nat) :=
  (List.range 384).foldl (fun acc i =>
    let d := pointAdd acc acc
    if k.testBit (383 - i) then pointAdd d q else d) none

/-- The signature (r, s) of a hash is one that the key made. -/
def signatureHolds (key : Nat × Nat) (hash r s : Nat) : Bool :=
  let n := curveOrder
  if r = 0 ∨ r ≥ n ∨ s = 0 ∨ s ≥ n then false else
  let w := invMod s n
  match pointAdd (pointMul (hash * w % n) (some curveBase)) (pointMul (r * w % n) (some key)) with
  | none => false
  | some (x, _) => decide (x % n = r)

/-- The signature of a firmware image holds: the hash covers all but bytes 0x080 to 0x0FF, and r and s stand little-endian at
0x080 and 0x0B0 (R432; log 6). -/
def imageSigned (img : List Byte) : Bool :=
  signatureHolds Config.publicKey (sha384 (img.take 0x80 ++ img.drop 0x100)) (natOfBytes ((img.drop 0x80).take 48))
    (natOfBytes ((img.drop 0xB0).take 48))

end Sys2Proof.Machine
end

