-- ==== Sys2Proof/Machine/Service.lean ====
section
/-! DEFINITION. Fault queues and the service of faults (R48, R419, R420), the end of a team, soft errors (R55), the power governor and
the vector clock (R95, R434), boot, the firmware slots and reset (R404, R432), and requests to switch a team out (R44,
R418). -/

namespace Sys2Proof.Machine

open Sys2Proof

/-! ## Fault queues (R419) -/

/-- A register of a context block. -/
def State.ctxRegOf (s : State) (x o : Nat) : Word := s.reg (offCtx x + o)

/-- FQ_SIZE of a context. -/
def State.fqSize (s : State) (x : Nat) : Nat := max 1 (bits (s.ctxRegOf x 0x18).toNat 0 13)

/-- The fault queue of a context has a free slot. -/
def State.fqRoom (s : State) (x : Nat) : Bool :=
  decide (((s.ctxRegOf x 0x20).toNat + 2 ^ 32 - (s.ctxRegOf x 0x28).toNat) % 2 ^ 32 < s.fqSize x)

/-- Write a record in its queue; FQ_TAIL advances. -/
def State.writeRecord (s : State) (r : FaultRecord) : State :=
  let a := (s.ctxRegOf r.context 0x10).toNat + 64 * (r.seq % s.fqSize r.context)
  let bs := (bytesOfWords8 r.words).zipIdx.map (fun e => (a + e.2, e.1))
  (s.poke false false bs []).setReg (offCtx r.context + 0x20) (BitVec.ofNat 64 (((s.ctxRegOf r.context 0x20).toNat + 1) % 2 ^ 32))

/-- R419 FAULT_RECORD_WRITE: the oldest record whose queue has room. The records of a context keep their order. -/
def execFaultRecordWrite (s : State) : Host.Outcome State Fault Refusal :=
  match s.records.find? (fun r => s.fqRoom r.context) with
  | none => .next s
  | some r => .next (({ s with records := dropFirst (· = r) s.records }).writeRecord r)

/-! ## Reports of targets (R48, R365) -/

/-- The group that a report concerns. -/
def State.groupBy (s : State) (c grid g : Nat) : Option Group := (s.teamBy c grid).bind (fun m => sfind g m.groups)

/-- Stop a group for a deferred record: at once when it waits, otherwise at its next switch point. -/
def Group.stopLater (g : Group) (seq : Nat) (pc : Word) : Group :=
  if g.stop.isNone && g.longWait then g.stopped (.fault seq pc false) else { g.wake with deferred := g.deferred ++ [(seq, pc)] }

/-- The failed request of a store: it leaves its port and POSTED, and holds the releases that cover it until its record is
serviced (R365). -/
def State.loseStore (s : State) (r : Report) (ctx seq : Nat) : State :=
  match r.request with
  | none => s
  | some (p, id) =>
    match (s.port p).outstanding.find? (fun o => o.id = id) with
    | none => s
    | some o =>
      let f : FailedPost := {
        number := o.postedNo.getD 0, context := ctx, seq := seq, address := r.address
        cause := if r.code = 0x18 then some (bits r.info.toNat 0 4) else none, issuer := o.issuer }
      let s1 := (s.endRequest p id).addPosted o.issuer (-1)
      { s1.modPort p (fun q => { q with failed := q.failed ++ [f] }) with
        services := s1.services ++ [⟨ctx, seq, r.code, .post p f.number⟩] }

/-- Form the record of a report and stop its group, while it is there: a team may be gone before it arrives. A firmware slot takes the trap, and writes no record (R405). -/
def State.takeReport (s : State) (r : Report) : State :=
  if r.grid = 64 then
    let s1 := { s with focus := { s.focus with core := r.core, team := 8, group := 0 } }
    let nested := (s1.fwReg 0x318).getLsbD 8
    let s2 := s1.fwTrap { code := r.code, lanes := r.lanes, addr := BitVec.ofNat 64 r.address, info := r.info }
    (if nested then s2 else s2.setReg (offCore r.core + 0x310) r.pc).loseStore r 0 (s.nextSeq 0)
  else
    let ctx := r.origin.context
    let seq := s.nextSeq ctx
    let here := (s.groupBy r.core r.grid r.group).filter (fun g =>
      g.exited ≠ 0xFFFFFFFF && s.originLives r.core r.grid r.origin)
    let what : Serviced := if here.isSome then .group r.core r.grid r.group r.pc false
      else .exitedGroup r.core r.grid r.origin.grid
    let s1 := s.record {
      context := ctx, code := r.code, unit := r.core, team := r.origin.team, group := r.group
      lanes := r.lanes, kind := 1, access := r.access, scope := r.scope, pc := r.pc, addr := BitVec.ofNat 64 r.address
      info := r.info } (some what)
    let s2 := if here.isSome then s1.modTeamBy r.core r.grid (fun m => m.modGroup r.group (fun g => g.stopLater seq r.pc)) else s1
    s2.loseStore r ctx seq

/-- R48 DEFERRED_FAULT_REPORT: the oldest report arrives. -/
def execDeferredFaultReport (s : State) : Host.Outcome State Fault Refusal :=
  match s.reports with
  | [] => .next s
  | r :: rest => .next (({ s with reports := rest } : State).takeReport r)

/-! ## The end of a team (R420) -/

/-- A switched-out team all of whose groups have exited, with nothing under way, is gone. -/
def State.settleAway (s : State) (c grid : Nat) : State :=
  match s.away.find? (fun m => m.core = c ∧ m.gridSlot = grid) with
  | none => s
  | some m =>
    if m.allExited && !(s.core c).busy m then
      ({ s with away := s.away.filter (fun m => !(m.core = c && m.gridSlot = grid)) } : State).teamGone grid c m.endCode
    else s

/-- Every group of the team exits, and no continuation is left. -/
def Team.kill (m : Team) (code : Nat) : Team :=
  let m1 := m.mapGroups (fun g => { g.stopped .switchedOut with
    stop := none, exited := 0xFFFFFFFF, held := 0, cur := 0, deferred := [], cancelled := [], preempt := false
    bwstate := 0, bwlanes := 0, contState := 0, contLanes := 0, spoil := [] })
  { m1 with endCode := code, ftab := m1.ftab.filter (fun e => !e.2.service) }

/-- TERMINATE a team with a code: its groups exit, its operations are cancelled (R118), and its grid ends with the code. -/
def State.terminate (s : State) (c grid code : Nat) : State :=
  let s1 := s.modTeamBy c grid (fun m => { m.kill code with
    quarry := m.quarry.map (fun o => { o with cancelled := true }) })
  let s2 := s1.modCore c (fun k => { k with haul := k.haul.map (fun o => if o.grid ≠ grid then o else
    { o with cancelled := true, ended := if o.stopped.isSome || o.saved then some 0x80 else o.ended, stopped := none, saved := false }) })
  (s2.settleBy c grid).settleAway c grid

/-- A grid, named by its sequence number too, ends with a code when a team of it is gone already (R420). -/
def State.gridCode (s : State) (c grid seq code : Nat) : State :=
  if (s.teamBy c grid).any (fun m => m.gridSeq = seq) then s.terminate c grid code
  else { s with grids := smod grid (fun g =>
    { g with status := if g.seq = seq ∧ g.status = 0 then code else g.status }) s.grids }

/-! ## Service (R420) -/

/-- The lanes of the faulting path move past the word; an iteration of a loop that it ends, ends. -/
def State.skipWord (s : State) (c t gi : Nat) : State :=
  let f := s.focus
  let r := ({ s with focus := { core := c, team := t, group := gi } } : State).resumeLoop
  let s1 := r.1.modOwn (fun g =>
    let st := g.loopStep
    (lanesOf (g.cur &&& g.live)).foldl (fun (h : Group) l => h.setPc l st.2.1) st.1)
  { s1 with focus := f }

/-- The group stopped for this record. -/
def Group.stoppedFor (g : Group) (seq : Nat) : Bool :=
  match g.stop with
  | some (.fault q _ _) => q = seq
  | _ => false

/-- A switched-out team's group that resumes stays out: it issues once its team is in. -/
def Group.release (g : Group) (seq : Nat) (out : Bool) (now : Nat) : Group :=
  if g.stoppedFor seq then (if out then { g.resumed now with stop := some .switchedOut } else g.resumed now)
  else { g with deferred := g.deferred.filter (fun d => d.1 ≠ seq) }

/-- The same in a team that is out, whose image follows (`State.syncAway`); slot 9, which no team has, holds it meanwhile. -/
def State.skipAway (s : State) (c grid gi : Nat) : State :=
  match s.away.find? (fun m => m.core = c ∧ m.gridSlot = grid) with
  | none => s
  | some m =>
    let s1 := (s.modCore c (fun k => { k with teams := sins 9 m k.teams })).skipWord c 9 gi
    let m1 := (s1.team? c 9).getD m
    { s1.modCore c (fun k => { k with teams := sdel 9 k.teams }) with
      away := modFirst (fun x => x.core = c ∧ x.gridSlot = grid) (fun _ => m1) s1.away }

/-- Resume a stopped group. It captures its loop body afresh (R89). -/
def State.releaseGroup (s : State) (c grid gi seq : Nat) (skip : Bool) : State :=
  let stopped := ((s.groupBy c grid gi).map (fun g => g.stoppedFor seq)).getD false
  let s1 := match (s.core c).slotOf grid with
    | some t =>
      let s0 := if stopped then s.modCore c (fun k => k.dropCapture (gi % 4) t gi) else s
      if skip && stopped then s0.skipWord c t gi else s0
    | none => if skip && stopped then s.skipAway c grid gi else s
  let out := ((s.core c).slotOf grid).isNone
  s1.modTeamBy c grid (fun m => m.modGroup gi (fun g => g.release seq (out || m.residency ≠ .resident) s.clock))

/-- What an action does for one thing that awaits service. -/
def State.serve (action : Nat) (s : State) (v : Service) : State :=
  match v.what with
  | .group c grid g _ precise =>
    if action = 2 then s.terminate c grid v.code else s.releaseGroup c grid g v.seq (action = 1 && precise)
  | .haul c id => (s.modHaul c id (fun o => if action = 0 then { o with stopped := none }
      else { o with stopped := none, ended := some (o.ended.getD v.code) }))
  | .quarry c grid id => s.modTeamBy c grid (fun m => { m with quarry := m.quarry.map (fun o => if o.id ≠ id then o
      else if action = 0 then { o with stopped := none } else { o with stopped := none, ended := some v.code }) })
  | .grout q x y z =>
    if action = 0 then s.modGridBy q (fun g => g.modJob x y z (fun j => { j with waiting := none })) else s.groutAbandon q x y z
  | .continuation c grid e => s.modTeamBy c grid (fun m =>
      let f := m.fut e
      if f.service && f.state = .exported then
        (m.setFut e { f with
          state := .doneExported, status := statusWord (if action = 0 then 0 else v.code) 6 0 }).wake
      else m)
  | .exitedGroup c grid seq => if action = 2 then s.gridCode c grid seq v.code else s
  | .post p n => (s.modPort p (fun q => { q with failed := q.failed.filter (fun f =>
      !(f.number = n && f.seq = v.seq && f.context = v.context)) })).wakeAll
  | .childCopy =>
    match s.poolWait with
    | p :: rest =>
      if p.stopped ≠ some v.seq ∨ p.context ≠ v.context then s
      else if action = 0 then { s with poolWait := { p with stopped := none } :: rest }
      else p.owner.futures.foldl (fun (t : State) r => t.resolve r (statusWord v.code 6 0)) { s with poolWait := rest }
    | [] => s
  | .spoilSave c grid => if action = 2 then s.terminate c grid v.code else s

/-- A write of FE_RESUME: FR_SEQ, context and ACTION. A record that is yet to be written to its queue awaits no service (R419). -/
def State.feResume (s : State) (w : Nat) : State :=
  let x := bits w 32 6
  let action := bits w 38 2
  let mine := s.services.filter (fun v => v.context = x ∧ v.seq = bits w 0 32)
  let held := s.records.any (fun r => r.context = x ∧ r.seq = bits w 0 32)
  if mine = [] ∨ held ∨ action = 3 then s.incReg (offFe + 0x20) else
  mine.foldl (State.serve action) { s with services := s.services.filter (fun v => !(v.context = x && v.seq = bits w 0 32)) }

/-- The word of FE_RESUME with an action in place of its own. -/
def State.feResumeAs (s : State) (action : Nat) : State :=
  match s.input with
  | .word w => s.feResume (bits w.toNat 0 38 + action * 2 ^ 38)
  | _ => s

/-- R420 FE_RESUME_RETRY. -/
def execFeResumeRetry (s : State) : Host.Outcome State Fault Refusal := .next (s.feResumeAs 0)

/-- R420 FE_RESUME_SKIP. -/
def execFeResumeSkip (s : State) : Host.Outcome State Fault Refusal := .next (s.feResumeAs 1)

/-- R420 FE_RESUME_END. -/
def execFeResumeEnd (s : State) : Host.Outcome State Fault Refusal := .next (s.feResumeAs 2)

/-! ## Soft errors (R55, R162, R229, R315) -/

/-- MACHINE_CHECK against a context (R49, R50, R55). Of the master kind, the unit, the team slot, the group, the lanes, SCOPE,
FR_PC and FR_INFO the manual states nothing for it: what is not given here is a free value (log 3). -/
def State.machineCheck (s : State) (ctx : Nat) (unit : Option Nat := none) (team : Option Nat := none) (addr : Nat := 0) :
    State :=
  let d := s.draw
  let e := d.2.draw
  let f := e.2.draw
  f.2.record {
    context := ctx, code := 0x3F, master := bits d.1.toNat 0 2, unit := unit.getD (bits d.1.toNat 8 8)
    team := team.getD (bits d.1.toNat 16 3), group := bits d.1.toNat 24 8, scope := bits d.1.toNat 32 4
    lanes := e.1.setWidth 32, info := (e.1 >>> 32).setWidth 32, pc := f.1, addr := BitVec.ofNat 64 addr }

/-- MACHINE_CHECK of a Lintel slot, as a sequencer fault (R388). OPERAND is a free value (log 3). A free slot has no collective:
the record goes to its owner. -/
def State.slotCheck (s : State) (p i : Nat) : State :=
  let d := s.draw
  if (s.slot p i).state = .free then
    d.2.record {
      context := s.slotOwner p i, code := 0x3F, master := 2, unit := 0x80 + p
      progress := some (mkProgress 5 (s.slot p i).chunk.toNat), pc := BitVec.ofNat 64 (s.slot p i).pc
      info := BitVec.ofNat 32 (i + bits d.1.toNat 0 2 * 256) }
  else (d.2.slotRecord p i 0x3F 0 (bits d.1.toNat 0 2) 0 0).slotError p i 0x3F

/-- The page through which a detection takes place: context `focus.context`, virtual address `focus.number`. Its POISON_POL, when
it holds the address. -/
def State.poisonPolAt (s : State) (a : Nat) : Bool :=
  match s.walkCtx s.focus.context s.focus.number with
  | .ok (level, leaf) =>
    leaf.getLsbD 9 && decide (bits leaf.toNat 16 36 * 2 ^ 16 + s.focus.number % 2 ^ (levelBits level).1 = a + s.pkgid * 2 ^ 40)
  | .error _ => false

/-- A granule of memory is poisoned: its LLC copy, or else its DRAM copy. -/
def State.poisonAt (s : State) (a : Nat) : State :=
  match sfind (a / 128) s.llc with
  | some _ => { s with llc := smod (a / 128) (fun l => { l with poison := addNew (a % 128 / 64) l.poison }) s.llc }
  | none => s.poisonDram (a / 64) true

/-- What an uncorrectable error does. -/
def State.softError (s : State) (t : SoftTarget) : State :=
  match t with
  | .memory a => if s.poisonPolAt a then s.machineCheck s.focus.context (addr := a) else
    (s.poisonAt (a % 2 ^ 40)).incReg (offLlc + 8)
  | .scratch c t a => s.modTeam c t (fun m => { m with scratchPoison := addNew (a / 8) m.scratchPoison })
  | .vector c t g r l => s.modGroup c t g (fun x => { x with vregPoison := addNew (r * 32 + l) x.vregPoison })
  | .scalar c t g r => s.modGroup c t g (fun x => { x with sregPoison := addNew r x.sregPoison })
  | .latch c t g i => s.modGroup c t g (fun x => { x with
      latches := x.latches.zipIdx.map (fun e => if e.2 = i then { e.1 with poison := 0xFFFFFFFF } else e.1) })
  | .spoil c t g l i => s.modGroup c t g (fun x => { x with spoil := smod l (fun sp => { sp with
      window := sp.window.zipIdx.map (fun e => if e.2 = i then { e.1 with poison := true } else e.1) }) x.spoil })
  | .teamState c t =>
    match s.team? c t with
    | some m => (s.machineCheck m.context (some c) (some t)).terminate c m.gridSlot 0x3F
    | none => s
  | .slotState p i => s.slotCheck p i
  | .stationHeader h i =>
    let st := (s.station h).store
    let again := s.ksRetry.filter (fun o => (o.origin.map (·.1)) = some h)
    let gone (o : Operand) (s1 : State) : State :=
      (s1.machineCheck (tagCtx o.tag) (some 0xC0)).tell o.senders 0x3F (ksResult 0 false h) false
    match st[i]?, again[i - st.length]?, (s.ksHeld.filter (fun r => r.station = h))[i - st.length - again.length]? with
    | some o, _, _ => gone o (s.modStation h (fun x => { x with store := x.store.eraseIdx i }))
    | none, some o, _ => gone o { s with ksRetry := dropFirst (· = o) s.ksRetry }
    | none, none, some r => gone r.operand { s with ksHeld := s.ksHeld.filter (fun x => x.number ≠ r.number) }
    | none, none, none => s
  | .accessTable i => ({ s with atBad := addNew i s.atBad } : State).machineCheck 0

/-- R55 SOFT_ERROR. -/
def execSoftError (s : State) : Host.Outcome State Fault Refusal :=
  match s.input with
  | .soft t => .next (s.softError t)
  | _ => .next s

/-! ## Power, heat and the vector clock (R95, R434) -/

/-- Quarry CAP, Ashlar CAP and VCLK_CAP. -/
def State.caps (s : State) : Nat × Nat × Nat :=
  (s.regBits (offQry + 8) 16 9, s.regBits (offCore 0 + 0x248) 16 9, s.regBits (offCore 0 + 0x210) 0 3)

/-- Replace a field of a register. -/
def State.setField (s : State) (o lo n v : Nat) : State :=
  s.setReg o ((s.reg o &&& ~~~ mask lo n) ||| BitVec.ofNat 64 (v % 2 ^ n * 2 ^ lo))

/-- Set the caps, which are the same on every core. -/
def State.setCaps (s : State) (c : Nat × Nat × Nat) : State :=
  (List.range 96).foldl (fun (t : State) k =>
    (t.setField (offCore k + 0x248) 16 9 c.2.1).setField (offCore k + 0x210) 0 3 c.2.2) (s.setField (offQry + 8) 16 9 c.1)

/-- Lower one cap: Quarry to 32, then Ashlar to 32, then the vector clock to 0. -/
def lowerCaps (c : Nat × Nat × Nat) : Nat × Nat × Nat :=
  if c.1 > 32 then (c.1 - 32, c.2) else if c.2.1 > 32 then (c.1, c.2.1 - 32, c.2.2) else (c.1, c.2.1, c.2.2 - 1)

/-- Raise one cap, in the reverse order. -/
def raiseCaps (c : Nat × Nat × Nat) : Nat × Nat × Nat :=
  if c.2.2 < 5 then (c.1, c.2.1, c.2.2 + 1) else if c.2.1 < 256 then (c.1, c.2.1 + 32, c.2.2) else (min 256 (c.1 + 32), c.2)

/-- Contexts with resident work. -/
def State.busyContexts (s : State) : List Nat :=
  (s.cores.flatMap (fun e => e.2.teams.map (fun t => t.2.context))).eraseDups

/-- A junction 10 °C over its limit. -/
def State.trip (s : State) : State :=
  let s1 := s.setField (offPwr + 0x10) 17 1 1
  { s1.busyContexts.foldl (fun (t : State) x => t.machineCheck x) s1 with tripped := true, msix := s1.msix ++ [1] }

/-- R434 POWER_GOVERNOR_EVAL: the input brings the power and the hottest junctions. -/
def execPowerGovernorEval (s : State) : Host.Outcome State Fault Refusal :=
  match s.input with
  | .sensors p lt dt =>
    let limit := min 1800 (s.regBits offPwr 0 12)
    let s1 := (s.setReg (offPwr + 8) (BitVec.ofNat 64 (min p 4095))).setField (offPwr + 0x10) 0 16 (min lt 255 + min dt 255 * 256)
    let s2 :=
      if p > limit ∨ lt ≥ 105 ∨ dt ≥ 95 then (s1.setCaps (lowerCaps s1.caps)).setField (offPwr + 0x10) 16 1 1
      else if p * 100 < limit * 95 ∧ lt + 5 ≤ 105 ∧ dt + 5 ≤ 95 then
        (s1.setCaps (raiseCaps s1.caps)).setField (offPwr + 0x10) 16 1 0
      else s1
    .next (if (lt ≥ 115 ∨ dt ≥ 105) ∧ ¬ s.tripped then s2.trip else s2)
  | _ => .next s

/-- R95 VCLK_INTERVAL: the input brings GATED of the interval, which is a matter of timing. With ENABLE = 0 the step falls to 0 in one
move (log 44). -/
def execVclkInterval (s : State) : Host.Outcome State Fault Refusal :=
  match s.input with
  | .word w =>
    let o := offCore s.focus.core
    let gated := min w.toNat 255
    let ctrl := s.reg (o + 0x200)
    let top := min (min 5 (bits ctrl.toNat 4 3)) (s.regBits (o + 0x210) 0 3)
    let target := if ctrl.getLsbD 0 then min top (gated * 10 / 256) else 0
    let old := s.regBits (o + 0x208) 0 3
    let step := if !ctrl.getLsbD 0 then 0 else if target > old then old + 1 else if target < old then old - 1 else old
    let changes := (s.regBits (o + 0x208) 32 32 + if step = old then 0 else 1) % 2 ^ 32
    .next (s.setReg (o + 0x208) (BitVec.ofNat 64 (step + gated * 2 ^ 8 + changes * 2 ^ 32)))
  | _ => .next s

/-! ## Boot, firmware slots, reset (R404, R432) -/

/-- Read bytes of package memory as the boot ROM does, master 0x00; none on a refusal or poison. -/
def State.bootRead (s : State) (a n : Nat) : Option (List Byte) :=
  let addrs := (List.range n).map (a + ·)
  if addrs.any (fun b => decide (region b = .reserved ∨ region b = .mgmt)) then none
  else if !(s.admitAll 0 1 addrs false).2 then none
  else
    let r := s.peeks false a n
    if r.2 then none else some r.1

/-- BOOT_ERR of an image, or the offsets of its entry and trap entry. -/
def State.bootCheck (s : State) (base : Nat) : Except Nat (Nat × Nat) :=
  match s.bootRead base 256 with
  | none => .error 3
  | some h =>
    let f (o : Nat) : Nat := natOfBytes ((h.drop o).take 8)
    let size := f 0x08
    if f 0 ≠ 0x30384B58 ∨ size = 0 ∨ size % 256 ≠ 0 ∨ size > 2 ^ 26 ∨ ((h.drop 0xE0).any (· ≠ 0)) then .error 1
    else
      match s.bootRead base size with
      | none => .error 3
      | some img => if imageSigned img then .ok (f 0x10, f 0x18) else .error 2

/-- Start the agent of one core. -/
def State.startAgent (base entry tvec : Nat) (s : State) (c : Nat) : State :=
  let s1 := s.setReg (offCore c + 0x308) (BitVec.ofNat 64 ((base + tvec) / 8 * 8))
  (s1.setReg (offCore c + 0x300) 1).modGroup c 8 0 (fun g =>
    { (g.setS 0 (BitVec.ofNat 64 base)).setPc 0 (mkPc ((base + entry) / 8 * 8) false 0) with pathLoop := none })

/-- FE_CTRL.BOOT: the boot ROMs check the image and start every agent, or set BOOT_ERR. -/
def State.boot (s0 : State) : State :=
  let s := s0.setReg offFe (s0.reg offFe ||| 8)
  let base := (s.reg (offFe + 0x58)).toNat
  match s.bootCheck base with
  | .error e => s.setField (offFe + 8) 8 8 e
  | .ok (entry, tvec) =>
    let s1 := (List.range 96).foldl (State.startAgent base entry tvec) s
    let s2 := (s1.setField (offFe + 8) 8 8 0).setField (offFe + 8) 0 1 1
    if (s.reg (offFe + 8)).getLsbD 0 then s2 else { s2 with msix := s2.msix ++ [1] }

/-- R432 FE_CTRL_BOOT. -/
def execFeCtrlBoot (s : State) : Host.Outcome State Fault Refusal := .next s.boot

/-- R404 FW_CTRL_RUN. -/
def execFwCtrlRun (s : State) : Host.Outcome State Fault Refusal := .next (s.setReg (offCore s.focus.core + 0x300) 1)

/-- R432 RESET: every register takes its reset value; time restarts. Host memory is the host's, and the schedule and the free
values are the model's own. -/
def execReset (s : State) : Host.Outcome State Fault Refusal :=
  .next { State.reset with
    agenda := s.agenda, focus := s.focus, input := s.input, queued := s.queued, turns := s.turns, fresh := s.fresh
    dram := s.dram.filter (fun c => region c.1 = .pci) }

/-! ## Requests to switch out (R44, R418) -/

/-- Ask a group to stop at its next switch point; one that waits stops at once. -/
def Group.askStop (g : Group) : Group :=
  if g.stop.isSome ∨ g.exited = 0xFFFFFFFF then g
  else if g.longWait then g.stopped .switchedOut
  else { g with preempt := true }

/-- R418 CTX_CTRL_PREEMPT. -/
def execCtxCtrlPreempt (s : State) : Host.Outcome State Fault Refusal :=
  .next ((s.setField (offCtx s.focus.context) 4 1 1).endPreempt s.focus.context)

end Sys2Proof.Machine
end

