-- ==== Sys2Proof/Machine/Spoil.lean ====
section
/-! DEFINITION. The meanings of the Spoil stack unit's instructions 0x70 to 0x7D (R227 to R242). -/

namespace Sys2Proof.Machine

open Sys2Proof

/-- A failed check of one lane (R236): rank, code, FR_INFO, FR_ADDR, ACCESS. -/
structure SpoilFail where
  rank : Nat
  code : Nat
  info : Nat
  addr : Nat := 0
  access : Nat := 0
  deriving DecidableEq, Repr

/-- SPOIL_SPILL with its CAUSE and DIR (R236). -/
def spillFail (cause : Nat) (fill : Bool) (addr : Nat) : SpoilFail :=
  { rank := 1, code := 0x22, info := cause + if fill then 8 else 0, addr := addr, access := if fill then 1 else 2 }

/-- Address of a block of a lane (R230). -/
def State.blockAddr (s : State) (gi l b : Nat) : Nat :=
  let m := s.ownTeam
  let role := m.roleOf gi
  (m.spillBase.toNat / 64 * 64 + 64 * (32 * (m.roleGroups role * b + (gi - m.roleFirst role)) + l)) % 2 ^ 64

/-- Check a block transfer (R231): its translation, its place and the access tables, which for a block in another package
are asked there. The answer is the block's translation, or the CAUSE. -/
def State.blockXlat (s : State) (a : Nat) (fill : Bool) : State × Except Nat Xlat :=
  let acc := if fill then 1 else 2
  let r := s.translate s.ownCtx a acc
  match r.2 with
  | .error e => (r.1, .error (if e.code = 0x10 then 1 else if e.code = 0x11 then 2 else 3))
  | .ok x =>
    if s.isRemote x.pa then (r.1, .ok x) else
    if region (localOf x.pa) = .mgmt then (r.1, .error 3) else
    let q := r.1.admitOne (masterId 0 s.ownCtx) acc (localOf x.pa) (s.isUc x)
    (q.1, if q.2 then .ok x else .error 4)

/-- The entries of a block record (R230, R232). -/
def entriesOf (bytes : List Byte) (poison : Bool) : List SpoilEntry :=
  let n := natOfBytes bytes
  (List.range 8).map (fun i =>
    { tag := BitVec.ofNat 4 (bits n (256 + 4 * i) 4), value := BitVec.ofNat 32 (bits n (32 * i) 32), poison := poison })

/-- The bytes of a block record (R230). -/
def blockBytes (w : List SpoilEntry) : List Byte :=
  let at_ (i : Nat) : SpoilEntry := w.getD i {}
  let vals := (List.range 8).flatMap (fun i => bytesOfNat 4 (at_ i).value.toNat)
  vals ++ bytesOfNat 32 ((List.range 8).foldr (fun i acc => (at_ i).tag.toNat + 16 * acc) 0)

/-- A spill to write: its lane, block address, translation and entries. -/
structure Spill where
  lane : Nat
  addr : Nat
  x : Xlat
  window : List SpoilEntry
  deriving DecidableEq, Repr

/-- A lane's stack state while a word runs: the state so far, the lane, the spills to write, and the bytes in another package that
its fills wait for. -/
structure SpoilRun where
  s : State
  lane : SpoilLane
  writes : List Spill := []
  missing : List Nat := []

/-- The failure of a transfer with a block in another package: a refusal there is CAUSE 4; anything else is UNREACHABLE, which is
deferred (R364; log 75) and ranks behind the precise traps. -/
def farFail (fill : Bool) (addr pa : Nat) (e : Nat × W32) : SpoilFail :=
  if e.1 = 0x15 then spillFail 4 fill addr
  else { rank := 4, code := e.1, info := e.2.toNat, addr := pa, access := if fill then 1 else 2 }

/-- The bytes of a block transfer in this package perform as eight strong accesses of the issuing word (R161, R232). -/
def State.spoilMix (s : State) (l pa acc : Nat) : State :=
  s.mixCheck s.ownCtx (BitVec.ofNat 64 (pcAddr s.own.pathPc)) l ((List.range 8).map (pa + 8 * ·), 8) acc 0

/-- The 64 bytes of a block, with the state after the read, or why it fails; none while they have not come (R232). The host may
complete a read of its memory with an error (R155). -/
def State.readBlock (s : State) (l addr : Nat) (x : Xlat) : Option (State × Except SpoilFail (List Byte × Bool)) :=
  if s.isRemote x.pa then
    match (List.range 64).mapM (fun i => s.farByte s.wordReader (x.pa + i)) with
    | none => none
    | some bs => some (match bs.mapM id with
      | .error e => (s, .error (farFail true addr x.pa e))
      | .ok ds => (s.countPoison (ds.any (·.2)), .ok (ds.map (·.1), ds.any (·.2))))
  else
    let a := localOf x.pa
    if region a = .pci ∧ s.input = .flag true then
      some (s, .error { rank := 4, code := 0x15, info := 0, addr := x.pa, access := 1 }) else
    let s1 := s.touch s.focus.core (some ((List.range 64).map (a + ·)))
    let d := s1.looks (s1.isUc x) a 64
    some ((s1.countPoison d.2).spoilMix l x.pa 1, .ok d)

/-- FILL block `b`: the first `n` slots are the window. A lane whose block has not come goes no further. -/
def SpoilRun.fill (r : SpoilRun) (gi l b n : Nat) : SpoilRun × Option SpoilFail :=
  if r.s.ownTeam.spillBase = 0 then (r, some (spillFail 0 true 0)) else
  let a := r.s.blockAddr gi l b
  let q := r.s.blockXlat a true
  match q.2 with
  | .error c => ({ r with s := q.1 }, some (spillFail c true a))
  | .ok x =>
    match q.1.readBlock l a x with
    | none => ({ r with s := q.1, missing := r.missing ++ (List.range 64).map (x.pa + ·) }, some (spillFail 0 true a))
    | some (s1, .error e) => ({ r with s := s1 }, some e)
    | some (s1, .ok d) => ({ r with s := s1, lane := { r.lane with window := (entriesOf d.1 d.2).take n } }, none)

/-- PREPARE (R231). -/
def SpoilRun.prepare (r : SpoilRun) (gi l : Nat) : SpoilRun × Option SpoilFail :=
  if r.lane.loaded then (r, none)
  else
    let f := if r.lane.depth > 0 then r.fill gi l r.lane.nb r.lane.count else (r, none)
    match f.2 with
    | some e => (f.1, some e)
    | none => ({ f.1 with lane := { f.1.lane with loaded := true } }, none)

/-- PUSH (R231). -/
def SpoilRun.push (r0 : SpoilRun) (gi l tag : Nat) (v : W32) : SpoilRun × Option SpoilFail :=
  let p := r0.prepare gi l
  match p.2 with
  | some e => (p.1, some e)
  | none =>
    let r := p.1
    let put (r : SpoilRun) : SpoilRun := { r with lane := { r.lane with
      window := r.lane.window ++ [{ tag := BitVec.ofNat 4 tag, value := v }], count := r.lane.count + 1
      depth := r.lane.depth + 1 } }
    if r.lane.depth = 2 ^ 24 then (r, some { spillFail 5 false 0 with access := 2 })
    else if r.lane.count = 8 then
      if r.s.ownTeam.spillBase = 0 then (r, some (spillFail 0 false 0)) else
      let a := r.s.blockAddr gi l r.lane.nb
      let q := r.s.blockXlat a false
      match q.2 with
      | .error c => ({ r with s := q.1 }, some (spillFail c false a))
      | .ok x => (put { s := q.1, lane := { r.lane with nb := r.lane.nb + 1, count := 0, window := [] },
                        writes := r.writes ++ [⟨l, a, x, r.lane.window⟩], missing := r.missing }, none)
    else (put r, none)

/-- The top entry, with the window filled when it is empty (first part of POP, R231). -/
def SpoilRun.top (r0 : SpoilRun) (gi l expected : Nat) : SpoilRun × Except SpoilFail SpoilEntry :=
  let p := r0.prepare gi l
  match p.2 with
  | some e => (p.1, .error e)
  | none =>
    let r := p.1
    if r.lane.depth = 0 then (r, .error { rank := 2, code := 0x21, info := expected * 16 + 256 })
    else
      let f := if r.lane.count = 0 then
          let q := r.fill gi l (r.lane.nb - 1) 8
          ({ q.1 with lane := { q.1.lane with nb := q.1.lane.nb - 1, count := 8 } }, q.2)
        else (r, none)
      match f.2 with
      | some e => (f.1, .error e)
      | none => (f.1, .ok (f.1.lane.window.getD (f.1.lane.count - 1) {}))

/-- Remove the top entry. -/
def SpoilRun.drop (r : SpoilRun) : SpoilRun :=
  { r with lane := { r.lane with
      window := r.lane.window.take (r.lane.count - 1), count := r.lane.count - 1, depth := r.lane.depth - 1 } }

/-- What a do instruction computes: D, the entry it pushes, and whether it saturated. -/
structure DoOut where
  val : Int
  tag : Nat
  push : Int
  ovf : Bool := false

/-- A Spoil instruction in one lane, from its operands: a do instruction, or an undo instruction with the tags it accepts,
the EXPECTED code, D from the popped entry, and whether the entry matches. -/
inductive SpoilOp where
  | push (fn : Int → Int → DoOut)
  | pop (tags : List Nat) (expected : Nat) (fn : SpoilEntry → Int → Int → Int) (fits : SpoilEntry → Int → Bool)

/-- The poisoned source of a lane (R163). -/
def Group.poisonEnc (g : Group) (srcs : List Use) (l : Nat) : Option Nat :=
  (srcs.find? (fun u => g.poisoned u l)).map (fun u => u.enc.toNat)

/-- Run a Spoil instruction in one lane: the run, and the value of D with the overflow flag, or the first check that fails
(R236). -/
def SpoilRun.lane1 (r : SpoilRun) (op : SpoilOp) (gi l : Nat) (a b : Int) (bad : Option Nat) :
    SpoilRun × Except SpoilFail (Int × Bool) :=
  match op with
  | .push fn =>
    let o := fn a b
    let p := r.push gi l o.tag (BitVec.ofInt 32 o.push)
    match p.2, bad with
    | some e, _ => (p.1, .error e)
    | none, some enc => (p.1, .error { rank := 3, code := 0x17, info := enc })
    | none, none => (p.1, .ok (o.val, o.ovf))
  | .pop tags expected fn fits =>
    let t := r.top gi l expected
    match t.2 with
    | .error e => (t.1, .error e)
    | .ok e =>
      if !tags.contains e.tag.toNat then
        (t.1, .error { rank := 2, code := 0x21, info := e.tag.toNat + expected * 16 })
      else if !fits e a then
        (t.1, .error { rank := 2, code := 0x21, info := e.tag.toNat + expected * 16 + 512 })
      else match bad with
        | some enc => (t.1, .error { rank := 3, code := 0x17, info := enc })
        | none =>
          if e.poison then (t.1, .error { rank := 3, code := 0x17, info := 0x184 + 2048 })
          else (t.1.drop, .ok (fn e a b, false))

/-- The outcome of every lane: the state, the new stacks, the spills, the results and the failures. -/
structure SpoilAll where
  s : State
  lanes : List (Nat × SpoilLane) := []
  writes : List Spill := []
  missing : List Nat := []
  vals : List (Nat × Word) := []
  ovf : Bool := false
  fails : List (Nat × SpoilFail) := []

/-- A failure is deferred: its target reports it (R48, R155, R364). -/
def SpoilFail.deferred (e : SpoilFail) : Bool := e.rank = 4

/-- The trap of a word some of whose lanes failed (R236): of the lowest rank, with the detail of its lowest lane. -/
def spoilTrap (all : List (Nat × SpoilFail)) : Option Trap :=
  match all.filter (fun x => !x.2.deferred) with
  | [] => none
  | e :: es =>
    let rank := es.foldl (fun acc x => min acc x.2.rank) e.2.rank
    let bad := (e :: es).filter (fun x => x.2.rank = rank)
    let f := (bad.foldl (fun (b : Nat × SpoilFail) x => if x.1 < b.1 then x else b) (bad.headD e)).2
    some { code := f.code, lanes := lanesWhere (fun l => bad.any (fun x => x.1 = l)), addr := BitVec.ofNat 64 f.addr
           info := BitVec.ofNat 32 f.info, access := f.access }

/-- A lane needs a block transfer (R231). -/
def SpoilLane.transfers (sp : SpoilLane) (push : Bool) : Bool :=
  (!sp.loaded && decide (sp.depth > 0)) || (if push then sp.count = 8 else sp.count = 0 && decide (sp.depth > 0))

/-- Run one more lane of a Spoil word. -/
def SpoilAll.run (sh : Shape) (op : SpoilOp) (gi : Nat) (s : State) (g : Group) (acc : SpoilAll) (l : Nat) : SpoilAll :=
  let v (i : Nat) : Int := ((sh.srcs[i]?).map (fun u => intVal true 32 (s.value u l))).getD 0
  let r := ({ s := acc.s, lane := sget {} g.spoil l } : SpoilRun).lane1 op gi l (v 0) (v 1) (g.poisonEnc sh.srcs l)
  match r.2 with
  | .error e => { acc with
      s := r.1.s, fails := acc.fails ++ [(l, e)], missing := acc.missing ++ r.1.missing, writes := acc.writes ++ r.1.writes }
  | .ok d => { acc with
      s := r.1.s, lanes := acc.lanes ++ [(l, r.1.lane)], writes := acc.writes ++ r.1.writes
      vals := acc.vals ++ [(l, BitVec.ofInt 64 (BitVec.ofInt 32 d.1).toInt)], ovf := acc.ovf || d.2 }

/-- Run every active lane of a Spoil word. -/
def State.spoilAll (s : State) (sh : Shape) (op : SpoilOp) (act : Lanes) : SpoilAll :=
  (lanesOf act).foldl (SpoilAll.run sh op s.focus.group s s.own) { s := s }

/-- Write one spill in this package or to host memory, where it is posted (R142, R232). -/
def State.writeSpill (s : State) (w : Spill) : State :=
  let a := localOf w.x.pa
  let bs := blockBytes w.window
  let s1 := (s.touch s.focus.core (some ((List.range 64).map (a + ·)))).poke (s.isUc w.x) (w.x.cpol = 1) ((List.range 64).map (fun i => (a + i, bs.getD i 0)))
    (if w.window.any (·.poison) then [a] else [])
  if region a = .pci then
    let i := s.storeIssuer (BitVec.ofNat 64 (pcAddr s.own.pathPc)) (laneBit w.lane)
    ({ s1 with hostPosted := s1.hostPosted ++ [(s1.hostPostedNext, i)], hostPostedNext := s1.hostPostedNext + 1 }).addPosted i 1
  else s1.spoilMix w.lane w.x.pa 2

/-- Send the spills that go to other packages, and look at what came of them: whether all are acknowledged, and the failures. -/
def State.sendSpills (s : State) (ws : List Spill) : State × Bool × List (Nat × SpoilFail) :=
  ws.foldl (fun (r : State × Bool × List (Nat × SpoilFail)) w =>
    let s1 := r.1.farSend s.wordReader s.ownCtx w.x.pa (blockBytes w.window) (w.window.any (·.poison))
    match s1.farWrite s.wordReader w.x.pa with
    | none => (s1, false, r.2.2)
    | some f => (s1, r.2.1 && f.request.isNone,
        r.2.2 ++ (f.fail.map (fun e => (w.lane, farFail false w.addr w.x.pa e))).toList)) (s, true, [])

/-- The spills are written and the stacks change. -/
def SpoilAll.commit (all : SpoilAll) : State :=
  ((all.writes.filter (fun w => !all.s.isRemote w.x.pa)).foldl State.writeSpill all.s).modOwn
    (fun g => { g with spoil := all.lanes.foldl (fun m e => sput {} m e.1 e.2) g.spoil })

/-- The word pushes. -/
def SpoilOp.pushes : SpoilOp → Bool
  | .push _ => true
  | .pop .. => false

/-- Some active lane needs a block transfer, and earlier global accesses of the group are still under way, or bytes are veiled from
the core (R34, R232). -/
def State.spoilBlocked (s : State) (op : SpoilOp) (act : Lanes) : Bool :=
  (lanesOf act).any (fun l => (sget {} s.own.spoil l).transfers op.pushes)
    && (!(s.own.storeQ.all (·.scratch) && s.own.loads.all (·.scratch)) || s.veiledCore s.focus.core)

/-- The deferred failures of a Spoil word are reported, a record for each line that failed; the word stays where it is, as a switch
point at which the group stops for them (R48, R364). -/
def State.spoilLost (s : State) (fs : List (Nat × SpoilFail)) : State :=
  ((fs.map (fun x => x.2.addr / 128)).eraseDups).foldl (fun (t : State) ln =>
    match fs.filter (fun x => x.2.addr / 128 = ln) with
    | [] => t
    | x :: xs => t.report {
        code := x.2.code, core := s.focus.core, grid := s.ownTeam.gridSlot, group := s.focus.group
        pc := BitVec.ofNat 64 (pcAddr s.own.pathPc), address := x.2.addr
        lanes := lanesWhere (fun l => (x :: xs).any (fun y => y.1 = l)), info := BitVec.ofNat 32 x.2.info, access := x.2.access }) s

/-- The report of a request of the issuing word that failed is on its way. -/
def State.wordReported (s : State) : Bool :=
  s.reports.any (fun r => r.core = s.focus.core && r.grid = s.ownTeam.gridSlot && r.group = s.focus.group
    && r.pc.toNat = pcAddr s.own.pathPc && (r.code = 0x18 || r.code = 0x15))

/-- A Spoil word that pushes or pops: every lane is checked before any effect; then the spills are written and the stacks
change (R231, R236). A word with a block transfer waits for the group's earlier global accesses (R232), and for every block that it
reads or writes in another package. -/
def spoilBody (sh : Shape) (op : SpoilOp) (s : State) (act : Lanes) : Effect :=
  if s.spoilBlocked op act then .pause s else
  if s.wordReported then .settled s.haltHere else
  let all := s.spoilAll sh op act
  let rd := s.wordReader
  if all.missing ≠ [] then .pause (s.farAsk rd s.ownCtx all.missing) else
  let far := all.writes.filter (fun w => s.isRemote w.x.pa)
  let w := all.s.sendSpills far
  if !w.2.1 then .pause (s.sendSpills far).1 else
  let fails := w.2.2 ++ all.fails
  let s1 := (w.1.farDone rd).spoilLost (fails.filter (fun x => x.2.deferred))
  match spoilTrap fails with
  | some t => .settled (s1.trapWord act sh t)
  | none =>
    if fails ≠ [] then .settled s1.haltHere else
    .retire { s := ({ all with s := s1 } : SpoilAll).commit, result := some { vals := all.vals }, flags := flIf all.ovf flO }

/-- The low `n` bits of a value, zero-extended. -/
def lowN (v : Int) (n : Nat) : Int := (lowBits n v : Int)

/-- Shape of a Spoil instruction (R234, R235). -/
def spoilShape (op : Nat) (f : Full) (srcs : List Use) (dst : Bool) (bad : Bool) (sw : Bool := true) : Shape :=
  { op := op, sw := sw, roles := [2, 3], dst := if dst then some (useD f .dstVec) else none, srcs := srcs
    bad := [(0, bad)], result := dst }

def sh6 (f : Full) : Nat := bits f.fn.toNat 0 6
def k5 (f : Full) : Nat := bits f.fn.toNat 0 5

/-- What RMULN does in a lane (R237). -/
def rmulnOp (f : Full) : SpoilOp :=
  .push (fun a b =>
    let p := a * b
    let q := p / (2 ^ sh6 f : Nat)
    if b = 0 then { val := 0, tag := 2, push := a }
    else if satInt true 32 q ≠ q then { val := satInt true 32 q, tag := 3, push := a, ovf := true }
    else { val := q, tag := 1, push := lowN p (sh6 f) })

/-- R237 RMULN. -/
def execRmuln (f : Full) (s : State) : Host.Outcome State Fault Refusal :=
  let sh := spoilShape 0x70 f [useA f, useB f] true (!fnOnly f 0x3F || decide (sh6 f > 32))
  issue sh f s (spoilBody sh (rmulnOp f))

/-- What UMULN does in a lane (R237). -/
def umulnOp (f : Full) : SpoilOp :=
  .pop [1, 2, 3] 1 (fun e a b =>
    if e.tag = 1 then
      let p := a * (2 ^ sh6 f : Nat) + lowN e.value.toNat (sh6 f)
      if b = 0 then 0 else p.tdiv b
    else (e.value.toNat : Int)) (fun _ _ => true)

/-- R237 UMULN. -/
def execUmuln (f : Full) (s : State) : Host.Outcome State Fault Refusal :=
  let sh := spoilShape 0x71 f [useA f, useB f] true (!fnOnly f 0x3F || decide (sh6 f > 32))
  issue sh f s (spoilBody sh (umulnOp f))

/-- What RSHR does in a lane (R238). -/
def rshrOp (f : Full) : SpoilOp :=
  .push (fun a _ =>
    { val := a / (2 ^ sh6 f : Nat), tag := 4, push := lowN a (sh6 f) })

/-- R238 RSHR. -/
def execRshr (f : Full) (s : State) : Host.Outcome State Fault Refusal :=
  let sh := spoilShape 0x72 f [useA f] true (!fnOnly f 0x3F || decide (sh6 f > 32))
  issue sh f s (spoilBody sh (rshrOp f))

/-- What USHR does in a lane (R238). -/
def ushrOp (f : Full) : SpoilOp :=
  .pop [4] 4 (fun e a _ =>
    a * (2 ^ sh6 f : Nat) + lowN e.value.toNat (sh6 f)) (fun _ _ => true)

/-- R238 USHR. -/
def execUshr (f : Full) (s : State) : Host.Outcome State Fault Refusal :=
  let sh := spoilShape 0x73 f [useA f] true (!fnOnly f 0x3F || decide (sh6 f > 32))
  issue sh f s (spoilBody sh (ushrOp f))

/-- RADD, UADD, RMAD and UMAD compute without the stack (R239). -/
def spoilAdd (sh : Shape) (fn : Int → Int → Int → Int) : State → Lanes → Effect :=
  State.compute sh (fun _ xs =>
    let x (i : Nat) : Int := intVal true 32 (arg xs i)
    { val := BitVec.ofInt 64 (BitVec.ofInt 32 (fn (x 0) (x 1) (x 2))).toInt })

/-- What RADD, UADD, RMAD and UMAD compute from A, B and C, before it wraps (R239). -/
def raddOp (a b _ : Int) : Int := a + b
def uaddOp (a b _ : Int) : Int := a - b
def rmadOp (f : Full) (a b c : Int) : Int := a + b * c / (2 ^ sh6 f : Nat)
def umadOp (f : Full) (a b c : Int) : Int := a - b * c / (2 ^ sh6 f : Nat)

/-- R239 RADD. -/
def execRadd (f : Full) (s : State) : Host.Outcome State Fault Refusal :=
  let sh := spoilShape 0x74 f [useA f, useB f] true (f.fn ≠ 0) false
  issue sh f s (spoilAdd sh raddOp)

/-- R239 UADD. -/
def execUadd (f : Full) (s : State) : Host.Outcome State Fault Refusal :=
  let sh := spoilShape 0x75 f [useA f, useB f] true (f.fn ≠ 0) false
  issue sh f s (spoilAdd sh uaddOp)

/-- R239 RMAD. -/
def execRmad (f : Full) (s : State) : Host.Outcome State Fault Refusal :=
  let sh := spoilShape 0x76 f [useA f, useB f, useC f] true (!fnOnly f 0x3F) false
  issue sh f s (spoilAdd sh (rmadOp f))

/-- R239 UMAD. -/
def execUmad (f : Full) (s : State) : Host.Outcome State Fault Refusal :=
  let sh := spoilShape 0x77 f [useA f, useB f, useC f] true (!fnOnly f 0x3F) false
  issue sh f s (spoilAdd sh (umadOp f))

/-- What RLREL does in a lane (R240). -/
def rlrelOp (f : Full) : SpoilOp :=
  .push (fun a _ =>
    if a < 0 then { val := a / (2 ^ k5 f : Nat), tag := 5, push := lowN a (k5 f) }
    else { val := a, tag := 5, push := 0 })

/-- R240 RLREL. -/
def execRlrel (f : Full) (s : State) : Host.Outcome State Fault Refusal :=
  let sh := spoilShape 0x78 f [useA f] true (!fnOnly f 0x1F)
  issue sh f s (spoilBody sh (rlrelOp f))

/-- What ULREL does in a lane (R240). -/
def ulrelOp (f : Full) : SpoilOp :=
  .pop [5] 5 (fun e a _ =>
    if a < 0 then a * (2 ^ k5 f : Nat) + lowN e.value.toNat (k5 f) else a) (fun _ _ => true)

/-- R240 ULREL. -/
def execUlrel (f : Full) (s : State) : Host.Outcome State Fault Refusal :=
  let sh := spoilShape 0x79 f [useA f] true (!fnOnly f 0x1F)
  issue sh f s (spoilBody sh (ulrelOp f))

/-- N of RNARR and UNARR. -/
def narrBits (f : Full) : Nat := if f.fn.getLsbD 5 then 16 else 8

/-- What RNARR does in a lane (R241). -/
def rnarrOp (f : Full) : SpoilOp :=
  .push (fun a _ =>
    let q := a / (2 ^ k5 f : Nat)
    let t := satInt true (narrBits f) q
    if t = q then { val := q, tag := 6, push := lowN a (k5 f) }
    else { val := t, tag := 7, push := a, ovf := true })

/-- R241 RNARR. -/
def execRnarr (f : Full) (s : State) : Host.Outcome State Fault Refusal :=
  let sh := spoilShape 0x7A f [useA f] true (!fnOnly f 0x3F)
  issue sh f s (spoilBody sh (rnarrOp f))

/-- What UNARR does in a lane (R241). -/
def unarrOp (f : Full) : SpoilOp :=
  .pop [6, 7] 6 (fun e a _ =>
    if e.tag = 6 then
      intVal true (narrBits f) (BitVec.ofInt 64 a) * (2 ^ k5 f : Nat) + lowN e.value.toNat (k5 f)
    else (e.value.toNat : Int)) (fun _ _ => true)

/-- R241 UNARR. -/
def execUnarr (f : Full) (s : State) : Host.Outcome State Fault Refusal :=
  let sh := spoilShape 0x7B f [useA f] true (!fnOnly f 0x3F)
  issue sh f s (spoilBody sh (unarrOp f))

/-- What RMARK does in a lane (R242). -/
def rmarkOp : SpoilOp :=
  .push (fun a _ => { val := 0, tag := 8, push := lowN a 28 })

/-- R242 RMARK. -/
def execRmark (f : Full) (s : State) : Host.Outcome State Fault Refusal :=
  let sh := spoilShape 0x7C f [useA f] false (f.fn ≠ 0)
  issue sh f s (spoilBody sh rmarkOp)

/-- What UMARK does in a lane (R242). -/
def umarkOp : SpoilOp :=
  .pop [8] 8 (fun _ _ _ => 0) (fun e a => lowN e.value.toNat 28 = lowN a 28)

/-- R242 UMARK. -/
def execUmark (f : Full) (s : State) : Host.Outcome State Fault Refusal :=
  let sh := spoilShape 0x7D f [useA f] false (f.fn ≠ 0)
  issue sh f s (spoilBody sh umarkOp)

end Sys2Proof.Machine
end

