-- ==== Sys2Proof/Machine/Residency.lean ====
section
/-! DEFINITION. How teams come and go: grids and their placement (R13, R94, R317 to R319, R417), the end of a grid (R337), child grids
(R415, R416), and switching teams out and in (R44, R233, R266, R296, R355, R421, R422). -/

namespace Sys2Proof.Machine

open Sys2Proof

/-- One of a list, where the manual leaves the choice open (log 3). -/
def State.pick {α : Type} (s : State) : List α → Option α × State
  | [] => (none, s)
  | [x] => (some x, s)
  | x :: y :: r => ((x :: y :: r)[s.draw.1.toNat % (r.length + 2)]?, s.draw.2)

/-! ## Grid slots (R13, R417) -/

/-- Insert a core by committed register bytes, resident groups and number. -/
def State.insertCore (s : State) (c : Nat) : List Nat → List Nat
  | [] => [c]
  | d :: ds =>
    let key (k : Nat) : Nat × Nat := (s.committed k, (s.core k).groupCount)
    if (key c).1 < (key d).1 ∨ ((key c).1 = (key d).1 ∧ ((key c).2 < (key d).2 ∨ ((key c).2 = (key d).2 ∧ c < d)))
    then c :: d :: ds else d :: s.insertCore c ds

/-- The core mask of a grid: the record's, or the PICK least committed of its cores. -/
def State.chosenCores (s : State) (record : LRec) (pick : Nat) : BitVec 96 :=
  let cs := (List.range 96).filter (recCores record).getLsbD
  if pick = 0 then recCores record
  else BitVec.ofNat 96 ((((cs.foldr s.insertCore []).take pick).map (2 ^ ·)).sum)

/-- A grid as it takes its slot. -/
def State.newGrid (s : State) (slot : Nat) (w : WaitingGrid) : Grid where
  slot := slot
  context := w.context
  seq := s.gridSeq
  record := w.record
  cores := s.chosenCores w.record w.pick
  probeCode := recProbe w.record
  target := BitVec.ofNat 16 (recTarget w.record)
  rung := startRung (recCov w.record)
  start := startRung (recCov w.record)
  owner := w.owner

/-- Waiting grids take free slots, oldest first. -/
def State.fillSlots : Nat → State → State
  | 0, s => s
  | n + 1, s =>
    match s.gridWait with
    | [] => s
    | w :: rest =>
      match s.pick ((List.range 64).filter (fun k => (sfind k s.grids).isNone)) with
      | (some k, s1) => State.fillSlots n { s1 with
          gridWait := rest, grids := sins k (s1.newGrid k w) s1.grids, gridSeq := (s1.gridSeq + 1) % 2 ^ 32 }
      | (none, _) => s

/-- Hand a grid to the work distributor. -/
def State.handGrid (s : State) (w : WaitingGrid) : State :=
  ({ s with gridWait := s.gridWait ++ [w] } : State).fillSlots (s.gridWait.length + 1)

/-! ## Placement (R94, R319) -/

/-- A group at its team's start. -/
def startGroup (record : LRec) (now clock : Nat) : Group where
  sreg := (List.range (recArgs record)).foldl (fun m n => sput 0 m n (record.getD (16 + n) 0)) []
  pcv := (List.range 32).foldl (fun m l => sput 0 m l (record.getD 0 0)) []
  waits := (List.range 32).foldl (fun m l => sput 0 m l now) []
  readySince := clock

/-- A team at its start. -/
def State.startTeam (s : State) (g : Grid) (c image : Nat) : Team where
  context := g.context
  core := c
  gridSlot := g.slot
  gridSeq := g.seq
  image := image
  barTimeout := g.record.getD 5 0
  spillBase := g.record.getD 6 0
  roleShape := g.record.getD 3 0
  scratchSize := recScratch g.record
  groups := (List.range (recTotal g.record)).map (fun n => (n, startGroup g.record s.ticks s.clock))
  order := (s.core c).launches

/-- Put a team in a slot of its core. -/
def State.seat (s : State) (c t : Nat) (m : Team) : State :=
  (s.modCore c (fun k => { k.dropCaptures t with teams := sins t m k.teams })).setReg (offCore c + 0x340 + 8 * t)
    (BitVec.ofNat 64 (m.image % 2 ^ 40 + 2 ^ 63))

/-- Free team slots of a core. -/
def State.freeSeats (s : State) (c : Nat) : List Nat := (List.range 8).filter (fun t => (sfind t (s.core c).teams).isNone)

/-- The grids whose team a core admits now. -/
def State.placeable (s : State) (c : Nat) : List Grid :=
  (s.grids.map (·.2)).filter (fun g => g.cores.getLsbD c && !g.placed.contains c
    && s.admits c g.context g.slot (recTotal g.record) (recBytes g.record) (recScratch g.record) (recAshlar g.record))

/-- Write the image of a team at its admission: its header and its control blocks, in which every field has its admission value and
every reserved byte is 0, and its Ashlar save area (R19, R20, R267, R296, R342, R355). -/
def State.admitImage (s : State) (m : Team) (t : Nat) : State :=
  let s1 := m.groups.foldl (fun (x : State) e =>
    let b := m.image + recordOff e.1 + 0x8000
    x.imageWrite m.context (zeroBytes b 0x1000 ++ fieldBytes b (e.2.blockFields (seedsOf m.core e.1 e.2))) [])
    (s.imageWrite m.context (zeroBytes m.image 0x2000 ++ fieldBytes m.image (m.headerFields t [])) [])
  if m.ownsAshlar then s1.imageClear m.context (m.image + m.ashArea) 0xA0000 else s1

/-- Place the team of a grid on a core. Firmware chooses where its image stands: the turn's input brings the address, a
multiple of 64 KiB in DRAM. -/
def State.place (s : State) (c : Nat) (g : Grid) : State :=
  let d := match s.input with
    | .word w => (w, s)
    | _ => s.draw
  let image := d.1.toNat % 0x3000000000 / 0x10000 * 0x10000
  match d.2.pick (d.2.freeSeats c) with
  | (none, _) => s
  | (some t, s1) =>
    let m := s1.startTeam g c image
    let s2 := (s1.modGrid g.slot (fun g => { g with placed := g.placed ++ [c] })).seat c t m
    let s3 := s2.modCore c (fun k => { k with launches := k.launches + 1, ash := if m.ownsAshlar then {} else k.ash })
    (s3.admitImage m t).trimRegs c t true

/-! ## The end of a grid (R337, R415) -/

/-- The status word of a grid that is complete. -/
def Grid.statusWord (g : Grid) : Word := Machine.statusWord g.status 6 (min g.abandoned 0xFFFFFFFF + g.slot * 2 ^ 32)

/-- Every team of the grid has exited. -/
def Grid.over (g : Grid) : Bool := (List.range 96).all (fun c => !g.cores.getLsbD c || g.exited.contains c)

/-- R337 GRID_END: a grid whose last team has exited gives up its slot; one on its way out that Grout has finished with is
reported complete. -/
def execGridEnd (s : State) : Host.Outcome State Fault Refusal :=
  match s.ending.find? (fun g => g.openJobs = 0) with
  | some g =>
    .next (g.owner.futures.foldl (fun (t : State) r => t.resolve r g.statusWord)
      { s with ending := s.ending.filter (fun h => h.seq ≠ g.seq) })
  | none =>
    match s.grids.find? (fun e => e.2.over) with
    | some e =>
      .next (({ s with grids := sdel e.1 s.grids, ending := s.ending ++ [e.2.release] } : State).fillSlots 1)
    | none => .next s

/-! ## Launch words (R415, R417) -/

/-- Where pool entry `e` stands; its copy follows 64 bytes further on. -/
def State.poolAddr (s : State) (e : Nat) : Nat := (s.reg (offFe + 0x48)).toNat + 256 * e

/-- The control record of a pool entry, whose contents the spec does not give: free values (log 3). -/
def State.poolControl (s : State) (a : Nat) : State :=
  let d := (List.range 8).foldl (fun (d : State × List Word) _ => (d.1.draw.2, d.2 ++ [d.1.draw.1])) (s, [])
  d.1.poke false false ((bytesOfWords8 d.2).zipIdx.map (fun x => (a + x.2, x.1))) []

/-- Take a copy into a free pool entry. -/
def State.poolTake (s : State) (p : PoolEntry) : State :=
  match s.pick ((List.range 4096).filter (fun e => (sfind e s.pool).isNone)) with
  | (none, _) => s
  | (some e, s1) =>
    let s2 := ({ s1 with pool := sins e p s1.pool } : State).poolControl (s1.poolAddr e)
    let peak := max (s1.regBits (offFe + 0x50) 16 16) s2.pool.length
    let a := s2.poolAddr e + 64
    (s2.poke false false ((bytesOfWords8 p.record).zipIdx.map (fun x => (a + x.2, x.1))) []).setField (offFe + 0x50) 16 16 peak

/-- A child grid is queued: it takes a pool entry, or waits for one (R415). -/
def State.childStart (s : State) (pick base : Nat) (r : List Word) (h : Option Word) : State :=
  let p : PoolEntry := {
    context := s.ownCtx, pick := pick, address := base, record := r
    owner := { futures := (h.map s.ownRef).toList }, core := s.focus.core }
  if s.poolWait = [] ∧ s.pool.length < 4096 then s.poolTake p
  else { s with poolWait := s.poolWait ++ [{ p with record := [] }] }

/-- The shape of LAUNCHC (R415). -/
def launchcShape (f : Full) : Shape :=
  let a := asyncA f
  let b := asyncB f
  { op := 0xE0, dst := some (asyncD f), srcs := [a, b], bad := [(0, f.fn ≠ 0)], scope := 6 }

/-- R415 LAUNCHC. -/
def execLaunchc (f : Full) (s : State) : Host.Outcome State Fault Refusal :=
  let a := asyncA f
  let b := asyncB f
  issue (launchcShape f) f s (fun s act =>
    let bad (u : Use) : Bool := (lanesOf act).any (s.own.poisoned u)
    let base := (s.src f a).toNat
    let pick := bits (s.src f b).toNat 0 7
    if !bad b && pick > 96 then .trap { code := 0x02, info := 3 } else
    match s.poisonTrap [a, b] act with
    | some t => .trap t
    | none =>
      if base % 64 ≠ 0 then .trap { code := 0x02, info := 2 } else
      s.released act true 6 (fun s1 =>
        match s1.readRecord f act base 192 with
        | .ends e => e
        | .bytes s2 bs =>
          let r := words8 (words4 bs)
          match s2.recordFail s2.ownCtx pick r with
          | some e => .trap { code := 0x26, info := recInfo e }
          | none =>
            match handleReg f with
            | none => .retire { s := s2.childStart pick base r none }
            | some d =>
              match s2.allocFuture 6 (some d) 6 with
              | none => .wait s2
              | some (h, s3) => .retire { s := s3.childStart pick base r (some h) }))

/-- A launch that never comes about: its future resolves with a code. -/
def State.failLaunch (s : State) (o : GridOwner) (code : Nat) : State :=
  o.futures.foldl (fun (t : State) r => t.resolve r (statusWord code 6 0)) s

/-- A copy that fails writes an asynchronous record (R48). It waits for service after a page fault, and ends with any other code
(R52). -/
def State.copyFault (s : State) (p : PoolEntry) (rest : List PoolEntry) (code va : Nat) (info : W32) : State :=
  let page := code = 0x10 ∨ code = 0x11
  let s1 := s.record {
    context := p.context, code := code, unit := p.core, access := 1, addr := BitVec.ofNat 64 va, info := info
    future := (p.owner.futures.head?).elim 0 (·.handle) } (if page then some .childCopy else none)
  if page then { s1 with poolWait := { p with stopped := some (s.nextSeq p.context) } :: rest }
  else ({ s1 with poolWait := rest } : State).failLaunch p.owner code

/-- R415 CHILD_COPY_TAKEN: the oldest waiting record is copied once an entry is free. -/
def execChildCopyTaken (s : State) : Host.Outcome State Fault Refusal :=
  match s.poolWait with
  | [] => .next s
  | p :: rest =>
    if s.pool.length ≥ 4096 ∨ p.stopped.isSome then .next s else
    let r := s.engineReadRun 0 p.context p.address 192 .childCopy
    if r.paused then .next r.s else
    let s1 : State := { r.s with poolWait := rest }
    match r.fail with
    | some (e, va) => .next (s1.copyFault p rest e.code (s1.failAddr e va) e.info)
    | none =>
      if r.bytes.any (·.2) then .next (s1.copyFault p rest 0x17 p.address 0) else
      let ws := words8 (words4 (r.bytes.map (·.1)))
      match s1.recordFail p.context p.pick ws with
      | some _ => .next (s1.failLaunch p.owner 0x26)
      | none => .next (s1.poolTake { p with record := ws })

/-- Lanes wait at a JOINC for the operation of a handle. -/
def State.joinWait (s : State) (act : Lanes) (h : Word) : Effect :=
  .wait (s.modOwn (fun g => { g with joining := g.joining ||| act, joinOn := addNew h g.joinOn }))

/-- Lanes leave a JOINC with a status word. -/
def State.joined (s : State) (act : Lanes) (h : Word) : State :=
  s.modOwn (fun g => { g with joining := g.joining &&& ~~~ act, joinOn := g.joinOn.filter (· ≠ h) })

/-- The shape of JOINC (R416). -/
def joincShape (f : Full) : Shape :=
  let a : Use := { useA f .scalar 2 with blocks := f.fn.getLsbD 0 }
  { op := 0xE1, dst := some { useD f .dstScalar 2 with blocks := f.d ≠ f.a }, srcs := [a], bad := [(0, f.fn.toNat > 1)] }

/-- R416 JOINC. -/
def execJoinc (f : Full) (s : State) : Host.Outcome State Fault Refusal :=
  let a : Use := { useA f .scalar 2 with blocks := false }
  issue (joincShape f) f s (fun s act =>
    match s.poisonTrap [a] act with
    | some t => .trap t
    | none =>
      let n := bits f.a.toNat 0 7
      let h := s.own.s n
      if f.fn.getLsbD 0 then
        match (s.exported h).filter (fun e => e.engine = 6 && !e.service) with
        | none => .trap (badFuture h)
        | some e => if e.state = .doneExported then .retire { s := (s.consume f.d h e).joined act h } else s.joinWait act h
      else if s.own.pending n then s.joinWait act h
      else .retire { s := (s.joined act h).giveStatus f.d h })

/-- A record is handed over as a grid; the pool entry whose copy it is becomes free. -/
def State.placeRecord (s : State) (base ctx pick : Nat) (record : List Word) (h : Option Word) : State :=
  let mine := s.pool.find? (fun e => e.2.claimed && decide (s.poolAddr e.1 + 64 = base))
  let owners := (mine.map (fun e => e.2.owner.futures)).getD []
  let s1 : State := { s with pool := (mine.map (fun e => sdel e.1 s.pool)).getD s.pool }
  s1.handGrid {
    context := ctx, record := record, pick := pick, owner := { futures := (h.map s.ownRef).toList ++ owners } }

/-- The shape of WDPLACE (R417). -/
def wdplaceShape (f : Full) : Shape :=
  let a := asyncA f
  let b := asyncB f
  { op := 0xE8, priv := true, dst := some (asyncD f), srcs := [a, b], bad := [(0, f.fn ≠ 0)] }

/-- R417 WDPLACE. The copy stands at a package physical address and is read as PSRD reads (R429). Once the distributor has the grid
of a claimed pool entry, the entry is free, and its future resolves with the grid. -/
def execWdplace (f : Full) (s : State) : Host.Outcome State Fault Refusal :=
  let a := asyncA f
  let b := asyncB f
  issue (wdplaceShape f) f s (fun s act =>
    match s.poisonTrap [a, b] act with
    | some t => .trap t
    | none => s.released act true 6 (fun s =>
      let base := (s.src f a).toNat
      let ctx := bits (s.src f b).toNat 0 6
      let pick := bits (s.src f b).toNat 6 7
      if base % 64 ≠ 0 then .trap { code := 0x26, info := recInfo (0, 6) }
      else if base ≥ 2 ^ 40 then .trap { code := 0x12, addr := BitVec.ofNat 64 base, access := 1 }
      else if region base = .reserved ∨ region base = .mgmt then
        .trap { code := 0x12, addr := BitVec.ofNat 64 base, info := 1, access := 1 }
      else
        let q := s.admitAll 0 1 ((List.range 192).map (base + ·)) false
        if !q.2 || (decide (region base = .pci) && decide (s.input = .flag true)) then
          .retire { s := q.1.report {
            code := 0x15, core := s.focus.core, grid := 64, group := 0, pc := BitVec.ofNat 64 (pcAddr s.own.pathPc)
            address := base + s.pkgid * 2 ^ 40, lanes := act, access := 1 } }
        else
          let r := q.1.peeks false base 192
          let q := (q.1.countPoison r.2, q.2)
          if r.2 then .trapFrom q.1 { code := 0x17, info := f.a.setWidth 32 } else
          let record := words8 (words4 r.1)
          match q.1.recordFail ctx pick record with
          | some e => .trap { code := 0x26, info := recInfo e }
          | none =>
            match handleReg f with
            | none => .retire { s := q.1.placeRecord base ctx pick record none }
            | some d =>
              match q.1.allocFuture 6 (some d) 6 with
              | none => .wait q.1
              | some (h, s1) => .retire { s := s1.placeRecord base ctx pick record (some h) }))

/-! ## Switching out (R422) -/

/-- Where a team stands once a switch-out is asked for: a team already on its way out takes the handle up beside the others
(R421). -/
def Residency.out1 (r : Residency) (wb : Bool) (handle : Option FutureRef) : Residency :=
  match r with
  | .leaving wb0 hs => .leaving (wb0 || wb) (hs ++ handle.toList)
  | _ => .leaving wb handle.toList

/-- Begin to switch out the team in a slot. -/
def State.beginOut (s : State) (c t : Nat) (wb : Bool) (handle : Option FutureRef) : State :=
  s.modTeam c t (fun m => { (m.mapGroups Group.askStop) with residency := m.residency.out1 wb handle })

/-- Lanes of a group whose window is to be spilled. -/
def Group.partials (g : Group) : List Nat :=
  (lanesOf (~~~ g.exited)).filter (fun l => (sget {} g.spoil l).loaded && decide ((sget {} g.spoil l).count > 0))

/-- What becomes of a window's save: it is spilled, it waits for another package, or it fails. -/
inductive Saved where
  | done
  | waits
  | fails (e : SpoilFail)
  deriving DecidableEq, Repr

/-- Spill one partial window, as the group that `focus` names; slots at or above COUNT are written as 0. -/
def State.spillWindow (s : State) (gi l : Nat) : State × Saved :=
  let sp := sget {} s.own.spoil l
  if s.ownTeam.spillBase = 0 then (s, .fails (spillFail 0 false 0)) else
  let a := s.blockAddr gi l sp.nb
  match s.blockXlat a false with
  | (s1, .error cause) => (s1, .fails (spillFail cause false a))
  | (s1, .ok x) =>
    let w : Spill := ⟨l, a, x, sp.window.take sp.count⟩
    let far := if s1.isRemote x.pa then s1.sendSpills [w] else if s1.veiledCore s1.focus.core then (s1, false, [])
      else (s1.writeSpill w, true, [])
    if !far.2.1 then (far.1, .waits) else
    let s2 := far.1.farDone s.wordReader
    match far.2.2 with
    | e :: _ => (s2, .fails e.2)
    | [] => (s2.modOwn (fun g => { g with spoil := smod l (fun p => { p with loaded := false, window := [] }) g.spoil }), .done)

/-- Spill the partial windows of a team in order, until one waits or fails (R233): its group and lane. -/
def State.spillTeam (s : State) (c t : Nat) (m : Team) : State × Nat × Nat × Saved :=
  (m.groups.flatMap (fun e => e.2.partials.map (fun l => (e.1, l)))).foldl
    (fun (r : State × Nat × Nat × Saved) e =>
      if r.2.2.2 ≠ .done then r else
      let q := ({ r.1 with focus := { core := c, team := t, group := e.1 } } : State).spillWindow e.1 e.2
      (q.1, e.1, e.2, q.2)) (s, 0, 0, .done)

/-- The team's groups have stopped, and no operation that runs to its end before the save is under way. -/
def State.mayLeave (s : State) (c : Nat) (m : Team) : Bool :=
  m.groups.all (fun e => (e.2.stop.isSome || e.2.exited = 0xFFFFFFFF) && e.2.storeQ = [] && e.2.loads = [])
    && ((s.core c).haul.filter (fun o => o.grid = m.gridSlot)).all (fun o => o.posts = [] && !s.haulRuns c o && !s.haulOver o)
    && (!m.ownsAshlar || (s.core c).ash.queue = []) && m.quarry.all (fun o => o.stopped.isSome)
    && !s.services.any (fun v => v.what = .spoilSave c m.gridSlot)

/-- The team is out: it leaves its slot with its image written. -/
def State.leave (s : State) (c t : Nat) (m : Team) (wb : Bool) (handles : List FutureRef) : State :=
  let hauls := (s.core c).haul.filter (fun o => o.grid = m.gridSlot)
  let ash := (s.core c).ash
  let tab := s.ftabFields m
  let s1 := (tab.1.saveImage m t hauls ash wb).imageWrite m.context (fieldBytes m.image tab.2) []
  let m1 : Team := { m with residency := .out wb, ashSaved := if m.ownsAshlar then some ash else none }
  let s2 := s1.modCore c (fun k => { k with
    teams := (sdel t k.teams).map (fun e => (e.1, e.2.wake))
    haul := k.haul.map (fun o => if o.grid = m.gridSlot then { o with saved := true } else o)
    ash := if m.ownsAshlar then {} else k.ash
    slots := k.slots.map (fun e => (e.1, { e.2 with
      cur := if e.2.cur.map (·.1) = some t then none else e.2.cur
      capture := if e.2.capture.map (·.1) = some t then none else e.2.capture })) })
  let s3 := ({ s2 with away := s2.away ++ [m1] } : State).setReg (offCore c + 0x340 + 8 * t) 0
  let s4 := handles.foldl (fun s r => s.resolve r (statusWord 0 6 0)) s3
  ((s4.farForget c m (hauls.map (·.id))).endPreempt m.context).settleAway c m.gridSlot

/-- A switch-out goes on: its groups are asked to stop, and once nothing stands in the way the windows are spilled and the
team leaves. -/
def State.outStep (s : State) (c t : Nat) : State :=
  let s1 := s.modTeam c t (Team.mapGroups Group.askStop)
  match s1.team? c t with
  | none => s
  | some m =>
    match m.residency with
    | .leaving wb handles =>
      if !s1.mayLeave c m then s1 else
      let r := s1.spillTeam c t m
      let s2 := { r.1 with focus := s.focus }
      match r.2.2.2 with
      | .waits => s2
      | .fails e =>
        s2.record {
          context := m.context, code := e.code, unit := c, team := t, group := r.2.1, lanes := laneBit r.2.2.1, kind := 2
          access := e.access, addr := BitVec.ofNat 64 e.addr, info := BitVec.ofNat 32 e.info } (some (.spoilSave c m.gridSlot))
      | .done => s2.leave c t ((s2.team? c t).getD m) wb handles
    | _ => s

/-- R44, R422 PREEMPTION: the switch-out of a team goes on. -/
def execPreemption (s : State) : Host.Outcome State Fault Refusal := .next (s.outStep s.focus.core s.focus.team)

/-- The shape of CTXSW, DIR 0 (R421). -/
def ctxswOutShape (f : Full) : Shape :=
  let a := asyncA f
  { op := 0xE3, priv := true, dst := some (asyncD f), srcs := [a], bad := [(0, f.fn.toNat > 3)] }

/-- R421 CTXSW, DIR 0. -/
def execCtxswOut (f : Full) (s : State) : Host.Outcome State Fault Refusal :=
  let a := asyncA f
  issue (ctxswOutShape f) f s (fun s act =>
    match s.poisonTrap [a] act with
    | some t => .trap t
    | none => s.released act true 6 (fun s =>
      let t := bits (s.src f a).toNat 0 3
      let c := s.focus.core
      let wb := f.fn.getLsbD 1
      if (sfind t (s.core c).teams).isNone then .trap { code := 0x02, info := 2 } else
      match handleReg f with
      | none => .retire { s := (s.beginOut c t wb none).outStep c t }
      | some d =>
        match s.allocFuture 6 (some d) 6 with
        | none => .wait s
        | some (h, s1) => .retire { s := (s1.beginOut c t wb (some (s1.ownRef h))).outStep c t }))

/-! ## Switching in (R421, R422) -/

/-- The switched-out team of a grid on a core. -/
def State.awayTeam (s : State) (c grid : Nat) : Option Team := s.away.find? (fun m => m.core = c ∧ m.gridSlot = grid)

/-- A team whose switch-out wrote its lines back takes its state from its image. -/
def State.returning (s : State) (m : Team) : Team :=
  let m1 : Team := match m.residency with
    | .out true => s.loadTeam m
    | _ => m.mapGroups Group.reloadSpoil
  { (m1.mapGroups (fun g => match g.stop with
      | some .switchedOut => g.resumed s.clock
      | _ => g)) with residency := .resident, joinParked := false, joinReady := false }

/-- The team is in: everything is restored before its groups issue. -/
def State.enter (s : State) (c t : Nat) (m : Team) (handle : Option FutureRef) : State :=
  let m1 := s.returning m
  let arrived : State := s.poisonIn c (if m.residency = .out true then s.imagePoisoned m else 0)
  let s1 : State := { arrived with away := s.away.filter (fun x => !(x.core = c && x.gridSlot = m.gridSlot)) }
  let hauls := (s.core c).haul.filter (fun o => o.grid = m.gridSlot)
  let count (o : HaulOp) : Nat := match m.residency with
    | .out true => bits (s.imageGet m.image (0x120 + 48 * (hauls.findIdx (· = o))) 8) 0 60
    | _ => o.count
  let s2 := s1.modCore c (fun k => { k with
    haul := k.haul.map (fun o => if o.grid = m.gridSlot then { o with
      saved := false, count := count o, early := [], ahead := if count o = o.count then o.ahead else [] } else o)
    ash := m1.ashSaved.getD k.ash })
  let s3 := (s2.seat c t { m1 with ashSaved := none }).imageWrite m.context (fieldBytes m.image [img8 0 (m.thdrId t)]) []
  let s4 := match handle with
    | some r => s3.resolve r (statusWord 0 6 0)
    | none => s3
  (s4.trimRegs c t (m.residency ≠ .out true)).settle c t

/-- The core admits a team that comes back. -/
def State.admitsBack (s : State) (c : Nat) (m : Team) : Bool :=
  s.admits c m.context m.gridSlot m.groups.length m.regBytes m.scratchSize m.ownsAshlar

/-- Try one switch-in that waits. -/
def State.tryIn (s : State) (w : SwitchIn) : State :=
  let rest : State := { s with switchIns := s.switchIns.filter (· ≠ w) }
  match s.awayTeam w.core w.grid with
  | none => (w.handle.map (fun r => rest.resolve r (statusWord 0 6 0))).getD rest
  | some m =>
    if s.admitsBack w.core m ∧ (sfind w.slot (s.core w.core).teams).isNone then rest.enter w.core w.slot m w.handle else s

/-- A switch-in is requested, and done at once when its team may come back. -/
def State.inStart (s : State) (c t grid : Nat) (h : Option Word) : State :=
  let w : SwitchIn := { core := c, slot := t, grid := grid, handle := h.map s.ownRef }
  ({ s with switchIns := s.switchIns ++ [w] } : State).tryIn w

/-- The shape of CTXSW, DIR 1 (R421). -/
def ctxswInShape (f : Full) : Shape :=
  let a := asyncA f
  let b := asyncB f
  { op := 0xE3, priv := true, dst := some (asyncD f), srcs := [a, b], bad := [(0, f.fn ≠ 1)] }

/-- R421 CTXSW, DIR 1. -/
def execCtxswIn (f : Full) (s : State) : Host.Outcome State Fault Refusal :=
  let a := asyncA f
  let b := asyncB f
  issue (ctxswInShape f) f s (fun s act =>
    match s.poisonTrap [a, b] act with
    | some t => .trap t
    | none => s.released act true 6 (fun s =>
      let c := s.focus.core
      let t := bits (s.src f b).toNat 0 3
      match s.away.find? (fun m => m.image = (s.src f a).toNat ∧ m.core = c) with
      | none => .trap { code := 0x02, info := 2 }
      | some m =>
        if (sfind t (s.core c).teams).isSome then .trap { code := 0x02, info := 3 }
        else
          match handleReg f with
          | none => .retire { s := s.inStart c t m.gridSlot none }
          | some d =>
            match s.allocFuture 6 (some d) 6 with
            | none => .wait s
            | some (h, s1) => .retire { s := s1.inStart c t m.gridSlot (some h) }))

/-- R94, R417 TEAM_PLACE: a core takes a team that waits to be switched in, or one of a grid's that it admits. -/
def execTeamPlace (s : State) : Host.Outcome State Fault Refusal :=
  let c := s.focus.core
  let back := s.switchIns.filter (fun w => w.core = c)
  let s1 := back.foldl State.tryIn s
  if s1.switchIns ≠ s.switchIns then .next s1 else
  let gs := s.placeable c
  match gs[s.focus.number % max 1 gs.length]? with
  | some g => .next (s.place c g)
  | none => .next s

/-! ## Join parking (R416) -/

/-- Every live group waits at a JOINC whose operation runs. -/
def Team.joinsOnly (m : Team) : Bool :=
  m.groups.any (fun e => e.2.exited ≠ 0xFFFFFFFF) && m.groups.all (fun e =>
    e.2.exited = 0xFFFFFFFF || (e.2.stop.isNone && e.2.live ≠ 0 && e.2.live &&& ~~~ (e.2.waiting &&& e.2.joining) = 0))

/-- R416 JOIN_PARK: a join-parked team is switched out, and back in once one of the awaited operations has completed and the
core admits it. -/
def execJoinPark (s : State) : Host.Outcome State Fault Refusal :=
  let c := s.focus.core
  let t := s.focus.team
  match s.away.find? (fun m => m.core = c && m.joinParked && m.joinReady && s.admitsBack c m) with
  | some m =>
    match s.pick (s.freeSeats c) with
    | (some seat, s1) => .next (s1.enter c seat m none)
    | (none, _) => .next s
  | none =>
    match sfind t (s.core c).teams with
    | some m =>
      if m.residency = .resident ∧ m.joinsOnly then
        .next (((s.modTeam c t (fun m => { m with joinParked := true, joinReady := false })).beginOut c t false none).outStep c t)
      else .next (s.outStep c t)
    | none => .next s

/-! ## Images of teams that are out -/

/-- A scalar register that has taken a status word while its team was out stands in its image too (R422), as does a PCV that service
has moved past its word (R420). -/
def State.syncGroup (m : Team) (gi : Nat) (old new : Group) (s : State) : State :=
  let b := m.image + recordOff gi + 0x8000
  let rs := (List.range 128).filter (fun n => old.s n ≠ new.s n)
  let ls := (List.range 32).filter (fun l => old.pc l ≠ new.pc l)
  if rs = [] ∧ ls = [] ∧ old.spend = new.spend then s else
  s.imageWrite m.context (fieldBytes b (rs.map (fun n => img8 (8 * n) (new.s n)) ++ ls.map (fun l => img8 (0x400 + 8 * l) (new.pc l))
    ++ [img8 0x748 (new.spend.setWidth 64), img8 0x750 (new.spend.extractLsb' 64 64)])) []

/-- Bring the images of switched-out teams up to date after a step. -/
def State.syncAway (old s : State) : State :=
  s.away.foldl (fun (t : State) m =>
    match old.awayTeam m.core m.gridSlot with
    | none => t
    | some o => m.groups.foldl (fun (t : State) e =>
        match sfind e.1 o.groups with
        | some g => t.syncGroup m e.1 g e.2
        | none => t) t) s

end Sys2Proof.Machine
end

