-- ==== Sys2Proof/Machine/Snap.lean ====
section
/-! DEFINITION. What a read of management space finds (R6, R406), and the snapshot trigger with its banks (R63 to R67, R427,
R431). -/

namespace Sys2Proof.Machine

open Sys2Proof

/-! ## Reading registers -/

/-- What a core register reads: ORT_USED is counted (R136). -/
def State.coreView (s : State) (c o : Nat) : Word :=
  let w := s.reg (offCore c + o)
  if o = 0x188 then withField w 0 11 (s.core c).ortUsed else w

/-- What a port register reads (R373). -/
def State.portView (s : State) (p o : Nat) : Word :=
  let w := s.portReg p o
  let open_ := (s.port p).outstanding
  if o = 0x008 then withField w 16 10 open_.length
  else if o = 0x010 then withField w 5 1 (if (s.port p).remap.isSome then 1 else 0)
  else if 0x020 ≤ o ∧ o < 0x060 then 0
  else if o = 0x0A0 then BitVec.ofNat 64 (open_.filter (fun r => r.postedNo.isSome)).length
  else w

/-- What a sequencer register reads (R401): slot registers stand in the slots. -/
def State.lnView (s : State) (p o : Nat) : Word :=
  let t := s.slot p ((o - 0x1000) / 0x400)
  let r := (o - 0x1000) % 0x400
  if 0x180 ≤ o ∧ o < 0x1C0 then s.slotWord p ((o - 0x180) / 8)
  else if 0x1000 ≤ o ∧ o < 0x3000 then
    if r < 0x80 then sget 0 t.creg (r / 8)
    else if 0x100 ≤ r ∧ r < 0x300 then (sget 0 t.flags ((r - 0x100) / 8)).setWidth 64
    else if r = 0x300 then t.xf.setWidth 64
    else 0
  else s.reg (offLn p + o)

/-- What a front-end register reads (R425); FE_CLAIM is read by its own row. -/
def State.feView (s : State) (o : Nat) : Word :=
  if o = 0x050 then withField (s.reg (offFe + o)) 0 13 s.pool.length else s.reg (offFe + o)

/-- What a read of management space at a multiple of 8 finds. Write-only registers and reserved offsets read 0. -/
def State.regView (s : State) (o : Nat) : Word :=
  if o < offCore 96 then s.coreView (o / 0x10000) (o % 0x10000)
  else if offFz ≤ o ∧ o < offFe then
    if o = offFz + 0x10 then BitVec.ofNat 64 s.ftime else s.reg o
  else if offFe ≤ o ∧ o < offPwr then s.feView (o - offFe)
  else if offPort 0 ≤ o ∧ o < offPort 16 then s.portView ((o - offPort 0) / 0x1000) (o % 0x1000)
  else if offLn 0 ≤ o ∧ o < offLn 16 then s.lnView ((o - offLn 0) / 0x10000) (o % 0x10000)
  else if offCtx 0 ≤ o ∧ o < offCtx 64 ∧ 0x900 ≤ o % 0x1000 ∧ o % 0x1000 < 0xB00 then
    s.kdestWord ((o - offCtx 0) / 0x1000) ((o % 0x1000 - 0x900) / 32) (o % 32 / 8)
  else if offBank 0 ≤ o then sget 0 s.banks (o - offBank 0)
  else s.reg o ||| ((mgmtReg o).getD {}).ones

/-! ## Banks (R431) -/

/-- The offsets of the RO and RC registers that the bank of a kind copies, by the first bank number of the kind: cores,
LLC slices, Keystone stations, Quarry units, ports, sequencers, the dispenser, Grout units, the front end. -/
def bankRegs (first : Nat) : List Nat :=
  match first with
  | 0 => [0x188, 0x208, 0x210, 0x248, 0x318, 0x320] ++ (List.range 8).map (fun t => 0x340 + 8 * t)
  | 96 => [0x008]
  | 480 => [0x008]
  | 1504 => [0x008, 0x068, 0x070, 0x078, 0x080, 0x088, 0x098, 0x0A0]
  | 1520 => 0x018 :: (List.range 8).map (fun i => 0x180 + 8 * i)
  | 1561 => [0x008, 0x010, 0x020, 0x038, 0x040, 0x050]
  | _ => []

/-- The first bank of each kind, how many there are, and where the block of its first one stands, with the distance to the
next. The LLC slices share the LLC control block, and the Quarry units the Quarry control block. -/
def bankKinds : List (Nat × Nat × Nat × Nat) :=
  [(0, 96, offCore 0, 0x10000), (96, 256, offLlc, 0), (352, 128, 0, 0), (480, 1024, offQry, 0), (1504, 16, offPort 0, 0x1000),
    (1520, 16, offLn 0, 0x10000), (1536, 1, 0, 0), (1537, 24, 0, 0), (1561, 1, offFe, 0)]

/-- The words of one bank. -/
def State.bankWords (s : State) (seq first base : Nat) : List Word :=
  let rs := bankRegs first
  BitVec.ofNat 64 (rs.length + (Config.bankKind first).toNat * 2 ^ 16 + seq % 2 ^ 32 * 2 ^ 32)
    :: rs.map (fun r => s.regView (base + r))

/-- Every bank latches. -/
def State.latchBanks (s : State) (seq : Nat) : State :=
  bankKinds.foldl (fun (t : State) k =>
    (List.range k.2.1).foldl (fun (t : State) i =>
      let ws := (s.bankWords seq k.1 (k.2.2.1 + i * k.2.2.2)).zipIdx
      { t with banks := ws.foldl (fun b e => sput 0 b (0x1000 * (k.1 + i) + 8 * e.2) e.1) t.banks }) t) s

/-! ## The trigger (R64 to R67) -/

/-- LATE tells of the last fabric trigger, also when it is merged or refused; another source leaves it (R64). -/
def State.noteLate (s : State) (source : Nat) (late : Bool) : State :=
  if source = 2 then s.setReg (offSnap + 0x10) (withField (s.reg (offSnap + 0x10)) 3 1 (if late then 1 else 0)) else s

/-- What a trigger did. -/
structure Triggered where
  s : State
  latched : Bool

/-- A trigger of a source (0 instruction, 1 host, 2 fabric, 3 pin). -/
def State.trigger (s0 : State) (source : Nat) (late : Bool := false) : Triggered :=
  let ctrl := s0.reg offSnap
  let merged := (s0.lastLatch.map (fun t => decide (s0.uncore ≤ t + 64))).getD false
  if !ctrl.getLsbD source then ⟨s0, false⟩ else
  let s := s0.noteLate source late
  let st := s.reg (offSnap + 0x10)
  if merged then ⟨s, false⟩
  else if ctrl.getLsbD 4 && st.getLsbD 0 then ⟨s.incReg (offSnap + 0x20), false⟩
  else
    let seq := (bits st.toNat 32 32 + 1) % 2 ^ 32
    let s1 := s.latchBanks seq
    let word := BitVec.ofNat 64 (1 + source * 2 + (if st.getLsbD 3 then 8 else 0) + seq * 2 ^ 32)
    let s2 := (s1.setReg (offSnap + 0x10) word).setReg (offSnap + 0x18) (BitVec.ofNat 64 s.ftime)
    ⟨{ s2 with lastLatch := some s.uncore, snapOut := if ctrl.getLsbD 5 then s.snapOut + 1 else s.snapOut }, true⟩

/-- The shape of SNAP (R427). -/
def snapShape (f : Full) : Shape :=
  { op := 0xE2, dst := some (useD f .dstScalar), bad := [(0, f.fn ≠ 0)] }

/-- R427 SNAP. -/
def execSnap (f : Full) (s : State) : Host.Outcome State Fault Refusal :=
  issue (snapShape f) f s (fun s _ =>
    let t := s.trigger 0
    let seq := bits (t.s.reg (offSnap + 0x10)).toNat 32 32
    .retire { s := t.s, result := some { vals := [(0, BitVec.ofNat 64 ((if t.latched then 1 else 0) + seq * 2 ^ 32))] } })

/-- R64 SNAP_FIRE. -/
def execSnapFire (s : State) : Host.Outcome State Fault Refusal := .next (s.trigger 1).s

/-- Writing 1 to FULL re-arms the banks (R64). -/
def State.clearFull (s : State) : State := s.setReg (offSnap + 0x10) (s.reg (offSnap + 0x10) &&& ~~~ (1 : Word))

/-- R64 SNAP_STATUS_FULL_CLEAR. -/
def execSnapStatusFullClear (s : State) : Host.Outcome State Fault Refusal := .next s.clearFull

/-- R67 SNAP_IN_EDGE. -/
def execSnapInEdge (s : State) : Host.Outcome State Fault Refusal := .next (s.trigger 3).s

/-- R66 SNAP_PACKET_DUE: the input brings a packet's due time; a packet that is not due waits, and latches at a later turn of
this row without LATE. -/
def execSnapPacketDue (s : State) : Host.Outcome State Fault Refusal :=
  match s.input with
  | .word w =>
    if s.ftime ≥ w.toNat then .next (s.trigger 2 (decide (s.ftime > w.toNat))).s
    else .next { s with snapDue := s.snapDue ++ [w.toNat] }
  | _ =>
    match s.snapDue.find? (fun d => decide (d ≤ s.ftime)) with
    | some d => .next (({ s with snapDue := dropFirst (· = d) s.snapDue } : State).trigger 2).s
    | none => .next s

end Sys2Proof.Machine
end

