-- ==== Sys2Proof/Machine/Manage.lean ====
section
/-! DEFINITION. Reads and writes of management space (R6, R7, R406) with what each register starts, and what the host does through its
windows (R407) and its link (R142); scratchpad partitions (R136) and evictions (R132, R138). -/

namespace Sys2Proof.Machine

open Sys2Proof

/-! ## Reads (R6) -/

/-- A read of a management register: FE_CLAIM gives a ticket, an RC register is cleared. -/
def State.mgmtRead (s : State) (o : Nat) : State × Word :=
  if o = offFe + 0x10 then s.claim
  else if ((mgmtReg o).map (·.rc)).getD false then (s.setReg o 0, s.reg o)
  else (s, s.regView o)

/-- What BAR0 of a function holds at an offset (R407). -/
inductive Bar0 where
  | register (offset : Nat)
  | kick (queue register : Nat)
  | msixWord (index : Nat)
  | nothing
  deriving DecidableEq, Repr

/-- The register of a queue that stands at an offset of its kick page: UQ_WPTR, and the mirrors of UQ_RPTR and UQ_STATUS (R407). -/
def kickRegister (n : Nat) : Option Nat :=
  match n with
  | 0x000 => some 0x10
  | 0x008 => some 0x18
  | 0x010 => some 0x28
  | _ => none

/-- The 8 bytes at offset `n` of BAR0 of virtual function `v`, 0 for the physical function: the kick pages, those of its own
queues for a virtual function; and of the physical function the MSI-X table (R408) and the window of 16 MiB, which starts at
FE_MGMTWIN (R407, R425). -/
def State.bar0 (s : State) (v n : Nat) : Bar0 :=
  if n < 0x100000 then
    let q := n / 0x1000
    match kickRegister (n % 0x1000 / 8 * 8) with
    | some r => if v = 0 ∨ s.regBits (offCtx (s.uqCtx q) + 0x30) 0 6 = v then .kick q r else .nothing
    | none => .nothing
  else if v = 0 ∧ 0x200000 ≤ n ∧ n < 0x200020 then .msixWord ((n - 0x200000) / 8)
  else if v = 0 ∧ 2 ^ 24 ≤ n ∧ n < 2 ^ 25 then .register ((s.regBits (offFe + 0x60) 24 8 * 2 ^ 24 + n % 2 ^ 24) / 8 * 8)
  else .nothing

/-- The host reaches management space through BAR0 of the physical function as master 0x00 (R407, R430). -/
def State.hostAdmit (s : State) (acc o : Nat) : State × Bool := s.admitOne 0 acc (0xC000000000 + o) true

/-- A kick page lies in management space, and table 48 grants or refuses it: to master 0x00, or through a virtual function to
master kind 0 of the queue's context (R407, R413; log 50). -/
def State.kickAdmit (s : State) (v acc q r : Nat) : State × Bool :=
  s.admitOne (if v = 0 then 0 else masterId 0 (s.uqCtx q)) acc (0xC000000000 + offUq q + r) true

/-- A read of BAR0 of a function: its value, none when it is refused. -/
def State.bar0Read (s : State) (v n : Nat) : State × Option Word :=
  match s.bar0 v n with
  | .register o =>
    let a := s.hostAdmit 1 o
    if a.2 then ((a.1.mgmtRead o).1, some (a.1.mgmtRead o).2) else (a.1, none)
  | .kick q r =>
    let a := s.kickAdmit v 1 q r
    (a.1, if a.2 then some (a.1.uq q r) else none)
  | .msixWord k => (s, some (sget 0 s.msixTable k))
  | .nothing => (s, some 0)

/-- Item `n` of the identity that virtual function `v` presents, 0 for the physical function, in the order of R408's table; the
structure of the capabilities is open (log 50). -/
def State.pciItem (s : State) (v n : Nat) : State × Word :=
  let pf := decide (v = 0)
  match n with
  | 0 => (s, Config.vendorId.setWidth 64)
  | 1 => (s, if pf then 0x80 else 0x81)
  | 2 => (s, Config.subsystemId.setWidth 64)
  | 3 => (s, Config.revisionId.setWidth 64)
  | 4 => (s, 0x120000)
  | 5 => (s, BitVec.ofNat 64 (if pf then 2 ^ 25 else 2 ^ 20))
  | 6 => (s, BitVec.ofNat 64 ((if pf then s.bar2Size else s.vfBar2Size) * 2 ^ 30))
  | 7 => (s, 0)
  | _ => (s.draw.2, s.draw.1)

/-- Set the size of BAR2, in GiB, through the Resizable BAR capability of the physical function, or of all virtual functions
through theirs (R407, R408). -/
def State.resizeBar2 (s : State) (v gib : Nat) : State :=
  if !((List.range 9).map (2 ^ ·)).contains gib then s
  else if v = 0 then { s with bar2Size := gib }
  else if gib ≤ 64 then { s with vfBar2Size := gib } else s

/-- A read of the host at offset `n` of BAR0 of function `f`, or for `f` from 64 up of item `n` of the identity of function
`f - 64` (log 50). -/
def State.hostRead (s : State) (f n : Nat) : State × Option Word :=
  if f < 64 then s.bar0Read f n else ((s.pciItem (f - 64) n).1, some (s.pciItem (f - 64) n).2)

/-- R6 READ_CLEAR_REGISTER: a read of the host at `focus.number` of function `focus.index`, and its value. -/
def execReadClearRegister (s : State) : Host.Outcome State Fault Refusal :=
  match s.hostRead s.focus.index s.focus.number with
  | (s1, some w) => .next { s1 with hostData := bytesOfNat 8 w.toNat, hostPoisoned := false }
  | (s1, none) => .next { s1 with hostUnsupported := s1.hostUnsupported + 1 }

/-! ## Writes (R6, R7) -/

/-- Write a register whose fields only take values. -/
def State.plainWrite (s : State) (o : Nat) (w : Word) : State :=
  match mgmtReg o with
  | some r => s.setReg o (r.written (s.reg o) w)
  | none => s

/-- Write to an access table block (R58): a locked block ignores it; a rewritten table is trusted again (R55). -/
def State.atWrite (s : State) (o : Nat) (w : Word) : State :=
  let i := (o - offAt 0) / 0x4000
  if (s.reg (offAt i)).getLsbD 1 then s
  else { s.plainWrite o w with atBad := s.atBad.filter (· ≠ i) }

/-- Write to a port's block (R373). -/
def State.portWrite (s : State) (p o : Nat) (w : Word) : State :=
  match o with
  | 0x000 =>
    let was := (s.portReg p 0).getLsbD 0
    let s1 := s.plainWrite (offPort p) w
    if was && !w.getLsbD 0 then s1.linkDown p else s1
  | 0x010 => s.writeRemap p w
  | 0x060 => if w.getLsbD 0 then s.installKeys p else s
  | _ => s.plainWrite (offPort p + o) w

/-- Write to a sequencer's block (R401): slot registers stand in the slots. -/
def State.lnWrite (s : State) (p o : Nat) (w : Word) : State :=
  let i := (o - 0x1000) / 0x400
  let r := (o - 0x1000) % 0x400
  if o = 0x0008 then
    let s1 := s.plainWrite (offLn p + o) w
    if w.getLsbD 0 then s1 else s1.setField (offLn p + 0x18) 0 1 0
  else if o = 0x0010 then if w.getLsbD 0 then s.setField (offLn p + 0x18) 0 1 0 else s
  else if 0x100 ≤ o ∧ o < 0x140 then s.writeSlotcfg p ((o - 0x100) / 8) w
  else if 0x140 ≤ o ∧ o < 0x180 then
    let n := (o - 0x140) / 8
    let s1 := if w.getLsbD 0 then s.slotResume p n else s
    if w.getLsbD 1 then s1.slotAbort p n else s1
  else if 0x1000 ≤ o ∧ o < 0x3000 then
    if r < 0x80 then s.modSlot p i (fun t => { t with creg := sput 0 t.creg (r / 8) w })
    else if 0x100 ≤ r ∧ r < 0x300 then s.setFlag p i ((r - 0x100) / 8) true (w.setWidth 32)
    else if r = 0x300 then s.modSlot p i (fun t => { t with xf := w.setWidth 32 })
    else s
  else s.plainWrite (offLn p + o) w

/-- Write to the front-end block (R425). -/
def State.feWrite (s : State) (o : Nat) (w : Word) : State :=
  match o with
  | 0x000 => if w.getLsbD 3 then (s.plainWrite offFe w).boot else s.plainWrite offFe w
  | 0x018 => s.feResume w.toNat
  | _ => s.plainWrite (offFe + o) w

/-- Write to a user queue's block (R409). -/
def State.uqWrite (s : State) (q o : Nat) (w : Word) : State :=
  match o with
  | 0x000 => if s.uqOn q then s else s.plainWrite (offUq q) w
  | 0x008 => s.writeUqCfg q w
  | 0x010 => s.writeWptr q w.toNat
  | 0x038 =>
    let s1 := if w.getLsbD 0 then s.uqResume q else s
    if w.getLsbD 1 then s1.uqReset q else s1
  | _ => s.plainWrite (offUq q + o) w

/-- A write to word `i` of KDEST[e] of a context: bits reserved for the entry's KIND, in KD_CTRL for the KIND written, keep
their value (R7, R300). -/
def State.kdestWrite (s : State) (ctx e i : Nat) (w : Word) : State :=
  let o := offCtx ctx + 0x900 + 32 * e
  let m := kdestMask (some (bits (if i = 0 then w else s.reg o).toNat 0 2)) i
  s.setReg (o + 8 * i) ((s.reg (o + 8 * i) &&& ~~~ m) ||| (w &&& m))

/-- Write to a context block (R316, R418): PREEMPT of a context without a team to switch out clears at once. -/
def State.ctxWrite (s : State) (ctx o : Nat) (w : Word) : State :=
  if 0x900 ≤ o ∧ o < 0xB00 then s.kdestWrite ctx ((o - 0x900) / 32) (o % 32 / 8) w
  else (s.plainWrite (offCtx ctx + o) w).endPreempt ctx

/-- A write to management space at a multiple of 8. PWR_LIMIT of an XK80-M is read-only (R433). -/
def State.mgmtWrite (s : State) (o : Nat) (w : Word) : State :=
  if o = offSnap + 0x008 then (if w.getLsbD 0 then (s.trigger 1).s else s)
  else if o = offFz + 0x020 then s.sendSnap w.toNat
  else if o = offPwr ∧ s.regBits (offPwr + 0x18) 16 2 = 2 then s
  else if o < offCore 96 ∧ o % 0x10000 = 0x180 then
    (s.plainWrite o w).modCore (o / 0x10000) (fun k => { k with spWritten := true })
  else if offFe ≤ o ∧ o < offPwr then s.feWrite (o - offFe) w
  else if offUq 0 ≤ o ∧ o < offUq 256 then s.uqWrite ((o - offUq 0) / 0x1000) (o % 0x1000) w
  else if offPort 0 ≤ o ∧ o < offPort 16 then s.portWrite ((o - offPort 0) / 0x1000) (o % 0x1000) w
  else if offLn 0 ≤ o ∧ o < offLn 16 then s.lnWrite ((o - offLn 0) / 0x10000) (o % 0x10000) w
  else if offCtx 0 ≤ o ∧ o < offCtx 64 then s.ctxWrite ((o - offCtx 0) / 0x1000) (o % 0x1000) w
  else if offAt 0 ≤ o ∧ o < offAt 1217 then s.atWrite o w
  else s.plainWrite o w

/-- A write to BAR0 of a function. -/
def State.bar0Write (s : State) (v n : Nat) (w : Word) : State :=
  match s.bar0 v n with
  | .register o =>
    let a := s.hostAdmit 2 o
    if a.2 then a.1.mgmtWrite o w else a.1
  | .kick q r =>
    if r ≠ 0x10 then s else
    let a := s.kickAdmit v 2 q r
    if a.2 then a.1.writeWptr q w.toNat else a.1
  | .msixWord k => { s with msixTable := sput 0 s.msixTable k w }
  | .nothing => s

/-- A write of the host at offset `n` of BAR0 of function `f`, or for `f` from 64 up to item `n` of the identity of function
`f - 64`: the size of BAR2 can be set (log 50). -/
def State.hostWrite (s : State) (f n : Nat) (w : Word) : State :=
  if f < 64 then s.bar0Write f n w else if n = 6 then s.resizeBar2 (f - 64) w.toNat else s

/-- R6 REGISTER_WRITE: a write of the host, with the input, at `focus.number` of function `focus.index`. -/
def execRegisterWrite (s : State) : Host.Outcome State Fault Refusal :=
  match s.input with
  | .word w => .next (s.hostWrite s.focus.index s.focus.number w)
  | _ => .next s

/-! ## The host (R142, R407) -/

/-- The host's request is completed with Unsupported Request. -/
def State.unsupported (s : State) : State := { s with hostUnsupported := s.hostUnsupported + 1 }

/-- R407 HOST_BAR2_ACCESS, master 0x00: a read of poisoned memory completes with the EP bit set (R164). -/
def execHostBar2Access (s : State) : Host.Outcome State Fault Refusal :=
  match s.input with
  | .host h =>
    let n := (h.data.map List.length).getD h.count
    let addrs := (List.range n).map (h.address + ·)
    if addrs.any (fun a => decide (a ≥ s.bar2Size * 2 ^ 30 ∨ region a ≠ .dram)) then .next s.unsupported else
    let q := s.admitAll 0 (if h.data.isSome then 2 else 1) addrs false
    if !q.2 then .next q.1.unsupported else
    match h.data with
    | some bs => .next ((q.1.poke false false (addrs.zip bs) []).takeHeaders (addrs.zip bs))
    | none =>
      let r := q.1.peeks false h.address n
      .next { q.1 with hostData := r.1, hostPoisoned := r.2 }
  | _ => .next s

/-- The lowest-numbered context bound to a virtual function. -/
def State.vfContext (s : State) (v : Nat) : Option Nat := (List.range 64).find? (fun x => s.regBits (offCtx x + 0x30) 0 6 = v)

/-- R407 VF_BAR2_ACCESS: virtual function `focus.number`, master kind 0 of its context. -/
def execVfBar2Access (s : State) : Host.Outcome State Fault Refusal :=
  match s.input with
  | .host h =>
    let n := (h.data.map List.length).getD h.count
    match s.vfContext s.focus.number with
    | none => .next s.unsupported
    | some x =>
      if s.focus.number = 0 ∨ h.address + n > s.vfBar2Size * 2 ^ 30 then .next s.unsupported else
      match h.data with
      | some bs =>
        let a := s.engineAdmit 0 x (bs.zipIdx.map (fun e => (h.address + e.2, e.1, false)))
        .next (if a.paused then a.s else if a.fail.isSome then a.s.unsupported
          else (a.s.emit (.frontEnd 0) x (n + 1) a.out).1)
      | none =>
        let r := s.engineReadRun 0 x h.address n (.virtual s.focus.number)
        .next (if r.paused then r.s else if r.fail.isSome then r.s.unsupported
          else { r.s with hostData := r.bytes.map (·.1), hostPoisoned := r.bytes.any (·.2) })
  | _ => .next s

/-- A posted write of the host link is complete. -/
def State.hostAcked (s : State) (e : Nat × Issuer) : State :=
  match e.2 with
  | .store _ _ _ _ _ _ => s.addPosted e.2 (-1)
  | .haul c id => s.haulAck c id (16, e.1)
  | .keystone n => s.ksAck n none
  | .grout q x y z => s.groutAck q x y z (16, e.1) false
  | _ => s

/-- R142 ZERO_LENGTH_READ_COMPLETION: the posted writes up to number `focus.number`, behind which the read was issued, are
complete; event records among them are confirmed. -/
def execZeroLengthReadCompletion (s : State) : Host.Outcome State Fault Refusal :=
  let n := s.focus.number
  let done := s.hostPosted.filter (fun e => decide (e.1 ≤ n))
  let events := s.evConfirm.filter (fun k => decide (k ≤ n))
  let s1 : State := { s with
    hostPosted := s.hostPosted.filter (fun e => decide (n < e.1)), evConfirm := s.evConfirm.filter (fun k => decide (n < k)) }
  let tail := ((s.feReg 0x38).toNat + events.length) % 2 ^ 32
  .next (done.foldl State.hostAcked (s1.setFeReg 0x38 (BitVec.ofNat 64 tail))).wakeAll

/-! ## Partitions and evictions -/

/-- R136 SP_STEPS_TAKE_EFFECT. -/
def execSpStepsTakeEffect (s : State) : Host.Outcome State Fault Refusal :=
  let c := s.focus.core
  let n := min 6 (s.regBits (offCore c + 0x180) 0 3)
  if (s.core c).teams = [] ∧ (s.core c).spWritten then
    .next (s.modCore c (fun k => { k with spSteps := n, spWritten := false, l1 := [] }))
  else .next s

/-- R132 LLC_LINE_EVICTION of line `focus.number`. -/
def execLlcLineEviction (s : State) : Host.Outcome State Fault Refusal := .next (s.evictLine s.focus.number)

/-- R138 L1_LINE_EVICTION of key `focus.number`: of the L1, or with `focus.index` 1 of the instruction cache. -/
def execL1LineEviction (s : State) : Host.Outcome State Fault Refusal :=
  .next (s.modCore s.focus.core (fun k =>
    if s.focus.index = 1 then { k with icache := sdel s.focus.number k.icache } else { k with l1 := sdel s.focus.number k.l1 }))

end Sys2Proof.Machine
end

