-- ==== Sys2Proof/Machine/Perform.lean ====
section
/-! DEFINITION. What accesses do when they perform (R32 to R35, R140 to R147, R152, R161, R164): stores that leave their queue, loads and
atomics whose values return, and wide releases. Also the register cache (R21), MWAIT (R158 to R160), and the loads and stores of
the firmware slot at physical addresses (R429). -/

namespace Sys2Proof.Machine

open Sys2Proof

/-! ## Stores (R140, R146) -/

/-- The byte of a store word at place `k` may perform by itself: it is not of an aligned lane, and no earlier one has its address
(R31). -/
def StoreEntry.loose (e : StoreEntry) (k : Nat) (b : Nat × Byte) : Bool :=
  !e.drop && e.byLane.any (fun l => l.2 % e.size ≠ 0)
    && e.byLane.all (fun l => l.2 % e.size ≠ 0 || !decide (l.2 ≤ b.1 ∧ b.1 < l.2 + e.size))
    && (e.bytes.take k).all (fun x => x.1 ≠ b.1)

/-- One such byte as a store of its own. -/
def StoreEntry.one (e : StoreEntry) (b : Nat × Byte) : StoreEntry :=
  let lane := ((e.byLane.find? (fun l => decide (l.2 ≤ b.1 ∧ b.1 < l.2 + e.size))).or (e.byLane.find? (fun l => l.2 % e.size ≠ 0))).elim 0 (·.1)
  { e with bytes := [b], poison := e.poison.filter (· = b.1), size := 1, byLane := [(lane, b.1)] }

/-- What of a store word is left when it has performed. -/
def StoreEntry.without (e : StoreEntry) (k : Nat) (b : Nat × Byte) : StoreEntry :=
  { e with bytes := e.bytes.eraseIdx k, poison := e.poison.filter (· ≠ b.1) }

/-- The store at the head of the queue may perform: earlier loads of its space have returned, as has every earlier acquire; before a
release, every earlier load (R34, R35). -/
def Group.mayStore (g : Group) (e : StoreEntry) : Bool :=
  g.loads.all (fun l => decide (l.seq > e.seq) || (!e.release && !l.acquire && l.scratch != e.scratch))

/-- The lanes of a store word that touch one of these granules. -/
def StoreEntry.lanesOf (e : StoreEntry) (granules : List Nat) : Lanes :=
  let hit := lanesWhere (fun l => e.byLane.any (fun b =>
    b.1 = l && granules.any (fun g => decide (64 * g < b.2 + e.size ∧ b.2 < 64 * g + 64))))
  if hit = 0 then lanesWhere (fun l => e.byLane.any (fun b => b.1 = l)) else hit

/-- Lanes of a store that a target refused. -/
def State.storeDenied (s : State) (e : StoreEntry) (code : Nat) (info : W32) (granules : List Nat) : State :=
  match granules with
  | [] => s
  | g :: _ => s.report {
      code := code, core := s.focus.core, grid := s.ownTeam.gridSlot, group := s.focus.group, pc := e.pc
      address := max (64 * g) ((e.bytes.filter (fun b => b.1 / 64 = g)).foldl (fun m b => min m b.1) (64 * g + 63))
      lanes := e.lanesOf granules, info := info, access := 2, scope := e.scope }

/-- Each granule of a store is checked once at its target (log 70): the bytes of those that are permitted, and the granules
refused. -/
def State.storeAdmit (s : State) (e : StoreEntry) : State × List Nat :=
  ((e.bytes.map (fun b => b.1 / 64)).eraseDups).foldl (fun (r : State × List Nat) g =>
    let a := match region (localOf (64 * g)) with
      | .mgmt => ((e.bytes.find? (fun b => b.1 / 64 = g)).map (·.1)).getD (64 * g)
      | _ => 64 * g
    let q := r.1.admitOne (masterId 0 e.context) 2 (localOf a) e.uc
    (q.1, if q.2 then r.2 else r.2 ++ [g])) (s, [])

/-- The stores of a word to management space, 8 bytes a lane. -/
def State.storeMgmt : Nat → List (Nat × Byte) → State → State
  | 0, _, s => s
  | _, [], s => s
  | n + 1, b :: bs, s =>
    State.storeMgmt n ((b :: bs).drop 8) (s.mgmtWrite (localOf b.1 - 0xC000000000) (word8 (((b :: bs).take 8).map (·.2))))

/-- The accesses of a store word that perform with these bytes (R31, R161): lane, addresses, size. Of an aligned lane it is one; of the
others it is one for each byte. -/
def StoreEntry.units (e : StoreEntry) (bs : List (Nat × Byte)) : List (Nat × List Nat × Nat) :=
  let whole := e.byLane.filter (fun l => l.2 % e.size = 0)
  let loose := bs.filter (fun b => !whole.any (fun l => decide (l.2 ≤ b.1 ∧ b.1 < l.2 + e.size)))
  (whole.filter (fun l => bs.any (fun b => b.1 = l.2))).map (fun l => (l.1, [l.2], e.size))
    ++ ((loose.map (·.1)).eraseDups).map (fun a => ((((e.one (a, 0)).byLane.headD (0, 0)).1), [a], 1))

/-- A store performs in this package, or in host memory. -/
def State.storeHere (s : State) (e : StoreEntry) : State :=
  let q := s.storeAdmit e
  let bs := e.bytes.filter (fun b => !q.2.contains (b.1 / 64))
  let s1 := q.1.storeDenied e 0x15 0 q.2
  match bs with
  | [] => s1
  | b :: _ =>
    if e.drop then
      let s2 := s1.touch s.focus.core (some e.reach)
      if e.discEn && !e.uc then ((bs.map (fun b => localOf b.1 / 128)).eraseDups).foldl State.dropLine s2 else s2
    else
    match region (localOf b.1) with
    | .mgmt => State.storeMgmt bs.length bs s1
    | .pci =>
      let i := s.storeIssuer e.pc (e.lanesOf [])
      let s2 := (s1.touch s.focus.core (some e.reach)).poke true false (bs.map (fun b => (localOf b.1, b.2))) (e.poison.map localOf)
      ({ s2 with hostPosted := s2.hostPosted ++ [(s2.hostPostedNext, i)], hostPostedNext := s2.hostPostedNext + 1 }).addPosted i 1
    | _ =>
      let here := bs.map (fun b => (localOf b.1, b.2))
      let s0 := (s1.touch s.focus.core (some (here.map (·.1)))).poke e.uc e.first here (e.poison.map localOf)
      let s2 := if s.focus.team = 8 then s0.takeHeaders here else s0
      (e.units bs).foldl (fun (t : State) l => t.mixCheck e.context e.pc l.1 l.2 2 e.scope) s2

/-- The last value that a store writes to each byte. -/
def lastBytes (bs : List (Nat × Byte)) : Sparse Byte := bs.foldl (fun m b => sins b.1 b.2 m) []

/-- The line of a store's first byte leaves through its port as one posted request (R359); the other lines follow. -/
def State.storeAway (s : State) (e : StoreEntry) (a : Nat) : State :=
  if !s.portAccepts a then s else
  let ln := a / 128
  let here := e.bytes.filter (fun b => b.1 / 128 = ln)
  let lanes := e.lanesOf ((here.map (fun b => b.1 / 64)).eraseDups)
  let i := s.storeIssuer e.pc lanes
  let r := remoteReq e.context (if e.drop then .drop else .write)
    (if e.drop then [(0, 0)] else (lastBytes here).map (fun b => (b.1 % 128, b.2))) true e.discEn
    ((e.poison.filter (fun b => b / 128 = ln)).map (· % 128))
  let s1 := (s.accept i r a).1.addPosted i 1
  let rest := e.bytes.filter (fun b => b.1 / 128 ≠ ln)
  s1.modOwn (fun g => { g with storeQ := if rest = [] then g.storeQ.drop 1 else
    match g.storeQ with
    | x :: xs => { x with bytes := rest } :: xs
    | [] => [] })

/-- An access of the group has performed: words of its core that wait are tried again, and a team that has exited may end. -/
def State.afterAccess (s : State) : State :=
  (s.modCore s.focus.core (Core.mapTeams Team.wake)).settle s.focus.core s.focus.team

/-- The byte at place `k` of the head of the queue performs by itself, where it may and its target takes it (R31). -/
def State.storeLoose (s : State) (e : StoreEntry) (rest : List StoreEntry) (k : Nat) : State :=
  match e.bytes[k]? with
  | none => s
  | some b =>
    if !e.loose k b || e.ahead ≠ 0 then s else
    let s1 := s.modOwn (fun g => { g with storeQ := e.without k b :: rest })
    if e.scratch then (s1.modOwnTeam (fun m => (m.spWrite [b] (e.one b).poison).wake)).afterAccess
    else if s.isRemote b.1 || region (localOf b.1) ≠ .dram || (s.storeAdmit (e.one b)).2 ≠ [] then s
    else (s1.storeHere (e.one b)).afterAccess

/-- Entries of the outstanding-request table that a store takes when it leaves the queue for memory of this package, until it is
acknowledged (R141): a drop has its own already, and what is posted takes none. -/
def StoreEntry.taken (e : StoreEntry) (b : Nat × Byte) : Nat := if region (localOf b.1) = .pci then 0 else e.lines

/-- A later word of the queue performs ahead of earlier accesses (R35). -/
def State.storeAhead (s : State) (k : Nat) : State :=
  match s.own.storeQ[k]? with
  | none => s
  | some e =>
    let scope := s.own.orderScope e.seq e.release e.scope
    let as := e.reach
    if e.scratch || e.ahead ≠ 0 || e.bytes.any (fun b => s.isRemote b.1) || !s.mayPass e.seq scope as
        || (s.storeAdmit e).2 ≠ [] then s
    else ((s.storeHere e).modOwn (fun g => { g with
      storeQ := g.storeQ.map (fun x => if x = e then { x with ahead := scope } else x) })).afterAccess

/-- The store is of bytes that are veiled from its group (R35). -/
def State.storeVeiled (s : State) (e : StoreEntry) : Bool :=
  !e.scratch && !e.bytes.any (fun b => s.isRemote b.1) && s.veiled s.focus.core s.focus.team s.focus.group e.reach

/-- R140 STORE_PERFORM: the head of the queue of the group that `focus` names, or with `focus.index` k + 1 the byte at place k
of it alone; with `focus.number` 1 the oldest store that has performed is acknowledged, and with 2 the word at place
`focus.index` performs ahead of those before it (R35). -/
def execStorePerform (s : State) : Host.Outcome State Fault Refusal :=
  if s.focus.number = 1 then .next (s.modOwn (fun g => { g with acks := g.acks.drop 1 })).afterAccess else
  if s.focus.number = 2 then .next (s.storeAhead s.focus.index) else
  match s.own.storeQ with
  | [] => .next s
  | e :: rest =>
    if !s.own.mayStore e || s.storeVeiled e then .next s else
    if s.focus.index ≠ 0 then .next (s.storeLoose e rest (s.focus.index - 1)) else
    let gone := s.modOwn (fun g => { g with storeQ := rest })
    if e.scratch then .next (gone.modOwnTeam (fun m => (m.spWrite e.bytes e.poison).wake)).afterAccess
    else
      match e.bytes with
      | [] => .next gone.afterAccess
      | b :: _ =>
        if s.isRemote b.1 then .next (s.storeAway e b.1).afterAccess
        else if e.drop || s.ortRoom (e.taken b) then
          .next ((if e.ahead = 0 then gone.storeHere e else gone).modOwn (fun g => if e.taken b = 0 then g else { g with acks := g.acks ++ [e.taken b] })).afterAccess
        else .next s

/-! ## Loads (R140, R145, R147) -/

/-- The lines of a lane that must be read at their homes: all but those in which a weak load hits in the L1 of its core. -/
def State.homeLines (s : State) (c : Nat) (l : LaneLoad) : List Nat :=
  ((l.addrs.filter (fun a => !s.isRemote a)).map (fun a => localOf a / 128)).eraseDups.filter (fun ln =>
    !(l.weak && (sfind ln (s.core c).l1).isSome))

/-- The entry is one whose perform moment has a place in the group's order (R30, R34): a weak load has none while all its lanes hit
in the L1 (R33). -/
def State.strong (s : State) (c : Nat) (e : LoadEntry) : Bool :=
  e.atomic || e.scratch || e.lanes.any (fun l => !l.weak || s.homeLines c l ≠ [])

/-- A load or atomic may perform and return; `strong` tells which are strong. -/
def Group.mayReturn (g : Group) (strong : LoadEntry → Bool) (e : LoadEntry) : Bool :=
  let before := g.loads.filter (fun x => decide (x.seq < e.seq))
  let stores := g.storeQ.filter (fun x => decide (x.seq < e.seq))
  e.remote = [] && !before.any (·.acquire) && !(strong e && before.any (fun x => strong x && x.scratch == e.scratch))
    && !(e.release && (before ≠ [] || stores ≠ [])) && !(e.atomic && stores.any (fun x => x.scratch == e.scratch))
    && (e.atomic || e.lanes.all (fun l => e.given.any (fun x => x.1 = l.lane) || match g.forward e l.addrs with
      | .blocked => false
      | _ => true))

/-- A strong access that reads or writes bytes that are veiled from its group waits (R35). -/
def State.loadVeiled (s : State) (e : LoadEntry) : Bool :=
  let near := (e.lanes.flatMap (·.addrs) ++ e.parts.flatMap (fun p => (List.range e.size).map (p.addr + ·))).filterMap (fun a =>
    if s.isRemote a then none else some (localOf a))
  s.strong s.focus.core e && s.veiled s.focus.core s.focus.team s.focus.group
    (if e.lastUse then ((near.map (· / 128)).eraseDups).flatMap lineBytes else near)

/-- The loads and atomics of the group that `focus` names which may return. -/
def State.returnable (s : State) : List LoadEntry :=
  s.own.loads.filter (fun e => s.own.mayReturn (s.strong s.focus.core) e && !s.loadVeiled e)

/-- A load while its lanes read: state, what each lane reads, the lanes refused with the first address of one. -/
structure LoadRun where
  s : State
  got : List (Nat × List (Byte × Bool)) := []
  denied : Lanes := 0
  at_ : Nat := 0

/-- One byte as a lane finds it: in a remote response, in the L1, or at its home. -/
def State.loadByte (s : State) (e : LoadEntry) (weak : Bool) (a : Nat) (uc : Bool) : Byte × Bool :=
  if s.isRemote a then
    (((e.arrived.find? (fun x => x.1 = a)).map (·.2)).getD 0, e.arrivedPoison.contains a)
  else
    let l1 := (s.core s.focus.core).l1
    match (if weak then sfind (localOf a / 128) l1 else none) with
    | some ln => (ln.bytes.byte (a % 128), ln.poison.contains (a % 128 / 64))
    | none => s.look uc (localOf a)

/-- What a lane has read, with the bytes of a misaligned lane that were read by themselves (R31). -/
def LoadEntry.merged (e : LoadEntry) (lane : Nat) (bs : List (Byte × Bool)) : List (Byte × Bool) :=
  bs.zipIdx.map (fun x => ((e.early.find? (fun y => y.1 = lane ∧ y.2.1 = x.2)).map (·.2.2)).getD x.1)

/-- Every byte of a lane has been read before. -/
def LoadEntry.hasRead (e : LoadEntry) (l : LaneLoad) : Bool :=
  (List.range l.addrs.length).all (fun i => e.early.any (fun x => x.1 = l.lane ∧ x.2.1 = i))

/-- A lane reads. -/
def LoadRun.lane (e : LoadEntry) (r : LoadRun) (l : LaneLoad) : LoadRun :=
  let s := r.s
  let deny (s : State) : LoadRun := { r with s := s, denied := r.denied ||| laneBit l.lane
                                             at_ := if r.denied = 0 then l.addrs.headD 0 else r.at_ }
  if e.failed.getLsbD l.lane then r
  else if l.addrs ≠ [] && e.hasRead l then { r with got := r.got ++ [(l.lane, e.merged l.lane (l.addrs.map (fun _ => (0, false))))] }
  else
  match ((e.given.find? (fun x => x.1 = l.lane)).map (fun x => Forward.bytes x.2)).getD (s.own.forward e l.addrs) with
  | .bytes bs => { r with got := r.got ++ [(l.lane, e.merged l.lane bs)] }
  | _ =>
    let lines := s.homeLines s.focus.core l
    let near := (l.addrs.zip l.ucs).filter (fun x => !s.isRemote x.1 && lines.contains (localOf x.1 / 128))
    let pci := near.any (fun x => region (localOf x.1) = .pci)
    let q := s.admitAll (masterId 0 e.context) 1 (near.map (fun x => localOf x.1)) (l.ucs.any id)
    if !q.2 || (pci && decide (s.input = .flag true)) then deny q.1
    else if near.any (fun x => region (localOf x.1) = .mgmt) then
      let m := q.1.mgmtRead (localOf (l.addrs.headD 0) - 0xC000000000)
      { r with s := m.1, got := r.got ++ [(l.lane, (bytesOfNat 8 m.2.toNat).map (fun b => (b, false)))] }
    else
      let cached := ((near.filter (fun x => !x.2)).map (fun x => localOf x.1 / 128)).eraseDups
      let s1 := cached.foldl (fun (t : State) ln =>
        let t1 := t.allocLine ln l.first
        if l.weak then t1.fillL1 t1.focus.core ln else t1) (q.1.touch s.focus.core (some (near.map (fun x => localOf x.1))))
      let bs := (l.addrs.zip l.ucs).map (fun x => s1.loadByte e l.weak x.1 x.2)
      let read := (l.addrs.zipIdx.filter (fun x => lines.contains (localOf x.1 / 128)
        && !e.early.any (fun y => y.1 = l.lane ∧ y.2.1 = x.2))).map (·.1)
      let s2 := if read = [] then s1 else s1.mixCheck e.context e.pc l.lane (mixUnits (l.addrs.headD 0) e.size read) 1 e.scope
      { r with s := s2, got := r.got ++ [(l.lane, e.merged l.lane bs)] }

/-- The value of bytes of a TYPE, extended to 64 bits. -/
def loadValue (ttype : Nat) (bs : List Byte) : Word :=
  let v := natOfBytes bs
  match ttype with
  | 1 => sext64 8 v
  | 3 => sext64 16 v
  | _ => BitVec.ofNat 64 v

/-- Write a lane's destination. -/
def LoadEntry.write (e : LoadEntry) (g : Group) (lane : Nat) (bs : List (Byte × Bool)) : Group :=
  if e.quad then
    (List.range 4).foldl (fun (h : Group) i =>
      let w := (bs.drop (4 * i)).take 4
      h.writeDst (BitVec.ofNat 9 (e.dest + i)) 1 lane (BitVec.ofNat 64 (natOfBytes (w.map (·.1)))) (w.any (·.2))) g
  else g.writeDst (BitVec.ofNat 9 e.dest) e.regs lane (loadValue e.ttype (bs.map (·.1))) (bs.any (·.2))

/-- The report of lanes that a target refused. -/
def State.loadDenied (s : State) (e : LoadEntry) (lanes : Lanes) (a : Nat) : State :=
  if lanes = 0 then s else s.report {
    code := 0x15, core := s.focus.core, grid := s.ownTeam.gridSlot, group := s.focus.group, pc := e.pc, address := a
    lanes := lanes, access := if e.atomic then 4 else 1, scope := e.scope }

/-- What a last-use load does to the lines that it read (R147). -/
def State.lastUse (s : State) (e : LoadEntry) (refused : Lanes) : State :=
  if !e.lastUse then s else
  (e.lanes.filter (fun l => !(refused ||| e.failed).getLsbD l.lane)).foldl (fun (t : State) l =>
    (((l.addrs.zip (l.ucs.zip l.discs)).filter (fun x => !t.isRemote x.1 && !x.2.1)).map (fun x =>
      (localOf x.1 / 128, x.2.2))).eraseDups.foldl (fun (t : State) x => t.dropOrAge x.1 x.2) t) s

/-- One byte of a misaligned lane reads by itself, where its target permits it (R31): the entry keeps it until the load returns. -/
def State.loadLoose (s : State) (e : LoadEntry) (lane place : Nat) : State :=
  match e.lanes.find? (fun l => l.lane = lane) with
  | none => s
  | some l =>
    match l.addrs[place]?, s.own.forward e l.addrs with
    | some a, .none_ =>
      if e.atomic || (l.addrs.headD 0) % e.size = 0 || e.failed.getLsbD lane || s.isRemote a
          || e.early.any (fun x => x.1 = lane ∧ x.2.1 = place) then s else
      let r : LoadRun := if e.scratch then { s := s, got := [(lane, [s.ownTeam.spByte a])] }
        else LoadRun.lane { e with size := 1, early := [] } { s := s }
          { l with addrs := [a], ucs := [(l.ucs[place]?).getD false], discs := [] }
      match r.got with
      | [(_, [b])] => r.s.modOwn (fun g => { g with
          loads := g.loads.map (fun x => if x.seq = e.seq then { x with early := x.early ++ [(lane, place, b)] } else x) })
      | _ => s
    | _, _ => s

/-- A lane of a load that is not at its turn reads ahead of earlier accesses, where it finds memory of this package (R35). -/
def State.loadAhead (s : State) (e : LoadEntry) (lane : Nat) : State :=
  match e.lanes.find? (fun l => l.lane = lane) with
  | none => s
  | some l =>
    let scope := s.own.orderScope e.seq e.release e.scope
    let as := l.addrs.map localOf
    if e.atomic || e.scratch || e.lastUse || e.failed.getLsbD lane || e.given.any (fun x => x.1 = lane) || e.early.any (fun x => x.1 = lane)
        || l.addrs.any s.isRemote || !s.mayPass e.seq scope as then s else
    let r := LoadRun.lane e { s := s } l
    match r.got with
    | [(_, bs)] => r.s.modOwn (fun g => { g with loads := g.loads.map (fun x => if x.seq = e.seq then
        { x with early := x.early ++ bs.zipIdx.map (fun b => (lane, b.2, b.1)), ahead := max x.ahead scope } else x) })
    | _ => s

/-- A last-use load reads, and drops its lines, ahead of earlier accesses (R35, R147). -/
def State.lastUseAhead (s : State) (e : LoadEntry) : State :=
  let scope := s.own.orderScope e.seq e.release e.scope
  let as := e.bytesOf
  if e.scratch || e.failed ≠ 0 || e.given ≠ [] || e.early ≠ [] || e.lanes.any (fun l => l.addrs.any s.isRemote)
      || !s.mayPass e.seq scope as then s else
  let r := e.lanes.foldl (LoadRun.lane e) { s := s }
  if r.denied ≠ 0 then s else
  ((r.s.lastUse e 0).modOwn (fun g => { g with loads := g.loads.map (fun x => if x.seq = e.seq then
    { x with early := r.got.flatMap (fun l => l.2.zipIdx.map (fun b => (l.1, b.2, b.1))), ahead := scope, veil := as
             lastUse := false } else x) })).afterAccess

/-- A load returns. -/
def State.returnLoad (s : State) (e : LoadEntry) : State :=
  let r : LoadRun :=
    if e.scratch then
      { s := s, got := e.lanes.map (fun l => match s.own.forward e l.addrs with
          | .bytes bs => (l.lane, e.merged l.lane bs)
          | _ => (l.lane, e.merged l.lane (l.addrs.map s.ownTeam.spByte))) }
    else e.lanes.foldl (LoadRun.lane e) { s := s }
  let s1 := (r.s.lastUse e r.denied).modOwn (fun g =>
    { (r.got.foldl (fun (h : Group) x => e.write h x.1 x.2) g) with loads := g.loads.filter (fun x => x.seq ≠ e.seq) })
  ((s1.countPoison (r.got.any (fun x => x.2.any (·.2)))).loadDenied e r.denied r.at_).afterAccess

/-! ## Atomics (R152, R164) -/

/-- An atomic on a scratchpad. -/
def Team.spAtomic (m : Team) (a aop : Nat) (wide : Bool) (b c : Word) : Team × Word × Bool :=
  let n := if wide then 8 else 4
  let old := BitVec.ofNat 64 (natOfBytes (m.scratch.read a n))
  if m.spPoisoned a n then (m, old, true)
  else (m.spPut a (bytesOfNat n (atomicNew aop wide old b c).toNat), old, false)

/-- The host link's posted atomic, which the host has completed with an error: it keeps its number in the link's sequence, as port 16,
until its report has been serviced (R155, R365). -/
def State.hostLost (s : State) (e : LoadEntry) (p : AtomPart) : State :=
  let n := s.hostPostedNext
  let lanes := lanesWhere (fun l => p.takes.any (fun t => t.1 = l))
  let i := s.storeIssuer e.pc lanes
  let o : Outstanding := {
    id := n, request := remoteReq e.context (.atomic e.aop e.wide p.operand p.swap) [] true false, dst := s.pkgid
    issuer := i, postedNo := some n, since := s.ns, reported := true }
  ((({ s with hostPostedNext := n + 1 } : State).modPort 16 (fun q => { q with outstanding := q.outstanding ++ [o] })).addPosted i
    1).report {
    code := 0x15, core := s.focus.core, grid := s.ownTeam.gridSlot, group := s.focus.group, pc := e.pc, address := p.addr
    lanes := lanes, access := 4, scope := e.scope, request := some (16, n)
    origin := s.originOf s.focus.core s.ownTeam.gridSlot }

/-- One atomic of a word performs: what its lanes take, or none when its target refuses it. -/
def State.atomPart (s : State) (e : LoadEntry) (p : AtomPart) : State × Option (List (Nat × Word × Bool)) :=
  if e.scratch then
    let r := s.ownTeam.spAtomic p.addr e.aop e.wide p.operand p.swap
    (s.modOwnTeam (fun _ => r.1), some (p.values e.aop e.wide r.2.1 r.2.2))
  else
    let a := localOf p.addr
    let q := s.admitOne (masterId 0 e.context) 4 (if region a = .mgmt then a else a / 64 * 64) p.uc
    if q.2 && decide (region a = .pci) && decide (s.input = .flag true) && e.posted then (q.1.hostLost e p, some [])
    else if !q.2 || (decide (region a = .pci) && decide (s.input = .flag true)) then (q.1, none)
    else if region a = .mgmt then
      let m := q.1.mgmtRead (a - 0xC000000000)
      (m.1.mgmtWrite (a - 0xC000000000) (atomicNew e.aop e.wide m.2 p.operand p.swap), some (p.values e.aop e.wide m.2 false))
    else
      let q1 := q.1.touch s.focus.core (some ((List.range e.size).map (a + ·)))
      let s1 := if p.uc then q1 else q1.allocLine (a / 128) p.first
      let r := s1.atomicAt p.uc p.first a e.aop e.wide p.operand p.swap
      let s2 := if r.2.2 then r.1 else r.1.mixCheck e.context e.pc ((p.takes.head?).elim 0 (·.1)) ([p.addr], e.size) 4 e.scope
      let i := s.storeIssuer e.pc (lanesWhere (fun l => p.takes.any (fun t => t.1 = l)))
      let s3 := if e.posted && decide (region a = .pci) then
        ({ s2 with hostPosted := s2.hostPosted ++ [(s2.hostPostedNext, i)], hostPostedNext := s2.hostPostedNext + 1 }).addPosted i 1
        else s2
      (s3, some (p.values e.aop e.wide r.2.1 r.2.2))

/-- The atomics of a word perform in order, and its old values return. No access of another agent falls between its lanes (log 21). -/
def State.returnAtomic (s : State) (e : LoadEntry) : State :=
  let r := e.parts.foldl (fun (r : State × List (Nat × Word × Bool) × List AtomPart) p =>
    match r.1.atomPart e p with
    | (s1, some vs) => (s1, r.2.1 ++ vs, r.2.2)
    | (s1, none) => (s1, r.2.1, r.2.2 ++ [p])) (s, e.got, [])
  let lost := lanesWhere (fun l => r.2.2.any (fun p => p.takes.any (fun t => t.1 = l)))
  let s1 := r.1.modOwn (fun g =>
    { (if e.posted then g else r.2.1.foldl (fun (h : Group) v =>
        h.writeDst (BitVec.ofNat 9 e.dest) e.regs v.1 v.2.1 v.2.2) g) with
      loads := g.loads.filter (fun x => x.seq ≠ e.seq) })
  let s2 := if e.scratch then s1.modOwnTeam Team.wake else s1
  ((s2.countPoison (r.2.1.any (fun v => v.2.2))).loadDenied e lost ((r.2.2.head?).elim 0 (·.addr))).afterAccess

/-- The atomics of a word perform ahead of earlier accesses, on memory of this package (R35). -/
def State.atomAhead (s : State) (e : LoadEntry) : State :=
  let scope := s.own.orderScope e.seq e.release e.scope
  let as := e.bytesOf
  if e.scratch || e.remote ≠ [] || e.parts = [] || e.parts.any (fun p => s.isRemote p.addr) || !s.mayPass e.seq scope as then s else
  let r := e.parts.foldl (fun (r : State × List (Nat × Word × Bool) × Bool) p =>
    match r.1.atomPart e p with
    | (s1, some vs) => (s1, r.2.1 ++ vs, r.2.2)
    | (s1, none) => (s1, r.2.1, false)) (s, e.got, true)
  if !r.2.2 then s else
  (r.1.modOwn (fun g => { g with loads := g.loads.map (fun x => if x.seq = e.seq then
    { x with parts := [], got := r.2.1, ahead := scope, veil := as } else x) })).afterAccess

/-- R145, R152 LOAD_DATA_RETURN: one of the loads and atomics of the group that may return; `focus.number` picks it. With
`focus.index` 32 p + l + 1 only the byte at place p of its lane l is read. With `focus.slot` 1 it is one of all the group's loads and
atomics, which performs ahead of earlier accesses: of a load that is not last-use, lane `focus.index` (R35). -/
def execLoadDataReturn (s : State) : Host.Outcome State Fault Refusal :=
  if s.focus.slot = 1 then
    match s.own.loads[s.focus.number]? with
    | none => .next s
    | some e => .next (if e.atomic then s.atomAhead e else if e.lastUse then s.lastUseAhead e else s.loadAhead e s.focus.index)
  else
  let es := s.returnable
  match es[s.focus.number % max 1 es.length]? with
  | none => .next s
  | some e =>
    .next (if s.focus.index ≠ 0 then s.loadLoose e ((s.focus.index - 1) % 32) ((s.focus.index - 1) / 32)
      else if e.atomic then s.returnAtomic e else s.returnLoad e)

/-- R142 WIDE_RELEASE_PERFORM: releases whose recorded numbers are reached perform. -/
def execWideReleasePerform (s : State) : Host.Outcome State Fault Refusal := .next s.wakeReleases

/-! ## The register cache (R21) -/

/-- R21 REGISTER_CACHE_WRITEBACK: register `focus.number` of a group is evicted to its image. -/
def execRegisterCacheWriteback (s : State) : Host.Outcome State Fault Refusal :=
  let n := s.focus.number
  let g := s.own
  if s.focus.team = 8 ∨ n ≥ s.ownTeam.regsOf s.focus.group ∨ g.evicted.contains n ∨
      g.awaits n then .next s
  else .next (s.evictReg n).1

/-- R21 REGISTER_CACHE_FILL: register `focus.number` of a group is filled from its image. After a refused fill it holds what it held
before (log 59). -/
def execRegisterCacheFill (s : State) : Host.Outcome State Fault Refusal :=
  let n := s.focus.number
  if !s.own.evicted.contains n then .next s else
  let room := s.regRoom
  if !room.2 then .next room.1 else
  let s := room.1
  let a := s.ownTeam.image + recordOff s.focus.group + 128 * n
  let q := s.admitAll (masterId 0 s.ownTeam.context) 1 ((List.range 128).map (a + ·)) false
  let s1 := if q.2 then (q.1.modOwn (fun g => q.1.fillReg s.ownTeam s.focus.group n g)).countPoison
      (q.1.peeks false a 128).2 else
    q.1.report {
      code := 0x15, core := s.focus.core, grid := s.ownTeam.gridSlot, group := s.focus.group
      pc := BitVec.ofNat 64 (pcAddr s.own.pathPc), address := a + s.pkgid * 2 ^ 40, lanes := s.own.cur, access := 1 }
  .next (s1.modOwn (fun g => { g.wake with evicted := g.evicted.filter (· ≠ n) }))

/-! ## MWAIT (R158, R159) -/

/-- What the read of an MWAIT gives. -/
inductive MRead where
  | value (s : State) (v : Word) (poison : Bool)
  | waits (s : State)

/-- The MWAIT of the group is armed. -/
def Group.armed (g : Group) : Bool := g.mwaitAddr.getLsbD 63

/-- Read the location of an MWAIT in another package: the response that has come, or a request, one in 1,024 uncore cycles. -/
def State.mwaitFar (s : State) (xs : List Xlat) : MRead :=
  let g := s.own
  let x := xs.headD ⟨0, 0⟩
  let sent := g.mwaitReq.any (fun q => q.2 = x.pa)
  match (if sent then g.mwaitData else none) with
  | some (bs, p) => .value (s.modOwn (fun g => { g with mwaitData := none, mwaitReq := none })) (word8 bs) p
  | none =>
    if sent || (g.armed && decide (s.uncore < g.mwaitRead + 1024)) || !s.portAccepts x.pa then .waits s else
    let r := remoteReq s.ownCtx (.read false) (xs.map (fun x => (x.pa % 128, 0))) false x.discEn
    let q := s.accept (.mwait s.focus.core s.ownTeam.gridSlot s.focus.group) r x.pa
    .waits (q.1.modOwn (fun g => { g with mwaitReq := some (q.2, x.pa), mwaitData := none, mwaitRead := s.uncore }))

/-- Read the location of an MWAIT in this package or in host memory, as a strong read. -/
def State.mwaitNear (s : State) (act : Lanes) (scope n : Nat) (x : Xlat) : MRead :=
  let a := localOf x.pa
  let q := s.admitOne (masterId 0 s.ownCtx) 1 (if region a = .mgmt then a else a / 64 * 64) (s.isUc x)
  if !q.2 || (decide (region a = .pci) && decide (s.input = .flag true)) then
    .waits (q.1.report {
      code := 0x15, core := s.focus.core, grid := s.ownTeam.gridSlot, group := s.focus.group
      pc := BitVec.ofNat 64 (pcAddr s.own.pathPc), address := x.pa, lanes := act, access := 1, scope := scope })
  else
    let s1 := q.1.modOwn (fun g => { g with mwaitRead := s.uncore })
    if region a = .mgmt then
      let m := s1.mgmtRead (a - 0xC000000000)
      .value m.1 m.2 false
    else
      let s1 := s1.touch s.focus.core (some ((List.range n).map (a + ·)))
      let s2 := if s.isUc x then s1 else s1.allocLine (a / 128) (x.cpol = 1)
      let r := s2.looks (s.isUc x) a n
      .value (s2.mixCheck s2.ownCtx (BitVec.ofNat 64 (pcAddr s2.own.pathPc)) (lowest act) ([x.pa], n) 1 scope) (word8 r.1) r.2

/-- MWAIT ends with a value: the monitor is disarmed. -/
def State.mwaitDone (s : State) (v : Word) (p : Bool) : Retire where
  s := (s.countPoison p).endWait.modOwn (fun g => { g with
    mwaitAddr := g.mwaitAddr &&& ~~~ mask 63 1, mwaitData := none, mwaitReq := none })
  result := some { vals := [(0, v)], poison := if p then (0xFFFFFFFF : Lanes) else 0 }

/-- The shape of MWAIT (R158). -/
def mwaitShape (f : Full) : Shape :=
  let t := lsType f
  let a := useA f .scalar 2
  let b := useB f .scalarIn (if t = 5 then 2 else 1)
  let c := useC f .scalarIn 2
  { op := 0x8E, dst := some (useD f .dstScalar 2), srcs := [a, b, c]
    bad := semBad f [0, 1] ++ [(0, (t ≠ 4 && t ≠ 5) || lsLu f || lsBp f)], scope := scopeF f }

/-- R158 MWAIT. -/
def execMwait (f : Full) (s : State) : Host.Outcome State Fault Refusal :=
  let t := lsType f
  let n := typeBytes t
  let a := useA f .scalar 2
  let b := useB f .scalarIn (if t = 5 then 2 else 1)
  let c := useC f .scalarIn 2
  let sh := mwaitShape f
  issue sh f s (fun s act =>
    match s.operandPoison 1 sh.srcs act with
    | some tr => .trap tr
    | none =>
      match s.accesses true { n := n, acc := 1, aligned := true } [(lowest act, (s.value a (lowest act)).toNat)] with
      | (s1, .error tr) => .trapFrom s1 tr
      | (s1, .ok as) =>
        if !s1.own.quiet then .wait s1 else
        if s1.veiled s1.focus.core s1.focus.team s1.focus.group (((as.headD ⟨0, 0, []⟩).xs.filter (fun x => !s1.isRemote x.pa)).map
          (fun x => localOf x.pa)) then .pause s1 else
        let xs := (as.headD ⟨0, 0, []⟩).xs
        let x := xs.headD ⟨0, 0⟩
        let late := s1.timedOut
        match (if s1.isRemote x.pa then s1.mwaitFar xs else s1.mwaitNear act (scopeF f) n x) with
        | .waits s2 => if late && s2.own.armed then .retire (s2.mwaitDone s2.own.mwaitValue false) else s2.timedWait (s.value c (lowest act)).toNat
        | .value s2 v p =>
          if p || v ≠ cut b.regs (s.value b (lowest act)) || late then .retire (s2.mwaitDone v p)
          else
            (s2.modOwn (fun g => { g with
              mwaitAddr := mask 63 1 ||| BitVec.ofNat 64 ((s.value a (lowest act)).toNat % 2 ^ 56), mwaitValue := v })).timedWait
              (s.value c (lowest act)).toNat)

/-- R158 MWAIT_WAKE: a write to the monitored line has performed, and the group reads it again. -/
def execMwaitWake (s : State) : Host.Outcome State Fault Refusal :=
  .next (if s.own.armed then s.modOwn Group.wake else s)

/-- R158 MWAIT_POLL. -/
def execMwaitPoll (s : State) : Host.Outcome State Fault Refusal :=
  .next (if s.own.armed && decide (s.uncore ≥ s.own.mwaitRead + 1024) then s.modOwn Group.wake else s)

/-- R158 MWAIT_TIMEOUT. -/
def execMwaitTimeout (s : State) : Host.Outcome State Fault Refusal := .next s.wakeExpired

/-! ## PSRD and PSWR (R429) -/

/-- The package physical address of a word of the firmware slot, or its trap. Management space takes naturally aligned 8-byte
accesses only (R406). -/
def physAddr (a n acc : Nat) : Except Trap Nat :=
  let bad (k : Nat) : Trap := { code := 0x12, addr := BitVec.ofNat 64 a, info := BitVec.ofNat 32 k, access := acc }
  if a ≥ 2 ^ 40 then .error (bad 0)
  else if (List.range n).any (fun i => decide (region ((a + i) % 2 ^ 40) = .reserved ∨ a + i ≥ 2 ^ 40)) then .error (bad 1)
  else if (List.range n).any (fun i => decide (region (a + i) = .mgmt)) ∧ ¬ (n = 8 ∧ a % 8 = 0) then .error (bad 1)
  else .ok a

/-- The shape of PSRD (R429). -/
def psrdShape (f : Full) : Shape :=
  let t := lsType f
  let a := asyncA f
  { op := 0xE6, priv := true, dst := some (useD f .scalar 2), srcs := [a]
    bad := semBad f [0, 1] ++ [(0, decide (t ≥ 6) || lsLu f || lsBp f)], scope := scopeF f }

/-- R429 PSRD. -/
def execPsrd (f : Full) (s : State) : Host.Outcome State Fault Refusal :=
  let t := lsType f
  let n := typeBytes t
  let a := asyncA f
  issue (psrdShape f) f s (fun s act =>
    match s.operandPoison 1 [a] act with
    | some tr => .trap tr
    | none =>
      match physAddr (s.src f a).toNat n 1 with
      | .error tr => .trap tr
      | .ok pa =>
        let at_ := (List.range n).map (fun i => pa + i + s.pkgid * 2 ^ 40)
        if !s.ortRoom ((at_.map (· / 128)).eraseDups).length then .pause s else
        .retire { s := s.pushLoad { s.loadEntry f { n := n, regs := 2, ttype := t } with
          context := 0
          lanes := [{ lane := 0, addrs := at_, ucs := at_.map (fun b => region (localOf b) ≠ .dram) }] } })

/-- The shape of PSWR (R429). -/
def pswrShape (f : Full) : Shape :=
  let t := lsType f
  let a := asyncA f
  let b := asyncB f
  { op := 0xE7, priv := true, srcs := [a, b]
    bad := semBad f [0, 1] ++ [(0, badStoreType t || lsLu f || lsBp f)], scope := scopeF f }

/-- R429 PSWR. -/
def execPswr (f : Full) (s : State) : Host.Outcome State Fault Refusal :=
  let t := lsType f
  let n := typeBytes t
  let a := asyncA f
  let b := asyncB f
  issue (pswrShape f) f s (fun s act =>
    match s.operandPoison 2 [a] act with
    | some tr => .trap tr
    | none =>
      match physAddr (s.src f a).toNat n 2 with
      | .error tr => .trap tr
      | .ok pa =>
        let base := pa + s.pkgid * 2 ^ 40
        let bad := s.own.poisoned b 0
        s.enqueue f act (fun s1 => [{
          bytes := (bytesOfNat n (s.src f b).toNat).zipIdx.map (fun e => (base + e.2, e.1))
          poison := if bad then (List.range n).map (base + ·) else []
          uc := region pa ≠ .dram, release := lsSem f = 1, scope := scopeF f, size := n, seq := s1.own.memNext, context := 0
          pc := BitVec.ofNat 64 (pcAddr s1.own.pathPc), byLane := [(0, base)] }]))

end Sys2Proof.Machine
end

