-- ==== Sys2Proof/Machine/FrontWords.lean ====
section
/-! DEFINITION. Front end words of the firmware slot that act on translation, on instruction caches and on the slot itself:
TLBI (R428), ERET and HALT (R405). -/

namespace Sys2Proof.Machine

open Sys2Proof

/-- The entries that TLBI removes, by KIND: those of context `x`, or every one, whose page contains `va`, or any page. -/
def tlbiHits (kind x va : Nat) (e : TlbEntry) : Bool :=
  match kind with
  | 0 => decide (e.context = x ∧ va < 2 ^ 56 ∧ e.page = pageOf e.level va)
  | 1 => decide (e.context = x)
  | _ => true

/-- An access of context `y` used a translation that TLBI removes, as far as the access still tells (log 13). -/
def tlbiMeets (kind x y : Nat) : Bool := decide (2 ≤ kind) || decide (y = x)

/-- The accesses in flight that may use a removed translation (R428). -/
def State.drainNow (s : State) (kind x : Nat) : Drain where
  groups := s.cores.flatMap (fun k => (((8, k.2.fw) :: k.2.teams).flatMap (fun t => (t.2.groups.filter (fun g =>
    g.2.loads.any (fun e => !e.scratch && tlbiMeets kind x e.context)
      || g.2.storeQ.any (fun e => !e.scratch && tlbiMeets kind x e.context))).map (fun g =>
        (k.1, t.2.gridSlot, g.1, g.2.memNext)))))
  ports := (List.range 16).map (fun n => (n, (s.port n).nextId))
  host := s.lastPosted 16

/-- An operand in the Keystone system carries a removed translation (R302): one that a fresh walk no longer gives. -/
def State.ksStale (s : State) (kind x va : Nat) (y : Operand) : Bool :=
  tlbiMeets kind x (tagCtx y.tag) && y.target.any (fun p =>
    (kind ≠ 0 || p.va / 2 ^ 16 = va / 2 ^ 16)
      && (match s.walkCtx (tagCtx y.tag) p.va with
        | .ok l => l.2 ≠ p.leaf
        | .error _ => true))

/-- Every operand that waits at a station or is on its way. -/
def State.ksOperands (s : State) : List Operand :=
  s.stations.flatMap (fun e => e.2.store) ++ s.ksOverflow ++ s.ksFlight ++ s.ksRetry ++ s.ksHeld.map (·.operand)

/-- Every access that used a removed translation has performed or ended (R428). -/
def State.drained (s : State) (kind x va : Nat) (d : Drain) : Bool :=
  d.groups.all (fun e => ((s.groupBy e.1 e.2.1 e.2.2.1).elim true (fun g =>
      g.loads.all (fun l => l.scratch || !tlbiMeets kind x l.context || decide (e.2.2.2 ≤ l.seq))
        && g.storeQ.all (fun q => q.scratch || !tlbiMeets kind x q.context || decide (e.2.2.2 ≤ q.seq)))))
    && d.ports.all (fun e => (s.port e.1).outstanding.all (fun o =>
        decide (e.2 ≤ o.id) || !tlbiMeets kind x o.request.context))
    && decide (d.host ≤ s.doneTo 16)
    && s.ksOperands.all (fun y => !s.ksStale kind x va y)

/-- A TLBI may have what it waits for: its group tries again (R428). -/
def State.wakeDrains (s : State) : State :=
  { s with cores := s.cores.map (fun e => (e.1, { e.2 with
      fw := e.2.fw.mapGroups (fun g => if g.drain.isSome then g.wake else g) })) }

/-- What every TLBI admits (R426). -/
def tlbiShape (f : Full) (reserved : Bool) : Shape where
  op := 0xE4
  priv := true
  srcs := [useA f .scalarIn 2, useB f .scalarIn]
  bad := [(0, reserved || f.fn.toNat ≥ 8)]

/-- The address and the context of a TLBI. -/
def State.tlbiAddr (s : State) (f : Full) : Nat := (s.value (useA f .scalarIn 2) (lowest (s.own.activeFor f))).toNat

def State.tlbiCtxOf (s : State) (f : Full) : Nat := bits (s.value (useB f .scalarIn) (lowest (s.own.activeFor f))).toNat 0 6

/-- The translation forms of TLBI: the entries go, and the word waits until every access that used one has ended (R428). -/
def State.tlbi (s : State) (kind : Nat) (f : Full) (act : Lanes) : Effect :=
  match s.poisonTrap (tlbiShape f false).srcs act with
  | some t => .trap t
  | none =>
    let va := s.tlbiAddr f
    let x := s.tlbiCtxOf f
    let s1 : State := { s with tlb := s.tlb.filter (fun e => !tlbiHits kind x va e) }
    let d := s.own.drain.getD (s.drainNow kind x)
    if s1.drained kind x va d then .retire { s := s1.modOwn (fun g => { g with drain := none }) }
    else .wait (s1.modOwn (fun g => { g with drain := some d }))

/-- R428 TLBI.va. -/
def execTlbiVa (f : Full) (s : State) : Host.Outcome State Fault Refusal :=
  issue (tlbiShape f false) f s (fun s act => s.tlbi 0 f act)

/-- R428 TLBI.ctx. -/
def execTlbiCtx (f : Full) (s : State) : Host.Outcome State Fault Refusal :=
  issue (tlbiShape f false) f s (fun s act => s.tlbi 1 f act)

/-- R428 TLBI.all. -/
def execTlbiAll (f : Full) (s : State) : Host.Outcome State Fault Refusal :=
  issue (tlbiShape f false) f s (fun s act => s.tlbi 2 f act)

/-- The lines that hold an address in a context: those of every translation in use, and of a fresh one (R88, R134). -/
def State.linesOf (s : State) (x va : Nat) : List Nat :=
  let pa (l : Nat × Word) : Nat := bits l.2.toNat 16 24 * 2 ^ 16 + va % 2 ^ (levelBits l.1).1
  if 2 ^ 56 ≤ va then []
  else if s.identity x then (if va < 2 ^ 40 then [va / 128] else [])
  else ((s.cached x va).map pa ++ (match s.walkCtx x va with
    | .ok l => [pa l]
    | .error _ => [])).map (· / 128)

/-- Remove instruction-cache lines on every core (R428). Captured and prefetched words stay (R89). -/
def State.icDrop (s : State) (p : Nat → Bool) : State :=
  { s with cores := s.cores.map (fun e => (e.1, { e.2 with icache := e.2.icache.filter (fun l => !p l.1) })) }

/-- R428 TLBI.ic. -/
def execTlbiIc (f : Full) (s : State) : Host.Outcome State Fault Refusal :=
  issue (tlbiShape f false) f s (fun s act =>
    match s.poisonTrap (tlbiShape f false).srcs act with
    | some t => .trap t
    | none =>
      let ls := s.linesOf (s.tlbiCtxOf f) (s.tlbiAddr f)
      .retire { s := s.icDrop ls.contains })

/-- R428 TLBI.icall; KIND 5 to 7 trap ILLEGAL_MOD. -/
def execTlbiIcall (f : Full) (s : State) : Host.Outcome State Fault Refusal :=
  issue (tlbiShape f (bits f.fn.toNat 0 3 ≠ 4)) f s (fun s act =>
    match s.poisonTrap (tlbiShape f false).srcs act with
    | some t => .trap t
    | none => .retire { s := s.icDrop (fun _ => true) })

/-- The shape of ERET (R405). -/
def eretShape (f : Full) : Shape :=
  { op := 0xE5, priv := true, noLoop := true, bad := [(0, f.fn ≠ 0)] }

/-- R405 ERET. With INTRAP clear it is a branch to FW_EPC. -/
def execEret (f : Full) (s : State) : Host.Outcome State Fault Refusal :=
  issue (eretShape f) f s (fun s _ =>
    .retire { s := s, after := State.fwReturn })

/-- The shape of HALT (R405). -/
def haltShape (f : Full) : Shape :=
  { op := 0xE9, priv := true, noLoop := true, bad := [(0, f.fn ≠ 0)] }

/-- R405 HALT: the slot stops issuing; it goes on at the next word when RUN is set again. -/
def execHalt (f : Full) (s : State) : Host.Outcome State Fault Refusal :=
  issue (haltShape f) f s (fun s _ =>
    .retire { s := s.setReg (offCore s.focus.core + 0x300) (s.fwReg 0x300 &&& ~~~ (1 : Word)) })

end Sys2Proof.Machine
end

