-- ==== Sys2Proof/Machine/PairedWord.lean ====
section
/-! DEFINITION. The meaning of a paired word (R72 to R76): its checks, the effect of each short opcode, and how both halves
write and shift the latches. -/

namespace Sys2Proof

open Machine

def Half.op (h : Half) : Nat := h.sop.toNat
def Half.mod (h : Half) : Nat := h.m.toNat

/-- A NOPH half (R75): it names no operand. -/
def Half.isNop (h : Half) : Bool := h.op = 0

/-- The modifier bits that a short opcode names (R75). -/
def halfMods (sop : Nat) : Nat :=
  match sop with
  | 0x00 => 0x7F
  | 0x19 | 0x1A | 0x2C | 0x2D => 0x1F
  | 0x1B | 0x1C | 0x1D | 0x20 | 0x23 | 0x24 | 0x25 | 0x26 | 0x29 | 0x2A | 0x2B => 0x7
  | 0x1E | 0x1F | 0x27 => 0x4
  | _ => 0

/-- The short opcode reads d as its first source (R75). -/
def halfReadsD (sop : Nat) : Bool :=
  !([0x00, 0x01, 0x14, 0x15, 0x16, 0x17, 0x18, 0x1A, 0x21, 0x22, 0x29, 0x2A, 0x2B, 0x2C, 0x2D].contains sop)

/-- Operand s, and d as a register. -/
def Half.useS (h : Half) (isB : Bool) : Use := { fld := 2, enc := opd7 isB h.s }
def Half.useD (h : Half) (isB : Bool) : Use := { fld := 1, enc := opd7 isB h.d }

/-- What a half reads and writes. -/
def Half.uses (h : Half) (isB : Bool) : List Use := if h.isNop then [] else [h.useD isB, h.useS isB]

/-- What a half reads. -/
def Half.sources (h : Half) (isB : Bool) : List Use :=
  if h.isNop then [] else if halfReadsD h.op then [h.useD isB, h.useS isB] else [h.useS isB]

/-- The lane whose s a half reads in lane `l` (R75, R192, R193). -/
def Half.srcLane (h : Half) (l : Nat) : Nat :=
  if h.op = 0x2C then (l ^^^ h.mod) % 32 else if h.op = 0x2D then h.mod % 32 else l

/-- The checks of R80 for a paired word: each rank for half A, then for half B. The manual ranks neither of a reserved sop and
bit [0] = 1: the model reports the reserved sop, and for bit [0] it gives half A's sop (log 57). -/
def Paired.check (p : Paired) (m : Team) (gi : Nat) (g : Group) : Option Trap :=
  let role := m.roleOf gi
  let count := m.roleRegs role
  let halves : List (Half × Bool) := [(p.a, false), (p.b, true)]
  let tag (isB : Bool) : Nat := 0x100 + if isB then 0x200 else 0
  let trap (code info : Nat) : Trap := { code := code, info := BitVec.ofNat 32 info }
  match halves.find? (fun h => 0x30 ≤ h.1.op) with
  | some h => some (trap 0x01 (h.1.op + tag h.2))
  | none =>
    if p.bit0 then some (trap 0x01 (p.a.op + 0x500))
    else if role ≠ 2 ∧ role ≠ 3 then some (trap 0x04 (0xFF + role * 256))
    else
      let badField (h : Half) : Option Nat :=
        if h.isNop then none
        else if 0x40 ≤ h.d.toNat then some 1
        else if h.m.toNat &&& (0x7F - halfMods h.op) ≠ 0 then some 0
        else none
      match halves.findSome? (fun h => (badField h.1).map (fun k => trap 0x02 (k + tag h.2))) with
      | some t => some t
      | none =>
        match halves.findSome? (fun h => (h.1.uses h.2).findSome? (fun u => u.beyond count)) with
        | some n => some (trap 0x06 (n % 256 + count * 256))
        | none => halves.findSome? (fun h =>
            (h.1.sources h.2).findSome? (fun u => (u.lostLatch g).map (fun i => trap 0x05 (i + tag h.2))))

end Sys2Proof

namespace Sys2Proof.Machine

open Sys2Proof

/-- The lanes active for a half (R74). -/
def Group.activeHalf (g : Group) (h : Half) : Lanes :=
  lanesWhere (fun l => g.cur.getLsbD l && (h.pr = 7 || g.p l h.pr.toNat))

/-- Packed 16-bit computation of R75. -/
def packed (fn : Nat → Nat → FRes) (d x : Nat) : FRes :=
  let lo := fn (bits d 0 16) (bits x 0 16)
  let hi := fn (bits d 16 16) (bits x 16 16)
  (lo.1 + hi.1 * 65536, lo.2 ||| hi.2)

/-- The effect of a short opcode on the values of d and s, except the cross-lane ones (R75). -/
def halfOut (sop m d x : Nat) : FRes :=
  let rm := rmOf (m % 4)
  let ftz := bit m 2
  let i (v : Nat) : Int := intVal true 32 (BitVec.ofNat 64 v)
  let int (v : Int) : FRes := (lowBits 32 v, 0)
  let f (F : FFmt) (v : Nat) : FVal := F.decode ftz v
  match sop with
  | 0x01 => (x, 0)
  | 0x02 => int (d + x)
  | 0x03 => int ((d : Int) - x)
  | 0x04 => int ((x : Int) - d)
  | 0x05 => int (d * x)
  | 0x06 => (if i d ≤ i x then d else x, 0)
  | 0x07 => (if i d ≤ i x then x else d, 0)
  | 0x08 => (min d x, 0)
  | 0x09 => (max d x, 0)
  | 0x0A => (d &&& x, 0)
  | 0x0B => (d ||| x, 0)
  | 0x0C => (d ^^^ x, 0)
  | 0x0D => (d &&& (0xFFFFFFFF - x), 0)
  | 0x0E => int (d * 2 ^ (x % 32))
  | 0x0F => (d / 2 ^ (x % 32), 0)
  | 0x10 => int (i d / (2 ^ (x % 32) : Nat))
  | 0x11 => int (satInt true 32 (i d + i x))
  | 0x12 => int (satInt true 32 (i d - i x))
  | 0x13 => int ((i d - i x).natAbs : Nat)
  | 0x14 => (0xFFFFFFFF - x, 0)
  | 0x15 => int (-(x : Int))
  | 0x16 => (popcN 32 x, 0)
  | 0x17 => (clzN 32 x, 0)
  | 0x18 => (brevN 32 x, 0)
  | 0x19 => int (d + x * 2 ^ (m % 32))
  | 0x1A => int (x * 2 ^ (m % 32))
  | 0x1B => fp32.add rm ftz (f fp32 d) (f fp32 x)
  | 0x1C => fp32.add rm ftz (f fp32 d) (f fp32 x).neg
  | 0x1D => fp32.mul rm ftz (f fp32 d) (f fp32 x)
  | 0x1E => fp32.minmax false ftz d x
  | 0x1F => fp32.minmax true ftz d x
  | 0x20 => fp32.add rm ftz (f fp32 x) (f fp32 d).neg
  | 0x21 => (x % 2 ^ 31, 0)
  | 0x22 => (x ^^^ 2 ^ 31, 0)
  | 0x23 => packed (fun a b => fp16.add rm ftz (f fp16 a) (f fp16 b)) d x
  | 0x24 => packed (fun a b => fp16.mul rm ftz (f fp16 a) (f fp16 b)) d x
  | 0x25 => packed (fun a b => bf16.add rm ftz (f bf16 a) (f bf16 b)) d x
  | 0x26 => packed (fun a b => bf16.mul rm ftz (f bf16 a) (f bf16 b)) d x
  | 0x27 => packed (bf16.minmax true ftz) d x
  | 0x28 => caddRes d x
  | 0x29 => convert 0 rm ftz false false true (typeValue 12 ftz x)
  | 0x2A => convert 12 rm ftz false false false (typeValue 0 ftz x)
  | 0x2B => convert 2 rm ftz false false false (typeValue 0 ftz x)
  | 0x2E => int (i d * i x / (2 ^ 32 : Nat))
  | 0x2F => (d * x / 2 ^ 32, 0)
  | _ => (0, 0)

/-- What a half computes in a lane. -/
def State.halfLane (s : State) (h : Half) (isB : Bool) (l : Nat) : FRes :=
  let x := (s.value (h.useS isB) (h.srcLane l)).toNat
  if h.op = 0x2C ∨ h.op = 0x2D then (x, 0)
  else halfOut h.op h.mod (s.value (h.useD isB) l).toNat x

/-- Lanes in which a half reads a poisoned value (R163, R169). -/
def State.halfPoison (s : State) (h : Half) (isB : Bool) (act : Lanes) : Lanes :=
  let g := s.own
  lanesWhere (fun l => act.getLsbD l && !h.isNop && (g.poisoned (h.useS isB) (h.srcLane l)
    || (halfReadsD h.op && g.poisoned (h.useD isB) l)))

/-- The POISON trap of a half that is not a mov, which copies poison (R163, R165). -/
def State.halfTrap (s : State) (h : Half) (isB : Bool) (act : Lanes) : Option Trap :=
  let bad := s.halfPoison h isB act
  if bad = 0 || h.op = 1 then none else
    let g := s.own
    let dBad := halfReadsD h.op && (lanesOf bad).any (g.poisoned (h.useD isB))
    let enc := if dBad then (h.useD isB).enc else (h.useS isB).enc
    some { code := 0x17, lanes := bad, info := BitVec.ofNat 32 (enc.toNat + if isB then 512 else 0) }

/-- The POISON trap of a paired word: FR_INFO names half A's operand, if it has one, and FR_LANES the lanes of both (log 80). -/
def State.pairTrap (s : State) (p : Paired) (actA actB : Lanes) : Option Trap :=
  let a := s.halfTrap p.a false actA
  let b := s.halfTrap p.b true actB
  (a.or b).map (fun t => { t with lanes := a.elim 0 (·.lanes) ||| b.elim 0 (·.lanes) })

/-- The result of a half in its active lanes. -/
def State.halfResult (s : State) (h : Half) (isB : Bool) (act : Lanes) : Result where
  vals := if h.isNop then [] else (lanesOf act).map (fun l => (l, BitVec.ofNat 64 (s.halfLane h isB l).1))
  poison := s.halfPoison h isB act

/-- The latch entry of a half: zero for NOPH (R74, R77). -/
def Group.halfEntry (g : Group) (h : Half) (isB : Bool) (r : Result) : Latch :=
  if h.isNop then { valid := true } else g.latchEntry (h.useD isB).enc 1 r

/-- Write a half's result. -/
def Group.writeHalf (g : Group) (h : Half) (isB : Bool) (r : Result) : Group :=
  r.vals.foldl (fun (a : Group) e => a.writeDst (h.useD isB).enc 1 e.1 e.2 (r.poison.getLsbD e.1)) g

/-- The fields of a word that has none: a paired word retires as such a word. -/
def noFields : Full := { pred := 63, pn := false, w := false, d := 0x184, a := 0x184, b := 0x184, c := 0x184, fn := 0 }

/-- Both halves read everything before either writes; half A's entry enters the latches first (R74). -/
def State.pairEffect (s : State) (p : Paired) (actA actB : Lanes) : State :=
  let rA := s.halfResult p.a false actA
  let rB := s.halfResult p.b true actB
  let flags (h : Half) (isB : Bool) (act : Lanes) : BitVec 5 :=
    if h.isNop then 0 else (lanesOf act).foldl (fun acc l => acc ||| (s.halfLane h isB l).2) 0
  let g := s.own
  let eA := g.halfEntry p.a false rA
  let eB := g.halfEntry p.b true rB
  s.modOwn (fun g => ((((g.raise (flags p.a false actA ||| flags p.b true actB)).writeHalf p.a false rA).writeHalf
    p.b true rB).shiftLatch eA).shiftLatch eB)

/-- Issue a paired word to the group that `focus` names (R74, R79, R80). -/
def State.issuePair (s0 : State) (p : Paired) : State :=
  let s := s0.modOwn Group.restore
  let g := s.own
  let actA := g.activeHalf p.a
  let actB := g.activeHalf p.b
  let sh : Shape := { op := 0, sw := false }
  if actA ||| actB = 0 then s.retireNop noFields else
  match p.check s.ownTeam s.focus.group g with
  | some t => s.trapWord (actA ||| actB) sh t
  | none =>
    let uses := p.a.uses false ++ p.b.uses true
    if uses.any (fun u => u.isPending g) then s.blockHere
    else if uses.any (fun u => u.inFlight g) then s.stallFor uses
    else
      match s.pairTrap p actA actB with
      | some t => s.trapWord (actA ||| actB) sh t
      | none => s.finish sh noFields { s := s.pairEffect p actA actB }

/-- R74 paired word. -/
def execPairedWord (p : Paired) (s : State) : Host.Outcome State Fault Refusal :=
  match s.own? with
  | none => .fault .noIssuer
  | some _ => .next (s.issuePair p)

end Sys2Proof.Machine
end

