-- ==== Sys2Proof/Machine/Dispatch.lean ====
section
/-! DEFINITION. The meaning of each instruction and event: one direct call per constructor. -/

namespace Sys2Proof.Machine

open Sys2Proof

def exec (i : Instr) (s : State) : Host.Outcome State Fault Refusal :=
  match i with
  | .nop f => Sys2Proof.Machine.execNop f s
  | .yield f => Sys2Proof.Machine.execYield f s
  | .loop f => Sys2Proof.Machine.execLoop f s
  | .ifence f => Sys2Proof.Machine.execIfence f s
  | .pairedWord f => Sys2Proof.Machine.execPairedWord f s
  | .bra f => Sys2Proof.Machine.execBra f s
  | .brx f => Sys2Proof.Machine.execBrx f s
  | .call f => Sys2Proof.Machine.execCall f s
  | .ret f => Sys2Proof.Machine.execRet f s
  | .join f => Sys2Proof.Machine.execJoin f s
  | .meet f => Sys2Proof.Machine.execMeet f s
  | .exit f => Sys2Proof.Machine.execExit f s
  | .pset f => Sys2Proof.Machine.execPset f s
  | .psetf f => Sys2Proof.Machine.execPsetf f s
  | .plop f => Sys2Proof.Machine.execPlop f s
  | .pmovGet f => Sys2Proof.Machine.execPmovGet f s
  | .pmovSet f => Sys2Proof.Machine.execPmovSet f s
  | .vote f => Sys2Proof.Machine.execVote f s
  | .kmovGet f => Sys2Proof.Machine.execKmovGet f s
  | .kmovSet f => Sys2Proof.Machine.execKmovSet f s
  | .ftest f => Sys2Proof.Machine.execFtest f s
  | .ftestH f => Sys2Proof.Machine.execFtestH f s
  | .fwait f => Sys2Proof.Machine.execFwait f s
  | .fwaitH f => Sys2Proof.Machine.execFwaitH f s
  | .fwaitAll f => Sys2Proof.Machine.execFwaitAll f s
  | .fcancel f => Sys2Proof.Machine.execFcancel f s
  | .fmovMove f => Sys2Proof.Machine.execFmovMove f s
  | .fmovExport f => Sys2Proof.Machine.execFmovExport f s
  | .fmovImport f => Sys2Proof.Machine.execFmovImport f s
  | .tbar f => Sys2Proof.Machine.execTbar f s
  | .tbarArr f => Sys2Proof.Machine.execTbarArr f s
  | .srd f => Sys2Proof.Machine.execSrd f s
  | .swr f => Sys2Proof.Machine.execSwr f s
  | .trap f => Sys2Proof.Machine.execTrap f s
  | .bkpt f => Sys2Proof.Machine.execBkpt f s
  | .fresume f => Sys2Proof.Machine.execFresume f s
  | .add f => Sys2Proof.Machine.execAdd f s
  | .sub f => Sys2Proof.Machine.execSub f s
  | .addc f => Sys2Proof.Machine.execAddc f s
  | .subb f => Sys2Proof.Machine.execSubb f s
  | .mul f => Sys2Proof.Machine.execMul f s
  | .mulh f => Sys2Proof.Machine.execMulh f s
  | .mad f => Sys2Proof.Machine.execMad f s
  | .madw f => Sys2Proof.Machine.execMadw f s
  | .min f => Sys2Proof.Machine.execMin f s
  | .max f => Sys2Proof.Machine.execMax f s
  | .abs f => Sys2Proof.Machine.execAbs f s
  | .sad f => Sys2Proof.Machine.execSad f s
  | .and f => Sys2Proof.Machine.execAnd f s
  | .or f => Sys2Proof.Machine.execOr f s
  | .xor f => Sys2Proof.Machine.execXor f s
  | .andn f => Sys2Proof.Machine.execAndn f s
  | .shl f => Sys2Proof.Machine.execShl f s
  | .shr f => Sys2Proof.Machine.execShr f s
  | .sar f => Sys2Proof.Machine.execSar f s
  | .fshf f => Sys2Proof.Machine.execFshf f s
  | .bfx f => Sys2Proof.Machine.execBfx f s
  | .bfi f => Sys2Proof.Machine.execBfi f s
  | .popc f => Sys2Proof.Machine.execPopc f s
  | .clz f => Sys2Proof.Machine.execClz f s
  | .brev f => Sys2Proof.Machine.execBrev f s
  | .sel f => Sys2Proof.Machine.execSel f s
  | .lea f => Sys2Proof.Machine.execLea f s
  | .addx f => Sys2Proof.Machine.execAddx f s
  | .mov f => Sys2Proof.Machine.execMov f s
  | .movw f => Sys2Proof.Machine.execMovw f s
  | .ext f => Sys2Proof.Machine.execExt f s
  | .fadd f => Sys2Proof.Machine.execFadd f s
  | .fsub f => Sys2Proof.Machine.execFsub f s
  | .fmul f => Sys2Proof.Machine.execFmul f s
  | .ffma f => Sys2Proof.Machine.execFfma f s
  | .fmin f => Sys2Proof.Machine.execFmin f s
  | .fmax f => Sys2Proof.Machine.execFmax f s
  | .frcp f => Sys2Proof.Machine.execFrcp f s
  | .frsq f => Sys2Proof.Machine.execFrsq f s
  | .fsqrt f => Sys2Proof.Machine.execFsqrt f s
  | .fexp2 f => Sys2Proof.Machine.execFexp2 f s
  | .flog2 f => Sys2Proof.Machine.execFlog2 f s
  | .fdiv f => Sys2Proof.Machine.execFdiv f s
  | .fclass f => Sys2Proof.Machine.execFclass f s
  | .fdot2 f => Sys2Proof.Machine.execFdot2 f s
  | .cadd f => Sys2Proof.Machine.execCadd f s
  | .fstat f => Sys2Proof.Machine.execFstat f s
  | .shfl f => Sys2Proof.Machine.execShfl f s
  | .bcast f => Sys2Proof.Machine.execBcast f s
  | .ballot f => Sys2Proof.Machine.execBallot f s
  | .scan f => Sys2Proof.Machine.execScan f s
  | .redux f => Sys2Proof.Machine.execRedux f s
  | .matchLanes f => Sys2Proof.Machine.execMatchLanes f s
  | .hist f => Sys2Proof.Machine.execHist f s
  | .pack f => Sys2Proof.Machine.execPack f s
  | .cvt f => Sys2Proof.Machine.execCvt f s
  | .cvts f => Sys2Proof.Machine.execCvts f s
  | .qblk f => Sys2Proof.Machine.execQblk f s
  | .dqblk f => Sys2Proof.Machine.execDqblk f s
  | .ppq f => Sys2Proof.Machine.execPpq f s
  | .ppdq f => Sys2Proof.Machine.execPpdq f s
  | .osplit f => Sys2Proof.Machine.execOsplit f s
  | .efq f => Sys2Proof.Machine.execEfq f s
  | .iqs f => Sys2Proof.Machine.execIqs f s
  | .idqs f => Sys2Proof.Machine.execIdqs f s
  | .fscale f => Sys2Proof.Machine.execFscale f s
  | .fexpo f => Sys2Proof.Machine.execFexpo f s
  | .nfchk f => Sys2Proof.Machine.execNfchk f s
  | .rmuln f => Sys2Proof.Machine.execRmuln f s
  | .umuln f => Sys2Proof.Machine.execUmuln f s
  | .rshr f => Sys2Proof.Machine.execRshr f s
  | .ushr f => Sys2Proof.Machine.execUshr f s
  | .radd f => Sys2Proof.Machine.execRadd f s
  | .uadd f => Sys2Proof.Machine.execUadd f s
  | .rmad f => Sys2Proof.Machine.execRmad f s
  | .umad f => Sys2Proof.Machine.execUmad f s
  | .rlrel f => Sys2Proof.Machine.execRlrel f s
  | .ulrel f => Sys2Proof.Machine.execUlrel f s
  | .rnarr f => Sys2Proof.Machine.execRnarr f s
  | .unarr f => Sys2Proof.Machine.execUnarr f s
  | .rmark f => Sys2Proof.Machine.execRmark f s
  | .umark f => Sys2Proof.Machine.execUmark f s
  | .ld f => Sys2Proof.Machine.execLd f s
  | .st f => Sys2Proof.Machine.execSt f s
  | .lds f => Sys2Proof.Machine.execLds f s
  | .sts f => Sys2Proof.Machine.execSts f s
  | .ldv f => Sys2Proof.Machine.execLdv f s
  | .stv f => Sys2Proof.Machine.execStv f s
  | .prefL1 f => Sys2Proof.Machine.execPrefL1 f s
  | .prefLlc f => Sys2Proof.Machine.execPrefLlc f s
  | .disc f => Sys2Proof.Machine.execDisc f s
  | .flushWb f => Sys2Proof.Machine.execFlushWb f s
  | .flushInv f => Sys2Proof.Machine.execFlushInv f s
  | .flushL1 f => Sys2Proof.Machine.execFlushL1 f s
  | .atom f => Sys2Proof.Machine.execAtom f s
  | .cas f => Sys2Proof.Machine.execCas f s
  | .atoms f => Sys2Proof.Machine.execAtoms f s
  | .red f => Sys2Proof.Machine.execRed f s
  | .fenceAcq f => Sys2Proof.Machine.execFenceAcq f s
  | .fenceRel f => Sys2Proof.Machine.execFenceRel f s
  | .fenceFull f => Sys2Proof.Machine.execFenceFull f s
  | .fenceL1inv f => Sys2Proof.Machine.execFenceL1inv f s
  | .mwait f => Sys2Proof.Machine.execMwait f s
  | .sld f => Sys2Proof.Machine.execSld f s
  | .sst f => Sys2Proof.Machine.execSst f s
  | .hcopy f => Sys2Proof.Machine.execHcopy f s
  | .htile f => Sys2Proof.Machine.execHtile f s
  | .hfill f => Sys2Proof.Machine.execHfill f s
  | .hgather f => Sys2Proof.Machine.execHgather f s
  | .hscatter f => Sys2Proof.Machine.execHscatter f s
  | .hstat f => Sys2Proof.Machine.execHstat f s
  | .binit f => Sys2Proof.Machine.execBinit f s
  | .barrive f => Sys2Proof.Machine.execBarrive f s
  | .bexpect f => Sys2Proof.Machine.execBexpect f s
  | .bexpectArr f => Sys2Proof.Machine.execBexpectArr f s
  | .bwait f => Sys2Proof.Machine.execBwait f s
  | .btry f => Sys2Proof.Machine.execBtry f s
  | .bcont f => Sys2Proof.Machine.execBcont f s
  | .btrig f => Sys2Proof.Machine.execBtrig f s
  | .mldw f => Sys2Proof.Machine.execMldw f s
  | .mswap f => Sys2Proof.Machine.execMswap f s
  | .mstream f => Sys2Proof.Machine.execMstream f s
  | .mrdy f => Sys2Proof.Machine.execMrdy f s
  | .mdrain f => Sys2Proof.Machine.execMdrain f s
  | .mapply f => Sys2Proof.Machine.execMapply f s
  | .mzero f => Sys2Proof.Machine.execMzero f s
  | .mcfg f => Sys2Proof.Machine.execMcfg f s
  | .mscale f => Sys2Proof.Machine.execMscale f s
  | .mdmap f => Sys2Proof.Machine.execMdmap f s
  | .mstat f => Sys2Proof.Machine.execMstat f s
  | .taga f => Sys2Proof.Machine.execTaga f s
  | .tagf f => Sys2Proof.Machine.execTagf f s
  | .ksend f => Sys2Proof.Machine.execKsend f s
  | .ksends f => Sys2Proof.Machine.execKsends f s
  | .kstat f => Sys2Proof.Machine.execKstat f s
  | .kstatCtr f => Sys2Proof.Machine.execKstatCtr f s
  | .kcfgDest f => Sys2Proof.Machine.execKcfgDest f s
  | .kcfgTmo f => Sys2Proof.Machine.execKcfgTmo f s
  | .kcfgOvf f => Sys2Proof.Machine.execKcfgOvf f s
  | .fetch f => Sys2Proof.Machine.execFetch f s
  | .tdone f => Sys2Proof.Machine.execTdone f s
  | .gcfgTarget f => Sys2Proof.Machine.execGcfgTarget f s
  | .gcfgRung f => Sys2Proof.Machine.execGcfgRung f s
  | .gcfgProbe f => Sys2Proof.Machine.execGcfgProbe f s
  | .gstat f => Sys2Proof.Machine.execGstat f s
  | .gfill f => Sys2Proof.Machine.execGfill f s
  | .qloadx f => Sys2Proof.Machine.execQloadx f s
  | .qgemv f => Sys2Proof.Machine.execQgemv f s
  | .qfenceW f => Sys2Proof.Machine.execQfenceW f s
  | .qfenceR f => Sys2Proof.Machine.execQfenceR f s
  | .qfenceWr f => Sys2Proof.Machine.execQfenceWr f s
  | .qstat f => Sys2Proof.Machine.execQstat f s
  | .qstatSt f => Sys2Proof.Machine.execQstatSt f s
  | .llaunch f => Sys2Proof.Machine.execLlaunch f s
  | .lflagAdd f => Sys2Proof.Machine.execLflagAdd f s
  | .lflagSet f => Sys2Proof.Machine.execLflagSet f s
  | .lwait f => Sys2Proof.Machine.execLwait f s
  | .lstat f => Sys2Proof.Machine.execLstat f s
  | .seqNop f => Sys2Proof.Machine.execSeqNop f s
  | .xmit f => Sys2Proof.Machine.execXmit f s
  | .rcvst f => Sys2Proof.Machine.execRcvst f s
  | .rcvcmb f => Sys2Proof.Machine.execRcvcmb f s
  | .rcvcf f => Sys2Proof.Machine.execRcvcf f s
  | .rcvfw f => Sys2Proof.Machine.execRcvfw f s
  | .waitf f => Sys2Proof.Machine.execWaitf f s
  | .sigf f => Sys2Proof.Machine.execSigf f s
  | .sigfPeer f => Sys2Proof.Machine.execSigfPeer f s
  | .seqLoop f => Sys2Proof.Machine.execSeqLoop f s
  | .movi f => Sys2Proof.Machine.execMovi f s
  | .addi f => Sys2Proof.Machine.execAddi f s
  | .seqAdd f => Sys2Proof.Machine.execSeqAdd f s
  | .bnz f => Sys2Proof.Machine.execBnz f s
  | .scaleEnc f => Sys2Proof.Machine.execScaleEnc f s
  | .scaleDec f => Sys2Proof.Machine.execScaleDec f s
  | .seqYield f => Sys2Proof.Machine.execSeqYield f s
  | .seqHalt f => Sys2Proof.Machine.execSeqHalt f s
  | .launchc f => Sys2Proof.Machine.execLaunchc f s
  | .joinc f => Sys2Proof.Machine.execJoinc f s
  | .snap f => Sys2Proof.Machine.execSnap f s
  | .ctxswOut f => Sys2Proof.Machine.execCtxswOut f s
  | .ctxswIn f => Sys2Proof.Machine.execCtxswIn f s
  | .tlbiVa f => Sys2Proof.Machine.execTlbiVa f s
  | .tlbiCtx f => Sys2Proof.Machine.execTlbiCtx f s
  | .tlbiAll f => Sys2Proof.Machine.execTlbiAll f s
  | .tlbiIc f => Sys2Proof.Machine.execTlbiIc f s
  | .tlbiIcall f => Sys2Proof.Machine.execTlbiIcall f s
  | .eret f => Sys2Proof.Machine.execEret f s
  | .psrd f => Sys2Proof.Machine.execPsrd f s
  | .pswr f => Sys2Proof.Machine.execPswr f s
  | .wdplace f => Sys2Proof.Machine.execWdplace f s
  | .halt f => Sys2Proof.Machine.execHalt f s
  | .forcedSwitchPoint => Sys2Proof.Machine.execForcedSwitchPoint s
  | .barTimeout => Sys2Proof.Machine.execBarTimeout s
  | .mwaitWake => Sys2Proof.Machine.execMwaitWake s
  | .mwaitPoll => Sys2Proof.Machine.execMwaitPoll s
  | .mwaitTimeout => Sys2Proof.Machine.execMwaitTimeout s
  | .loadDataReturn => Sys2Proof.Machine.execLoadDataReturn s
  | .storePerform => Sys2Proof.Machine.execStorePerform s
  | .wideReleasePerform => Sys2Proof.Machine.execWideReleasePerform s
  | .deferredFaultReport => Sys2Proof.Machine.execDeferredFaultReport s
  | .registerCacheFill => Sys2Proof.Machine.execRegisterCacheFill s
  | .registerCacheWriteback => Sys2Proof.Machine.execRegisterCacheWriteback s
  | .softError => Sys2Proof.Machine.execSoftError s
  | .haulUnitTransfer => Sys2Proof.Machine.execHaulUnitTransfer s
  | .haulOpComplete => Sys2Proof.Machine.execHaulOpComplete s
  | .ashlarOpComplete => Sys2Proof.Machine.execAshlarOpComplete s
  | .ashBudgetWindow => Sys2Proof.Machine.execAshBudgetWindow s
  | .ksOperandArrive => Sys2Proof.Machine.execKsOperandArrive s
  | .ksOrphanTimeout => Sys2Proof.Machine.execKsOrphanTimeout s
  | .ksOrphanRecordExpiry => Sys2Proof.Machine.execKsOrphanRecordExpiry s
  | .ksForwardRetry => Sys2Proof.Machine.execKsForwardRetry s
  | .ksRecordDeferredWrite => Sys2Proof.Machine.execKsRecordDeferredWrite s
  | .groutFill => Sys2Proof.Machine.execGroutFill s
  | .probeMeasure => Sys2Proof.Machine.execProbeMeasure s
  | .gridEnd => Sys2Proof.Machine.execGridEnd s
  | .qloadxComplete => Sys2Proof.Machine.execQloadxComplete s
  | .qgemvComplete => Sys2Proof.Machine.execQgemvComplete s
  | .quarryOperandResend => Sys2Proof.Machine.execQuarryOperandResend s
  | .quarryAsyncFault => Sys2Proof.Machine.execQuarryAsyncFault s
  | .qryRateWindow => Sys2Proof.Machine.execQryRateWindow s
  | .launchPacketArrive => Sys2Proof.Machine.execLaunchPacketArrive s
  | .collectiveStart => Sys2Proof.Machine.execCollectiveStart s
  | .seqTurn => Sys2Proof.Machine.execSeqTurn s
  | .chunkArrive => Sys2Proof.Machine.execChunkArrive s
  | .peerFlagUpdateArrive => Sys2Proof.Machine.execPeerFlagUpdateArrive s
  | .seqSendTimeout => Sys2Proof.Machine.execSeqSendTimeout s
  | .childCopyTaken => Sys2Proof.Machine.execChildCopyTaken s
  | .joinPark => Sys2Proof.Machine.execJoinPark s
  | .teamPlace => Sys2Proof.Machine.execTeamPlace s
  | .preemption => Sys2Proof.Machine.execPreemption s
  | .feClaimRead => Sys2Proof.Machine.execFeClaimRead s
  | .emptyPacketPoll => Sys2Proof.Machine.execEmptyPacketPoll s
  | .andDependencyPoll => Sys2Proof.Machine.execAndDependencyPoll s
  | .packetComplete => Sys2Proof.Machine.execPacketComplete s
  | .faultRecordWrite => Sys2Proof.Machine.execFaultRecordWrite s
  | .uqWptrWrite => Sys2Proof.Machine.execUqWptrWrite s
  | .uqCfgWrite => Sys2Proof.Machine.execUqCfgWrite s
  | .uqCtrlResume => Sys2Proof.Machine.execUqCtrlResume s
  | .uqCtrlReset => Sys2Proof.Machine.execUqCtrlReset s
  | .feResumeRetry => Sys2Proof.Machine.execFeResumeRetry s
  | .feResumeSkip => Sys2Proof.Machine.execFeResumeSkip s
  | .feResumeEnd => Sys2Proof.Machine.execFeResumeEnd s
  | .feCtrlBoot => Sys2Proof.Machine.execFeCtrlBoot s
  | .fwCtrlRun => Sys2Proof.Machine.execFwCtrlRun s
  | .ctxCtrlPreempt => Sys2Proof.Machine.execCtxCtrlPreempt s
  | .snapFire => Sys2Proof.Machine.execSnapFire s
  | .snapStatusFullClear => Sys2Proof.Machine.execSnapStatusFullClear s
  | .snapInEdge => Sys2Proof.Machine.execSnapInEdge s
  | .snapPacketDue => Sys2Proof.Machine.execSnapPacketDue s
  | .fzSnapSend => Sys2Proof.Machine.execFzSnapSend s
  | .fzKeyctlInstall => Sys2Proof.Machine.execFzKeyctlInstall s
  | .linkTrain => Sys2Proof.Machine.execLinkTrain s
  | .linkDown => Sys2Proof.Machine.execLinkDown s
  | .flitTransmit => Sys2Proof.Machine.execFlitTransmit s
  | .flitReceive => Sys2Proof.Machine.execFlitReceive s
  | .fzRemapWrite => Sys2Proof.Machine.execFzRemapWrite s
  | .remapTakeEffect => Sys2Proof.Machine.execRemapTakeEffect s
  | .pkgcfgTakeEffect => Sys2Proof.Machine.execPkgcfgTakeEffect s
  | .remoteRequestArrive => Sys2Proof.Machine.execRemoteRequestArrive s
  | .remoteResponseArrive => Sys2Proof.Machine.execRemoteResponseArrive s
  | .fzGapTimeout => Sys2Proof.Machine.execFzGapTimeout s
  | .fzRequestTimeout => Sys2Proof.Machine.execFzRequestTimeout s
  | .ftimeTimingPacket => Sys2Proof.Machine.execFtimeTimingPacket s
  | .lnGo => Sys2Proof.Machine.execLnGo s
  | .lnSlotctlResume => Sys2Proof.Machine.execLnSlotctlResume s
  | .lnSlotctlAbort => Sys2Proof.Machine.execLnSlotctlAbort s
  | .lnSlotcfgWrite => Sys2Proof.Machine.execLnSlotcfgWrite s
  | .spStepsTakeEffect => Sys2Proof.Machine.execSpStepsTakeEffect s
  | .readClearRegister => Sys2Proof.Machine.execReadClearRegister s
  | .registerWrite => Sys2Proof.Machine.execRegisterWrite s
  | .hostBar2Access => Sys2Proof.Machine.execHostBar2Access s
  | .vfBar2Access => Sys2Proof.Machine.execVfBar2Access s
  | .vclkInterval => Sys2Proof.Machine.execVclkInterval s
  | .powerGovernorEval => Sys2Proof.Machine.execPowerGovernorEval s
  | .reset => Sys2Proof.Machine.execReset s
  | .lwaitTimeout => Sys2Proof.Machine.execLwaitTimeout s
  | .gfillTimeout => Sys2Proof.Machine.execGfillTimeout s
  | .llcLineEviction => Sys2Proof.Machine.execLlcLineEviction s
  | .l1LineEviction => Sys2Proof.Machine.execL1LineEviction s
  | .chunkCreditReturn => Sys2Proof.Machine.execChunkCreditReturn s
  | .zeroLengthReadCompletion => Sys2Proof.Machine.execZeroLengthReadCompletion s

end Sys2Proof.Machine
end

