-- ==== Sys2Proof/Machine/Schedule.lean ====
section
/-! DEFINITION. Whose turn it is (log 1): the turns the agenda brings, and, when it is empty, one of the turns that can do
something, that which has waited longest. -/

namespace Sys2Proof.Machine

open Sys2Proof

/-- The turn names agents that exist. -/
def Turn.wf (t : Turn) : Bool :=
  t.focus.core < 96 && t.focus.team ≤ 8 && t.focus.group < 256 && t.focus.port < 16 && t.focus.slot < 8
    && t.focus.context < 64

/-- A turn of a device event, when its condition holds. -/
def eventTurn (i : Instr) (f : Focus) (b : Bool) : List Turn :=
  if b then [{ what := .event i, focus := f }] else []

/-- Turns of one group: stores and loads that may perform, evicted registers, waits that have run out, monitored lines, wide
releases whose numbers are reached. -/
def State.groupTurns (s : State) (c t : Nat) (e : Nat × Group) : List Turn :=
  let g := e.2
  let f : Focus := { core := c, team := t, group := e.1 }
  let late := g.deadlines.any (fun d => decide (d.2 ≤ s.clock)) && g.waiting ≠ 0
  eventTurn .storePerform f ((g.storeQ.head?.map g.mayStore).getD false)
    ++ eventTurn .storePerform { f with number := 1 } (g.acks ≠ [])
    ++ eventTurn .loadDataReturn f (g.loads.any (g.mayReturn (s.strong c)))
    ++ eventTurn .registerCacheFill { f with number := g.evicted.headD 0 } (g.evicted ≠ [])
    ++ eventTurn .mwaitTimeout f (late && g.armed)
    ++ eventTurn .lwaitTimeout f (late && !g.armed)
    ++ eventTurn .gfillTimeout f (late && !g.armed)
    ++ eventTurn .mwaitWake f (g.armed && g.waiting ≠ 0)
    ++ eventTurn .wideReleasePerform f (g.stalled ≠ 0
      && g.recorded.any (fun r => s.releaseDue c ((s.team? c t).getD {}).gridSlot e.1 r.2))

/-- Turns of one team: its groups', Quarry operations, a switch-out on its way, and a team whose groups all wait at JOINC. -/
def State.teamTurns (s : State) (c : Nat) (e : Nat × Team) : List Turn :=
  let m := e.2
  let f : Focus := { core := c, team := e.1 }
  m.groups.flatMap (s.groupTurns c e.1)
    ++ eventTurn .qloadxComplete f (m.quarry.any (fun o => !o.gemv && m.slotReady o))
    ++ eventTurn .qgemvComplete f (m.quarry.any (fun o => o.gemv && (o.over || m.qmayRun o)))
    ++ eventTurn .quarryAsyncFault f (m.quarry.any m.qmayRun)
    ++ eventTurn .quarryOperandResend f (m.quarry.any s.resendDue)
    ++ (match m.residency with
      | .leaving _ _ => eventTurn (if m.joinParked then .joinPark else .preemption) f true
      | .resident => eventTurn .joinPark f m.joinsOnly
      | .out _ => [])

/-- Turns of one core: its slots, its teams, its firmware slot's own memory accesses, its engines, and its placement. -/
def State.coreTurns (s : State) (c : Nat) (k : Core) : List Turn :=
  let f : Focus := { core := c }
  ((List.range 4).filter (fun n => (k.slotGroups n).any (fun e =>
      ((sfind e.1 k.teams).bind (fun m => sfind e.2 m.groups)).elim false Group.isReady))).map (fun n =>
        ({ what := .issue, focus := { core := c, slot := n } } : Turn))
    ++ (if (s.reg (offCore c + 0x300)).getLsbD 0 && k.fw.groups.any (fun e => e.2.isReady)
      then [{ what := .firmware, focus := f }] else [])
    ++ k.teams.flatMap (s.teamTurns c) ++ s.teamTurns c (8, k.fw)
    ++ eventTurn .haulUnitTransfer f (k.haul.any (s.haulRuns c) && !s.veiledCore c)
    ++ eventTurn .haulOpComplete f (k.haul.any (fun o => s.haulOver o && (k.slotOf o.grid).isSome))
    ++ eventTurn .ashlarOpComplete f (k.ash.queue ≠ [] && k.ashOwner.isSome)

/-- Firmware slots that run on cores whose state is otherwise at reset. -/
def State.firmwareTurns (s : State) : List Turn :=
  ((List.range 96).filter (fun c => (s.reg (offCore c + 0x300)).getLsbD 0 && (sfind c s.cores).isNone)).map (fun c =>
    { what := .firmware, focus := { core := c } })

/-- Turns of the work distributor: teams to place, teams to take back, grids that end, records to copy. -/
def State.placeTurns (s : State) : List Turn :=
  ((List.range 96).flatMap (fun c => eventTurn .teamPlace { core := c }
      (s.placeable c ≠ [] || s.switchIns.any (fun w => w.core = c))))
    ++ s.away.flatMap (fun m => eventTurn .joinPark { core := m.core }
      (m.joinParked && m.joinReady && s.admitsBack m.core m))
    ++ eventTurn .gridEnd {} (s.ending.any (fun g => g.openJobs = 0) || s.grids.any (fun e => e.2.over))
    ++ eventTurn .childCopyTaken {} ((s.poolWait.head?).any (fun p => p.stopped.isNone) && decide (s.pool.length < 4096))

/-- Turns of the Keystone stations and of Grout. -/
def State.stationTurns (s : State) : List Turn :=
  eventTurn .ksOperandArrive {} (s.ksFlight ≠ [])
    ++ eventTurn .ksForwardRetry {} (s.ksRetry.any (fun o => decide (s.uncore ≥ o.since + 1024)))
    ++ eventTurn .ksRecordDeferredWrite {} (s.ksHeld.any s.ksMoves)
    ++ eventTurn .groutFill {} (s.groutReady false ≠ [])
    ++ eventTurn .probeMeasure {} (s.groutReady true ≠ [])

/-- Turns of one port and its sequencer. -/
def State.portTurns (s : State) (p : Nat) : List Turn :=
  let f : Focus := { port := p }
  let q := s.port p
  let slots (h : Nat → Slot → Bool) (i : Instr) : List Turn :=
    (sget {} s.seqs p).slots.flatMap (fun e => eventTurn i { f with slot := e.1 } (h e.1 e.2))
  (if s.seqRuns p && (sget {} s.seqs p).slots.any (fun e => e.2.state = .ready || e.2.state = .run || e.2.state = .wait)
    then [{ what := .sequencer, focus := f }] else [])
    ++ slots (fun _ t => t.state = .free && t.queue ≠ []) .collectiveStart
    ++ slots (fun _ t => (t.sent.head?.map (fun e => decide (e.1 = s.pkgid))).getD false) .chunkArrive
    ++ slots (fun _ t => (t.peerSent.head?.map (fun e => decide (e.1 = s.pkgid))).getD false) .peerFlagUpdateArrive
    ++ eventTurn .remapTakeEffect f (s.portIdle p && decide (q.remap ≠ s.remapWanted p))

/-- Turns of the front end: records and reports, packets, snapshots, the host link. -/
def State.frontTurns (s : State) : List Turn :=
  eventTurn .faultRecordWrite {} (s.records.any (fun r => s.fqRoom r.context))
    ++ eventTurn .deferredFaultReport {} (s.reports ≠ [])
    ++ eventTurn .launchPacketArrive {} (s.launchSent ≠ [])
    ++ eventTurn .pkgcfgTakeEffect {} (s.pkgcfg ≠ s.reg offFz && (List.range 16).all (fun p => (s.port p).outstanding = []))
    ++ s.emptySince.flatMap (fun e => eventTurn .emptyPacketPoll { number := e.1 } (decide (e.2 + 1024 ≤ s.uncore)))
    ++ s.claimed.flatMap (fun c => eventTurn .andDependencyPoll { number := c.queue, index := c.index }
        (!c.complete && packetKind c.header = 3 && ((c.polled.map (fun t => decide (t + 1024 ≤ s.uncore))).getD true
          || s.far.any (fun f => f.request.isNone && (match f.reader with
            | .dep q i _ => q = c.queue && i = c.index
            | _ => false))))
      ++ eventTurn .packetComplete { number := c.queue, index := c.index } (!c.complete
        && (c.written.map (fun w => s.marksMet w.1)).getD (c.over false)))
    ++ eventTurn .zeroLengthReadCompletion { number := s.hostPostedNext } (s.hostPosted ≠ [] || s.evConfirm ≠ [])

/-! ## What the passage of time brings

An event of this section takes place at a moment that the spec fixes. `start` is the time of the last turn; the state is that at
the time of the next one. -/

/-- Team barriers that have timed out before the core cycle of the turn. A cycle's timeouts come at its end, after its arrivals
and exits and with the BAR_TIMEOUT that its words leave: the cycle of the last turn is the first that is not yet judged (R121). -/
def State.barsDue (s : State) (start : Nat) : List (Nat × Turn) :=
  s.cores.flatMap (fun k => k.2.teams.flatMap (fun t => (List.range 16).filterMap (fun n =>
    let m := t.2
    let age := (s.clock + 2 ^ 48 - (m.tbar n).first) % 2 ^ 48
    let cycle := max (start / 5) (s.clock - age + m.barTimeout.toNat + 1)
    if m.barTimeout ≠ 0 ∧ (m.tbar n).arrived ≠ 0 ∧ cycle < s.clock ∧ age ≤ s.clock then
      some (5 * cycle + 4, { what := .event .barTimeout, focus := { core := k.1, team := t.1, index := n } })
    else none)))

/-- Operands that have waited for TIMEOUT before the uncore cycle of the turn, whose arrivals come first, and orphan records that
have aged past it (R303). -/
def State.orphansDue (s : State) : List (Nat × Turn) :=
  (s.stations.flatMap (fun e => e.2.store) ++ s.ksOverflow).filterMap (fun o =>
    let t := o.since + s.ksTimeout (tagCtx o.tag)
    if t < s.uncore then some (6 * t, { what := .event .ksOrphanTimeout }) else none)
  ++ s.stations.flatMap (fun e => e.2.orphans.filterMap (fun o =>
    let t := o.2 + s.ksTimeout (tagCtx o.1) + 1
    if t ≤ s.uncore then some (6 * t, { what := .event .ksOrphanRecordExpiry }) else none))

/-- Requests, gaps and sends of the ports that FZ_TIMEOUT has ended (R362, R364, R382). -/
def State.portsDue (s : State) : List (Nat × Turn) :=
  let ended (since : Nat) (i : Instr) (f : Focus) : List (Nat × Turn) :=
    if since + s.fzTimeout < s.ns then [(12 * (since + s.fzTimeout), { what := .event i, focus := f })] else []
  (List.range 16).flatMap (fun p =>
    (s.port p).outstanding.flatMap (fun o => if o.reported then [] else ended o.since .fzRequestTimeout { port := p, number := o.id })
    ++ (s.port p).ingress.flatMap (fun e => e.2.gapSince.toList.flatMap (fun t => ended t .fzGapTimeout { port := p, number := e.1 }))
    ++ (sget {} s.seqs p).slots.flatMap (fun e => e.2.sending.toList.flatMap (fun d =>
      ended d.since .seqSendTimeout { port := p, slot := e.1 })))

/-- Snapshot packets whose due time fabric time has reached: they latch at the first such uncore cycle (R66). -/
def State.snapsDue (s : State) : List (Nat × Turn) :=
  s.snapDue.filterMap (fun d => if d ≤ s.ftime then
    some (12 * ((d : Int) - s.ftimeOffset).toNat, { what := .event .snapPacketDue }) else none)

/-- A partition that has been written takes effect when the core has no resident team, before anything else happens (R136). -/
def State.partitionsDue (s : State) : List (Nat × Turn) :=
  s.cores.filterMap (fun k => if k.2.spWritten && k.2.teams = [] then
    some (0, { what := .event .spStepsTakeEffect, focus := { core := k.1 } }) else none)

/-- Insert by time, after what stands at the same time. -/
def insertByTime (e : Nat × Turn) : List (Nat × Turn) → List (Nat × Turn)
  | [] => [e]
  | x :: xs => if e.1 < x.1 then e :: x :: xs else x :: insertByTime e xs

/-- What has fallen due since the last turn, at `start`, in order of time. -/
def State.overdue (s : State) (start : Nat) : List (Nat × Turn) :=
  let all := s.partitionsDue ++ s.barsDue start ++ s.orphansDue ++ s.portsDue ++ s.snapsDue
  (all.map (fun e => (min s.ticks (max start e.1), e.2))).foldl (fun l e => insertByTime e l) []

/-- Every turn that the model offers when the agenda is empty: what the package does by itself. What comes from outside, and
what a device does at a moment of its choosing without need, comes with the agenda only. -/
def State.offered (s : State) : List Turn :=
  s.firmwareTurns ++ s.cores.flatMap (fun e => s.coreTurns e.1 e.2) ++ s.placeTurns ++ s.stationTurns
    ++ (List.range 16).flatMap s.portTurns ++ s.frontTurns

/-- The turns that are offered, those offered longest without a break first. -/
def State.queue (s : State) : List Turn :=
  let now := s.offered
  s.queued.filter now.contains ++ now.filter (fun t => !s.queued.contains t)

/-- The next turn, and the state without it: when the agenda is empty, the turn that has been offered longest, so that what can
go on does go on (R46). -/
def State.nextTurn (s : State) : Turn × State :=
  match s.agenda with
  | t :: rest => (t, { s with agenda := rest })
  | [] =>
    match s.queue with
    | [] => ({ what := .issue }, { s with queued := [] })
    | t :: ts => (t, { s with queued := ts })

/-- The state in which a turn acts: its time has passed, the host's writes have landed, and its focus and input stand. -/
def State.begin (s : State) (t : Turn) : State :=
  { s with
    ticks := s.ticks + t.dt, turns := s.turns + 1, focus := t.focus, input := t.input
    dram := t.host.foldl (fun m c => if region c.1 = .pci then m.setByte c.1 c.2 else m) s.dram }

/-- Timeouts that the spec places behind the arrivals of their cycle: only the passage of time brings them (R121, R303). -/
def atCycleEnd : What → Bool
  | .event .barTimeout | .event .ksOrphanTimeout => true
  | _ => false

/-- What still runs after a TRIP: management space, with the records of its MACHINE_CHECKs, and the host link (R434). -/
def afterTrip : What → Bool
  | .event i =>
    match i with
    | .readClearRegister | .registerWrite | .hostBar2Access | .vfBar2Access | .zeroLengthReadCompletion | .reset
    | .uqWptrWrite | .uqCfgWrite | .uqCtrlResume | .uqCtrlReset | .feResumeRetry | .feResumeSkip | .feResumeEnd
    | .feCtrlBoot | .fwCtrlRun | .ctxCtrlPreempt | .snapFire | .snapStatusFullClear | .fzSnapSend | .fzKeyctlInstall
    | .faultRecordWrite | .fzRemapWrite | .lnGo | .lnSlotctlResume | .lnSlotctlAbort | .lnSlotcfgWrite | .feClaimRead => true
    | _ => false
  | _ => false

end Sys2Proof.Machine
end

