-- ==== Sys2Proof/Machine/Step.lean ====
section
/-! DEFINITION. One step of the package: the next turn acts. -/

namespace Sys2Proof.Machine

open Sys2Proof

/-- What follows a word that issued: the ninth word is a switch point (R42). -/
def afterWord (o : Host.Outcome State Fault Refusal) : Host.Outcome State Fault Refusal :=
  match o with
  | .next s => exec .forcedSwitchPoint s
  | o => o

/-- Fetch, decode and run the next word of the group that `focus` names. -/
def runWord (s : State) : Host.Outcome State Fault Refusal :=
  match s.resumeLoop with
  | (s1, some t) => .next (s1.fetchFault t)
  | (s1, none) =>
    match s1.fetchNext with
    | (s2, .error t) => .next (s2.fetchFault t)
    | (s2, .ok w) =>
      match decodeWord w with
      | .ok i => afterWord (exec i s2)
      | .error (.reservedOpcode op) => afterWord (.next (s2.illegalWord op w))
      | .error _ => .next s2

/-- Run the next instruction of the port that `focus` names (R376, R378). -/
def runSequencer (s : State) : Host.Outcome State Fault Refusal :=
  match s.seqEnter s.focus.port with
  | (s1, none) => .next s1
  | (s1, some w) =>
    match decodeSeqWord w with
    | .ok i => exec i s1
    | .error _ => .next s1.seqReserved

/-- What a turn does. -/
def act (w : What) (s : State) : Host.Outcome State Fault Refusal :=
  match w with
  | .issue =>
    match s.enterSlot s.focus.core (s.focus.slot % 4) with
    | (s1, true) => runWord s1
    | (s1, false) => .next s1
  | .firmware =>
    match s.enterFirmware s.focus.core with
    | (s1, true) => runWord s1
    | (s1, false) => .next s1
  | .sequencer => runSequencer s
  | .event i => if i.isEvent then exec i s else .fault .noSuchAgent

/-- What a try of a waiting word leaves of it: what its wait has done is kept, and the group and the slots of its core schedule as
before. -/
def State.afterTry (s old : State) (f : Focus) (g : Group) : State :=
  let s1 := s.modGroup f.core f.team f.group (fun h =>
    { h with cur := g.cur, run := g.run, count := g.count, latches := g.latches, pathLoop := g.pathLoop, waits := g.waits
             greed := g.greed, yielded := g.yielded, yieldPend := g.yieldPend })
  { s1.modCore f.core (fun k => { k with slots := (old.core f.core).slots }) with focus := old.focus, input := old.input }

/-- Try the next word of a waiting path of the group that `f` names: nothing when it can issue now, and otherwise the state in
which it goes on waiting. -/
def State.tryPath (s : State) (f : Focus) (g : Group) (p : Lanes) : Option State :=
  let h : Group := { g with cur := p, latches := [], run := 0, count := 0, pathLoop := none }
  match runWord ({ s with focus := f, input := .none } |>.modGroup f.core f.team f.group (fun _ => h)) with
  | .next s1 =>
    match s1.group? f.core f.team f.group with
    | some k =>
      if k.stop.isNone && (lanesOf p).all (fun l => (k.waiting ||| k.stalled).getLsbD l && decide (k.pc l = g.pc l)) then
        some (s1.afterTry s f g)
      else none
    | none => none
  | _ => none

/-- The paths of a group whose words are tried again: those that wait, but not at a TBAR, which the completion of its barrier
moves on by itself (R120). -/
def Group.toTry (g : Group) : List Lanes :=
  g.paths.filter (fun p => p &&& (g.waiting ||| g.stalled) ≠ 0 && g.tbwait.all (fun e => p &&& e.2 = 0))

/-- Paths whose words can issue wait no more. In a group that was in a long wait, the path that became ready first becomes
current (R102). -/
def Group.ready (g : Group) (ps : List Lanes) (ticks : Nat) : Group :=
  let all := ps.foldl (fun (acc : Lanes) p => acc ||| p) 0
  let g1 : Group := { g with waiting := g.waiting &&& ~~~ all, stalled := g.stalled &&& ~~~ all }
  let q := g.firstPath ps
  let g2 := if g.longWait && q ≠ 0 && q ≠ g.cur &&& g.live then
      { g1.setWaits (g.cur &&& g.live) ticks with cur := q, run := 0, pathLoop := none }
    else g1
  g2.noteReady g ticks

/-- Try the waiting words of a group for which an event may have come (R91). -/
def State.retryGroup (s : State) (f : Focus) : State :=
  match s.group? f.core f.team f.group with
  | none => s
  | some g =>
    if !g.retry then s else
    let s0 := s.modGroup f.core f.team f.group (fun g => { g with retry := false })
    if !g.inSlot then s0 else
    let r := g.toTry.foldl (fun (a : State × List Lanes) p =>
      match (a.1.group? f.core f.team f.group).bind (fun h => a.1.tryPath f h p) with
      | some s1 => (s1, a.2)
      | none => (a.1, a.2 ++ [p])) (s0, [])
    if r.2 = [] then r.1 else r.1.modGroup f.core f.team f.group (fun g => g.ready r.2 s.ticks)

/-- Every group for which an event may have come that its words wait for. -/
def State.toRetry (s : State) : List Focus :=
  s.cores.flatMap (fun k => ((8, k.2.fw) :: k.2.teams).flatMap (fun t =>
    (t.2.groups.filter (fun g => g.2.retry)).map (fun g =>
      { core := k.1, team := t.1, group := g.1, slot := if t.1 = 8 then 4 else g.1 % 4 })))

/-- Try the words for which an event has come. -/
def State.retryAll (s : State) : State := s.toRetry.foldl State.retryGroup s

/-- What the package keeps up after every turn: requests that no package takes end (R364), the images of switched-out teams
follow (R421), TLBI words that wait are tried (R428), and so are the words for which an event has come (R91). -/
def settle (old : State) (o : Host.Outcome State Fault Refusal) : Host.Outcome State Fault Refusal :=
  match o with
  | .next s => .next (old.syncAway s.failBeyond).wakeDrains.retryAll.failBeyond
  | o => o

/-- One event that has fallen due takes place at its time. -/
def State.fallDue (s : State) (e : Nat × Turn) : State :=
  match act e.2.what { s with ticks := e.1, focus := e.2.focus, input := .none } with
  | .next s1 => { s1 with ticks := s.ticks, focus := s.focus, input := s.input }
  | _ => s

/-- What has fallen due since the last turn, at `start`, takes place, in order of time (log 29). -/
def State.catchUp (s : State) (start : Nat) : State :=
  if s.tripped then s else (s.overdue start).foldl State.fallDue s

/-- One step. -/
def step (s : State) : Host.Outcome State Fault Refusal :=
  let t := s.nextTurn
  if !t.1.wf then .fault .noSuchAgent else
  let s1 := t.2.begin t.1
  if s1.tripped && !afterTrip t.1.what then .next s1 else
  let s2 := s1.catchUp s.ticks
  settle s2 (if atCycleEnd t.1.what then .next s2 else act t.1.what s2)

/-- The state with a word placed where the next step fetches it: core 0's firmware slot runs, its word stands at its program
counter in DRAM, and the next turn is its own (log 8). -/
def State.withFetchWord (s : State) (_nbits w : Nat) : State :=
  { (s.setReg 0x300 1).modCore 0 (fun k => { k with issued := none, fwIssued := none }) with
    agenda := { what := .firmware } :: s.agenda
    dram := s.dram.write (pcAddr ((s.group? 0 8 0).getD {}).pathPc) (bytesOfNat 8 w) }

end Sys2Proof.Machine
end

