-- ==== Sys2Proof/Safety.lean ====
section
/-! DEFINITION. What counts as a safe step, and the terms in which frames are stated: what of a group a word keeps, and what
of the package a word of one group keeps. -/

namespace Sys2Proof.Machine

open Sys2Proof

/-- The step neither faults nor is refused. -/
def State.Steps (s : State) : Prop := ∃ t, step s = .next t

/-- Of a group: the lanes that have exited or are held, futures, rejoin and barrier state, monitors, SEEDs and Spoil stacks,
and its accesses under way are as they were. -/
structure Group.KeptInner (g h : Group) : Prop where
  kmask : h.kmask = g.kmask
  meetv : h.meetv = g.meetv
  exited : h.exited = g.exited
  held : h.held = g.held
  heldK : h.heldK = g.heldK
  spend : h.spend = g.spend
  seed : h.seed = g.seed
  spoil : h.spoil = g.spoil
  mwaitAddr : h.mwaitAddr = g.mwaitAddr
  mwaitValue : h.mwaitValue = g.mwaitValue
  tblanes : h.tblanes = g.tblanes
  tbwait : h.tbwait = g.tbwait
  bwstate : h.bwstate = g.bwstate
  bwlanes : h.bwlanes = g.bwlanes
  storeQ : h.storeQ = g.storeQ
  loads : h.loads = g.loads
  memNext : h.memNext = g.memNext
  posted : h.posted = g.posted

/-- Of a group: its scalar and vector registers with their poison, its predicates and its sticky flags are as they were. -/
structure Group.KeptRegs (g h : Group) : Prop where
  sreg : h.sreg = g.sreg
  vreg : h.vreg = g.vreg
  sregPoison : h.sregPoison = g.sregPoison
  vregPoison : h.vregPoison = g.vregPoison
  predv : h.predv = g.predv
  fpflags : h.fpflags = g.fpflags

/-- The management registers that a trap or a return of the firmware slot of core `c` writes (R405): FW_CTRL, FW_EPC, FW_ECAUSE,
FW_EADDR and FE_STATUS. -/
def trapRegs (c : Nat) : List Nat := [offCore c + 0x300, offCore c + 0x310, offCore c + 0x318, offCore c + 0x320, offFe + 8]

/-- Outside the group that `focus` names, what programs, hosts and engines can read is as it was: memory with its poison, the
LLC, every other core, of its own core all but its teams and issue slots, every other team, of its own team every other group
and all but its future table; ports, sequencers, stations and grids; and every management register but
those of a firmware trap. -/
structure State.Elsewhere (s t : State) : Prop where
  focus : t.focus = s.focus
  ticks : t.ticks = s.ticks
  dram : t.dram = s.dram
  llc : t.llc = s.llc
  poison : t.poison = s.poison
  tlb : t.tlb = s.tlb
  ports : t.ports = s.ports
  seqs : t.seqs = s.seqs
  stations : t.stations = s.stations
  grids : t.grids = s.grids
  mgmt : ∀ o, o ∉ trapRegs s.focus.core → t.reg o = s.reg o
  cores : ∀ c, c ≠ s.focus.core → t.core c = s.core c
  core : { t.core s.focus.core with teams := [], fw := {}, slots := [] }
    = { s.core s.focus.core with teams := [], fw := {}, slots := [] }
  teams : ∀ n, n ≠ s.focus.team → t.team? s.focus.core n = s.team? s.focus.core n
  groups : ∀ n, n ≠ s.focus.group → t.group? s.focus.core s.focus.team n = s.group? s.focus.core s.focus.team n
  team : { t.ownTeam with groups := [], ftab := [] } = { s.ownTeam with groups := [], ftab := [] }

/-- The counter register of the loop that the current path runs, if it runs one (R86). -/
def Group.counter (g : Group) : Option Nat := if pcLooping g.pathPc then some (g.pathLoop.getD (0, 64)).1 else none

/-- Of a group: every vector register and predicate but the predicates `ps`, every flag, mask, SEED and Spoil stack, the lanes that
have exited and the queued stores are as they were; and of the scalar registers that `keep` holds of, the value, but of the counter of
the loop that the path runs, the poison, and whether they are pending. -/
structure Group.KeptBut (g h : Group) (keep : Nat → Bool) (ps : List Nat) : Prop where
  vreg : h.vreg = g.vreg
  vregPoison : h.vregPoison = g.vregPoison
  fpflags : h.fpflags = g.fpflags
  kmask : h.kmask = g.kmask
  exited : h.exited = g.exited
  seed : h.seed = g.seed
  spoil : h.spoil = g.spoil
  storeQ : h.storeQ = g.storeQ
  prd : ∀ l j, j < 63 → j ∉ ps → h.p l j = g.p l j
  scal : ∀ n, keep n = true → g.counter ≠ some n → h.s n = g.s n
  pend : ∀ n, keep n = true → h.pending n = g.pending n
  scalPoison : ∀ n, keep n = true → h.sregPoison.contains n = g.sregPoison.contains n

/-- What a word that computes lane by lane may have changed of its group: its destination in the lanes that it runs in, the
predicates `ks` that it writes in its active lanes, the flags that it raises, the counter of the loop that it closes; the
latches, paths and program counters; and, in a trap, what a trap changes. -/
structure State.Computed (s t : State) (sh : Shape) (f : Full) (ks : List Nat) : Prop where
  elsewhere : s.Elsewhere t
  some : t.own?.isSome = true
  inner : s.own.KeptInner t.own
  flags : ∀ i, s.own.fpflags.getLsbD i = true → t.own.fpflags.getLsbD i = true
  vec : ∀ n l, l < 32 → t.own.v n l ≠ s.own.v n l → ∃ u m, sh.dst = .some u ∧ opd u.enc = .v m ∧ f.w = false
    ∧ (n = m ∨ (n = m + 1 ∧ u.regs ≠ 1)) ∧ (s.own.activeFor f).getLsbD l = true
  scal : ∀ n, t.own.s n ≠ s.own.s n → s.own.counter = .some n ∨ ∃ u, sh.dst = .some u ∧ opd u.enc = .s n
  prd : ∀ l j, j < 63 → t.own.p l j ≠ s.own.p l j → j ∈ ks ∧ (s.own.activeFor f).getLsbD l = true

/-- The state is in canonical form, so that what reads alike is alike: byte memories list rising addresses and no byte 0, in DRAM, in
the lines of the LLC and in the scratchpad of every team, resident, of the firmware slot or switched out; sparse maps list rising keys;
and no management register is listed at its reset value. -/
structure State.Canonical (s : State) : Prop where
  dram : s.dram.wf = true
  llc : Sparse.rising 0 s.llc = true
  lines : ∀ e ∈ s.llc, e.2.bytes.wf = true
  cores : Sparse.rising 0 s.cores = true
  fw : ∀ e ∈ s.cores, e.2.fw.scratch.wf = true
  teams : ∀ e ∈ s.cores, ∀ m ∈ e.2.teams, m.2.scratch.wf = true
  away : ∀ m ∈ s.away, m.scratch.wf = true
  mgmt : Sparse.rising 0 s.mgmt = true
  regs : ∀ e ∈ s.mgmt, e.2 ≠ ((mgmtReg e.1).getD {}).reset
  ports : Sparse.rising 0 s.ports = true
  seqs : Sparse.rising 0 s.seqs = true
  grids : Sparse.rising 0 s.grids = true
  stations : Sparse.rising 0 s.stations = true

end Sys2Proof.Machine
end

