-- ==== Sys2Proof/Certificates/Slice0/Obligations.lean ====
section
/-! DEFINITION. The statements for the provers, with the few definitions that they share.

A word's completion is stated as an equation: in every state in which the word is `ready` (its group exists, some lane is
active, no check of R80 fails, nothing it names blocks) and its sources are `clean`, `exec` answers the state in which the
word has retired with exactly the effect that its rule gives. What a retirement leaves, register by register, and what it
leaves alone, is stated once, about `State.finish`. -/

namespace Sys2Proof.Claims

open Sys2Proof Sys2Proof.Machine

/-- The state in which a word issues: its group has taken back the latches that it kept at a wait (R43). -/
def found (s : State) : State := s.modOwn Group.restore

/-- The active lanes of a full-form word (R79). -/
def active (f : Full) (s : State) : Lanes := (found s).own.activeFor f

/-- The word issues and has its effect: its group exists, some lane is active, every check of R80 passes, no scalar register
that it names is pending (R23), no register that it names awaits data (R145), and if it reads scratchpad at issue, the group's
earlier scratchpad loads have read (R34). -/
def ready (sh : Shape) (f : Full) (s : State) : Bool :=
  s.own?.isSome && active f s != 0
    && (sh.check f (found s).ownTeam s.focus.group (found s).own).isNone
    && !sh.uses.any (fun u => u.isPending (found s).own)
    && !sh.uses.any (fun u => u.inFlight (found s).own)
    && !sh.heldUp (found s).own

/-- No active lane reads a poisoned value in the fields `us` (R163). -/
def clean (us : List Use) (f : Full) (s : State) : Bool := ((found s).poisonTrap us (active f s)).isNone

/-- The word retires, with the effect `r`. -/
def retires (i : Instr) (sh : Shape) (f : Full) (s : State) (r : Retire) : Prop :=
  exec i s = .next ((found s).finish sh f r)

/-- The word waits at its place: a switch point that has not issued (R41, R91); `t` is the state with what it has already
done. -/
def waits (i : Instr) (t : State) (s : State) : Prop := exec i s = .next t.waitHere

/-- The word traps precisely and has no effect. -/
def traps (i : Instr) (sh : Shape) (f : Full) (s : State) (t : Trap) : Prop :=
  exec i s = .next ((found s).trapWord (active f s) sh t)

/-- The retirement of a word that computes `fn` in each lane of its path from the values of its sources. A predicate that
the scalar path writes is written in every active lane (R109). -/
def computed (sh : Shape) (fn : Nat → List Word → LaneOut) (s : State) (act : Lanes) : Retire :=
  let out (l : Nat) : LaneOut := fn l (sh.srcs.map (fun u => s.value u l))
  { s := s
    result := some { vals := (sh.path act).map (fun l => (l, (out l).val)) }
    flags := (sh.path act).foldl (fun acc l => acc ||| (out l).flags) 0
    preds := (sh.path act).flatMap (fun l => (out l).preds.flatMap (fun p =>
      (if sh.scalarPath then lanesOf act else [l]).map (fun j => (j, p.1, p.2)))) }

/-- A word that computes lane by lane retires with what it computes. -/
def computes (i : Instr) (sh : Shape) (f : Full) (s : State) (fn : Nat → List Word → LaneOut) : Prop :=
  ready sh f s = true → clean sh.srcs f s = true → retires i sh f s (computed sh fn (found s) (active f s))

/-- A cross-lane word reads every source lane before it writes, and retires with what `fn` gives in each active lane. -/
def crosses (i : Instr) (sh : Shape) (f : Full) (s : State) (a : Use) (reads : Reads) (own : List Use)
    (fn : (Nat → Nat) → Nat → Nat) (flags : (Nat → Nat) → BitVec 5 := fun _ => 0) : Prop :=
  let v (l : Nat) : Nat := ((found s).value a l).toNat
  ready sh f s = true → (found s).crossPoison (active f s) a reads own = none → retires i sh f s {
    s := found s
    result := some { vals := (lanesOf (active f s)).map (fun l => (l, BitVec.ofNat 64 (fn v l))) }
    flags := flags v }

/-- The retirement of a word that rounds with the lanes' SEEDs when `on` holds: the SEEDs of its path advance (R53). -/
def seeded (sh : Shape) (act : Lanes) (on : Bool) (r : Retire) : Retire :=
  { r with s := if on then r.s.stepSeeds (sh.path act) else r.s }

/-- The word's release, where it has one, may perform, leaving `t` (R36, R142): the group's earlier accesses are complete and
the gate of its scope lets it by. -/
def opens (s : State) (act : Lanes) (release : Bool) (scope : Nat) (t : State) : Prop :=
  if release then s.own.quiet = true ∧ s.wideGate act scope = .go t else t = s

/-- The operation starts: its release performs, its engine has room, and it has a future-table entry where its word asks for a
handle (R25, R38). The word then retires. -/
def starts (i : Instr) (sh : Shape) (f : Full) (s : State) (from_ : State) (engine scope : Nat) (room : State → Bool)
    (start : State → Option Word → State) : Prop :=
  ∀ t : State, opens from_ (active f s) true scope t → room t = true →
    (handleReg f = none → retires i sh f s { s := start t none })
    ∧ ∀ (r : Nat) (h : Word) (u : State), handleReg f = some r → t.allocFuture engine (some r) scope = some (h, u) →
        retires i sh f s { s := start u (some h) }

/-- The word is ready and its sources are clean. -/
def issues (sh : Shape) (f : Full) (s : State) : Prop := ready sh f s = true ∧ clean sh.srcs f s = true

end Sys2Proof.Claims

open Sys2Proof Sys2Proof.Machine Sys2Proof.Claims

/-! ## Integer, move and floating-point words -/

/-- R170 to R176: in every state in which the word is ready and its sources are clean, each integer word retires, and every
lane of its path computes the value that its rule gives from the exact integers, or the bits, of its operands. -/
def Obligations.IntegerWordsComputeTheirResults : Prop :=
  ∀ (f : Full) (s : State),
    computes (.add f) (intShape 0x20 2 f (sat := true)) f s (exactInt f (fun a b _ => a + b))
    ∧ computes (.sub f) (intShape 0x21 2 f (sat := true)) f s (exactInt f (fun a b _ => a - b))
    ∧ computes (.addc f) (intShape 0x22 2 f (xOk := bits f.fn.toNat 9 2 = 0)) f s
        (carryInt f (fun w a b p => let t := a.toNat % 2 ^ w + b.toNat % 2 ^ w + p.toNat
          (t % 2 ^ w, decide (t ≥ 2 ^ w))) (found s).own)
    ∧ computes (.subb f) (intShape 0x23 2 f (xOk := bits f.fn.toNat 9 2 = 0)) f s
        (carryInt f (fun w a b p => let t : Int := (a.toNat % 2 ^ w : Nat) - (b.toNat % 2 ^ w : Nat) - (p.toNat : Nat)
          ((t % (2 ^ w : Nat)).toNat, decide (t < 0))) (found s).own)
    ∧ computes (.mul f) (intShape 0x24 2 f (sat := true)) f s (exactInt f (fun a b _ => a * b))
    ∧ computes (.mulh f) (intShape 0x25 2 f) f s (exactInt f (fun a b _ => a * b / (2 ^ itWidth (ity f) : Nat)))
    ∧ computes (.mad f) (intShape 0x26 3 f (sat := true)) f s (exactInt f (fun a b c => a * b + c))
    ∧ computes (.madw f) (madwShape f) f s (madwOut f)
    ∧ computes (.min f) (intShape 0x28 2 f) f s (exactInt f (fun a b _ => min a b))
    ∧ computes (.max f) (intShape 0x29 2 f) f s (exactInt f (fun a b _ => max a b))
    ∧ computes (.abs f) (intShape 0x2A 1 f [0, 2] true) f s (exactInt f (fun a _ _ => a.natAbs))
    ∧ computes (.sad f) (intShape 0x2B 3 f (sat := true)) f s (exactInt f (fun a b c => (a - b).natAbs + c))
    ∧ computes (.addx f) (intShape 0x3B 3 f (sat := true)) f s (exactInt f (fun a b c => a + b + c))

/-- R170, R173 to R176: likewise the logical, shift, bit-field and move words; MOV copies its source with its poison (R163). -/
def Obligations.BitWordsComputeTheirResults : Prop :=
  ∀ (f : Full) (s : State),
    computes (.and f) (intShape 0x2C 2 f) f s (bitsInt f (fun _ a b _ => a &&& b))
    ∧ computes (.or f) (intShape 0x2D 2 f) f s (bitsInt f (fun _ a b _ => a ||| b))
    ∧ computes (.xor f) (intShape 0x2E 2 f) f s (bitsInt f (fun _ a b _ => a ^^^ b))
    ∧ computes (.andn f) (intShape 0x2F 2 f) f s (bitsInt f (fun w a b _ => a &&& (2 ^ w - 1 - b)))
    ∧ computes (.shl f) (intShape 0x30 2 f) f s (bitsInt f (fun w a b _ => shlN w a b))
    ∧ computes (.shr f) (intShape 0x31 2 f) f s (bitsInt f (fun w a b _ => shrN w a b))
    ∧ computes (.sar f) (intShape 0x32 2 f) f s (bitsInt f (fun w a b _ => sarN w a b))
    ∧ computes (.fshf f) (intShape 0x33 3 f (xOk := iX f ≤ 1)) f s (bitsInt f (fshfN (iX f = 1)))
    ∧ computes (.bfx f) (intShape 0x34 2 f) f s (bitsInt f (fun w a b _ => bfxN (itSigned (ity f)) w a b))
    ∧ computes (.bfi f) (intShape 0x35 3 f) f s (bitsInt f bfiN)
    ∧ computes (.popc f) (intShape 0x36 1 f) f s (bitsInt f (fun w a _ _ => popcN w a))
    ∧ computes (.clz f) (intShape 0x37 1 f) f s (bitsInt f (fun w a _ _ => clzN w a))
    ∧ computes (.brev f) (intShape 0x38 1 f) f s (bitsInt f (fun w a _ _ => brevN w a))
    ∧ computes (.sel f) (intShape 0x39 2 f (xOk := !f.fn.getLsbD 10)) f s (selOut f (found s).own)
    ∧ computes (.lea f) (leaShape f) f s (leaOut f)
    ∧ computes (.movw f) (movwShape f) f s (movwOut f)
    ∧ computes (.ext f) (intShape 0x3E 1 f (xOk := iX f ≤ 1)) f s (extOut f)
    ∧ (ready (intShape 0x3C 1 f) f s = true → retires (.mov f) (intShape 0x3C 1 f) f s {
        s := found s
        result := some {
          vals := ((intShape 0x3C 1 f).path (active f s)).map (fun l =>
            (l, fitBits (ity f) ((found s).value (useA f .any (itRegs (ity f))) l).toNat))
          poison := lanesWhere (fun l =>
            (active f s).getLsbD l && (found s).own.poisoned (useA f .any (itRegs (ity f))) l) } })

/-- R177 to R189, R224, R225: likewise the floating-point words, element by element, with the sticky flags of each element;
FSTAT answers the flags as they stood and clears the ones that it names. -/
def Obligations.FloatWordsComputeTheirResults : Prop :=
  ∀ (f : Full) (s : State),
    computes (.fadd f) (floatShape 0x3F 2 f [0, 1, 2] true true true) f s (floatOut f addEl)
    ∧ computes (.fsub f) (floatShape 0x40 2 f [0, 1, 2] true true true) f s (floatOut f subEl)
    ∧ computes (.fmul f) (floatShape 0x41 2 f [0, 1, 2] true true true) f s (floatOut f mulEl)
    ∧ computes (.ffma f) (floatShape 0x42 3 f [0, 1, 2] true true true (fX f ≤ 3)) f s (floatOut f (fun F rm ftz xs =>
        F.fma rm ftz (bit (fX f) 0) (bit (fX f) 1) (decIn F ftz xs 0) (decIn F ftz xs 1) (decIn F ftz xs 2)))
    ∧ computes (.fmin f) (floatShape 0x43 2 f [0, 1, 2] true false true) f s (floatOut f (fun F _ ftz xs =>
        F.minmax false ftz (xs.getD 0 0) (xs.getD 1 0)))
    ∧ computes (.fmax f) (floatShape 0x44 2 f [0, 1, 2] true false true) f s (floatOut f (fun F _ ftz xs =>
        F.minmax true ftz (xs.getD 0 0) (xs.getD 1 0)))
    ∧ computes (.frcp f) (floatShape 0x45 1 f [0] false true true) f s (floatOut f (fun F rm ftz xs =>
        F.div rm ftz (.fin false 1 0) (decIn F ftz xs 0)))
    ∧ computes (.frsq f) (floatShape 0x46 1 f [0] false false true) f s (floatOut f (fun F _ ftz xs =>
        F.rsqrt ftz (decIn F ftz xs 0)))
    ∧ computes (.fsqrt f) (floatShape 0x47 1 f [0] false true true) f s (floatOut f (fun F rm ftz xs =>
        F.sqrt rm ftz (decIn F ftz xs 0)))
    ∧ computes (.fexp2 f) (floatShape 0x48 1 f [0] false false true) f s (floatOut f (fun F _ ftz xs =>
        F.exp2 ftz (decIn F ftz xs 0)))
    ∧ computes (.flog2 f) (floatShape 0x49 1 f [0] false false true) f s (floatOut f (fun F _ ftz xs =>
        F.log2 ftz (decIn F ftz xs 0)))
    ∧ computes (.fdiv f) (floatShape 0x4A 2 f [0] false true true) f s (floatOut f (fun F rm ftz xs =>
        F.div rm ftz (decIn F ftz xs 0) (decIn F ftz xs 1)))
    ∧ computes (.fclass f) (floatShape 0x4B 1 f [0, 1, 2] false false true) f s (fclassOut f)
    ∧ computes (.fdot2 f) (floatShape 0x4C 3 f [1, 2] false true true) f s (fdot2Out f)
    ∧ computes (.cadd f) (floatShape 0x4D 2 f [0] false false false) f s caddOut
    ∧ computes (.fscale f) (fscaleShape f) f s (fscaleOut f)
    ∧ computes (.fexpo f) (floatShape 0x6B 1 f [0, 1, 2] false false true) f s (fexpoOut f)
    ∧ (ready (fstatShape f) f s = true → retires (.fstat f) (fstatShape f) f s {
        s := (found s).modOwn (fun g => { g with fpflags := g.fpflags &&& ~~~ (f.fn.extractLsb' 0 5) })
        result := some { vals := ((fstatShape f).path (active f s)).map (fun l =>
          (l, (found s).own.fpflags.setWidth 64)) } })

/-! ## Cross-lane, format and Spoil words -/

/-- R190 to R198: each cross-lane word that is ready, and of which no lane reads a poisoned value, retires with the value that
its rule gives each active lane from the lanes' source values as they stood before. -/
def Obligations.CrossLaneWordsComputeTheirResults : Prop :=
  ∀ (f : Full) (s t : State) (act : Lanes), t = found s → act = active f s →
    (let src (l : Nat) : Nat := shflSrc (bits f.fn.toNat 0 2) (bits f.fn.toNat 3 3) l (t.value (useB f) l).toNat
     crosses (.shfl f) (shflShape f) f s (useA f .any (xWide f)) (fun l => [src l]) [useB f] (fun v l => v (src l)))
    ∧ (let src : Nat := (t.value (useB f .scalarIn) (lowest act)).toNat % 32
       crosses (.bcast f) (bcastShape f) f s (useA f .any (xWide f)) (fun _ => [src]) [useB f .scalarIn] (fun v _ => v src))
    ∧ (ready (ballotShape f) f s = true → retires (.ballot f) (ballotShape f) f s {
        s := t
        result := some { vals := ((ballotShape f).path act).map (fun l =>
          (l, (lanesWhere (fun j => act.getLsbD j && (t.own.p j (pNo f.a) != f.fn.getLsbD 0))).setWidth 64)) } })
    ∧ (let upto (l : Nat) : List Nat := (lanesOf act).filter (fun j => if f.fn.getLsbD 7 then j < l else j ≤ l)
       crosses (.scan f) (scanShape 0x52 0x1FB f) f s (useA f .any (itRegs (ity f)))
        (fun l => (lanesOf act).filter (· ≤ l)) []
        (fun v l => if upto l = [] then scanIdentity (scanOp f) (ity f)
          else (scanFold (scanOp f) (ity f) (f.fn.getLsbD 8) ((upto l).map v)).1)
        (fun v => (scanFold (scanOp f) (ity f) (f.fn.getLsbD 8) ((lanesOf act).map v)).2))
    ∧ crosses (.redux f) (scanShape 0x53 0x17B f) f s (useA f .any (itRegs (ity f))) (fun _ => lanesOf act) []
        (fun v _ => (scanFold (scanOp f) (ity f) (f.fn.getLsbD 8) ((lanesOf act).map v)).1)
        (fun v => (scanFold (scanOp f) (ity f) (f.fn.getLsbD 8) ((lanesOf act).map v)).2)
    ∧ crosses (.matchLanes f) (matchLanesShape f) f s (useA f .any (xWide f)) (fun _ => lanesOf act) []
        (fun v l => (lanesWhere (fun j => act.getLsbD j && decide (v j = v l))).toNat)
    ∧ crosses (.hist f) (histShape f) f s (useA f)
        (fun l => (lanesOf act).filter (fun j => f.fn.getLsbD 0 || decide (j ≤ l))) []
        (fun v l => ((lanesOf act).filter (fun j => if f.fn.getLsbD 0 then v j = l else j < l && v j = v l)).length)
    ∧ (let from_ (l : Nat) : Option Nat :=
         (lanesOf (ballotMask t.own act (pNo f.b) false))[((lanesOf act).filter (· < l)).length]?
       crosses (.pack f) (packShape f) f s (useA f .any (xWide f)) (fun l => (from_ l).toList) []
        (fun v l => ((from_ l).map v).getD 0))

/-- R212 to R226: each conversion, quantisation and residual word that is ready, with clean sources, retires with the value that
its rule gives; a word that rounds stochastically advances the SEEDs of its lanes; NFCHK writes pK and the team's non-finite
flag. -/
def Obligations.FormatWordsComputeTheirResults : Prop :=
  ∀ (f : Full) (s t : State) (act : Lanes), t = found s → act = active f s →
    (issues (cvtShape 0x60 false f) f s → retires (.cvt f) (cvtShape 0x60 false f) f s
      (seeded (cvtShape 0x60 false f) act (cvRm f = 4) (computed (cvtShape 0x60 false f) (cvtOut f false t) t act)))
    ∧ (issues (cvtShape 0x61 true f) f s → retires (.cvts f) (cvtShape 0x61 true f) f s
      (seeded (cvtShape 0x61 true f) act (cvRm f = 4) (computed (cvtShape 0x61 true f) (cvtOut f true t) t act)))
    ∧ (let near := blockLanes act (8 * 2 ^ bits f.fn.toNat 6 2)
       let v (l : Nat) : Nat := (t.value (useA f) l).toNat
       let one (l : Nat) : FRes := qblkLane f (convRm (efRm f) (xorshift (t.seed l)))
         ((near l).map (fun j => fp32.decode (efFtz f) (v j))) (fp32.decode (efFtz f) (v l))
       ready (qblkShape f) f s = true → t.crossPoison act (useA f) near [] = none →
       retires (.qblk f) (qblkShape f) f s {
         s := if efRm f = 4 then t.stepSeeds (lanesOf act) else t
         result := some { vals := (lanesOf act).map (fun l => (l, BitVec.ofNat 64 (one l).1)) }
         flags := (lanesOf act).foldl (fun acc l => acc ||| (one l).2) 0 })
    ∧ computes (.dqblk f) (dqblkShape f) f s (dqblkOut f)
    ∧ computes (.ppq f) (ppqShape f) f s ppqOut
    ∧ computes (.ppdq f) (ppdqShape f) f s ppdqOut
    ∧ (let a (l : Nat) : FVal := fp32.decode false (bits (t.value (useA f) l).toNat 0 32)
       let b (l : Nat) : FVal := fp32.decode false (bits (t.value (useB f) l).toNat 0 32)
       let past (l : Nat) : Bool := !(a l).isNan && !(b l).isNan && decide ((b l).abs.cmp (a l).abs < 0)
       let n := min (bits (t.value (useC f .scalarIn) (lowest act)).toNat 0 5) 16
       issues (osplitShape f) f s → retires (.osplit f) (osplitShape f) f s {
         s := t
         result := some { vals := osplitFold past (lanesOf act) n }
         flags := flIf ((lanesOf act).any (fun l => (a l).isSnan || (b l).isSnan)) flV })
    ∧ (issues (efqShape f) f s → retires (.efq f) (efqShape f) f s
      (seeded (efqShape f) act (efRm f = 4) (computed (efqShape f) (efqOut f t) t act)))
    ∧ computes (.iqs f) (iqsShape f) f s (iqsOut f)
    ∧ computes (.idqs f) (idqsShape f) f s (idqsOut f)
    ∧ (let hit (l : Nat) : Bool := nfAny (bits f.fn.toNat 0 3) (t.value (useA f) l).toNat
       ready (nfchkShape f) f s = true → clean [useA f] f s = true → retires (.nfchk f) (nfchkShape f) f s {
         s := if (lanesOf act).any hit then t.modOwnTeam (fun m => { m with nonfinite := true }) else t
         preds := (lanesOf act).map (fun l => (l, bits f.fn.toNat 3 6, hit l)) })

namespace Sys2Proof.Claims

open Sys2Proof Sys2Proof.Machine

/-- A Spoil word runs: when no lane fails, no block transfer waits, every block of another package that it reads has come and every
one that it writes is acknowledged, it retires with the values of its lanes, and the stacks and spilled blocks that the
lanes leave. -/
def spoils (i : Instr) (sh : Shape) (f : Full) (s : State) (op : SpoilOp) : Prop :=
  let t := found s
  let all := t.spoilAll sh op (active f s)
  let sent := all.s.sendSpills (all.writes.filter (fun w => t.isRemote w.x.pa))
  ready sh f s = true → t.spoilBlocked op (active f s) = false → t.wordReported = false → all.missing = [] → all.fails = [] →
    sent.2.1 = true → sent.2.2 = [] → retires i sh f s {
    s := ({ all with s := sent.1.farDone t.wordReader } : SpoilAll).commit, result := some { vals := all.vals }, flags := flIf all.ovf flO }

/-- A Spoil word that computes without the stack retires with the exact result, wrapped to 32 bits. -/
def spoilSums (i : Instr) (sh : Shape) (f : Full) (s : State) (fn : Int → Int → Int → Int) : Prop :=
  computes i sh f s (fun _ xs =>
    { val := BitVec.ofInt 64
        (BitVec.ofInt 32 (fn (intVal true 32 (arg xs 0)) (intVal true 32 (arg xs 1)) (intVal true 32 (arg xs 2)))).toInt })

end Sys2Proof.Claims

open Sys2Proof.Claims

/-- R236 to R242: each Spoil word retires with what its rule gives from its sources and from the entry that it pushes or pops. -/
def Obligations.SpoilWordsPushPopAndCompute : Prop :=
  ∀ (f : Full) (s : State),
    let two (op : Nat) : Shape := spoilShape op f [useA f, useB f] true (!fnOnly f 0x3F || decide (sh6 f > 32))
    let one (op : Nat) (bad : Bool) : Shape := spoilShape op f [useA f] true bad
    let none_ (op : Nat) : Shape := spoilShape op f [useA f] false (f.fn ≠ 0)
    spoils (.rmuln f) (two 0x70) f s (.push (fun a b =>
        let q := a * b / (2 ^ sh6 f : Nat)
        if b = 0 then { val := 0, tag := 2, push := a }
        else if satInt true 32 q ≠ q then { val := satInt true 32 q, tag := 3, push := a, ovf := true }
        else { val := q, tag := 1, push := lowN (a * b) (sh6 f) }))
    ∧ spoils (.umuln f) (two 0x71) f s (.pop [1, 2, 3] 1 (fun e a b =>
        if e.tag = 1 then (if b = 0 then 0 else (a * (2 ^ sh6 f : Nat) + lowN e.value.toNat (sh6 f)).tdiv b)
        else (e.value.toNat : Int)) (fun _ _ => true))
    ∧ spoils (.rshr f) (one 0x72 (!fnOnly f 0x3F || decide (sh6 f > 32))) f s (.push (fun a _ =>
        { val := a / (2 ^ sh6 f : Nat), tag := 4, push := lowN a (sh6 f) }))
    ∧ spoils (.ushr f) (one 0x73 (!fnOnly f 0x3F || decide (sh6 f > 32))) f s (.pop [4] 4 (fun e a _ =>
        a * (2 ^ sh6 f : Nat) + lowN e.value.toNat (sh6 f)) (fun _ _ => true))
    ∧ spoilSums (.radd f) (spoilShape 0x74 f [useA f, useB f] true (f.fn ≠ 0) false) f s (fun a b _ => a + b)
    ∧ spoilSums (.uadd f) (spoilShape 0x75 f [useA f, useB f] true (f.fn ≠ 0) false) f s (fun a b _ => a - b)
    ∧ spoilSums (.rmad f) (spoilShape 0x76 f [useA f, useB f, useC f] true (!fnOnly f 0x3F) false) f s
        (fun a b c => a + b * c / (2 ^ sh6 f : Nat))
    ∧ spoilSums (.umad f) (spoilShape 0x77 f [useA f, useB f, useC f] true (!fnOnly f 0x3F) false) f s
        (fun a b c => a - b * c / (2 ^ sh6 f : Nat))
    ∧ spoils (.rlrel f) (one 0x78 (!fnOnly f 0x1F)) f s (.push (fun a _ =>
        if a < 0 then { val := a / (2 ^ k5 f : Nat), tag := 5, push := lowN a (k5 f) } else { val := a, tag := 5, push := 0 }))
    ∧ spoils (.ulrel f) (one 0x79 (!fnOnly f 0x1F)) f s (.pop [5] 5 (fun e a _ =>
        if a < 0 then a * (2 ^ k5 f : Nat) + lowN e.value.toNat (k5 f) else a) (fun _ _ => true))
    ∧ spoils (.rnarr f) (one 0x7A (!fnOnly f 0x3F)) f s (.push (fun a _ =>
        let q := a / (2 ^ k5 f : Nat)
        if satInt true (narrBits f) q = q then { val := q, tag := 6, push := lowN a (k5 f) }
        else { val := satInt true (narrBits f) q, tag := 7, push := a, ovf := true }))
    ∧ spoils (.unarr f) (one 0x7B (!fnOnly f 0x3F)) f s (.pop [6, 7] 6 (fun e a _ =>
        if e.tag = 6 then
          intVal true (narrBits f) (BitVec.ofInt 64 a) * (2 ^ k5 f : Nat) + lowN e.value.toNat (k5 f)
        else (e.value.toNat : Int)) (fun _ _ => true))
    ∧ spoils (.rmark f) (none_ 0x7C) f s (.push (fun a _ => { val := 0, tag := 8, push := lowN a 28 }))
    ∧ spoils (.umark f) (none_ 0x7D) f s (.pop [8] 8 (fun _ _ _ => 0) (fun e a => lowN e.value.toNat 28 = lowN a 28))

/-! ## Predicate, control, future and special-register words -/

/-- R108 to R113: each predicate word that is ready, with clean sources, retires with the predicates, masks or value that
its rule gives. PMOV and KMOV to the other side change only the named bits, and release waiting lanes where the masks allow. -/
def Obligations.PredicateWordsWriteWhatTheirRulesGive : Prop :=
  ∀ (f : Full) (s t : State) (act : Lanes), t = found s → act = active f s →
    (let r := if bits f.fn.toNat 4 3 = 2 ∨ bits f.fn.toNat 4 3 = 3 then 2 else 1
     let x (w : Word) : Int := intVal (bits f.fn.toNat 4 3 % 2 = 0) (32 * r) w
     computes (.pset f) (psetShape f) f s (fun l xs => { val := 0, preds := [(pNo f.d,
       bop (bits f.fn.toNat 7 2) (psetCmp (bits f.fn.toNat 0 4) (x (arg xs 0)) (x (arg xs 1))) (t.own.p l (pNo f.c)))] }))
    ∧ (let F := if bits f.fn.toNat 4 2 = 1 then fp16 else if bits f.fn.toNat 4 2 = 2 then bf16 else fp32
       let x (w : Word) : FVal := F.decode (f.fn.getLsbD 6) (w.toNat % 2 ^ F.width)
       computes (.psetf f) (psetfShape f) f s (fun l xs =>
         let r := psetfCmp (bits f.fn.toNat 0 4) (x (arg xs 0)) (x (arg xs 1))
         { val := 0, flags := r.2, preds := [(pNo f.d, bop (bits f.fn.toNat 7 2) r.1 (t.own.p l (pNo f.c)))] }))
    ∧ computes (.plop f) (plopShape f) f s (fun l _ =>
        let p (e : BitVec 9) : Nat := (t.own.p l (pNo e)).toNat
        { val := 0, preds := [(pNo f.d, f.fn.getLsbD (4 * p f.a + 2 * p f.b + p f.c))] })
    ∧ computes (.pmovGet f) (pmovGetShape f) f s (fun l _ => { val := t.own.pred l })
    ∧ (ready (pmovSetShape f) f s = true → clean [useA f .any 2, useB f .any 2] f s = true →
       retires (.pmovSet f) (pmovSetShape f) f s {
         s := t.modOwn (fun g => (lanesOf act).foldl (fun (h : Group) l => h.setPredWord l
           ((h.pred l &&& ~~~ t.value (useB f .any 2) l) ||| (t.value (useA f .any 2) l &&& t.value (useB f .any 2) l))) g) })
    ∧ (ready (voteShape f) f s = true →
       let true_ := lanesWhere (fun l => act.getLsbD l && t.own.p l (pNo f.a))
       let r : Bool := match bits f.fn.toNat 0 2 with
         | 0 => true_ = act
         | 1 => true_ ≠ 0
         | _ => true_ = 0 || true_ = act
       retires (.vote f) (voteShape f) f s { s := t, preds := (lanesOf act).map (fun l => (l, pNo f.d, r)) })
    ∧ computes (.kmovGet f) (kmovGetShape f) f s (fun _ _ => { val := (t.own.k (bits f.fn.toNat 0 4)).setWidth 64 })
    ∧ (ready (kmovSetShape f) f s = true → clean [useA f .scalarIn] f s = true →
       retires (.kmovSet f) (kmovSetShape f) f s {
         s := t.modOwn (fun g => { g with
           kmask := sput 0 g.kmask (bits f.fn.toNat 0 4) ((t.value (useA f .scalarIn) (lowest act)).setWidth 32) })
         after := fun u => u.modOwn (fun g => g.meetAll u.ticks) })

/-- R84 to R87, R104 to R107: each control word that is ready retires: NOP with no effect, YIELD marking the group, LOOP opening
a loop or skipping it at count 0, IFENCE dropping the slot's capture, branches sending their active lanes to their target, CALL
also writing the link, JOIN and MEET setting and meeting a mask, EXIT ending its lanes. -/
def Obligations.ControlWordsRetire : Prop :=
  ∀ (f : Full) (s t : State) (act : Lanes), t = found s → act = active f s →
    let pc := pcAddr t.own.pathPc
    let all (to_ : Word) : Option (List (Nat × Word)) := some ((lanesOf act).map (fun l => (l, to_)))
    let reg (l : Nat) : Word := mkPc (bits (t.value (useA f .reg 2) l).toNat 3 53 * 8) false 0
    let meet : State → State := fun u => u.modOwn (fun g => g.meetAll u.ticks)
    (ready (nopShape f) f s = true → retires (.nop f) (nopShape f) f s { s := t })
    ∧ (ready (yieldShape f) f s = true → retires (.yield f) (yieldShape f) f s {
        s := t.modOwn (fun g => { g with yielded := true, yieldPend := f.fn.getLsbD 0 }) })
    ∧ (let n := bits f.fn.toNat 0 6 + 1
       let count := bits (t.own.s (sNo f.d)).toNat 0 32
       ready (loopShape f) f s = true → clean [useD f .scalar] f s = true → retires (.loop f) (loopShape f) f s
         (if count = 0 then { s := t, target := all (mkPc (pc + 8 + 8 * n) false 0) }
          else {
            s := t.modOwn (fun g =>
              { g.setS (sNo f.d) (BitVec.ofNat 64 ((n - 1) * 2 ^ 32 + count)) with pathLoop := some (sNo f.d, 64) })
            target := all (mkPc (pc + 8) true 0) }))
    ∧ (ready (ifenceShape f) f s = true → retires (.ifence f) (ifenceShape f) f s { s := t.dropCapture })
    ∧ (ready (braShape f) f s = true → retires (.bra f) (braShape f) f s { s := t, target := all (relPc pc (off38 f)) })
    ∧ (ready (brxShape f) f s = true → clean [useA f .reg 2] f s = true → retires (.brx f) (brxShape f) f s {
        s := t, target := some ((lanesOf act).map (fun l => (l, reg l))) })
    ∧ (ready (retShape f) f s = true → clean [useA f .reg 2] f s = true → retires (.ret f) (retShape f) f s {
        s := t, target := some ((lanesOf act).map (fun l => (l, reg l))) })
    ∧ (ready (callShape f) f s = true → retires (.call f) (callShape f) f s {
        s := t
        result := some { vals := (if (useD f .dst 2).isScalar then [lowest act] else lanesOf act).map (fun l =>
          (l, BitVec.ofNat 64 ((pc + 8) % 2 ^ 56))) }
        target := all (relPc pc (off38 f)) })
    ∧ (ready (joinShape f) f s = true → retires (.join f) (joinShape f) f s {
        s := t.modOwn (fun g => { g with
          kmask := sput 0 g.kmask (bits f.a.toNat 0 4) act
          meetv := (lanesOf act).foldl (fun m l => sput 0 m l (relPc pc (off29 f))) g.meetv })
        after := meet })
    ∧ (let h := lanesWhere (fun l =>
         act.getLsbD l && (t.own.k (bits f.fn.toNat 0 4)).getLsbD l && decide ((t.own.meet l).toNat = pc))
       ready (meetShape f) f s = true → retires (.meet f) (meetShape f) f s {
         s := t.modOwn (fun g => { g with
           held := g.held ||| h
           heldK := (lanesOf h).foldl (fun m l => sput 0 m l (bits f.fn.toNat 0 4)) g.heldK })
         after := meet })
    ∧ (ready (exitShape f) f s = true → retires (.exit f) (exitShape f) f s {
        s := t.exitLanes act, after := State.afterExit })

namespace Sys2Proof.Claims

open Sys2Proof Sys2Proof.Machine

/-- A paired word is issued to its group: some lane is active for a half, no check fails, and nothing that it names blocks. -/
def pairReady (p : Paired) (s : State) : Prop :=
  let t := found s
  s.own?.isSome = true ∧ t.own.activeHalf p.a ||| t.own.activeHalf p.b ≠ 0
    ∧ p.check t.ownTeam t.focus.group t.own = none
    ∧ (p.a.uses false ++ p.b.uses true).any (fun u => u.isPending t.own) = false
    ∧ (p.a.uses false ++ p.b.uses true).any (fun u => u.inFlight t.own) = false

/-- It is issued, and no half of it traps on poison. -/
def pairIssues (p : Paired) (s : State) : Prop :=
  pairReady p s ∧ (found s).pairTrap p ((found s).own.activeHalf p.a) ((found s).own.activeHalf p.b) = none

/-- A 32-bit result that raises no flag. -/
def noFlags (v : W32) : W32 × BitVec 5 := (v, 0)

/-- An exact number clamped to 32 bits, signed. -/
def satS32 (v : Int) : W32 := BitVec.ofInt 32 (max (-(2 ^ 31)) (min (2 ^ 31 - 1) v))

/-- What a short opcode gives for the values of d and s (R75), with the flags that it raises. A floating-point half computes each
element as the full-form word of its operation does. -/
def halfGives (h : Half) (d x : W32) : W32 × BitVec 5 :=
  let n := h.m.toNat % 32
  let rm := rmOf (h.m.toNat % 4)
  let ftz := h.m.getLsbD 2
  let res (r : FRes) : W32 × BitVec 5 := (BitVec.ofNat 32 r.1, r.2)
  let one (el : FFmt → Rm → Bool → List Nat → FRes) (a b : W32) : W32 × BitVec 5 := res (el fp32 rm ftz [a.toNat, b.toNat])
  let two (F : FFmt) (el : FFmt → Rm → Bool → List Nat → FRes) : W32 × BitVec 5 :=
    let lo := el F rm ftz [(d.setWidth 16).toNat, (x.setWidth 16).toNat]
    let hi := el F rm ftz [(d.extractLsb' 16 16).toNat, (x.extractLsb' 16 16).toNat]
    (BitVec.ofNat 16 hi.1 ++ BitVec.ofNat 16 lo.1, lo.2 ||| hi.2)
  let pick (max : Bool) : FFmt → Rm → Bool → List Nat → FRes := fun F _ ftz xs => F.minmax max ftz (xs.getD 0 0) (xs.getD 1 0)
  match h.sop.toNat with
  | 0x01 | 0x2C | 0x2D => noFlags x
  | 0x02 => noFlags (d + x)
  | 0x03 => noFlags (d - x)
  | 0x04 => noFlags (x - d)
  | 0x05 => noFlags (d * x)
  | 0x06 => noFlags (if d.toInt ≤ x.toInt then d else x)
  | 0x07 => noFlags (if d.toInt ≤ x.toInt then x else d)
  | 0x08 => noFlags (if d.toNat ≤ x.toNat then d else x)
  | 0x09 => noFlags (if d.toNat ≤ x.toNat then x else d)
  | 0x0A => noFlags (d &&& x)
  | 0x0B => noFlags (d ||| x)
  | 0x0C => noFlags (d ^^^ x)
  | 0x0D => noFlags (d &&& ~~~x)
  | 0x0E => noFlags (d <<< (x.toNat % 32))
  | 0x0F => noFlags (d >>> (x.toNat % 32))
  | 0x10 => noFlags (d.sshiftRight (x.toNat % 32))
  | 0x11 => noFlags (satS32 (d.toInt + x.toInt))
  | 0x12 => noFlags (satS32 (d.toInt - x.toInt))
  | 0x13 => noFlags (BitVec.ofNat 32 (d.toInt - x.toInt).natAbs)
  | 0x14 => noFlags (~~~x)
  | 0x15 => noFlags (-x)
  | 0x16 => noFlags (BitVec.ofNat 32 ((List.range 32).filter x.getLsbD).length)
  | 0x17 => noFlags (BitVec.ofNat 32 (if x = 0 then 32 else 31 - x.toNat.log2))
  | 0x18 => noFlags x.reverse
  | 0x19 => noFlags (d + x <<< n)
  | 0x1A => noFlags (x <<< n)
  | 0x1B => one addEl d x
  | 0x1C => one subEl d x
  | 0x1D => one mulEl d x
  | 0x1E => one (pick false) d x
  | 0x1F => one (pick true) d x
  | 0x20 => one subEl x d
  | 0x21 => noFlags (x &&& 0x7FFFFFFF)
  | 0x22 => noFlags (x ^^^ 0x80000000)
  | 0x23 => two fp16 addEl
  | 0x24 => two fp16 mulEl
  | 0x25 => two bf16 addEl
  | 0x26 => two bf16 mulEl
  | 0x27 => two bf16 (pick true)
  | 0x28 => res (caddRes d.toNat x.toNat)
  | 0x29 => res (convert 0 rm ftz false false true (typeValue 12 ftz x.toNat))
  | 0x2A => res (convert 12 rm ftz false false false (typeValue 0 ftz x.toNat))
  | 0x2B => res (convert 2 rm ftz false false false (typeValue 0 ftz x.toNat))
  | 0x2E => noFlags ((d.signExtend 64 * x.signExtend 64).extractLsb' 32 32)
  | 0x2F => noFlags ((d.setWidth 64 * x.setWidth 64).extractLsb' 32 32)
  | _ => noFlags 0

/-- What a half gives in a lane, from the values that its operands hold in the state in which it issues. The cross-lane forms read
s in another lane. -/
def halfIn (t : State) (h : Half) (isB : Bool) (l : Nat) : W32 × BitVec 5 :=
  let from_ := if h.sop = 0x2C then l ^^^ h.m.toNat % 32 else if h.sop = 0x2D then h.m.toNat % 32 else l
  halfGives h ((t.value (h.useD isB) l).setWidth 32) ((t.value (h.useS isB) from_).setWidth 32)

/-- The number of the vector register that a half writes. -/
def halfReg (h : Half) (isB : Bool) : Nat := (opd7 isB h.d).toNat

/-- A half of a paired word. -/
def half (p : Paired) (isB : Bool) : Half := if isB then p.b else p.a

end Sys2Proof.Claims

open Sys2Proof.Claims

/-- R72 to R76, R79, R80: a paired word retires both halves together. When its group exists, some lane is active for a half, no
check fails, nothing that it names blocks and no half traps on poison, every operand is read before either half writes, half A
writes before half B, and half A's latch entry enters first. -/
def Obligations.PairedWordRetiresBothHalves : Prop :=
  ∀ (p : Paired) (s : State), pairIssues p s →
    let t := found s
    exec (.pairedWord p) s = .next (t.finish { op := 0, sw := false } noFields
      { s := t.pairEffect p (t.own.activeHalf p.a) (t.own.activeHalf p.b) })

/-- R24, R114 to R118: each future word that is ready, with clean sources, retires: FTEST answers whether the register has resolved;
the `.h` forms consume a complete exported operation; FWAIT passes a resolved register, and FWAIT.all a group with none pending;
FCANCEL cancels what runs; FMOV moves, exports or imports a handle. The status that FCANCEL answers for what runs, `cancelledStatus`,
is the model's reading (log 17): ENGINE stands where R24 has it, in [11:8], and not where R118's concatenation would put it. -/
def Obligations.FutureWordsRetire : Prop :=
  ∀ (f : Full) (s t : State) (act : Lanes), t = found s → act = active f s →
    let a := sNo f.a
    let d := sNo f.d
    let h := t.own.s a
    let ok (sh : Shape) (u : Use) : Prop := ready sh f s = true ∧ clean [u] f s = true
    let pd (b : Bool) : List (Nat × Nat × Bool) := (lanesOf act).map (fun l => (l, bits f.fn.toNat 1 6, b))
    (ok (ftestShape f) (futA f) → retires (.ftest f) (ftestShape f) f s { s := t, preds := pd (!(t.own.pending a)) })
    ∧ (∀ e, t.exported h = some e → ok (ftestHShape f) (futA f) → retires (.ftestH f) (ftestHShape f) f s
        (if e.state = .doneExported then { s := t.consume f.d h e, preds := pd true } else { s := t, preds := pd false }))
    ∧ (ok (fwaitShape f) (useA f .scalar) → retires (.fwait f) (fwaitShape f) f s { s := t })
    ∧ (∀ e, t.exported h = some e → e.state = .doneExported → ok (fwaitHShape f) (useA f .scalar) →
        retires (.fwaitH f) (fwaitHShape f) f s { s := t.consume f.d h e })
    ∧ (t.own.spend = 0 → ready (fwaitAllShape f) f s = true → retires (.fwaitAll f) (fwaitAllShape f) f s { s := t })
    ∧ (ok (fcancelShape f) (futA f) →
        (∀ e, f.fn.getLsbD 0 = true → t.exported h = some e → e.service = false → retires (.fcancel f) (fcancelShape f) f s
          (if e.state = .doneExported then { s := t.consume f.d h e }
           else { s := (t.cancelOp h).giveStatus f.d (cancelledStatus h) }))
        ∧ (f.fn.getLsbD 0 = false → retires (.fcancel f) (fcancelShape f) f s
          (if t.own.pending a then
            { s := (t.cancelOp h).modOwn (fun g => (g.setS a (cancelledStatus h)).setPending a false) }
           else { s := t })))
    ∧ (ok (fmovShape f) (futA f) → retires (.fmovMove f) (fmovShape f) f s
        (if t.own.pending a then
          { s := ((t.copyScalar d a).bindFuture h (some d)).modOwn (fun g => (g.setPending a false).setPending d true) }
         else { s := t.copyScalar d a }))
    ∧ (ok (fmovShape f) (futA f) → retires (.fmovExport f) (fmovShape f) f s
        (if t.own.pending a then { s := ((t.copyScalar d a).bindFuture h none).modOwn (fun g => g.setPending a false) }
         else { s := t.copyScalar d a }))
    ∧ (∀ e, t.exported h = some e → e.service = false → ok (fmovShape f) (futA f) →
        retires (.fmovImport f) (fmovShape f) f s
          (if e.state = .doneExported then { s := t.consume f.d h e }
           else { s := ((t.copyScalar d a).bindFuture h (some d)).modOwn (fun g => g.setPending d true) }))

/-- R120, R122, R123, R126: each team-barrier, special-register and continuation word that is ready retires: TBAR arrives, once the
group's earlier accesses have performed, and holds its lanes until the barrier releases them, TBAR.ARR only arrives; SRD reads, SWR
writes a special register; BKPT has no effect unless its context takes breakpoints; FRESUME sends the lanes of an ended continuation
back. TRAP, and BKPT where its context takes breakpoints, trap precisely, with their code and with FN in FR_INFO. -/
def Obligations.BarrierAndSpecialWordsRetire : Prop :=
  ∀ (f : Full) (s t : State) (act : Lanes), t = found s → act = active f s →
    let n := bits f.fn.toNat 0 4
    let pass := act &&& t.own.tbpass
    let fresh := act &&& ~~~ pass &&& ~~~ (t.own.tbl n)
    let arrive (wait : Lanes) : Retire :=
      let u := (t.modOwnTeam (fun m => m.tbarArrive t.focus.group n fresh t.clock)).modOwn (fun g =>
        { (g.setWaits wait t.ticks) with tbpass := g.tbpass &&& ~~~ pass, tbwait := sput 0 g.tbwait n (g.tbw n ||| wait) })
      { s := u, hold := wait, after := fun v => v.modOwnTeam (fun m => m.tbarEval v.ticks n) }
    let clear : Prop := fresh = 0 ∨ t.own.quiet = true
    (clear → ready (tbarShape f) f s = true → retires (.tbar f) (tbarShape f) f s (arrive (act &&& ~~~ pass)))
    ∧ (clear → ready (tbarArrShape f) f s = true → retires (.tbarArr f) (tbarArrShape f) f s
        (arrive (act &&& ~~~ pass &&& t.own.tbl n)))
    ∧ computes (.srd f) (srdShape f) f s (fun l _ => { val := t.readSreg (bits f.fn.toNat 0 8) l })
    ∧ (let a := useA f .any (sregRegs (bits f.fn.toNat 0 8))
       ready (swrShape f) f s = true → clean [a] f s = true →
       retires (.swr f) (swrShape f) f s { s := t.writeSreg (bits f.fn.toNat 0 8) a act })
    ∧ ((t.reg (offCtx t.ownTeam.context)).getLsbD 3 = false → ready (bkptShape f) f s = true →
       retires (.bkpt f) (bkptShape f) f s { s := t })
    ∧ (let back := act &&& t.own.contLanes.setWidth 32
       let e := t.ownTeam.fut (bits t.own.contState.toNat 32 8)
       ready (fresumeShape f) f s = true →
       (back = 0 → retires (.fresume f) (fresumeShape f) f s { s := t })
       ∧ (back ≠ 0 → e.state ≠ .doneExported → back ≠ act → retires (.fresume f) (fresumeShape f) f s { s := t, hold := back })
       ∧ (back ≠ 0 → e.state = .doneExported → bits e.status.toNat 0 8 = 0 → retires (.fresume f) (fresumeShape f) f s {
           s := (t.modOwn (fun g => { g with contLanes := g.contLanes &&& ~~~ (back.setWidth 64) })).modOwnTeam
             (fun m => m.endCont t.focus.group)
           target := some ((lanesOf back).map (fun l => (l, sget 0 t.own.resumev l))) }))
    ∧ (ready (trapShape f) f s = true → traps (.trap f) (trapShape f) f s { code := 0x08, info := f.fn.setWidth 32 })
    ∧ ((t.reg (offCtx t.ownTeam.context)).getLsbD 3 = true → ready (bkptShape f) f s = true →
        traps (.bkpt f) (bkptShape f) f s { code := 0x09, info := f.fn.setWidth 32 })

/-- R73 to R75, R77, R163: what a paired word computes. Each half writes d, in its own active lanes and nowhere else, with what
its short opcode gives for the values that d and s held before either half wrote; a mov copies poison, every other half leaves its
destination clean. A NOPH half writes nothing. The flags that either half raises are added, and the entries of both halves enter the
latches, A's before B's, unless the word is a switch point. -/
def Obligations.PairedHalvesComputeTheirResults : Prop :=
  ∀ (p : Paired) (s t : State), t = found s → pairIssues p s → ∃ u, exec (.pairedWord p) s = .next u
    ∧ (∀ isB l, (half p isB).sop ≠ 0 → (t.own.activeHalf (half p isB)).getLsbD l = true →
        u.own.v (halfReg (half p isB) isB) l = (halfIn t (half p isB) isB l).1
        ∧ u.own.vregPoison.contains (halfReg (half p isB) isB * 32 + l)
          = ((half p isB).sop = 1 && t.own.poisoned ((half p isB).useS isB) l))
    ∧ (∀ n l, l < 32 →
        (∀ isB, (half p isB).sop ≠ 0 → (t.own.activeHalf (half p isB)).getLsbD l = true → halfReg (half p isB) isB ≠ n) →
        u.own.v n l = t.own.v n l)
    ∧ (let flags (isB : Bool) : BitVec 5 := if (half p isB).sop = 0 then 0 else
         (lanesOf (t.own.activeHalf (half p isB))).foldl (fun acc l => acc ||| (halfIn t (half p isB) isB l).2) 0
       u.own.fpflags = t.own.fpflags ||| flags false ||| flags true)
    ∧ (t.own.loopStep.2.2 = false → t.own.blocked &&& t.own.cur = 0 →
        ∃ e : Bool → Latch, u.own.latches = e true :: e false :: t.own.latches.take 2
          ∧ ∀ isB, (e isB).valid = true ∧ ∀ l, l < 32 → sget 0 (e isB).vals l = (
              if (half p isB).sop = 0 then 0
              else if (t.own.activeHalf (half p isB)).getLsbD l = true then (halfIn t (half p isB) isB l).1.setWidth 64
              else (t.own.v (halfReg (half p isB) isB) l).setWidth 64))

/-! ## Load and store words -/

namespace Sys2Proof.Claims

open Sys2Proof Sys2Proof.Machine

/-- The word is ready, and no active lane reads a poisoned value in the fields `us`. -/
def okay (sh : Shape) (f : Full) (s : State) (us : List Use) : Prop := ready sh f s = true ∧ clean us f s = true

/-- A checked global load retires: it takes its entry in the outstanding-request tables, with the values of the lanes that the
group's own queued stores give it, and a request for each line of another package that its other lanes read. It needs room in those
tables and, for the requests, that nothing holds them back and that no port is full. -/
def loads (i : Instr) (sh : Shape) (f : Full) (s : State) (q : LoadForm) : Prop :=
  let a := useA f (if q.scalar then .scalar else .reg) 2
  ∀ (t : State) (as : List Access) (given : List (Nat × List (Byte × Bool))), okay sh f s [a] →
    (found s).accesses q.scalar { n := q.n, acc := 1 } ((found s).eas a (loadOff f) (actLanes q.scalar (active f s))) = (t, .ok as) →
    t.givenLanes (t.loadEntry f q) as = some given → t.ortRoom (linesOf as).length = true →
    let reads := t.remoteReads f (as.filter (fun a => !given.any (fun x => x.1 = a.lane)))
    (reads = [] ∨ t.own.heldBack = false) →
    let sent := reads.foldl (Sending.one t.loadIssuer) ({ s := t } : Sending Lanes)
    sent.full = false →
    retires i sh f s {
      s := sent.s.pushLoad { t.loadEntry f q with
        lanes := as.map (t.laneLoad f), remote := sent.sent.map (·.1), given := given } }

/-- A checked global store retires: its bytes enter the group's queue, with their poison. A release waits for its gate. -/
def stores (i : Instr) (sh : Shape) (f : Full) (s : State) (n : Nat) (scalar : Bool) (b : Use) : Prop :=
  let a := useA f (if scalar then .scalar else .reg) 2
  ∀ (t u : State) (as : List Access), okay sh f s [a] →
    (found s).accesses scalar { n := n, acc := 2 } ((found s).eas a (storeOff f) (actLanes scalar (active f s))) = (t, .ok as) →
    opens t (active f s) (lsSem f = 1 && scopeF f ≥ 7) (scopeF f) u → u.own.queued < 16 →
    retires i sh f s {
      s := u.pushStore (u.storeEntries f false n as (fun l => (found s).storeBytes b n l) ((found s).dataPoison b (active f s))) }

/-- A checked word that touches one line a lane. -/
def touches (i : Instr) (sh : Shape) (f : Full) (s : State) (acc : Nat) (k : State → List Access → Retire → Prop) : Prop :=
  ∀ (t : State) (as : List Access) (r : Retire), okay sh f s [useA f .reg 2] →
    (found s).accesses false { n := 1, acc := acc } ((found s).eas (useA f .reg 2) (loadOff f) (lanesOf (active f s)))
      = (t, .ok as) → k t as r → retires i sh f s r

end Sys2Proof.Claims

open Sys2Proof.Claims

/-- R145: each load word whose addresses pass their checks retires, with the load in flight. -/
def Obligations.LoadWordsRetireWithTheLoadInFlight : Prop :=
  ∀ (f : Full) (s : State),
    let n := typeBytes (lsType f)
    let r := if lsType f = 5 then 2 else 1
    loads (.ld f) (ldShape f) f s { n := n, regs := r, ttype := lsType f }
    ∧ loads (.ldv f) (ldvShape f) f s { n := 16, regs := 4, quad := true, ttype := 4 }
    ∧ loads (.sld f) (sldShape f) f s { n := n, regs := 2, scalar := true, ttype := lsType f }
    ∧ (let eas := (found s).spEas (useA f .noLatch) (loadOff f) (lanesOf (active f s))
       okay (ldsShape f) f s [useA f .noLatch] → (found s).ownTeam.spAccesses n false 1 eas = none →
       retires (.lds f) (ldsShape f) f s { s := (found s).pushLoad { (found s).loadEntry f { n := n, regs := r, ttype := lsType f } with
         scratch := true, lanes := eas.map (fun e => { lane := e.1, addrs := (List.range n).map (e.2 + ·) }) } })

/-- R146, R148: each store word, and DISC, whose addresses pass their checks retires with its bytes in the group's queue, once
its release performs and the queue has room. -/
def Obligations.StoreWordsRetireWithTheStoreQueued : Prop :=
  ∀ (f : Full) (s : State),
    let n := typeBytes (lsType f)
    stores (.st f) (stShape f) f s n false (storeData f (lsType f))
    ∧ stores (.stv f) (stvShape f) f s 16 false (useB f .vec 4)
    ∧ stores (.sst f) (sstShape f) f s n true (useB f .scalarIn 2)
    ∧ (∀ u : State,
       let t := found s
       let b := storeData f (lsType f)
       let eas := t.spEas (useA f .noLatch) (storeOff f) (lanesOf (active f s))
       let bytes := eas.flatMap (fun e => (t.storeBytes b n e.1).zipIdx.map (fun d => (e.2 + d.2, d.1)))
       let bad := eas.flatMap (fun e => if t.own.poisoned b e.1 then (List.range n).map (e.2 + ·) else [])
       okay (stsShape f) f s [useA f .noLatch] → t.ownTeam.spAccesses n false 2 eas = none →
       opens t (active f s) (lsSem f = 1 && scopeF f ≥ 7) (scopeF f) u → u.own.queued < 16 →
       retires (.sts f) (stsShape f) f s { s := u.pushStore [{
         scratch := true, bytes := bytes, poison := bad, release := lsSem f = 1, scope := scopeF f, size := n
         seq := u.own.memNext, context := u.ownCtx, pc := BitVec.ofNat 64 (pcAddr u.own.pathPc), byLane := eas }] })
    ∧ touches (.disc f) (lineShape 0x87 f (f.fn ≠ 0)) f s 2 (fun t as r => ∃ u,
        t.ortRoom (linesOf as).length = true ∧ opens t (active f s) (lsSem f = 1 && scopeF f ≥ 7) (scopeF f) u ∧ u.own.queued < 16
        ∧ r = { s := u.pushStore (u.storeEntries f true 128 as (fun _ => [0]) 0) })

/-- R149, R150: each FLUSH and PREF word whose address is clean retires, FLUSH with room in the outstanding-request tables: FLUSH.wb
writes back, and FLUSH.inv also invalidates, each line that it names, once no queued store of the group touches one; FLUSH.l1 drops
the lines from the core's L1; PREF allocates the lines that pass every check. -/
def Obligations.LineWordsRetire : Prop :=
  ∀ (f : Full) (s : State),
    let flushed (inv : Bool) (t : State) (as : List Access) (r : Retire) : Prop :=
      t.ortRoom (linesOf as).length = true ∧ (t.own.storeQ.any (fun e => !e.scratch
        && e.bytes.any (fun b => (as.flatMap (fun a => a.xs.map (·.pa))).any (fun a => a / 128 = b.1 / 128)))) = false
      ∧ r = { s := ((linesOf as).filterMap (fun ln => as.find? (fun a => a.xs.any (fun x => x.pa / 128 = ln)))).foldl
                (State.flushLine inv (BitVec.ofNat 64 (pcAddr t.own.pathPc))) t }
    let fetched (l1 : Bool) : Retire :=
      { s := ((found s).eas (useA f .reg 2) (loadOff f) (lanesOf (active f s))).foldl (fun u e => u.prefetch l1 e.2) (found s) }
    touches (.flushWb f) (lineShape 0x88 f (f.fn ≠ 0)) f s 1 (flushed false)
    ∧ touches (.flushInv f) (lineShape 0x88 f (f.fn ≠ 1)) f s 1 (flushed true)
    ∧ touches (.flushL1 f) (lineShape 0x88 f (f.fn ≠ 2)) f s 1 (fun t as r =>
        t.ortRoom (linesOf as).length = true ∧ r = { s := t.modCore t.focus.core (fun k =>
          { k with l1 := k.l1.filter (fun e => !(as.filterMap t.nearLine).contains e.1) }) })
    ∧ (okay (lineShape 0x86 f (f.fn ≠ 0) false) f s [useA f .reg 2] →
       retires (.prefL1 f) (lineShape 0x86 f (f.fn ≠ 0) false) f s (fetched true))
    ∧ (okay (lineShape 0x86 f (f.fn ≠ 1) false) f s [useA f .reg 2] →
       retires (.prefLlc f) (lineShape 0x86 f (f.fn ≠ 1) false) f s (fetched false))

namespace Sys2Proof.Claims

open Sys2Proof Sys2Proof.Machine

/-- The lanes of a global atomic word, from its checked accesses. -/
def atomLanes (s t : State) (srcs : List Use) (as : List Access) : List AtomLane :=
  as.map (fun x =>
    let w := x.xs.headD ⟨0, 0⟩
    let val (i : Nat) : Word := ((srcs[i]?).map (fun u => s.value u x.lane)).getD 0
    { lane := x.lane, addr := w.pa, uc := t.isUc w, first := w.cpol = 1, b := val 1, c := val 2 })

/-- A checked global atomic word retires: its atomics on this package, one a lane or one a combined location, are outstanding,
and a request has gone to each other package that it names. It needs room in the tables, no port full, and, where it leaves this
package's DRAM, the group's own queue and loads empty. -/
def atomics (i : Instr) (sh : Shape) (f : Full) (s : State) (q : AtomForm) : Prop :=
  ∀ (t u : State) (as : List Access), okay sh f s sh.srcs →
    (found s).accesses false { n := q.n, acc := 4, aligned := true, pci := q.pci }
      ((found s).eas (useA f .reg 2) 0 (lanesOf (active f s))) = (t, .ok as) →
    opens t (active f s) (bit (lsSem f) 1 && scopeF f ≥ 7) (scopeF f) u →
    let ps := atomParts q.aop q.wide q.comb (atomLanes (found s) t sh.srcs as)
    let far := ps.filter (fun p => u.isRemote p.addr)
    let issuer : Issuer := if q.returns then u.loadIssuer
      else u.storeIssuer (BitVec.ofNat 64 (pcAddr u.own.pathPc)) (active f s)
    let sent := (far.map (fun p => (p, p.addr, remoteReq u.ownCtx (.atomic q.aop q.wide p.operand p.swap)
      ((List.range q.n).map (fun i => (p.addr % 128 + i, (0 : Byte)))) (!q.returns) false))).foldl (Sending.one issuer)
      ({ s := u } : Sending AtomPart)
    let e : LoadEntry := { u.atomEntry f q (if q.returns then f.d.toNat else 0x184) with
      parts := ps.filter (fun p => !u.isRemote p.addr)
        ++ (if q.returns then sent.sent.map (fun e => { e.2 with request := some e.1 }) else [])
      remote := if q.returns then sent.sent.map (·.1) else [] }
    let v := if q.returns then sent.s else sent.s.addPosted issuer sent.sent.length
    u.ortRoom ((ps.map (fun p => p.addr / 128)).eraseDups).length = true →
    (ps.any (fun p => u.isRemote p.addr || decide (region (localOf p.addr) ≠ .dram)) = false
      ∨ (u.own.storeQ.any (fun e => !e.scratch) || u.own.loads.any (fun e => !e.scratch || e.acquire)
        || (bit (lsSem f) 1 && !u.own.quiet)) = false) →
    sent.full = false →
    retires i sh f s { s := if e.parts = [] then v else v.pushLoad e }

end Sys2Proof.Claims

open Sys2Proof.Claims

/-- R151 to R155: each atomic word whose addresses pass their checks retires with its atomics outstanding, once its release
performs and the tables have room. -/
def Obligations.AtomicWordsRetireWithTheAtomicsOutstanding : Prop :=
  ∀ (f : Full) (s : State),
    atomics (.atom f) (atomShape 0x89 f true) f s (atomForm f true)
    ∧ atomics (.red f) (atomShape 0x8C f false) f s (atomForm f false)
    ∧ atomics (.cas f) (casShape f) f s { aop := 15, wide := f.fn.getLsbD 0 }
    ∧ (∀ u : State,
       let t := found s
       let sh := atomsShape f
       let aop := bits f.fn.toNat 0 4
       let wide := f.fn.getLsbD 4
       let eas := t.spEas (useA f .noLatch) 0 (lanesOf (active f s))
       let val (i l : Nat) : Word := ((sh.srcs[i]?).map (fun u => t.value u l)).getD 0
       let ls := eas.map (fun e => { lane := e.1, addr := e.2, b := val 1 e.1, c := val 2 e.1 : AtomLane })
       okay sh f s sh.srcs → t.ownTeam.spAccesses (if wide then 8 else 4) true 4 eas = none →
       opens t (active f s) (bit (lsSem f) 1 && scopeF f ≥ 7) (scopeF f) u →
       retires (.atoms f) sh f s { s := u.pushLoad { u.atomEntry f { aop := aop, wide := wide } f.d.toNat with
         scratch := true, parts := atomParts aop wide false ls } })

/-- R118, R156, R158: FENCE.acq retires once the group has no load in flight, FENCE.rel and FENCE.full once their release performs,
FENCE.full only when no operation that the group has cancelled is still to stop, FENCE.l1inv at once; each drops the core's L1 where
its word asks for it. MWAIT retires when the location's value is poisoned or differs from B, or when its wait has run out, with that
value and the monitor disarmed: that a poisoned value ends the wait, and which value a read of another package gives at the timeout,
are the model's reading (log 52). -/
def Obligations.FenceAndMonitorWordsRetire : Prop :=
  ∀ (f : Full) (s t u : State) (act : Lanes), t = found s → act = active f s →
    (ready (fenceShape f false false) f s = true →
      (t.own.loads = [] → retires (.fenceAcq f) (fenceShape f false false) f s { s := t.l1inv f })
      ∧ (opens t act true (scopeF f) u → retires (.fenceRel f) (fenceShape f false false) f s { s := u.l1inv f }
          ∧ (t.own.cancelled = [] → retires (.fenceFull f) (fenceShape f false false) f s { s := u.l1inv f })))
    ∧ (ready (fenceShape f (!f.fn.getLsbD 3) true) f s = true →
        retires (.fenceL1inv f) (fenceShape f (!f.fn.getLsbD 3) true) f s { s := t.l1inv f })
    ∧ (∀ (as : List Access) (v : State) (w : Word) (p : Bool), okay (mwaitShape f) f s (mwaitShape f).srcs →
        t.accesses true { n := typeBytes (lsType f), acc := 1, aligned := true }
          [(lowest act, (t.value (useA f .scalar 2) (lowest act)).toNat)] = (u, .ok as) →
        u.own.quiet = true →
        let xs := (as.headD ⟨0, 0, []⟩).xs
        let x := xs.headD ⟨0, 0⟩
        u.veiled u.focus.core u.focus.team u.focus.group ((xs.filter (fun x => !u.isRemote x.pa)).map (fun x => localOf x.pa)) = false →
        let regs := if lsType f = 5 then 2 else 1
        (if u.isRemote x.pa then u.mwaitFar xs else u.mwaitNear act (scopeF f) (typeBytes (lsType f)) x) = .value v w p →
        (p = true ∨ w ≠ cut regs (t.value (useB f .scalarIn regs) (lowest act)) ∨ u.timedOut = true) →
        retires (.mwait f) (mwaitShape f) f s (v.mwaitDone w p))

/-! ## Words of the engines -/

namespace Sys2Proof.Claims

open Sys2Proof Sys2Proof.Machine

/-- The engine's progress record of an exported handle of that engine is what a `stat` word answers (R51). -/
def tells (i : Instr) (sh : Shape) (f : Full) (s : State) (a : Use) (engine : Nat) : Prop :=
  ∀ e : FutureEntry, okay sh f s [a] → (found s).ownTeam.futOf ((found s).src f a) = some e →
    (e.state = .exported ∨ e.state = .doneExported) → e.engine = engine → e.service = false →
    retires i sh f s {
      s := found s
      result := some { vals := [(0, BitVec.ofNat 64 (bits e.progress.toNat 0 60 + engine * 2 ^ 60))] } }

/-- A copy word whose descriptor `d` and ranges pass their checks starts its copy. -/
def hauls (i : Instr) (op : Nat) (badFn : Bool) (f : Full) (s : State) (n : Nat) (bad : List W32 → Option Nat) : Prop :=
  let sh := haulShape op f badFn
  let t := found s
  let c := (t.src f (asyncC f)).toNat
  let o := t.haulDraft sh f
  ∀ d : List W32, okay sh f s sh.srcs → o.describe t.ownScratch f c n bad = .ok d →
    let o1 := { o with desc := d }
    let o2 := { o1 with total := o1.bytes c }
    o2.ranges t.ownScratch = none → starts i sh f s t 1 (scopeF f) State.haulRoom (State.haulStart o2)

/-- A barrier word whose object lies in the scratchpad, and is not poisoned where it is read, retires with `r`. -/
def bars (i : Instr) (sh : Shape) (f : Full) (s : State) (reads : Bool) (r : Nat → Retire → Prop) : Prop :=
  let t := found s
  let a := barAddr (t.src f (asyncA f)).toNat
  ∀ x : Retire, okay sh f s sh.srcs → t.ownTeam.spBeyond a 16 = false → (reads = true → t.ownScratch.spPoisoned a 16 = false) →
    r a x → retires i sh f s x

/-- An arrival, as a release at team scope: the token that stood before is the word's value. -/
def arrival (s : State) (act : Lanes) (a : Nat) (e : BarEvent) (r : Retire) : Prop :=
  ∃ u, opens s act true 2 u
    ∧ r = { s := u.barEvent u.focus.core u.focus.team a (u.wordEvent e)
            result := some { vals := [(0, (u.ownTeam.bar a).token)] } }

/-- An Ashlar operation word whose descriptor passes its checks starts its operation, or stages it for its trigger. -/
def ashlars (i : Instr) (sh : Shape) (f : Full) (s : State) (has : Bool) (slot : Option Nat)
    (late : Team → List W32 → State → Option Trap) : Prop :=
  let t := found s
  let o := t.ashOp sh f true []
  ∀ d : List W32, okay sh f s sh.srcs → t.ashDesc f o has 3 = .ok d → late t.ownScratch d t = none →
    t.ashStaged slot = false → starts i sh f s t 2 (bits f.fn.toNat 7 4) (State.ashMay slot) (State.ashStart slot { o with desc := d })

/-- An Ashlar setting word enters the engine's order once it has room. -/
def settles (i : Instr) (sh : Shape) (f : Full) (s : State) (has : Bool) (late : List W32 → Option Trap) : Prop :=
  let t := found s
  let o := t.ashOp sh f false []
  ∀ d : List W32, okay sh f s sh.srcs → t.ashDesc f o has 5 = .ok d → late d = none → t.ashRoom = true →
    retires i sh f s { s := t.ashEnter { o with desc := d } }

end Sys2Proof.Claims

open Sys2Proof.Claims

/-- R245 to R251: each copy word whose descriptor and ranges pass their checks starts its copy, with or without a handle, once
its release performs and the engine has room; HSTAT answers the progress of a copy's handle. -/
def Obligations.HaulWordsStartTheirCopies : Prop :=
  ∀ (f : Full) (s : State),
    hauls (.hcopy f) 0xA0 (bits f.fn.toNat 0 4 ≠ 0) f s 0 (fun _ => none)
    ∧ hauls (.htile f) 0xA1 (bits f.fn.toNat 0 2 = 3) f s 16 (tileBad f.fn)
    ∧ hauls (.hfill f) 0xA2 (bits f.fn.toNat 0 2 ≠ 0 || f.fn.getLsbD 4) f s 0 (fun _ => none)
    ∧ hauls (.hgather f) 0xA3 (bits f.fn.toNat 0 4 ≠ 0) f s 8 gatherBad
    ∧ hauls (.hscatter f) 0xA4 (bits f.fn.toNat 0 4 ≠ 0) f s 8 gatherBad
    ∧ tells (.hstat f) (hstatShape f) f s (useA f .scalar) 1

/-- R261 to R264: each barrier word retires with its effect on the object, one that writes it behind the group's earlier
scratchpad accesses: BINIT writes it, the arriving words arrive as a
release and answer the token, BEXPECT adds to the count, BTRY tells in pK whether the phase has flipped, BWAIT passes when it
has, BCONT goes to its label when it has and parks its lanes when it has not, BTRIG sets the trigger. -/
def Obligations.BarrierWordsActOnTheirObject : Prop :=
  ∀ (f : Full) (s t : State) (act : Lanes), t = found s → act = active f s →
    let b := (t.src f (asyncB f)).toNat
    let label := relPc (pcAddr t.own.pathPc) (off20 f)
    let token := (t.src f (asyncB f)).getLsbD 0
    let pend : BarEvent := { pending := (bits b 0 32 : Nat) }
    bars (.binit f) (barShape 0xA6 f false true 0) f s false (fun a r =>
      t.scratchQuiet = true ∧ r = { s := t.modOwnTeam (fun m => m.setBar a (Bar.init b)) })
    ∧ bars (.barrive f) (barShape 0xA7 f true true 0) f s true (fun a r =>
        arrival t act a { arrivals := some (bits b 0 20) } r)
    ∧ bars (.bexpect f) (barShape 0xA8 f false true 1) f s true (fun a r =>
        t.scratchQuiet = true ∧ r = { s := t.barEvent t.focus.core t.focus.team a (t.wordEvent pend) })
    ∧ bars (.bexpectArr f) (barShape 0xA8 f true true 1) f s true (fun a r =>
        arrival t act a { pend with arrivals := some 1 } r)
    ∧ bars (.bwait f) (barShape 0xA9 f true true 0) f s true (fun a r =>
        t.flipped f a = true ∧ r = { s := t, result := some { vals := [(0, (t.ownScratch.bar a).token)] } })
    ∧ bars (.btry f) (barShape 0xAA f false true 0x3F) f s true (fun a r =>
        r = { s := t, preds := (lanesOf act).map (fun l => (l, bits f.fn.toNat 0 6, t.flipped f a)) })
    ∧ bars (.bcont f) (bcontShape f) f s true (fun a r =>
        (t.flipped f a = true ∧ r = { s := t, target := some ((lanesOf act).map (fun l => (l, label))) })
        ∨ (t.flipped f a = false
            ∧ (t.own.bwstate.getLsbD 33 = false
                ∨ barAddr (bits t.own.bwstate.toNat 0 32) = a ∧ t.own.bwstate.getLsbD 32 = token)
            ∧ t.scratchQuiet = true ∧ r = { s := t.park act a token label }))
    ∧ bars (.btrig f) (barShape 0xAC f false true 0) f s true (fun a r =>
        bits b 0 2 ≠ 3 ∧ t.scratchQuiet = true ∧ r = { s := t.modOwnTeam (fun m =>
          m.setBar a (putBits (putBits (m.bar a) 104 3 (bits b 0 3)) 112 8 (bits b 8 8))) })

/-- R271 to R291: each Ashlar word whose descriptor passes its checks retires: an operation starts, or is staged for its
trigger; a setting enters engine order; MRDY passes once no scratchpad store of the group is queued, and opens the operand
window of the group's next operations; MSTAT answers a counter once the operations before it have completed, and may clear
selectors 0 to 3. -/
def Obligations.AshlarWordsEnterTheEngine : Prop :=
  ∀ (f : Full) (s t : State) (act : Lanes), t = found s → act = active f s →
    let d := some (asyncD f)
    let drain := ashShape 0xB4 f d ([asyncA f, asyncB f] ++ ashBar f) true (bits f.fn.toNat 0 3 = 7)
    let apply := ashShape 0xB5 f d ([asyncA f, asyncB f] ++ ashBar f) true (bits f.fn.toNat 1 5 ≠ 0)
    let trig := f.fn.getLsbD 5
    let stat := ashShape 0xBA f (some (useD f .dstScalar)) [asyncB f] false (!fnOnly f 1)
    ashlars (.mldw f) (ashShape 0xB0 f d ([asyncA f] ++ ashBar f) true (bits f.fn.toNat 1 3 > 5)) f s true none
      (fun m x _ => firstTrap [wdTrap f.fn x, m.wdExtents f.fn x])
    ∧ ashlars (.mswap f) (ashShape 0xB1 f d (ashBar f) true (bits f.fn.toNat 0 6 ≠ 0)) f s false none (fun _ _ _ => none)
    ∧ ashlars (.mstream f) (ashShape 0xB2 f d ([asyncA f] ++ (if trig then [asyncB f] else []) ++ ashBar f) true
        (bits f.fn.toNat 0 3 > 4)) f s true (if trig then some (bits (t.src f (asyncB f)).toNat 0 3) else none)
        (fun m x u => firstTrap [sdTrap f.fn x u.ashPlanned, m.sdExtents f.fn x u.ashPlanned])
    ∧ (ready (ashShape 0xB3 f none [] false (f.fn ≠ 0)) f s = true → t.own.storeQ.any (·.scratch) = false →
        retires (.mrdy f) (ashShape 0xB3 f none [] false (f.fn ≠ 0)) f s { s := t.openWindow })
    ∧ ashlars (.mdrain f) drain f s true none (ddLate drain f)
    ∧ ashlars (.mapply f) apply f s true none (ddLate apply f)
    ∧ ashlars (.mzero f) (ashShape 0xB6 f d ([asyncB f] ++ ashBar f) true (bits f.fn.toNat 0 6 ≠ 0)) f s false none
        (fun _ _ _ => none)
    ∧ settles (.mcfg f) (ashShape 0xB7 f none [asyncB f] false (f.fn ≠ 0)) f s false (fun _ => none)
    ∧ settles (.mscale f) (ashShape 0xB8 f none [asyncB f] false (!fnOnly f 1)) f s false (fun _ => none)
    ∧ settles (.mdmap f) (ashShape 0xB9 f none [asyncA f] false (f.fn ≠ 0)) f s true mapTrap
    ∧ (okay stat f s stat.srcs → t.mstatSince act ≤ (t.core t.focus.core).ash.ended →
        let sel := bits (t.src f (asyncB f)).toNat 0 8
        let u := t.noteMstat []
        retires (.mstat f) stat f s {
          s := if f.fn.getLsbD 0 then u.modCore t.focus.core (fun k => { k with ash := k.ash.clear }) else u
          result := some { vals := [(0, BitVec.ofNat 64 (t.mstat sel))] } })

namespace Sys2Proof.Claims

open Sys2Proof Sys2Proof.Machine

/-- An operand whose flags, tag and target pass their checks is on its way to its station, with the sender's future where the
word asks for a handle. -/
def sends (i : Instr) (sh : Shape) (f : Full) (s : State) (payload : List W32) (poison : List Nat) : Prop :=
  let t := found s
  let tag : W32 := (t.src f (asyncB f)).setWidth 32
  let cdf : W32 := (t.src f (asyncB f)).extractLsb' 32 32
  ∀ (u : State) (ps : List Piece), okay sh f s sh.srcs → badCdf cdf = false → t.tagTrap t.ownCtx tag cdf = none →
    t.ksTarget t.ownCtx tag cdf (4 * payload.length) = (u, .ok ps) →
    starts i sh f s u 3 (bits f.fn.toNat 7 4) (fun _ => true) (fun v h =>
      let o : Operand := {
        tag := tag, payload := payload, flags := (t.src f (asyncC f)).setWidth 32, cdf := cdf, scope := bits f.fn.toNat 7 4
        gridSlot := t.ownTeam.gridSlot, target := ps, poison := poison, master := masterId 0 t.ownCtx
        senders := (h.map (fun h => Sender.future (v.ownRef h))).toList }
      ({ v with ksFlight := v.ksFlight ++ [o] } : State).noteProgress v.focus.core v.ownTeam.gridSlot h 3 0)

end Sys2Proof.Claims

open Sys2Proof.Claims

/-- R310 to R313: each Keystone word that passes its checks retires: TAGA takes a run of tags or answers that none fits, TAGF
gives one back, KSEND and KSENDS send their operand, KSTAT answers a progress record or a counter, KCFG writes its setting. -/
def Obligations.KeystoneWordsRetire : Prop :=
  ∀ (f : Full) (s t : State), t = found s →
    let b := t.src f (asyncB f)
    let ctx := t.ownCtx
    let taga := ksShape 0xC0 (some (useD f .scalar)) [asyncB f] [(0, f.fn ≠ 0)]
    let tagf := ksShape 0xC1 none [asyncA f, asyncB f] [(0, f.fn ≠ 0)]
    let ctr := ksShape 0xC4 (some (useD f .scalar)) [asyncB f] [(0, !fnOnly f 1)]
    let dest : Shape := { ksShape 0xC5 none [asyncA f, asyncB f] [(0, !fnOnly f 3)] with behind := true }
    let tmo := ksShape 0xC5 none [asyncB f] [(0, !fnOnly f 3)]
    let ovf := ksShape 0xC5 none [asyncB f] [(0, !fnOnly f 3 || f.fn.getLsbD 0)]
    let n := bits b.toNat 0 32
    let words := bits f.fn.toNat 0 7 + 1
    let a := bits (t.src f (asyncA f)).toNat 0 32
    let sel := bits b.toNat 0 8
    (okay taga f s taga.srcs →
      (∀ x, 0 < n → n ≤ 65536 → (t.tagPool ctx).fit n = some x → retires (.taga f) taga f s {
        s := t.setPool ctx ((t.tagPool ctx).add x n), result := some { vals := [(0, (mkTag ctx x).setWidth 64)] } })
      ∧ ((n = 0 ∨ 65536 < n ∨ (t.tagPool ctx).fit n = none) → retires (.taga f) taga f s {
        s := t, result := some { vals := [(0, 0xFFFFFFFF)] } }))
    ∧ (okay tagf f s tagf.srcs → t.tagfFail ctx ((t.src f (asyncA f)).setWidth 32) n = none →
        retires (.tagf f) tagf f s {
          s := t.setPool ctx ((t.tagPool ctx).sub (tagNo ((t.src f (asyncA f)).setWidth 32)) n) })
    ∧ (t.ownScratch.spBeyond (a / 4 * 4) (4 * words) = false →
        sends (.ksend f) (ksendShape f) f s (t.ownScratch.spWords (a / 4 * 4) words)
          ((List.range words).filter (fun i => t.ownScratch.spPoisoned (a / 4 * 4 + 4 * i) 4)))
    ∧ sends (.ksends f) (ksendsShape f) f s (if f.fn.getLsbD 0 then [(t.src f (asyncA f)).setWidth 32,
        (t.src f (asyncA f)).extractLsb' 32 32] else [(t.src f (asyncA f)).setWidth 32]) []
    ∧ tells (.kstat f) (ksShape 0xC4 (some (useD f .scalar)) [asyncA f] [(0, !fnOnly f 1)]) f s (asyncA f) 3
    ∧ (okay ctr f s ctr.srcs → retires (.kstatCtr f) ctr f s {
        s := t
        result := some { vals := [(0, if sel < 5 then t.reg (offCtx ctx + 0x820 + 8 * sel)
          else if sel = 5 then t.reg (offCtx ctx + 0x848) else if sel = 6 then t.reg (offCtx ctx + 0x818) else 0)] } })
    ∧ (okay dest f s dest.srcs → t.ownScratch.spBeyond a 32 = false → t.ownScratch.spPoisoned a 32 = false →
        kdestBad (t.ownScratch.spWords a 8) = none → n < 16 → retires (.kcfgDest f) dest f s {
          s := ((List.range 4).zip (words8 (t.ownScratch.spWords a 8))).foldl
            (fun (u : State) e => u.setReg (offCtx ctx + 0x900 + 32 * n + 8 * e.1) e.2) t })
    ∧ (okay tmo f s tmo.srcs → retires (.kcfgTmo f) tmo f s { s := t.setKsCfg 0 32 n })
    ∧ (okay ovf f s ovf.srcs → retires (.kcfgOvf f) ovf f s {
        s := t.setKsCfg 32 16 (min n (t.regBits (offCtx ctx + 0x808) 0 16)) })

/-- R331 to R335: each dispenser word retires: FETCH answers the next work item of the group's grid, or the end word, TDONE
declares an item as a release, GCFG sets a field of the grid, GSTAT answers one, GFILL answers the open jobs once the walk and
its jobs are over or its wait has run out. In the firmware slot, which has no grid, what is answered is a free value (log 3). -/
def Obligations.DispenserWordsRetire : Prop :=
  ∀ (f : Full) (s t : State) (act : Lanes), t = found s → act = active f s →
    let b := (t.src f (asyncB f)).toNat
    let gcfg (set : Grid → Grid) : Retire := { s := t.modOwnGrid set }
    (ready (fetchShape f) f s = true →
      (∀ g, t.ownGrid = some g →
        let r := g.nextItem (g.total - g.walk)
        retires (.fetch f) (fetchShape f) f s {
          s := if r.2 = endWord ∨ r.1.walk = r.1.total then (t.modOwnGrid (fun _ => r.1)).wakeGrid g.seq else t.modOwnGrid (fun _ => r.1)
          result := some { vals := [(0, r.2)] } })
      ∧ (t.ownGrid = none → retires (.fetch f) (fetchShape f) f s {
          s := t.draw.2, result := some { vals := [(0, t.draw.1)] } }))
    ∧ (∀ u, okay (tdoneShape f) f s (tdoneShape f).srcs → opens t act true 6 u →
        retires (.tdone f) (tdoneShape f) f s { s := u.modOwnGrid (fun g => g.declare (u.src f (asyncA f))) })
    ∧ (okay (gcfgShape f) f s (gcfgShape f).srcs →
        (badTarget (bits b 0 16) = false →
          retires (.gcfgTarget f) (gcfgShape f) f s (gcfg (fun g => { g with target := BitVec.ofNat 16 b })))
        ∧ (bits b 0 3 ≠ 7 → retires (.gcfgRung f) (gcfgShape f) f s (gcfg (fun g =>
            if g.adapt then { g with rung := min (bits b 0 3) g.start, lowrun := false } else g)))
        ∧ retires (.gcfgProbe f) (gcfgShape f) f s (gcfg (fun g => { g with probeCode := bits b 0 2 })))
    ∧ (∀ g, t.ownGrid = some g →
        (okay (gstatShape f) f s (gstatShape f).srcs → retires (.gstat f) (gstatShape f) f s {
          s := t, result := some { vals := [(0, g.stat (bits b 0 8))] } })
        ∧ (okay (gfillShape f) f s (gfillShape f).srcs → ((g.walk = g.total ∧ g.openJobs = 0) ∨ t.timedOut = true) →
          retires (.gfill f) (gfillShape f) f s {
            s := t.endWait, result := some { vals := [(0, BitVec.ofNat 64 g.openJobs)] } }))
    ∧ (t.ownGrid = none →
        (okay (gstatShape f) f s (gstatShape f).srcs → retires (.gstat f) (gstatShape f) f s {
          s := t.draw.2, result := some { vals := [(0, t.draw.1)] } })
        ∧ (okay (gfillShape f) f s (gfillShape f).srcs → retires (.gfill f) (gfillShape f) f s {
          s := t.draw.2, result := some { vals := [(0, t.draw.1)] } }))

/-- R346 to R353: QLOADX and QGEMV that pass their checks start once their release performs and the team's Quarry queue has
room; QFENCE.w writes the unit's buffers back as a release, once the operations that
the group has cancelled have stopped (R118), QFENCE.r passes once no operation of the group is under way, QFENCE.wr
does both; QSTAT answers a progress record or a status. -/
def Obligations.QuarryWordsRetire : Prop :=
  ∀ (f : Full) (s t u : State) (act : Lanes), t = found s → act = active f s →
    let a := bits (t.src f (asyncA f)).toNat 0 32
    let n := bits (t.src f (asyncB f)).toNat 0 15
    let fmt := bits f.fn.toNat 0 2
    let load := quarryShape 0xD0 f [asyncA f, asyncB f] (fmt = 3 || bits f.fn.toNat 2 3 ≠ 0 || f.fn.getLsbD 6)
    let ks := f.fn.getLsbD 6
    let gfmt := bits f.fn.toNat 0 4
    let gemv := quarryShape 0xD1 f ([asyncA f, asyncB f] ++ if ks then [asyncC f] else [])
      (gfmt = 0 || gfmt > 4 || f.fn.getLsbD 4)
    let o0 := t.quarryOp f true gfmt
    let o : QuarryOp := { o0 with
      ks := ks, len := (t.ownScratch.qplanned o0.slot).1, desc := t.ownScratch.spWords (a / 8 * 8) 8
      bval := t.src f (asyncB f), cval := (t.src f (asyncC f)).setWidth 32 }
    let room : State → Bool := fun s => s.ownTeam.quarry.length < 8
    let st (sel : Nat) : Word := match sel with
      | 0 => t.reg (offQry + 8)
      | 1 => t.ownTeam.qhdr 0
      | 2 => t.ownTeam.qhdr 1
      | 3 => BitVec.ofNat 64 t.ownTeam.quarry.length
      | _ => 0
    (okay load f s load.srcs → 0 < n → n ≤ 16384 → t.ownTeam.spBeyond a (n * ifmtBytes fmt) = false →
      starts (.qloadx f) load f s t 4 (scopeF f) room (fun v h => v.quarryEnter { v.quarryOp f false fmt with len := n, src := a } h))
    ∧ (okay gemv f s gemv.srcs → (ks = true → badCdf o.cval = false) → t.gemvTrap f t.ownScratch o (a / 8 * 8) = (u, none) →
      starts (.qgemv f) gemv f s u 4 (scopeF f) room (fun v h => v.quarryEnter o h))
    ∧ (ready (qfenceShape f (bits f.fn.toNat 0 2 = 0)) f s = true → t.own.cancelled = [] → opens t act true (scopeF f) u →
        retires (.qfenceW f) (qfenceShape f (bits f.fn.toNat 0 2 = 0)) f s { s := u.flushQuarry })
    ∧ (ready (qfenceShape f false) f s = true → t.ownQuarry = false →
        retires (.qfenceR f) (qfenceShape f false) f s { s := t }
        ∧ (t.own.cancelled = [] → opens t act true (scopeF f) u → retires (.qfenceWr f) (qfenceShape f false) f s { s := u.flushQuarry }))
    ∧ tells (.qstat f) (qstatShape f) f s (asyncA f) 4
    ∧ (okay (qstatStShape f) f s (qstatStShape f).srcs → retires (.qstatSt f) (qstatStShape f) f s {
        s := t, result := some { vals := [(0, st (bits (t.src f (asyncB f)).toNat 0 8))] } })

/-- R397 to R400: each Lintel word of a group retires: LLAUNCH launches or stages the collective of its record, LFLAG adds to or
sets the flags that its selector names, LWAIT answers a flag that has reached its value or whose wait has run out, LSTAT answers
progress, a flag or the slot's status. A slot of another context refuses the word, with a deferred fault. -/
def Obligations.LintelWordsRetire : Prop :=
  ∀ (f : Full) (s t u v : State) (act : Lanes), t = found s → act = active f s →
    let sel := t.src f (asyncA f)
    let ports := selPorts sel
    let i := selSlot sel
    let fl := selFlag sel
    let b : W32 := (t.src f (asyncB f)).setWidth 32
    let flag (set : Bool) : Retire :=
      let w := ports.foldl (State.flagAt i fl set b) u
      { s := if ports.any (fun p => u.slotOwner p i ≠ u.ownCtx) then w.denySlot act 2 else w }
    let value (p : Nat) : Word := match bits f.fn.toNat 0 2 with
      | 0 => mkProgress 5 (t.slot p i).chunk.toNat
      | 1 => ((t.slot p i).flag fl).setWidth 64
      | _ => t.slotWord p i
    (∀ bs : List Byte, okay (llaunchShape f) f s [asyncA f] → sel.toNat % 64 = 0 → opens t act true 8 u →
      u.readRecord f act sel.toNat 128 = .bytes v bs →
      let ws := words8 (words4 bs)
      let l := v.packetOf ws none
      l.fail v.pkgid v.maxpkg = none → (l.trigEn = true → (sfind (l.f 9 33 2) v.ownTeam.lintelStaged).isSome = false) →
      (handleReg f = none → retires (.llaunch f) (llaunchShape f) f s { s := v.startLaunch l })
      ∧ ∀ r h w, handleReg f = some r → v.allocFuture 5 (some r) 8 = some (h, w) →
        retires (.llaunch f) (llaunchShape f) f s { s := w.startLaunch (w.packetOf ws (some h)) })
    ∧ (okay (lflagShape f) f s [asyncA f, asyncB f] → ports ≠ [] → opens t act true 8 u →
        retires (.lflagAdd f) (lflagShape f) f s (flag false) ∧ retires (.lflagSet f) (lflagShape f) f s (flag true))
    ∧ (∀ p, ports = [p] →
        (okay (lwaitShape f) f s (lwaitShape f).srcs →
          (t.slotOwner p i ≠ t.ownCtx → retires (.lwait f) (lwaitShape f) f s { s := t.denySlot act 1 })
          ∧ (t.slotOwner p i = t.ownCtx → (reached ((t.slot p i).flag fl) b = true ∨ t.timedOut = true) →
            retires (.lwait f) (lwaitShape f) f s {
              s := t.endWait, result := some { vals := [(0, ((t.slot p i).flag fl).setWidth 64)] } }))
        ∧ (okay (lstatShape f) f s (lstatShape f).srcs →
          (t.slotOwner p i ≠ t.ownCtx → retires (.lstat f) (lstatShape f) f s { s := t.denySlot act 1 })
          ∧ (t.slotOwner p i = t.ownCtx → retires (.lstat f) (lstatShape f) f s {
              s := t, result := some { vals := [(0, value p)] } })))

/-! ## Sequencer words -/

namespace Sys2Proof.Claims

open Sys2Proof Sys2Proof.Machine

/-- The slot that `focus` names runs, and no send of its instruction is in flight. -/
def slotRuns (s : State) : Prop :=
  let t := s.slot s.focus.port s.focus.slot
  t.state = .run ∧ t.current.isSome = true ∧ t.sending = none

/-- A word with legal fields, whose next instruction lies in the program, completes: the slot takes `f` and goes on at `next`. -/
def goesOn (i : Instr) (s : State) (u : SeqUses) (q : SeqWord) (next : Int) (f : Slot → Slot) : Prop :=
  slotRuns s → u.bad q = false → 0 ≤ next → next ≤ 511 →
    exec i s = .next (s.plainDone s.focus.port s.focus.slot (fun t => { f t with pc := next.toNat }))

/-- A chunk word with legal fields, whose destination exists, whose chunk has its length, that can move and whose ranges are
mapped, moves its chunk. -/
def moves (i : Instr) (s : State) (u : SeqUses) (q : SeqWord) (combines : Bool) (c : ChunkForm) : Prop :=
  let p := s.focus.port
  let n := s.focus.slot
  let t := s.slot p n
  ∀ (s1 s2 : State) (rs ws : List Span), slotRuns s → chunkCause u q t combines c = none → (∀ d, c.send = some d → d ≤ s.maxpkg) →
    (∀ ch, c.recv.bind t.chunkFrom = some ch → 4 * ch.elems.length = c.len) → t.canMove c = true →
    s.chunkSpans (s.slotOwner p n) c.len c.read 1 = (s1, .ok rs) →
    s1.chunkSpans (s.slotOwner p n) c.len c.write 2 = (s2, .ok ws) → exec i s = .next (s2.chunkPerform p n c rs ws)

end Sys2Proof.Claims

open Sys2Proof.Claims

/-- R384 to R386: each register, branch and flag word of a sequencer with legal fields, whose next instruction lies in 0 to 511,
completes with the register or flag that its rule writes; LOOP and BNZ whose target lies outside 0 to 511 halt the slot with
SEQ_ILLEGAL, CAUSE 4 (R378), taken or not (log 37 of the model); WAITF waits while its flag has not reached IMM, SIGF.peer leaves for
its destination, YIELD ends the turn, HALT the program. -/
def Obligations.SequencerPlainWordsComplete : Prop :=
  ∀ (q : SeqWord) (s : State),
    let p := s.focus.port
    let i := s.focus.slot
    let t := s.slot p i
    let m0 := q.md.getLsbD 0
    let next : Int := t.pc + 1
    let target : Int := t.pc + q.imm.toInt
    let a := t.c q.ca
    goesOn (.seqNop q) s {} q next id
    ∧ goesOn (.movi q) s { ca := true, imm := true, md := 1 } q next (fun u =>
        u.setC q.ca (if m0 then q.imm ++ (u.c q.ca).setWidth 32 else q.imm.signExtend 64))
    ∧ goesOn (.addi q) s { ca := true, cb := true, cc := m0, imm := true, md := 1 } q next (fun u => u.setC q.ca (
        let x := u.c q.cb + q.imm.signExtend 64
        if !m0 then x else if x.toInt < 0 then x + u.c q.cc else if (u.c q.cc).toInt ≤ x.toInt then x - u.c q.cc else x))
    ∧ goesOn (.seqAdd q) s { ca := true, cb := true, cc := true, md := 1 } q next (fun u =>
        u.setC q.ca (if m0 then u.c q.cb - u.c q.cc else u.c q.cb + u.c q.cc))
    ∧ (0 ≤ target → target ≤ 511 →
        goesOn (.seqLoop q) s { ca := true, imm := true } q (if a - 1 ≠ 0 then target else next) (fun u => u.setC q.ca (a - 1))
        ∧ goesOn (.bnz q) s { ca := true, imm := true, md := 1 } q
          (if (decide (a ≠ 0) != m0) = true then target else next) id)
    ∧ (target < 0 ∨ 511 < target → slotRuns s →
        (SeqUses.bad { ca := true, imm := true } q = false → exec (.seqLoop q) s = .next (s.seqIllegal p i 4))
        ∧ (SeqUses.bad { ca := true, imm := true, md := 1 } q = false → exec (.bnz q) s = .next (s.seqIllegal p i 4)))
    ∧ (reached (t.flag q.fi.toNat) q.imm = true → goesOn (.waitf q) s { fi := true, imm := true } q next id)
    ∧ (slotRuns s → SeqUses.bad { fi := true, imm := true } q = false → next ≤ 511 →
        reached (t.flag q.fi.toNat) q.imm = false →
        exec (.waitf q) s = .next (s.modSlot p i (fun t => { t with state := .wait, plain := 0 })))
    ∧ (slotRuns s → SeqUses.bad { fi := true, imm := true, md := 1 } q = false → next ≤ 511 →
        exec (.sigf q) s = .next ((s.setFlag p i q.fi.toNat m0 q.imm).plainDone p i (fun u => { u with pc := t.pc + 1 })))
    ∧ (slotRuns s → SeqUses.bad { cb := true, fi := true, imm := true, md := 3 } q = false → next ≤ 511 →
        peerDst (t.c q.cb) ≤ s.maxpkg →
        exec (.sigfPeer q) s = .next (s.modSlot p i (fun u => { u with
          peerSent := u.peerSent ++ [(peerDst (t.c q.cb), q.fi.toNat, m0, q.imm)]
          sending := some { dst := peerDst (t.c q.cb), peer := true, since := s.ns } })))
    ∧ goesOn (.seqYield q) s {} q next (fun u => { u with state := .ready, plain := 0 })
    ∧ (slotRuns s → SeqUses.bad {} q = false → exec (.seqHalt q) s = .next (
        ((s.modSlot p i (fun u => { u with state := .halted, plain := 0, pc := u.pc + 1 })).slotEnded p i).seqStep p))

/-- R382, R383: each chunk word moves its chunk: the range that it reads, the source that it receives from, the range that it
writes and the destination that it sends to are those of its rule, and so is what it combines or scales. -/
def Obligations.SequencerChunkWordsMoveTheirChunk : Prop :=
  ∀ (q : SeqWord) (s : State),
    let t := s.slot s.focus.port s.focus.slot
    let a := some (t.c q.ca).toNat
    let c := some (t.c q.cc).toNat
    let src := some (bits (t.c q.cb).toNat 0 12)
    let dst := some (bits (t.c q.cb).toNat 16 12)
    let len := bits q.imm.toNat 0 17
    let cop := some (bits q.md.toNat 0 4)
    let st := q.md.getLsbD 4
    moves (.xmit q) s { ca := true, cb := true, imm := true } q false { len := len, read := a, send := dst }
    ∧ moves (.rcvst q) s { cb := true, cc := true, imm := true } q false { len := len, recv := src, write := c }
    ∧ moves (.rcvcmb q) s { ca := true, cb := true, cc := true, imm := true, md := 0x0F } q true
        { len := len, recv := src, read := a, write := c, cop := cop }
    ∧ moves (.rcvcf q) s { ca := true, cb := true, cc := st, imm := true, md := 0x1F } q true
        { len := len, recv := src, read := a, write := if st then c else none, send := dst, cop := cop }
    ∧ moves (.rcvfw q) s { cb := true, cc := st, imm := true, md := 0x10 } q false
        { len := len, recv := src, write := if st then c else none, send := dst }
    ∧ moves (.scaleEnc q) s { ca := true, cc := true, imm := true, md := 1 } q false
        { len := len, read := a, write := c, scale := some false }
    ∧ moves (.scaleDec q) s { ca := true, cc := true, imm := true, md := 1 } q false
        { len := len, read := a, write := c, scale := some true }

/-! ## Front-end words -/

/-- R415, R416, R427: LAUNCHC queues its child grid once its release performs and its record is good; JOINC passes a register
that has resolved, or consumes a complete exported launch; SNAP triggers a capture and answers whether it latched. -/
def Obligations.LaunchJoinAndSnapWordsRetire : Prop :=
  ∀ (f : Full) (s t u v : State) (act : Lanes), t = found s → act = active f s →
    let base := (t.src f (asyncA f)).toNat
    let pick := bits (t.src f (asyncB f)).toNat 0 7
    let n := bits f.a.toNat 0 7
    let h := t.own.s n
    let joins : Prop := okay (joincShape f) f s [{ useA f .scalar 2 with blocks := false }]
    let snap := t.trigger 0
    (∀ bs : List Byte, okay (launchcShape f) f s [asyncA f, asyncB f] → pick ≤ 96 → base % 64 = 0 → opens t act true 6 u →
      u.readRecord f act base 192 = .bytes v bs →
      let r := words8 (words4 bs)
      v.recordFail v.ownCtx pick r = none →
      (handleReg f = none → retires (.launchc f) (launchcShape f) f s { s := v.childStart pick base r none })
      ∧ ∀ d k w, handleReg f = some d → v.allocFuture 6 (some d) 6 = some (k, w) →
        retires (.launchc f) (launchcShape f) f s { s := w.childStart pick base r (some k) })
    ∧ (joins → f.fn.getLsbD 0 = false → t.own.pending n = false →
        retires (.joinc f) (joincShape f) f s { s := (t.joined act h).giveStatus f.d h })
    ∧ (∀ e, joins → f.fn.getLsbD 0 = true → t.exported h = some e → e.engine = 6 → e.service = false → e.state = .doneExported →
        retires (.joinc f) (joincShape f) f s { s := (t.consume f.d h e).joined act h })
    ∧ (ready (snapShape f) f s = true → retires (.snap f) (snapShape f) f s {
        s := snap.s
        result := some { vals := [(0, BitVec.ofNat 64
          ((if snap.latched then 1 else 0) + bits (snap.s.reg (offSnap + 0x10)).toNat 32 32 * 2 ^ 32))] } })

/-- R405, R417, R421, R426, R428, R429: each privileged word of the firmware slot that passes its checks retires: CTXSW starts a
team's switch, TLBI removes translations and ends once every access that used one has, or drops instruction-cache lines, ERET
returns, PSRD and PSWR send a physical load or store, WDPLACE hands a record over, HALT clears the run bit. -/
def Obligations.FirmwareWordsRetire : Prop :=
  ∀ (f : Full) (s t : State) (act : Lanes), t = found s → act = active f s →
    let c := t.focus.core
    let a := (t.src f (asyncA f)).toNat
    let b := (t.src f (asyncB f)).toNat
    let n := typeBytes (lsType f)
    let tlbi (k : Nat) (i : Instr) : Prop :=
      let u : State := { t with tlb := t.tlb.filter (fun e => !tlbiHits k (t.tlbiCtxOf f) (t.tlbiAddr f) e) }
      okay (tlbiShape f false) f s (tlbiShape f false).srcs →
      u.drained k (t.tlbiCtxOf f) (t.tlbiAddr f) (t.own.drain.getD (t.drainNow k (t.tlbiCtxOf f))) = true →
      retires i (tlbiShape f false) f s { s := u.modOwn (fun g => { g with drain := none }) }
    let handed (i : Instr) (sh : Shape) (u : State) (start : State → Option Word → State) : Prop :=
      (handleReg f = none → retires i sh f s { s := start u none })
      ∧ ∀ d k w, handleReg f = some d → u.allocFuture 6 (some d) 6 = some (k, w) → retires i sh f s { s := start w (some k) }
    (∀ u, okay (ctxswOutShape f) f s [asyncA f] → opens t act true 6 u →
      let c := u.focus.core
      let n := bits (u.src f (asyncA f)).toNat 0 3
      (sfind n (u.core c).teams).isSome = true →
      handed (.ctxswOut f) (ctxswOutShape f) u (fun v h =>
        (v.beginOut c n (f.fn.getLsbD 1) (h.map v.ownRef)).outStep c n))
    ∧ (∀ u m, okay (ctxswInShape f) f s [asyncA f, asyncB f] → opens t act true 6 u →
      let c := u.focus.core
      let n := bits (u.src f (asyncB f)).toNat 0 3
      u.away.find? (fun m => m.image = (u.src f (asyncA f)).toNat ∧ m.core = c) = some m →
      (sfind n (u.core c).teams).isSome = false →
      handed (.ctxswIn f) (ctxswInShape f) u (fun v h => v.inStart c n m.gridSlot h))
    ∧ tlbi 0 (.tlbiVa f) ∧ tlbi 1 (.tlbiCtx f) ∧ tlbi 2 (.tlbiAll f)
    ∧ (okay (tlbiShape f false) f s (tlbiShape f false).srcs → retires (.tlbiIc f) (tlbiShape f false) f s {
        s := t.icDrop (t.linesOf (t.tlbiCtxOf f) (t.tlbiAddr f)).contains })
    ∧ (let sh := tlbiShape f (bits f.fn.toNat 0 3 ≠ 4)
       okay sh f s sh.srcs → retires (.tlbiIcall f) sh f s { s := t.icDrop (fun _ => true) })
    ∧ (ready (eretShape f) f s = true → retires (.eret f) (eretShape f) f s { s := t, after := State.fwReturn })
    ∧ (∀ pa, okay (psrdShape f) f s [asyncA f] → physAddr a n 1 = .ok pa →
        let at_ := (List.range n).map (fun i => pa + i + t.pkgid * 2 ^ 40)
        t.ortRoom ((at_.map (· / 128)).eraseDups).length = true → retires (.psrd f) (psrdShape f) f s {
          s := t.pushLoad { t.loadEntry f { n := n, regs := 2, ttype := lsType f } with
            context := 0, lanes := [{ lane := 0, addrs := at_, ucs := at_.map (fun b => region (localOf b) ≠ .dram) }] } })
    ∧ (∀ pa u, okay (pswrShape f) f s [asyncA f] → physAddr a n 2 = .ok pa →
        opens t act (lsSem f = 1 && scopeF f ≥ 7) (scopeF f) u → u.own.queued < 16 →
        let base := pa + t.pkgid * 2 ^ 40
        let bytes := (bytesOfNat n b).zipIdx.map (fun e => (base + e.2, e.1))
        retires (.pswr f) (pswrShape f) f s { s := u.pushStore [{
          bytes := bytes, poison := if t.own.poisoned (asyncB f) 0 then (List.range n).map (base + ·) else []
          uc := region pa ≠ .dram, release := lsSem f = 1, scope := scopeF f, size := n, seq := u.own.memNext, context := 0
          pc := BitVec.ofNat 64 (pcAddr u.own.pathPc), byLane := [(0, base)] }] })
    ∧ (∀ u, okay (wdplaceShape f) f s [asyncA f, asyncB f] → opens t act true 6 u →
        let a := (u.src f (asyncA f)).toNat
        let b := (u.src f (asyncB f)).toNat
        a % 64 = 0 → a < 2 ^ 40 → region a ≠ .reserved → region a ≠ .mgmt →
        let q := u.admitAll 0 1 ((List.range 192).map (a + ·)) false
        let r := q.1.peeks false a 192
        q.2 = true → ¬ (region a = .pci ∧ u.input = .flag true) → r.2 = false → q.1.recordFail (bits b 0 6) (bits b 6 7) (words8 (words4 r.1)) = none →
        handed (.wdplace f) (wdplaceShape f) q.1 (fun v h =>
          v.placeRecord a (bits b 0 6) (bits b 6 7) (words8 (words4 r.1)) h))
    ∧ (ready (haltShape f) f s = true → retires (.halt f) (haltShape f) f s {
        s := t.setReg (offCore c + 0x300) (t.fwReg 0x300 &&& ~~~ (1 : Word)) })

/-! ## Device events -/

namespace Sys2Proof.Claims

open Sys2Proof Sys2Proof.Machine

/-- The event takes place, and leaves the state `t`. -/
def happens (i : Instr) (s t : State) : Prop := exec i s = .next t

end Sys2Proof.Claims

open Sys2Proof.Claims

/-- R42, R121, R158: a forced switch point switches once nine instructions have gone by; a barrier whose timeout has passed traps
its waiting groups and starts afresh; a monitor's write or poll wakes the armed group, and the end of a timed wait the groups
whose time is up. -/
def Obligations.GroupEventsHaveTheirEffect : Prop :=
  ∀ s : State,
    (∀ g, s.own? = some g → 9 ≤ g.count → happens .forcedSwitchPoint s s.switchPoint)
    ∧ (let c := s.focus.core
       let t := s.focus.team
       let n := s.focus.index % 16
       ∀ m, s.team? c t = some m → m.barTimeout ≠ 0 → (m.tbar n).arrived ≠ 0 →
         m.barTimeout.toNat < (s.clock + 2 ^ 48 - (m.tbar n).first) % 2 ^ 48 →
         happens .barTimeout s (((m.groups.map (·.1)).foldl (State.tbarTimeoutGroup n (m.tbar n).arrived) s).modTeam c t (fun u =>
           { u.setTbar n { phase := (m.tbar n).phase } with
             groups := u.groups.map (fun e => (e.1, { e.2 with tblanes := sput 0 e.2.tblanes n 0 })) })))
    ∧ (s.own.armed = true → happens .mwaitWake s (s.modOwn Group.wake))
    ∧ (s.own.armed = true → s.own.mwaitRead + 1024 ≤ s.uncore → happens .mwaitPoll s (s.modOwn Group.wake))
    ∧ happens .mwaitTimeout s s.wakeExpired
    ∧ happens .lwaitTimeout s s.wakeExpired
    ∧ happens .gfillTimeout s s.wakeExpired

/-- R21, R35, R48, R140, R142, R145: a load that may return writes its register and leaves the table, or has one byte read; the
first store of a queue that may perform performs and leaves the queue, or one byte of it does; a load, an atomic or a store performs
ahead of earlier ones; a performed store is acknowledged; a wide release wakes the groups whose gates have opened; the oldest report
becomes a fault record; a register leaves the register cache for its image, and comes back. What is the model's choice here:
performing ahead of earlier accesses and byte by byte, and the fields of `focus` that pick the access, the lane and the byte (logs 1
and 21); and that a register whose fill the access table refuses is reported as ACCESS_DENIED and counts as present (log 59). -/
def Obligations.MemoryEventsHaveTheirEffect : Prop :=
  ∀ s : State,
    (let es := s.returnable
     ∀ e, s.focus.slot ≠ 1 → es[s.focus.number % max 1 es.length]? = some e →
       (s.focus.index = 0 → happens .loadDataReturn s (if e.atomic then s.returnAtomic e else s.returnLoad e))
       ∧ (s.focus.index ≠ 0 → happens .loadDataReturn s
           (s.loadLoose e ((s.focus.index - 1) % 32) ((s.focus.index - 1) / 32))))
    ∧ (∀ e, s.focus.slot = 1 → s.own.loads[s.focus.number]? = some e →
        happens .loadDataReturn s
          (if e.atomic then s.atomAhead e else if e.lastUse then s.lastUseAhead e else s.loadAhead e s.focus.index))
    ∧ (s.focus.number = 1 → happens .storePerform s (s.modOwn (fun g => { g with acks := g.acks.drop 1 })).afterAccess)
    ∧ (s.focus.number = 2 → happens .storePerform s (s.storeAhead s.focus.index))
    ∧ (∀ e rest, s.focus.number ≠ 1 → s.focus.number ≠ 2 → s.own.storeQ = e :: rest → s.own.mayStore e = true →
        s.storeVeiled e = false →
        let gone := s.modOwn (fun g => { g with storeQ := rest })
        (s.focus.index ≠ 0 → happens .storePerform s (s.storeLoose e rest (s.focus.index - 1)))
        ∧ (s.focus.index = 0 → e.scratch = true →
          happens .storePerform s (gone.modOwnTeam (fun m => (m.spWrite e.bytes e.poison).wake)).afterAccess)
        ∧ (s.focus.index = 0 → e.scratch = false → e.bytes = [] → happens .storePerform s gone.afterAccess)
        ∧ (∀ b bs, s.focus.index = 0 → e.scratch = false → e.bytes = b :: bs →
            (s.isRemote b.1 = true → happens .storePerform s (s.storeAway e b.1).afterAccess)
            ∧ (s.isRemote b.1 = false → (e.drop || s.ortRoom (e.taken b)) = true → happens .storePerform s
                ((if e.ahead = 0 then gone.storeHere e else gone).modOwn (fun g =>
                  if e.taken b = 0 then g else { g with acks := g.acks ++ [e.taken b] })).afterAccess)))
    ∧ happens .wideReleasePerform s s.wakeReleases
    ∧ (∀ r rest, s.reports = r :: rest → happens .deferredFaultReport s (State.takeReport { s with reports := rest } r))
    ∧ (let n := s.focus.number
       let t := s.regRoom.1
       let a := t.ownTeam.image + recordOff t.focus.group + 128 * n
       let q := t.admitAll (masterId 0 t.ownTeam.context) 1 ((List.range 128).map (a + ·)) false
       let back (u : State) : State := u.modOwn (fun g => { g.wake with evicted := g.evicted.filter (· ≠ n) })
       s.own.evicted.contains n = true → s.regRoom.2 = true →
         (q.2 = true → happens .registerCacheFill s
           (back ((q.1.modOwn (fun g => q.1.fillReg t.ownTeam t.focus.group n g)).countPoison (q.1.peeks false a 128).2)))
         ∧ (q.2 = false → happens .registerCacheFill s (back (q.1.report {
             code := 0x15, core := t.focus.core, grid := t.ownTeam.gridSlot, group := t.focus.group
             pc := BitVec.ofNat 64 (pcAddr t.own.pathPc), address := a + t.pkgid * 2 ^ 40, lanes := t.own.cur, access := 1 }))))
    ∧ (let n := s.focus.number
       let g := s.own
       s.focus.team ≠ 8 → n < s.ownTeam.regsOf s.focus.group → g.evicted.contains n = false → g.awaits n = false →
       happens .registerCacheWriteback s (s.evictReg n).1)

/-- R6, R55, R132, R136, R138, R142, R406 to R408: a soft error has its effect on what it hit; a line leaves the LLC, written back,
or an L1, or an instruction cache; a core with no team takes the scratchpad share that its register asks for; a zero-length read
that comes back confirms the posted writes before it and counts their events at the tail. A host read of a register answers its
value, with what such a read clears, or is unsupported; a host write of a register takes its effect; an access through BAR2 of the
physical function reads or writes device memory that its access tables permit, and anything else through it is unsupported; one
through BAR2 of a virtual function goes through its context's translation. What a soft error does is the model's reading in the
points of log 43, and how a host access names its function and place is log 50. -/
def Obligations.CacheAndHostEventsHaveTheirEffect : Prop :=
  ∀ s : State,
    (∀ t, s.input = .soft t → happens .softError s (s.softError t))
    ∧ happens .llcLineEviction s (s.evictLine s.focus.number)
    ∧ happens .l1LineEviction s (s.modCore s.focus.core (fun k =>
        if s.focus.index = 1 then { k with icache := sdel s.focus.number k.icache } else { k with l1 := sdel s.focus.number k.l1 }))
    ∧ (let c := s.focus.core
       let n := min 6 (s.regBits (offCore c + 0x180) 0 3)
       (s.core c).teams = [] → (s.core c).spWritten = true →
         happens .spStepsTakeEffect s (s.modCore c (fun k => { k with spSteps := n, spWritten := false, l1 := [] })))
    ∧ (let n := s.focus.number
       let done := s.hostPosted.filter (fun e => decide (e.1 ≤ n))
       let events := s.evConfirm.filter (fun k => decide (k ≤ n))
       let t : State := { s with
         hostPosted := s.hostPosted.filter (fun e => decide (n < e.1)), evConfirm := s.evConfirm.filter (fun k => decide (n < k)) }
       happens .zeroLengthReadCompletion s (done.foldl State.hostAcked
         (t.setFeReg 0x38 (BitVec.ofNat 64 (((s.feReg 0x38).toNat + events.length) % 2 ^ 32)))).wakeAll)
    ∧ (∀ t w, s.hostRead s.focus.index s.focus.number = (t, some w) →
        happens .readClearRegister s { t with hostData := bytesOfNat 8 w.toNat, hostPoisoned := false })
    ∧ (∀ t, s.hostRead s.focus.index s.focus.number = (t, none) →
        happens .readClearRegister s { t with hostUnsupported := t.hostUnsupported + 1 })
    ∧ (∀ w, s.input = .word w → happens .registerWrite s (s.hostWrite s.focus.index s.focus.number w))
    ∧ (∀ h, s.input = .host h →
        let n := (h.data.map List.length).getD h.count
        let addrs := (List.range n).map (h.address + ·)
        let q := s.admitAll 0 (if h.data.isSome then 2 else 1) addrs false
        let inside := addrs.any (fun a => decide (a ≥ s.bar2Size * 2 ^ 30 ∨ region a ≠ .dram)) = false
        (¬ inside → happens .hostBar2Access s s.unsupported)
        ∧ (inside → q.2 = false → happens .hostBar2Access s q.1.unsupported)
        ∧ (∀ bs, inside → q.2 = true → h.data = some bs →
            happens .hostBar2Access s ((q.1.poke false false (addrs.zip bs) []).takeHeaders (addrs.zip bs)))
        ∧ (inside → q.2 = true → h.data = none → happens .hostBar2Access s
            { q.1 with hostData := (q.1.peeks false h.address n).1, hostPoisoned := (q.1.peeks false h.address n).2 }))
    ∧ (∀ h, s.input = .host h →
        let n := (h.data.map List.length).getD h.count
        let here (x : Nat) : Prop := s.vfContext s.focus.number = some x ∧ s.focus.number ≠ 0 ∧ h.address + n ≤ s.vfBar2Size * 2 ^ 30
        (∀ x bs, here x → h.data = some bs →
          let a := s.engineAdmit 0 x (bs.zipIdx.map (fun e => (h.address + e.2, e.1, false)))
          happens .vfBar2Access s (if a.paused then a.s else if a.fail.isSome then a.s.unsupported
            else (a.s.emit (.frontEnd 0) x (n + 1) a.out).1))
        ∧ (∀ x, here x → h.data = none →
          let r := s.engineReadRun 0 x h.address n (.virtual s.focus.number)
          happens .vfBar2Access s (if r.paused then r.s else if r.fail.isSome then r.s.unsupported
            else { r.s with hostData := r.bytes.map (·.1), hostPoisoned := r.bytes.any (·.2) })))

/-- R243 to R353: the events of the engines have their effect: a Haul copy moves one unit or ends, Ashlar ends its first operation
and its window renews the budget, a Keystone operand arrives, times out, is retried or recorded, Grout fills and measures, a grid
ends, Quarry loads, computes, sends again, faults, and its window renews the rate. -/
def Obligations.EngineEventsHaveTheirEffect : Prop :=
  ∀ s : State,
    let c := s.focus.core
    let t := s.focus.team
    (∀ o, s.veiledCore c = false → s.focus.number = 0 → (s.core c).haul.find? (s.haulRuns c) = some o →
      happens .haulUnitTransfer s
        (((s.touch c none).modCore c (fun k => { k with haul := dropFirst (fun p => p.id = o.id) k.haul ++ [o] })).haulUnit c o))
    ∧ (∀ o, s.veiledCore c = false → s.focus.number ≠ 0 → (s.core c).haul[s.focus.slot]? = some o → s.haulRuns c o = true →
      happens .haulUnitTransfer s ((s.touch c none).haulAhead c o s.focus.index (decide (s.focus.number = 2))))
    ∧ (∀ o, (s.core c).haul.find? (fun o => s.haulOver o && ((s.core c).slotOf o.grid).isSome) = some o →
        let st := s.haulStatus { o with posts := [] }
        let s1 := st.2.modCore c (fun k => { k with haul := k.haul.filter (fun p => p.id ≠ o.id) })
        let s2 := (s1.noteProgress c o.grid o.handle 1 ({ o with posts := [] } : HaulOp).done).farDone (.haul c o.id)
        let s3 := s2.resolveOp c o.grid o.handle st.1
        let s4 := match o.bar with
          | some a => s3.barEventBy c o.grid a {
              pending := -(o.total : Int), incomplete := o.ended.isSome, group := o.group, pc := o.pc, handle := o.handle.getD 0 }
          | none => s3
        happens .haulOpComplete s ((s4.modCore c (Core.mapTeams Team.wake)).settleBy c o.grid))
    ∧ (∀ o rest n m, (s.core c).ash.queue = o :: rest → (s.core c).ashOwner = some (n, m) →
        happens .ashlarOpComplete s (s.ashRun c n m o))
    ∧ (let b := offCore c
       let limit := max 1 (s.regBits (b + 0x240) 0 9)
       let slew := max 1 (s.regBits (b + 0x240) 16 8)
       let st := s.reg (b + 0x248)
       let budget := bits st.toNat 0 9
       let cap := bits st.toNat 16 9
       let next := if min limit cap < budget then min limit cap else min (min limit cap) (budget + slew)
       let waited := bits st.toNat 32 32 + (if s.input = .flag true then 1 else 0)
       happens .ashBudgetWindow s
         (s.setReg (b + 0x248) (BitVec.ofNat 64 (next + cap * 2 ^ 16 + waited % 2 ^ 32 * 2 ^ 32))))
    ∧ (let n := s.focus.number % max 1 s.ksFlight.length
       ∀ o, s.ksFlight[n]? = some o →
         happens .ksOperandArrive s ((State.arrive { s with ksFlight := s.ksFlight.eraseIdx n } o).getD s))
    ∧ (∀ x y u, (s.stations.flatMap (fun e => e.2.store) ++ s.ksOverflow).find? s.ksDue = some x →
        s.takeWaiting x.tag = some (y, u) → happens .ksOrphanTimeout s
          ((((u.dropExpired (stationOf y.tag)).modStation (stationOf y.tag) (fun st => st.addOrphan y.tag s.uncore)).deliver y 2).getD
            s))
    ∧ happens .ksOrphanRecordExpiry s { s with stations := s.stations.foldl (fun m e => sput {} m e.1 { e.2 with
        orphans := e.2.orphans.filter s.orphanFresh }) [] }
    ∧ (∀ n o, s.ksRetry.findIdx? (fun o => s.uncore ≥ o.since + 1024) = some n → s.ksRetry[n]? = some o →
        happens .ksForwardRetry s ((State.arrive { s with ksRetry := s.ksRetry.eraseIdx n } o).getD s))
    ∧ (∀ r, s.ksHeld.find? s.ksMoves = some r →
        happens .ksRecordDeferredWrite s (s.ksRelease r))
    ∧ happens .groutFill s (s.groutTurn false)
    ∧ happens .probeMeasure s (s.groutTurn true)
    ∧ (∀ g, s.ending.find? (fun g => g.openJobs = 0) = some g → happens .gridEnd s
        (g.owner.futures.foldl (fun (t : State) r => t.resolve r g.statusWord)
          { s with ending := s.ending.filter (fun h => h.seq ≠ g.seq) }))
    ∧ (∀ e, s.ending.find? (fun g => g.openJobs = 0) = none → s.grids.find? (fun e => e.2.over) = some e →
        happens .gridEnd s (State.fillSlots 1 { s with grids := sdel e.1 s.grids, ending := s.ending ++ [e.2.release] }))
    ∧ (∀ m o, s.pickQuarry (fun m o => !o.gemv && m.slotReady o) = some (m, o) →
        happens .qloadxComplete s (s.qload c t m o))
    ∧ (∀ m o, s.pickQuarry (fun m o => o.gemv && (o.over || m.qmayRun o)) = some (m, o) →
        happens .qgemvComplete s (if o.over then s.quarryEnd c t m o o.status else s.qrun c t m o))
    ∧ (∀ m o x, s.pickQuarry (fun _ o => s.resendDue o) = some (m, o) →
        o.refused.find? (fun x => s.uncore ≥ x.since + 1024) = some x →
        happens .quarryOperandResend s (State.modQuarry { s with ksFlight := s.ksFlight ++ [x] } c t o.id
          (fun o => { o with refused := dropFirst (· = x) o.refused })))
    ∧ (∀ m o, s.pickQuarry (fun m o => m.qmayRun o && s.qstops m o) = some (m, o) →
        happens .quarryAsyncFault s (s.qrun c t m o))
    ∧ (let st := s.reg (offQry + 8)
       let cap := bits st.toNat 16 9
       let rate := min (max 1 (s.regBits offQry 0 9)) cap
       let n := bits st.toNat 32 32 + if s.input = .flag true then 1 else 0
       happens .qryRateWindow s (s.setReg (offQry + 8) (BitVec.ofNat 64 (rate + cap * 2 ^ 16 + n % 2 ^ 32 * 2 ^ 32))))

/-- R376, R379, R385, R387, R389, R391, R392, R401: the events of the sequencers have their effect: a launch packet arrives, a
collective starts, a sequencer takes a turn, a chunk or a flag update arrives and is answered, an answer comes back, a send times
out, and firmware starts, resumes, aborts and configures. -/
def Obligations.SequencerEventsHaveTheirEffect : Prop :=
  ∀ s : State,
    let p := s.focus.port
    let i := s.focus.slot
    let sl := s.slot p i
    (∀ l, s.input = .launch l → happens .launchPacketArrive s (s.launchArrive { l with future := none }))
    ∧ (∀ l rest, s.input = .none → s.launchSent = l :: rest →
        happens .launchPacketArrive s (State.launchArrive { s with launchSent := rest } l))
    ∧ happens .collectiveStart s (s.startCollective p i)
    ∧ happens .seqTurn s (s.seqTurn p)
    ∧ (∀ ch t ok, s.input = .chunk ch → s.stageChunk p i ch = some (t, ok) →
        happens .chunkArrive s (t.tellSlot p i ch.source (if ok then .landed else .denied)))
    ∧ (∀ ch rest t ok, s.input = .none → sl.sent = (s.pkgid, ch) :: rest → s.stageChunk p i ch = some (t, ok) →
        happens .chunkArrive s (if ok then (t.sendLanded p i).wakeSlot p i else t.sendDenied p i))
    ∧ (∀ src f set v, s.input = .flagUpdate src f set v →
        happens .peerFlagUpdateArrive s (((s.setFlag p i (f % 64) set v).wakeSlot p i).tellSlot p i src .landed))
    ∧ (∀ f set v rest, s.input = .none → sl.peerSent = (s.pkgid, f, set, v) :: rest →
        happens .peerFlagUpdateArrive s ((s.setFlag p i f set v).sendLanded p i))
    ∧ (s.input = .credit .landed → happens .chunkCreditReturn s ((s.sendLanded p i).wakeSlot p i))
    ∧ (∀ d, s.input = .credit (.consumed d) → happens .chunkCreditReturn s ((s.modSlot p i (fun t =>
        { t with credits := sput 0 t.credits d (sget 0 t.credits d - 1) })).wakeSlot p i))
    ∧ (s.input = .credit .denied → happens .chunkCreditReturn s (s.sendDenied p i))
    ∧ (∀ d, sl.sending = some d → d.since + s.fzTimeout ≤ s.ns →
        happens .seqSendTimeout s (s.seqTrap p i { code := 0x18, operand := 2, addr := d.dst }))
    ∧ happens .lnGo s (s.setReg (offLn p + 0x18) (s.reg (offLn p + 0x18) &&& ~~~ (1 : Word)))
    ∧ happens .lnSlotctlResume s (s.slotResume p i)
    ∧ happens .lnSlotctlAbort s (s.slotAbort p i)
    ∧ (∀ w, s.input = .word w → happens .lnSlotcfgWrite s (s.writeSlotcfg p i w))

/-- R337, R415, R416, R418 to R421, R404: a waiting child copy is taken or stops, a parked team comes back or a team whose
groups all join leaves, a team is placed, a switch-out goes on, and host writes start a firmware slot or ask for preemption. What is
the model's choice here: that a team whose groups all join leaves without a write back (log 49), and the seat that a placed or
returning team takes, which is drawn among the free ones (log 46). -/
def Obligations.ResidencyEventsHaveTheirEffect : Prop :=
  ∀ s : State,
    let c := s.focus.core
    let t := s.focus.team
    (∀ p rest, s.poolWait = p :: rest → s.pool.length < 4096 → p.stopped = none →
      let r := s.engineReadRun 0 p.context p.address 192 .childCopy
      let u : State := { r.s with poolWait := rest }
      let ws := words8 (words4 (r.bytes.map (·.1)))
      (r.paused = true → happens .childCopyTaken s r.s)
      ∧ (∀ e va, r.paused = false → r.fail = some (e, va) → happens .childCopyTaken s
        (u.copyFault p rest e.code (u.failAddr e va) e.info))
      ∧ (r.paused = false → r.fail = none →
          (r.bytes.any (·.2) = true → happens .childCopyTaken s (u.copyFault p rest 0x17 p.address 0))
          ∧ (r.bytes.any (·.2) = false →
            (∀ e, u.recordFail p.context p.pick ws = some e → happens .childCopyTaken s (u.failLaunch p.owner 0x26))
            ∧ (u.recordFail p.context p.pick ws = none → happens .childCopyTaken s (u.poolTake { p with record := ws })))))
    ∧ (∀ m seat u, s.away.find? (fun m => m.core = c && m.joinParked && m.joinReady && s.admitsBack c m) = some m →
        s.pick (s.freeSeats c) = (some seat, u) → happens .joinPark s (u.enter c seat m none))
    ∧ (∀ m, s.away.find? (fun m => m.core = c && m.joinParked && m.joinReady && s.admitsBack c m) = none →
        sfind t (s.core c).teams = some m →
        happens .joinPark s (if m.residency = .resident ∧ m.joinsOnly then
          ((s.modTeam c t (fun m => { m with joinParked := true, joinReady := false })).beginOut c t false none).outStep c t
          else s.outStep c t))
    ∧ (let u := (s.switchIns.filter (fun w => w.core = c)).foldl State.tryIn s
       (u.switchIns ≠ s.switchIns → happens .teamPlace s u)
       ∧ ∀ g, u.switchIns = s.switchIns → (s.placeable c)[s.focus.number % max 1 (s.placeable c).length]? = some g →
           happens .teamPlace s (s.place c g))
    ∧ happens .preemption s (s.outStep c t)
    ∧ happens .fwCtrlRun s (s.setReg (offCore c + 0x300) 1)
    ∧ happens .ctxCtrlPreempt s ((s.setField (offCtx s.focus.context) 4 1 1).endPreempt s.focus.context)

/-- R409 to R412, R419, R420, R432: the events of the user queues and the front end have their effect: a claim, the polls of empty
packets and of AND packets, a packet's completion, a fault record's write, the writes of a queue's registers, the resume forms,
and boot. -/
def Obligations.QueueEventsHaveTheirEffect : Prop :=
  ∀ s : State,
    let q := s.focus.number % 256
    let i := s.focus.index
    happens .feClaimRead s s.claim.1
    ∧ (∀ since, sfind q s.emptySince = some since → since + 1024 ≤ s.uncore →
        let r := s.engineReadRun 0 (s.uqCtx q) (s.packetAddr q (s.uq q 0x18).toNat) 8 (.packet q)
        let empty := r.fail.isNone && decide (packetKind (word8 (r.bytes.map (·.1))) = 0)
        (r.paused = true → happens .emptyPacketPoll s r.s)
        ∧ (r.paused = false → empty = true →
            happens .emptyPacketPoll s { r.s with emptySince := sins q s.uncore r.s.emptySince })
        ∧ (r.paused = false → empty = false → happens .emptyPacketPoll s { r.s with emptySince := sdel q r.s.emptySince }))
    ∧ (∀ k, s.claimed.find? (fun c => c.queue = q ∧ c.index = i ∧ ¬ c.complete ∧ packetKind c.header = 3) = some k →
        (∀ since, k.polled = some since → since + 1024 ≤ s.uncore) →
        happens .andDependencyPoll s (k.deps.foldl (fun (t : State) d => t.pollDep q i k d)
          (s.modPacket q i (fun c => { c with polled := some s.uncore }))))
    ∧ (∀ k m w, s.claimed.find? (fun c => c.queue = q ∧ c.index = i ∧ ¬ c.complete) = some k → k.written = some (m, w) →
        s.marksMet m = true → happens .packetComplete s (s.packetEnd k w))
    ∧ (∀ k, s.claimed.find? (fun c => c.queue = q ∧ c.index = i ∧ ¬ c.complete) = some k → k.written = none →
        k.over (s.agentKnows (packetKind k.header)) = true →
        let kind := packetKind k.header
        let w := s.givenOrFree
        let bad := if kind = 3 ∨ kind = 5 then none else packetError kind w.1
        let m := k.marks.getD s.marks
        (∀ e, bad = some e → happens .packetComplete s (s.packetFailed q k.index e.1 e.2))
        ∧ (bad = none → happens .packetComplete s (if s.marksMet m && (s.coveredFailure m).isNone then w.2.packetDone k w.1
            else s.modPacket q k.index (fun c => { c with marks := some m }))))
    ∧ (∀ r, s.records.find? (fun r => s.fqRoom r.context) = some r →
        happens .faultRecordWrite s (State.writeRecord { s with records := dropFirst (· = r) s.records } r))
    ∧ (∀ w, s.input = .word w → happens .uqWptrWrite s (s.writeWptr q w.toNat) ∧ happens .uqCfgWrite s (s.writeUqCfg q w))
    ∧ happens .uqCtrlResume s (s.uqResume q)
    ∧ happens .uqCtrlReset s (s.uqReset q)
    ∧ happens .feResumeRetry s (s.feResumeAs 0)
    ∧ happens .feResumeSkip s (s.feResumeAs 1)
    ∧ happens .feResumeEnd s (s.feResumeAs 2)
    ∧ happens .feCtrlBoot s s.boot

/-- R64, R66, R67, R95, R370, R371, R432, R434: the snapshot, clock and power events have their effect: each trigger source
triggers, a due packet triggers, a timing packet sets the fabric's time on the lowest port that is up, each interval moves the
clock step by one at most, the governor lowers or raises its caps, and trips; RESET leaves what a reset leaves, and the model's own
turn fields and the host's memory as they are. What is the model's choice here: what RESET keeps and that DRAM reads as after
power-on (logs 1, 5 and 45), in which order caps are lowered and raised and how a step falls once ENABLE is 0 (log 44), and that a
packet waits in `snapDue` until its time (log 24). -/
def Obligations.SnapshotClockAndPowerEventsHaveTheirEffect : Prop :=
  ∀ s : State,
    happens .snapFire s (s.trigger 1).s
    ∧ happens .snapInEdge s (s.trigger 3).s
    ∧ happens .snapStatusFullClear s s.clearFull
    ∧ (∀ w, s.input = .word w →
        happens .snapPacketDue s (if w.toNat ≤ s.ftime then (s.trigger 2 (decide (w.toNat < s.ftime))).s
          else { s with snapDue := s.snapDue ++ [w.toNat] }) ∧ happens .fzSnapSend s (s.sendSnap w.toNat))
    ∧ (∀ d, s.input = .none → s.snapDue.find? (fun d => decide (d ≤ s.ftime)) = some d →
        happens .snapPacketDue s (State.trigger { s with snapDue := dropFirst (· = d) s.snapDue } 2).s)
    ∧ (∀ w, s.input = .word w → s.lowestUp = some s.focus.port → happens .ftimeTimingPacket s
        ((s.setFtime w.toNat).setReg (offFz + 0x18)
          (BitVec.ofNat 64 ((if (s.setFtime w.toNat).ftime ≤ w.toNat + 32 then 1 else 0) + s.focus.port * 16))))
    ∧ (∀ w, s.input = .word w →
        let o := offCore s.focus.core
        let gated := min w.toNat 255
        let on := (s.reg (o + 0x200)).getLsbD 0
        let top := min (min 5 (bits (s.reg (o + 0x200)).toNat 4 3)) (s.regBits (o + 0x210) 0 3)
        let target := if on then min top (gated * 10 / 256) else 0
        let old := s.regBits (o + 0x208) 0 3
        let step := if !on then 0 else if target > old then old + 1 else if target < old then old - 1 else old
        let changes := (s.regBits (o + 0x208) 32 32 + if step = old then 0 else 1) % 2 ^ 32
        happens .vclkInterval s (s.setReg (o + 0x208) (BitVec.ofNat 64 (step + gated * 2 ^ 8 + changes * 2 ^ 32))))
    ∧ (∀ w lt dt, s.input = .sensors w lt dt →
        let limit := min 1800 (s.regBits offPwr 0 12)
        let u := (s.setReg (offPwr + 8) (BitVec.ofNat 64 (min w 4095))).setField (offPwr + 0x10) 0 16
          (min lt 255 + min dt 255 * 256)
        let v :=
          if w > limit ∨ lt ≥ 105 ∨ dt ≥ 95 then (u.setCaps (lowerCaps u.caps)).setField (offPwr + 0x10) 16 1 1
          else if w * 100 < limit * 95 ∧ lt + 5 ≤ 105 ∧ dt + 5 ≤ 95 then
            (u.setCaps (raiseCaps u.caps)).setField (offPwr + 0x10) 16 1 0
          else u
        happens .powerGovernorEval s (if (lt ≥ 115 ∨ dt ≥ 105) ∧ ¬ s.tripped then v.trip else v))
    ∧ happens .reset s { State.reset with
        agenda := s.agenda, focus := s.focus, input := s.input, queued := s.queued, turns := s.turns, fresh := s.fresh
        dram := s.dram.filter (fun c => region c.1 = .pci) }

/-- R358, R360, R362, R364, R367, R368, R372: the events of the ports have their effect: keys are installed, a link trains or goes
down, a flit is sent, sent again or received, remaps and the package configuration take effect when nothing is outstanding,
requests and responses arrive, and gaps and requests time out. What is the model's choice here: that a replay request names its
number in the first two bytes of its packet data (log 11), and that a training with ENC_EN = 0 leaves installed keys unused
(log 39). -/
def Obligations.PortEventsHaveTheirEffect : Prop :=
  ∀ s : State,
    let p := s.focus.port
    let q := s.port p
    happens .fzKeyctlInstall s (s.installKeys p)
    ∧ happens .linkDown s (s.linkDown p)
    ∧ ((s.portReg p 0).getLsbD 0 = true → s.linkUp p = false → s.input ≠ .flag false →
        ((s.portReg p 0).getLsbD 1 = false → happens .linkTrain s (s.linkTrained p false))
        ∧ ((s.portReg p 0).getLsbD 1 = true → q.installed = none → happens .linkTrain s (s.setLink p 3 false))
        ∧ (∀ k, (s.portReg p 0).getLsbD 1 = true → q.installed = some k → happens .linkTrain s
            (((s.modPort p (fun q => { q with keys := k, installed := none })).setReg (offPort p + 0x60) 0).linkTrained p true)))
    ∧ (s.linkUp p = true →
        (q.askReplay = true → happens .flitTransmit s
          ((s.modPort p (fun q => { q with askReplay := false })).newFlit p 3 (bytesOfNat 2 q.rxSeq)))
        ∧ (∀ n rest e, q.askReplay = false → q.replay = n :: rest → q.retry.find? (fun e => e.1 = n) = some e →
          happens .flitTransmit s (((s.modPort p (fun q => { q with replay := rest })).incReg (offPort p + 0x88)).putFlit p e.2))
        ∧ (∀ start bs, q.askReplay = false → q.replay = [] → s.input = .packetData start bs →
          happens .flitTransmit s (s.newFlit p (if start then 1 else 2) bs))
        ∧ (q.askReplay = false → q.replay = [] → s.input = .none →
          let d := s.fillData
          happens .flitTransmit s (d.2.draw.2.putFlit p (linkHeader d.2.draw.1.toNat q.ack 0 ++ d.1))))
    ∧ (∀ f, s.input = .flit f → s.linkUp p = true →
        let o := offPort p + 0x70
        let u := s.setReg o (s.reg o + 1)
        let bs := bytesOfNat 64 f.toNat
        let ct := bs.take 48
        let good := natOfBytes (bs.drop 60) = (crc32 (bs.take 60)).toNat
        let keys := roundKeys (keyBytes q.keys.rx)
        let iv := flitIv q.keys.rxSalt (s.reg o).toNat
        (¬ good → happens .flitReceive s (u.badFlit p 0x78))
        ∧ (good → s.encOn p = false → happens .flitReceive s (u.takeFlit p ct))
        ∧ (good → s.encOn p = true → gcmTag keys iv ct = (bs.drop 48).take 12 →
            happens .flitReceive s (u.takeFlit p (gcmCrypt keys iv ct)))
        ∧ (good → s.encOn p = true → gcmTag keys iv ct ≠ (bs.drop 48).take 12 →
            let v := (u.badFlit p 0x80).modPort p (fun q => { q with authFails := q.authFails + 1 })
            happens .flitReceive s (if (v.port p).authFails > v.regBits (offPort p + 0x90) 0 16 then v.linkDown p else v)))
    ∧ (∀ w, s.input = .word w → happens .fzRemapWrite s (s.writeRemap p w))
    ∧ (s.portIdle p = true → q.remap ≠ s.remapWanted p →
        happens .remapTakeEffect s (s.modPort p (fun q => { q with remap := s.remapWanted p })).wakeAll)
    ∧ ((List.range 16).all (fun p => (s.port p).outstanding = []) = true →
        happens .pkgcfgTakeEffect s { s with pkgcfg := s.reg offFz })
    ∧ (∀ r, s.input = .request r →
        let k := ingressKey r.package r.srcPort
        let g := s.ingressSeq p k
        ((s.portReg p 0).getLsbD 0 = false → happens .remoteRequestArrive s (s.answer p r .ingressOff))
        ∧ ((s.portReg p 0).getLsbD 0 = true → g.next ≤ r.seq → happens .remoteRequestArrive s
            (State.drainIngress p k (g.held.length + 2) (s.setIngressSeq p k { g with held := g.held ++ [r] }))))
    ∧ (∀ r o, s.input = .response r → q.outstanding.find? (fun o => o.id = s.focus.number ∧ !o.reported) = some o →
        happens .remoteResponseArrive s (match r with
          | .refused => s.failRequest p o 0x15 0
          | .ingressOff => s.failRequest p o 0x18 3
          | .ack => s.acked p o
          | r => s.returned p o r))
    ∧ (let k := s.focus.number
       let g := s.ingressSeq p k
       ∀ t r rest, g.gapSince = some t → g.held = r :: rest → t + s.fzTimeout ≤ s.ns →
         happens .fzGapTimeout s (State.drainIngress p k (g.held.length + 2) (s.setIngressSeq p k
           { g with next := rest.foldl (fun m x => min m x.seq) r.seq, gapSince := none })))
    ∧ (∀ o, q.outstanding.find? (fun o => o.id = s.focus.number ∧ !o.reported) = some o → o.since + s.fzTimeout ≤ s.ns →
        happens .fzRequestTimeout s (s.failRequest p o 0x18
          (if (q.downSince.map (fun t => decide (t ≤ o.since))).getD false then 1 else 2)))

/-! ## What every word does -/

namespace Sys2Proof.Claims

open Sys2Proof Sys2Proof.Machine

/-- The 64 bits of a full-form word. -/
def fullWord (i : Instr) : Option Word :=
  match i with
  | .pairedWord _ => none
  | i => if i.isSeqWord then none else encode i

/-- The major opcode of a full-form word. -/
def opcodeOf (w : Word) : Nat := (field w 55 8).toNat

/-- The words that compute a value or a predicate in each active lane from the values of their sources: constructor, shape,
and the predicates that the word writes. -/
def lanewise : List ((Full → Instr) × (Full → Shape) × (Full → List Nat)) :=
  [(.add, fun f => intShape 0x20 2 f (sat := true), fun _ => []),
   (.sub, fun f => intShape 0x21 2 f (sat := true), fun _ => []),
   (.addc, fun f => intShape 0x22 2 f (xOk := bits f.fn.toNat 9 2 = 0), fun f => [carryK f]),
   (.subb, fun f => intShape 0x23 2 f (xOk := bits f.fn.toNat 9 2 = 0), fun f => [carryK f]),
   (.mul, fun f => intShape 0x24 2 f (sat := true), fun _ => []),
   (.mulh, fun f => intShape 0x25 2 f, fun _ => []),
   (.mad, fun f => intShape 0x26 3 f (sat := true), fun _ => []),
   (.madw, madwShape, fun _ => []),
   (.min, fun f => intShape 0x28 2 f, fun _ => []),
   (.max, fun f => intShape 0x29 2 f, fun _ => []),
   (.abs, fun f => intShape 0x2A 1 f [0, 2] true, fun _ => []),
   (.sad, fun f => intShape 0x2B 3 f (sat := true), fun _ => []),
   (.addx, fun f => intShape 0x3B 3 f (sat := true), fun _ => [])]
  ++ [(.and, fun f => intShape 0x2C 2 f, fun _ => []),
   (.or, fun f => intShape 0x2D 2 f, fun _ => []),
   (.xor, fun f => intShape 0x2E 2 f, fun _ => []),
   (.andn, fun f => intShape 0x2F 2 f, fun _ => []),
   (.shl, fun f => intShape 0x30 2 f, fun _ => []),
   (.shr, fun f => intShape 0x31 2 f, fun _ => []),
   (.sar, fun f => intShape 0x32 2 f, fun _ => []),
   (.fshf, fun f => intShape 0x33 3 f (xOk := iX f ≤ 1), fun _ => []),
   (.bfx, fun f => intShape 0x34 2 f, fun _ => []),
   (.bfi, fun f => intShape 0x35 3 f, fun _ => []),
   (.popc, fun f => intShape 0x36 1 f, fun _ => []),
   (.clz, fun f => intShape 0x37 1 f, fun _ => []),
   (.brev, fun f => intShape 0x38 1 f, fun _ => []),
   (.sel, fun f => intShape 0x39 2 f (xOk := !f.fn.getLsbD 10), fun _ => []),
   (.lea, leaShape, fun _ => []),
   (.movw, movwShape, fun _ => []),
   (.ext, fun f => intShape 0x3E 1 f (xOk := iX f ≤ 1), fun _ => [])]
  ++ [(.fadd, fun f => floatShape 0x3F 2 f [0, 1, 2] true true true, fun _ => []),
   (.fsub, fun f => floatShape 0x40 2 f [0, 1, 2] true true true, fun _ => []),
   (.fmul, fun f => floatShape 0x41 2 f [0, 1, 2] true true true, fun _ => []),
   (.ffma, fun f => floatShape 0x42 3 f [0, 1, 2] true true true (fX f ≤ 3), fun _ => []),
   (.fmin, fun f => floatShape 0x43 2 f [0, 1, 2] true false true, fun _ => []),
   (.fmax, fun f => floatShape 0x44 2 f [0, 1, 2] true false true, fun _ => []),
   (.frcp, fun f => floatShape 0x45 1 f [0] false true true, fun _ => []),
   (.frsq, fun f => floatShape 0x46 1 f [0] false false true, fun _ => []),
   (.fsqrt, fun f => floatShape 0x47 1 f [0] false true true, fun _ => []),
   (.fexp2, fun f => floatShape 0x48 1 f [0] false false true, fun _ => []),
   (.flog2, fun f => floatShape 0x49 1 f [0] false false true, fun _ => []),
   (.fdiv, fun f => floatShape 0x4A 2 f [0] false true true, fun _ => []),
   (.fclass, fun f => floatShape 0x4B 1 f [0, 1, 2] false false true, fun _ => []),
   (.fdot2, fun f => floatShape 0x4C 3 f [1, 2] false true true, fun _ => []),
   (.cadd, fun f => floatShape 0x4D 2 f [0] false false false, fun _ => []),
   (.fscale, fscaleShape, fun _ => []),
   (.fexpo, fun f => floatShape 0x6B 1 f [0, 1, 2] false false true, fun _ => [])]
  ++ [(.dqblk, dqblkShape, fun _ => []),
   (.ppq, ppqShape, fun _ => []),
   (.ppdq, ppdqShape, fun _ => []),
   (.iqs, iqsShape, fun f => [bits f.fn.toNat 0 6, bits f.fn.toNat 0 6 + 1]),
   (.idqs, idqsShape, fun _ => []),
   (.radd, fun f => spoilShape 0x74 f [useA f, useB f] true (f.fn ≠ 0) false, fun _ => []),
   (.uadd, fun f => spoilShape 0x75 f [useA f, useB f] true (f.fn ≠ 0) false, fun _ => []),
   (.rmad, fun f => spoilShape 0x76 f [useA f, useB f, useC f] true (!fnOnly f 0x3F) false, fun _ => []),
   (.umad, fun f => spoilShape 0x77 f [useA f, useB f, useC f] true (!fnOnly f 0x3F) false, fun _ => []),
   (.pset, psetShape, fun f => [pNo f.d]),
   (.psetf, psetfShape, fun f => [pNo f.d]),
   (.plop, plopShape, fun f => [pNo f.d]),
   (.pmovGet, pmovGetShape, fun _ => []),
   (.kmovGet, kmovGetShape, fun _ => [])]

/-- The group has passed a word by: its lanes move on and the word is counted (R42, R101); a capture whose loop has ended for
the path is discarded (R89); the word is a switch point where an iteration ends or where it blocked on a pending register (R41). -/
def skipped (s : State) : State :=
  let old := s.own
  let adv := old.advance none 0 s.ticks
  let t := (s.modOwn (fun _ =>
    { adv.1 with
      count := adv.1.count + 1, run := adv.1.run + 1, greed := adv.1.greed + 1
      blocked := adv.1.blocked &&& ~~~ old.cur })).endCapture old
  if adv.2 || old.blocked &&& old.cur ≠ 0 then t.switchPoint else t

/-- The roles that may issue a full-form word (R15): 0 copy, 1 matrix, 2 vector, 3 ANY. NFCHK, which writes no register, goes by
its source (R213). -/
def rolesFor (op : Nat) (f : Full) : List Nat :=
  if op < 0x20 then [0, 1, 2, 3]
  else if op = 0x6C then if (useA f).scalarSource then [0, 1, 2, 3] else [2, 3]
  else if op < 0x70 then if (useD f).isScalar then [0, 1, 2, 3] else [2, 3]
  else if op < 0x8D then [2, 3]
  else if op < 0xA0 then [0, 1, 2, 3]
  else if op < 0xA6 then [0, 3]
  else if op < 0xB0 then [0, 1, 2, 3]
  else if op < 0xC0 then [1, 3]
  else if op < 0xC8 then [1, 2, 3]
  else if op < 0xD0 then [0, 1, 2, 3]
  else if op < 0xD8 then [2, 3]
  else [0, 1, 2, 3]

/-- The major opcodes that a loop body may not hold (R86). -/
def noLoopOps : List Nat := [0x01, 0x02, 0x03, 0x04, 0x05, 0x06, 0x07, 0x14, 0x19, 0xAB, 0xE5, 0xE9]

end Sys2Proof.Claims

/-- R79. The active lanes of a full-form word are the lanes of the current path in which predicate p(PRED), inverted when
PN = 1, is true; those of a paired word are the lanes active for either half; PRED = 63 means always with PN = 0 and never with
PN = 1. A word with no active lane, whatever its contents, only moves its lanes on and counts. The all-zero word is a
full-form NOP predicated on p0. -/
def Obligations.WordsWithNoActiveLaneDoNothing : Prop :=
  (∀ (g : Group) (f : Full) (l : Nat), l < 32 →
    (g.activeFor f).getLsbD l = (g.cur.getLsbD l && (if f.pn then !g.p l f.pred.toNat else g.p l f.pred.toNat)))
  ∧ (∀ (g : Group) (f : Full), f.pred = 63 → g.activeFor f = if f.pn then 0 else g.cur)
  ∧ (∀ (i : Instr) (w : Word) (s : State), fullWord i = some w → s.own?.isSome = true →
      active (Full.ofWord w) s = 0 → exec i s = .next (skipped (found s)))
  ∧ (∀ (p : Paired) (s : State), s.own?.isSome = true →
      (found s).own.activeHalf p.a ||| (found s).own.activeHalf p.b = 0 →
      exec (.pairedWord p) s = .next (skipped (found s)))
  ∧ (∀ (op : BitVec 8) (w : Word) (s : State), decodeWord w = .error (.reservedOpcode op) → s.own?.isSome = true →
      active (Full.ofWord w) s = 0 → s.illegalWord op w = skipped (found s))
  ∧ decodeWord 0 = .ok (.nop { pred := 0, pn := false, w := false, d := 0, a := 0, b := 0, c := 0, fn := 0 })

/-- R15, R74, R80, R81, R86: a word with an active lane traps precisely when its loop forbids it (ILLEGAL_OP, CAUSE 2), else when it
is privileged outside the firmware slot (PRIV), else when its group's role may not issue it (ROLE), with the FR_INFO of R81
and the lanes that were active. A paired word traps with ILLEGAL_OP at a reserved short opcode, half A's before half B's, else at
bit [0] = 1, whose FR_INFO names half A's short opcode (log 57 of the model: R81 does not say which), else with ROLE outside the
vector role and ANY. -/
def Obligations.WordsOutsideTheirPlaceTrap : Prop :=
  (∀ (i : Instr) (w : Word) (s : State), fullWord i = some w → i.wf = true → s.own?.isSome = true →
    let f := Full.ofWord w
    let op := opcodeOf w
    let t := found s
    let role := t.ownTeam.roleOf s.focus.group
    let loops := pcLooping t.own.pathPc && noLoopOps.contains op
    let priv := decide (0xE3 ≤ op) && decide (t.ownTeam.gridSlot ≠ 64)
    let trapped (code info : Nat) : Prop := ∃ sc, exec i s = .next
      (t.takeTrap { code := code, lanes := active f s, info := BitVec.ofNat 32 info, scope := sc }).reselect
    active f s ≠ 0 →
      (loops = true → trapped 0x01 (op + 2 * 2 ^ 10))
      ∧ (loops = false → priv = true → trapped 0x03 op)
      ∧ (loops = false → priv = false → (rolesFor op f).contains role = false → trapped 0x04 (op + role * 2 ^ 8)))
  ∧ (∀ (p : Paired) (s : State), s.own?.isSome = true →
    let t := found s
    let act := t.own.activeHalf p.a ||| t.own.activeHalf p.b
    let role := t.ownTeam.roleOf s.focus.group
    let trapped (code info : Nat) : Prop := ∃ sc, exec (.pairedWord p) s = .next
      (t.takeTrap { code := code, lanes := act, info := BitVec.ofNat 32 info, scope := sc }).reselect
    act ≠ 0 →
      (0x30 ≤ p.a.sop.toNat → trapped 0x01 (p.a.sop.toNat + 2 ^ 8))
      ∧ (p.a.sop.toNat < 0x30 → 0x30 ≤ p.b.sop.toNat → trapped 0x01 (p.b.sop.toNat + 2 ^ 8 + 2 ^ 9))
      ∧ (p.a.sop.toNat < 0x30 → p.b.sop.toNat < 0x30 →
          (p.bit0 = true → trapped 0x01 (p.a.sop.toNat + 2 ^ 8 + 2 ^ 10))
          ∧ (p.bit0 = false → role ≠ 2 → role ≠ 3 → trapped 0x04 (0xFF + role * 2 ^ 8))))

namespace Sys2Proof.Claims

open Sys2Proof Sys2Proof.Machine

/-- The modifier bits that a short opcode names (R75). -/
def modBits (sop : Nat) : BitVec 7 :=
  if sop = 0 then 0x7F
  else if sop ∈ [0x19, 0x1A, 0x2C, 0x2D] then 0x1F
  else if sop ∈ [0x1B, 0x1C, 0x1D, 0x20, 0x23, 0x24, 0x25, 0x26, 0x29, 0x2A, 0x2B] then 0x07
  else if sop ∈ [0x1E, 0x1F, 0x27] then 0x04
  else 0

/-- The fields of a half are legal: d is a vector register, and no modifier bit is set that its opcode does not name (R73, R75). A
NOPH half ignores them. -/
def legalHalf (h : Half) : Prop := h.sop = 0 ∨ (h.d.toNat < 0x40 ∧ h.m &&& ~~~ modBits h.sop.toNat = 0)

end Sys2Proof.Claims

/-- R16, R71, R73, R75, R78, R80, R81: a word that passes the first three ranks and whose destination is no form that its instruction
admits fails with ILLEGAL_MOD, FIELD 1; one all of whose fields are legal and that names a vector register at or beyond the
role's count fails with REG_RANGE, which tells the register and the count; one that breaks none of these and reads an
invalid latch fails with LATCH_LOST, which names it. A paired word that passes the first three ranks fails likewise, half A's failure
of one rank before half B's: with ILLEGAL_MOD at a d that is no vector register, or at a modifier bit that its opcode does not
name; with REG_RANGE; with LATCH_LOST, which names the half. -/
def Obligations.OperandChecksFollowTheirRank : Prop :=
  (∀ (sh : Shape) (f : Full) (m : Team) (gi : Nat) (g : Group),
    (sh.noLoop && pcLooping g.pathPc) = false → (sh.priv && decide (m.gridSlot ≠ 64)) = false →
    sh.roles.contains (m.roleOf gi) = true →
      (∀ u, sh.dst = some u → u.fld = 1 → u.ok = false → sh.check f m gi g = some { code := 0x02, info := 1 })
      ∧ (∀ u pre post n, sh.badFields f = [] → sh.uses = pre ++ u :: post →
          (∀ x ∈ pre, x.beyond (m.roleRegs (m.roleOf gi)) = none) → u.beyond (m.roleRegs (m.roleOf gi)) = some n →
          sh.check f m gi g = some { code := 0x06
                                     info := BitVec.ofNat 32 (n % 256 + m.roleRegs (m.roleOf gi) * 2 ^ 8) })
      ∧ (∀ u pre post n, sh.badFields f = [] → (∀ x ∈ sh.uses, x.beyond (m.roleRegs (m.roleOf gi)) = none) →
          sh.srcs = pre ++ u :: post → (∀ x ∈ pre, x.lostLatch g = none) → opd u.enc = .y n →
          ((g.latches[n]?).getD {}).valid = false →
          sh.check f m gi g = some { code := 0x05, info := BitVec.ofNat 32 n }))
  ∧ (∀ (p : Paired) (m : Team) (gi : Nat) (g : Group),
    p.a.sop.toNat < 0x30 → p.b.sop.toNat < 0x30 → p.bit0 = false → m.roleOf gi = 2 ∨ m.roleOf gi = 3 →
    let count := m.roleRegs (m.roleOf gi)
    let fails (code info : Nat) : Prop := p.check m gi g = some { code := code, info := BitVec.ofNat 32 info }
    (∀ isB, (isB = true → legalHalf p.a) → (half p isB).sop ≠ 0 →
      let tag := 2 ^ 8 + if isB then 2 ^ 9 else 0
      (0x40 ≤ (half p isB).d.toNat → fails 0x02 (1 + tag))
      ∧ ((half p isB).d.toNat < 0x40 → (half p isB).m &&& ~~~ modBits (half p isB).sop.toNat ≠ 0 → fails 0x02 tag))
    ∧ (legalHalf p.a → legalHalf p.b →
      (∀ u pre post n, p.a.uses false ++ p.b.uses true = pre ++ u :: post → (∀ x ∈ pre, x.beyond count = none) →
        u.beyond count = some n → fails 0x06 (n % 256 + count * 2 ^ 8))
      ∧ ((∀ x ∈ p.a.uses false ++ p.b.uses true, x.beyond count = none) →
        ∀ isB u pre post n, (half p isB).sources isB = pre ++ u :: post →
          (isB = true → ∀ x ∈ p.a.sources false, x.lostLatch g = none) → (∀ x ∈ pre, x.lostLatch g = none) →
          opd u.enc = .y n → ((g.latches[n]?).getD {}).valid = false →
          fails 0x05 (n + 2 ^ 8 + if isB then 2 ^ 9 else 0))))

namespace Sys2Proof.Claims

open Sys2Proof Sys2Proof.Machine

/-- The lane in which a half reads an operand for its lane `l`. -/
def readLane (h : Half) (u : Use) (l : Nat) : Nat := if u.fld = 2 then h.srcLane l else l

/-- A half that is no mov reads a poisoned value in its active lane `l`. -/
def readsPoison (t : State) (p : Paired) (isB : Bool) (l : Nat) : Bool :=
  let h := half p isB
  h.sop != 1 && (t.own.activeHalf h).getLsbD l && (h.sources isB).any (fun u => t.own.poisoned u (readLane h u l))

end Sys2Proof.Claims

/-- R163, R165, R435: a word that computes lane by lane and reads a poisoned source in an active lane traps POISON at that word,
with the encoding of the first poisoned operand in FR_INFO and every lane with a poisoned source in FR_LANES. A paired word traps
likewise, with HALF in FR_INFO, unless the poison is only in what a mov half reads, which copies it (as MOV does, in
BitWordsComputeTheirResults). That FR_INFO names the first poisoned operand in the order of the fields, of half A before half B, and
that FR_LANES takes in both halves, is the model's reading of R435 and R163 (log 80). -/
def Obligations.PoisonedSourcesTrap : Prop :=
  (∀ e ∈ lanewise, ∀ (f : Full) (s : State) (u : Use) (pre post : List Use) (l : Nat),
    ready (e.2.1 f) f s = true → (e.2.1 f).srcs = pre ++ u :: post → l ∈ lanesOf (active f s) →
    (found s).own.poisoned u l = true → (∀ x ∈ pre, ∀ j ∈ lanesOf (active f s), (found s).own.poisoned x j = false) →
    traps (e.1 f) (e.2.1 f) f s {
      code := 0x17, info := BitVec.ofNat 32 u.enc.toNat
      lanes := lanesWhere (fun j =>
        (active f s).getLsbD j && (e.2.1 f).srcs.any (fun x => (found s).own.poisoned x j)) })
  ∧ (∀ (p : Paired) (s t : State), t = found s → pairReady p s →
    ((∀ isB l, readsPoison t p isB l = false) → pairIssues p s)
    ∧ (∀ isB u pre post l, (half p isB).sop ≠ 1 → (half p isB).sources isB = pre ++ u :: post →
        l ∈ lanesOf (t.own.activeHalf (half p isB)) → t.own.poisoned u (readLane (half p isB) u l) = true →
        (∀ x ∈ pre, ∀ j ∈ lanesOf (t.own.activeHalf (half p isB)), t.own.poisoned x (readLane (half p isB) x j) = false) →
        (isB = true → ∀ j, readsPoison t p false j = false) →
        exec (.pairedWord p) s = .next (t.trapWord (t.own.activeHalf p.a ||| t.own.activeHalf p.b) { op := 0, sw := false } {
          code := 0x17, info := BitVec.ofNat 32 (u.enc.toNat + if isB then 2 ^ 9 else 0)
          lanes := lanesWhere (fun j => readsPoison t p false j || readsPoison t p true j) })))

/-- R71, R77, R79, R109, R167: whatever becomes of a word that computes lane by lane, when it answers a next state nothing
changes outside its group but a trap's records and registers; and of its group only the destination in the active lanes, the
predicates that the word writes in its active lanes, the flags that it raises, the counter of the loop that it closes, and the
latches, paths and program counters. -/
def Obligations.LanewiseWordsChangeOnlyTheirDestination : Prop :=
  ∀ e ∈ lanewise, ∀ (f : Full) (s t : State), exec (e.1 f) s = .next t → s.Computed t (e.2.1 f) f (e.2.2 f)

/-! ## Retirement and traps -/

namespace Sys2Proof.Claims

open Sys2Proof Sys2Proof.Machine

/-- The last value that a list of writes gives a key. -/
def lastOf {α : Type} (ws : List (Nat × α)) (a : Nat) : Option α := ((ws.filter (fun w => w.1 = a)).getLast?).map (·.2)

/-- A retirement that changes nothing by itself: a result, sticky flags and predicates. -/
def plainRetire (s : State) (vals : List (Nat × Word)) (poison : Lanes) (flags : BitVec 5) (preds : List (Nat × Nat × Bool)) :
    Retire :=
  { s := s, result := some { vals := vals, poison := poison }, flags := flags, preds := preds }

/-- Bits [lo + n - 1 : lo] of a 64-bit word, as a number. -/
def part (w : Word) (lo n : Nat) : Nat := bits w.toNat lo n

end Sys2Proof.Claims

/-- R42, R53, R71, R77, R86, R101, R109: what a word leaves as it retires with a result in its lanes, sticky flags and
predicates. The destination takes the result in those lanes, or nothing when W suppresses it; every other register but the
counter of the loop that the path runs, every other predicate, the group's inner state and everything elsewhere stays; the
flags are raised; the lanes of the path go to the next word; on the vector path the result shifts into the latches, with what
the destination held in the lanes that have none, unless the word is a switch point: one that ends an iteration of a loop, or one
that blocked on a pending register. -/
def Obligations.RetirementWritesItsResult : Prop :=
  ∀ (sh : Shape) (f : Full) (s : State) (u : Use) (vals : List (Nat × Word)) (poison : Lanes) (flags : BitVec 5)
    (preds : List (Nat × Nat × Bool)),
    s.own?.isSome = true → sh.dst = some u → (∀ e ∈ vals, e.1 < 32) → (vals.map (·.1)).Nodup →
    (preds.map (fun e => (e.1, e.2.1))).Nodup →
    let g := s.own
    let t := s.finish sh f (plainRetire s vals poison flags preds)
    let written := !f.w || sh.wFree
    s.Elsewhere t ∧ g.KeptInner t.own ∧ t.own.fpflags = g.fpflags ||| flags
    ∧ (∀ e ∈ preds, e.2.1 < 63 → t.own.p e.1 e.2.1 = e.2.2)
    ∧ (∀ l k, k < 63 → (∀ e ∈ preds, ¬ (e.1 = l ∧ e.2.1 = k)) → t.own.p l k = g.p l k)
    ∧ (∀ n, opd u.enc = .v n → written = true → ∀ e ∈ vals,
        t.own.v n e.1 = e.2.setWidth 32 ∧ (u.regs ≠ 1 → t.own.v (n + 1) e.1 = e.2.extractLsb' 32 32))
    ∧ (∀ m l, l < 32 → (written = false ∨ (∀ e ∈ vals, e.1 ≠ l)
        ∨ ¬ ∃ n, opd u.enc = .v n ∧ (m = n ∨ (m = n + 1 ∧ u.regs ≠ 1))) → t.own.v m l = g.v m l)
    ∧ (∀ n l w, opd u.enc = .s n → written = true → vals = [(l, w)] → g.counter ≠ some n → t.own.s n = w)
    ∧ (∀ m, g.counter ≠ some m → (written = false ∨ opd u.enc ≠ .s m) → t.own.s m = g.s m)
    ∧ (pcLooping g.pathPc = false → ∀ l, (g.cur &&& g.live).getLsbD l = true →
        t.own.pc l = mkPc (pcAddr g.pathPc + 8) false 0)
    ∧ (∀ l, (g.cur &&& g.live).getLsbD l = false → t.own.pc l = g.pc l)
    ∧ (sh.result = true → sh.sw = false → sh.wFree = false → sh.scalarPath = false → g.loopStep.2.2 = false →
        g.blocked &&& g.cur = 0 →
        ∃ e, t.own.latches = e :: g.latches.take 3 ∧ e.valid = true
          ∧ (∀ x ∈ vals, sget 0 e.vals x.1 = cut u.regs x.2)
          ∧ (∀ l, l < 32 → (∀ x ∈ vals, x.1 ≠ l) → sget 0 e.vals l = cut u.regs (g.readDst u.enc u.regs l)))
    ∧ (sh.sw = true ∨ g.blocked &&& g.cur ≠ 0 → t.own.latches = [] ∧ t.own.count = 0)

/-- R43, R48, R49, R50: a precise trap outside the firmware slot, of a group that has no continuation to go to, stops the group
at its word. The record is formed with the header, the word's address and the detail that the trap gives; the group's
registers, predicates, flags, program counters, exited lanes and queued accesses are as they were, its latches are invalid,
and nothing elsewhere changes. -/
def Obligations.PreciseTrapStopsTheGroup : Prop :=
  ∀ (s : State) (t : Trap), s.own?.isSome = true → s.focus.team ≠ 8 → s.redirects t = false →
    t.code < 256 → t.access < 16 → t.scope < 16 → s.focus.core < 96 → s.focus.team < 8 → s.focus.group < 256 →
    let u := s.takeTrap t
    let g := s.own
    let pc : Word := BitVec.ofNat 64 (pcAddr g.pathPc)
    let x := s.ownTeam.context
    s.Elsewhere u ∧ g.KeptRegs u.own ∧ g.KeptInner u.own ∧ u.own.pcv = g.pcv ∧ u.own.latches = []
    ∧ u.own.stop = some (.fault (s.nextSeq x) pc true)
    ∧ ∃ hdr : Word,
        u.records = s.records ++ [⟨x, s.nextSeq x, [hdr, pc, t.addr,
          BitVec.ofNat 64 (t.lanes.toNat + t.info.toNat * 2 ^ 32), 0, 0, BitVec.ofNat 64 s.ftime,
          BitVec.ofNat 64 (s.nextSeq x)]⟩]
        ∧ part hdr 0 8 = t.code ∧ part hdr 8 8 = masterId 0 x ∧ part hdr 16 8 = s.focus.core
        ∧ part hdr 24 3 = s.focus.team ∧ part hdr 28 8 = s.focus.group ∧ part hdr 36 5 = lowest t.lanes
        ∧ part hdr 41 2 = 0 ∧ part hdr 44 4 = t.access ∧ part hdr 48 4 = t.scope ∧ part hdr 52 12 = 0

/-- R405, log 12 of the model: a trap in the firmware slot writes no record. Outside a trap it saves the trapping word's PCV, the
code with INTRAP and FR_INFO, and FR_ADDR, and goes to FW_TVEC; within one it clears RUN and sets AGENT_FAIL. ERET goes to FW_EPC
and clears INTRAP. -/
def Obligations.FirmwareTrapsAndReturns : Prop :=
  ∀ (s : State) (t : Trap), s.own?.isSome = true → s.focus.team = 8 → s.focus.core < 96 → t.code < 256 →
    (let u := s.takeTrap t
     u.records = s.records ∧ s.own.KeptRegs u.own ∧ s.own.KeptInner u.own ∧ s.Elsewhere u
     ∧ ((s.fwReg 0x318).getLsbD 8 = false →
         u.fwReg 0x310 = s.own.pathPc
         ∧ u.fwReg 0x318 = BitVec.ofNat 64 (t.code + 256 + t.info.toNat * 2 ^ 32)
         ∧ u.fwReg 0x320 = t.addr ∧ u.own.pc 0 = s.fwReg 0x308 ∧ u.fwReg 0x300 = s.fwReg 0x300)
     ∧ ((s.fwReg 0x318).getLsbD 8 = true →
         (u.fwReg 0x300).getLsbD 0 = false ∧ (u.reg (offFe + 8)).getLsbD 1 = true ∧ u.own.pcv = s.own.pcv))
    ∧ (let u := s.fwReturn
       u.own.pc 0 = s.fwReg 0x310 &&& 0x7FFFFFFFFFFFFFF8 ∧ (u.fwReg 0x318).getLsbD 8 = false
       ∧ (∀ i, i ≠ 8 → (u.fwReg 0x318).getLsbD i = (s.fwReg 0x318).getLsbD i) ∧ s.own.KeptRegs u.own)

/-! ## Memory -/

namespace Sys2Proof.Claims

open Sys2Proof Sys2Proof.Machine

/-- Memory and every scratchpad read as before: no byte of either, nor its poison, has changed. -/
def sameMemory (s t : State) : Prop :=
  t.dram = s.dram ∧ t.llc = s.llc ∧ t.poison = s.poison
    ∧ ∀ c n, (t.team? c n).map (fun m => (m.scratch, m.scratchPoison)) = (s.team? c n).map (fun m => (m.scratch, m.scratchPoison))

/-- Of the registers of the issuing group only the counter of the loop that its path runs may have changed, and no predicate,
flag, load or earlier store. -/
def sameRegisters (s t : State) : Prop :=
  t.own.vreg = s.own.vreg ∧ t.own.vregPoison = s.own.vregPoison ∧ t.own.sregPoison = s.own.sregPoison
    ∧ t.own.predv = s.own.predv ∧ t.own.fpflags = s.own.fpflags ∧ t.own.loads = s.own.loads
    ∧ (∀ n, s.own.counter ≠ some n → t.own.s n = s.own.s n)
    ∧ ∃ es, t.own.storeQ = s.own.storeQ ++ es

/-- Where the store word that a lane issues stores: the translation of each byte of its effective address, as the word
finds it. -/
def storedTo (s : State) (scalar : Bool) (n : Nat) (f : Full) (act : Lanes) : Except Trap (List Access) :=
  (s.accesses scalar { n := n, acc := 2 } (s.eas (useA f (if scalar then .scalar else .reg) 2) (storeOff f) (actLanes scalar act))).2

end Sys2Proof.Claims

/-- R140, R146, R429: when ST, STV, STS, SST or PSWR answers a next state, it has written no byte of memory or of a scratchpad,
and no register but the counter of its loop: its bytes wait in the group's store queue behind the earlier ones. For ST, STV and
SST those bytes lie where the word's own addresses translate to. -/
def Obligations.StoreWordsQueueTheirBytes : Prop :=
  ∀ (f : Full) (s t : State),
    (∀ i ∈ [Instr.st f, .stv f, .sts f, .sst f, .pswr f], exec i s = .next t →
      sameMemory s t ∧ sameRegisters s t
      ∧ (∀ c n k, (c, n, k) ≠ (s.focus.core, s.focus.team, s.focus.group) → t.group? c n k = s.group? c n k)
      ∧ t.ports = s.ports)
    ∧ (∀ x ∈ [(Instr.st f, false, typeBytes (lsType f)), (.stv f, false, 16), (.sst f, true, typeBytes (lsType f))],
        exec x.1 s = .next t → ∀ as, storedTo (found s) x.2.1 x.2.2 f (active f s) = .ok as →
          ∀ e ∈ t.own.storeQ.drop s.own.storeQ.length, e.scratch = false ∧ ∀ b ∈ e.bytes, ∃ a ∈ as, ∃ y ∈ a.xs, y.pa = b.1)

/-- R132, R140, R146: STORE_PERFORM takes the first store of a group's queue once the accesses before it have performed. A
scratchpad store writes exactly its bytes, the last value for each; a store to this package's DRAM writes exactly those of its
bytes whose granules the access tables permit, to the LLC copy, or to the DRAM copy when the page is uncached. Every other byte
of the scratchpads and of memory reads as before; where the LLC is full, a line that makes room is written back or dropped, and
one copy of its bytes takes the value of the other. A store that must wait writes nothing. -/
def Obligations.StorePerformWritesExactlyItsBytes : Prop :=
  ∀ (s : State) (e : StoreEntry) (rest : List StoreEntry), s.own?.isSome = true → s.own.storeQ = e :: rest →
    s.focus.number = 0 → s.focus.index = 0 →
    let gone := s.modOwn (fun g => { g with storeQ := rest })
    (e.scratch = true → s.own.mayStore e = true → ∃ m : Team,
      exec .storePerform s = .next (gone.modOwnTeam (fun _ => m)).afterAccess
      ∧ (∀ a, m.scratch.byte a = (lastOf e.bytes a).getD (s.ownTeam.scratch.byte a))
      ∧ (∀ k, (∀ b ∈ e.bytes, b.1 / 8 ≠ k) → m.scratchPoison.contains k = s.ownTeam.scratchPoison.contains k))
    ∧ (e.scratch = false → e.drop = false → e.ahead = 0 → s.own.mayStore e = true → s.storeVeiled e = false →
        (∀ b ∈ e.bytes, s.isRemote b.1 = false ∧ region (localOf b.1) = .dram) →
        (∀ b bs, e.bytes = b :: bs → s.ortRoom (e.taken b) = true) → e.bytes ≠ [] →
        ∃ u : State, exec .storePerform s = .next u.afterAccess
          ∧ (let refused := (gone.storeAdmit e).2
             let ws := (e.bytes.filter (fun b => !refused.contains (b.1 / 64))).map (fun b => (localOf b.1, b.2))
             (∀ a, (∃ b ∈ ws, b.1 = a) → (u.peek e.uc a).1 = (lastOf ws a).getD 0)
             ∧ (∀ a x, (∀ b ∈ ws, b.1 ≠ a) → (u.peek x a).1 = (s.peek x a).1 ∨ (u.peek x a).1 = (s.peek (!x) a).1)
             ∧ (s.llc.length + e.bytes.length ≤ sliceLines → ∀ a x, (∀ b ∈ ws, b.1 ≠ a) → (u.peek x a).1 = (s.peek x a).1)
             ∧ (∀ c n, (u.team? c n).map (·.scratch) = (s.team? c n).map (·.scratch))))
    ∧ (s.own.mayStore e = false ∨ s.storeVeiled e = true → exec .storePerform s = .next s)

/-- R59, R61, R62: a memory access at a target whose table does not permit it is refused and counted, and nothing is written: a
store none of whose granules is permitted leaves every byte as it was, and its refusal is reported. -/
def Obligations.RefusedStoresWriteNothing : Prop :=
  (∀ (s : State) (i master acc a : Nat), i < 1217 → master < 256 → acc < 16 →
    (s.atAllows i master acc a = true → s.atCheck i master acc a = (s, true))
    ∧ (s.atAllows i master acc a = false →
        (s.atCheck i master acc a).2 = false
        ∧ (s.atCheck i master acc a).1.reg (offAt i + 8) = satInc (s.reg (offAt i + 8))
        ∧ (s.atCheck i master acc a).1.reg (offAt i + 0x10) = BitVec.ofNat 64 (master + acc * 256)
        ∧ (s.atCheck i master acc a).1.reg (offAt i + 0x18) = BitVec.ofNat 64 a
        ∧ sameMemory s (s.atCheck i master acc a).1))
  ∧ (∀ (s : State) (e : StoreEntry) (b : Nat × Byte) (bs : List (Nat × Byte)), e.bytes = b :: bs →
      (∀ x ∈ e.bytes, (s.storeAdmit e).2.contains (x.1 / 64) = true) →
      sameMemory s (s.storeHere e) ∧ (s.storeHere e).reports.length = s.reports.length + 1)

/-! ## The reversible words -/

namespace Sys2Proof.Claims

open Sys2Proof Sys2Proof.Machine

/-- A lane's stack as R229 keeps it: the window, once loaded, holds as many entries as its count says. -/
def goodLane (sp : SpoilLane) : Prop :=
  sp.count ≤ 8 ∧ (sp.loaded = true ∨ sp.depth = 0 → sp.window.length = sp.count)

/-- In any lane, what `u` gives when it pops what `d` has just pushed and reads the result of `d`, and the operand that `d`
read, agree to 32 bits; and the stack is as deep as before. -/
def undoes (d u : SpoilOp) (marks : Bool) : Prop :=
  ∀ (r r1 : SpoilRun) (gi l : Nat) (a b v : Int) (o : Bool),
    -(2 ^ 31) ≤ a → a < 2 ^ 31 → -(2 ^ 31) ≤ b → b < 2 ^ 31 → goodLane r.lane →
    r.lane1 d gi l a b none = (r1, .ok (v, o)) →
    ∃ r2 x, r1.lane1 u gi l (if marks then a else (BitVec.ofInt 32 v).toInt) b none = (r2, .ok (x, false))
      ∧ (marks = false → BitVec.ofInt 32 x = BitVec.ofInt 32 a) ∧ r2.lane.depth = r.lane.depth

end Sys2Proof.Claims

/-- R227, R237, R238, R239, R240, R241, R242: each undo instruction writes exactly the input of its do instruction, bit for bit,
for every input: zero weights, saturated results and the most negative value too; the marker is found again. -/
def Obligations.UndoWordsReverseTheirDoWords : Prop :=
  ∀ f : Full, sh6 f ≤ 32 →
    undoes (rmulnOp f) (umulnOp f) false ∧ undoes (rshrOp f) (ushrOp f) false ∧ undoes (rlrelOp f) (ulrelOp f) false
    ∧ undoes (rnarrOp f) (unarrOp f) false ∧ undoes rmarkOp umarkOp true
    ∧ ∀ a b c : Int,
        (let y := (BitVec.ofInt 32 (raddOp a b c)).toInt
         BitVec.ofInt 32 (uaddOp y b c) = BitVec.ofInt 32 a)
        ∧ (let y := (BitVec.ofInt 32 (rmadOp f a b c)).toInt
           BitVec.ofInt 32 (umadOp f y b c) = BitVec.ofInt 32 a)

/-! ## Predicates -/

/-- R111, R112, R113. PLOP sets pd from its table, indexed by the three predicates of each active lane, pA highest; a table of 0x80
is the three-way AND, 0xF0 copies pA, 0x0F gives NOT pA. PMOV.get writes each active lane's predicates, p63 as 1, to a 64-bit
destination and shifts them into the latches; a scalar destination takes the lowest active lane's. PMOV.set replaces the predicates that
B selects by A's in each active lane; p63 stays 1. VOTE writes to pd, in every active lane, whether pA is 1 in every active lane (MODE
0), in some (MODE 1), or has the same value in all (MODE 2); MODE 3 is reserved: it fails the checks of R80 with ILLEGAL_MOD. PLOP and
VOTE change no other predicate, and none of these words is a switch point. -/
def Obligations.PlopPmovAndVoteFollowTheirRules : Prop :=
  (∀ f : Full,
    (plopShape f).sw = false ∧ (pmovGetShape f).sw = false ∧ (pmovSetShape f).sw = false ∧ (voteShape f).sw = false)
  ∧ (∀ (f : Full) (s : State), ready (plopShape f) f s = true →
    ∃ t, exec (.plop f) s = .next t
      ∧ ∀ l j, l < 32 → j < 63 →
          let p (e : BitVec 9) : Bool := s.own.p l (pNo e)
          t.own.p l j =
            (if (active f s).getLsbD l = true ∧ j = pNo f.d then
              f.fn.getLsbD (4 * (p f.a).toNat + 2 * (p f.b).toNat + (p f.c).toNat)
             else s.own.p l j)
          ∧ ((active f s).getLsbD l = true → j = pNo f.d →
              (f.fn = 0x80 → t.own.p l j = (p f.a && p f.b && p f.c)) ∧ (f.fn = 0xF0 → t.own.p l j = p f.a)
              ∧ (f.fn = 0x0F → t.own.p l j = !p f.a)))
  ∧ (∀ (f : Full) (s : State), ready (pmovGetShape f) f s = true →
    ∃ t, exec (.pmovGet f) s = .next t
      ∧ (∀ l, (s.own.pred l).getLsbD 63 = true)
      ∧ (∀ n l, opd f.d = .v n → f.w = false → (active f s).getLsbD l = true →
          t.own.v (n + 1) l ++ t.own.v n l = s.own.pred l)
      ∧ (∀ n, opd f.d = .s n → s.own.counter ≠ some n → t.own.s n = s.own.pred (lowest (active f s)))
      ∧ ((useD f).isScalar = false → s.own.loopStep.2.2 = false → s.own.blocked &&& s.own.cur = 0 →
          ∃ e, t.own.latches = e :: (found s).own.latches.take 3 ∧ e.valid = true
            ∧ ∀ l, (active f s).getLsbD l = true → sget 0 e.vals l = s.own.pred l))
  ∧ (∀ (f : Full) (s : State), ready (pmovSetShape f) f s = true → clean [useA f .any 2, useB f .any 2] f s = true →
    ∃ t, exec (.pmovSet f) s = .next t
      ∧ ∀ l, l < 32 →
          let a := (found s).value (useA f .any 2) l
          let b := (found s).value (useB f .any 2) l
          t.own.pred l = (if (active f s).getLsbD l = true then
            (s.own.pred l &&& ~~~ b) ||| (a &&& b) ||| 0x8000000000000000 else s.own.pred l))
  ∧ (∀ (f : Full) (s : State),
    let mode := bits f.fn.toNat 0 2
    let on (l : Nat) : Prop := l < 32 ∧ (active f s).getLsbD l = true
    let p (l : Nat) : Prop := s.own.p l (pNo f.a) = true
    (ready (voteShape f) f s = true →
      mode ≠ 3 ∧ ∃ t, exec (.vote f) s = .next t ∧ ∃ r : Bool,
        (∀ l j, l < 32 → j < 63 → t.own.p l j = if (active f s).getLsbD l = true ∧ j = pNo f.d then r else s.own.p l j)
        ∧ (mode = 0 → (r = true ↔ ∀ l, on l → p l))
        ∧ (mode = 1 → (r = true ↔ ∃ l, on l ∧ p l))
        ∧ (mode = 2 → (r = true ↔ (∀ l, on l → p l) ∨ (∀ l, on l → ¬ p l))))
    ∧ (mode = 3 → ∀ (m : Team) (gi : Nat) (g : Group), m.roleOf gi < 4 →
        ∃ k, k ∈ [0, 1, 2] ∧ (voteShape f).check f m gi g = some { code := 0x02, info := BitVec.ofNat 32 k }))

/-! ## Frames -/

namespace Sys2Proof.Claims

open Sys2Proof Sys2Proof.Machine

/-- The atomic words and the words of the engines that neither read nor write memory as they issue: constructor, and whether the
word writes the scalar register that D names. -/
def engineWords : List ((Full → Instr) × Bool) :=
  [(.atom, false), (.red, false), (.cas, false), (.atoms, false)]
  ++ [(.hcopy, true), (.htile, true), (.hfill, true), (.hgather, true), (.hscatter, true), (.hstat, true)]
  ++ [(.mldw, true), (.mswap, true), (.mstream, true), (.mrdy, false), (.mdrain, true), (.mapply, true), (.mzero, true),
    (.mcfg, false), (.mscale, false), (.mdmap, false), (.mstat, true)]
  ++ [(.taga, true), (.tagf, false), (.ksend, true), (.ksends, true), (.kstat, true), (.kstatCtr, true), (.kcfgDest, false),
    (.kcfgTmo, false), (.kcfgOvf, false)]
  ++ [(.fetch, true), (.tdone, false), (.gcfgTarget, false), (.gcfgRung, false), (.gcfgProbe, false), (.gstat, true), (.gfill, true)]
  ++ [(.qloadx, true), (.qgemv, true), (.qfenceR, false), (.qstat, true), (.qstatSt, true)]
  ++ [(.lflagAdd, false), (.lflagSet, false), (.lwait, true), (.lstat, true)]

/-- The words on a barrier object: constructor, whether the word writes the scalar register that D names, and the predicates that it
writes. -/
def objectWords : List ((Full → Instr) × Bool × (Full → List Nat)) :=
  [(.binit, false, fun _ => []), (.barrive, true, fun _ => []), (.bexpect, false, fun _ => []), (.bexpectArr, true, fun _ => []),
   (.bwait, true, fun _ => []), (.btry, false, fun f => [bits f.fn.toNat 0 6]), (.bcont, false, fun _ => []),
   (.btrig, false, fun _ => [])]

/-- The scalar register is not the one that D names, where the word writes it. -/
def notDest (d : Bool) (f : Full) (n : Nat) : Bool := !(d && handleReg f == some n)

/-- No future of the team is to write scalar register `n` of its group `k`. -/
def noFuture (m : Team) (k n : Nat) : Bool := !m.ftab.any (fun e => e.2.state = .pending && e.2.group = k && e.2.reg = n)

/-- Every group but the one that `focus` names has a counterpart of which `R` holds. -/
def others (s t : State) (R : Nat → Nat → Nat → Group → Group → Prop) : Prop :=
  ∀ c n k g, (c, n, k) ≠ (s.focus.core, s.focus.team, s.focus.group) → s.group? c n k = some g →
    ∃ h, t.group? c n k = some h ∧ R c n k g h

end Sys2Proof.Claims

/-- R25, R71, R86, R152, R244, R261, R264, R271, R310, R331, R346, R397: frame of the atomic words and of the words of the engines.
Whatever becomes of the word, when it answers a next state: no vector register, flag, mask, SEED, Spoil stack or queued store of its
group has changed, no predicate but the one that BTRY writes, no scalar register but D, where the word writes it, and the counter of
its loop, and no register of another group; memory and every scratchpad read as before. A barrier word may change the 16 bytes of
its object in its own team's scratchpad; and a staged stream that it fires and that fails its checks resolves its future (R265), in
whatever group of the team. QFENCE.w and QFENCE.wr write lines of the LLC back, which changes no byte as the LLC reads it; LLAUNCH
reads its packet, which changes no byte at all. -/
def Obligations.AtomicAndEngineWordsChangeOnlyTheirDestination : Prop :=
  (∀ e ∈ engineWords, ∀ (f : Full) (s t : State), exec (e.1 f) s = .next t →
    s.own.KeptBut t.own (notDest e.2 f) [] ∧ others s t (fun _ _ _ => Group.KeptRegs) ∧ sameMemory s t)
  ∧ (∀ e ∈ [(Instr.qfenceW, false, true), (.qfenceWr, false, true), (.llaunch, true, false)], ∀ (f : Full) (s t : State),
    exec (e.1 f) s = .next t →
    s.own.KeptBut t.own (notDest e.2.1 f) [] ∧ others s t (fun _ _ _ => Group.KeptRegs)
    ∧ (∀ a, t.peek false a = s.peek false a) ∧ (e.2.2 = false → ∀ a, t.peek true a = s.peek true a)
    ∧ (∀ c n, (t.team? c n).map (fun m => (m.scratch, m.scratchPoison)) = (s.team? c n).map (fun m => (m.scratch, m.scratchPoison))))
  ∧ (∀ e ∈ objectWords, ∀ (f : Full) (s t : State), exec (e.1 f) s = .next t →
    let a := barAddr ((found s).src f (asyncA f)).toNat
    s.own.KeptBut t.own (fun n => notDest e.2.1 f n && noFuture s.ownTeam s.focus.group n) (e.2.2 f)
    ∧ others s t (fun c n k g h => g.KeptBut h (fun r => c ≠ s.focus.core || noFuture ((s.team? c n).getD {}) k r) [])
    ∧ t.dram = s.dram ∧ t.llc = s.llc ∧ t.poison = s.poison
    ∧ (∀ c n, (c, n) ≠ (s.focus.core, s.focus.team) →
        (t.team? c n).map (fun m => (m.scratch, m.scratchPoison)) = (s.team? c n).map (fun m => (m.scratch, m.scratchPoison)))
    ∧ (∀ b, b < a ∨ a + 16 ≤ b → t.ownTeam.scratch.byte b = s.ownTeam.scratch.byte b)
    ∧ (∀ k, k ≠ a / 8 → k ≠ a / 8 + 1 → t.ownTeam.scratchPoison.contains k = s.ownTeam.scratchPoison.contains k))

namespace Sys2Proof.Claims

open Sys2Proof Sys2Proof.Machine

/-- The words of a sequencer program that are no chunk words: the word, whether it writes the register that CA names, and whether it
writes the flag that FI names. -/
def plainSeqWords (q : SeqWord) : List (Instr × Bool × Bool) :=
  [(.seqNop q, false, false), (.movi q, true, false), (.addi q, true, false), (.seqAdd q, true, false), (.seqLoop q, true, false),
   (.bnz q, false, false), (.waitf q, false, false), (.sigf q, false, true), (.sigfPeer q, false, false),
   (.seqYield q, false, false), (.seqHalt q, false, false)]

/-- The chunk words, each with the ranges that it reads and writes (R382, R383). -/
def chunkSeqWords (q : SeqWord) (t : Slot) : List (Instr × Option Nat × Option Nat) :=
  let a := some (t.c q.ca).toNat
  let c := some (t.c q.cc).toNat
  let kept := if q.md.getLsbD 4 then c else none
  [(.xmit q, a, none), (.rcvst q, none, c), (.rcvcmb q, a, c), (.rcvcf q, a, kept), (.rcvfw q, none, kept), (.scaleEnc q, a, c),
   (.scaleDec q, a, c)]

/-- The slot's program is under way. -/
def underWay (t : Slot) : Prop := t.state = .run ∨ t.state = .ready ∨ t.state = .wait

/-- Every slot keeps its register E and its queue, and, but for the slot that `focus` names, every register but `ca` and every flag
but `fi`. -/
def keptSlots (s t : State) (ca fi : Option Nat) : Prop :=
  ∀ p i, let u := s.slot p i
    let v := t.slot p i
    let here := p = s.focus.port ∧ i = s.focus.slot
    v.e = u.e ∧ v.queue = u.queue
    ∧ (∀ k, ¬ (here ∧ ca = some k) → sget 0 v.creg k = sget 0 u.creg k)
    ∧ (∀ k, ¬ (here ∧ fi = some k) → v.flag k = u.flag k)

end Sys2Proof.Claims

/-- R374, R375, R378, R382 to R386: frame of the words of a sequencer program. Whatever becomes of the word, no slot's register but CA,
where the word writes it, no flag but FI of SIGF, no E and no queue has changed, and no grid and no station. When the slot's program
goes on: a word that is no chunk word has changed, beside its slot, nothing but LN_DBGSTAT of its port, and with SIGF the waits of
groups; a chunk word has changed no other slot, no port, no team, and no byte of memory outside the range that it writes, read
through the copy that has it (a line that makes room in the LLC is written back or dropped). -/
def Obligations.SequencerWordsChangeOnlyWhatTheyName : Prop :=
  ∀ (q : SeqWord) (s t : State),
    let p := s.focus.port
    let i := s.focus.slot
    let u := s.slot p i
    let v := t.slot p i
    (∀ e ∈ plainSeqWords q, exec e.1 s = .next t →
      keptSlots s t (if e.2.1 then some q.ca.toNat else none) (if e.2.2 then some q.fi.toNat else none)
      ∧ t.grids = s.grids ∧ t.stations = s.stations
      ∧ (underWay v →
          t.dram = s.dram ∧ t.llc = s.llc ∧ t.poison = s.poison ∧ t.ports = s.ports ∧ t.records = s.records ∧ t.tlb = s.tlb
          ∧ (e.2.2 = false → t.cores = s.cores) ∧ others s t (fun _ _ _ => Group.KeptRegs)
          ∧ (∀ o, o ≠ offLn p + 0x18 → t.reg o = s.reg o)
          ∧ (∀ x y, (x, y) ≠ (p, i) → t.slot x y = s.slot x y)
          ∧ v = { u with
              creg := v.creg, flags := v.flags, pc := v.pc, state := v.state, plain := v.plain, sending := v.sending
              peerSent := v.peerSent }))
    ∧ (∀ e ∈ chunkSeqWords q u, exec e.1 s = .next t →
      keptSlots s t none none ∧ t.grids = s.grids ∧ t.stations = s.stations
      ∧ (underWay v →
          t.ports = s.ports ∧ t.cores = s.cores ∧ (∀ x y, (x, y) ≠ (p, i) → t.slot x y = s.slot x y)
          ∧ (e.2.2 = none → ∀ a x, t.peek x a = s.peek x a)
          ∧ (s.Canonical → ∀ ws,
              ((s.chunkSpans (s.slotOwner p i) (bits q.imm.toNat 0 17) e.2.1 1).1.chunkSpans (s.slotOwner p i)
                (bits q.imm.toNat 0 17) e.2.2 2).2 = .ok ws →
              ∀ a x, (∀ w ∈ ws, a < localOf w.x.pa ∨ localOf w.x.pa + w.len ≤ a) →
                (t.peek x a).1 = (s.peek x a).1 ∨ (t.peek x a).1 = (s.peek (!x) a).1)))

/-! ## Reset, steps and decoding -/

namespace Sys2Proof.Claims

open Sys2Proof Sys2Proof.Machine

/-- No request to a package above MAXPKG is outstanding, but one whose failure has been reported and awaits its service. -/
def NoneBeyond (s : State) : Prop :=
  ∀ p, ∀ o ∈ (s.port p).outstanding, o.reported = true ∨ o.dst ≤ s.maxpkg

end Sys2Proof.Claims

/-- R403, R432: right after reset every management register reads its reset value, every firmware slot is stopped and no team is
resident. No port has a request outstanding, no fault record or report waits, time is 0 and the agenda is empty, which the model
chooses (logs 1, 2 and 15). The state after reset meets both invariants that are stated below: its memories and sparse maps are in
canonical form, and no request goes beyond MAXPKG. -/
def Obligations.ResetLeavesTheStatedValues : Prop :=
  (∀ o, State.reset.reg o = ((mgmtReg o).getD {}).reset)
  ∧ (∀ c, c < 96 → (State.reset.reg (offCore c + 0x300)).getLsbD 0 = false)
  ∧ (∀ c n, n ≠ 8 → State.reset.team? c n = none)
  ∧ (∀ p, (State.reset.port p).outstanding = [])
  ∧ State.reset.records = [] ∧ State.reset.reports = [] ∧ State.reset.ticks = 0 ∧ State.reset.agenda = []
  ∧ State.reset.Canonical ∧ NoneBeyond State.reset

/-- R60. At reset region 0 of every access table covers the whole space and regions 1 to 63 are empty; bit 0 of all four maps is
set for master IDs 0x00, 0x40, 0x80 and 0xC0, and every other map bit is 0. -/
def Obligations.AccessTablesAtReset : Prop :=
  ∀ i, i < 1217 →
    (∀ n a, n < 64 → a < 2 ^ 64 →
      (((State.reset.reg (offAt i + 0x100 + 16 * n)).toNat ≤ a
          ∧ a ≤ (State.reset.reg (offAt i + 0x108 + 16 * n) ||| 0xFFFF).toNat) ↔ n = 0))
    ∧ (∀ m k n, m < 256 → k < 4 → n < 64 →
        (State.reset.reg (offAt i + 0x1000 + 32 * m + 8 * k)).getLsbD n = decide (m ∈ [0x00, 0x40, 0x80, 0xC0] ∧ n = 0))
    ∧ (∀ m acc a, m < 256 → 1 ≤ acc → acc ≤ 4 → a < 2 ^ 64 →
        State.reset.atAllows i m acc a = decide (m ∈ [0x00, 0x40, 0x80, 0xC0]))

/-- The step runs what the decoder reads. The turn that the package takes next stands in `t`; `s1` is the state in which it acts,
when what fell due before it has taken place. A group's turn selects the group, reads its word and runs the instruction that the
word decodes to, ending with what follows every word (R42, R89); a word in no cache is the eight bytes at the program counter,
lowest byte first (R68, R88). A sequencer's turn runs the instruction of its word, an event's turn the event; a timeout that its
rule places behind the arrivals of its cycle comes by the passage of time alone (R121, R303, log 29). What the package keeps up
after every turn follows. -/
def Obligations.StepRunsTheDecodedWord : Prop :=
  (∀ (s s2 s3 s4 : State) (w : Word) (i : Instr),
    let t := s.nextTurn
    let s1 := (t.2.begin t.1).catchUp s.ticks
    t.1.wf = true → (t.2.begin t.1).tripped = false →
    s2.resumeLoop = (s3, none) → s3.fetchNext = (s4, .ok w) → decodeWord w = .ok i →
      (t.1.what = .issue → s1.enterSlot s1.focus.core (s1.focus.slot % 4) = (s2, true) →
        step s = settle s1 (afterWord (exec i s4)))
      ∧ (t.1.what = .firmware → s1.enterFirmware s1.focus.core = (s2, true) → step s = settle s1 (afterWord (exec i s4))))
  ∧ (∀ (s s2 : State) (w : Word) (i : Instr),
    let t := s.nextTurn
    let s1 := (t.2.begin t.1).catchUp s.ticks
    t.1.wf = true → (t.2.begin t.1).tripped = false → t.1.what = .sequencer → s1.seqEnter s1.focus.port = (s2, some w) →
      decodeSeqWord w = .ok i → step s = settle s1 (exec i s2))
  ∧ (∀ (s : State) (i : Instr),
    let t := s.nextTurn
    let s1 := (t.2.begin t.1).catchUp s.ticks
    t.1.wf = true → (t.2.begin t.1).tripped = false → t.1.what = .event i → i.isEvent = true →
      (atCycleEnd t.1.what = false → step s = settle s1 (exec i s1))
      ∧ (atCycleEnd t.1.what = true → step s = settle s1 (.next s1)))
  ∧ (∀ s : State, pcLooping s.own.pathPc = false →
      s.resumeLoop = (s, none) ∧ s.fetchNext = s.fetchWord (pcAddr s.own.pathPc))
  ∧ (∀ (s : State) (a : Nat), s.identity s.fetchCtx = true → region a = .dram → a % 8 = 0 →
      sfind (a / 128) (s.core s.focus.core).icache = none → sfind (a / 128) s.llc = none →
      s.poison.contains (a / 64) = false → (s.admitOne (masterId 0 s.fetchCtx) 3 (a / 64 * 64) false).2 = true →
      ∃ s1, s.fetchWord a = (s1, .ok (word8 (s.dram.read a 8))))

namespace Sys2Proof.Claims

open Sys2Proof Sys2Proof.Machine

/-- A full-form word that every lane of its path executes. -/
def always (d a b c : BitVec 9) (fn : BitVec 11) : Full :=
  { pred := 63, pn := false, w := false, d := d, a := a, b := b, c := c, fn := fn }

end Sys2Proof.Claims

/-- Words that the spec writes out decode to the instruction that each stands for: a loop, a paired word, a load, a branch, a
join, a selection, a histogram, a conversion, a reversible product, a copy, a stream, a send, a fetch, a question, a launch,
a management word; and two words of a sequencer program. -/
def Obligations.WordsOfTheSpecDecode : Prop :=
  decodeWord 0x0A7E4270984C200B = .ok (.loop (always 0x109 0x184 0x184 0x184 0x00B))
  ∧ decodeWord 0x82E0B2803A814300
      = .ok (.pairedWord (⟨⟨0x02, 7, 0x02, 0x65, 0⟩, ⟨0x1D, 2, 0x02, 0x43, 0⟩, false⟩ : Paired))
  ∧ decodeWord 0x407E0320C00202AC = .ok (.ld (always 0x00C 0x106 0x000 0x040 0x2AC))
  ∧ decodeWord 0x407E006020000424 = .ok (.ld (always 0x001 0x101 0x000 0x000 0x424))
  ∧ decodeWord 0x0084613FFFFFFFFC = .ok (.bra { always 0x184 0x1FF 0x1FF 0x1FF 0x7FC with pred := 2 })
  ∧ decodeWord 0x02FE610040000005 = .ok (.join (always 0x184 0x002 0x000 0x000 0x005))
  ∧ decodeWord 0x1CFE030120CC2011 = .ok (.sel (always 0x00C 0x009 0x00C 0x184 0x011))
  ∧ decodeWord 0x2AFE0701B84C2001 = .ok (.hist (always 0x01C 0x00D 0x184 0x184 0x001))
  ∧ decodeWord 0x307E00C038405003 = .ok (.cvt (always 0x003 0x001 0x184 0x00A 0x003))
  ∧ decodeWord 0x387E0080203C2008 = .ok (.rmuln (always 0x002 0x001 0x003 0x184 0x008))
  ∧ decodeWord 0x507E42A0902E2280 = .ok (.hcopy (always 0x10A 0x104 0x102 0x1C4 0x280))
  ∧ decodeWord 0x597E6122F84C210B = .ok (.mstream (always 0x184 0x117 0x184 0x184 0x10B))
  ∧ decodeWord 0x61FE43A0B0CE0300 = .ok (.ksends (always 0x10E 0x105 0x10C 0x1C0 0x300))
  ∧ decodeWord 0x647E4530984C2000 = .ok (.fetch (always 0x114 0x184 0x184 0x184 0x000))
  ∧ decodeWord 0x64FE6122984C2000 = .ok (.tdone (always 0x184 0x114 0x184 0x184 0x000))
  ∧ decodeWord 0x68FE612110FC2101 = .ok (.qgemv (always 0x184 0x108 0x10F 0x184 0x101))
  ∧ decodeWord 0x6CFE61383C1C2000 = .ok (.lflagAdd (always 0x184 0x1C1 0x1C1 0x184 0x000))
  ∧ decodeWord 0x707E42A09C2C2000 = .ok (.launchc (always 0x10A 0x104 0x1C2 0x184 0x000))
  ∧ decodeWord 0x70FE42E1584C2000 = .ok (.joinc (always 0x10B 0x10A 0x184 0x184 0x000))
  ∧ decodeWord 0x007E6130984C2000 = .ok (.nop (always 0x184 0x184 0x184 0x184 0x000))
  ∧ decodeSeqWord 0x22C00000FFFFFFFD = .ok (.seqLoop { ca := 11, cb := 0, cc := 0, fi := 0, md := 0, imm := 0xFFFFFFFD })
  ∧ decodeSeqWord 0x1297001100000020 = .ok (.rcvcf { ca := 10, cb := 5, cc := 12, fi := 0, md := 0x11, imm := 0x20 })

/-- Every instruction whose operands its encoding admits: decoding its word gives it back, with every field. -/
def Obligations.DecodeOfEncodeIsTheInstruction : Prop :=
  ∀ (i : Instr) (w : Word), i.wf = true → encode i = some w → (if i.isSeqWord then decodeSeqWord w else decodeWord w) = .ok i

/-! ## Invariants -/

/-- R364, log 14 of the model: after every step no request to a package above MAXPKG is outstanding unreported, whatever the
step did. -/
def Obligations.NoRequestBeyondTheLastPackageStaysOpen : Prop :=
  ∀ s t : State, NoneBeyond s → step s = .next t → NoneBeyond t

/-- R18, R132, R432, log 5 of the model: every step keeps the canonical form of DRAM, of the lines of the LLC, of every scratchpad, and
of the sparse maps: addresses and keys strictly rising, no byte 0 listed (which is what an unlisted byte reads as), no management
register listed at its reset value. -/
def Obligations.EveryStepKeepsTheStateCanonical : Prop :=
  ∀ s t : State, s.Canonical → step s = .next t → t.Canonical

/-- R434: after a TRIP nothing acts but management space, which writes the records of its MACHINE_CHECKs too, and the host link
(`afterTrip` lists their events): the turn of a slot, of a firmware slot, of a sequencer, or of any other event changes nothing in
the package but the time, the turn's own fields (log 1 of the model) and the bytes that the host itself wrote. -/
def Obligations.AfterATripOnlyManagementActs : Prop :=
  ∀ s : State, s.nextTurn.1.wf = true → (s.nextTurn.2.begin s.nextTurn.1).tripped = true →
    afterTrip s.nextTurn.1.what = false →
    ∃ t, step s = .next t
      ∧ t = { s with
          agenda := t.agenda, queued := t.queued, turns := t.turns, ticks := t.ticks, focus := t.focus, input := t.input
          dram := t.dram }
      ∧ ∀ a, region a ≠ .pci → t.dram.byte a = s.dram.byte a
end

