-- ==== Sys2Proof/Laws/Decode.lean ====
section
/-! SUPPORT. Fields and words (R68, R72, R377): a word gives back the fields and the opcode that it was made from. -/

namespace Sys2Proof

theorem Full.ofWord_toWord (op : BitVec 8) (f : Full) : Full.ofWord (f.toWord op) = f := by
  obtain ⟨pred, pn, w, d, a, b, c, fn⟩ := f
  simp only [Full.ofWord, Full.toWord, field, Full.mk.injEq]
  refine ⟨?_, ?_, ?_, ?_, ?_, ?_, ?_, ?_⟩
  case refine_2 =>
    simp only [BitVec.getLsbD_append]
    repeat (first | rw [if_pos (by omega)] | rw [if_neg (by omega)])
    simp
  case refine_3 =>
    simp only [BitVec.getLsbD_append]
    repeat (first | rw [if_pos (by omega)] | rw [if_neg (by omega)])
    simp
  all_goals
    apply BitVec.eq_of_getLsbD_eq
    intro i hi
    simp only [BitVec.getLsbD_extractLsb', BitVec.getLsbD_append, hi, decide_true, Bool.true_and]
    repeat (first | rw [if_pos (by omega)] | rw [if_neg (by omega)])
    congr 1
    try omega

theorem Full.op_toWord (op : BitVec 8) (f : Full) : field (f.toWord op) 55 8 = op := by
  obtain ⟨pred, pn, w, d, a, b, c, fn⟩ := f
  simp only [Full.toWord, field]
  apply BitVec.eq_of_getLsbD_eq
  intro i hi
  simp only [BitVec.getLsbD_extractLsb', BitVec.getLsbD_append, hi, decide_true, Bool.true_and]
  repeat (first | rw [if_pos (by omega)] | rw [if_neg (by omega)])
  congr 1
  omega

/-- R68: bit 63 of a full-form word is 0. -/
theorem Full.format_toWord (op : BitVec 8) (f : Full) : (f.toWord op).getLsbD 63 = false := by
  obtain ⟨pred, pn, w, d, a, b, c, fn⟩ := f
  simp only [Full.toWord, BitVec.getLsbD_append]
  repeat (first | rw [if_pos (by omega)] | rw [if_neg (by omega)])
  simp

theorem Half.ofBits_toBits (h : Half) : Half.ofBits h.toBits = h := by
  obtain ⟨sop, pr, d, s, m⟩ := h
  simp only [Half.ofBits, Half.toBits, Half.mk.injEq]
  refine ⟨?_, ?_, ?_, ?_, ?_⟩ <;>
  · apply BitVec.eq_of_getLsbD_eq
    intro i hi
    simp only [BitVec.getLsbD_extractLsb', BitVec.getLsbD_append, hi, decide_true, Bool.true_and]
    repeat (first | rw [if_pos (by omega)] | rw [if_neg (by omega)])
    congr 1
    try omega

theorem Paired.ofWord_toWord (p : Paired) : Paired.ofWord p.toWord = p := by
  obtain ⟨a, b, z⟩ := p
  have h1 : field (Paired.toWord ⟨a, b, z⟩) 32 31 = a.toBits := by
    simp only [Paired.toWord, field]
    apply BitVec.eq_of_getLsbD_eq
    intro i hi
    simp only [BitVec.getLsbD_extractLsb', BitVec.getLsbD_append, hi, decide_true, Bool.true_and]
    repeat (first | rw [if_pos (by omega)] | rw [if_neg (by omega)])
    congr 1
    omega
  have h2 : field (Paired.toWord ⟨a, b, z⟩) 1 31 = b.toBits := by
    simp only [Paired.toWord, field]
    apply BitVec.eq_of_getLsbD_eq
    intro i hi
    simp only [BitVec.getLsbD_extractLsb', BitVec.getLsbD_append, hi, decide_true, Bool.true_and]
    repeat (first | rw [if_pos (by omega)] | rw [if_neg (by omega)])
    congr 1
    omega
  have h3 : (Paired.toWord ⟨a, b, z⟩).getLsbD 0 = z := by
    simp only [Paired.toWord, BitVec.getLsbD_append]
    repeat rw [if_pos (by omega)]
    simp
  simp only [Paired.ofWord, h1, h2, h3, Half.ofBits_toBits]

/-- R68: bit 63 of a paired word is 1. -/
theorem Paired.format_toWord (p : Paired) : p.toWord.getLsbD 63 = true := by
  simp only [Paired.toWord, BitVec.getLsbD_append]
  repeat (first | rw [if_pos (by omega)] | rw [if_neg (by omega)])
  simp

theorem SeqWord.ofWord_toWord (o : BitVec 6) (q : SeqWord) : SeqWord.ofWord (q.toWord o) = q := by
  obtain ⟨ca, cb, cc, fi, md, imm⟩ := q
  simp only [SeqWord.ofWord, SeqWord.toWord, field, SeqWord.mk.injEq]
  refine ⟨?_, ?_, ?_, ?_, ?_, ?_⟩ <;>
  · apply BitVec.eq_of_getLsbD_eq
    intro i hi
    simp only [BitVec.getLsbD_extractLsb', BitVec.getLsbD_append, hi, decide_true, Bool.true_and]
    repeat (first | rw [if_pos (by omega)] | rw [if_neg (by omega)])
    congr 1
    try omega

theorem SeqWord.op_toWord (o : BitVec 6) (q : SeqWord) : field (q.toWord o) 58 6 = o := by
  simp only [SeqWord.toWord, field]
  apply BitVec.eq_of_getLsbD_eq
  intro i hi
  simp only [BitVec.getLsbD_extractLsb', BitVec.getLsbD_append, hi, decide_true, Bool.true_and]
  repeat (first | rw [if_pos (by omega)] | rw [if_neg (by omega)])
  congr 1
  omega

/-- A full-form word decodes by its opcode and fields. -/
theorem decodeWord_toWord (op : BitVec 8) (f : Full) : decodeWord (f.toWord op) = decodeFull op f := by
  unfold decodeWord
  rw [Full.format_toWord, if_neg (by decide), Full.op_toWord, Full.ofWord_toWord]

/-- A paired word decodes to its halves. -/
theorem decodeWord_paired (p : Paired) : decodeWord p.toWord = .ok (.pairedWord p) := by
  unfold decodeWord
  rw [Paired.format_toWord, if_pos rfl, Paired.ofWord_toWord]

end Sys2Proof
end

