-- ==== Sys2Proof/Laws/Sparse.lean ====
section
/-! SUPPORT. Laws of sparse maps and of byte memory: a read after a write, and that every operation keeps the canonical
form. -/

namespace Sys2Proof.Machine

open Sys2Proof

/-! ## Sparse maps -/

theorem rising_mono {α : Type} {lo lo' : Nat} (h : lo' ≤ lo) :
    ∀ {m : Sparse α}, Sparse.rising lo m = true → Sparse.rising lo' m = true
  | [], _ => rfl
  | (j, _) :: m, hm => by
    simp only [Sparse.rising, Bool.and_eq_true, decide_eq_true_eq] at hm ⊢
    exact ⟨by omega, hm.2⟩

@[simp] theorem sfind_sins_same {α : Type} (k : Nat) (v : α) : ∀ m : Sparse α, sfind k (sins k v m) = some v
  | [] => by simp [sins, sfind]
  | (j, w) :: m => by
    simp only [sins]
    split
    · next h => simp [sfind, Nat.ne_of_lt h, sfind_sins_same k v m]
    · split <;> simp [sfind]

theorem sfind_sins_ne {α : Type} {j k : Nat} (h : j ≠ k) (v : α) :
    ∀ m : Sparse α, sfind j (sins k v m) = sfind j m
  | [] => by simp [sins, sfind, Ne.symm h]
  | (i, w) :: m => by
    simp only [sins]
    split
    · simp only [sfind, sfind_sins_ne h v m]
    · split
      · next hk => simp [sfind, hk, Ne.symm h]
      · simp [sfind, Ne.symm h]

@[simp] theorem sfind_sdel_same {α : Type} (k : Nat) : ∀ m : Sparse α, sfind k (sdel k m) = none
  | [] => rfl
  | (i, w) :: m => by
    have ih := sfind_sdel_same k m
    unfold sdel at ih ⊢
    rw [List.filter_cons]
    split
    · next h => simp only [decide_eq_true_eq] at h; simp only [sfind, if_neg h, ih]
    · exact ih

theorem sfind_sdel_ne {α : Type} {j k : Nat} (h : j ≠ k) : ∀ m : Sparse α, sfind j (sdel k m) = sfind j m
  | [] => rfl
  | (i, w) :: m => by
    have ih := sfind_sdel_ne h m
    unfold sdel at ih ⊢
    rw [List.filter_cons]
    split
    · simp only [sfind, ih]
    · next hi =>
      have hi : i = k := by simpa using hi
      simp only [sfind, ih, hi, if_neg (Ne.symm h)]

theorem rising_sins {α : Type} (k : Nat) (v : α) :
    ∀ {lo : Nat} {m : Sparse α}, lo ≤ k → Sparse.rising lo m = true → Sparse.rising lo (sins k v m) = true
  | lo, [], hk, _ => by simp [sins, Sparse.rising, hk]
  | lo, (i, w) :: m, hk, hm => by
    simp only [Sparse.rising, Bool.and_eq_true, decide_eq_true_eq] at hm
    simp only [sins]
    split
    · next hi =>
      simp only [Sparse.rising, Bool.and_eq_true, decide_eq_true_eq]
      exact ⟨hm.1, rising_sins k v (by omega) hm.2⟩
    · split
      · next hi hk' =>
        subst hk'
        simp only [Sparse.rising, Bool.and_eq_true, decide_eq_true_eq]
        exact ⟨hk, hm.2⟩
      · next hi hk' =>
        simp only [Sparse.rising, Bool.and_eq_true, decide_eq_true_eq]
        exact ⟨hk, by omega, hm.2⟩

theorem rising_filter {α : Type} (p : Nat × α → Bool) :
    ∀ {lo : Nat} {m : Sparse α}, Sparse.rising lo m = true → Sparse.rising lo (m.filter p) = true
  | _, [], _ => rfl
  | lo, (j, w) :: m, h => by
    simp only [Sparse.rising, Bool.and_eq_true, decide_eq_true_eq] at h
    rw [List.filter_cons]
    split
    · simp only [Sparse.rising, Bool.and_eq_true, decide_eq_true_eq]
      exact ⟨h.1, rising_filter p h.2⟩
    · exact rising_mono (by omega) (rising_filter p h.2)

theorem rising_sdel {α : Type} (k : Nat) {lo : Nat} {m : Sparse α} (h : Sparse.rising lo m = true) :
    Sparse.rising lo (sdel k m) = true :=
  rising_filter _ h

theorem rising_sput {α : Type} [DecidableEq α] (d : α) {m : Sparse α} (k : Nat) (v : α)
    (hm : Sparse.rising 0 m = true) : Sparse.rising 0 (sput d m k v) = true := by
  unfold sput
  split
  · exact rising_sdel k hm
  · exact rising_sins k v (Nat.zero_le k) hm

/-- A read after a write to the same key gives the value written. -/
@[simp] theorem sget_sput_same {α : Type} [DecidableEq α] (d : α) (m : Sparse α) (k : Nat) (v : α) :
    sget d (sput d m k v) k = v := by
  unfold sget sput
  split
  · next h => rw [sfind_sdel_same, h]; rfl
  · rw [sfind_sins_same]; rfl

/-- A write leaves every other key alone. -/
theorem sget_sput_ne {α : Type} [DecidableEq α] (d : α) (m : Sparse α) {j k : Nat} (v : α) (h : j ≠ k) :
    sget d (sput d m k v) j = sget d m j := by
  unfold sget sput
  split
  · rw [sfind_sdel_ne h]
  · rw [sfind_sins_ne h]

theorem sget_sput {α : Type} [DecidableEq α] (d : α) (m : Sparse α) (j k : Nat) (v : α) :
    sget d (sput d m k v) j = if j = k then v else sget d m j := by
  split
  · next h => rw [h, sget_sput_same]
  · next h => exact sget_sput_ne d m v h

@[simp] theorem sfind_smod_same {α : Type} (k : Nat) (f : α → α) :
    ∀ m : Sparse α, sfind k (smod k f m) = (sfind k m).map f
  | [] => rfl
  | (i, w) :: m => by
    simp only [smod]
    split
    · next h => simp [sfind, h]
    · next h => simp only [sfind, if_neg h, sfind_smod_same k f m]

theorem sfind_smod_ne {α : Type} {j k : Nat} (f : α → α) (h : j ≠ k) :
    ∀ m : Sparse α, sfind j (smod k f m) = sfind j m
  | [] => rfl
  | (i, w) :: m => by
    simp only [smod]
    split
    · next hi => subst hi; simp [sfind, Ne.symm h]
    · simp only [sfind, sfind_smod_ne f h m]

theorem rising_smod {α : Type} (k : Nat) (f : α → α) :
    ∀ {lo : Nat} {m : Sparse α}, Sparse.rising lo m = true → Sparse.rising lo (smod k f m) = true
  | _, [], _ => rfl
  | lo, (i, w) :: m, hm => by
    simp only [Sparse.rising, Bool.and_eq_true, decide_eq_true_eq] at hm
    simp only [smod]
    split
    · simp only [Sparse.rising, Bool.and_eq_true, decide_eq_true_eq]; exact hm
    · simp only [Sparse.rising, Bool.and_eq_true, decide_eq_true_eq]
      exact ⟨hm.1, rising_smod k f hm.2⟩

/-! ## Byte memory -/

theorem all_sins {α : Type} (p : Nat × α → Bool) (k : Nat) (v : α) (hv : p (k, v) = true) :
    ∀ {m : Sparse α}, m.all p = true → (sins k v m).all p = true
  | [], _ => by simp [sins, hv]
  | (i, w) :: m, hm => by
    have hm' := hm
    simp only [List.all_cons, Bool.and_eq_true] at hm
    simp only [sins]
    split
    · simp only [List.all_cons, Bool.and_eq_true]; exact ⟨hm.1, all_sins p k v hv hm.2⟩
    · split
      · simp only [List.all_cons, Bool.and_eq_true]; exact ⟨hv, hm.2⟩
      · rw [List.all_cons, Bool.and_eq_true]; exact ⟨hv, hm'⟩

theorem all_sdel {α : Type} (p : Nat × α → Bool) (k : Nat) {m : Sparse α} (hm : m.all p = true) :
    (sdel k m).all p = true := by
  rw [List.all_eq_true] at hm ⊢
  exact fun c hc => hm c (List.mem_filter.1 hc).1

/-- Empty memory is canonical. -/
theorem Memory.wf_nil : Memory.wf [] = true := rfl

theorem Memory.wf_rising {m : Memory} (h : m.wf = true) : Sparse.rising 0 m = true := by
  simp only [Memory.wf, Bool.and_eq_true] at h; exact h.1

/-- A byte write keeps the canonical form. -/
theorem Memory.wf_setByte {m : Memory} (a : Nat) (b : Byte) (h : m.wf = true) : (m.setByte a b).wf = true := by
  have h1 := Memory.wf_rising h
  simp only [Memory.wf, Bool.and_eq_true] at h ⊢
  refine ⟨rising_sput _ a b h1, ?_⟩
  unfold Memory.setByte sput
  split
  · exact all_sdel _ a h.2
  · next hb => exact all_sins _ a b (by simpa using hb) h.2

/-- A byte read after a write to the same address gives the value written. -/
@[simp] theorem Memory.byte_setByte_same (m : Memory) (a : Nat) (b : Byte) : (m.setByte a b).byte a = b :=
  sget_sput_same _ m a b

/-- A byte write leaves every other address alone. -/
theorem Memory.byte_setByte_ne (m : Memory) {a c : Nat} (b : Byte) (hc : c ≠ a) : (m.setByte a b).byte c = m.byte c :=
  sget_sput_ne _ m b hc

/-- Writing bytes one after another keeps the canonical form. -/
theorem Memory.wf_write : ∀ (bs : List Byte) {m : Memory} (a : Nat), m.wf = true → (m.write a bs).wf = true
  | [], _, _, h => h
  | b :: bs, m, a, h => by
    simp only [Memory.write]
    exact Memory.wf_write bs (a + 1) (Memory.wf_setByte a b h)

/-- A write leaves every byte outside it alone. -/
theorem Memory.byte_write_out :
    ∀ (bs : List Byte) (m : Memory) (a c : Nat), (c < a ∨ a + bs.length ≤ c) → (m.write a bs).byte c = m.byte c
  | [], _, _, _, _ => rfl
  | b :: bs, m, a, c, hc => by
    simp only [Memory.write, List.length_cons] at *
    rw [Memory.byte_write_out bs _ (a + 1) c (by omega), Memory.byte_setByte_ne m b (by omega)]

/-- A byte written is read back. -/
theorem Memory.byte_write_in :
    ∀ (bs : List Byte) (m : Memory) (a i : Nat) (hi : i < bs.length), (m.write a bs).byte (a + i) = bs[i]
  | b :: bs, m, a, 0, _ => by
    simp only [Memory.write, Nat.add_zero, List.getElem_cons_zero]
    rw [Memory.byte_write_out bs _ (a + 1) a (by omega), Memory.byte_setByte_same]
  | b :: bs, m, a, i + 1, hi => by
    simp only [Memory.write, List.getElem_cons_succ]
    rw [show a + (i + 1) = a + 1 + i by omega]
    exact Memory.byte_write_in bs _ (a + 1) i (by simpa using hi)

/-- Byte writes in any order keep the canonical form (the form in which `poke` and `spWrite` write). -/
theorem Memory.wf_foldl_setByte (bs : List (Nat × Byte)) :
    ∀ {m : Memory}, m.wf = true → (bs.foldl (fun n e => n.setByte e.1 e.2) m).wf = true := by
  induction bs with
  | nil => exact fun h => h
  | cons e bs ih => exact fun h => ih (Memory.wf_setByte e.1 e.2 h)

/-- Dropping bytes keeps the canonical form. -/
theorem Memory.wf_filter {m : Memory} (p : Host.Cell → Bool) (h : m.wf = true) : Memory.wf (m.filter p) = true := by
  have h1 := Memory.wf_rising h
  simp only [Memory.wf, Bool.and_eq_true] at h ⊢
  refine ⟨rising_filter p h1, ?_⟩
  have h2 := h.2
  rw [List.all_eq_true] at h2 ⊢
  exact fun c hc => h2 c (List.mem_filter.1 hc).1

end Sys2Proof.Machine
end

