-- ==== Sys2Proof/Laws/Reach.lean ====
section
/-! SUPPORT. Reaching a core, a team and a group: what a change of one part leaves in the same part and in every other. -/

namespace Sys2Proof.Machine

open Sys2Proof

/-! ## Changes in a row -/

theorem sins_sins {α : Type} (k : Nat) (v w : α) : ∀ m : Sparse α, sins k v (sins k w m) = sins k v m
  | [] => by simp [sins]
  | (j, x) :: m => by
    by_cases h1 : j < k
    · simp [sins, h1, sins_sins k v w m]
    · by_cases h2 : j = k
      · simp [sins, h2]
      · simp [sins, h1, h2]

theorem smod_smod {α : Type} (k : Nat) (f g : α → α) : ∀ m : Sparse α, smod k f (smod k g m) = smod k (fun x => f (g x)) m
  | [] => rfl
  | (j, x) :: m => by
    by_cases h : j = k
    · simp [smod, h]
    · simp [smod, h, smod_smod k f g m]

/-! ## Cores -/

@[simp] theorem State.core_setCore_same (s : State) (c : Nat) (k : Core) : (s.setCore c k).core c = k := by
  simp [State.core, State.setCore, sget]

theorem State.core_setCore_ne (s : State) {c d : Nat} (k : Core) (h : d ≠ c) : (s.setCore c k).core d = s.core d := by
  simp [State.core, State.setCore, sget, sfind_sins_ne h]

@[simp] theorem State.core_modCore_same (s : State) (c : Nat) (f : Core → Core) : (s.modCore c f).core c = f (s.core c) := by
  simp [State.modCore]

theorem State.core_modCore_ne (s : State) {c d : Nat} (f : Core → Core) (h : d ≠ c) : (s.modCore c f).core d = s.core d := by
  simp [State.modCore, State.core_setCore_ne _ _ h]

theorem State.modCore_modCore (s : State) (c : Nat) (f g : Core → Core) :
    (s.modCore c g).modCore c f = s.modCore c (fun k => f (g k)) := by
  simp [State.modCore, State.setCore, sins_sins, State.core, sget]

/-! ## Teams -/

theorem State.modTeam_modTeam (s : State) (c t : Nat) (f g : Team → Team) :
    (s.modTeam c t g).modTeam c t f = s.modTeam c t (fun m => f (g m)) := by
  unfold State.modTeam
  rw [State.modCore_modCore]
  congr 1
  funext k
  by_cases h : t = 8 <;> simp [Core.modTeam, h, smod_smod]

theorem Core.team?_modTeam_same (k : Core) (t : Nat) (f : Team → Team) : (k.modTeam t f).team? t = (k.team? t).map f := by
  by_cases h : t = 8 <;> simp [Core.modTeam, Core.team?, h]

theorem Core.team?_modTeam_ne (k : Core) {t u : Nat} (f : Team → Team) (h : u ≠ t) :
    (k.modTeam t f).team? u = k.team? u := by
  by_cases ht : t = 8 <;> by_cases hu : u = 8
  · exact absurd (hu.trans ht.symm) h
  · simp [Core.modTeam, Core.team?, ht, hu]
  · simp [Core.modTeam, Core.team?, ht, hu]
  · simp [Core.modTeam, Core.team?, ht, hu, sfind_smod_ne f h]

@[simp] theorem State.team?_modTeam_same (s : State) (c t : Nat) (f : Team → Team) :
    (s.modTeam c t f).team? c t = (s.team? c t).map f := by
  simp [State.team?, State.modTeam, Core.team?_modTeam_same]

theorem State.team?_modTeam_ne (s : State) {c t d u : Nat} (f : Team → Team) (h : (d, u) ≠ (c, t)) :
    (s.modTeam c t f).team? d u = s.team? d u := by
  by_cases hd : d = c
  · subst hd
    have hu : u ≠ t := fun e => h (by rw [e])
    simp [State.team?, State.modTeam, Core.team?_modTeam_ne _ f hu]
  · simp [State.team?, State.modTeam, State.core_modCore_ne _ _ hd]

/-- Changing a slot of a core leaves its teams alone. -/
@[simp] theorem State.team?_modCore_setSlot (s : State) (c d t n : Nat) (i : Core → IssueSlot) :
    (s.modCore c (fun k => k.setSlot n (i k))).team? d t = s.team? d t := by
  by_cases h : d = c
  · subst h; simp [State.team?, Core.setSlot, Core.team?]
  · simp [State.team?, State.core_modCore_ne _ _ h]

@[simp] theorem State.group?_modCore_setSlot (s : State) (c d t g n : Nat) (i : Core → IssueSlot) :
    (s.modCore c (fun k => k.setSlot n (i k))).group? d t g = s.group? d t g := by
  simp [State.group?]

/-- Discarding a capture changes only the issue slots of its core. -/
theorem Core.dropCapture_slots (k : Core) (n t g : Nat) (b : Option Nat) :
    ∃ l, k.dropCapture n t g b = { k with slots := l } := by
  unfold Core.dropCapture
  split
  · split
    · exact ⟨_, rfl⟩
    · exact ⟨k.slots, rfl⟩
  · exact ⟨k.slots, rfl⟩

@[simp] theorem State.team?_modCore_dropCapture (s : State) (c d u n t g : Nat) (b : Option Nat) :
    (s.modCore c (fun k => k.dropCapture n t g b)).team? d u = s.team? d u := by
  by_cases h : d = c
  · subst h
    obtain ⟨l, hl⟩ := Core.dropCapture_slots (s.core d) n t g b
    simp [State.team?, hl, Core.team?]
  · simp [State.team?, State.core_modCore_ne _ _ h]

@[simp] theorem State.group?_modCore_dropCapture (s : State) (c d u v n t g : Nat) (b : Option Nat) :
    (s.modCore c (fun k => k.dropCapture n t g b)).group? d u v = s.group? d u v := by
  simp [State.group?]

/-! ## Groups -/

@[simp] theorem State.group?_modGroup_same (s : State) (c t g : Nat) (f : Group → Group) :
    (s.modGroup c t g f).group? c t g = (s.group? c t g).map f := by
  simp only [State.group?, State.modGroup, State.team?_modTeam_same]
  cases s.team? c t <;> simp [Team.modGroup]

theorem State.group?_modGroup_ne (s : State) {c t g d u j : Nat} (f : Group → Group) (h : (d, u, j) ≠ (c, t, g)) :
    (s.modGroup c t g f).group? d u j = s.group? d u j := by
  by_cases hd : (d, u) = (c, t)
  · cases hd
    have hj : j ≠ g := fun e => h (by rw [e])
    simp only [State.group?, State.modGroup, State.team?_modTeam_same]
    cases s.team? c t <;> simp [Team.modGroup, sfind_smod_ne f hj]
  · simp only [State.group?, State.modGroup, State.team?_modTeam_ne _ _ hd]

/-- A change of one group leaves the rest of every team alone. -/
theorem State.team?_modGroup (s : State) (c t g d u : Nat) (f : Group → Group) :
    (s.modGroup c t g f).team? d u
      = (s.team? d u).map (fun m => if (d, u) = (c, t) then m.modGroup g f else m) := by
  by_cases hd : (d, u) = (c, t)
  · cases hd; simp [State.modGroup]
  · simp [State.modGroup, State.team?_modTeam_ne _ _ hd, hd]

theorem State.modGroup_modGroup (s : State) (c t j : Nat) (f g : Group → Group) :
    (s.modGroup c t j g).modGroup c t j f = s.modGroup c t j (fun x => f (g x)) := by
  simp [State.modGroup, State.modTeam_modTeam, Team.modGroup, smod_smod]

theorem State.modOwn_modOwn (s : State) (f g : Group → Group) :
    (s.modOwn g).modOwn f = s.modOwn (fun x => f (g x)) := State.modGroup_modGroup ..

@[simp] theorem State.modOwn_own? (s : State) (f : Group → Group) : (s.modOwn f).own? = s.own?.map f := by
  show (s.modOwn f).group? s.focus.core s.focus.team s.focus.group = _
  simp [State.modOwn, State.own?]

theorem State.modOwn_own {s : State} (h : s.own?.isSome = true) (f : Group → Group) : (s.modOwn f).own = f s.own := by
  obtain ⟨g, hg⟩ := Option.isSome_iff_exists.1 h
  simp [State.own, hg]

/-- A change of the own team that keeps its groups keeps the own group. -/
theorem State.own?_modOwnTeam {s : State} {f : Team → Team} (h : ∀ m, (f m).groups = m.groups) :
    (s.modOwnTeam f).own? = s.own? := by
  show (s.modOwnTeam f).group? s.focus.core s.focus.team s.focus.group = _
  simp only [State.modOwnTeam, State.group?, State.team?_modTeam_same, State.own?]
  cases s.team? s.focus.core s.focus.team <;> simp [h]

theorem State.group?_modTeam_groups {s : State} {c t : Nat} {f : Team → Team} (h : ∀ m, (f m).groups = m.groups)
    (d u j : Nat) : (s.modTeam c t f).group? d u j = s.group? d u j := by
  by_cases hd : (d, u) = (c, t)
  · cases hd
    simp only [State.group?, State.team?_modTeam_same]
    cases s.team? c t <;> simp [h]
  · simp only [State.group?, State.team?_modTeam_ne _ _ hd]

end Sys2Proof.Machine
end

