-- ==== Sys2Proof/Laws/Registers.lean ====
section
/-! SUPPORT. Registers of a group: a read after a write, and the writes that leave a register alone (R20, R69, R71, R109). -/

namespace Sys2Proof.Machine

open Sys2Proof

/-! ## Scalar registers -/

theorem Group.s_setS (g : Group) (m n : Nat) (w : Word) : (g.setS n w).s m = if m = n then w else g.s m := by
  simp [Group.s, Group.setS, sget_sput]

@[simp] theorem Group.s_setS_same (g : Group) (n : Nat) (w : Word) : (g.setS n w).s n = w := by simp [Group.s_setS]

theorem Group.s_setS_ne (g : Group) {m n : Nat} (w : Word) (h : m ≠ n) : (g.setS n w).s m = g.s m := by
  simp [Group.s_setS, h]

/-! ## Vector registers -/

theorem Group.v_setV (g : Group) {m n l j : Nat} (w : W32) (hl : l < 32) (hj : j < 32) :
    (g.setV n l w).v m j = if m = n ∧ j = l then w else g.v m j := by
  have h : (m * 32 + j = n * 32 + l) ↔ (m = n ∧ j = l) := by omega
  simp [Group.v, Group.setV, sget_sput, h]

/-! ## Predicates -/

/-- R109: p63 reads 1. -/
@[simp] theorem Group.p_63 (g : Group) (l : Nat) : g.p l 63 = true := by
  simp [Group.p, Group.pred]

@[simp] theorem Group.pred_setPredWord_same (g : Group) (l : Nat) (w : Word) :
    (g.setPredWord l w).pred l = w ||| 0x8000000000000000 := by
  simp [Group.pred, Group.setPredWord, BitVec.or_assoc]

theorem Group.pred_setPredWord_ne (g : Group) {j l : Nat} (w : Word) (h : j ≠ l) :
    (g.setPredWord l w).pred j = g.pred j := by
  simp [Group.pred, Group.setPredWord, sget_sput_ne _ _ _ h]

theorem getLsbD_bit (k i : Nat) (hi : i < 64) : (BitVec.ofNat 64 (2 ^ k)).getLsbD i = decide (i = k) := by
  rw [BitVec.getLsbD_ofNat, Nat.testBit_two_pow]
  by_cases h : i = k
  · subst h; simp [hi]
  · simp [h, Ne.symm h]

/-- R109: a predicate reads what was written, but for p63. -/
theorem Group.p_setP (g : Group) {j l i k : Nat} (b : Bool) (hi : i < 63) :
    (g.setP l k b).p j i = if j = l ∧ i = k then b else g.p j i := by
  have h64 : i < 64 := by omega
  have h63 : (0x8000000000000000 : Word).getLsbD i = false := by
    have := getLsbD_bit 63 i h64
    rw [show (0x8000000000000000 : Word) = BitVec.ofNat 64 (2 ^ 63) from by decide, this]
    exact decide_eq_false (by omega)
  by_cases hj : j = l
  · subst hj
    simp only [Group.p, Group.setP, Group.pred_setPredWord_same, BitVec.getLsbD_or, h63, Bool.or_false, true_and]
    cases b
    · simp only [Bool.false_eq_true, if_false, BitVec.getLsbD_and, BitVec.getLsbD_not, getLsbD_bit k i h64]
      by_cases hik : i = k <;> simp [hik, h64]
    · simp only [if_true, BitVec.getLsbD_or, getLsbD_bit k i h64]
      by_cases hik : i = k <;> simp [hik]
  · simp [Group.p, Group.setP, Group.pred_setPredWord_ne _ _ hj, hj]

/-! ## Program counters -/

theorem Group.pc_setPc (g : Group) (j l : Nat) (w : Word) : (g.setPc l w).pc j = if j = l then w else g.pc j := by
  simp [Group.pc, Group.setPc, sget_sput]

/-! ## What each write leaves alone -/

@[simp] theorem Group.s_setV (g : Group) (m n l : Nat) (w : W32) : (g.setV n l w).s m = g.s m := rfl
@[simp] theorem Group.s_setPc (g : Group) (m l : Nat) (w : Word) : (g.setPc l w).s m = g.s m := rfl
@[simp] theorem Group.s_setPredWord (g : Group) (m l : Nat) (w : Word) : (g.setPredWord l w).s m = g.s m := rfl
@[simp] theorem Group.s_setP (g : Group) (m l k : Nat) (b : Bool) : (g.setP l k b).s m = g.s m := rfl
@[simp] theorem Group.s_raise (g : Group) (m : Nat) (x : BitVec 5) : (g.raise x).s m = g.s m := rfl
@[simp] theorem Group.v_setS (g : Group) (m j n : Nat) (w : Word) : (g.setS n w).v m j = g.v m j := rfl
@[simp] theorem Group.v_setPc (g : Group) (m j l : Nat) (w : Word) : (g.setPc l w).v m j = g.v m j := rfl
@[simp] theorem Group.v_setPredWord (g : Group) (m j l : Nat) (w : Word) : (g.setPredWord l w).v m j = g.v m j := rfl
@[simp] theorem Group.v_setP (g : Group) (m j l k : Nat) (b : Bool) : (g.setP l k b).v m j = g.v m j := rfl
@[simp] theorem Group.v_raise (g : Group) (m j : Nat) (x : BitVec 5) : (g.raise x).v m j = g.v m j := rfl
@[simp] theorem Group.p_setS (g : Group) (j i n : Nat) (w : Word) : (g.setS n w).p j i = g.p j i := rfl
@[simp] theorem Group.p_setV (g : Group) (j i n l : Nat) (w : W32) : (g.setV n l w).p j i = g.p j i := rfl
@[simp] theorem Group.p_setPc (g : Group) (j i l : Nat) (w : Word) : (g.setPc l w).p j i = g.p j i := rfl
@[simp] theorem Group.p_raise (g : Group) (j i : Nat) (x : BitVec 5) : (g.raise x).p j i = g.p j i := rfl
@[simp] theorem Group.pc_setS (g : Group) (j n : Nat) (w : Word) : (g.setS n w).pc j = g.pc j := rfl
@[simp] theorem Group.pc_setV (g : Group) (j n l : Nat) (w : W32) : (g.setV n l w).pc j = g.pc j := rfl
@[simp] theorem Group.pc_setP (g : Group) (j l k : Nat) (b : Bool) : (g.setP l k b).pc j = g.pc j := rfl

/-! ## A destination -/

/-- A vector destination: its registers, in the lane that is written (R71). -/
theorem Group.v_writeDst (g : Group) {enc : BitVec 9} {n : Nat} (hn : opd enc = .v n) {regs l m j : Nat} (w : Word) (p : Bool)
    (hl : l < 32) (hj : j < 32) :
    (g.writeDst enc regs l w p).v m j
      = if j = l ∧ m = n then w.setWidth 32
        else if j = l ∧ m = n + 1 ∧ regs ≠ 1 then w.extractLsb' 32 32 else g.v m j := by
  unfold Group.writeDst
  rw [hn]
  by_cases hr : regs = 1
  · simp only [if_pos hr]
    show (g.setV n l (w.setWidth 32)).v m j = _
    rw [Group.v_setV _ _ hl hj]
    by_cases h : m = n ∧ j = l
    · rw [if_pos h, if_pos ⟨h.2, h.1⟩]
    · rw [if_neg h, if_neg (fun e => h ⟨e.2, e.1⟩), if_neg (fun e => e.2.2 hr)]
  · simp only [if_neg hr]
    show (Group.setV _ (n + 1) l (w.extractLsb' 32 32)).v m j = _
    rw [Group.v_setV _ _ hl hj]
    show (if m = n + 1 ∧ j = l then _ else (g.setV n l (w.setWidth 32)).v m j) = _
    rw [Group.v_setV _ _ hl hj]
    by_cases hjl : j = l <;> by_cases hm : m = n <;> by_cases hm1 : m = n + 1 <;> simp_all

theorem Group.v_writeDst_other (g : Group) {enc : BitVec 9} (hn : ∀ n, opd enc ≠ .v n) (regs l m j : Nat) (w : Word)
    (p : Bool) : (g.writeDst enc regs l w p).v m j = g.v m j := by
  unfold Group.writeDst
  split
  · next n h => exact absurd h (hn n)
  · rfl
  · rfl

theorem Group.s_writeDst (g : Group) {enc : BitVec 9} (regs l m : Nat) (w : Word) (p : Bool) :
    (g.writeDst enc regs l w p).s m = if opd enc = .s m then w else g.s m := by
  unfold Group.writeDst
  cases opd enc with
  | v n => by_cases hr : regs = 1 <;> simp [hr, Group.s, Group.setV]
  | s n =>
    show (g.setS n w).s m = _
    rw [Group.s_setS]
    by_cases hm : m = n
    · subst hm; simp
    · rw [if_neg hm, if_neg (by simpa using Ne.symm hm)]
  | y n => simp
  | special c => simp
  | inline b => simp

@[simp] theorem Group.p_writeDst (g : Group) (enc : BitVec 9) (regs l j i : Nat) (w : Word) (p : Bool) :
    (g.writeDst enc regs l w p).p j i = g.p j i := by
  unfold Group.writeDst
  cases opd enc with
  | v n => by_cases hr : regs = 1 <;> simp [hr, Group.p, Group.pred, Group.setV]
  | s n => rfl
  | y n => rfl
  | special c => rfl
  | inline b => rfl

@[simp] theorem Group.pc_writeDst (g : Group) (enc : BitVec 9) (regs l j : Nat) (w : Word) (p : Bool) :
    (g.writeDst enc regs l w p).pc j = g.pc j := by
  unfold Group.writeDst
  cases opd enc with
  | v n => by_cases hr : regs = 1 <;> simp [hr, Group.pc, Group.setV]
  | s n => rfl
  | y n => rfl
  | special c => rfl
  | inline b => rfl

end Sys2Proof.Machine
end

