-- ==== Sys2Proof/Laws/Frame.lean ====
section
/-! SUPPORT. What each shared operation of a word leaves alone: once each, for the statements about words to cite. -/

namespace Sys2Proof.Machine

open Sys2Proof

/-! ## The two kept parts of a group -/

theorem Group.KeptInner.refl (g : Group) : g.KeptInner g := by constructor <;> rfl

theorem Group.KeptInner.trans {g h k : Group} (a : g.KeptInner h) (b : h.KeptInner k) : g.KeptInner k := by
  cases a; cases b; constructor <;> simp_all

theorem Group.KeptRegs.refl (g : Group) : g.KeptRegs g := by constructor <;> rfl

theorem Group.KeptRegs.trans {g h k : Group} (a : g.KeptRegs h) (b : h.KeptRegs k) : g.KeptRegs k := by
  cases a; cases b; constructor <;> simp_all

theorem Group.KeptRegs.s {g h : Group} (a : g.KeptRegs h) (n : Nat) : h.s n = g.s n := by simp [Group.s, a.sreg]

theorem Group.KeptRegs.v {g h : Group} (a : g.KeptRegs h) (n l : Nat) : h.v n l = g.v n l := by simp [Group.v, a.vreg]

theorem Group.KeptRegs.p {g h : Group} (a : g.KeptRegs h) (l k : Nat) : h.p l k = g.p l k := by
  simp [Group.p, Group.pred, a.predv]

/-! ## Elsewhere -/

theorem State.Elsewhere.refl (s : State) : s.Elsewhere s := by constructor <;> first | rfl | intros; rfl

theorem State.Elsewhere.trans {s t u : State} (a : s.Elsewhere t) (b : t.Elsewhere u) : s.Elsewhere u := by
  have hf := a.focus
  refine
    { focus := b.focus.trans hf, ticks := b.ticks.trans a.ticks, dram := b.dram.trans a.dram, llc := b.llc.trans a.llc
      poison := b.poison.trans a.poison, tlb := b.tlb.trans a.tlb, ports := b.ports.trans a.ports
      seqs := b.seqs.trans a.seqs, stations := b.stations.trans a.stations, grids := b.grids.trans a.grids
      mgmt := ?_, cores := ?_, core := ?_, teams := ?_, groups := ?_, team := b.team.trans a.team }
  · intro o ho; rw [b.mgmt o (by rw [hf]; exact ho), a.mgmt o ho]
  · intro c hc; rw [b.cores c (by rw [hf]; exact hc), a.cores c hc]
  · rw [← hf, b.core, hf, a.core]
  · intro n hn; rw [← hf, b.teams n (by rw [hf]; exact hn), hf, a.teams n hn]
  · intro n hn; rw [← hf, b.groups n (by rw [hf]; exact hn), hf, a.groups n hn]

/-- A change of the own team that keeps all but its groups and its future table, and of the groups only the own one. -/
theorem State.elsewhere_modOwnTeam (s : State) (f : Team → Team)
    (hg : ∀ m n, n ≠ s.focus.group → sfind n (f m).groups = sfind n m.groups)
    (ht : ∀ m, { f m with groups := [], ftab := [] } = { m with groups := [], ftab := [] }) :
    s.Elsewhere (s.modOwnTeam f) := by
  refine { focus := rfl, ticks := rfl, dram := rfl, llc := rfl, poison := rfl, tlb := rfl, ports := rfl, seqs := rfl
           stations := rfl, grids := rfl, mgmt := fun _ _ => rfl, cores := ?_, core := ?_, teams := ?_, groups := ?_, team := ?_ }
  · intro c hc; exact State.core_modCore_ne _ _ hc
  · show { (s.modCore s.focus.core _).core s.focus.core with teams := [], fw := {}, slots := [] } = _
    rw [State.core_modCore_same]
    by_cases h8 : s.focus.team = 8 <;> simp [Core.modTeam, h8]
  · intro n hn; exact State.team?_modTeam_ne _ _ (by simpa using hn)
  · intro n hn
    show (s.modTeam s.focus.core s.focus.team f).group? _ _ n = _
    simp only [State.group?, State.team?_modTeam_same]
    cases s.team? s.focus.core s.focus.team <;> simp [hg _ n hn]
  · show { ((s.modTeam s.focus.core s.focus.team f).team? s.focus.core s.focus.team).getD {} with groups := [], ftab := [] } = _
    rw [State.team?_modTeam_same]
    simp only [State.ownTeam]
    cases s.team? s.focus.core s.focus.team with
    | none => rfl
    | some m => simpa using ht m

theorem State.elsewhere_modOwn (s : State) (f : Group → Group) : s.Elsewhere (s.modOwn f) :=
  s.elsewhere_modOwnTeam _ (fun m n hn => by simp [Team.modGroup, sfind_smod_ne f hn]) (fun m => rfl)

/-- The issue slots of the own core may change. -/
theorem State.elsewhere_setSlot (s : State) (n : Nat) (i : Core → IssueSlot) :
    s.Elsewhere (s.modCore s.focus.core (fun k => k.setSlot n (i k))) := by
  refine { focus := rfl, ticks := rfl, dram := rfl, llc := rfl, poison := rfl, tlb := rfl, ports := rfl, seqs := rfl
           stations := rfl, grids := rfl, mgmt := fun _ _ => rfl, cores := ?_, core := ?_, teams := ?_, groups := ?_, team := ?_ }
  · intro c hc; exact State.core_modCore_ne _ _ hc
  · show { (s.modCore s.focus.core _).core s.focus.core with teams := [], fw := {}, slots := [] } = _
    simp [Core.setSlot]
  · intro n hn; simp
  · intro n hn; simp
  · show { ((s.modCore s.focus.core _).team? s.focus.core s.focus.team).getD {} with groups := [], ftab := [] } = _
    simp [State.ownTeam]

@[simp] theorem State.reg_setReg (s : State) (o : Nat) (w : Word) : (s.setReg o w).reg o = w := by
  show (match sfind o (if w = ((mgmtReg o).getD {}).reset then sdel o s.mgmt else sins o w s.mgmt) with
    | some w => w
    | none => ((mgmtReg o).getD {}).reset) = w
  generalize ((mgmtReg o).getD {}).reset = d
  by_cases h : w = d <;> simp [h]

theorem State.reg_setReg_ne (s : State) {o q : Nat} (w : Word) (h : q ≠ o) : (s.setReg o w).reg q = s.reg q := by
  show (match sfind q (if w = ((mgmtReg o).getD {}).reset then sdel o s.mgmt else sins o w s.mgmt) with
    | some w => w
    | none => ((mgmtReg q).getD {}).reset) = match sfind q s.mgmt with
    | some w => w
    | none => ((mgmtReg q).getD {}).reset
  generalize ((mgmtReg o).getD {}).reset = d
  by_cases hw : w = d
  · simp only [hw, if_true, sfind_sdel_ne h]
  · simp only [hw, if_false, sfind_sins_ne h]

theorem mem_trapRegs (c : Nat) :
    offCore c + 0x300 ∈ trapRegs c ∧ offCore c + 0x310 ∈ trapRegs c ∧ offCore c + 0x318 ∈ trapRegs c
      ∧ offCore c + 0x320 ∈ trapRegs c ∧ offFe + 8 ∈ trapRegs c :=
  ⟨.head _, .tail _ (.head _), .tail _ (.tail _ (.head _)), .tail _ (.tail _ (.tail _ (.head _))),
    .tail _ (.tail _ (.tail _ (.tail _ (.head _))))⟩

/-- A register that a firmware trap may write. -/
theorem State.elsewhere_setReg (s : State) {o : Nat} (w : Word) (h : o ∈ trapRegs s.focus.core) :
    s.Elsewhere (s.setReg o w) := by
  refine { focus := rfl, ticks := rfl, dram := rfl, llc := rfl, poison := rfl, tlb := rfl, ports := rfl, seqs := rfl
           stations := rfl, grids := rfl, mgmt := ?_, cores := fun _ _ => rfl, core := rfl, teams := fun _ _ => rfl
           groups := fun _ _ => rfl, team := rfl }
  intro q hq
  exact State.reg_setReg_ne _ _ (fun e => hq (e ▸ h))

theorem State.Elsewhere.modOwn {s t : State} (h : s.Elsewhere t) (f : Group → Group) : s.Elsewhere (t.modOwn f) :=
  h.trans (t.elsewhere_modOwn f)

theorem State.Elsewhere.setReg {s t : State} (h : s.Elsewhere t) {o : Nat} (w : Word) (ho : o ∈ trapRegs s.focus.core) :
    s.Elsewhere (t.setReg o w) := h.trans (t.elsewhere_setReg w (by rw [h.focus]; exact ho))

/-- What no field of `Elsewhere` names may change. -/
theorem State.elsewhere_front (s : State) (a : List FaultRecord) (b : Sparse Nat) (c : List Service) (m : List Nat) (n : Nat) :
    s.Elsewhere { s with records := a, frSeq := b, services := c, msix := m, fresh := n } := by
  constructor <;> first | rfl | intros; rfl

theorem State.elsewhere_record (s : State) (r : Rec) (w : Option Serviced) : s.Elsewhere (s.record r w) :=
  s.elsewhere_front _ _ _ s.msix s.fresh

theorem State.elsewhere_agentFail (s : State) : s.Elsewhere s.agentFail := by
  unfold State.agentFail
  split
  · exact .refl s
  · exact (s.elsewhere_setReg _ (mem_trapRegs _).2.2.2.2).trans (State.elsewhere_front _ _ _ _ _ _)

theorem State.elsewhere_allocFuture {s : State} {e sc : Nat} {r : Option Nat} {sv : Bool} {h : Word} {t : State}
    (ha : s.allocFuture e r sc sv = some (h, t)) : s.Elsewhere t := by
  unfold State.allocFuture at ha
  split at ha
  · cases ha
  · dsimp only at ha
    next e0 es _ =>
    generalize hd : (if es = [] then ((0 : Word), s) else ((s.draw).1, (s.draw).2)) = d at ha
    have h1 : s.Elsewhere d.2 := by
      subst hd
      split
      · exact .refl s
      · exact s.elsewhere_front s.records s.frSeq s.services s.msix (s.fresh + 1)
    split at ha
    · injection ha with ha; injection ha with _ ha
      subst ha
      refine State.Elsewhere.modOwn (h1.trans (State.elsewhere_modOwnTeam _ _ ?_ ?_)) _
      · intro m n _; rfl
      · intro m; rfl
    · injection ha with ha; injection ha with _ ha
      subst ha
      refine h1.trans (State.elsewhere_modOwnTeam _ _ ?_ ?_)
      · intro m n _; rfl
      · intro m; rfl

/-! ## Traps (R48, R125, R405) -/

theorem State.elsewhere_fwTrap (s : State) (t : Trap) : s.Elsewhere (s.fwTrap t) := by
  unfold State.fwTrap
  dsimp only
  have h1 := s.elsewhere_modOwn (fun g => { g.unwait.dropLatches with count := 0, pathLoop := none, kept := [], recorded := [] })
  split
  · exact (h1.setReg _ (mem_trapRegs _).1).trans (State.elsewhere_agentFail _)
  · refine State.Elsewhere.modOwn (.setReg (.setReg (.setReg h1 _ ?_) _ ?_) _ ?_) _
    · exact (mem_trapRegs _).2.1
    · exact (mem_trapRegs _).2.2.1
    · exact (mem_trapRegs _).2.2.2.1

theorem State.elsewhere_stopTrap (s : State) (t : Trap) : s.Elsewhere (s.stopTrap t) :=
  (s.elsewhere_record _ _).trans (State.elsewhere_modOwn _ _)

/-- A precise trap changes its group, its records, the future table of its team, and the registers of the firmware slot. -/
theorem State.elsewhere_takeTrap (s : State) (t : Trap) : s.Elsewhere (s.takeTrap t) := by
  unfold State.takeTrap
  split
  · exact s.elsewhere_fwTrap t
  · split
    · split
      · next h ha =>
        exact ((State.elsewhere_allocFuture ha).trans (State.elsewhere_record _ _ _)).trans (State.elsewhere_modOwn _ _)
      · exact s.elsewhere_stopTrap t
    · exact s.elsewhere_stopTrap t

theorem State.elsewhere_reselect (s : State) : s.Elsewhere s.reselect := s.elsewhere_setSlot _ _

theorem State.elsewhere_trapWord (s : State) (act : Lanes) (sh : Shape) (t : Trap) : s.Elsewhere (s.trapWord act sh t) :=
  (s.elsewhere_takeTrap _).trans (State.elsewhere_reselect _)

/-! ## Switch points, retirement and waiting -/

theorem State.elsewhere_switchPoint (s : State) : s.Elsewhere s.switchPoint := by
  unfold State.switchPoint
  exact (s.elsewhere_modOwn _).trans (State.elsewhere_setSlot _ _ _)

theorem State.elsewhere_waitHere (s : State) : s.Elsewhere s.waitHere :=
  (s.elsewhere_modOwn _).trans (State.elsewhere_switchPoint _)

theorem State.elsewhere_blockHere (s : State) : s.Elsewhere s.blockHere :=
  (s.elsewhere_modOwn _).trans (State.elsewhere_waitHere _)

theorem State.elsewhere_pauseHere (s : State) : s.Elsewhere s.pauseHere :=
  (s.elsewhere_modOwn _).trans (State.elsewhere_reselect _)

theorem State.elsewhere_stallFor (s : State) (uses : List Use) : s.Elsewhere (s.stallFor uses) := by
  unfold State.stallFor
  split
  · exact .refl s
  · split
    · exact s.elsewhere_waitHere
    · exact s.elsewhere_pauseHere

theorem State.elsewhere_dropCapture (s : State) (n t g : Nat) (b : Option Nat) :
    s.Elsewhere (s.modCore s.focus.core (fun k => k.dropCapture n t g b)) := by
  refine { focus := rfl, ticks := rfl, dram := rfl, llc := rfl, poison := rfl, tlb := rfl, ports := rfl, seqs := rfl
           stations := rfl, grids := rfl, mgmt := fun _ _ => rfl, cores := ?_, core := ?_, teams := ?_, groups := ?_, team := ?_ }
  · intro c hc; exact State.core_modCore_ne _ _ hc
  · obtain ⟨l, hl⟩ := Core.dropCapture_slots (s.core s.focus.core) n t g b
    show { (s.modCore s.focus.core _).core s.focus.core with teams := [], fw := {}, slots := [] } = _
    simp [hl]
  · intro n hn; simp
  · intro n hn; simp
  · show { ((s.modCore s.focus.core _).team? s.focus.core s.focus.team).getD {} with groups := [], ftab := [] } = _
    simp [State.ownTeam]

theorem State.Elsewhere.endCapture {s t : State} (h : s.Elsewhere t) (old : Group) : s.Elsewhere (t.endCapture old) := by
  unfold State.endCapture
  split
  · exact h.trans (State.elsewhere_dropCapture _ _ _ _ _)
  · exact h

/-- A word that retires changes, beside its own effect, its group and the captures of its issue slot. -/
theorem State.elsewhere_finish {s : State} {sh : Shape} {f : Full} {r : Retire} (hr : s.Elsewhere r.s)
    (ha : ∀ u : State, u.Elsewhere (r.after u)) : s.Elsewhere (s.finish sh f r) := by
  unfold State.finish
  dsimp only
  split
  · exact (((State.Elsewhere.modOwn (.modOwn hr _) _).endCapture _).trans (ha _)).trans (State.elsewhere_switchPoint _)
  · exact ((State.Elsewhere.modOwn (.modOwn hr _) _).endCapture _).trans (ha _)

end Sys2Proof.Machine
end

