-- ==== Sys2Proof/Laws/Issue.lean ====
section
/-! SUPPORT. The fates of an issued word, one lemma each (R23, R79, R80, R91, R145): nobody issues, no lane is active, a check
fails, a scalar source is pending, a register is in flight, or the word's own effect is applied. -/

namespace Sys2Proof.Machine

open Sys2Proof

variable {sh : Shape} {f : Full} {s : State} {body : State → Lanes → Effect}

/-- No group issues: the one fault of a SIMT word. -/
theorem issue_noIssuer (h : s.own? = none) : issue sh f s body = .fault .noIssuer := by
  simp [issue, h]

theorem issue_some (h : s.own?.isSome = true) : issue sh f s body = .next (s.issueWord sh f body) := by
  obtain ⟨g, hg⟩ := Option.isSome_iff_exists.1 h
  simp [issue, hg]

/-- `issue` answers a next state exactly when a group issues. -/
theorem issue_next_iff {t : State} : issue sh f s body = .next t ↔ s.own?.isSome = true ∧ s.issueWord sh f body = t := by
  cases h : s.own? <;> simp [issue, h]

/-- R79: with no active lane a word is a no-operation that counts. -/
theorem issueWord_inactive (h : (s.modOwn Group.restore).own.activeFor f = 0) :
    s.issueWord sh f body = (s.modOwn Group.restore).retireNop f := by
  simp [State.issueWord, h]

/-- R80: a word that fails a check traps with no effect. -/
theorem issueWord_check {t : Trap} (ha : (s.modOwn Group.restore).own.activeFor f ≠ 0)
    (hc : sh.check f (s.modOwn Group.restore).ownTeam (s.modOwn Group.restore).focus.group (s.modOwn Group.restore).own
      = some t) :
    s.issueWord sh f body
      = (s.modOwn Group.restore).trapWord ((s.modOwn Group.restore).own.activeFor f) sh t := by
  simp only [State.issueWord, if_neg ha, hc]

/-- R23: a word that names a pending scalar register waits at its place. -/
theorem issueWord_pending (ha : (s.modOwn Group.restore).own.activeFor f ≠ 0)
    (hc : sh.check f (s.modOwn Group.restore).ownTeam (s.modOwn Group.restore).focus.group (s.modOwn Group.restore).own = none)
    (hp : sh.uses.any (fun u => u.isPending (s.modOwn Group.restore).own) = true) :
    s.issueWord sh f body = (s.modOwn Group.restore).blockHere := by
  simp only [State.issueWord, if_neg ha, hc, hp, if_true]

/-- A word that passes every check and that nothing blocks has its own effect. -/
theorem issueWord_effect (ha : (s.modOwn Group.restore).own.activeFor f ≠ 0)
    (hc : sh.check f (s.modOwn Group.restore).ownTeam (s.modOwn Group.restore).focus.group (s.modOwn Group.restore).own = none)
    (hp : sh.uses.any (fun u => u.isPending (s.modOwn Group.restore).own) = false)
    (hi : sh.uses.any (fun u => u.inFlight (s.modOwn Group.restore).own) = false)
    (hu : sh.heldUp (s.modOwn Group.restore).own = false) :
    s.issueWord sh f body = (s.modOwn Group.restore).apply sh f ((s.modOwn Group.restore).own.activeFor f)
      (body (s.modOwn Group.restore) ((s.modOwn Group.restore).own.activeFor f)) := by
  simp only [State.issueWord, if_neg ha, hc, hp, hi, hu, Bool.false_eq_true, if_false]

/-- The same, for a word whose effect is to retire. -/
theorem issue_retires {r : Retire} (hg : s.own?.isSome = true)
    (ha : (s.modOwn Group.restore).own.activeFor f ≠ 0)
    (hc : sh.check f (s.modOwn Group.restore).ownTeam (s.modOwn Group.restore).focus.group (s.modOwn Group.restore).own = none)
    (hp : sh.uses.any (fun u => u.isPending (s.modOwn Group.restore).own) = false)
    (hi : sh.uses.any (fun u => u.inFlight (s.modOwn Group.restore).own) = false)
    (hu : sh.heldUp (s.modOwn Group.restore).own = false)
    (hb : body (s.modOwn Group.restore) ((s.modOwn Group.restore).own.activeFor f) = .retire r) :
    issue sh f s body = .next ((s.modOwn Group.restore).finish sh f r) := by
  rw [issue_some hg, issueWord_effect ha hc hp hi hu, hb]
  rfl

/-! ## What a computation can do -/

/-- A computation reads a poisoned source and traps, or retires. -/
theorem compute_poisoned {act : Lanes} {fn : Nat → List Word → LaneOut} {t : Trap} (h : s.poisonTrap sh.srcs act = some t) :
    s.compute sh fn act = .trap t := by
  simp [State.compute, h]

/-- R167: the retirement of a computation leaves the state alone, but for its results, flags and predicates. -/
theorem compute_retires_state {act : Lanes} {fn : Nat → List Word → LaneOut} {r : Retire}
    (h : s.compute sh fn act = .retire r) :
    r.s = s ∧ r.target = none ∧ r.hold = 0 ∧ s.poisonTrap sh.srcs act = none := by
  unfold State.compute at h
  split at h
  · cases h
  · cases h
    exact ⟨rfl, rfl, rfl, by assumption⟩

end Sys2Proof.Machine
end

