-- ==== Sys2Proof/Laws/Lanes.lean ====
section
/-! SUPPORT. Sets of lanes: membership, the lanes of a set, the active lanes of a word (R12, R79). -/

namespace Sys2Proof.Machine

open Sys2Proof

/-- The number whose bits below `n` say where `p` holds. -/
def bitsWhere (p : Nat → Bool) (n : Nat) : Nat := (List.range n).foldl (fun acc l => if p l then acc + 2 ^ l else acc) 0

theorem bitsWhere_succ (p : Nat → Bool) (n : Nat) :
    bitsWhere p (n + 1) = if p n then bitsWhere p n + 2 ^ n else bitsWhere p n := by
  simp [bitsWhere, List.range_succ]

theorem bitsWhere_lt (p : Nat → Bool) (n : Nat) : bitsWhere p n < 2 ^ n := by
  induction n with
  | zero => simp [bitsWhere]
  | succ n ih =>
    rw [bitsWhere_succ, Nat.pow_succ]
    split <;> omega

theorem testBit_bitsWhere (p : Nat → Bool) (n l : Nat) : (bitsWhere p n).testBit l = (decide (l < n) && p l) := by
  induction n with
  | zero => simp [bitsWhere]
  | succ n ih =>
    have hlt := bitsWhere_lt p n
    rw [bitsWhere_succ]
    by_cases hn : l = n
    · subst hn
      have h0 : (bitsWhere p l).testBit l = false := Nat.testBit_lt_two_pow hlt
      cases hp : p l
      · simp [h0]
      · simp only [if_true]
        rw [Nat.add_comm, Nat.testBit_two_pow_add_eq, h0]
        simp
    · cases hp : p n
      · simp only [Bool.false_eq_true, if_false, ih]
        have : decide (l < n + 1) = decide (l < n) := decide_eq_decide.2 (by omega)
        rw [this]
      · simp only [if_true]
        by_cases hl : l < n
        · rw [Nat.add_comm, Nat.testBit_two_pow_add_gt hl, ih]
          simp [hl, show l < n + 1 by omega]
        · have : bitsWhere p n + 2 ^ n < 2 ^ l := by
            have := Nat.pow_le_pow_right (show 0 < 2 by decide) (show n + 1 ≤ l by omega)
            rw [Nat.pow_succ] at this
            omega
          rw [Nat.testBit_lt_two_pow this]
          simp [show ¬ l < n + 1 by omega]

/-- A lane is in the set of the lanes that satisfy a condition when it does. -/
theorem getLsbD_lanesWhere (p : Nat → Bool) (l : Nat) : (lanesWhere p).getLsbD l = (decide (l < 32) && p l) := by
  show (BitVec.ofNat 32 (bitsWhere p 32)).getLsbD l = _
  rw [BitVec.getLsbD_ofNat, testBit_bitsWhere]
  by_cases h : l < 32 <;> simp [h]

theorem mem_lanesOf {m : Lanes} {l : Nat} : l ∈ lanesOf m ↔ l < 32 ∧ m.getLsbD l = true := by
  simp [lanesOf, List.mem_filter]

theorem lowest_lt (m : Lanes) : lowest m < 32 := by
  unfold lowest
  cases h : lanesOf m with
  | nil => simp
  | cons a l =>
    have : a ∈ lanesOf m := by rw [h]; exact List.mem_cons_self ..
    simpa using (List.mem_filter.1 this).1

/-- Two sets with the same lanes are equal. -/
theorem lanes_ext {a b : Lanes} (h : ∀ l, l < 32 → a.getLsbD l = b.getLsbD l) : a = b :=
  BitVec.eq_of_getLsbD_eq h

/-- R79: a lane of the current path is active when the word's predicate, inverted when PN = 1, is true. -/
theorem Group.getLsbD_activeFor (g : Group) (f : Full) (l : Nat) :
    (g.activeFor f).getLsbD l = (decide (l < 32) && (g.cur.getLsbD l && (g.p l f.pred.toNat != f.pn))) :=
  getLsbD_lanesWhere _ l

theorem lowest_mem {m : Lanes} (h : m ≠ 0) : m.getLsbD (lowest m) = true := by
  unfold lowest
  cases hl : lanesOf m with
  | nil =>
    refine absurd (lanes_ext (fun l h32 => ?_)) h
    cases hb : m.getLsbD l
    · simp
    · have : l ∈ lanesOf m := mem_lanesOf.2 ⟨h32, hb⟩
      rw [hl] at this; cases this
  | cons a r =>
    have : a ∈ lanesOf m := by rw [hl]; exact List.mem_cons_self ..
    simpa using (mem_lanesOf.1 this).2

end Sys2Proof.Machine
end

