-- ==== Sys2Proof/Laws/Memory.lean ====
section
/-! SUPPORT. Every operation over the package's memory and over a scratchpad keeps the canonical form of the bytes it
holds: the DRAM copy, the lines of the LLC, the scratchpad of a team. -/

namespace Sys2Proof.Machine

open Sys2Proof

/-- The DRAM copy and every LLC line are canonical. -/
def State.memWf (s : State) : Prop := s.dram.wf = true ∧ ∀ e ∈ s.llc, e.2.bytes.wf = true

theorem State.memWf_reset : State.reset.memWf := ⟨rfl, fun e he => absurd he (by simp [State.reset])⟩

/-! ## Lists of the form of `Sparse` -/

theorem mem_sins {α : Type} {k : Nat} {v : α} {e : Nat × α} :
    ∀ {m : Sparse α}, e ∈ sins k v m → e = (k, v) ∨ e ∈ m
  | [], h => by simpa [sins] using h
  | (j, w) :: m, h => by
    simp only [sins] at h
    split at h
    · rcases List.mem_cons.1 h with h | h
      · exact .inr (List.mem_cons.2 (.inl h))
      · exact (mem_sins h).imp id (fun h => List.mem_cons.2 (.inr h))
    · split at h
      · rcases List.mem_cons.1 h with h | h
        · exact .inl h
        · exact .inr (List.mem_cons.2 (.inr h))
      · rcases List.mem_cons.1 h with h | h
        · exact .inl h
        · exact .inr h

theorem mem_sdel {α : Type} {k : Nat} {e : Nat × α} {m : Sparse α} (h : e ∈ sdel k m) : e ∈ m :=
  (List.mem_filter.1 h).1

theorem mem_smod {α : Type} {k : Nat} {f : α → α} {e : Nat × α} :
    ∀ {m : Sparse α}, e ∈ smod k f m → e ∈ m ∨ ∃ v, (k, v) ∈ m ∧ e = (k, f v)
  | [], h => .inl h
  | (j, w) :: m, h => by
    simp only [smod] at h
    split at h
    · next hj =>
      subst hj
      rcases List.mem_cons.1 h with h | h
      · exact .inr ⟨w, List.mem_cons.2 (.inl rfl), h⟩
      · exact .inl (List.mem_cons.2 (.inr h))
    · rcases List.mem_cons.1 h with h | h
      · exact .inl (List.mem_cons.2 (.inl h))
      · exact (mem_smod h).imp (fun h => List.mem_cons.2 (.inr h))
          (fun ⟨v, hv, he⟩ => ⟨v, List.mem_cons.2 (.inr hv), he⟩)

theorem mem_of_sfind {α : Type} {k : Nat} {v : α} : ∀ {m : Sparse α}, sfind k m = some v → (k, v) ∈ m
  | [], h => by simp [sfind] at h
  | (j, w) :: m, h => by
    simp only [sfind] at h
    split at h
    · next hj => subst hj; cases h; exact List.mem_cons.2 (.inl rfl)
    · exact List.mem_cons.2 (.inr (mem_of_sfind h))

/-! ## A line of DRAM -/

theorem rising_line (ln : Nat) :
    ∀ {lo : Nat} {m : Memory}, Sparse.rising lo m = true → m.all (fun c => c.2 != 0#8) = true →
      Sparse.rising (if lo / 128 = ln then lo % 128 else 0)
          (m.filterMap (fun c => if c.1 / 128 = ln then some (c.1 % 128, c.2) else none)) = true
        ∧ (m.filterMap (fun c => if c.1 / 128 = ln then some (c.1 % 128, c.2) else none)).all
            (fun c => c.2 != 0#8) = true
  | _, [], _, _ => ⟨rfl, rfl⟩
  | lo, (j, w) :: m, h, ha => by
    simp only [Sparse.rising, Bool.and_eq_true, decide_eq_true_eq] at h
    simp only [List.all_cons, Bool.and_eq_true] at ha
    have ih := rising_line ln h.2 ha.2
    rw [List.filterMap_cons]
    by_cases hj : j / 128 = ln
    · simp only [if_pos hj]
      refine ⟨?_, by simp only [List.all_cons, Bool.and_eq_true]; exact ⟨ha.1, ih.2⟩⟩
      simp only [Sparse.rising, Bool.and_eq_true, decide_eq_true_eq]
      refine ⟨by split <;> omega, ?_⟩
      by_cases hj1 : (j + 1) / 128 = ln
      · rw [if_pos hj1] at ih
        exact rising_mono (by omega) ih.1
      · have hn : m.filterMap (fun c => if c.1 / 128 = ln then some (c.1 % 128, c.2) else none) = [] := by
          rw [List.filterMap_eq_nil_iff]
          intro c hc
          have : j + 1 ≤ c.1 := rising_le h.2 hc
          rw [if_neg (by omega)]
        rw [hn]; rfl
    · simp only [if_neg hj]
      refine ⟨?_, ih.2⟩
      by_cases hl : lo / 128 = ln
      · have hn : m.filterMap (fun c => if c.1 / 128 = ln then some (c.1 % 128, c.2) else none) = [] := by
          rw [List.filterMap_eq_nil_iff]
          intro c hc
          have : j + 1 ≤ c.1 := rising_le h.2 hc
          rw [if_neg (by omega)]
        rw [hn]; rfl
      · rw [if_neg hl]
        exact rising_mono (Nat.zero_le _) ih.1
where
  rising_le {lo : Nat} {c : Nat × Byte} : ∀ {m : Memory}, Sparse.rising lo m = true → c ∈ m → lo ≤ c.1
    | [], _, hc => absurd hc (by simp)
    | (j, w) :: m, h, hc => by
      simp only [Sparse.rising, Bool.and_eq_true, decide_eq_true_eq] at h
      rcases List.mem_cons.1 hc with rfl | hc
      · exact h.1
      · have := rising_le (m := m) h.2 hc; omega

theorem State.dramLine_wf {s : State} (ln : Nat) (h : s.dram.wf = true) : (s.dramLine ln).bytes.wf = true := by
  have h0 := h
  simp only [Memory.wf, Bool.and_eq_true] at h0
  have h1 := rising_line ln h0.1 h0.2
  have h2 := rising_mono (Nat.zero_le _) h1.1
  have h3 := h1.2
  show Memory.wf (s.dram.filterMap _) = true
  simp only [Memory.wf, Bool.and_eq_true]
  exact ⟨h2, h3⟩

/-! ## Operations over the package's memory -/

/-- A write-back keeps memory canonical. -/
theorem State.writeBack_memWf {s : State} (ln : Nat) (h : s.memWf) : (s.writeBack ln).memWf := by
  unfold State.writeBack
  split
  · next l hl =>
    split
    · have h1 : Memory.wf ((List.range 128).foldl (fun m i => m.setByte (128 * ln + i) (l.bytes.byte i)) s.dram) = true := by
        have := Memory.wf_foldl_setByte ((List.range 128).map (fun i => (128 * ln + i, l.bytes.byte i))) h.1
        rwa [List.foldl_map] at this
      refine ⟨h1, fun e he => ?_⟩
      rcases mem_sins he with rfl | he
      · exact h.2 (ln, l) (mem_of_sfind hl)
      · exact h.2 e he
    · exact h
  · exact h

theorem State.dropLine_memWf {s : State} (ln : Nat) (h : s.memWf) : (s.dropLine ln).memWf :=
  ⟨h.1, fun e he => h.2 e (mem_sdel he)⟩

/-- An eviction keeps memory canonical. -/
theorem State.evictLine_memWf {s : State} (ln : Nat) (h : s.memWf) : (s.evictLine ln).memWf :=
  State.dropLine_memWf ln (State.writeBack_memWf ln h)

/-- Choosing a line draws a free value at most. -/
theorem State.victim_memWf {s : State} (keys : List Nat) (room : Nat) (h : s.memWf) : (s.victim keys room).1.memWf := by
  unfold State.victim
  split <;> exact h

/-- Making room in a slice keeps memory canonical. -/
theorem State.sliceRoom_memWf {s : State} (ln : Nat) (h : s.memWf) : (s.sliceRoom ln).memWf := by
  unfold State.sliceRoom
  split
  · exact h
  · dsimp only
    split
    · exact State.evictLine_memWf _ (State.victim_memWf _ _ h)
    · exact State.victim_memWf _ _ h

theorem State.allocLine_memWf {s : State} (ln : Nat) (first : Bool) (h : s.memWf) : (s.allocLine ln first).memWf := by
  unfold State.allocLine
  split
  · next l hl =>
    split
    · refine ⟨h.1, fun e he => ?_⟩
      rcases mem_sins he with rfl | he
      · exact h.2 (ln, l) (mem_of_sfind hl)
      · exact h.2 e he
    · exact h
  · have h1 := State.sliceRoom_memWf ln h
    refine ⟨h1.1, fun e he => ?_⟩
    rcases mem_sins he with rfl | he
    · exact State.dramLine_wf ln h1.1
    · exact h1.2 e he

theorem State.poisonDram_memWf {s : State} (g : Nat) (p : Bool) (h : s.memWf) : (s.poisonDram g p).memWf := h

theorem State.pokeLine_memWf {s : State} (uc first : Bool) (ln : Nat) (bs : List (Nat × Byte)) (half : Nat → Option Bool)
    (h : s.memWf) : (s.pokeLine uc first ln bs half).memWf := by
  unfold State.pokeLine
  split
  · have h1 : State.memWf { s with dram := bs.foldl (fun m e => m.setByte e.1 e.2) s.dram } :=
      ⟨Memory.wf_foldl_setByte bs h.1, h.2⟩
    simp only [List.foldl_cons, List.foldl_nil]
    split <;> split <;> exact h1
  · have h1 := State.allocLine_memWf ln first h
    refine ⟨h1.1, fun e he => ?_⟩
    rcases mem_smod he with he | ⟨v, hv, rfl⟩
    · exact h1.2 e he
    · show Memory.wf (bs.foldl (fun m e => m.setByte (e.1 % 128) e.2) v.bytes) = true
      have := Memory.wf_foldl_setByte (bs.map (fun e => (e.1 % 128, e.2))) (h1.2 _ hv)
      rwa [List.foldl_map] at this

/-- A write of bytes keeps memory canonical. -/
theorem State.poke_memWf {s : State} (uc first : Bool) (bs : List (Nat × Byte)) (poison : List Nat) (h : s.memWf) :
    (s.poke uc first bs poison).memWf := by
  unfold State.poke
  generalize (bs.map (fun e => e.1 / 128)).eraseDups = lines
  dsimp only
  induction lines generalizing s with
  | nil => exact h
  | cons ln lines ih => exact ih (State.pokeLine_memWf _ first ln _ _ h)

/-! ## Scratchpad -/

/-- A scratchpad write keeps the scratchpad canonical. -/
theorem Team.spWrite_wf {m : Team} (bs : List (Nat × Byte)) (poison : List Nat) (h : m.scratch.wf = true) :
    (m.spWrite bs poison).scratch.wf = true :=
  Memory.wf_foldl_setByte bs h

theorem Team.spPut_wf {m : Team} (a : Nat) (bs : List Byte) (poison : Bool) (h : m.scratch.wf = true) :
    (m.spPut a bs poison).scratch.wf = true :=
  Team.spWrite_wf _ _ h

/-! ## A word placed for the next step -/

theorem State.withFetchWord_dram {m : Memory} (a w : Nat) (h : m.wf = true) : (m.write a (bytesOfNat 8 w)).wf = true :=
  Memory.wf_write _ a h

end Sys2Proof.Machine
end

