-- ==== Sys2Proof/Laws/PerInstr.lean ====
section
/-! SUPPORT. R68, R72: bit 63 tells a paired word from a full-form word, one lemma for each constructor. -/

namespace Sys2Proof.Laws.FormatBit

open Sys2Proof

/-- Bit 63 of the SIMT word of an instruction is 1 when the instruction is a paired word, and 0 otherwise (R68, R72). -/
def Statement (i : Instr) : Prop :=
  ∀ w, encode i = some w → i.isSeqWord = false → (w.getLsbD 63 = true ↔ ∃ p, i = .pairedWord p)

theorem ofFull {i : Instr} {op : BitVec 8} {f : Full} (h : encode i = some (f.toWord op)) (hp : ∀ p, i ≠ .pairedWord p) :
    Statement i := by
  intro w hw _
  rw [h] at hw
  obtain rfl := Option.some.inj hw
  constructor
  · intro hb
    rw [Full.format_toWord] at hb
    cases hb
  · rintro ⟨p, hi⟩
    exact absurd hi (hp p)

theorem ofSeq {i : Instr} (h : i.isSeqWord = true) : Statement i := fun _ _ h0 => absurd h (by simp [h0])

theorem ofEvent {i : Instr} (h : encode i = none) : Statement i := fun _ hw => absurd hw (by simp [h])

theorem nop (f : Full) : Statement (.nop f) := ofFull rfl nofun

theorem yield (f : Full) : Statement (.yield f) := ofFull rfl nofun

theorem loop (f : Full) : Statement (.loop f) := ofFull rfl nofun

theorem ifence (f : Full) : Statement (.ifence f) := ofFull rfl nofun

theorem pairedWord (p : Paired) : Statement (.pairedWord p) := by
  intro w hw _
  obtain rfl := Option.some.inj hw
  exact ⟨fun _ => ⟨p, rfl⟩, fun _ => Paired.format_toWord p⟩

theorem bra (f : Full) : Statement (.bra f) := ofFull rfl nofun

theorem brx (f : Full) : Statement (.brx f) := ofFull rfl nofun

theorem call (f : Full) : Statement (.call f) := ofFull rfl nofun

theorem ret (f : Full) : Statement (.ret f) := ofFull rfl nofun

theorem join (f : Full) : Statement (.join f) := ofFull rfl nofun

theorem meet (f : Full) : Statement (.meet f) := ofFull rfl nofun

theorem exit (f : Full) : Statement (.exit f) := ofFull rfl nofun

theorem pset (f : Full) : Statement (.pset f) := ofFull rfl nofun

theorem psetf (f : Full) : Statement (.psetf f) := ofFull rfl nofun

theorem plop (f : Full) : Statement (.plop f) := ofFull rfl nofun

theorem pmovGet (f : Full) : Statement (.pmovGet f) := ofFull rfl nofun

theorem pmovSet (f : Full) : Statement (.pmovSet f) := ofFull rfl nofun

theorem vote (f : Full) : Statement (.vote f) := ofFull rfl nofun

theorem kmovGet (f : Full) : Statement (.kmovGet f) := ofFull rfl nofun

theorem kmovSet (f : Full) : Statement (.kmovSet f) := ofFull rfl nofun

theorem ftest (f : Full) : Statement (.ftest f) := ofFull rfl nofun

theorem ftestH (f : Full) : Statement (.ftestH f) := ofFull rfl nofun

theorem fwait (f : Full) : Statement (.fwait f) := ofFull rfl nofun

theorem fwaitH (f : Full) : Statement (.fwaitH f) := ofFull rfl nofun

theorem fwaitAll (f : Full) : Statement (.fwaitAll f) := ofFull rfl nofun

theorem fcancel (f : Full) : Statement (.fcancel f) := ofFull rfl nofun

theorem fmovMove (f : Full) : Statement (.fmovMove f) := ofFull rfl nofun

theorem fmovExport (f : Full) : Statement (.fmovExport f) := ofFull rfl nofun

theorem fmovImport (f : Full) : Statement (.fmovImport f) := ofFull rfl nofun

theorem tbar (f : Full) : Statement (.tbar f) := ofFull rfl nofun

theorem tbarArr (f : Full) : Statement (.tbarArr f) := ofFull rfl nofun

theorem srd (f : Full) : Statement (.srd f) := ofFull rfl nofun

theorem swr (f : Full) : Statement (.swr f) := ofFull rfl nofun

theorem trap (f : Full) : Statement (.trap f) := ofFull rfl nofun

theorem bkpt (f : Full) : Statement (.bkpt f) := ofFull rfl nofun

theorem fresume (f : Full) : Statement (.fresume f) := ofFull rfl nofun

theorem add (f : Full) : Statement (.add f) := ofFull rfl nofun

theorem sub (f : Full) : Statement (.sub f) := ofFull rfl nofun

theorem addc (f : Full) : Statement (.addc f) := ofFull rfl nofun

theorem subb (f : Full) : Statement (.subb f) := ofFull rfl nofun

theorem mul (f : Full) : Statement (.mul f) := ofFull rfl nofun

theorem mulh (f : Full) : Statement (.mulh f) := ofFull rfl nofun

theorem mad (f : Full) : Statement (.mad f) := ofFull rfl nofun

theorem madw (f : Full) : Statement (.madw f) := ofFull rfl nofun

theorem min (f : Full) : Statement (.min f) := ofFull rfl nofun

theorem max (f : Full) : Statement (.max f) := ofFull rfl nofun

theorem abs (f : Full) : Statement (.abs f) := ofFull rfl nofun

theorem sad (f : Full) : Statement (.sad f) := ofFull rfl nofun

theorem and (f : Full) : Statement (.and f) := ofFull rfl nofun

theorem or (f : Full) : Statement (.or f) := ofFull rfl nofun

theorem xor (f : Full) : Statement (.xor f) := ofFull rfl nofun

theorem andn (f : Full) : Statement (.andn f) := ofFull rfl nofun

theorem shl (f : Full) : Statement (.shl f) := ofFull rfl nofun

theorem shr (f : Full) : Statement (.shr f) := ofFull rfl nofun

theorem sar (f : Full) : Statement (.sar f) := ofFull rfl nofun

theorem fshf (f : Full) : Statement (.fshf f) := ofFull rfl nofun

theorem bfx (f : Full) : Statement (.bfx f) := ofFull rfl nofun

theorem bfi (f : Full) : Statement (.bfi f) := ofFull rfl nofun

theorem popc (f : Full) : Statement (.popc f) := ofFull rfl nofun

theorem clz (f : Full) : Statement (.clz f) := ofFull rfl nofun

theorem brev (f : Full) : Statement (.brev f) := ofFull rfl nofun

theorem sel (f : Full) : Statement (.sel f) := ofFull rfl nofun

theorem lea (f : Full) : Statement (.lea f) := ofFull rfl nofun

theorem addx (f : Full) : Statement (.addx f) := ofFull rfl nofun

theorem mov (f : Full) : Statement (.mov f) := ofFull rfl nofun

theorem movw (f : Full) : Statement (.movw f) := ofFull rfl nofun

theorem ext (f : Full) : Statement (.ext f) := ofFull rfl nofun

theorem fadd (f : Full) : Statement (.fadd f) := ofFull rfl nofun

theorem fsub (f : Full) : Statement (.fsub f) := ofFull rfl nofun

theorem fmul (f : Full) : Statement (.fmul f) := ofFull rfl nofun

theorem ffma (f : Full) : Statement (.ffma f) := ofFull rfl nofun

theorem fmin (f : Full) : Statement (.fmin f) := ofFull rfl nofun

theorem fmax (f : Full) : Statement (.fmax f) := ofFull rfl nofun

theorem frcp (f : Full) : Statement (.frcp f) := ofFull rfl nofun

theorem frsq (f : Full) : Statement (.frsq f) := ofFull rfl nofun

theorem fsqrt (f : Full) : Statement (.fsqrt f) := ofFull rfl nofun

theorem fexp2 (f : Full) : Statement (.fexp2 f) := ofFull rfl nofun

theorem flog2 (f : Full) : Statement (.flog2 f) := ofFull rfl nofun

theorem fdiv (f : Full) : Statement (.fdiv f) := ofFull rfl nofun

theorem fclass (f : Full) : Statement (.fclass f) := ofFull rfl nofun

theorem fdot2 (f : Full) : Statement (.fdot2 f) := ofFull rfl nofun

theorem cadd (f : Full) : Statement (.cadd f) := ofFull rfl nofun

theorem fstat (f : Full) : Statement (.fstat f) := ofFull rfl nofun

theorem shfl (f : Full) : Statement (.shfl f) := ofFull rfl nofun

theorem bcast (f : Full) : Statement (.bcast f) := ofFull rfl nofun

theorem ballot (f : Full) : Statement (.ballot f) := ofFull rfl nofun

theorem scan (f : Full) : Statement (.scan f) := ofFull rfl nofun

theorem redux (f : Full) : Statement (.redux f) := ofFull rfl nofun

theorem matchLanes (f : Full) : Statement (.matchLanes f) := ofFull rfl nofun

theorem hist (f : Full) : Statement (.hist f) := ofFull rfl nofun

theorem pack (f : Full) : Statement (.pack f) := ofFull rfl nofun

theorem cvt (f : Full) : Statement (.cvt f) := ofFull rfl nofun

theorem cvts (f : Full) : Statement (.cvts f) := ofFull rfl nofun

theorem qblk (f : Full) : Statement (.qblk f) := ofFull rfl nofun

theorem dqblk (f : Full) : Statement (.dqblk f) := ofFull rfl nofun

theorem ppq (f : Full) : Statement (.ppq f) := ofFull rfl nofun

theorem ppdq (f : Full) : Statement (.ppdq f) := ofFull rfl nofun

theorem osplit (f : Full) : Statement (.osplit f) := ofFull rfl nofun

theorem efq (f : Full) : Statement (.efq f) := ofFull rfl nofun

theorem iqs (f : Full) : Statement (.iqs f) := ofFull rfl nofun

theorem idqs (f : Full) : Statement (.idqs f) := ofFull rfl nofun

theorem fscale (f : Full) : Statement (.fscale f) := ofFull rfl nofun

theorem fexpo (f : Full) : Statement (.fexpo f) := ofFull rfl nofun

theorem nfchk (f : Full) : Statement (.nfchk f) := ofFull rfl nofun

theorem rmuln (f : Full) : Statement (.rmuln f) := ofFull rfl nofun

theorem umuln (f : Full) : Statement (.umuln f) := ofFull rfl nofun

theorem rshr (f : Full) : Statement (.rshr f) := ofFull rfl nofun

theorem ushr (f : Full) : Statement (.ushr f) := ofFull rfl nofun

theorem radd (f : Full) : Statement (.radd f) := ofFull rfl nofun

theorem uadd (f : Full) : Statement (.uadd f) := ofFull rfl nofun

theorem rmad (f : Full) : Statement (.rmad f) := ofFull rfl nofun

theorem umad (f : Full) : Statement (.umad f) := ofFull rfl nofun

theorem rlrel (f : Full) : Statement (.rlrel f) := ofFull rfl nofun

theorem ulrel (f : Full) : Statement (.ulrel f) := ofFull rfl nofun

theorem rnarr (f : Full) : Statement (.rnarr f) := ofFull rfl nofun

theorem unarr (f : Full) : Statement (.unarr f) := ofFull rfl nofun

theorem rmark (f : Full) : Statement (.rmark f) := ofFull rfl nofun

theorem umark (f : Full) : Statement (.umark f) := ofFull rfl nofun

theorem ld (f : Full) : Statement (.ld f) := ofFull rfl nofun

theorem st (f : Full) : Statement (.st f) := ofFull rfl nofun

theorem lds (f : Full) : Statement (.lds f) := ofFull rfl nofun

theorem sts (f : Full) : Statement (.sts f) := ofFull rfl nofun

theorem ldv (f : Full) : Statement (.ldv f) := ofFull rfl nofun

theorem stv (f : Full) : Statement (.stv f) := ofFull rfl nofun

theorem prefL1 (f : Full) : Statement (.prefL1 f) := ofFull rfl nofun

theorem prefLlc (f : Full) : Statement (.prefLlc f) := ofFull rfl nofun

theorem disc (f : Full) : Statement (.disc f) := ofFull rfl nofun

theorem flushWb (f : Full) : Statement (.flushWb f) := ofFull rfl nofun

theorem flushInv (f : Full) : Statement (.flushInv f) := ofFull rfl nofun

theorem flushL1 (f : Full) : Statement (.flushL1 f) := ofFull rfl nofun

theorem atom (f : Full) : Statement (.atom f) := ofFull rfl nofun

theorem cas (f : Full) : Statement (.cas f) := ofFull rfl nofun

theorem atoms (f : Full) : Statement (.atoms f) := ofFull rfl nofun

theorem red (f : Full) : Statement (.red f) := ofFull rfl nofun

theorem fenceAcq (f : Full) : Statement (.fenceAcq f) := ofFull rfl nofun

theorem fenceRel (f : Full) : Statement (.fenceRel f) := ofFull rfl nofun

theorem fenceFull (f : Full) : Statement (.fenceFull f) := ofFull rfl nofun

theorem fenceL1inv (f : Full) : Statement (.fenceL1inv f) := ofFull rfl nofun

theorem mwait (f : Full) : Statement (.mwait f) := ofFull rfl nofun

theorem sld (f : Full) : Statement (.sld f) := ofFull rfl nofun

theorem sst (f : Full) : Statement (.sst f) := ofFull rfl nofun

theorem hcopy (f : Full) : Statement (.hcopy f) := ofFull rfl nofun

theorem htile (f : Full) : Statement (.htile f) := ofFull rfl nofun

theorem hfill (f : Full) : Statement (.hfill f) := ofFull rfl nofun

theorem hgather (f : Full) : Statement (.hgather f) := ofFull rfl nofun

theorem hscatter (f : Full) : Statement (.hscatter f) := ofFull rfl nofun

theorem hstat (f : Full) : Statement (.hstat f) := ofFull rfl nofun

theorem binit (f : Full) : Statement (.binit f) := ofFull rfl nofun

theorem barrive (f : Full) : Statement (.barrive f) := ofFull rfl nofun

theorem bexpect (f : Full) : Statement (.bexpect f) := ofFull rfl nofun

theorem bexpectArr (f : Full) : Statement (.bexpectArr f) := ofFull rfl nofun

theorem bwait (f : Full) : Statement (.bwait f) := ofFull rfl nofun

theorem btry (f : Full) : Statement (.btry f) := ofFull rfl nofun

theorem bcont (f : Full) : Statement (.bcont f) := ofFull rfl nofun

theorem btrig (f : Full) : Statement (.btrig f) := ofFull rfl nofun

theorem mldw (f : Full) : Statement (.mldw f) := ofFull rfl nofun

theorem mswap (f : Full) : Statement (.mswap f) := ofFull rfl nofun

theorem mstream (f : Full) : Statement (.mstream f) := ofFull rfl nofun

theorem mrdy (f : Full) : Statement (.mrdy f) := ofFull rfl nofun

theorem mdrain (f : Full) : Statement (.mdrain f) := ofFull rfl nofun

theorem mapply (f : Full) : Statement (.mapply f) := ofFull rfl nofun

theorem mzero (f : Full) : Statement (.mzero f) := ofFull rfl nofun

theorem mcfg (f : Full) : Statement (.mcfg f) := ofFull rfl nofun

theorem mscale (f : Full) : Statement (.mscale f) := ofFull rfl nofun

theorem mdmap (f : Full) : Statement (.mdmap f) := ofFull rfl nofun

theorem mstat (f : Full) : Statement (.mstat f) := ofFull rfl nofun

theorem taga (f : Full) : Statement (.taga f) := ofFull rfl nofun

theorem tagf (f : Full) : Statement (.tagf f) := ofFull rfl nofun

theorem ksend (f : Full) : Statement (.ksend f) := ofFull rfl nofun

theorem ksends (f : Full) : Statement (.ksends f) := ofFull rfl nofun

theorem kstat (f : Full) : Statement (.kstat f) := ofFull rfl nofun

theorem kstatCtr (f : Full) : Statement (.kstatCtr f) := ofFull rfl nofun

theorem kcfgDest (f : Full) : Statement (.kcfgDest f) := ofFull rfl nofun

theorem kcfgTmo (f : Full) : Statement (.kcfgTmo f) := ofFull rfl nofun

theorem kcfgOvf (f : Full) : Statement (.kcfgOvf f) := ofFull rfl nofun

theorem fetch (f : Full) : Statement (.fetch f) := ofFull rfl nofun

theorem tdone (f : Full) : Statement (.tdone f) := ofFull rfl nofun

theorem gcfgTarget (f : Full) : Statement (.gcfgTarget f) := ofFull rfl nofun

theorem gcfgRung (f : Full) : Statement (.gcfgRung f) := ofFull rfl nofun

theorem gcfgProbe (f : Full) : Statement (.gcfgProbe f) := ofFull rfl nofun

theorem gstat (f : Full) : Statement (.gstat f) := ofFull rfl nofun

theorem gfill (f : Full) : Statement (.gfill f) := ofFull rfl nofun

theorem qloadx (f : Full) : Statement (.qloadx f) := ofFull rfl nofun

theorem qgemv (f : Full) : Statement (.qgemv f) := ofFull rfl nofun

theorem qfenceW (f : Full) : Statement (.qfenceW f) := ofFull rfl nofun

theorem qfenceR (f : Full) : Statement (.qfenceR f) := ofFull rfl nofun

theorem qfenceWr (f : Full) : Statement (.qfenceWr f) := ofFull rfl nofun

theorem qstat (f : Full) : Statement (.qstat f) := ofFull rfl nofun

theorem qstatSt (f : Full) : Statement (.qstatSt f) := ofFull rfl nofun

theorem llaunch (f : Full) : Statement (.llaunch f) := ofFull rfl nofun

theorem lflagAdd (f : Full) : Statement (.lflagAdd f) := ofFull rfl nofun

theorem lflagSet (f : Full) : Statement (.lflagSet f) := ofFull rfl nofun

theorem lwait (f : Full) : Statement (.lwait f) := ofFull rfl nofun

theorem lstat (f : Full) : Statement (.lstat f) := ofFull rfl nofun

theorem seqNop (q : SeqWord) : Statement (.seqNop q) := ofSeq rfl

theorem xmit (q : SeqWord) : Statement (.xmit q) := ofSeq rfl

theorem rcvst (q : SeqWord) : Statement (.rcvst q) := ofSeq rfl

theorem rcvcmb (q : SeqWord) : Statement (.rcvcmb q) := ofSeq rfl

theorem rcvcf (q : SeqWord) : Statement (.rcvcf q) := ofSeq rfl

theorem rcvfw (q : SeqWord) : Statement (.rcvfw q) := ofSeq rfl

theorem waitf (q : SeqWord) : Statement (.waitf q) := ofSeq rfl

theorem sigf (q : SeqWord) : Statement (.sigf q) := ofSeq rfl

theorem sigfPeer (q : SeqWord) : Statement (.sigfPeer q) := ofSeq rfl

theorem seqLoop (q : SeqWord) : Statement (.seqLoop q) := ofSeq rfl

theorem movi (q : SeqWord) : Statement (.movi q) := ofSeq rfl

theorem addi (q : SeqWord) : Statement (.addi q) := ofSeq rfl

theorem seqAdd (q : SeqWord) : Statement (.seqAdd q) := ofSeq rfl

theorem bnz (q : SeqWord) : Statement (.bnz q) := ofSeq rfl

theorem scaleEnc (q : SeqWord) : Statement (.scaleEnc q) := ofSeq rfl

theorem scaleDec (q : SeqWord) : Statement (.scaleDec q) := ofSeq rfl

theorem seqYield (q : SeqWord) : Statement (.seqYield q) := ofSeq rfl

theorem seqHalt (q : SeqWord) : Statement (.seqHalt q) := ofSeq rfl

theorem launchc (f : Full) : Statement (.launchc f) := ofFull rfl nofun

theorem joinc (f : Full) : Statement (.joinc f) := ofFull rfl nofun

theorem snap (f : Full) : Statement (.snap f) := ofFull rfl nofun

theorem ctxswOut (f : Full) : Statement (.ctxswOut f) := ofFull rfl nofun

theorem ctxswIn (f : Full) : Statement (.ctxswIn f) := ofFull rfl nofun

theorem tlbiVa (f : Full) : Statement (.tlbiVa f) := ofFull rfl nofun

theorem tlbiCtx (f : Full) : Statement (.tlbiCtx f) := ofFull rfl nofun

theorem tlbiAll (f : Full) : Statement (.tlbiAll f) := ofFull rfl nofun

theorem tlbiIc (f : Full) : Statement (.tlbiIc f) := ofFull rfl nofun

theorem tlbiIcall (f : Full) : Statement (.tlbiIcall f) := ofFull rfl nofun

theorem eret (f : Full) : Statement (.eret f) := ofFull rfl nofun

theorem psrd (f : Full) : Statement (.psrd f) := ofFull rfl nofun

theorem pswr (f : Full) : Statement (.pswr f) := ofFull rfl nofun

theorem wdplace (f : Full) : Statement (.wdplace f) := ofFull rfl nofun

theorem halt (f : Full) : Statement (.halt f) := ofFull rfl nofun

theorem forcedSwitchPoint : Statement .forcedSwitchPoint := ofEvent rfl

theorem barTimeout : Statement .barTimeout := ofEvent rfl

theorem mwaitWake : Statement .mwaitWake := ofEvent rfl

theorem mwaitPoll : Statement .mwaitPoll := ofEvent rfl

theorem mwaitTimeout : Statement .mwaitTimeout := ofEvent rfl

theorem loadDataReturn : Statement .loadDataReturn := ofEvent rfl

theorem storePerform : Statement .storePerform := ofEvent rfl

theorem wideReleasePerform : Statement .wideReleasePerform := ofEvent rfl

theorem deferredFaultReport : Statement .deferredFaultReport := ofEvent rfl

theorem registerCacheFill : Statement .registerCacheFill := ofEvent rfl

theorem registerCacheWriteback : Statement .registerCacheWriteback := ofEvent rfl

theorem softError : Statement .softError := ofEvent rfl

theorem haulUnitTransfer : Statement .haulUnitTransfer := ofEvent rfl

theorem haulOpComplete : Statement .haulOpComplete := ofEvent rfl

theorem ashlarOpComplete : Statement .ashlarOpComplete := ofEvent rfl

theorem ashBudgetWindow : Statement .ashBudgetWindow := ofEvent rfl

theorem ksOperandArrive : Statement .ksOperandArrive := ofEvent rfl

theorem ksOrphanTimeout : Statement .ksOrphanTimeout := ofEvent rfl

theorem ksOrphanRecordExpiry : Statement .ksOrphanRecordExpiry := ofEvent rfl

theorem ksForwardRetry : Statement .ksForwardRetry := ofEvent rfl

theorem ksRecordDeferredWrite : Statement .ksRecordDeferredWrite := ofEvent rfl

theorem groutFill : Statement .groutFill := ofEvent rfl

theorem probeMeasure : Statement .probeMeasure := ofEvent rfl

theorem gridEnd : Statement .gridEnd := ofEvent rfl

theorem qloadxComplete : Statement .qloadxComplete := ofEvent rfl

theorem qgemvComplete : Statement .qgemvComplete := ofEvent rfl

theorem quarryOperandResend : Statement .quarryOperandResend := ofEvent rfl

theorem quarryAsyncFault : Statement .quarryAsyncFault := ofEvent rfl

theorem qryRateWindow : Statement .qryRateWindow := ofEvent rfl

theorem launchPacketArrive : Statement .launchPacketArrive := ofEvent rfl

theorem collectiveStart : Statement .collectiveStart := ofEvent rfl

theorem seqTurn : Statement .seqTurn := ofEvent rfl

theorem chunkArrive : Statement .chunkArrive := ofEvent rfl

theorem peerFlagUpdateArrive : Statement .peerFlagUpdateArrive := ofEvent rfl

theorem seqSendTimeout : Statement .seqSendTimeout := ofEvent rfl

theorem childCopyTaken : Statement .childCopyTaken := ofEvent rfl

theorem joinPark : Statement .joinPark := ofEvent rfl

theorem teamPlace : Statement .teamPlace := ofEvent rfl

theorem preemption : Statement .preemption := ofEvent rfl

theorem feClaimRead : Statement .feClaimRead := ofEvent rfl

theorem emptyPacketPoll : Statement .emptyPacketPoll := ofEvent rfl

theorem andDependencyPoll : Statement .andDependencyPoll := ofEvent rfl

theorem packetComplete : Statement .packetComplete := ofEvent rfl

theorem faultRecordWrite : Statement .faultRecordWrite := ofEvent rfl

theorem uqWptrWrite : Statement .uqWptrWrite := ofEvent rfl

theorem uqCfgWrite : Statement .uqCfgWrite := ofEvent rfl

theorem uqCtrlResume : Statement .uqCtrlResume := ofEvent rfl

theorem uqCtrlReset : Statement .uqCtrlReset := ofEvent rfl

theorem feResumeRetry : Statement .feResumeRetry := ofEvent rfl

theorem feResumeSkip : Statement .feResumeSkip := ofEvent rfl

theorem feResumeEnd : Statement .feResumeEnd := ofEvent rfl

theorem feCtrlBoot : Statement .feCtrlBoot := ofEvent rfl

theorem fwCtrlRun : Statement .fwCtrlRun := ofEvent rfl

theorem ctxCtrlPreempt : Statement .ctxCtrlPreempt := ofEvent rfl

theorem snapFire : Statement .snapFire := ofEvent rfl

theorem snapStatusFullClear : Statement .snapStatusFullClear := ofEvent rfl

theorem snapInEdge : Statement .snapInEdge := ofEvent rfl

theorem snapPacketDue : Statement .snapPacketDue := ofEvent rfl

theorem fzSnapSend : Statement .fzSnapSend := ofEvent rfl

theorem fzKeyctlInstall : Statement .fzKeyctlInstall := ofEvent rfl

theorem linkTrain : Statement .linkTrain := ofEvent rfl

theorem linkDown : Statement .linkDown := ofEvent rfl

theorem flitTransmit : Statement .flitTransmit := ofEvent rfl

theorem flitReceive : Statement .flitReceive := ofEvent rfl

theorem fzRemapWrite : Statement .fzRemapWrite := ofEvent rfl

theorem remapTakeEffect : Statement .remapTakeEffect := ofEvent rfl

theorem pkgcfgTakeEffect : Statement .pkgcfgTakeEffect := ofEvent rfl

theorem remoteRequestArrive : Statement .remoteRequestArrive := ofEvent rfl

theorem remoteResponseArrive : Statement .remoteResponseArrive := ofEvent rfl

theorem fzGapTimeout : Statement .fzGapTimeout := ofEvent rfl

theorem fzRequestTimeout : Statement .fzRequestTimeout := ofEvent rfl

theorem ftimeTimingPacket : Statement .ftimeTimingPacket := ofEvent rfl

theorem lnGo : Statement .lnGo := ofEvent rfl

theorem lnSlotctlResume : Statement .lnSlotctlResume := ofEvent rfl

theorem lnSlotctlAbort : Statement .lnSlotctlAbort := ofEvent rfl

theorem lnSlotcfgWrite : Statement .lnSlotcfgWrite := ofEvent rfl

theorem spStepsTakeEffect : Statement .spStepsTakeEffect := ofEvent rfl

theorem readClearRegister : Statement .readClearRegister := ofEvent rfl

theorem registerWrite : Statement .registerWrite := ofEvent rfl

theorem hostBar2Access : Statement .hostBar2Access := ofEvent rfl

theorem vfBar2Access : Statement .vfBar2Access := ofEvent rfl

theorem vclkInterval : Statement .vclkInterval := ofEvent rfl

theorem powerGovernorEval : Statement .powerGovernorEval := ofEvent rfl

theorem reset : Statement .reset := ofEvent rfl

theorem lwaitTimeout : Statement .lwaitTimeout := ofEvent rfl

theorem gfillTimeout : Statement .gfillTimeout := ofEvent rfl

theorem llcLineEviction : Statement .llcLineEviction := ofEvent rfl

theorem l1LineEviction : Statement .l1LineEviction := ofEvent rfl

theorem chunkCreditReturn : Statement .chunkCreditReturn := ofEvent rfl

theorem zeroLengthReadCompletion : Statement .zeroLengthReadCompletion := ofEvent rfl

end Sys2Proof.Laws.FormatBit
end

