-- ==== Sys2Proof/Laws/Retire.lean ====
section
/-! SUPPORT. What a retirement, a trap, a wait and a switch point leave in the issuing group itself. -/

namespace Sys2Proof.Machine

open Sys2Proof

/-! ## Group operations that touch no register -/

theorem Group.keptInner_restore (g : Group) : g.KeptInner g.restore := by
  unfold Group.restore; split <;> constructor <;> rfl

theorem Group.keptRegs_restore (g : Group) : g.KeptRegs g.restore := by
  unfold Group.restore; split <;> constructor <;> rfl

@[simp] theorem Group.restore_cur (g : Group) : g.restore.cur = g.cur := by unfold Group.restore; split <;> rfl
@[simp] theorem Group.restore_pcv (g : Group) : g.restore.pcv = g.pcv := by unfold Group.restore; split <;> rfl
@[simp] theorem Group.restore_pathLoop (g : Group) : g.restore.pathLoop = g.pathLoop := by unfold Group.restore; split <;> rfl
@[simp] theorem Group.restore_pathPc (g : Group) : g.restore.pathPc = g.pathPc := by simp [Group.pathPc, Group.pc]

theorem Group.keptInner_pathsel (g : Group) (now : Nat) : g.KeptInner (g.pathsel now) := by
  unfold Group.pathsel
  dsimp only
  repeat' split
  all_goals first | (constructor <;> rfl)

theorem Group.keptRegs_pathsel (g : Group) (now : Nat) : g.KeptRegs (g.pathsel now) := by
  unfold Group.pathsel
  dsimp only
  repeat' split
  all_goals first | (constructor <;> rfl)

theorem Group.keptInner_stopIfDue (g : Group) : g.KeptInner g.stopIfDue := by
  unfold Group.stopIfDue
  split
  · exact .refl g
  · split
    · constructor <;> rfl
    · split
      · constructor <;> rfl
      · exact .refl g

theorem Group.keptRegs_stopIfDue (g : Group) : g.KeptRegs g.stopIfDue := by
  unfold Group.stopIfDue
  split
  · exact .refl g
  · split
    · constructor <;> rfl
    · split
      · constructor <;> rfl
      · exact .refl g

/-- What a switch point makes of its group. -/
def Group.atSwitch (g : Group) (now : Nat) : Group := (({ g.dropLatches with count := 0 }).pathsel now).stopIfDue

theorem Group.keptInner_atSwitch (g : Group) (now : Nat) : g.KeptInner (g.atSwitch now) := by
  refine Group.KeptInner.trans ?_ ((Group.keptInner_pathsel _ now).trans (Group.keptInner_stopIfDue _))
  constructor <;> rfl

theorem Group.keptRegs_atSwitch (g : Group) (now : Nat) : g.KeptRegs (g.atSwitch now) := by
  refine Group.KeptRegs.trans ?_ ((Group.keptRegs_pathsel _ now).trans (Group.keptRegs_stopIfDue _))
  constructor <;> rfl

theorem Group.latches_atSwitch (g : Group) (now : Nat) : (g.atSwitch now).latches = [] := by
  have h : ∀ k : Group, k.latches = [] → k.stopIfDue.latches = [] := by
    intro k hk
    unfold Group.stopIfDue
    split
    · exact hk
    · split
      · rfl
      · split
        · rfl
        · exact hk
  apply h
  unfold Group.pathsel
  dsimp only
  repeat' split
  all_goals rfl

theorem Group.count_atSwitch (g : Group) (now : Nat) : (g.atSwitch now).count = 0 := by
  have h : ∀ k : Group, k.count = 0 → k.stopIfDue.count = 0 := by
    intro k hk
    unfold Group.stopIfDue
    split
    · exact hk
    · split
      · rfl
      · split
        · rfl
        · exact hk
  apply h
  unfold Group.pathsel
  dsimp only
  repeat' split
  all_goals rfl

@[simp] theorem Group.pcv_atSwitch (g : Group) (now : Nat) : (g.atSwitch now).pcv = g.pcv := by
  have h : ∀ k : Group, k.stopIfDue.pcv = k.pcv := by
    intro k
    unfold Group.stopIfDue
    split
    · rfl
    · split
      · rfl
      · split <;> rfl
  unfold Group.atSwitch
  rw [h]
  unfold Group.pathsel
  dsimp only
  repeat' split
  all_goals rfl

theorem State.own?_switchPoint (s : State) : s.switchPoint.own? = s.own?.map (fun g => g.atSwitch s.ticks) := by
  show ((s.modOwn _).modCore s.focus.core _).group? s.focus.core s.focus.team s.focus.group = _
  rw [State.group?_modCore_setSlot]
  exact s.modOwn_own? _

theorem State.own?_endCapture (s : State) (old : Group) : (s.endCapture old).own? = s.own? := by
  unfold State.endCapture
  split
  · exact State.group?_modCore_dropCapture _ _ _ _ _ _ _ _ _
  · rfl

theorem State.ticks_endCapture (s : State) (old : Group) : (s.endCapture old).ticks = s.ticks := by
  unfold State.endCapture; split <;> rfl

/-! ## Moving on -/

theorem Group.keptInner_setPcs (next : List (Nat × Word)) (g : Group) :
    g.KeptInner (next.foldl (fun (h : Group) e => h.setPc e.1 e.2) g) := by
  induction next generalizing g with
  | nil => exact .refl g
  | cons e es ih =>
    refine Group.KeptInner.trans ?_ (ih _)
    constructor <;> rfl

theorem Group.keptRegs_setPcs (next : List (Nat × Word)) (g : Group) :
    g.KeptRegs (next.foldl (fun (h : Group) e => h.setPc e.1 e.2) g) := by
  induction next generalizing g with
  | nil => exact .refl g
  | cons e es ih =>
    refine Group.KeptRegs.trans ?_ (ih _)
    constructor <;> rfl

theorem Group.keptInner_goTo (g : Group) (next : List (Nat × Word)) (now : Nat) : g.KeptInner (g.goTo next now) := by
  refine Group.KeptInner.trans (Group.keptInner_setPcs next g) ?_
  unfold Group.goTo
  dsimp only
  split <;> constructor <;> rfl

theorem Group.keptRegs_goTo (g : Group) (next : List (Nat × Word)) (now : Nat) : g.KeptRegs (g.goTo next now) := by
  refine Group.KeptRegs.trans (Group.keptRegs_setPcs next g) ?_
  unfold Group.goTo
  dsimp only
  split <;> constructor <;> rfl

theorem Group.pcv_goTo (g : Group) (next : List (Nat × Word)) (now : Nat) :
    (g.goTo next now).pcv = (next.foldl (fun (h : Group) e => h.setPc e.1 e.2) g).pcv := by
  unfold Group.goTo
  dsimp only
  split <;> rfl

/-- R86: stepping a loop leaves the group alone, or counts down the counter register of the loop that the path runs. -/
theorem Group.loopStep_cases (g : Group) :
    g.loopStep.1 = g ∨ ∃ r w, g.counter = some r ∧
      (g.loopStep.1 = g.setS r w ∨ g.loopStep.1 = { g.setS r w with pathLoop := none }) := by
  by_cases hl : pcLooping g.pathPc = true
  · have hc : g.counter = some (g.pathLoop.getD (0, 64)).1 := by simp [Group.counter, hl]
    unfold Group.loopStep
    rw [if_pos hl]
    dsimp only
    generalize (if (g.pathLoop.getD (0, 64)).2 < 64 then (g.pathLoop.getD (0, 64)).2 else _) = last
    by_cases hi : pcIndex g.pathPc = last ∨ pcIndex g.pathPc = 63
    · rw [if_pos hi]
      generalize (BitVec.ofNat 64 _ : Word) = w
      refine .inr ⟨_, w, hc, ?_⟩
      by_cases hz : (bits (g.s (g.pathLoop.getD (0, 64)).1).toNat 0 32 + 2 ^ 32 - 1) % 2 ^ 32 ≠ 0
      · rw [if_pos hz]; exact .inl rfl
      · rw [if_neg hz]; exact .inr rfl
    · rw [if_neg hi]; exact .inl rfl
  · left; unfold Group.loopStep; rw [if_neg hl]

theorem Group.loopStep_keeps (g : Group) :
    g.KeptInner g.loopStep.1 ∧ g.loopStep.1.vreg = g.vreg ∧ g.loopStep.1.predv = g.predv ∧ g.loopStep.1.fpflags = g.fpflags
      ∧ g.loopStep.1.pcv = g.pcv ∧ g.loopStep.1.latches = g.latches ∧ g.loopStep.1.count = g.count
      ∧ g.loopStep.1.sregPoison = g.sregPoison ∧ g.loopStep.1.vregPoison = g.vregPoison
      ∧ ∀ n, g.counter ≠ some n → g.loopStep.1.s n = g.s n := by
  rcases g.loopStep_cases with h | ⟨r, w, hc, h | h⟩
  · rw [h]; exact ⟨.refl g, rfl, rfl, rfl, rfl, rfl, rfl, rfl, rfl, fun _ _ => rfl⟩
  · rw [h]
    refine ⟨by constructor <;> rfl, rfl, rfl, rfl, rfl, rfl, rfl, rfl, rfl, fun n hn => ?_⟩
    exact Group.s_setS_ne _ _ (fun e => hn (by rw [hc, e]))
  · rw [h]
    refine ⟨by constructor <;> rfl, rfl, rfl, rfl, rfl, rfl, rfl, rfl, rfl, fun n hn => ?_⟩
    exact Group.s_setS_ne g w (fun e => hn (by rw [hc, e]))

/-- R86, R101: moving on writes program counters, and the counter of the loop whose iteration ends. -/
theorem Group.advance_keeps (g : Group) (target : Option (List (Nat × Word))) (hold : Lanes) (now : Nat) :
    g.KeptInner (g.advance target hold now).1 ∧ (g.advance target hold now).1.vreg = g.vreg
      ∧ (g.advance target hold now).1.predv = g.predv ∧ (g.advance target hold now).1.fpflags = g.fpflags
      ∧ (g.advance target hold now).1.sregPoison = g.sregPoison ∧ (g.advance target hold now).1.vregPoison = g.vregPoison
      ∧ ∀ n, g.counter ≠ some n → (g.advance target hold now).1.s n = g.s n := by
  unfold Group.advance
  dsimp only
  have step : ∀ st : Group, (st = g ∨ st = g.loopStep.1) → g.KeptInner st ∧ st.vreg = g.vreg ∧ st.predv = g.predv
      ∧ st.fpflags = g.fpflags ∧ st.sregPoison = g.sregPoison ∧ st.vregPoison = g.vregPoison
      ∧ ∀ n, g.counter ≠ some n → st.s n = g.s n := by
    rintro st (rfl | rfl)
    · exact ⟨.refl _, rfl, rfl, rfl, rfl, rfl, fun _ _ => rfl⟩
    · have := g.loopStep_keeps
      exact ⟨this.1, this.2.1, this.2.2.1, this.2.2.2.1, this.2.2.2.2.2.2.2.1, this.2.2.2.2.2.2.2.2.1, this.2.2.2.2.2.2.2.2.2⟩
  have fin : ∀ (st k : Group) (nx : List (Nat × Word)), (st = g ∨ st = g.loopStep.1) → k = st.goTo nx now →
      g.KeptInner { k with waiting := k.waiting ||| (g.cur &&& g.live &&& hold) } ∧ k.vreg = g.vreg ∧ k.predv = g.predv
      ∧ k.fpflags = g.fpflags ∧ k.sregPoison = g.sregPoison ∧ k.vregPoison = g.vregPoison
      ∧ ∀ n, g.counter ≠ some n → k.s n = g.s n := by
    rintro st k nx hst rfl
    obtain ⟨a, b, c, d, e, f, h⟩ := step st hst
    have i := Group.keptInner_goTo st nx now
    have r := Group.keptRegs_goTo st nx now
    refine ⟨(a.trans i).trans (by constructor <;> rfl), r.vreg.trans b, r.predv.trans c, r.fpflags.trans d,
      r.sregPoison.trans e, r.vregPoison.trans f, fun n hn => ?_⟩
    rw [r.s, h n hn]
  generalize hst : (if lanesOf (g.cur &&& g.live &&& ~~~ hold) = [] then (g, (0 : Word), false) else g.loopStep) = st
  have h : st.1 = g ∨ st.1 = g.loopStep.1 := by
    subst hst
    split
    · exact .inl rfl
    · exact .inr rfl
  generalize List.map _ (lanesOf _) = nx
  exact fin st.1 _ nx h rfl

/-! ## Results -/

theorem Group.keptInner_writeDst (g : Group) (enc : BitVec 9) (regs l : Nat) (w : Word) (p : Bool) :
    g.KeptInner (g.writeDst enc regs l w p) := by
  unfold Group.writeDst
  cases opd enc with
  | v n =>
    by_cases hr : regs = 1
    · simp only [if_pos hr]; constructor <;> rfl
    · simp only [if_neg hr]; constructor <;> rfl
  | s n => constructor <;> rfl
  | y n => exact .refl g
  | special c => exact .refl g
  | inline b => exact .refl g

/-- What of a group a result and predicates leave: all but registers, predicates and flags. -/
def Group.shell (g : Group) : Group :=
  { g with sreg := [], vreg := [], sregPoison := [], vregPoison := [], predv := [], fpflags := 0, latches := [] }

theorem Group.shell_writeDst (g : Group) (enc : BitVec 9) (regs l : Nat) (w : Word) (p : Bool) :
    (g.writeDst enc regs l w p).shell = g.shell := by
  unfold Group.writeDst
  cases opd enc with
  | v n => by_cases hr : regs = 1 <;> simp [hr, Group.shell, Group.setV]
  | s n => rfl
  | y n => rfl
  | special c => rfl
  | inline b => rfl

theorem Group.others_writeDst (g : Group) (enc : BitVec 9) (regs l : Nat) (w : Word) (p : Bool) :
    (g.writeDst enc regs l w p).predv = g.predv ∧ (g.writeDst enc regs l w p).fpflags = g.fpflags
      ∧ (g.writeDst enc regs l w p).latches = g.latches := by
  unfold Group.writeDst
  cases opd enc with
  | v n => by_cases hr : regs = 1 <;> simp [hr, Group.setV]
  | s n => exact ⟨rfl, rfl, rfl⟩
  | y n => exact ⟨rfl, rfl, rfl⟩
  | special c => exact ⟨rfl, rfl, rfl⟩
  | inline b => exact ⟨rfl, rfl, rfl⟩

theorem Group.shell_inner {g h : Group} (e : h.shell = g.shell) : g.KeptInner h := by
  constructor
  · exact (congrArg Group.kmask e :)
  · exact (congrArg Group.meetv e :)
  · exact (congrArg Group.exited e :)
  · exact (congrArg Group.held e :)
  · exact (congrArg Group.heldK e :)
  · exact (congrArg Group.spend e :)
  · exact (congrArg Group.seed e :)
  · exact (congrArg Group.spoil e :)
  · exact (congrArg Group.mwaitAddr e :)
  · exact (congrArg Group.mwaitValue e :)
  · exact (congrArg Group.tblanes e :)
  · exact (congrArg Group.tbwait e :)
  · exact (congrArg Group.bwstate e :)
  · exact (congrArg Group.bwlanes e :)
  · exact (congrArg Group.storeQ e :)
  · exact (congrArg Group.loads e :)
  · exact (congrArg Group.memNext e :)
  · exact (congrArg Group.posted e :)

/-- A fold keeps what each of its steps keeps. -/
theorem foldl_keeps {α β γ : Type} (F : α → γ) (f : α → β → α) (l : List β) (h : ∀ a, ∀ b ∈ l, F (f a b) = F a) (a : α) :
    F (l.foldl f a) = F a := by
  induction l generalizing a with
  | nil => rfl
  | cons b bs ih =>
    rw [List.foldl_cons, ih (fun a c hc => h a c (List.mem_cons_of_mem _ hc)), h a b (List.mem_cons_self ..)]

/-- The result of a word is written in lane `l` to vector register `n`. -/
def Retire.hitsV (sh : Shape) (f : Full) (r : Retire) (n l : Nat) : Prop :=
  ∃ u res m, sh.dst = some u ∧ r.result = some res ∧ (f.w = false ∨ sh.wFree = true) ∧ l ∈ res.vals.map (·.1)
    ∧ opd u.enc = .v m ∧ (n = m ∨ (n = m + 1 ∧ u.regs ≠ 1))

/-- The result of a word is written to scalar register `n`. -/
def Retire.hitsS (sh : Shape) (r : Retire) (n : Nat) : Prop :=
  ∃ u res, sh.dst = some u ∧ r.result = some res ∧ opd u.enc = .s n

theorem Group.writeResult_v {g : Group} {sh : Shape} {f : Full} {r : Retire} {res : Result} (hres : r.result = some res)
    (hl : ∀ e ∈ res.vals, e.1 < 32) {n l : Nat} (hl2 : l < 32) (hn : ¬ r.hitsV sh f n l) :
    (g.writeResult sh f res).v n l = g.v n l := by
  unfold Group.writeResult
  split
  · rfl
  · next u hu =>
    split
    · rfl
    · next hw =>
      refine foldl_keeps (fun h : Group => h.v n l) _ _ (fun h e he => ?_) g
      by_cases hv : ∃ m, opd u.enc = .v m
      · obtain ⟨m, hm⟩ := hv
        rw [Group.v_writeDst _ hm _ _ (hl e he) hl2]
        have hw2 : f.w = false ∨ sh.wFree = true := by
          cases hfw : f.w
          · exact .inl rfl
          · cases hwf : sh.wFree
            · simp [hfw, hwf] at hw
            · exact .inr rfl
        have key : l = e.1 → ¬ (n = m ∨ (n = m + 1 ∧ u.regs ≠ 1)) := fun h1 h2 =>
          hn ⟨u, res, m, hu, hres, hw2, h1 ▸ List.mem_map_of_mem he, hm, h2⟩
        rw [if_neg (fun h => key h.1 (.inl h.2)), if_neg (fun h => key h.1 (.inr ⟨h.2.1, h.2.2⟩))]
      · exact Group.v_writeDst_other _ (fun n h => hv ⟨n, h⟩) _ _ _ _ _ _

theorem Group.writeResult_s {g : Group} {sh : Shape} {f : Full} {r : Retire} {res : Result} (hres : r.result = some res)
    {n : Nat} (hn : ¬ r.hitsS sh n) : (g.writeResult sh f res).s n = g.s n := by
  unfold Group.writeResult
  split
  · rfl
  · next u hu =>
    split
    · rfl
    · refine foldl_keeps (fun h : Group => h.s n) _ _ (fun h e he => ?_) g
      rw [Group.s_writeDst, if_neg (fun he => hn ⟨u, res, hu, hres, he⟩)]

theorem Group.writeResult_shell (g : Group) (sh : Shape) (f : Full) (res : Result) :
    (g.writeResult sh f res).shell = g.shell ∧ (g.writeResult sh f res).predv = g.predv
      ∧ (g.writeResult sh f res).fpflags = g.fpflags ∧ (g.writeResult sh f res).latches = g.latches := by
  unfold Group.writeResult
  split
  · exact ⟨rfl, rfl, rfl, rfl⟩
  · split
    · exact ⟨rfl, rfl, rfl, rfl⟩
    · exact ⟨foldl_keeps Group.shell _ _ (fun h e _ => Group.shell_writeDst ..) g,
        foldl_keeps Group.predv _ _ (fun h e _ => (Group.others_writeDst ..).1) g,
        foldl_keeps Group.fpflags _ _ (fun h e _ => (Group.others_writeDst ..).2.1) g,
        foldl_keeps Group.latches _ _ (fun h e _ => (Group.others_writeDst ..).2.2) g⟩

/-- Of the group, a commit writes the destination, predicates, flags and latches. -/
theorem Group.commit_keeps (g old : Group) (sh : Shape) (f : Full) (r : Retire)
    (hl : ∀ res, r.result = some res → ∀ e ∈ res.vals, e.1 < 32) :
    (g.commit old sh f r).shell = g.shell ∧ (g.commit old sh f r).fpflags = g.fpflags ||| r.flags
      ∧ (∀ n l, l < 32 → ¬ r.hitsV sh f n l → (g.commit old sh f r).v n l = g.v n l)
      ∧ (∀ n, ¬ r.hitsS sh n → (g.commit old sh f r).s n = g.s n)
      ∧ (∀ l k, k < 63 → (∀ e ∈ r.preds, ¬ (e.1 = l ∧ e.2.1 = k)) →
          (g.commit old sh f r).p l k = g.p l k) := by
  have hp : (r.preds.foldl (fun (h : Group) e => h.setP e.1 e.2.1 e.2.2) (g.raise r.flags)).shell = g.shell :=
    foldl_keeps Group.shell (fun (h : Group) e => h.setP e.1 e.2.1 e.2.2) r.preds (fun _ _ _ => rfl) (g.raise r.flags)
  have hf : (r.preds.foldl (fun (h : Group) e => h.setP e.1 e.2.1 e.2.2) (g.raise r.flags)).fpflags = g.fpflags ||| r.flags :=
    foldl_keeps Group.fpflags (fun (h : Group) e => h.setP e.1 e.2.1 e.2.2) r.preds (fun _ _ _ => rfl) (g.raise r.flags)
  have hv : ∀ n l, (r.preds.foldl (fun (h : Group) e => h.setP e.1 e.2.1 e.2.2) (g.raise r.flags)).v n l = g.v n l :=
    fun n l => foldl_keeps (fun h : Group => h.v n l) (fun (h : Group) e => h.setP e.1 e.2.1 e.2.2) r.preds
      (fun _ _ _ => rfl) (g.raise r.flags)
  have hs : ∀ n, (r.preds.foldl (fun (h : Group) e => h.setP e.1 e.2.1 e.2.2) (g.raise r.flags)).s n = g.s n :=
    fun n => foldl_keeps (fun h : Group => h.s n) (fun (h : Group) e => h.setP e.1 e.2.1 e.2.2) r.preds
      (fun _ _ _ => rfl) (g.raise r.flags)
  have hk : ∀ l k, k < 63 → (∀ e ∈ r.preds, ¬ (e.1 = l ∧ e.2.1 = k)) →
      (r.preds.foldl (fun (h : Group) e => h.setP e.1 e.2.1 e.2.2) (g.raise r.flags)).p l k = g.p l k := by
    intro l k hk hne
    refine foldl_keeps (fun h : Group => h.p l k) _ _ (fun h e he => ?_) (g.raise r.flags)
    rw [Group.p_setP _ _ hk, if_neg (fun c => hne e he ⟨c.1.symm, c.2.symm⟩)]
  unfold Group.commit
  dsimp only
  generalize (r.preds.foldl (fun (h : Group) e => h.setP e.1 e.2.1 e.2.2) (g.raise r.flags)) = g1 at *
  split
  · next res u hr hu =>
    have w := g1.writeResult_shell sh f res
    have wv : ∀ n l, l < 32 → ¬ r.hitsV sh f n l → (g1.writeResult sh f res).v n l = g.v n l := fun n l h2 hn => by
      rw [Group.writeResult_v hr (hl res hr) h2 hn, hv]
    have ws : ∀ n, ¬ r.hitsS sh n → (g1.writeResult sh f res).s n = g.s n := fun n hn => by
      rw [Group.writeResult_s hr hn, hs]
    have wk : ∀ l k, k < 63 → (∀ e ∈ r.preds, ¬ (e.1 = l ∧ e.2.1 = k)) →
        (g1.writeResult sh f res).p l k = g.p l k := fun l k h1 h3 => by
      rw [← hk l k h1 h3]; simp [Group.p, Group.pred, w.2.1]
    split
    · exact ⟨w.1.trans hp, w.2.2.1.trans hf, wv, ws, wk⟩
    · exact ⟨w.1.trans hp, w.2.2.1.trans hf, wv, ws, wk⟩
  · exact ⟨hp, hf, fun n l _ _ => hv n l, fun n _ => hs n, hk⟩

/-- R42, R71, R77, R86, R101: what a retirement leaves of the issuing group, when the word's own effect leaves the group alone:
the destination, the predicates that it writes and the counter of a loop apart, every register is as it was; flags are only
raised; and nothing else changes but program counters, paths and latches. -/
theorem State.own_finish {s : State} {sh : Shape} {f : Full} {r : Retire} (h0 : s.own?.isSome = true) (hr : r.s = s)
    (ha : r.after = id) (hl : ∀ res, r.result = some res → ∀ e ∈ res.vals, e.1 < 32) :
    (s.finish sh f r).own?.isSome = true
      ∧ s.own.KeptInner (s.finish sh f r).own
      ∧ (s.finish sh f r).own.fpflags = s.own.fpflags ||| r.flags
      ∧ (∀ n l, l < 32 → ¬ r.hitsV sh f n l → (s.finish sh f r).own.v n l = s.own.v n l)
      ∧ (∀ n, ¬ r.hitsS sh n → s.own.counter ≠ some n → (s.finish sh f r).own.s n = s.own.s n)
      ∧ (∀ l k, k < 63 → (∀ e ∈ r.preds, ¬ (e.1 = l ∧ e.2.1 = k)) →
          (s.finish sh f r).own.p l k = s.own.p l k) := by
  subst hr
  obtain ⟨c1, c2, c3, c4, c5⟩ := Group.commit_keeps r.s.own r.s.own sh f r hl
  have hown : (r.s.modOwn (fun g => g.commit r.s.own sh f r)).own = r.s.own.commit r.s.own sh f r :=
    State.modOwn_own h0 _
  have hsome : (r.s.modOwn (fun g => g.commit r.s.own sh f r)).own?.isSome = true := by simpa using h0
  unfold State.finish
  dsimp only
  rw [hown, ha]
  generalize hcm : r.s.own.commit r.s.own sh f r = cm at *
  obtain ⟨a1, a2, a3, a4, a5, a6, a7⟩ := Group.advance_keeps cm r.target r.hold r.s.ticks
  have hcounter : cm.counter = r.s.own.counter := by
    have e1 : cm.pcv = r.s.own.pcv := (congrArg Group.pcv c1 :)
    have e2 : cm.cur = r.s.own.cur := (congrArg Group.cur c1 :)
    have e3 : cm.pathLoop = r.s.own.pathLoop := (congrArg Group.pathLoop c1 :)
    have e4 : cm.pathPc = r.s.own.pathPc := by simp only [Group.pathPc, Group.pc, e1, e2]
    simp only [Group.counter, e3, e4]
  generalize hadv : cm.advance r.target r.hold r.s.ticks = adv at *
  have fin : ∀ k : Group, adv.1.KeptInner k → adv.1.KeptRegs k → r.s.own.KeptInner k
      ∧ k.fpflags = r.s.own.fpflags ||| r.flags
      ∧ (∀ n l, l < 32 → ¬ r.hitsV sh f n l → k.v n l = r.s.own.v n l)
      ∧ (∀ n, ¬ r.hitsS sh n → r.s.own.counter ≠ some n → k.s n = r.s.own.s n)
      ∧ (∀ l j, j < 63 → (∀ e ∈ r.preds, ¬ (e.1 = l ∧ e.2.1 = j)) →
          k.p l j = r.s.own.p l j) := by
    intro k ki kr
    refine ⟨((Group.shell_inner c1).trans a1).trans ki, ?_, ?_, ?_, ?_⟩
    · rw [kr.fpflags, a4, c2]
    · intro n l h2 hn
      rw [kr.v, ← c3 n l h2 hn]; simp [Group.v, a2]
    · intro n hn hc
      rw [kr.s, a7 n (by rw [hcounter]; exact hc), c4 n hn]
    · intro l j h1 h3
      rw [kr.p, ← c5 l j h1 h3]; simp [Group.p, Group.pred, a3]
  generalize hg2 : ({ adv.1 with
    count := adv.1.count + 1, run := adv.1.run + 1, greed := adv.1.greed + 1
    blocked := adv.1.blocked &&& ~~~ r.s.own.cur } : Group) = g2
  have hi : adv.1.KeptInner g2 := by subst hg2; constructor <;> rfl
  have hk : adv.1.KeptRegs g2 := by subst hg2; constructor <;> rfl
  generalize hs2 : ((r.s.modOwn (fun g => g.commit r.s.own sh f r)).modOwn (fun _ => g2)).endCapture r.s.own = s2
  have h2 : s2.own? = some g2 := by
    subst hs2
    obtain ⟨g, hg⟩ := Option.isSome_iff_exists.1 hsome
    rw [State.own?_endCapture, State.modOwn_own?, hg]; rfl
  have h2' : s2.own = g2 := by
    simp [State.own, h2]
  simp only [id]
  split
  · have h3 : s2.switchPoint.own = s2.own.atSwitch s2.ticks := by
      simp [State.own, State.own?_switchPoint, h2]
    refine ⟨by simp [State.own?_switchPoint, h2], ?_⟩
    rw [h3, h2']
    exact fin (Group.atSwitch _ _) (.trans hi (Group.keptInner_atSwitch _ _)) (.trans hk (Group.keptRegs_atSwitch _ _))
  · refine ⟨by simp [h2], ?_⟩
    rw [h2']
    exact fin _ hi hk

end Sys2Proof.Machine
end

