-- ==== Sys2Proof/Laws/State.lean ====
section
/-! SUPPORT. What each update of the state, of a team and of a group leaves alone: one lemma per field per update, true by
rfl, so that no proof unfolds a record update. -/

namespace Sys2Proof.Machine

open Sys2Proof

/-! ## The state -/

@[simp] theorem State.setCore_agenda (s : State) (c : Nat) (k : Core) : (s.setCore c k).agenda = s.agenda := rfl
@[simp] theorem State.setCore_focus (s : State) (c : Nat) (k : Core) : (s.setCore c k).focus = s.focus := rfl
@[simp] theorem State.setCore_input (s : State) (c : Nat) (k : Core) : (s.setCore c k).input = s.input := rfl
@[simp] theorem State.setCore_queued (s : State) (c : Nat) (k : Core) : (s.setCore c k).queued = s.queued := rfl
@[simp] theorem State.setCore_turns (s : State) (c : Nat) (k : Core) : (s.setCore c k).turns = s.turns := rfl
@[simp] theorem State.setCore_ticks (s : State) (c : Nat) (k : Core) : (s.setCore c k).ticks = s.ticks := rfl
@[simp] theorem State.setCore_fresh (s : State) (c : Nat) (k : Core) : (s.setCore c k).fresh = s.fresh := rfl
@[simp] theorem State.setCore_pkgcfg (s : State) (c : Nat) (k : Core) : (s.setCore c k).pkgcfg = s.pkgcfg := rfl
@[simp] theorem State.setCore_ftimeOffset (s : State) (c : Nat) (k : Core) : (s.setCore c k).ftimeOffset = s.ftimeOffset := rfl
@[simp] theorem State.setCore_ftimeHold (s : State) (c : Nat) (k : Core) : (s.setCore c k).ftimeHold = s.ftimeHold := rfl
@[simp] theorem State.setCore_dram (s : State) (c : Nat) (k : Core) : (s.setCore c k).dram = s.dram := rfl
@[simp] theorem State.setCore_llc (s : State) (c : Nat) (k : Core) : (s.setCore c k).llc = s.llc := rfl
@[simp] theorem State.setCore_poison (s : State) (c : Nat) (k : Core) : (s.setCore c k).poison = s.poison := rfl
@[simp] theorem State.setCore_tlb (s : State) (c : Nat) (k : Core) : (s.setCore c k).tlb = s.tlb := rfl
@[simp] theorem State.setCore_recent (s : State) (c : Nat) (k : Core) : (s.setCore c k).recent = s.recent := rfl
@[simp] theorem State.setCore_mgmt (s : State) (c : Nat) (k : Core) : (s.setCore c k).mgmt = s.mgmt := rfl
@[simp] theorem State.setCore_away (s : State) (c : Nat) (k : Core) : (s.setCore c k).away = s.away := rfl
@[simp] theorem State.setCore_tagsUsed (s : State) (c : Nat) (k : Core) : (s.setCore c k).tagsUsed = s.tagsUsed := rfl
@[simp] theorem State.setCore_stations (s : State) (c : Nat) (k : Core) : (s.setCore c k).stations = s.stations := rfl
@[simp] theorem State.setCore_ksOverflow (s : State) (c : Nat) (k : Core) : (s.setCore c k).ksOverflow = s.ksOverflow := rfl
@[simp] theorem State.setCore_ksFlight (s : State) (c : Nat) (k : Core) : (s.setCore c k).ksFlight = s.ksFlight := rfl
@[simp] theorem State.setCore_ksRetry (s : State) (c : Nat) (k : Core) : (s.setCore c k).ksRetry = s.ksRetry := rfl
@[simp] theorem State.setCore_ksHeld (s : State) (c : Nat) (k : Core) : (s.setCore c k).ksHeld = s.ksHeld := rfl
@[simp] theorem State.setCore_ksNext (s : State) (c : Nat) (k : Core) : (s.setCore c k).ksNext = s.ksNext := rfl
@[simp] theorem State.setCore_grids (s : State) (c : Nat) (k : Core) : (s.setCore c k).grids = s.grids := rfl
@[simp] theorem State.setCore_ending (s : State) (c : Nat) (k : Core) : (s.setCore c k).ending = s.ending := rfl
@[simp] theorem State.setCore_gridWait (s : State) (c : Nat) (k : Core) : (s.setCore c k).gridWait = s.gridWait := rfl
@[simp] theorem State.setCore_gridSeq (s : State) (c : Nat) (k : Core) : (s.setCore c k).gridSeq = s.gridSeq := rfl
@[simp] theorem State.setCore_ports (s : State) (c : Nat) (k : Core) : (s.setCore c k).ports = s.ports := rfl
@[simp] theorem State.setCore_far (s : State) (c : Nat) (k : Core) : (s.setCore c k).far = s.far := rfl
@[simp] theorem State.setCore_seqs (s : State) (c : Nat) (k : Core) : (s.setCore c k).seqs = s.seqs := rfl
@[simp] theorem State.setCore_hostPosted (s : State) (c : Nat) (k : Core) : (s.setCore c k).hostPosted = s.hostPosted := rfl
@[simp] theorem State.setCore_hostPostedNext (s : State) (c : Nat) (k : Core) : (s.setCore c k).hostPostedNext = s.hostPostedNext := rfl
@[simp] theorem State.setCore_records (s : State) (c : Nat) (k : Core) : (s.setCore c k).records = s.records := rfl
@[simp] theorem State.setCore_reports (s : State) (c : Nat) (k : Core) : (s.setCore c k).reports = s.reports := rfl
@[simp] theorem State.setCore_services (s : State) (c : Nat) (k : Core) : (s.setCore c k).services = s.services := rfl
@[simp] theorem State.setCore_frSeq (s : State) (c : Nat) (k : Core) : (s.setCore c k).frSeq = s.frSeq := rfl
@[simp] theorem State.setCore_switchIns (s : State) (c : Nat) (k : Core) : (s.setCore c k).switchIns = s.switchIns := rfl
@[simp] theorem State.setCore_claimed (s : State) (c : Nat) (k : Core) : (s.setCore c k).claimed = s.claimed := rfl
@[simp] theorem State.setCore_claimNext (s : State) (c : Nat) (k : Core) : (s.setCore c k).claimNext = s.claimNext := rfl
@[simp] theorem State.setCore_emptySince (s : State) (c : Nat) (k : Core) : (s.setCore c k).emptySince = s.emptySince := rfl
@[simp] theorem State.setCore_pool (s : State) (c : Nat) (k : Core) : (s.setCore c k).pool = s.pool := rfl
@[simp] theorem State.setCore_poolWait (s : State) (c : Nat) (k : Core) : (s.setCore c k).poolWait = s.poolWait := rfl
@[simp] theorem State.setCore_evSeq (s : State) (c : Nat) (k : Core) : (s.setCore c k).evSeq = s.evSeq := rfl
@[simp] theorem State.setCore_evConfirm (s : State) (c : Nat) (k : Core) : (s.setCore c k).evConfirm = s.evConfirm := rfl
@[simp] theorem State.setCore_banks (s : State) (c : Nat) (k : Core) : (s.setCore c k).banks = s.banks := rfl
@[simp] theorem State.setCore_lastLatch (s : State) (c : Nat) (k : Core) : (s.setCore c k).lastLatch = s.lastLatch := rfl
@[simp] theorem State.setCore_snapDue (s : State) (c : Nat) (k : Core) : (s.setCore c k).snapDue = s.snapDue := rfl
@[simp] theorem State.setCore_snapOut (s : State) (c : Nat) (k : Core) : (s.setCore c k).snapOut = s.snapOut := rfl
@[simp] theorem State.setCore_msix (s : State) (c : Nat) (k : Core) : (s.setCore c k).msix = s.msix := rfl
@[simp] theorem State.setCore_msixTable (s : State) (c : Nat) (k : Core) : (s.setCore c k).msixTable = s.msixTable := rfl
@[simp] theorem State.setCore_bar2Size (s : State) (c : Nat) (k : Core) : (s.setCore c k).bar2Size = s.bar2Size := rfl
@[simp] theorem State.setCore_vfBar2Size (s : State) (c : Nat) (k : Core) : (s.setCore c k).vfBar2Size = s.vfBar2Size := rfl
@[simp] theorem State.setCore_hostData (s : State) (c : Nat) (k : Core) : (s.setCore c k).hostData = s.hostData := rfl
@[simp] theorem State.setCore_hostPoisoned (s : State) (c : Nat) (k : Core) : (s.setCore c k).hostPoisoned = s.hostPoisoned := rfl
@[simp] theorem State.setCore_hostUnsupported (s : State) (c : Nat) (k : Core) : (s.setCore c k).hostUnsupported = s.hostUnsupported := rfl
@[simp] theorem State.setCore_launchSent (s : State) (c : Nat) (k : Core) : (s.setCore c k).launchSent = s.launchSent := rfl
@[simp] theorem State.setCore_snapSent (s : State) (c : Nat) (k : Core) : (s.setCore c k).snapSent = s.snapSent := rfl
@[simp] theorem State.setCore_tripped (s : State) (c : Nat) (k : Core) : (s.setCore c k).tripped = s.tripped := rfl
@[simp] theorem State.setCore_atBad (s : State) (c : Nat) (k : Core) : (s.setCore c k).atBad = s.atBad := rfl

@[simp] theorem State.modCore_agenda (s : State) (c : Nat) (h : Core → Core) : (s.modCore c h).agenda = s.agenda := rfl
@[simp] theorem State.modCore_focus (s : State) (c : Nat) (h : Core → Core) : (s.modCore c h).focus = s.focus := rfl
@[simp] theorem State.modCore_input (s : State) (c : Nat) (h : Core → Core) : (s.modCore c h).input = s.input := rfl
@[simp] theorem State.modCore_queued (s : State) (c : Nat) (h : Core → Core) : (s.modCore c h).queued = s.queued := rfl
@[simp] theorem State.modCore_turns (s : State) (c : Nat) (h : Core → Core) : (s.modCore c h).turns = s.turns := rfl
@[simp] theorem State.modCore_ticks (s : State) (c : Nat) (h : Core → Core) : (s.modCore c h).ticks = s.ticks := rfl
@[simp] theorem State.modCore_fresh (s : State) (c : Nat) (h : Core → Core) : (s.modCore c h).fresh = s.fresh := rfl
@[simp] theorem State.modCore_pkgcfg (s : State) (c : Nat) (h : Core → Core) : (s.modCore c h).pkgcfg = s.pkgcfg := rfl
@[simp] theorem State.modCore_ftimeOffset (s : State) (c : Nat) (h : Core → Core) : (s.modCore c h).ftimeOffset = s.ftimeOffset := rfl
@[simp] theorem State.modCore_ftimeHold (s : State) (c : Nat) (h : Core → Core) : (s.modCore c h).ftimeHold = s.ftimeHold := rfl
@[simp] theorem State.modCore_dram (s : State) (c : Nat) (h : Core → Core) : (s.modCore c h).dram = s.dram := rfl
@[simp] theorem State.modCore_llc (s : State) (c : Nat) (h : Core → Core) : (s.modCore c h).llc = s.llc := rfl
@[simp] theorem State.modCore_poison (s : State) (c : Nat) (h : Core → Core) : (s.modCore c h).poison = s.poison := rfl
@[simp] theorem State.modCore_tlb (s : State) (c : Nat) (h : Core → Core) : (s.modCore c h).tlb = s.tlb := rfl
@[simp] theorem State.modCore_recent (s : State) (c : Nat) (h : Core → Core) : (s.modCore c h).recent = s.recent := rfl
@[simp] theorem State.modCore_mgmt (s : State) (c : Nat) (h : Core → Core) : (s.modCore c h).mgmt = s.mgmt := rfl
@[simp] theorem State.modCore_away (s : State) (c : Nat) (h : Core → Core) : (s.modCore c h).away = s.away := rfl
@[simp] theorem State.modCore_tagsUsed (s : State) (c : Nat) (h : Core → Core) : (s.modCore c h).tagsUsed = s.tagsUsed := rfl
@[simp] theorem State.modCore_stations (s : State) (c : Nat) (h : Core → Core) : (s.modCore c h).stations = s.stations := rfl
@[simp] theorem State.modCore_ksOverflow (s : State) (c : Nat) (h : Core → Core) : (s.modCore c h).ksOverflow = s.ksOverflow := rfl
@[simp] theorem State.modCore_ksFlight (s : State) (c : Nat) (h : Core → Core) : (s.modCore c h).ksFlight = s.ksFlight := rfl
@[simp] theorem State.modCore_ksRetry (s : State) (c : Nat) (h : Core → Core) : (s.modCore c h).ksRetry = s.ksRetry := rfl
@[simp] theorem State.modCore_ksHeld (s : State) (c : Nat) (h : Core → Core) : (s.modCore c h).ksHeld = s.ksHeld := rfl
@[simp] theorem State.modCore_ksNext (s : State) (c : Nat) (h : Core → Core) : (s.modCore c h).ksNext = s.ksNext := rfl
@[simp] theorem State.modCore_grids (s : State) (c : Nat) (h : Core → Core) : (s.modCore c h).grids = s.grids := rfl
@[simp] theorem State.modCore_ending (s : State) (c : Nat) (h : Core → Core) : (s.modCore c h).ending = s.ending := rfl
@[simp] theorem State.modCore_gridWait (s : State) (c : Nat) (h : Core → Core) : (s.modCore c h).gridWait = s.gridWait := rfl
@[simp] theorem State.modCore_gridSeq (s : State) (c : Nat) (h : Core → Core) : (s.modCore c h).gridSeq = s.gridSeq := rfl
@[simp] theorem State.modCore_ports (s : State) (c : Nat) (h : Core → Core) : (s.modCore c h).ports = s.ports := rfl
@[simp] theorem State.modCore_far (s : State) (c : Nat) (h : Core → Core) : (s.modCore c h).far = s.far := rfl
@[simp] theorem State.modCore_seqs (s : State) (c : Nat) (h : Core → Core) : (s.modCore c h).seqs = s.seqs := rfl
@[simp] theorem State.modCore_hostPosted (s : State) (c : Nat) (h : Core → Core) : (s.modCore c h).hostPosted = s.hostPosted := rfl
@[simp] theorem State.modCore_hostPostedNext (s : State) (c : Nat) (h : Core → Core) : (s.modCore c h).hostPostedNext = s.hostPostedNext := rfl
@[simp] theorem State.modCore_records (s : State) (c : Nat) (h : Core → Core) : (s.modCore c h).records = s.records := rfl
@[simp] theorem State.modCore_reports (s : State) (c : Nat) (h : Core → Core) : (s.modCore c h).reports = s.reports := rfl
@[simp] theorem State.modCore_services (s : State) (c : Nat) (h : Core → Core) : (s.modCore c h).services = s.services := rfl
@[simp] theorem State.modCore_frSeq (s : State) (c : Nat) (h : Core → Core) : (s.modCore c h).frSeq = s.frSeq := rfl
@[simp] theorem State.modCore_switchIns (s : State) (c : Nat) (h : Core → Core) : (s.modCore c h).switchIns = s.switchIns := rfl
@[simp] theorem State.modCore_claimed (s : State) (c : Nat) (h : Core → Core) : (s.modCore c h).claimed = s.claimed := rfl
@[simp] theorem State.modCore_claimNext (s : State) (c : Nat) (h : Core → Core) : (s.modCore c h).claimNext = s.claimNext := rfl
@[simp] theorem State.modCore_emptySince (s : State) (c : Nat) (h : Core → Core) : (s.modCore c h).emptySince = s.emptySince := rfl
@[simp] theorem State.modCore_pool (s : State) (c : Nat) (h : Core → Core) : (s.modCore c h).pool = s.pool := rfl
@[simp] theorem State.modCore_poolWait (s : State) (c : Nat) (h : Core → Core) : (s.modCore c h).poolWait = s.poolWait := rfl
@[simp] theorem State.modCore_evSeq (s : State) (c : Nat) (h : Core → Core) : (s.modCore c h).evSeq = s.evSeq := rfl
@[simp] theorem State.modCore_evConfirm (s : State) (c : Nat) (h : Core → Core) : (s.modCore c h).evConfirm = s.evConfirm := rfl
@[simp] theorem State.modCore_banks (s : State) (c : Nat) (h : Core → Core) : (s.modCore c h).banks = s.banks := rfl
@[simp] theorem State.modCore_lastLatch (s : State) (c : Nat) (h : Core → Core) : (s.modCore c h).lastLatch = s.lastLatch := rfl
@[simp] theorem State.modCore_snapDue (s : State) (c : Nat) (h : Core → Core) : (s.modCore c h).snapDue = s.snapDue := rfl
@[simp] theorem State.modCore_snapOut (s : State) (c : Nat) (h : Core → Core) : (s.modCore c h).snapOut = s.snapOut := rfl
@[simp] theorem State.modCore_msix (s : State) (c : Nat) (h : Core → Core) : (s.modCore c h).msix = s.msix := rfl
@[simp] theorem State.modCore_msixTable (s : State) (c : Nat) (h : Core → Core) : (s.modCore c h).msixTable = s.msixTable := rfl
@[simp] theorem State.modCore_bar2Size (s : State) (c : Nat) (h : Core → Core) : (s.modCore c h).bar2Size = s.bar2Size := rfl
@[simp] theorem State.modCore_vfBar2Size (s : State) (c : Nat) (h : Core → Core) : (s.modCore c h).vfBar2Size = s.vfBar2Size := rfl
@[simp] theorem State.modCore_hostData (s : State) (c : Nat) (h : Core → Core) : (s.modCore c h).hostData = s.hostData := rfl
@[simp] theorem State.modCore_hostPoisoned (s : State) (c : Nat) (h : Core → Core) : (s.modCore c h).hostPoisoned = s.hostPoisoned := rfl
@[simp] theorem State.modCore_hostUnsupported (s : State) (c : Nat) (h : Core → Core) : (s.modCore c h).hostUnsupported = s.hostUnsupported := rfl
@[simp] theorem State.modCore_launchSent (s : State) (c : Nat) (h : Core → Core) : (s.modCore c h).launchSent = s.launchSent := rfl
@[simp] theorem State.modCore_snapSent (s : State) (c : Nat) (h : Core → Core) : (s.modCore c h).snapSent = s.snapSent := rfl
@[simp] theorem State.modCore_tripped (s : State) (c : Nat) (h : Core → Core) : (s.modCore c h).tripped = s.tripped := rfl
@[simp] theorem State.modCore_atBad (s : State) (c : Nat) (h : Core → Core) : (s.modCore c h).atBad = s.atBad := rfl

@[simp] theorem State.modTeam_agenda (s : State) (c t : Nat) (h : Team → Team) : (s.modTeam c t h).agenda = s.agenda := rfl
@[simp] theorem State.modTeam_focus (s : State) (c t : Nat) (h : Team → Team) : (s.modTeam c t h).focus = s.focus := rfl
@[simp] theorem State.modTeam_input (s : State) (c t : Nat) (h : Team → Team) : (s.modTeam c t h).input = s.input := rfl
@[simp] theorem State.modTeam_queued (s : State) (c t : Nat) (h : Team → Team) : (s.modTeam c t h).queued = s.queued := rfl
@[simp] theorem State.modTeam_turns (s : State) (c t : Nat) (h : Team → Team) : (s.modTeam c t h).turns = s.turns := rfl
@[simp] theorem State.modTeam_ticks (s : State) (c t : Nat) (h : Team → Team) : (s.modTeam c t h).ticks = s.ticks := rfl
@[simp] theorem State.modTeam_fresh (s : State) (c t : Nat) (h : Team → Team) : (s.modTeam c t h).fresh = s.fresh := rfl
@[simp] theorem State.modTeam_pkgcfg (s : State) (c t : Nat) (h : Team → Team) : (s.modTeam c t h).pkgcfg = s.pkgcfg := rfl
@[simp] theorem State.modTeam_ftimeOffset (s : State) (c t : Nat) (h : Team → Team) : (s.modTeam c t h).ftimeOffset = s.ftimeOffset := rfl
@[simp] theorem State.modTeam_ftimeHold (s : State) (c t : Nat) (h : Team → Team) : (s.modTeam c t h).ftimeHold = s.ftimeHold := rfl
@[simp] theorem State.modTeam_dram (s : State) (c t : Nat) (h : Team → Team) : (s.modTeam c t h).dram = s.dram := rfl
@[simp] theorem State.modTeam_llc (s : State) (c t : Nat) (h : Team → Team) : (s.modTeam c t h).llc = s.llc := rfl
@[simp] theorem State.modTeam_poison (s : State) (c t : Nat) (h : Team → Team) : (s.modTeam c t h).poison = s.poison := rfl
@[simp] theorem State.modTeam_tlb (s : State) (c t : Nat) (h : Team → Team) : (s.modTeam c t h).tlb = s.tlb := rfl
@[simp] theorem State.modTeam_recent (s : State) (c t : Nat) (h : Team → Team) : (s.modTeam c t h).recent = s.recent := rfl
@[simp] theorem State.modTeam_mgmt (s : State) (c t : Nat) (h : Team → Team) : (s.modTeam c t h).mgmt = s.mgmt := rfl
@[simp] theorem State.modTeam_away (s : State) (c t : Nat) (h : Team → Team) : (s.modTeam c t h).away = s.away := rfl
@[simp] theorem State.modTeam_tagsUsed (s : State) (c t : Nat) (h : Team → Team) : (s.modTeam c t h).tagsUsed = s.tagsUsed := rfl
@[simp] theorem State.modTeam_stations (s : State) (c t : Nat) (h : Team → Team) : (s.modTeam c t h).stations = s.stations := rfl
@[simp] theorem State.modTeam_ksOverflow (s : State) (c t : Nat) (h : Team → Team) : (s.modTeam c t h).ksOverflow = s.ksOverflow := rfl
@[simp] theorem State.modTeam_ksFlight (s : State) (c t : Nat) (h : Team → Team) : (s.modTeam c t h).ksFlight = s.ksFlight := rfl
@[simp] theorem State.modTeam_ksRetry (s : State) (c t : Nat) (h : Team → Team) : (s.modTeam c t h).ksRetry = s.ksRetry := rfl
@[simp] theorem State.modTeam_ksHeld (s : State) (c t : Nat) (h : Team → Team) : (s.modTeam c t h).ksHeld = s.ksHeld := rfl
@[simp] theorem State.modTeam_ksNext (s : State) (c t : Nat) (h : Team → Team) : (s.modTeam c t h).ksNext = s.ksNext := rfl
@[simp] theorem State.modTeam_grids (s : State) (c t : Nat) (h : Team → Team) : (s.modTeam c t h).grids = s.grids := rfl
@[simp] theorem State.modTeam_ending (s : State) (c t : Nat) (h : Team → Team) : (s.modTeam c t h).ending = s.ending := rfl
@[simp] theorem State.modTeam_gridWait (s : State) (c t : Nat) (h : Team → Team) : (s.modTeam c t h).gridWait = s.gridWait := rfl
@[simp] theorem State.modTeam_gridSeq (s : State) (c t : Nat) (h : Team → Team) : (s.modTeam c t h).gridSeq = s.gridSeq := rfl
@[simp] theorem State.modTeam_ports (s : State) (c t : Nat) (h : Team → Team) : (s.modTeam c t h).ports = s.ports := rfl
@[simp] theorem State.modTeam_far (s : State) (c t : Nat) (h : Team → Team) : (s.modTeam c t h).far = s.far := rfl
@[simp] theorem State.modTeam_seqs (s : State) (c t : Nat) (h : Team → Team) : (s.modTeam c t h).seqs = s.seqs := rfl
@[simp] theorem State.modTeam_hostPosted (s : State) (c t : Nat) (h : Team → Team) : (s.modTeam c t h).hostPosted = s.hostPosted := rfl
@[simp] theorem State.modTeam_hostPostedNext (s : State) (c t : Nat) (h : Team → Team) : (s.modTeam c t h).hostPostedNext = s.hostPostedNext := rfl
@[simp] theorem State.modTeam_records (s : State) (c t : Nat) (h : Team → Team) : (s.modTeam c t h).records = s.records := rfl
@[simp] theorem State.modTeam_reports (s : State) (c t : Nat) (h : Team → Team) : (s.modTeam c t h).reports = s.reports := rfl
@[simp] theorem State.modTeam_services (s : State) (c t : Nat) (h : Team → Team) : (s.modTeam c t h).services = s.services := rfl
@[simp] theorem State.modTeam_frSeq (s : State) (c t : Nat) (h : Team → Team) : (s.modTeam c t h).frSeq = s.frSeq := rfl
@[simp] theorem State.modTeam_switchIns (s : State) (c t : Nat) (h : Team → Team) : (s.modTeam c t h).switchIns = s.switchIns := rfl
@[simp] theorem State.modTeam_claimed (s : State) (c t : Nat) (h : Team → Team) : (s.modTeam c t h).claimed = s.claimed := rfl
@[simp] theorem State.modTeam_claimNext (s : State) (c t : Nat) (h : Team → Team) : (s.modTeam c t h).claimNext = s.claimNext := rfl
@[simp] theorem State.modTeam_emptySince (s : State) (c t : Nat) (h : Team → Team) : (s.modTeam c t h).emptySince = s.emptySince := rfl
@[simp] theorem State.modTeam_pool (s : State) (c t : Nat) (h : Team → Team) : (s.modTeam c t h).pool = s.pool := rfl
@[simp] theorem State.modTeam_poolWait (s : State) (c t : Nat) (h : Team → Team) : (s.modTeam c t h).poolWait = s.poolWait := rfl
@[simp] theorem State.modTeam_evSeq (s : State) (c t : Nat) (h : Team → Team) : (s.modTeam c t h).evSeq = s.evSeq := rfl
@[simp] theorem State.modTeam_evConfirm (s : State) (c t : Nat) (h : Team → Team) : (s.modTeam c t h).evConfirm = s.evConfirm := rfl
@[simp] theorem State.modTeam_banks (s : State) (c t : Nat) (h : Team → Team) : (s.modTeam c t h).banks = s.banks := rfl
@[simp] theorem State.modTeam_lastLatch (s : State) (c t : Nat) (h : Team → Team) : (s.modTeam c t h).lastLatch = s.lastLatch := rfl
@[simp] theorem State.modTeam_snapDue (s : State) (c t : Nat) (h : Team → Team) : (s.modTeam c t h).snapDue = s.snapDue := rfl
@[simp] theorem State.modTeam_snapOut (s : State) (c t : Nat) (h : Team → Team) : (s.modTeam c t h).snapOut = s.snapOut := rfl
@[simp] theorem State.modTeam_msix (s : State) (c t : Nat) (h : Team → Team) : (s.modTeam c t h).msix = s.msix := rfl
@[simp] theorem State.modTeam_msixTable (s : State) (c t : Nat) (h : Team → Team) : (s.modTeam c t h).msixTable = s.msixTable := rfl
@[simp] theorem State.modTeam_bar2Size (s : State) (c t : Nat) (h : Team → Team) : (s.modTeam c t h).bar2Size = s.bar2Size := rfl
@[simp] theorem State.modTeam_vfBar2Size (s : State) (c t : Nat) (h : Team → Team) : (s.modTeam c t h).vfBar2Size = s.vfBar2Size := rfl
@[simp] theorem State.modTeam_hostData (s : State) (c t : Nat) (h : Team → Team) : (s.modTeam c t h).hostData = s.hostData := rfl
@[simp] theorem State.modTeam_hostPoisoned (s : State) (c t : Nat) (h : Team → Team) : (s.modTeam c t h).hostPoisoned = s.hostPoisoned := rfl
@[simp] theorem State.modTeam_hostUnsupported (s : State) (c t : Nat) (h : Team → Team) : (s.modTeam c t h).hostUnsupported = s.hostUnsupported := rfl
@[simp] theorem State.modTeam_launchSent (s : State) (c t : Nat) (h : Team → Team) : (s.modTeam c t h).launchSent = s.launchSent := rfl
@[simp] theorem State.modTeam_snapSent (s : State) (c t : Nat) (h : Team → Team) : (s.modTeam c t h).snapSent = s.snapSent := rfl
@[simp] theorem State.modTeam_tripped (s : State) (c t : Nat) (h : Team → Team) : (s.modTeam c t h).tripped = s.tripped := rfl
@[simp] theorem State.modTeam_atBad (s : State) (c t : Nat) (h : Team → Team) : (s.modTeam c t h).atBad = s.atBad := rfl

@[simp] theorem State.modGroup_agenda (s : State) (c t i : Nat) (h : Group → Group) : (s.modGroup c t i h).agenda = s.agenda := rfl
@[simp] theorem State.modGroup_focus (s : State) (c t i : Nat) (h : Group → Group) : (s.modGroup c t i h).focus = s.focus := rfl
@[simp] theorem State.modGroup_input (s : State) (c t i : Nat) (h : Group → Group) : (s.modGroup c t i h).input = s.input := rfl
@[simp] theorem State.modGroup_queued (s : State) (c t i : Nat) (h : Group → Group) : (s.modGroup c t i h).queued = s.queued := rfl
@[simp] theorem State.modGroup_turns (s : State) (c t i : Nat) (h : Group → Group) : (s.modGroup c t i h).turns = s.turns := rfl
@[simp] theorem State.modGroup_ticks (s : State) (c t i : Nat) (h : Group → Group) : (s.modGroup c t i h).ticks = s.ticks := rfl
@[simp] theorem State.modGroup_fresh (s : State) (c t i : Nat) (h : Group → Group) : (s.modGroup c t i h).fresh = s.fresh := rfl
@[simp] theorem State.modGroup_pkgcfg (s : State) (c t i : Nat) (h : Group → Group) : (s.modGroup c t i h).pkgcfg = s.pkgcfg := rfl
@[simp] theorem State.modGroup_ftimeOffset (s : State) (c t i : Nat) (h : Group → Group) : (s.modGroup c t i h).ftimeOffset = s.ftimeOffset := rfl
@[simp] theorem State.modGroup_ftimeHold (s : State) (c t i : Nat) (h : Group → Group) : (s.modGroup c t i h).ftimeHold = s.ftimeHold := rfl
@[simp] theorem State.modGroup_dram (s : State) (c t i : Nat) (h : Group → Group) : (s.modGroup c t i h).dram = s.dram := rfl
@[simp] theorem State.modGroup_llc (s : State) (c t i : Nat) (h : Group → Group) : (s.modGroup c t i h).llc = s.llc := rfl
@[simp] theorem State.modGroup_poison (s : State) (c t i : Nat) (h : Group → Group) : (s.modGroup c t i h).poison = s.poison := rfl
@[simp] theorem State.modGroup_tlb (s : State) (c t i : Nat) (h : Group → Group) : (s.modGroup c t i h).tlb = s.tlb := rfl
@[simp] theorem State.modGroup_recent (s : State) (c t i : Nat) (h : Group → Group) : (s.modGroup c t i h).recent = s.recent := rfl
@[simp] theorem State.modGroup_mgmt (s : State) (c t i : Nat) (h : Group → Group) : (s.modGroup c t i h).mgmt = s.mgmt := rfl
@[simp] theorem State.modGroup_away (s : State) (c t i : Nat) (h : Group → Group) : (s.modGroup c t i h).away = s.away := rfl
@[simp] theorem State.modGroup_tagsUsed (s : State) (c t i : Nat) (h : Group → Group) : (s.modGroup c t i h).tagsUsed = s.tagsUsed := rfl
@[simp] theorem State.modGroup_stations (s : State) (c t i : Nat) (h : Group → Group) : (s.modGroup c t i h).stations = s.stations := rfl
@[simp] theorem State.modGroup_ksOverflow (s : State) (c t i : Nat) (h : Group → Group) : (s.modGroup c t i h).ksOverflow = s.ksOverflow := rfl
@[simp] theorem State.modGroup_ksFlight (s : State) (c t i : Nat) (h : Group → Group) : (s.modGroup c t i h).ksFlight = s.ksFlight := rfl
@[simp] theorem State.modGroup_ksRetry (s : State) (c t i : Nat) (h : Group → Group) : (s.modGroup c t i h).ksRetry = s.ksRetry := rfl
@[simp] theorem State.modGroup_ksHeld (s : State) (c t i : Nat) (h : Group → Group) : (s.modGroup c t i h).ksHeld = s.ksHeld := rfl
@[simp] theorem State.modGroup_ksNext (s : State) (c t i : Nat) (h : Group → Group) : (s.modGroup c t i h).ksNext = s.ksNext := rfl
@[simp] theorem State.modGroup_grids (s : State) (c t i : Nat) (h : Group → Group) : (s.modGroup c t i h).grids = s.grids := rfl
@[simp] theorem State.modGroup_ending (s : State) (c t i : Nat) (h : Group → Group) : (s.modGroup c t i h).ending = s.ending := rfl
@[simp] theorem State.modGroup_gridWait (s : State) (c t i : Nat) (h : Group → Group) : (s.modGroup c t i h).gridWait = s.gridWait := rfl
@[simp] theorem State.modGroup_gridSeq (s : State) (c t i : Nat) (h : Group → Group) : (s.modGroup c t i h).gridSeq = s.gridSeq := rfl
@[simp] theorem State.modGroup_ports (s : State) (c t i : Nat) (h : Group → Group) : (s.modGroup c t i h).ports = s.ports := rfl
@[simp] theorem State.modGroup_far (s : State) (c t i : Nat) (h : Group → Group) : (s.modGroup c t i h).far = s.far := rfl
@[simp] theorem State.modGroup_seqs (s : State) (c t i : Nat) (h : Group → Group) : (s.modGroup c t i h).seqs = s.seqs := rfl
@[simp] theorem State.modGroup_hostPosted (s : State) (c t i : Nat) (h : Group → Group) : (s.modGroup c t i h).hostPosted = s.hostPosted := rfl
@[simp] theorem State.modGroup_hostPostedNext (s : State) (c t i : Nat) (h : Group → Group) : (s.modGroup c t i h).hostPostedNext = s.hostPostedNext := rfl
@[simp] theorem State.modGroup_records (s : State) (c t i : Nat) (h : Group → Group) : (s.modGroup c t i h).records = s.records := rfl
@[simp] theorem State.modGroup_reports (s : State) (c t i : Nat) (h : Group → Group) : (s.modGroup c t i h).reports = s.reports := rfl
@[simp] theorem State.modGroup_services (s : State) (c t i : Nat) (h : Group → Group) : (s.modGroup c t i h).services = s.services := rfl
@[simp] theorem State.modGroup_frSeq (s : State) (c t i : Nat) (h : Group → Group) : (s.modGroup c t i h).frSeq = s.frSeq := rfl
@[simp] theorem State.modGroup_switchIns (s : State) (c t i : Nat) (h : Group → Group) : (s.modGroup c t i h).switchIns = s.switchIns := rfl
@[simp] theorem State.modGroup_claimed (s : State) (c t i : Nat) (h : Group → Group) : (s.modGroup c t i h).claimed = s.claimed := rfl
@[simp] theorem State.modGroup_claimNext (s : State) (c t i : Nat) (h : Group → Group) : (s.modGroup c t i h).claimNext = s.claimNext := rfl
@[simp] theorem State.modGroup_emptySince (s : State) (c t i : Nat) (h : Group → Group) : (s.modGroup c t i h).emptySince = s.emptySince := rfl
@[simp] theorem State.modGroup_pool (s : State) (c t i : Nat) (h : Group → Group) : (s.modGroup c t i h).pool = s.pool := rfl
@[simp] theorem State.modGroup_poolWait (s : State) (c t i : Nat) (h : Group → Group) : (s.modGroup c t i h).poolWait = s.poolWait := rfl
@[simp] theorem State.modGroup_evSeq (s : State) (c t i : Nat) (h : Group → Group) : (s.modGroup c t i h).evSeq = s.evSeq := rfl
@[simp] theorem State.modGroup_evConfirm (s : State) (c t i : Nat) (h : Group → Group) : (s.modGroup c t i h).evConfirm = s.evConfirm := rfl
@[simp] theorem State.modGroup_banks (s : State) (c t i : Nat) (h : Group → Group) : (s.modGroup c t i h).banks = s.banks := rfl
@[simp] theorem State.modGroup_lastLatch (s : State) (c t i : Nat) (h : Group → Group) : (s.modGroup c t i h).lastLatch = s.lastLatch := rfl
@[simp] theorem State.modGroup_snapDue (s : State) (c t i : Nat) (h : Group → Group) : (s.modGroup c t i h).snapDue = s.snapDue := rfl
@[simp] theorem State.modGroup_snapOut (s : State) (c t i : Nat) (h : Group → Group) : (s.modGroup c t i h).snapOut = s.snapOut := rfl
@[simp] theorem State.modGroup_msix (s : State) (c t i : Nat) (h : Group → Group) : (s.modGroup c t i h).msix = s.msix := rfl
@[simp] theorem State.modGroup_msixTable (s : State) (c t i : Nat) (h : Group → Group) : (s.modGroup c t i h).msixTable = s.msixTable := rfl
@[simp] theorem State.modGroup_bar2Size (s : State) (c t i : Nat) (h : Group → Group) : (s.modGroup c t i h).bar2Size = s.bar2Size := rfl
@[simp] theorem State.modGroup_vfBar2Size (s : State) (c t i : Nat) (h : Group → Group) : (s.modGroup c t i h).vfBar2Size = s.vfBar2Size := rfl
@[simp] theorem State.modGroup_hostData (s : State) (c t i : Nat) (h : Group → Group) : (s.modGroup c t i h).hostData = s.hostData := rfl
@[simp] theorem State.modGroup_hostPoisoned (s : State) (c t i : Nat) (h : Group → Group) : (s.modGroup c t i h).hostPoisoned = s.hostPoisoned := rfl
@[simp] theorem State.modGroup_hostUnsupported (s : State) (c t i : Nat) (h : Group → Group) : (s.modGroup c t i h).hostUnsupported = s.hostUnsupported := rfl
@[simp] theorem State.modGroup_launchSent (s : State) (c t i : Nat) (h : Group → Group) : (s.modGroup c t i h).launchSent = s.launchSent := rfl
@[simp] theorem State.modGroup_snapSent (s : State) (c t i : Nat) (h : Group → Group) : (s.modGroup c t i h).snapSent = s.snapSent := rfl
@[simp] theorem State.modGroup_tripped (s : State) (c t i : Nat) (h : Group → Group) : (s.modGroup c t i h).tripped = s.tripped := rfl
@[simp] theorem State.modGroup_atBad (s : State) (c t i : Nat) (h : Group → Group) : (s.modGroup c t i h).atBad = s.atBad := rfl

@[simp] theorem State.modOwn_agenda (s : State) (h : Group → Group) : (s.modOwn h).agenda = s.agenda := rfl
@[simp] theorem State.modOwn_focus (s : State) (h : Group → Group) : (s.modOwn h).focus = s.focus := rfl
@[simp] theorem State.modOwn_input (s : State) (h : Group → Group) : (s.modOwn h).input = s.input := rfl
@[simp] theorem State.modOwn_queued (s : State) (h : Group → Group) : (s.modOwn h).queued = s.queued := rfl
@[simp] theorem State.modOwn_turns (s : State) (h : Group → Group) : (s.modOwn h).turns = s.turns := rfl
@[simp] theorem State.modOwn_ticks (s : State) (h : Group → Group) : (s.modOwn h).ticks = s.ticks := rfl
@[simp] theorem State.modOwn_fresh (s : State) (h : Group → Group) : (s.modOwn h).fresh = s.fresh := rfl
@[simp] theorem State.modOwn_pkgcfg (s : State) (h : Group → Group) : (s.modOwn h).pkgcfg = s.pkgcfg := rfl
@[simp] theorem State.modOwn_ftimeOffset (s : State) (h : Group → Group) : (s.modOwn h).ftimeOffset = s.ftimeOffset := rfl
@[simp] theorem State.modOwn_ftimeHold (s : State) (h : Group → Group) : (s.modOwn h).ftimeHold = s.ftimeHold := rfl
@[simp] theorem State.modOwn_dram (s : State) (h : Group → Group) : (s.modOwn h).dram = s.dram := rfl
@[simp] theorem State.modOwn_llc (s : State) (h : Group → Group) : (s.modOwn h).llc = s.llc := rfl
@[simp] theorem State.modOwn_poison (s : State) (h : Group → Group) : (s.modOwn h).poison = s.poison := rfl
@[simp] theorem State.modOwn_tlb (s : State) (h : Group → Group) : (s.modOwn h).tlb = s.tlb := rfl
@[simp] theorem State.modOwn_recent (s : State) (h : Group → Group) : (s.modOwn h).recent = s.recent := rfl
@[simp] theorem State.modOwn_mgmt (s : State) (h : Group → Group) : (s.modOwn h).mgmt = s.mgmt := rfl
@[simp] theorem State.modOwn_away (s : State) (h : Group → Group) : (s.modOwn h).away = s.away := rfl
@[simp] theorem State.modOwn_tagsUsed (s : State) (h : Group → Group) : (s.modOwn h).tagsUsed = s.tagsUsed := rfl
@[simp] theorem State.modOwn_stations (s : State) (h : Group → Group) : (s.modOwn h).stations = s.stations := rfl
@[simp] theorem State.modOwn_ksOverflow (s : State) (h : Group → Group) : (s.modOwn h).ksOverflow = s.ksOverflow := rfl
@[simp] theorem State.modOwn_ksFlight (s : State) (h : Group → Group) : (s.modOwn h).ksFlight = s.ksFlight := rfl
@[simp] theorem State.modOwn_ksRetry (s : State) (h : Group → Group) : (s.modOwn h).ksRetry = s.ksRetry := rfl
@[simp] theorem State.modOwn_ksHeld (s : State) (h : Group → Group) : (s.modOwn h).ksHeld = s.ksHeld := rfl
@[simp] theorem State.modOwn_ksNext (s : State) (h : Group → Group) : (s.modOwn h).ksNext = s.ksNext := rfl
@[simp] theorem State.modOwn_grids (s : State) (h : Group → Group) : (s.modOwn h).grids = s.grids := rfl
@[simp] theorem State.modOwn_ending (s : State) (h : Group → Group) : (s.modOwn h).ending = s.ending := rfl
@[simp] theorem State.modOwn_gridWait (s : State) (h : Group → Group) : (s.modOwn h).gridWait = s.gridWait := rfl
@[simp] theorem State.modOwn_gridSeq (s : State) (h : Group → Group) : (s.modOwn h).gridSeq = s.gridSeq := rfl
@[simp] theorem State.modOwn_ports (s : State) (h : Group → Group) : (s.modOwn h).ports = s.ports := rfl
@[simp] theorem State.modOwn_far (s : State) (h : Group → Group) : (s.modOwn h).far = s.far := rfl
@[simp] theorem State.modOwn_seqs (s : State) (h : Group → Group) : (s.modOwn h).seqs = s.seqs := rfl
@[simp] theorem State.modOwn_hostPosted (s : State) (h : Group → Group) : (s.modOwn h).hostPosted = s.hostPosted := rfl
@[simp] theorem State.modOwn_hostPostedNext (s : State) (h : Group → Group) : (s.modOwn h).hostPostedNext = s.hostPostedNext := rfl
@[simp] theorem State.modOwn_records (s : State) (h : Group → Group) : (s.modOwn h).records = s.records := rfl
@[simp] theorem State.modOwn_reports (s : State) (h : Group → Group) : (s.modOwn h).reports = s.reports := rfl
@[simp] theorem State.modOwn_services (s : State) (h : Group → Group) : (s.modOwn h).services = s.services := rfl
@[simp] theorem State.modOwn_frSeq (s : State) (h : Group → Group) : (s.modOwn h).frSeq = s.frSeq := rfl
@[simp] theorem State.modOwn_switchIns (s : State) (h : Group → Group) : (s.modOwn h).switchIns = s.switchIns := rfl
@[simp] theorem State.modOwn_claimed (s : State) (h : Group → Group) : (s.modOwn h).claimed = s.claimed := rfl
@[simp] theorem State.modOwn_claimNext (s : State) (h : Group → Group) : (s.modOwn h).claimNext = s.claimNext := rfl
@[simp] theorem State.modOwn_emptySince (s : State) (h : Group → Group) : (s.modOwn h).emptySince = s.emptySince := rfl
@[simp] theorem State.modOwn_pool (s : State) (h : Group → Group) : (s.modOwn h).pool = s.pool := rfl
@[simp] theorem State.modOwn_poolWait (s : State) (h : Group → Group) : (s.modOwn h).poolWait = s.poolWait := rfl
@[simp] theorem State.modOwn_evSeq (s : State) (h : Group → Group) : (s.modOwn h).evSeq = s.evSeq := rfl
@[simp] theorem State.modOwn_evConfirm (s : State) (h : Group → Group) : (s.modOwn h).evConfirm = s.evConfirm := rfl
@[simp] theorem State.modOwn_banks (s : State) (h : Group → Group) : (s.modOwn h).banks = s.banks := rfl
@[simp] theorem State.modOwn_lastLatch (s : State) (h : Group → Group) : (s.modOwn h).lastLatch = s.lastLatch := rfl
@[simp] theorem State.modOwn_snapDue (s : State) (h : Group → Group) : (s.modOwn h).snapDue = s.snapDue := rfl
@[simp] theorem State.modOwn_snapOut (s : State) (h : Group → Group) : (s.modOwn h).snapOut = s.snapOut := rfl
@[simp] theorem State.modOwn_msix (s : State) (h : Group → Group) : (s.modOwn h).msix = s.msix := rfl
@[simp] theorem State.modOwn_msixTable (s : State) (h : Group → Group) : (s.modOwn h).msixTable = s.msixTable := rfl
@[simp] theorem State.modOwn_bar2Size (s : State) (h : Group → Group) : (s.modOwn h).bar2Size = s.bar2Size := rfl
@[simp] theorem State.modOwn_vfBar2Size (s : State) (h : Group → Group) : (s.modOwn h).vfBar2Size = s.vfBar2Size := rfl
@[simp] theorem State.modOwn_hostData (s : State) (h : Group → Group) : (s.modOwn h).hostData = s.hostData := rfl
@[simp] theorem State.modOwn_hostPoisoned (s : State) (h : Group → Group) : (s.modOwn h).hostPoisoned = s.hostPoisoned := rfl
@[simp] theorem State.modOwn_hostUnsupported (s : State) (h : Group → Group) : (s.modOwn h).hostUnsupported = s.hostUnsupported := rfl
@[simp] theorem State.modOwn_launchSent (s : State) (h : Group → Group) : (s.modOwn h).launchSent = s.launchSent := rfl
@[simp] theorem State.modOwn_snapSent (s : State) (h : Group → Group) : (s.modOwn h).snapSent = s.snapSent := rfl
@[simp] theorem State.modOwn_tripped (s : State) (h : Group → Group) : (s.modOwn h).tripped = s.tripped := rfl
@[simp] theorem State.modOwn_atBad (s : State) (h : Group → Group) : (s.modOwn h).atBad = s.atBad := rfl

@[simp] theorem State.modOwnTeam_agenda (s : State) (h : Team → Team) : (s.modOwnTeam h).agenda = s.agenda := rfl
@[simp] theorem State.modOwnTeam_focus (s : State) (h : Team → Team) : (s.modOwnTeam h).focus = s.focus := rfl
@[simp] theorem State.modOwnTeam_input (s : State) (h : Team → Team) : (s.modOwnTeam h).input = s.input := rfl
@[simp] theorem State.modOwnTeam_queued (s : State) (h : Team → Team) : (s.modOwnTeam h).queued = s.queued := rfl
@[simp] theorem State.modOwnTeam_turns (s : State) (h : Team → Team) : (s.modOwnTeam h).turns = s.turns := rfl
@[simp] theorem State.modOwnTeam_ticks (s : State) (h : Team → Team) : (s.modOwnTeam h).ticks = s.ticks := rfl
@[simp] theorem State.modOwnTeam_fresh (s : State) (h : Team → Team) : (s.modOwnTeam h).fresh = s.fresh := rfl
@[simp] theorem State.modOwnTeam_pkgcfg (s : State) (h : Team → Team) : (s.modOwnTeam h).pkgcfg = s.pkgcfg := rfl
@[simp] theorem State.modOwnTeam_ftimeOffset (s : State) (h : Team → Team) : (s.modOwnTeam h).ftimeOffset = s.ftimeOffset := rfl
@[simp] theorem State.modOwnTeam_ftimeHold (s : State) (h : Team → Team) : (s.modOwnTeam h).ftimeHold = s.ftimeHold := rfl
@[simp] theorem State.modOwnTeam_dram (s : State) (h : Team → Team) : (s.modOwnTeam h).dram = s.dram := rfl
@[simp] theorem State.modOwnTeam_llc (s : State) (h : Team → Team) : (s.modOwnTeam h).llc = s.llc := rfl
@[simp] theorem State.modOwnTeam_poison (s : State) (h : Team → Team) : (s.modOwnTeam h).poison = s.poison := rfl
@[simp] theorem State.modOwnTeam_tlb (s : State) (h : Team → Team) : (s.modOwnTeam h).tlb = s.tlb := rfl
@[simp] theorem State.modOwnTeam_recent (s : State) (h : Team → Team) : (s.modOwnTeam h).recent = s.recent := rfl
@[simp] theorem State.modOwnTeam_mgmt (s : State) (h : Team → Team) : (s.modOwnTeam h).mgmt = s.mgmt := rfl
@[simp] theorem State.modOwnTeam_away (s : State) (h : Team → Team) : (s.modOwnTeam h).away = s.away := rfl
@[simp] theorem State.modOwnTeam_tagsUsed (s : State) (h : Team → Team) : (s.modOwnTeam h).tagsUsed = s.tagsUsed := rfl
@[simp] theorem State.modOwnTeam_stations (s : State) (h : Team → Team) : (s.modOwnTeam h).stations = s.stations := rfl
@[simp] theorem State.modOwnTeam_ksOverflow (s : State) (h : Team → Team) : (s.modOwnTeam h).ksOverflow = s.ksOverflow := rfl
@[simp] theorem State.modOwnTeam_ksFlight (s : State) (h : Team → Team) : (s.modOwnTeam h).ksFlight = s.ksFlight := rfl
@[simp] theorem State.modOwnTeam_ksRetry (s : State) (h : Team → Team) : (s.modOwnTeam h).ksRetry = s.ksRetry := rfl
@[simp] theorem State.modOwnTeam_ksHeld (s : State) (h : Team → Team) : (s.modOwnTeam h).ksHeld = s.ksHeld := rfl
@[simp] theorem State.modOwnTeam_ksNext (s : State) (h : Team → Team) : (s.modOwnTeam h).ksNext = s.ksNext := rfl
@[simp] theorem State.modOwnTeam_grids (s : State) (h : Team → Team) : (s.modOwnTeam h).grids = s.grids := rfl
@[simp] theorem State.modOwnTeam_ending (s : State) (h : Team → Team) : (s.modOwnTeam h).ending = s.ending := rfl
@[simp] theorem State.modOwnTeam_gridWait (s : State) (h : Team → Team) : (s.modOwnTeam h).gridWait = s.gridWait := rfl
@[simp] theorem State.modOwnTeam_gridSeq (s : State) (h : Team → Team) : (s.modOwnTeam h).gridSeq = s.gridSeq := rfl
@[simp] theorem State.modOwnTeam_ports (s : State) (h : Team → Team) : (s.modOwnTeam h).ports = s.ports := rfl
@[simp] theorem State.modOwnTeam_far (s : State) (h : Team → Team) : (s.modOwnTeam h).far = s.far := rfl
@[simp] theorem State.modOwnTeam_seqs (s : State) (h : Team → Team) : (s.modOwnTeam h).seqs = s.seqs := rfl
@[simp] theorem State.modOwnTeam_hostPosted (s : State) (h : Team → Team) : (s.modOwnTeam h).hostPosted = s.hostPosted := rfl
@[simp] theorem State.modOwnTeam_hostPostedNext (s : State) (h : Team → Team) : (s.modOwnTeam h).hostPostedNext = s.hostPostedNext := rfl
@[simp] theorem State.modOwnTeam_records (s : State) (h : Team → Team) : (s.modOwnTeam h).records = s.records := rfl
@[simp] theorem State.modOwnTeam_reports (s : State) (h : Team → Team) : (s.modOwnTeam h).reports = s.reports := rfl
@[simp] theorem State.modOwnTeam_services (s : State) (h : Team → Team) : (s.modOwnTeam h).services = s.services := rfl
@[simp] theorem State.modOwnTeam_frSeq (s : State) (h : Team → Team) : (s.modOwnTeam h).frSeq = s.frSeq := rfl
@[simp] theorem State.modOwnTeam_switchIns (s : State) (h : Team → Team) : (s.modOwnTeam h).switchIns = s.switchIns := rfl
@[simp] theorem State.modOwnTeam_claimed (s : State) (h : Team → Team) : (s.modOwnTeam h).claimed = s.claimed := rfl
@[simp] theorem State.modOwnTeam_claimNext (s : State) (h : Team → Team) : (s.modOwnTeam h).claimNext = s.claimNext := rfl
@[simp] theorem State.modOwnTeam_emptySince (s : State) (h : Team → Team) : (s.modOwnTeam h).emptySince = s.emptySince := rfl
@[simp] theorem State.modOwnTeam_pool (s : State) (h : Team → Team) : (s.modOwnTeam h).pool = s.pool := rfl
@[simp] theorem State.modOwnTeam_poolWait (s : State) (h : Team → Team) : (s.modOwnTeam h).poolWait = s.poolWait := rfl
@[simp] theorem State.modOwnTeam_evSeq (s : State) (h : Team → Team) : (s.modOwnTeam h).evSeq = s.evSeq := rfl
@[simp] theorem State.modOwnTeam_evConfirm (s : State) (h : Team → Team) : (s.modOwnTeam h).evConfirm = s.evConfirm := rfl
@[simp] theorem State.modOwnTeam_banks (s : State) (h : Team → Team) : (s.modOwnTeam h).banks = s.banks := rfl
@[simp] theorem State.modOwnTeam_lastLatch (s : State) (h : Team → Team) : (s.modOwnTeam h).lastLatch = s.lastLatch := rfl
@[simp] theorem State.modOwnTeam_snapDue (s : State) (h : Team → Team) : (s.modOwnTeam h).snapDue = s.snapDue := rfl
@[simp] theorem State.modOwnTeam_snapOut (s : State) (h : Team → Team) : (s.modOwnTeam h).snapOut = s.snapOut := rfl
@[simp] theorem State.modOwnTeam_msix (s : State) (h : Team → Team) : (s.modOwnTeam h).msix = s.msix := rfl
@[simp] theorem State.modOwnTeam_msixTable (s : State) (h : Team → Team) : (s.modOwnTeam h).msixTable = s.msixTable := rfl
@[simp] theorem State.modOwnTeam_bar2Size (s : State) (h : Team → Team) : (s.modOwnTeam h).bar2Size = s.bar2Size := rfl
@[simp] theorem State.modOwnTeam_vfBar2Size (s : State) (h : Team → Team) : (s.modOwnTeam h).vfBar2Size = s.vfBar2Size := rfl
@[simp] theorem State.modOwnTeam_hostData (s : State) (h : Team → Team) : (s.modOwnTeam h).hostData = s.hostData := rfl
@[simp] theorem State.modOwnTeam_hostPoisoned (s : State) (h : Team → Team) : (s.modOwnTeam h).hostPoisoned = s.hostPoisoned := rfl
@[simp] theorem State.modOwnTeam_hostUnsupported (s : State) (h : Team → Team) : (s.modOwnTeam h).hostUnsupported = s.hostUnsupported := rfl
@[simp] theorem State.modOwnTeam_launchSent (s : State) (h : Team → Team) : (s.modOwnTeam h).launchSent = s.launchSent := rfl
@[simp] theorem State.modOwnTeam_snapSent (s : State) (h : Team → Team) : (s.modOwnTeam h).snapSent = s.snapSent := rfl
@[simp] theorem State.modOwnTeam_tripped (s : State) (h : Team → Team) : (s.modOwnTeam h).tripped = s.tripped := rfl
@[simp] theorem State.modOwnTeam_atBad (s : State) (h : Team → Team) : (s.modOwnTeam h).atBad = s.atBad := rfl

@[simp] theorem State.setReg_agenda (s : State) (o : Nat) (w : Word) : (s.setReg o w).agenda = s.agenda := rfl
@[simp] theorem State.setReg_focus (s : State) (o : Nat) (w : Word) : (s.setReg o w).focus = s.focus := rfl
@[simp] theorem State.setReg_input (s : State) (o : Nat) (w : Word) : (s.setReg o w).input = s.input := rfl
@[simp] theorem State.setReg_queued (s : State) (o : Nat) (w : Word) : (s.setReg o w).queued = s.queued := rfl
@[simp] theorem State.setReg_turns (s : State) (o : Nat) (w : Word) : (s.setReg o w).turns = s.turns := rfl
@[simp] theorem State.setReg_ticks (s : State) (o : Nat) (w : Word) : (s.setReg o w).ticks = s.ticks := rfl
@[simp] theorem State.setReg_fresh (s : State) (o : Nat) (w : Word) : (s.setReg o w).fresh = s.fresh := rfl
@[simp] theorem State.setReg_pkgcfg (s : State) (o : Nat) (w : Word) : (s.setReg o w).pkgcfg = s.pkgcfg := rfl
@[simp] theorem State.setReg_ftimeOffset (s : State) (o : Nat) (w : Word) : (s.setReg o w).ftimeOffset = s.ftimeOffset := rfl
@[simp] theorem State.setReg_ftimeHold (s : State) (o : Nat) (w : Word) : (s.setReg o w).ftimeHold = s.ftimeHold := rfl
@[simp] theorem State.setReg_dram (s : State) (o : Nat) (w : Word) : (s.setReg o w).dram = s.dram := rfl
@[simp] theorem State.setReg_llc (s : State) (o : Nat) (w : Word) : (s.setReg o w).llc = s.llc := rfl
@[simp] theorem State.setReg_poison (s : State) (o : Nat) (w : Word) : (s.setReg o w).poison = s.poison := rfl
@[simp] theorem State.setReg_tlb (s : State) (o : Nat) (w : Word) : (s.setReg o w).tlb = s.tlb := rfl
@[simp] theorem State.setReg_recent (s : State) (o : Nat) (w : Word) : (s.setReg o w).recent = s.recent := rfl
@[simp] theorem State.setReg_cores (s : State) (o : Nat) (w : Word) : (s.setReg o w).cores = s.cores := rfl
@[simp] theorem State.setReg_away (s : State) (o : Nat) (w : Word) : (s.setReg o w).away = s.away := rfl
@[simp] theorem State.setReg_tagsUsed (s : State) (o : Nat) (w : Word) : (s.setReg o w).tagsUsed = s.tagsUsed := rfl
@[simp] theorem State.setReg_stations (s : State) (o : Nat) (w : Word) : (s.setReg o w).stations = s.stations := rfl
@[simp] theorem State.setReg_ksOverflow (s : State) (o : Nat) (w : Word) : (s.setReg o w).ksOverflow = s.ksOverflow := rfl
@[simp] theorem State.setReg_ksFlight (s : State) (o : Nat) (w : Word) : (s.setReg o w).ksFlight = s.ksFlight := rfl
@[simp] theorem State.setReg_ksRetry (s : State) (o : Nat) (w : Word) : (s.setReg o w).ksRetry = s.ksRetry := rfl
@[simp] theorem State.setReg_ksHeld (s : State) (o : Nat) (w : Word) : (s.setReg o w).ksHeld = s.ksHeld := rfl
@[simp] theorem State.setReg_ksNext (s : State) (o : Nat) (w : Word) : (s.setReg o w).ksNext = s.ksNext := rfl
@[simp] theorem State.setReg_grids (s : State) (o : Nat) (w : Word) : (s.setReg o w).grids = s.grids := rfl
@[simp] theorem State.setReg_ending (s : State) (o : Nat) (w : Word) : (s.setReg o w).ending = s.ending := rfl
@[simp] theorem State.setReg_gridWait (s : State) (o : Nat) (w : Word) : (s.setReg o w).gridWait = s.gridWait := rfl
@[simp] theorem State.setReg_gridSeq (s : State) (o : Nat) (w : Word) : (s.setReg o w).gridSeq = s.gridSeq := rfl
@[simp] theorem State.setReg_ports (s : State) (o : Nat) (w : Word) : (s.setReg o w).ports = s.ports := rfl
@[simp] theorem State.setReg_far (s : State) (o : Nat) (w : Word) : (s.setReg o w).far = s.far := rfl
@[simp] theorem State.setReg_seqs (s : State) (o : Nat) (w : Word) : (s.setReg o w).seqs = s.seqs := rfl
@[simp] theorem State.setReg_hostPosted (s : State) (o : Nat) (w : Word) : (s.setReg o w).hostPosted = s.hostPosted := rfl
@[simp] theorem State.setReg_hostPostedNext (s : State) (o : Nat) (w : Word) : (s.setReg o w).hostPostedNext = s.hostPostedNext := rfl
@[simp] theorem State.setReg_records (s : State) (o : Nat) (w : Word) : (s.setReg o w).records = s.records := rfl
@[simp] theorem State.setReg_reports (s : State) (o : Nat) (w : Word) : (s.setReg o w).reports = s.reports := rfl
@[simp] theorem State.setReg_services (s : State) (o : Nat) (w : Word) : (s.setReg o w).services = s.services := rfl
@[simp] theorem State.setReg_frSeq (s : State) (o : Nat) (w : Word) : (s.setReg o w).frSeq = s.frSeq := rfl
@[simp] theorem State.setReg_switchIns (s : State) (o : Nat) (w : Word) : (s.setReg o w).switchIns = s.switchIns := rfl
@[simp] theorem State.setReg_claimed (s : State) (o : Nat) (w : Word) : (s.setReg o w).claimed = s.claimed := rfl
@[simp] theorem State.setReg_claimNext (s : State) (o : Nat) (w : Word) : (s.setReg o w).claimNext = s.claimNext := rfl
@[simp] theorem State.setReg_emptySince (s : State) (o : Nat) (w : Word) : (s.setReg o w).emptySince = s.emptySince := rfl
@[simp] theorem State.setReg_pool (s : State) (o : Nat) (w : Word) : (s.setReg o w).pool = s.pool := rfl
@[simp] theorem State.setReg_poolWait (s : State) (o : Nat) (w : Word) : (s.setReg o w).poolWait = s.poolWait := rfl
@[simp] theorem State.setReg_evSeq (s : State) (o : Nat) (w : Word) : (s.setReg o w).evSeq = s.evSeq := rfl
@[simp] theorem State.setReg_evConfirm (s : State) (o : Nat) (w : Word) : (s.setReg o w).evConfirm = s.evConfirm := rfl
@[simp] theorem State.setReg_banks (s : State) (o : Nat) (w : Word) : (s.setReg o w).banks = s.banks := rfl
@[simp] theorem State.setReg_lastLatch (s : State) (o : Nat) (w : Word) : (s.setReg o w).lastLatch = s.lastLatch := rfl
@[simp] theorem State.setReg_snapDue (s : State) (o : Nat) (w : Word) : (s.setReg o w).snapDue = s.snapDue := rfl
@[simp] theorem State.setReg_snapOut (s : State) (o : Nat) (w : Word) : (s.setReg o w).snapOut = s.snapOut := rfl
@[simp] theorem State.setReg_msix (s : State) (o : Nat) (w : Word) : (s.setReg o w).msix = s.msix := rfl
@[simp] theorem State.setReg_msixTable (s : State) (o : Nat) (w : Word) : (s.setReg o w).msixTable = s.msixTable := rfl
@[simp] theorem State.setReg_bar2Size (s : State) (o : Nat) (w : Word) : (s.setReg o w).bar2Size = s.bar2Size := rfl
@[simp] theorem State.setReg_vfBar2Size (s : State) (o : Nat) (w : Word) : (s.setReg o w).vfBar2Size = s.vfBar2Size := rfl
@[simp] theorem State.setReg_hostData (s : State) (o : Nat) (w : Word) : (s.setReg o w).hostData = s.hostData := rfl
@[simp] theorem State.setReg_hostPoisoned (s : State) (o : Nat) (w : Word) : (s.setReg o w).hostPoisoned = s.hostPoisoned := rfl
@[simp] theorem State.setReg_hostUnsupported (s : State) (o : Nat) (w : Word) : (s.setReg o w).hostUnsupported = s.hostUnsupported := rfl
@[simp] theorem State.setReg_launchSent (s : State) (o : Nat) (w : Word) : (s.setReg o w).launchSent = s.launchSent := rfl
@[simp] theorem State.setReg_snapSent (s : State) (o : Nat) (w : Word) : (s.setReg o w).snapSent = s.snapSent := rfl
@[simp] theorem State.setReg_tripped (s : State) (o : Nat) (w : Word) : (s.setReg o w).tripped = s.tripped := rfl
@[simp] theorem State.setReg_atBad (s : State) (o : Nat) (w : Word) : (s.setReg o w).atBad = s.atBad := rfl

@[simp] theorem State.draw_agenda (s : State) : (s.draw.2).agenda = s.agenda := rfl
@[simp] theorem State.draw_focus (s : State) : (s.draw.2).focus = s.focus := rfl
@[simp] theorem State.draw_input (s : State) : (s.draw.2).input = s.input := rfl
@[simp] theorem State.draw_queued (s : State) : (s.draw.2).queued = s.queued := rfl
@[simp] theorem State.draw_turns (s : State) : (s.draw.2).turns = s.turns := rfl
@[simp] theorem State.draw_ticks (s : State) : (s.draw.2).ticks = s.ticks := rfl
@[simp] theorem State.draw_pkgcfg (s : State) : (s.draw.2).pkgcfg = s.pkgcfg := rfl
@[simp] theorem State.draw_ftimeOffset (s : State) : (s.draw.2).ftimeOffset = s.ftimeOffset := rfl
@[simp] theorem State.draw_ftimeHold (s : State) : (s.draw.2).ftimeHold = s.ftimeHold := rfl
@[simp] theorem State.draw_dram (s : State) : (s.draw.2).dram = s.dram := rfl
@[simp] theorem State.draw_llc (s : State) : (s.draw.2).llc = s.llc := rfl
@[simp] theorem State.draw_poison (s : State) : (s.draw.2).poison = s.poison := rfl
@[simp] theorem State.draw_tlb (s : State) : (s.draw.2).tlb = s.tlb := rfl
@[simp] theorem State.draw_recent (s : State) : (s.draw.2).recent = s.recent := rfl
@[simp] theorem State.draw_mgmt (s : State) : (s.draw.2).mgmt = s.mgmt := rfl
@[simp] theorem State.draw_cores (s : State) : (s.draw.2).cores = s.cores := rfl
@[simp] theorem State.draw_away (s : State) : (s.draw.2).away = s.away := rfl
@[simp] theorem State.draw_tagsUsed (s : State) : (s.draw.2).tagsUsed = s.tagsUsed := rfl
@[simp] theorem State.draw_stations (s : State) : (s.draw.2).stations = s.stations := rfl
@[simp] theorem State.draw_ksOverflow (s : State) : (s.draw.2).ksOverflow = s.ksOverflow := rfl
@[simp] theorem State.draw_ksFlight (s : State) : (s.draw.2).ksFlight = s.ksFlight := rfl
@[simp] theorem State.draw_ksRetry (s : State) : (s.draw.2).ksRetry = s.ksRetry := rfl
@[simp] theorem State.draw_ksHeld (s : State) : (s.draw.2).ksHeld = s.ksHeld := rfl
@[simp] theorem State.draw_ksNext (s : State) : (s.draw.2).ksNext = s.ksNext := rfl
@[simp] theorem State.draw_grids (s : State) : (s.draw.2).grids = s.grids := rfl
@[simp] theorem State.draw_ending (s : State) : (s.draw.2).ending = s.ending := rfl
@[simp] theorem State.draw_gridWait (s : State) : (s.draw.2).gridWait = s.gridWait := rfl
@[simp] theorem State.draw_gridSeq (s : State) : (s.draw.2).gridSeq = s.gridSeq := rfl
@[simp] theorem State.draw_ports (s : State) : (s.draw.2).ports = s.ports := rfl
@[simp] theorem State.draw_far (s : State) : (s.draw.2).far = s.far := rfl
@[simp] theorem State.draw_seqs (s : State) : (s.draw.2).seqs = s.seqs := rfl
@[simp] theorem State.draw_hostPosted (s : State) : (s.draw.2).hostPosted = s.hostPosted := rfl
@[simp] theorem State.draw_hostPostedNext (s : State) : (s.draw.2).hostPostedNext = s.hostPostedNext := rfl
@[simp] theorem State.draw_records (s : State) : (s.draw.2).records = s.records := rfl
@[simp] theorem State.draw_reports (s : State) : (s.draw.2).reports = s.reports := rfl
@[simp] theorem State.draw_services (s : State) : (s.draw.2).services = s.services := rfl
@[simp] theorem State.draw_frSeq (s : State) : (s.draw.2).frSeq = s.frSeq := rfl
@[simp] theorem State.draw_switchIns (s : State) : (s.draw.2).switchIns = s.switchIns := rfl
@[simp] theorem State.draw_claimed (s : State) : (s.draw.2).claimed = s.claimed := rfl
@[simp] theorem State.draw_claimNext (s : State) : (s.draw.2).claimNext = s.claimNext := rfl
@[simp] theorem State.draw_emptySince (s : State) : (s.draw.2).emptySince = s.emptySince := rfl
@[simp] theorem State.draw_pool (s : State) : (s.draw.2).pool = s.pool := rfl
@[simp] theorem State.draw_poolWait (s : State) : (s.draw.2).poolWait = s.poolWait := rfl
@[simp] theorem State.draw_evSeq (s : State) : (s.draw.2).evSeq = s.evSeq := rfl
@[simp] theorem State.draw_evConfirm (s : State) : (s.draw.2).evConfirm = s.evConfirm := rfl
@[simp] theorem State.draw_banks (s : State) : (s.draw.2).banks = s.banks := rfl
@[simp] theorem State.draw_lastLatch (s : State) : (s.draw.2).lastLatch = s.lastLatch := rfl
@[simp] theorem State.draw_snapDue (s : State) : (s.draw.2).snapDue = s.snapDue := rfl
@[simp] theorem State.draw_snapOut (s : State) : (s.draw.2).snapOut = s.snapOut := rfl
@[simp] theorem State.draw_msix (s : State) : (s.draw.2).msix = s.msix := rfl
@[simp] theorem State.draw_msixTable (s : State) : (s.draw.2).msixTable = s.msixTable := rfl
@[simp] theorem State.draw_bar2Size (s : State) : (s.draw.2).bar2Size = s.bar2Size := rfl
@[simp] theorem State.draw_vfBar2Size (s : State) : (s.draw.2).vfBar2Size = s.vfBar2Size := rfl
@[simp] theorem State.draw_hostData (s : State) : (s.draw.2).hostData = s.hostData := rfl
@[simp] theorem State.draw_hostPoisoned (s : State) : (s.draw.2).hostPoisoned = s.hostPoisoned := rfl
@[simp] theorem State.draw_hostUnsupported (s : State) : (s.draw.2).hostUnsupported = s.hostUnsupported := rfl
@[simp] theorem State.draw_launchSent (s : State) : (s.draw.2).launchSent = s.launchSent := rfl
@[simp] theorem State.draw_snapSent (s : State) : (s.draw.2).snapSent = s.snapSent := rfl
@[simp] theorem State.draw_tripped (s : State) : (s.draw.2).tripped = s.tripped := rfl
@[simp] theorem State.draw_atBad (s : State) : (s.draw.2).atBad = s.atBad := rfl

@[simp] theorem State.record_agenda (s : State) (r : Rec) (w : Option Serviced) : (s.record r w).agenda = s.agenda := rfl
@[simp] theorem State.record_focus (s : State) (r : Rec) (w : Option Serviced) : (s.record r w).focus = s.focus := rfl
@[simp] theorem State.record_input (s : State) (r : Rec) (w : Option Serviced) : (s.record r w).input = s.input := rfl
@[simp] theorem State.record_queued (s : State) (r : Rec) (w : Option Serviced) : (s.record r w).queued = s.queued := rfl
@[simp] theorem State.record_turns (s : State) (r : Rec) (w : Option Serviced) : (s.record r w).turns = s.turns := rfl
@[simp] theorem State.record_ticks (s : State) (r : Rec) (w : Option Serviced) : (s.record r w).ticks = s.ticks := rfl
@[simp] theorem State.record_fresh (s : State) (r : Rec) (w : Option Serviced) : (s.record r w).fresh = s.fresh := rfl
@[simp] theorem State.record_pkgcfg (s : State) (r : Rec) (w : Option Serviced) : (s.record r w).pkgcfg = s.pkgcfg := rfl
@[simp] theorem State.record_ftimeOffset (s : State) (r : Rec) (w : Option Serviced) : (s.record r w).ftimeOffset = s.ftimeOffset := rfl
@[simp] theorem State.record_ftimeHold (s : State) (r : Rec) (w : Option Serviced) : (s.record r w).ftimeHold = s.ftimeHold := rfl
@[simp] theorem State.record_dram (s : State) (r : Rec) (w : Option Serviced) : (s.record r w).dram = s.dram := rfl
@[simp] theorem State.record_llc (s : State) (r : Rec) (w : Option Serviced) : (s.record r w).llc = s.llc := rfl
@[simp] theorem State.record_poison (s : State) (r : Rec) (w : Option Serviced) : (s.record r w).poison = s.poison := rfl
@[simp] theorem State.record_tlb (s : State) (r : Rec) (w : Option Serviced) : (s.record r w).tlb = s.tlb := rfl
@[simp] theorem State.record_recent (s : State) (r : Rec) (w : Option Serviced) : (s.record r w).recent = s.recent := rfl
@[simp] theorem State.record_mgmt (s : State) (r : Rec) (w : Option Serviced) : (s.record r w).mgmt = s.mgmt := rfl
@[simp] theorem State.record_cores (s : State) (r : Rec) (w : Option Serviced) : (s.record r w).cores = s.cores := rfl
@[simp] theorem State.record_away (s : State) (r : Rec) (w : Option Serviced) : (s.record r w).away = s.away := rfl
@[simp] theorem State.record_tagsUsed (s : State) (r : Rec) (w : Option Serviced) : (s.record r w).tagsUsed = s.tagsUsed := rfl
@[simp] theorem State.record_stations (s : State) (r : Rec) (w : Option Serviced) : (s.record r w).stations = s.stations := rfl
@[simp] theorem State.record_ksOverflow (s : State) (r : Rec) (w : Option Serviced) : (s.record r w).ksOverflow = s.ksOverflow := rfl
@[simp] theorem State.record_ksFlight (s : State) (r : Rec) (w : Option Serviced) : (s.record r w).ksFlight = s.ksFlight := rfl
@[simp] theorem State.record_ksRetry (s : State) (r : Rec) (w : Option Serviced) : (s.record r w).ksRetry = s.ksRetry := rfl
@[simp] theorem State.record_ksHeld (s : State) (r : Rec) (w : Option Serviced) : (s.record r w).ksHeld = s.ksHeld := rfl
@[simp] theorem State.record_ksNext (s : State) (r : Rec) (w : Option Serviced) : (s.record r w).ksNext = s.ksNext := rfl
@[simp] theorem State.record_grids (s : State) (r : Rec) (w : Option Serviced) : (s.record r w).grids = s.grids := rfl
@[simp] theorem State.record_ending (s : State) (r : Rec) (w : Option Serviced) : (s.record r w).ending = s.ending := rfl
@[simp] theorem State.record_gridWait (s : State) (r : Rec) (w : Option Serviced) : (s.record r w).gridWait = s.gridWait := rfl
@[simp] theorem State.record_gridSeq (s : State) (r : Rec) (w : Option Serviced) : (s.record r w).gridSeq = s.gridSeq := rfl
@[simp] theorem State.record_ports (s : State) (r : Rec) (w : Option Serviced) : (s.record r w).ports = s.ports := rfl
@[simp] theorem State.record_far (s : State) (r : Rec) (w : Option Serviced) : (s.record r w).far = s.far := rfl
@[simp] theorem State.record_seqs (s : State) (r : Rec) (w : Option Serviced) : (s.record r w).seqs = s.seqs := rfl
@[simp] theorem State.record_hostPosted (s : State) (r : Rec) (w : Option Serviced) : (s.record r w).hostPosted = s.hostPosted := rfl
@[simp] theorem State.record_hostPostedNext (s : State) (r : Rec) (w : Option Serviced) : (s.record r w).hostPostedNext = s.hostPostedNext := rfl
@[simp] theorem State.record_reports (s : State) (r : Rec) (w : Option Serviced) : (s.record r w).reports = s.reports := rfl
@[simp] theorem State.record_switchIns (s : State) (r : Rec) (w : Option Serviced) : (s.record r w).switchIns = s.switchIns := rfl
@[simp] theorem State.record_claimed (s : State) (r : Rec) (w : Option Serviced) : (s.record r w).claimed = s.claimed := rfl
@[simp] theorem State.record_claimNext (s : State) (r : Rec) (w : Option Serviced) : (s.record r w).claimNext = s.claimNext := rfl
@[simp] theorem State.record_emptySince (s : State) (r : Rec) (w : Option Serviced) : (s.record r w).emptySince = s.emptySince := rfl
@[simp] theorem State.record_pool (s : State) (r : Rec) (w : Option Serviced) : (s.record r w).pool = s.pool := rfl
@[simp] theorem State.record_poolWait (s : State) (r : Rec) (w : Option Serviced) : (s.record r w).poolWait = s.poolWait := rfl
@[simp] theorem State.record_evSeq (s : State) (r : Rec) (w : Option Serviced) : (s.record r w).evSeq = s.evSeq := rfl
@[simp] theorem State.record_evConfirm (s : State) (r : Rec) (w : Option Serviced) : (s.record r w).evConfirm = s.evConfirm := rfl
@[simp] theorem State.record_banks (s : State) (r : Rec) (w : Option Serviced) : (s.record r w).banks = s.banks := rfl
@[simp] theorem State.record_lastLatch (s : State) (r : Rec) (w : Option Serviced) : (s.record r w).lastLatch = s.lastLatch := rfl
@[simp] theorem State.record_snapDue (s : State) (r : Rec) (w : Option Serviced) : (s.record r w).snapDue = s.snapDue := rfl
@[simp] theorem State.record_snapOut (s : State) (r : Rec) (w : Option Serviced) : (s.record r w).snapOut = s.snapOut := rfl
@[simp] theorem State.record_msix (s : State) (r : Rec) (w : Option Serviced) : (s.record r w).msix = s.msix := rfl
@[simp] theorem State.record_msixTable (s : State) (r : Rec) (w : Option Serviced) : (s.record r w).msixTable = s.msixTable := rfl
@[simp] theorem State.record_bar2Size (s : State) (r : Rec) (w : Option Serviced) : (s.record r w).bar2Size = s.bar2Size := rfl
@[simp] theorem State.record_vfBar2Size (s : State) (r : Rec) (w : Option Serviced) : (s.record r w).vfBar2Size = s.vfBar2Size := rfl
@[simp] theorem State.record_hostData (s : State) (r : Rec) (w : Option Serviced) : (s.record r w).hostData = s.hostData := rfl
@[simp] theorem State.record_hostPoisoned (s : State) (r : Rec) (w : Option Serviced) : (s.record r w).hostPoisoned = s.hostPoisoned := rfl
@[simp] theorem State.record_hostUnsupported (s : State) (r : Rec) (w : Option Serviced) : (s.record r w).hostUnsupported = s.hostUnsupported := rfl
@[simp] theorem State.record_launchSent (s : State) (r : Rec) (w : Option Serviced) : (s.record r w).launchSent = s.launchSent := rfl
@[simp] theorem State.record_snapSent (s : State) (r : Rec) (w : Option Serviced) : (s.record r w).snapSent = s.snapSent := rfl
@[simp] theorem State.record_tripped (s : State) (r : Rec) (w : Option Serviced) : (s.record r w).tripped = s.tripped := rfl
@[simp] theorem State.record_atBad (s : State) (r : Rec) (w : Option Serviced) : (s.record r w).atBad = s.atBad := rfl

/-! ## A team -/

@[simp] theorem Team.modGroup_context (m : Team) (i : Nat) (h : Group → Group) : (m.modGroup i h).context = m.context := rfl
@[simp] theorem Team.modGroup_core (m : Team) (i : Nat) (h : Group → Group) : (m.modGroup i h).core = m.core := rfl
@[simp] theorem Team.modGroup_gridSlot (m : Team) (i : Nat) (h : Group → Group) : (m.modGroup i h).gridSlot = m.gridSlot := rfl
@[simp] theorem Team.modGroup_gridSeq (m : Team) (i : Nat) (h : Group → Group) : (m.modGroup i h).gridSeq = m.gridSeq := rfl
@[simp] theorem Team.modGroup_image (m : Team) (i : Nat) (h : Group → Group) : (m.modGroup i h).image = m.image := rfl
@[simp] theorem Team.modGroup_contAddr (m : Team) (i : Nat) (h : Group → Group) : (m.modGroup i h).contAddr = m.contAddr := rfl
@[simp] theorem Team.modGroup_barTimeout (m : Team) (i : Nat) (h : Group → Group) : (m.modGroup i h).barTimeout = m.barTimeout := rfl
@[simp] theorem Team.modGroup_nonfinite (m : Team) (i : Nat) (h : Group → Group) : (m.modGroup i h).nonfinite = m.nonfinite := rfl
@[simp] theorem Team.modGroup_spillBase (m : Team) (i : Nat) (h : Group → Group) : (m.modGroup i h).spillBase = m.spillBase := rfl
@[simp] theorem Team.modGroup_roleShape (m : Team) (i : Nat) (h : Group → Group) : (m.modGroup i h).roleShape = m.roleShape := rfl
@[simp] theorem Team.modGroup_scratchSize (m : Team) (i : Nat) (h : Group → Group) : (m.modGroup i h).scratchSize = m.scratchSize := rfl
@[simp] theorem Team.modGroup_ftab (m : Team) (i : Nat) (h : Group → Group) : (m.modGroup i h).ftab = m.ftab := rfl
@[simp] theorem Team.modGroup_tbstate (m : Team) (i : Nat) (h : Group → Group) : (m.modGroup i h).tbstate = m.tbstate := rfl
@[simp] theorem Team.modGroup_scratch (m : Team) (i : Nat) (h : Group → Group) : (m.modGroup i h).scratch = m.scratch := rfl
@[simp] theorem Team.modGroup_scratchPoison (m : Team) (i : Nat) (h : Group → Group) : (m.modGroup i h).scratchPoison = m.scratchPoison := rfl
@[simp] theorem Team.modGroup_spSeq (m : Team) (i : Nat) (h : Group → Group) : (m.modGroup i h).spSeq = m.spSeq := rfl
@[simp] theorem Team.modGroup_spOld (m : Team) (i : Nat) (h : Group → Group) : (m.modGroup i h).spOld = m.spOld := rfl
@[simp] theorem Team.modGroup_qslotHdr (m : Team) (i : Nat) (h : Group → Group) : (m.modGroup i h).qslotHdr = m.qslotHdr := rfl
@[simp] theorem Team.modGroup_staged (m : Team) (i : Nat) (h : Group → Group) : (m.modGroup i h).staged = m.staged := rfl
@[simp] theorem Team.modGroup_lintelStaged (m : Team) (i : Nat) (h : Group → Group) : (m.modGroup i h).lintelStaged = m.lintelStaged := rfl
@[simp] theorem Team.modGroup_quarry (m : Team) (i : Nat) (h : Group → Group) : (m.modGroup i h).quarry = m.quarry := rfl
@[simp] theorem Team.modGroup_residency (m : Team) (i : Nat) (h : Group → Group) : (m.modGroup i h).residency = m.residency := rfl
@[simp] theorem Team.modGroup_order (m : Team) (i : Nat) (h : Group → Group) : (m.modGroup i h).order = m.order := rfl
@[simp] theorem Team.modGroup_joinParked (m : Team) (i : Nat) (h : Group → Group) : (m.modGroup i h).joinParked = m.joinParked := rfl
@[simp] theorem Team.modGroup_joinReady (m : Team) (i : Nat) (h : Group → Group) : (m.modGroup i h).joinReady = m.joinReady := rfl
@[simp] theorem Team.modGroup_endCode (m : Team) (i : Nat) (h : Group → Group) : (m.modGroup i h).endCode = m.endCode := rfl
@[simp] theorem Team.modGroup_ashSaved (m : Team) (i : Nat) (h : Group → Group) : (m.modGroup i h).ashSaved = m.ashSaved := rfl

@[simp] theorem Team.setFut_context (m : Team) (e : Nat) (x : FutureEntry) : (m.setFut e x).context = m.context := rfl
@[simp] theorem Team.setFut_core (m : Team) (e : Nat) (x : FutureEntry) : (m.setFut e x).core = m.core := rfl
@[simp] theorem Team.setFut_gridSlot (m : Team) (e : Nat) (x : FutureEntry) : (m.setFut e x).gridSlot = m.gridSlot := rfl
@[simp] theorem Team.setFut_gridSeq (m : Team) (e : Nat) (x : FutureEntry) : (m.setFut e x).gridSeq = m.gridSeq := rfl
@[simp] theorem Team.setFut_image (m : Team) (e : Nat) (x : FutureEntry) : (m.setFut e x).image = m.image := rfl
@[simp] theorem Team.setFut_contAddr (m : Team) (e : Nat) (x : FutureEntry) : (m.setFut e x).contAddr = m.contAddr := rfl
@[simp] theorem Team.setFut_barTimeout (m : Team) (e : Nat) (x : FutureEntry) : (m.setFut e x).barTimeout = m.barTimeout := rfl
@[simp] theorem Team.setFut_nonfinite (m : Team) (e : Nat) (x : FutureEntry) : (m.setFut e x).nonfinite = m.nonfinite := rfl
@[simp] theorem Team.setFut_spillBase (m : Team) (e : Nat) (x : FutureEntry) : (m.setFut e x).spillBase = m.spillBase := rfl
@[simp] theorem Team.setFut_roleShape (m : Team) (e : Nat) (x : FutureEntry) : (m.setFut e x).roleShape = m.roleShape := rfl
@[simp] theorem Team.setFut_scratchSize (m : Team) (e : Nat) (x : FutureEntry) : (m.setFut e x).scratchSize = m.scratchSize := rfl
@[simp] theorem Team.setFut_tbstate (m : Team) (e : Nat) (x : FutureEntry) : (m.setFut e x).tbstate = m.tbstate := rfl
@[simp] theorem Team.setFut_scratch (m : Team) (e : Nat) (x : FutureEntry) : (m.setFut e x).scratch = m.scratch := rfl
@[simp] theorem Team.setFut_scratchPoison (m : Team) (e : Nat) (x : FutureEntry) : (m.setFut e x).scratchPoison = m.scratchPoison := rfl
@[simp] theorem Team.setFut_spSeq (m : Team) (e : Nat) (x : FutureEntry) : (m.setFut e x).spSeq = m.spSeq := rfl
@[simp] theorem Team.setFut_spOld (m : Team) (e : Nat) (x : FutureEntry) : (m.setFut e x).spOld = m.spOld := rfl
@[simp] theorem Team.setFut_qslotHdr (m : Team) (e : Nat) (x : FutureEntry) : (m.setFut e x).qslotHdr = m.qslotHdr := rfl
@[simp] theorem Team.setFut_staged (m : Team) (e : Nat) (x : FutureEntry) : (m.setFut e x).staged = m.staged := rfl
@[simp] theorem Team.setFut_lintelStaged (m : Team) (e : Nat) (x : FutureEntry) : (m.setFut e x).lintelStaged = m.lintelStaged := rfl
@[simp] theorem Team.setFut_quarry (m : Team) (e : Nat) (x : FutureEntry) : (m.setFut e x).quarry = m.quarry := rfl
@[simp] theorem Team.setFut_groups (m : Team) (e : Nat) (x : FutureEntry) : (m.setFut e x).groups = m.groups := rfl
@[simp] theorem Team.setFut_residency (m : Team) (e : Nat) (x : FutureEntry) : (m.setFut e x).residency = m.residency := rfl
@[simp] theorem Team.setFut_order (m : Team) (e : Nat) (x : FutureEntry) : (m.setFut e x).order = m.order := rfl
@[simp] theorem Team.setFut_joinParked (m : Team) (e : Nat) (x : FutureEntry) : (m.setFut e x).joinParked = m.joinParked := rfl
@[simp] theorem Team.setFut_joinReady (m : Team) (e : Nat) (x : FutureEntry) : (m.setFut e x).joinReady = m.joinReady := rfl
@[simp] theorem Team.setFut_endCode (m : Team) (e : Nat) (x : FutureEntry) : (m.setFut e x).endCode = m.endCode := rfl
@[simp] theorem Team.setFut_ashSaved (m : Team) (e : Nat) (x : FutureEntry) : (m.setFut e x).ashSaved = m.ashSaved := rfl

@[simp] theorem Team.wake_context (m : Team) : (m.wake).context = m.context := rfl
@[simp] theorem Team.wake_core (m : Team) : (m.wake).core = m.core := rfl
@[simp] theorem Team.wake_gridSlot (m : Team) : (m.wake).gridSlot = m.gridSlot := rfl
@[simp] theorem Team.wake_gridSeq (m : Team) : (m.wake).gridSeq = m.gridSeq := rfl
@[simp] theorem Team.wake_image (m : Team) : (m.wake).image = m.image := rfl
@[simp] theorem Team.wake_contAddr (m : Team) : (m.wake).contAddr = m.contAddr := rfl
@[simp] theorem Team.wake_barTimeout (m : Team) : (m.wake).barTimeout = m.barTimeout := rfl
@[simp] theorem Team.wake_nonfinite (m : Team) : (m.wake).nonfinite = m.nonfinite := rfl
@[simp] theorem Team.wake_spillBase (m : Team) : (m.wake).spillBase = m.spillBase := rfl
@[simp] theorem Team.wake_roleShape (m : Team) : (m.wake).roleShape = m.roleShape := rfl
@[simp] theorem Team.wake_scratchSize (m : Team) : (m.wake).scratchSize = m.scratchSize := rfl
@[simp] theorem Team.wake_ftab (m : Team) : (m.wake).ftab = m.ftab := rfl
@[simp] theorem Team.wake_tbstate (m : Team) : (m.wake).tbstate = m.tbstate := rfl
@[simp] theorem Team.wake_scratch (m : Team) : (m.wake).scratch = m.scratch := rfl
@[simp] theorem Team.wake_scratchPoison (m : Team) : (m.wake).scratchPoison = m.scratchPoison := rfl
@[simp] theorem Team.wake_spSeq (m : Team) : (m.wake).spSeq = m.spSeq := rfl
@[simp] theorem Team.wake_spOld (m : Team) : (m.wake).spOld = m.spOld := rfl
@[simp] theorem Team.wake_qslotHdr (m : Team) : (m.wake).qslotHdr = m.qslotHdr := rfl
@[simp] theorem Team.wake_staged (m : Team) : (m.wake).staged = m.staged := rfl
@[simp] theorem Team.wake_lintelStaged (m : Team) : (m.wake).lintelStaged = m.lintelStaged := rfl
@[simp] theorem Team.wake_quarry (m : Team) : (m.wake).quarry = m.quarry := rfl
@[simp] theorem Team.wake_residency (m : Team) : (m.wake).residency = m.residency := rfl
@[simp] theorem Team.wake_order (m : Team) : (m.wake).order = m.order := rfl
@[simp] theorem Team.wake_joinParked (m : Team) : (m.wake).joinParked = m.joinParked := rfl
@[simp] theorem Team.wake_joinReady (m : Team) : (m.wake).joinReady = m.joinReady := rfl
@[simp] theorem Team.wake_endCode (m : Team) : (m.wake).endCode = m.endCode := rfl
@[simp] theorem Team.wake_ashSaved (m : Team) : (m.wake).ashSaved = m.ashSaved := rfl

/-! ## A group -/

@[simp] theorem Group.setS_vreg (g : Group) (n : Nat) (w : Word) : (g.setS n w).vreg = g.vreg := rfl
@[simp] theorem Group.setS_sregPoison (g : Group) (n : Nat) (w : Word) : (g.setS n w).sregPoison = g.sregPoison := rfl
@[simp] theorem Group.setS_vregPoison (g : Group) (n : Nat) (w : Word) : (g.setS n w).vregPoison = g.vregPoison := rfl
@[simp] theorem Group.setS_evicted (g : Group) (n : Nat) (w : Word) : (g.setS n w).evicted = g.evicted := rfl
@[simp] theorem Group.setS_pcv (g : Group) (n : Nat) (w : Word) : (g.setS n w).pcv = g.pcv := rfl
@[simp] theorem Group.setS_meetv (g : Group) (n : Nat) (w : Word) : (g.setS n w).meetv = g.meetv := rfl
@[simp] theorem Group.setS_predv (g : Group) (n : Nat) (w : Word) : (g.setS n w).predv = g.predv := rfl
@[simp] theorem Group.setS_kmask (g : Group) (n : Nat) (w : Word) : (g.setS n w).kmask = g.kmask := rfl
@[simp] theorem Group.setS_exited (g : Group) (n : Nat) (w : Word) : (g.setS n w).exited = g.exited := rfl
@[simp] theorem Group.setS_held (g : Group) (n : Nat) (w : Word) : (g.setS n w).held = g.held := rfl
@[simp] theorem Group.setS_heldK (g : Group) (n : Nat) (w : Word) : (g.setS n w).heldK = g.heldK := rfl
@[simp] theorem Group.setS_spend (g : Group) (n : Nat) (w : Word) : (g.setS n w).spend = g.spend := rfl
@[simp] theorem Group.setS_fpflags (g : Group) (n : Nat) (w : Word) : (g.setS n w).fpflags = g.fpflags := rfl
@[simp] theorem Group.setS_mwaitAddr (g : Group) (n : Nat) (w : Word) : (g.setS n w).mwaitAddr = g.mwaitAddr := rfl
@[simp] theorem Group.setS_mwaitRead (g : Group) (n : Nat) (w : Word) : (g.setS n w).mwaitRead = g.mwaitRead := rfl
@[simp] theorem Group.setS_mwaitValue (g : Group) (n : Nat) (w : Word) : (g.setS n w).mwaitValue = g.mwaitValue := rfl
@[simp] theorem Group.setS_mwaitData (g : Group) (n : Nat) (w : Word) : (g.setS n w).mwaitData = g.mwaitData := rfl
@[simp] theorem Group.setS_mwaitReq (g : Group) (n : Nat) (w : Word) : (g.setS n w).mwaitReq = g.mwaitReq := rfl
@[simp] theorem Group.setS_seed (g : Group) (n : Nat) (w : Word) : (g.setS n w).seed = g.seed := rfl
@[simp] theorem Group.setS_spoil (g : Group) (n : Nat) (w : Word) : (g.setS n w).spoil = g.spoil := rfl
@[simp] theorem Group.setS_contState (g : Group) (n : Nat) (w : Word) : (g.setS n w).contState = g.contState := rfl
@[simp] theorem Group.setS_contLanes (g : Group) (n : Nat) (w : Word) : (g.setS n w).contLanes = g.contLanes := rfl
@[simp] theorem Group.setS_resumev (g : Group) (n : Nat) (w : Word) : (g.setS n w).resumev = g.resumev := rfl
@[simp] theorem Group.setS_tblanes (g : Group) (n : Nat) (w : Word) : (g.setS n w).tblanes = g.tblanes := rfl
@[simp] theorem Group.setS_tbwait (g : Group) (n : Nat) (w : Word) : (g.setS n w).tbwait = g.tbwait := rfl
@[simp] theorem Group.setS_tbpass (g : Group) (n : Nat) (w : Word) : (g.setS n w).tbpass = g.tbpass := rfl
@[simp] theorem Group.setS_bwstate (g : Group) (n : Nat) (w : Word) : (g.setS n w).bwstate = g.bwstate := rfl
@[simp] theorem Group.setS_bwlanes (g : Group) (n : Nat) (w : Word) : (g.setS n w).bwlanes = g.bwlanes := rfl
@[simp] theorem Group.setS_latches (g : Group) (n : Nat) (w : Word) : (g.setS n w).latches = g.latches := rfl
@[simp] theorem Group.setS_cur (g : Group) (n : Nat) (w : Word) : (g.setS n w).cur = g.cur := rfl
@[simp] theorem Group.setS_run (g : Group) (n : Nat) (w : Word) : (g.setS n w).run = g.run := rfl
@[simp] theorem Group.setS_count (g : Group) (n : Nat) (w : Word) : (g.setS n w).count = g.count := rfl
@[simp] theorem Group.setS_waits (g : Group) (n : Nat) (w : Word) : (g.setS n w).waits = g.waits := rfl
@[simp] theorem Group.setS_waiting (g : Group) (n : Nat) (w : Word) : (g.setS n w).waiting = g.waiting := rfl
@[simp] theorem Group.setS_stalled (g : Group) (n : Nat) (w : Word) : (g.setS n w).stalled = g.stalled := rfl
@[simp] theorem Group.setS_blocked (g : Group) (n : Nat) (w : Word) : (g.setS n w).blocked = g.blocked := rfl
@[simp] theorem Group.setS_retry (g : Group) (n : Nat) (w : Word) : (g.setS n w).retry = g.retry := rfl
@[simp] theorem Group.setS_kept (g : Group) (n : Nat) (w : Word) : (g.setS n w).kept = g.kept := rfl
@[simp] theorem Group.setS_pathLoop (g : Group) (n : Nat) (w : Word) : (g.setS n w).pathLoop = g.pathLoop := rfl
@[simp] theorem Group.setS_greed (g : Group) (n : Nat) (w : Word) : (g.setS n w).greed = g.greed := rfl
@[simp] theorem Group.setS_yielded (g : Group) (n : Nat) (w : Word) : (g.setS n w).yielded = g.yielded := rfl
@[simp] theorem Group.setS_yieldPend (g : Group) (n : Nat) (w : Word) : (g.setS n w).yieldPend = g.yieldPend := rfl
@[simp] theorem Group.setS_barred (g : Group) (n : Nat) (w : Word) : (g.setS n w).barred = g.barred := rfl
@[simp] theorem Group.setS_active (g : Group) (n : Nat) (w : Word) : (g.setS n w).active = g.active := rfl
@[simp] theorem Group.setS_readySince (g : Group) (n : Nat) (w : Word) : (g.setS n w).readySince = g.readySince := rfl
@[simp] theorem Group.setS_deadlines (g : Group) (n : Nat) (w : Word) : (g.setS n w).deadlines = g.deadlines := rfl
@[simp] theorem Group.setS_storeQ (g : Group) (n : Nat) (w : Word) : (g.setS n w).storeQ = g.storeQ := rfl
@[simp] theorem Group.setS_acks (g : Group) (n : Nat) (w : Word) : (g.setS n w).acks = g.acks := rfl
@[simp] theorem Group.setS_loads (g : Group) (n : Nat) (w : Word) : (g.setS n w).loads = g.loads := rfl
@[simp] theorem Group.setS_memNext (g : Group) (n : Nat) (w : Word) : (g.setS n w).memNext = g.memNext := rfl
@[simp] theorem Group.setS_posted (g : Group) (n : Nat) (w : Word) : (g.setS n w).posted = g.posted := rfl
@[simp] theorem Group.setS_recorded (g : Group) (n : Nat) (w : Word) : (g.setS n w).recorded = g.recorded := rfl
@[simp] theorem Group.setS_rdy (g : Group) (n : Nat) (w : Word) : (g.setS n w).rdy = g.rdy := rfl
@[simp] theorem Group.setS_mstats (g : Group) (n : Nat) (w : Word) : (g.setS n w).mstats = g.mstats := rfl
@[simp] theorem Group.setS_stop (g : Group) (n : Nat) (w : Word) : (g.setS n w).stop = g.stop := rfl
@[simp] theorem Group.setS_deferred (g : Group) (n : Nat) (w : Word) : (g.setS n w).deferred = g.deferred := rfl
@[simp] theorem Group.setS_cancelled (g : Group) (n : Nat) (w : Word) : (g.setS n w).cancelled = g.cancelled := rfl
@[simp] theorem Group.setS_preempt (g : Group) (n : Nat) (w : Word) : (g.setS n w).preempt = g.preempt := rfl
@[simp] theorem Group.setS_joining (g : Group) (n : Nat) (w : Word) : (g.setS n w).joining = g.joining := rfl
@[simp] theorem Group.setS_joinOn (g : Group) (n : Nat) (w : Word) : (g.setS n w).joinOn = g.joinOn := rfl
@[simp] theorem Group.setS_drain (g : Group) (n : Nat) (w : Word) : (g.setS n w).drain = g.drain := rfl

@[simp] theorem Group.setV_sreg (g : Group) (n l : Nat) (w : W32) : (g.setV n l w).sreg = g.sreg := rfl
@[simp] theorem Group.setV_sregPoison (g : Group) (n l : Nat) (w : W32) : (g.setV n l w).sregPoison = g.sregPoison := rfl
@[simp] theorem Group.setV_vregPoison (g : Group) (n l : Nat) (w : W32) : (g.setV n l w).vregPoison = g.vregPoison := rfl
@[simp] theorem Group.setV_evicted (g : Group) (n l : Nat) (w : W32) : (g.setV n l w).evicted = g.evicted := rfl
@[simp] theorem Group.setV_pcv (g : Group) (n l : Nat) (w : W32) : (g.setV n l w).pcv = g.pcv := rfl
@[simp] theorem Group.setV_meetv (g : Group) (n l : Nat) (w : W32) : (g.setV n l w).meetv = g.meetv := rfl
@[simp] theorem Group.setV_predv (g : Group) (n l : Nat) (w : W32) : (g.setV n l w).predv = g.predv := rfl
@[simp] theorem Group.setV_kmask (g : Group) (n l : Nat) (w : W32) : (g.setV n l w).kmask = g.kmask := rfl
@[simp] theorem Group.setV_exited (g : Group) (n l : Nat) (w : W32) : (g.setV n l w).exited = g.exited := rfl
@[simp] theorem Group.setV_held (g : Group) (n l : Nat) (w : W32) : (g.setV n l w).held = g.held := rfl
@[simp] theorem Group.setV_heldK (g : Group) (n l : Nat) (w : W32) : (g.setV n l w).heldK = g.heldK := rfl
@[simp] theorem Group.setV_spend (g : Group) (n l : Nat) (w : W32) : (g.setV n l w).spend = g.spend := rfl
@[simp] theorem Group.setV_fpflags (g : Group) (n l : Nat) (w : W32) : (g.setV n l w).fpflags = g.fpflags := rfl
@[simp] theorem Group.setV_mwaitAddr (g : Group) (n l : Nat) (w : W32) : (g.setV n l w).mwaitAddr = g.mwaitAddr := rfl
@[simp] theorem Group.setV_mwaitRead (g : Group) (n l : Nat) (w : W32) : (g.setV n l w).mwaitRead = g.mwaitRead := rfl
@[simp] theorem Group.setV_mwaitValue (g : Group) (n l : Nat) (w : W32) : (g.setV n l w).mwaitValue = g.mwaitValue := rfl
@[simp] theorem Group.setV_mwaitData (g : Group) (n l : Nat) (w : W32) : (g.setV n l w).mwaitData = g.mwaitData := rfl
@[simp] theorem Group.setV_mwaitReq (g : Group) (n l : Nat) (w : W32) : (g.setV n l w).mwaitReq = g.mwaitReq := rfl
@[simp] theorem Group.setV_seed (g : Group) (n l : Nat) (w : W32) : (g.setV n l w).seed = g.seed := rfl
@[simp] theorem Group.setV_spoil (g : Group) (n l : Nat) (w : W32) : (g.setV n l w).spoil = g.spoil := rfl
@[simp] theorem Group.setV_contState (g : Group) (n l : Nat) (w : W32) : (g.setV n l w).contState = g.contState := rfl
@[simp] theorem Group.setV_contLanes (g : Group) (n l : Nat) (w : W32) : (g.setV n l w).contLanes = g.contLanes := rfl
@[simp] theorem Group.setV_resumev (g : Group) (n l : Nat) (w : W32) : (g.setV n l w).resumev = g.resumev := rfl
@[simp] theorem Group.setV_tblanes (g : Group) (n l : Nat) (w : W32) : (g.setV n l w).tblanes = g.tblanes := rfl
@[simp] theorem Group.setV_tbwait (g : Group) (n l : Nat) (w : W32) : (g.setV n l w).tbwait = g.tbwait := rfl
@[simp] theorem Group.setV_tbpass (g : Group) (n l : Nat) (w : W32) : (g.setV n l w).tbpass = g.tbpass := rfl
@[simp] theorem Group.setV_bwstate (g : Group) (n l : Nat) (w : W32) : (g.setV n l w).bwstate = g.bwstate := rfl
@[simp] theorem Group.setV_bwlanes (g : Group) (n l : Nat) (w : W32) : (g.setV n l w).bwlanes = g.bwlanes := rfl
@[simp] theorem Group.setV_latches (g : Group) (n l : Nat) (w : W32) : (g.setV n l w).latches = g.latches := rfl
@[simp] theorem Group.setV_cur (g : Group) (n l : Nat) (w : W32) : (g.setV n l w).cur = g.cur := rfl
@[simp] theorem Group.setV_run (g : Group) (n l : Nat) (w : W32) : (g.setV n l w).run = g.run := rfl
@[simp] theorem Group.setV_count (g : Group) (n l : Nat) (w : W32) : (g.setV n l w).count = g.count := rfl
@[simp] theorem Group.setV_waits (g : Group) (n l : Nat) (w : W32) : (g.setV n l w).waits = g.waits := rfl
@[simp] theorem Group.setV_waiting (g : Group) (n l : Nat) (w : W32) : (g.setV n l w).waiting = g.waiting := rfl
@[simp] theorem Group.setV_stalled (g : Group) (n l : Nat) (w : W32) : (g.setV n l w).stalled = g.stalled := rfl
@[simp] theorem Group.setV_blocked (g : Group) (n l : Nat) (w : W32) : (g.setV n l w).blocked = g.blocked := rfl
@[simp] theorem Group.setV_retry (g : Group) (n l : Nat) (w : W32) : (g.setV n l w).retry = g.retry := rfl
@[simp] theorem Group.setV_kept (g : Group) (n l : Nat) (w : W32) : (g.setV n l w).kept = g.kept := rfl
@[simp] theorem Group.setV_pathLoop (g : Group) (n l : Nat) (w : W32) : (g.setV n l w).pathLoop = g.pathLoop := rfl
@[simp] theorem Group.setV_greed (g : Group) (n l : Nat) (w : W32) : (g.setV n l w).greed = g.greed := rfl
@[simp] theorem Group.setV_yielded (g : Group) (n l : Nat) (w : W32) : (g.setV n l w).yielded = g.yielded := rfl
@[simp] theorem Group.setV_yieldPend (g : Group) (n l : Nat) (w : W32) : (g.setV n l w).yieldPend = g.yieldPend := rfl
@[simp] theorem Group.setV_barred (g : Group) (n l : Nat) (w : W32) : (g.setV n l w).barred = g.barred := rfl
@[simp] theorem Group.setV_active (g : Group) (n l : Nat) (w : W32) : (g.setV n l w).active = g.active := rfl
@[simp] theorem Group.setV_readySince (g : Group) (n l : Nat) (w : W32) : (g.setV n l w).readySince = g.readySince := rfl
@[simp] theorem Group.setV_deadlines (g : Group) (n l : Nat) (w : W32) : (g.setV n l w).deadlines = g.deadlines := rfl
@[simp] theorem Group.setV_storeQ (g : Group) (n l : Nat) (w : W32) : (g.setV n l w).storeQ = g.storeQ := rfl
@[simp] theorem Group.setV_acks (g : Group) (n l : Nat) (w : W32) : (g.setV n l w).acks = g.acks := rfl
@[simp] theorem Group.setV_loads (g : Group) (n l : Nat) (w : W32) : (g.setV n l w).loads = g.loads := rfl
@[simp] theorem Group.setV_memNext (g : Group) (n l : Nat) (w : W32) : (g.setV n l w).memNext = g.memNext := rfl
@[simp] theorem Group.setV_posted (g : Group) (n l : Nat) (w : W32) : (g.setV n l w).posted = g.posted := rfl
@[simp] theorem Group.setV_recorded (g : Group) (n l : Nat) (w : W32) : (g.setV n l w).recorded = g.recorded := rfl
@[simp] theorem Group.setV_rdy (g : Group) (n l : Nat) (w : W32) : (g.setV n l w).rdy = g.rdy := rfl
@[simp] theorem Group.setV_mstats (g : Group) (n l : Nat) (w : W32) : (g.setV n l w).mstats = g.mstats := rfl
@[simp] theorem Group.setV_stop (g : Group) (n l : Nat) (w : W32) : (g.setV n l w).stop = g.stop := rfl
@[simp] theorem Group.setV_deferred (g : Group) (n l : Nat) (w : W32) : (g.setV n l w).deferred = g.deferred := rfl
@[simp] theorem Group.setV_cancelled (g : Group) (n l : Nat) (w : W32) : (g.setV n l w).cancelled = g.cancelled := rfl
@[simp] theorem Group.setV_preempt (g : Group) (n l : Nat) (w : W32) : (g.setV n l w).preempt = g.preempt := rfl
@[simp] theorem Group.setV_joining (g : Group) (n l : Nat) (w : W32) : (g.setV n l w).joining = g.joining := rfl
@[simp] theorem Group.setV_joinOn (g : Group) (n l : Nat) (w : W32) : (g.setV n l w).joinOn = g.joinOn := rfl
@[simp] theorem Group.setV_drain (g : Group) (n l : Nat) (w : W32) : (g.setV n l w).drain = g.drain := rfl

@[simp] theorem Group.setPc_sreg (g : Group) (l : Nat) (w : Word) : (g.setPc l w).sreg = g.sreg := rfl
@[simp] theorem Group.setPc_vreg (g : Group) (l : Nat) (w : Word) : (g.setPc l w).vreg = g.vreg := rfl
@[simp] theorem Group.setPc_sregPoison (g : Group) (l : Nat) (w : Word) : (g.setPc l w).sregPoison = g.sregPoison := rfl
@[simp] theorem Group.setPc_vregPoison (g : Group) (l : Nat) (w : Word) : (g.setPc l w).vregPoison = g.vregPoison := rfl
@[simp] theorem Group.setPc_evicted (g : Group) (l : Nat) (w : Word) : (g.setPc l w).evicted = g.evicted := rfl
@[simp] theorem Group.setPc_meetv (g : Group) (l : Nat) (w : Word) : (g.setPc l w).meetv = g.meetv := rfl
@[simp] theorem Group.setPc_predv (g : Group) (l : Nat) (w : Word) : (g.setPc l w).predv = g.predv := rfl
@[simp] theorem Group.setPc_kmask (g : Group) (l : Nat) (w : Word) : (g.setPc l w).kmask = g.kmask := rfl
@[simp] theorem Group.setPc_exited (g : Group) (l : Nat) (w : Word) : (g.setPc l w).exited = g.exited := rfl
@[simp] theorem Group.setPc_held (g : Group) (l : Nat) (w : Word) : (g.setPc l w).held = g.held := rfl
@[simp] theorem Group.setPc_heldK (g : Group) (l : Nat) (w : Word) : (g.setPc l w).heldK = g.heldK := rfl
@[simp] theorem Group.setPc_spend (g : Group) (l : Nat) (w : Word) : (g.setPc l w).spend = g.spend := rfl
@[simp] theorem Group.setPc_fpflags (g : Group) (l : Nat) (w : Word) : (g.setPc l w).fpflags = g.fpflags := rfl
@[simp] theorem Group.setPc_mwaitAddr (g : Group) (l : Nat) (w : Word) : (g.setPc l w).mwaitAddr = g.mwaitAddr := rfl
@[simp] theorem Group.setPc_mwaitRead (g : Group) (l : Nat) (w : Word) : (g.setPc l w).mwaitRead = g.mwaitRead := rfl
@[simp] theorem Group.setPc_mwaitValue (g : Group) (l : Nat) (w : Word) : (g.setPc l w).mwaitValue = g.mwaitValue := rfl
@[simp] theorem Group.setPc_mwaitData (g : Group) (l : Nat) (w : Word) : (g.setPc l w).mwaitData = g.mwaitData := rfl
@[simp] theorem Group.setPc_mwaitReq (g : Group) (l : Nat) (w : Word) : (g.setPc l w).mwaitReq = g.mwaitReq := rfl
@[simp] theorem Group.setPc_seed (g : Group) (l : Nat) (w : Word) : (g.setPc l w).seed = g.seed := rfl
@[simp] theorem Group.setPc_spoil (g : Group) (l : Nat) (w : Word) : (g.setPc l w).spoil = g.spoil := rfl
@[simp] theorem Group.setPc_contState (g : Group) (l : Nat) (w : Word) : (g.setPc l w).contState = g.contState := rfl
@[simp] theorem Group.setPc_contLanes (g : Group) (l : Nat) (w : Word) : (g.setPc l w).contLanes = g.contLanes := rfl
@[simp] theorem Group.setPc_resumev (g : Group) (l : Nat) (w : Word) : (g.setPc l w).resumev = g.resumev := rfl
@[simp] theorem Group.setPc_tblanes (g : Group) (l : Nat) (w : Word) : (g.setPc l w).tblanes = g.tblanes := rfl
@[simp] theorem Group.setPc_tbwait (g : Group) (l : Nat) (w : Word) : (g.setPc l w).tbwait = g.tbwait := rfl
@[simp] theorem Group.setPc_tbpass (g : Group) (l : Nat) (w : Word) : (g.setPc l w).tbpass = g.tbpass := rfl
@[simp] theorem Group.setPc_bwstate (g : Group) (l : Nat) (w : Word) : (g.setPc l w).bwstate = g.bwstate := rfl
@[simp] theorem Group.setPc_bwlanes (g : Group) (l : Nat) (w : Word) : (g.setPc l w).bwlanes = g.bwlanes := rfl
@[simp] theorem Group.setPc_latches (g : Group) (l : Nat) (w : Word) : (g.setPc l w).latches = g.latches := rfl
@[simp] theorem Group.setPc_cur (g : Group) (l : Nat) (w : Word) : (g.setPc l w).cur = g.cur := rfl
@[simp] theorem Group.setPc_run (g : Group) (l : Nat) (w : Word) : (g.setPc l w).run = g.run := rfl
@[simp] theorem Group.setPc_count (g : Group) (l : Nat) (w : Word) : (g.setPc l w).count = g.count := rfl
@[simp] theorem Group.setPc_waits (g : Group) (l : Nat) (w : Word) : (g.setPc l w).waits = g.waits := rfl
@[simp] theorem Group.setPc_waiting (g : Group) (l : Nat) (w : Word) : (g.setPc l w).waiting = g.waiting := rfl
@[simp] theorem Group.setPc_stalled (g : Group) (l : Nat) (w : Word) : (g.setPc l w).stalled = g.stalled := rfl
@[simp] theorem Group.setPc_blocked (g : Group) (l : Nat) (w : Word) : (g.setPc l w).blocked = g.blocked := rfl
@[simp] theorem Group.setPc_retry (g : Group) (l : Nat) (w : Word) : (g.setPc l w).retry = g.retry := rfl
@[simp] theorem Group.setPc_kept (g : Group) (l : Nat) (w : Word) : (g.setPc l w).kept = g.kept := rfl
@[simp] theorem Group.setPc_pathLoop (g : Group) (l : Nat) (w : Word) : (g.setPc l w).pathLoop = g.pathLoop := rfl
@[simp] theorem Group.setPc_greed (g : Group) (l : Nat) (w : Word) : (g.setPc l w).greed = g.greed := rfl
@[simp] theorem Group.setPc_yielded (g : Group) (l : Nat) (w : Word) : (g.setPc l w).yielded = g.yielded := rfl
@[simp] theorem Group.setPc_yieldPend (g : Group) (l : Nat) (w : Word) : (g.setPc l w).yieldPend = g.yieldPend := rfl
@[simp] theorem Group.setPc_barred (g : Group) (l : Nat) (w : Word) : (g.setPc l w).barred = g.barred := rfl
@[simp] theorem Group.setPc_active (g : Group) (l : Nat) (w : Word) : (g.setPc l w).active = g.active := rfl
@[simp] theorem Group.setPc_readySince (g : Group) (l : Nat) (w : Word) : (g.setPc l w).readySince = g.readySince := rfl
@[simp] theorem Group.setPc_deadlines (g : Group) (l : Nat) (w : Word) : (g.setPc l w).deadlines = g.deadlines := rfl
@[simp] theorem Group.setPc_storeQ (g : Group) (l : Nat) (w : Word) : (g.setPc l w).storeQ = g.storeQ := rfl
@[simp] theorem Group.setPc_acks (g : Group) (l : Nat) (w : Word) : (g.setPc l w).acks = g.acks := rfl
@[simp] theorem Group.setPc_loads (g : Group) (l : Nat) (w : Word) : (g.setPc l w).loads = g.loads := rfl
@[simp] theorem Group.setPc_memNext (g : Group) (l : Nat) (w : Word) : (g.setPc l w).memNext = g.memNext := rfl
@[simp] theorem Group.setPc_posted (g : Group) (l : Nat) (w : Word) : (g.setPc l w).posted = g.posted := rfl
@[simp] theorem Group.setPc_recorded (g : Group) (l : Nat) (w : Word) : (g.setPc l w).recorded = g.recorded := rfl
@[simp] theorem Group.setPc_rdy (g : Group) (l : Nat) (w : Word) : (g.setPc l w).rdy = g.rdy := rfl
@[simp] theorem Group.setPc_mstats (g : Group) (l : Nat) (w : Word) : (g.setPc l w).mstats = g.mstats := rfl
@[simp] theorem Group.setPc_stop (g : Group) (l : Nat) (w : Word) : (g.setPc l w).stop = g.stop := rfl
@[simp] theorem Group.setPc_deferred (g : Group) (l : Nat) (w : Word) : (g.setPc l w).deferred = g.deferred := rfl
@[simp] theorem Group.setPc_cancelled (g : Group) (l : Nat) (w : Word) : (g.setPc l w).cancelled = g.cancelled := rfl
@[simp] theorem Group.setPc_preempt (g : Group) (l : Nat) (w : Word) : (g.setPc l w).preempt = g.preempt := rfl
@[simp] theorem Group.setPc_joining (g : Group) (l : Nat) (w : Word) : (g.setPc l w).joining = g.joining := rfl
@[simp] theorem Group.setPc_joinOn (g : Group) (l : Nat) (w : Word) : (g.setPc l w).joinOn = g.joinOn := rfl
@[simp] theorem Group.setPc_drain (g : Group) (l : Nat) (w : Word) : (g.setPc l w).drain = g.drain := rfl

@[simp] theorem Group.setP_sreg (g : Group) (l k : Nat) (b : Bool) : (g.setP l k b).sreg = g.sreg := rfl
@[simp] theorem Group.setP_vreg (g : Group) (l k : Nat) (b : Bool) : (g.setP l k b).vreg = g.vreg := rfl
@[simp] theorem Group.setP_sregPoison (g : Group) (l k : Nat) (b : Bool) : (g.setP l k b).sregPoison = g.sregPoison := rfl
@[simp] theorem Group.setP_vregPoison (g : Group) (l k : Nat) (b : Bool) : (g.setP l k b).vregPoison = g.vregPoison := rfl
@[simp] theorem Group.setP_evicted (g : Group) (l k : Nat) (b : Bool) : (g.setP l k b).evicted = g.evicted := rfl
@[simp] theorem Group.setP_pcv (g : Group) (l k : Nat) (b : Bool) : (g.setP l k b).pcv = g.pcv := rfl
@[simp] theorem Group.setP_meetv (g : Group) (l k : Nat) (b : Bool) : (g.setP l k b).meetv = g.meetv := rfl
@[simp] theorem Group.setP_kmask (g : Group) (l k : Nat) (b : Bool) : (g.setP l k b).kmask = g.kmask := rfl
@[simp] theorem Group.setP_exited (g : Group) (l k : Nat) (b : Bool) : (g.setP l k b).exited = g.exited := rfl
@[simp] theorem Group.setP_held (g : Group) (l k : Nat) (b : Bool) : (g.setP l k b).held = g.held := rfl
@[simp] theorem Group.setP_heldK (g : Group) (l k : Nat) (b : Bool) : (g.setP l k b).heldK = g.heldK := rfl
@[simp] theorem Group.setP_spend (g : Group) (l k : Nat) (b : Bool) : (g.setP l k b).spend = g.spend := rfl
@[simp] theorem Group.setP_fpflags (g : Group) (l k : Nat) (b : Bool) : (g.setP l k b).fpflags = g.fpflags := rfl
@[simp] theorem Group.setP_mwaitAddr (g : Group) (l k : Nat) (b : Bool) : (g.setP l k b).mwaitAddr = g.mwaitAddr := rfl
@[simp] theorem Group.setP_mwaitRead (g : Group) (l k : Nat) (b : Bool) : (g.setP l k b).mwaitRead = g.mwaitRead := rfl
@[simp] theorem Group.setP_mwaitValue (g : Group) (l k : Nat) (b : Bool) : (g.setP l k b).mwaitValue = g.mwaitValue := rfl
@[simp] theorem Group.setP_mwaitData (g : Group) (l k : Nat) (b : Bool) : (g.setP l k b).mwaitData = g.mwaitData := rfl
@[simp] theorem Group.setP_mwaitReq (g : Group) (l k : Nat) (b : Bool) : (g.setP l k b).mwaitReq = g.mwaitReq := rfl
@[simp] theorem Group.setP_seed (g : Group) (l k : Nat) (b : Bool) : (g.setP l k b).seed = g.seed := rfl
@[simp] theorem Group.setP_spoil (g : Group) (l k : Nat) (b : Bool) : (g.setP l k b).spoil = g.spoil := rfl
@[simp] theorem Group.setP_contState (g : Group) (l k : Nat) (b : Bool) : (g.setP l k b).contState = g.contState := rfl
@[simp] theorem Group.setP_contLanes (g : Group) (l k : Nat) (b : Bool) : (g.setP l k b).contLanes = g.contLanes := rfl
@[simp] theorem Group.setP_resumev (g : Group) (l k : Nat) (b : Bool) : (g.setP l k b).resumev = g.resumev := rfl
@[simp] theorem Group.setP_tblanes (g : Group) (l k : Nat) (b : Bool) : (g.setP l k b).tblanes = g.tblanes := rfl
@[simp] theorem Group.setP_tbwait (g : Group) (l k : Nat) (b : Bool) : (g.setP l k b).tbwait = g.tbwait := rfl
@[simp] theorem Group.setP_tbpass (g : Group) (l k : Nat) (b : Bool) : (g.setP l k b).tbpass = g.tbpass := rfl
@[simp] theorem Group.setP_bwstate (g : Group) (l k : Nat) (b : Bool) : (g.setP l k b).bwstate = g.bwstate := rfl
@[simp] theorem Group.setP_bwlanes (g : Group) (l k : Nat) (b : Bool) : (g.setP l k b).bwlanes = g.bwlanes := rfl
@[simp] theorem Group.setP_latches (g : Group) (l k : Nat) (b : Bool) : (g.setP l k b).latches = g.latches := rfl
@[simp] theorem Group.setP_cur (g : Group) (l k : Nat) (b : Bool) : (g.setP l k b).cur = g.cur := rfl
@[simp] theorem Group.setP_run (g : Group) (l k : Nat) (b : Bool) : (g.setP l k b).run = g.run := rfl
@[simp] theorem Group.setP_count (g : Group) (l k : Nat) (b : Bool) : (g.setP l k b).count = g.count := rfl
@[simp] theorem Group.setP_waits (g : Group) (l k : Nat) (b : Bool) : (g.setP l k b).waits = g.waits := rfl
@[simp] theorem Group.setP_waiting (g : Group) (l k : Nat) (b : Bool) : (g.setP l k b).waiting = g.waiting := rfl
@[simp] theorem Group.setP_stalled (g : Group) (l k : Nat) (b : Bool) : (g.setP l k b).stalled = g.stalled := rfl
@[simp] theorem Group.setP_blocked (g : Group) (l k : Nat) (b : Bool) : (g.setP l k b).blocked = g.blocked := rfl
@[simp] theorem Group.setP_retry (g : Group) (l k : Nat) (b : Bool) : (g.setP l k b).retry = g.retry := rfl
@[simp] theorem Group.setP_kept (g : Group) (l k : Nat) (b : Bool) : (g.setP l k b).kept = g.kept := rfl
@[simp] theorem Group.setP_pathLoop (g : Group) (l k : Nat) (b : Bool) : (g.setP l k b).pathLoop = g.pathLoop := rfl
@[simp] theorem Group.setP_greed (g : Group) (l k : Nat) (b : Bool) : (g.setP l k b).greed = g.greed := rfl
@[simp] theorem Group.setP_yielded (g : Group) (l k : Nat) (b : Bool) : (g.setP l k b).yielded = g.yielded := rfl
@[simp] theorem Group.setP_yieldPend (g : Group) (l k : Nat) (b : Bool) : (g.setP l k b).yieldPend = g.yieldPend := rfl
@[simp] theorem Group.setP_barred (g : Group) (l k : Nat) (b : Bool) : (g.setP l k b).barred = g.barred := rfl
@[simp] theorem Group.setP_active (g : Group) (l k : Nat) (b : Bool) : (g.setP l k b).active = g.active := rfl
@[simp] theorem Group.setP_readySince (g : Group) (l k : Nat) (b : Bool) : (g.setP l k b).readySince = g.readySince := rfl
@[simp] theorem Group.setP_deadlines (g : Group) (l k : Nat) (b : Bool) : (g.setP l k b).deadlines = g.deadlines := rfl
@[simp] theorem Group.setP_storeQ (g : Group) (l k : Nat) (b : Bool) : (g.setP l k b).storeQ = g.storeQ := rfl
@[simp] theorem Group.setP_acks (g : Group) (l k : Nat) (b : Bool) : (g.setP l k b).acks = g.acks := rfl
@[simp] theorem Group.setP_loads (g : Group) (l k : Nat) (b : Bool) : (g.setP l k b).loads = g.loads := rfl
@[simp] theorem Group.setP_memNext (g : Group) (l k : Nat) (b : Bool) : (g.setP l k b).memNext = g.memNext := rfl
@[simp] theorem Group.setP_posted (g : Group) (l k : Nat) (b : Bool) : (g.setP l k b).posted = g.posted := rfl
@[simp] theorem Group.setP_recorded (g : Group) (l k : Nat) (b : Bool) : (g.setP l k b).recorded = g.recorded := rfl
@[simp] theorem Group.setP_rdy (g : Group) (l k : Nat) (b : Bool) : (g.setP l k b).rdy = g.rdy := rfl
@[simp] theorem Group.setP_mstats (g : Group) (l k : Nat) (b : Bool) : (g.setP l k b).mstats = g.mstats := rfl
@[simp] theorem Group.setP_stop (g : Group) (l k : Nat) (b : Bool) : (g.setP l k b).stop = g.stop := rfl
@[simp] theorem Group.setP_deferred (g : Group) (l k : Nat) (b : Bool) : (g.setP l k b).deferred = g.deferred := rfl
@[simp] theorem Group.setP_cancelled (g : Group) (l k : Nat) (b : Bool) : (g.setP l k b).cancelled = g.cancelled := rfl
@[simp] theorem Group.setP_preempt (g : Group) (l k : Nat) (b : Bool) : (g.setP l k b).preempt = g.preempt := rfl
@[simp] theorem Group.setP_joining (g : Group) (l k : Nat) (b : Bool) : (g.setP l k b).joining = g.joining := rfl
@[simp] theorem Group.setP_joinOn (g : Group) (l k : Nat) (b : Bool) : (g.setP l k b).joinOn = g.joinOn := rfl
@[simp] theorem Group.setP_drain (g : Group) (l k : Nat) (b : Bool) : (g.setP l k b).drain = g.drain := rfl

@[simp] theorem Group.setPredWord_sreg (g : Group) (l : Nat) (w : Word) : (g.setPredWord l w).sreg = g.sreg := rfl
@[simp] theorem Group.setPredWord_vreg (g : Group) (l : Nat) (w : Word) : (g.setPredWord l w).vreg = g.vreg := rfl
@[simp] theorem Group.setPredWord_sregPoison (g : Group) (l : Nat) (w : Word) : (g.setPredWord l w).sregPoison = g.sregPoison := rfl
@[simp] theorem Group.setPredWord_vregPoison (g : Group) (l : Nat) (w : Word) : (g.setPredWord l w).vregPoison = g.vregPoison := rfl
@[simp] theorem Group.setPredWord_evicted (g : Group) (l : Nat) (w : Word) : (g.setPredWord l w).evicted = g.evicted := rfl
@[simp] theorem Group.setPredWord_pcv (g : Group) (l : Nat) (w : Word) : (g.setPredWord l w).pcv = g.pcv := rfl
@[simp] theorem Group.setPredWord_meetv (g : Group) (l : Nat) (w : Word) : (g.setPredWord l w).meetv = g.meetv := rfl
@[simp] theorem Group.setPredWord_kmask (g : Group) (l : Nat) (w : Word) : (g.setPredWord l w).kmask = g.kmask := rfl
@[simp] theorem Group.setPredWord_exited (g : Group) (l : Nat) (w : Word) : (g.setPredWord l w).exited = g.exited := rfl
@[simp] theorem Group.setPredWord_held (g : Group) (l : Nat) (w : Word) : (g.setPredWord l w).held = g.held := rfl
@[simp] theorem Group.setPredWord_heldK (g : Group) (l : Nat) (w : Word) : (g.setPredWord l w).heldK = g.heldK := rfl
@[simp] theorem Group.setPredWord_spend (g : Group) (l : Nat) (w : Word) : (g.setPredWord l w).spend = g.spend := rfl
@[simp] theorem Group.setPredWord_fpflags (g : Group) (l : Nat) (w : Word) : (g.setPredWord l w).fpflags = g.fpflags := rfl
@[simp] theorem Group.setPredWord_mwaitAddr (g : Group) (l : Nat) (w : Word) : (g.setPredWord l w).mwaitAddr = g.mwaitAddr := rfl
@[simp] theorem Group.setPredWord_mwaitRead (g : Group) (l : Nat) (w : Word) : (g.setPredWord l w).mwaitRead = g.mwaitRead := rfl
@[simp] theorem Group.setPredWord_mwaitValue (g : Group) (l : Nat) (w : Word) : (g.setPredWord l w).mwaitValue = g.mwaitValue := rfl
@[simp] theorem Group.setPredWord_mwaitData (g : Group) (l : Nat) (w : Word) : (g.setPredWord l w).mwaitData = g.mwaitData := rfl
@[simp] theorem Group.setPredWord_mwaitReq (g : Group) (l : Nat) (w : Word) : (g.setPredWord l w).mwaitReq = g.mwaitReq := rfl
@[simp] theorem Group.setPredWord_seed (g : Group) (l : Nat) (w : Word) : (g.setPredWord l w).seed = g.seed := rfl
@[simp] theorem Group.setPredWord_spoil (g : Group) (l : Nat) (w : Word) : (g.setPredWord l w).spoil = g.spoil := rfl
@[simp] theorem Group.setPredWord_contState (g : Group) (l : Nat) (w : Word) : (g.setPredWord l w).contState = g.contState := rfl
@[simp] theorem Group.setPredWord_contLanes (g : Group) (l : Nat) (w : Word) : (g.setPredWord l w).contLanes = g.contLanes := rfl
@[simp] theorem Group.setPredWord_resumev (g : Group) (l : Nat) (w : Word) : (g.setPredWord l w).resumev = g.resumev := rfl
@[simp] theorem Group.setPredWord_tblanes (g : Group) (l : Nat) (w : Word) : (g.setPredWord l w).tblanes = g.tblanes := rfl
@[simp] theorem Group.setPredWord_tbwait (g : Group) (l : Nat) (w : Word) : (g.setPredWord l w).tbwait = g.tbwait := rfl
@[simp] theorem Group.setPredWord_tbpass (g : Group) (l : Nat) (w : Word) : (g.setPredWord l w).tbpass = g.tbpass := rfl
@[simp] theorem Group.setPredWord_bwstate (g : Group) (l : Nat) (w : Word) : (g.setPredWord l w).bwstate = g.bwstate := rfl
@[simp] theorem Group.setPredWord_bwlanes (g : Group) (l : Nat) (w : Word) : (g.setPredWord l w).bwlanes = g.bwlanes := rfl
@[simp] theorem Group.setPredWord_latches (g : Group) (l : Nat) (w : Word) : (g.setPredWord l w).latches = g.latches := rfl
@[simp] theorem Group.setPredWord_cur (g : Group) (l : Nat) (w : Word) : (g.setPredWord l w).cur = g.cur := rfl
@[simp] theorem Group.setPredWord_run (g : Group) (l : Nat) (w : Word) : (g.setPredWord l w).run = g.run := rfl
@[simp] theorem Group.setPredWord_count (g : Group) (l : Nat) (w : Word) : (g.setPredWord l w).count = g.count := rfl
@[simp] theorem Group.setPredWord_waits (g : Group) (l : Nat) (w : Word) : (g.setPredWord l w).waits = g.waits := rfl
@[simp] theorem Group.setPredWord_waiting (g : Group) (l : Nat) (w : Word) : (g.setPredWord l w).waiting = g.waiting := rfl
@[simp] theorem Group.setPredWord_stalled (g : Group) (l : Nat) (w : Word) : (g.setPredWord l w).stalled = g.stalled := rfl
@[simp] theorem Group.setPredWord_blocked (g : Group) (l : Nat) (w : Word) : (g.setPredWord l w).blocked = g.blocked := rfl
@[simp] theorem Group.setPredWord_retry (g : Group) (l : Nat) (w : Word) : (g.setPredWord l w).retry = g.retry := rfl
@[simp] theorem Group.setPredWord_kept (g : Group) (l : Nat) (w : Word) : (g.setPredWord l w).kept = g.kept := rfl
@[simp] theorem Group.setPredWord_pathLoop (g : Group) (l : Nat) (w : Word) : (g.setPredWord l w).pathLoop = g.pathLoop := rfl
@[simp] theorem Group.setPredWord_greed (g : Group) (l : Nat) (w : Word) : (g.setPredWord l w).greed = g.greed := rfl
@[simp] theorem Group.setPredWord_yielded (g : Group) (l : Nat) (w : Word) : (g.setPredWord l w).yielded = g.yielded := rfl
@[simp] theorem Group.setPredWord_yieldPend (g : Group) (l : Nat) (w : Word) : (g.setPredWord l w).yieldPend = g.yieldPend := rfl
@[simp] theorem Group.setPredWord_barred (g : Group) (l : Nat) (w : Word) : (g.setPredWord l w).barred = g.barred := rfl
@[simp] theorem Group.setPredWord_active (g : Group) (l : Nat) (w : Word) : (g.setPredWord l w).active = g.active := rfl
@[simp] theorem Group.setPredWord_readySince (g : Group) (l : Nat) (w : Word) : (g.setPredWord l w).readySince = g.readySince := rfl
@[simp] theorem Group.setPredWord_deadlines (g : Group) (l : Nat) (w : Word) : (g.setPredWord l w).deadlines = g.deadlines := rfl
@[simp] theorem Group.setPredWord_storeQ (g : Group) (l : Nat) (w : Word) : (g.setPredWord l w).storeQ = g.storeQ := rfl
@[simp] theorem Group.setPredWord_acks (g : Group) (l : Nat) (w : Word) : (g.setPredWord l w).acks = g.acks := rfl
@[simp] theorem Group.setPredWord_loads (g : Group) (l : Nat) (w : Word) : (g.setPredWord l w).loads = g.loads := rfl
@[simp] theorem Group.setPredWord_memNext (g : Group) (l : Nat) (w : Word) : (g.setPredWord l w).memNext = g.memNext := rfl
@[simp] theorem Group.setPredWord_posted (g : Group) (l : Nat) (w : Word) : (g.setPredWord l w).posted = g.posted := rfl
@[simp] theorem Group.setPredWord_recorded (g : Group) (l : Nat) (w : Word) : (g.setPredWord l w).recorded = g.recorded := rfl
@[simp] theorem Group.setPredWord_rdy (g : Group) (l : Nat) (w : Word) : (g.setPredWord l w).rdy = g.rdy := rfl
@[simp] theorem Group.setPredWord_mstats (g : Group) (l : Nat) (w : Word) : (g.setPredWord l w).mstats = g.mstats := rfl
@[simp] theorem Group.setPredWord_stop (g : Group) (l : Nat) (w : Word) : (g.setPredWord l w).stop = g.stop := rfl
@[simp] theorem Group.setPredWord_deferred (g : Group) (l : Nat) (w : Word) : (g.setPredWord l w).deferred = g.deferred := rfl
@[simp] theorem Group.setPredWord_cancelled (g : Group) (l : Nat) (w : Word) : (g.setPredWord l w).cancelled = g.cancelled := rfl
@[simp] theorem Group.setPredWord_preempt (g : Group) (l : Nat) (w : Word) : (g.setPredWord l w).preempt = g.preempt := rfl
@[simp] theorem Group.setPredWord_joining (g : Group) (l : Nat) (w : Word) : (g.setPredWord l w).joining = g.joining := rfl
@[simp] theorem Group.setPredWord_joinOn (g : Group) (l : Nat) (w : Word) : (g.setPredWord l w).joinOn = g.joinOn := rfl
@[simp] theorem Group.setPredWord_drain (g : Group) (l : Nat) (w : Word) : (g.setPredWord l w).drain = g.drain := rfl

@[simp] theorem Group.setPending_sreg (g : Group) (n : Nat) (b : Bool) : (g.setPending n b).sreg = g.sreg := rfl
@[simp] theorem Group.setPending_vreg (g : Group) (n : Nat) (b : Bool) : (g.setPending n b).vreg = g.vreg := rfl
@[simp] theorem Group.setPending_sregPoison (g : Group) (n : Nat) (b : Bool) : (g.setPending n b).sregPoison = g.sregPoison := rfl
@[simp] theorem Group.setPending_vregPoison (g : Group) (n : Nat) (b : Bool) : (g.setPending n b).vregPoison = g.vregPoison := rfl
@[simp] theorem Group.setPending_evicted (g : Group) (n : Nat) (b : Bool) : (g.setPending n b).evicted = g.evicted := rfl
@[simp] theorem Group.setPending_pcv (g : Group) (n : Nat) (b : Bool) : (g.setPending n b).pcv = g.pcv := rfl
@[simp] theorem Group.setPending_meetv (g : Group) (n : Nat) (b : Bool) : (g.setPending n b).meetv = g.meetv := rfl
@[simp] theorem Group.setPending_predv (g : Group) (n : Nat) (b : Bool) : (g.setPending n b).predv = g.predv := rfl
@[simp] theorem Group.setPending_kmask (g : Group) (n : Nat) (b : Bool) : (g.setPending n b).kmask = g.kmask := rfl
@[simp] theorem Group.setPending_exited (g : Group) (n : Nat) (b : Bool) : (g.setPending n b).exited = g.exited := rfl
@[simp] theorem Group.setPending_held (g : Group) (n : Nat) (b : Bool) : (g.setPending n b).held = g.held := rfl
@[simp] theorem Group.setPending_heldK (g : Group) (n : Nat) (b : Bool) : (g.setPending n b).heldK = g.heldK := rfl
@[simp] theorem Group.setPending_fpflags (g : Group) (n : Nat) (b : Bool) : (g.setPending n b).fpflags = g.fpflags := rfl
@[simp] theorem Group.setPending_mwaitAddr (g : Group) (n : Nat) (b : Bool) : (g.setPending n b).mwaitAddr = g.mwaitAddr := rfl
@[simp] theorem Group.setPending_mwaitRead (g : Group) (n : Nat) (b : Bool) : (g.setPending n b).mwaitRead = g.mwaitRead := rfl
@[simp] theorem Group.setPending_mwaitValue (g : Group) (n : Nat) (b : Bool) : (g.setPending n b).mwaitValue = g.mwaitValue := rfl
@[simp] theorem Group.setPending_mwaitData (g : Group) (n : Nat) (b : Bool) : (g.setPending n b).mwaitData = g.mwaitData := rfl
@[simp] theorem Group.setPending_mwaitReq (g : Group) (n : Nat) (b : Bool) : (g.setPending n b).mwaitReq = g.mwaitReq := rfl
@[simp] theorem Group.setPending_seed (g : Group) (n : Nat) (b : Bool) : (g.setPending n b).seed = g.seed := rfl
@[simp] theorem Group.setPending_spoil (g : Group) (n : Nat) (b : Bool) : (g.setPending n b).spoil = g.spoil := rfl
@[simp] theorem Group.setPending_contState (g : Group) (n : Nat) (b : Bool) : (g.setPending n b).contState = g.contState := rfl
@[simp] theorem Group.setPending_contLanes (g : Group) (n : Nat) (b : Bool) : (g.setPending n b).contLanes = g.contLanes := rfl
@[simp] theorem Group.setPending_resumev (g : Group) (n : Nat) (b : Bool) : (g.setPending n b).resumev = g.resumev := rfl
@[simp] theorem Group.setPending_tblanes (g : Group) (n : Nat) (b : Bool) : (g.setPending n b).tblanes = g.tblanes := rfl
@[simp] theorem Group.setPending_tbwait (g : Group) (n : Nat) (b : Bool) : (g.setPending n b).tbwait = g.tbwait := rfl
@[simp] theorem Group.setPending_tbpass (g : Group) (n : Nat) (b : Bool) : (g.setPending n b).tbpass = g.tbpass := rfl
@[simp] theorem Group.setPending_bwstate (g : Group) (n : Nat) (b : Bool) : (g.setPending n b).bwstate = g.bwstate := rfl
@[simp] theorem Group.setPending_bwlanes (g : Group) (n : Nat) (b : Bool) : (g.setPending n b).bwlanes = g.bwlanes := rfl
@[simp] theorem Group.setPending_latches (g : Group) (n : Nat) (b : Bool) : (g.setPending n b).latches = g.latches := rfl
@[simp] theorem Group.setPending_cur (g : Group) (n : Nat) (b : Bool) : (g.setPending n b).cur = g.cur := rfl
@[simp] theorem Group.setPending_run (g : Group) (n : Nat) (b : Bool) : (g.setPending n b).run = g.run := rfl
@[simp] theorem Group.setPending_count (g : Group) (n : Nat) (b : Bool) : (g.setPending n b).count = g.count := rfl
@[simp] theorem Group.setPending_waits (g : Group) (n : Nat) (b : Bool) : (g.setPending n b).waits = g.waits := rfl
@[simp] theorem Group.setPending_waiting (g : Group) (n : Nat) (b : Bool) : (g.setPending n b).waiting = g.waiting := rfl
@[simp] theorem Group.setPending_stalled (g : Group) (n : Nat) (b : Bool) : (g.setPending n b).stalled = g.stalled := rfl
@[simp] theorem Group.setPending_blocked (g : Group) (n : Nat) (b : Bool) : (g.setPending n b).blocked = g.blocked := rfl
@[simp] theorem Group.setPending_retry (g : Group) (n : Nat) (b : Bool) : (g.setPending n b).retry = g.retry := rfl
@[simp] theorem Group.setPending_kept (g : Group) (n : Nat) (b : Bool) : (g.setPending n b).kept = g.kept := rfl
@[simp] theorem Group.setPending_pathLoop (g : Group) (n : Nat) (b : Bool) : (g.setPending n b).pathLoop = g.pathLoop := rfl
@[simp] theorem Group.setPending_greed (g : Group) (n : Nat) (b : Bool) : (g.setPending n b).greed = g.greed := rfl
@[simp] theorem Group.setPending_yielded (g : Group) (n : Nat) (b : Bool) : (g.setPending n b).yielded = g.yielded := rfl
@[simp] theorem Group.setPending_yieldPend (g : Group) (n : Nat) (b : Bool) : (g.setPending n b).yieldPend = g.yieldPend := rfl
@[simp] theorem Group.setPending_barred (g : Group) (n : Nat) (b : Bool) : (g.setPending n b).barred = g.barred := rfl
@[simp] theorem Group.setPending_active (g : Group) (n : Nat) (b : Bool) : (g.setPending n b).active = g.active := rfl
@[simp] theorem Group.setPending_readySince (g : Group) (n : Nat) (b : Bool) : (g.setPending n b).readySince = g.readySince := rfl
@[simp] theorem Group.setPending_deadlines (g : Group) (n : Nat) (b : Bool) : (g.setPending n b).deadlines = g.deadlines := rfl
@[simp] theorem Group.setPending_storeQ (g : Group) (n : Nat) (b : Bool) : (g.setPending n b).storeQ = g.storeQ := rfl
@[simp] theorem Group.setPending_acks (g : Group) (n : Nat) (b : Bool) : (g.setPending n b).acks = g.acks := rfl
@[simp] theorem Group.setPending_loads (g : Group) (n : Nat) (b : Bool) : (g.setPending n b).loads = g.loads := rfl
@[simp] theorem Group.setPending_memNext (g : Group) (n : Nat) (b : Bool) : (g.setPending n b).memNext = g.memNext := rfl
@[simp] theorem Group.setPending_posted (g : Group) (n : Nat) (b : Bool) : (g.setPending n b).posted = g.posted := rfl
@[simp] theorem Group.setPending_recorded (g : Group) (n : Nat) (b : Bool) : (g.setPending n b).recorded = g.recorded := rfl
@[simp] theorem Group.setPending_rdy (g : Group) (n : Nat) (b : Bool) : (g.setPending n b).rdy = g.rdy := rfl
@[simp] theorem Group.setPending_mstats (g : Group) (n : Nat) (b : Bool) : (g.setPending n b).mstats = g.mstats := rfl
@[simp] theorem Group.setPending_stop (g : Group) (n : Nat) (b : Bool) : (g.setPending n b).stop = g.stop := rfl
@[simp] theorem Group.setPending_deferred (g : Group) (n : Nat) (b : Bool) : (g.setPending n b).deferred = g.deferred := rfl
@[simp] theorem Group.setPending_cancelled (g : Group) (n : Nat) (b : Bool) : (g.setPending n b).cancelled = g.cancelled := rfl
@[simp] theorem Group.setPending_preempt (g : Group) (n : Nat) (b : Bool) : (g.setPending n b).preempt = g.preempt := rfl
@[simp] theorem Group.setPending_joining (g : Group) (n : Nat) (b : Bool) : (g.setPending n b).joining = g.joining := rfl
@[simp] theorem Group.setPending_joinOn (g : Group) (n : Nat) (b : Bool) : (g.setPending n b).joinOn = g.joinOn := rfl
@[simp] theorem Group.setPending_drain (g : Group) (n : Nat) (b : Bool) : (g.setPending n b).drain = g.drain := rfl

@[simp] theorem Group.wake_sreg (g : Group) : (g.wake).sreg = g.sreg := rfl
@[simp] theorem Group.wake_vreg (g : Group) : (g.wake).vreg = g.vreg := rfl
@[simp] theorem Group.wake_sregPoison (g : Group) : (g.wake).sregPoison = g.sregPoison := rfl
@[simp] theorem Group.wake_vregPoison (g : Group) : (g.wake).vregPoison = g.vregPoison := rfl
@[simp] theorem Group.wake_evicted (g : Group) : (g.wake).evicted = g.evicted := rfl
@[simp] theorem Group.wake_pcv (g : Group) : (g.wake).pcv = g.pcv := rfl
@[simp] theorem Group.wake_meetv (g : Group) : (g.wake).meetv = g.meetv := rfl
@[simp] theorem Group.wake_predv (g : Group) : (g.wake).predv = g.predv := rfl
@[simp] theorem Group.wake_kmask (g : Group) : (g.wake).kmask = g.kmask := rfl
@[simp] theorem Group.wake_exited (g : Group) : (g.wake).exited = g.exited := rfl
@[simp] theorem Group.wake_held (g : Group) : (g.wake).held = g.held := rfl
@[simp] theorem Group.wake_heldK (g : Group) : (g.wake).heldK = g.heldK := rfl
@[simp] theorem Group.wake_spend (g : Group) : (g.wake).spend = g.spend := rfl
@[simp] theorem Group.wake_fpflags (g : Group) : (g.wake).fpflags = g.fpflags := rfl
@[simp] theorem Group.wake_mwaitAddr (g : Group) : (g.wake).mwaitAddr = g.mwaitAddr := rfl
@[simp] theorem Group.wake_mwaitRead (g : Group) : (g.wake).mwaitRead = g.mwaitRead := rfl
@[simp] theorem Group.wake_mwaitValue (g : Group) : (g.wake).mwaitValue = g.mwaitValue := rfl
@[simp] theorem Group.wake_mwaitData (g : Group) : (g.wake).mwaitData = g.mwaitData := rfl
@[simp] theorem Group.wake_mwaitReq (g : Group) : (g.wake).mwaitReq = g.mwaitReq := rfl
@[simp] theorem Group.wake_seed (g : Group) : (g.wake).seed = g.seed := rfl
@[simp] theorem Group.wake_spoil (g : Group) : (g.wake).spoil = g.spoil := rfl
@[simp] theorem Group.wake_contState (g : Group) : (g.wake).contState = g.contState := rfl
@[simp] theorem Group.wake_contLanes (g : Group) : (g.wake).contLanes = g.contLanes := rfl
@[simp] theorem Group.wake_resumev (g : Group) : (g.wake).resumev = g.resumev := rfl
@[simp] theorem Group.wake_tblanes (g : Group) : (g.wake).tblanes = g.tblanes := rfl
@[simp] theorem Group.wake_tbwait (g : Group) : (g.wake).tbwait = g.tbwait := rfl
@[simp] theorem Group.wake_tbpass (g : Group) : (g.wake).tbpass = g.tbpass := rfl
@[simp] theorem Group.wake_bwstate (g : Group) : (g.wake).bwstate = g.bwstate := rfl
@[simp] theorem Group.wake_bwlanes (g : Group) : (g.wake).bwlanes = g.bwlanes := rfl
@[simp] theorem Group.wake_latches (g : Group) : (g.wake).latches = g.latches := rfl
@[simp] theorem Group.wake_cur (g : Group) : (g.wake).cur = g.cur := rfl
@[simp] theorem Group.wake_run (g : Group) : (g.wake).run = g.run := rfl
@[simp] theorem Group.wake_count (g : Group) : (g.wake).count = g.count := rfl
@[simp] theorem Group.wake_waits (g : Group) : (g.wake).waits = g.waits := rfl
@[simp] theorem Group.wake_waiting (g : Group) : (g.wake).waiting = g.waiting := rfl
@[simp] theorem Group.wake_stalled (g : Group) : (g.wake).stalled = g.stalled := rfl
@[simp] theorem Group.wake_blocked (g : Group) : (g.wake).blocked = g.blocked := rfl
@[simp] theorem Group.wake_kept (g : Group) : (g.wake).kept = g.kept := rfl
@[simp] theorem Group.wake_pathLoop (g : Group) : (g.wake).pathLoop = g.pathLoop := rfl
@[simp] theorem Group.wake_greed (g : Group) : (g.wake).greed = g.greed := rfl
@[simp] theorem Group.wake_yielded (g : Group) : (g.wake).yielded = g.yielded := rfl
@[simp] theorem Group.wake_yieldPend (g : Group) : (g.wake).yieldPend = g.yieldPend := rfl
@[simp] theorem Group.wake_barred (g : Group) : (g.wake).barred = g.barred := rfl
@[simp] theorem Group.wake_active (g : Group) : (g.wake).active = g.active := rfl
@[simp] theorem Group.wake_readySince (g : Group) : (g.wake).readySince = g.readySince := rfl
@[simp] theorem Group.wake_deadlines (g : Group) : (g.wake).deadlines = g.deadlines := rfl
@[simp] theorem Group.wake_storeQ (g : Group) : (g.wake).storeQ = g.storeQ := rfl
@[simp] theorem Group.wake_acks (g : Group) : (g.wake).acks = g.acks := rfl
@[simp] theorem Group.wake_loads (g : Group) : (g.wake).loads = g.loads := rfl
@[simp] theorem Group.wake_memNext (g : Group) : (g.wake).memNext = g.memNext := rfl
@[simp] theorem Group.wake_posted (g : Group) : (g.wake).posted = g.posted := rfl
@[simp] theorem Group.wake_recorded (g : Group) : (g.wake).recorded = g.recorded := rfl
@[simp] theorem Group.wake_rdy (g : Group) : (g.wake).rdy = g.rdy := rfl
@[simp] theorem Group.wake_mstats (g : Group) : (g.wake).mstats = g.mstats := rfl
@[simp] theorem Group.wake_stop (g : Group) : (g.wake).stop = g.stop := rfl
@[simp] theorem Group.wake_deferred (g : Group) : (g.wake).deferred = g.deferred := rfl
@[simp] theorem Group.wake_cancelled (g : Group) : (g.wake).cancelled = g.cancelled := rfl
@[simp] theorem Group.wake_preempt (g : Group) : (g.wake).preempt = g.preempt := rfl
@[simp] theorem Group.wake_joining (g : Group) : (g.wake).joining = g.joining := rfl
@[simp] theorem Group.wake_joinOn (g : Group) : (g.wake).joinOn = g.joinOn := rfl
@[simp] theorem Group.wake_drain (g : Group) : (g.wake).drain = g.drain := rfl

@[simp] theorem Group.dropLatches_sreg (g : Group) : (g.dropLatches).sreg = g.sreg := rfl
@[simp] theorem Group.dropLatches_vreg (g : Group) : (g.dropLatches).vreg = g.vreg := rfl
@[simp] theorem Group.dropLatches_sregPoison (g : Group) : (g.dropLatches).sregPoison = g.sregPoison := rfl
@[simp] theorem Group.dropLatches_vregPoison (g : Group) : (g.dropLatches).vregPoison = g.vregPoison := rfl
@[simp] theorem Group.dropLatches_evicted (g : Group) : (g.dropLatches).evicted = g.evicted := rfl
@[simp] theorem Group.dropLatches_pcv (g : Group) : (g.dropLatches).pcv = g.pcv := rfl
@[simp] theorem Group.dropLatches_meetv (g : Group) : (g.dropLatches).meetv = g.meetv := rfl
@[simp] theorem Group.dropLatches_predv (g : Group) : (g.dropLatches).predv = g.predv := rfl
@[simp] theorem Group.dropLatches_kmask (g : Group) : (g.dropLatches).kmask = g.kmask := rfl
@[simp] theorem Group.dropLatches_exited (g : Group) : (g.dropLatches).exited = g.exited := rfl
@[simp] theorem Group.dropLatches_held (g : Group) : (g.dropLatches).held = g.held := rfl
@[simp] theorem Group.dropLatches_heldK (g : Group) : (g.dropLatches).heldK = g.heldK := rfl
@[simp] theorem Group.dropLatches_spend (g : Group) : (g.dropLatches).spend = g.spend := rfl
@[simp] theorem Group.dropLatches_fpflags (g : Group) : (g.dropLatches).fpflags = g.fpflags := rfl
@[simp] theorem Group.dropLatches_mwaitAddr (g : Group) : (g.dropLatches).mwaitAddr = g.mwaitAddr := rfl
@[simp] theorem Group.dropLatches_mwaitRead (g : Group) : (g.dropLatches).mwaitRead = g.mwaitRead := rfl
@[simp] theorem Group.dropLatches_mwaitValue (g : Group) : (g.dropLatches).mwaitValue = g.mwaitValue := rfl
@[simp] theorem Group.dropLatches_mwaitData (g : Group) : (g.dropLatches).mwaitData = g.mwaitData := rfl
@[simp] theorem Group.dropLatches_mwaitReq (g : Group) : (g.dropLatches).mwaitReq = g.mwaitReq := rfl
@[simp] theorem Group.dropLatches_seed (g : Group) : (g.dropLatches).seed = g.seed := rfl
@[simp] theorem Group.dropLatches_spoil (g : Group) : (g.dropLatches).spoil = g.spoil := rfl
@[simp] theorem Group.dropLatches_contState (g : Group) : (g.dropLatches).contState = g.contState := rfl
@[simp] theorem Group.dropLatches_contLanes (g : Group) : (g.dropLatches).contLanes = g.contLanes := rfl
@[simp] theorem Group.dropLatches_resumev (g : Group) : (g.dropLatches).resumev = g.resumev := rfl
@[simp] theorem Group.dropLatches_tblanes (g : Group) : (g.dropLatches).tblanes = g.tblanes := rfl
@[simp] theorem Group.dropLatches_tbwait (g : Group) : (g.dropLatches).tbwait = g.tbwait := rfl
@[simp] theorem Group.dropLatches_tbpass (g : Group) : (g.dropLatches).tbpass = g.tbpass := rfl
@[simp] theorem Group.dropLatches_bwstate (g : Group) : (g.dropLatches).bwstate = g.bwstate := rfl
@[simp] theorem Group.dropLatches_bwlanes (g : Group) : (g.dropLatches).bwlanes = g.bwlanes := rfl
@[simp] theorem Group.dropLatches_cur (g : Group) : (g.dropLatches).cur = g.cur := rfl
@[simp] theorem Group.dropLatches_run (g : Group) : (g.dropLatches).run = g.run := rfl
@[simp] theorem Group.dropLatches_count (g : Group) : (g.dropLatches).count = g.count := rfl
@[simp] theorem Group.dropLatches_waits (g : Group) : (g.dropLatches).waits = g.waits := rfl
@[simp] theorem Group.dropLatches_waiting (g : Group) : (g.dropLatches).waiting = g.waiting := rfl
@[simp] theorem Group.dropLatches_stalled (g : Group) : (g.dropLatches).stalled = g.stalled := rfl
@[simp] theorem Group.dropLatches_blocked (g : Group) : (g.dropLatches).blocked = g.blocked := rfl
@[simp] theorem Group.dropLatches_retry (g : Group) : (g.dropLatches).retry = g.retry := rfl
@[simp] theorem Group.dropLatches_kept (g : Group) : (g.dropLatches).kept = g.kept := rfl
@[simp] theorem Group.dropLatches_pathLoop (g : Group) : (g.dropLatches).pathLoop = g.pathLoop := rfl
@[simp] theorem Group.dropLatches_greed (g : Group) : (g.dropLatches).greed = g.greed := rfl
@[simp] theorem Group.dropLatches_yielded (g : Group) : (g.dropLatches).yielded = g.yielded := rfl
@[simp] theorem Group.dropLatches_yieldPend (g : Group) : (g.dropLatches).yieldPend = g.yieldPend := rfl
@[simp] theorem Group.dropLatches_barred (g : Group) : (g.dropLatches).barred = g.barred := rfl
@[simp] theorem Group.dropLatches_active (g : Group) : (g.dropLatches).active = g.active := rfl
@[simp] theorem Group.dropLatches_readySince (g : Group) : (g.dropLatches).readySince = g.readySince := rfl
@[simp] theorem Group.dropLatches_deadlines (g : Group) : (g.dropLatches).deadlines = g.deadlines := rfl
@[simp] theorem Group.dropLatches_storeQ (g : Group) : (g.dropLatches).storeQ = g.storeQ := rfl
@[simp] theorem Group.dropLatches_acks (g : Group) : (g.dropLatches).acks = g.acks := rfl
@[simp] theorem Group.dropLatches_loads (g : Group) : (g.dropLatches).loads = g.loads := rfl
@[simp] theorem Group.dropLatches_memNext (g : Group) : (g.dropLatches).memNext = g.memNext := rfl
@[simp] theorem Group.dropLatches_posted (g : Group) : (g.dropLatches).posted = g.posted := rfl
@[simp] theorem Group.dropLatches_recorded (g : Group) : (g.dropLatches).recorded = g.recorded := rfl
@[simp] theorem Group.dropLatches_rdy (g : Group) : (g.dropLatches).rdy = g.rdy := rfl
@[simp] theorem Group.dropLatches_mstats (g : Group) : (g.dropLatches).mstats = g.mstats := rfl
@[simp] theorem Group.dropLatches_stop (g : Group) : (g.dropLatches).stop = g.stop := rfl
@[simp] theorem Group.dropLatches_deferred (g : Group) : (g.dropLatches).deferred = g.deferred := rfl
@[simp] theorem Group.dropLatches_cancelled (g : Group) : (g.dropLatches).cancelled = g.cancelled := rfl
@[simp] theorem Group.dropLatches_preempt (g : Group) : (g.dropLatches).preempt = g.preempt := rfl
@[simp] theorem Group.dropLatches_joining (g : Group) : (g.dropLatches).joining = g.joining := rfl
@[simp] theorem Group.dropLatches_joinOn (g : Group) : (g.dropLatches).joinOn = g.joinOn := rfl
@[simp] theorem Group.dropLatches_drain (g : Group) : (g.dropLatches).drain = g.drain := rfl

@[simp] theorem Group.setWaits_sreg (g : Group) (p : Lanes) (now : Nat) : (g.setWaits p now).sreg = g.sreg := rfl
@[simp] theorem Group.setWaits_vreg (g : Group) (p : Lanes) (now : Nat) : (g.setWaits p now).vreg = g.vreg := rfl
@[simp] theorem Group.setWaits_sregPoison (g : Group) (p : Lanes) (now : Nat) : (g.setWaits p now).sregPoison = g.sregPoison := rfl
@[simp] theorem Group.setWaits_vregPoison (g : Group) (p : Lanes) (now : Nat) : (g.setWaits p now).vregPoison = g.vregPoison := rfl
@[simp] theorem Group.setWaits_evicted (g : Group) (p : Lanes) (now : Nat) : (g.setWaits p now).evicted = g.evicted := rfl
@[simp] theorem Group.setWaits_pcv (g : Group) (p : Lanes) (now : Nat) : (g.setWaits p now).pcv = g.pcv := rfl
@[simp] theorem Group.setWaits_meetv (g : Group) (p : Lanes) (now : Nat) : (g.setWaits p now).meetv = g.meetv := rfl
@[simp] theorem Group.setWaits_predv (g : Group) (p : Lanes) (now : Nat) : (g.setWaits p now).predv = g.predv := rfl
@[simp] theorem Group.setWaits_kmask (g : Group) (p : Lanes) (now : Nat) : (g.setWaits p now).kmask = g.kmask := rfl
@[simp] theorem Group.setWaits_exited (g : Group) (p : Lanes) (now : Nat) : (g.setWaits p now).exited = g.exited := rfl
@[simp] theorem Group.setWaits_held (g : Group) (p : Lanes) (now : Nat) : (g.setWaits p now).held = g.held := rfl
@[simp] theorem Group.setWaits_heldK (g : Group) (p : Lanes) (now : Nat) : (g.setWaits p now).heldK = g.heldK := rfl
@[simp] theorem Group.setWaits_spend (g : Group) (p : Lanes) (now : Nat) : (g.setWaits p now).spend = g.spend := rfl
@[simp] theorem Group.setWaits_fpflags (g : Group) (p : Lanes) (now : Nat) : (g.setWaits p now).fpflags = g.fpflags := rfl
@[simp] theorem Group.setWaits_mwaitAddr (g : Group) (p : Lanes) (now : Nat) : (g.setWaits p now).mwaitAddr = g.mwaitAddr := rfl
@[simp] theorem Group.setWaits_mwaitRead (g : Group) (p : Lanes) (now : Nat) : (g.setWaits p now).mwaitRead = g.mwaitRead := rfl
@[simp] theorem Group.setWaits_mwaitValue (g : Group) (p : Lanes) (now : Nat) : (g.setWaits p now).mwaitValue = g.mwaitValue := rfl
@[simp] theorem Group.setWaits_mwaitData (g : Group) (p : Lanes) (now : Nat) : (g.setWaits p now).mwaitData = g.mwaitData := rfl
@[simp] theorem Group.setWaits_mwaitReq (g : Group) (p : Lanes) (now : Nat) : (g.setWaits p now).mwaitReq = g.mwaitReq := rfl
@[simp] theorem Group.setWaits_seed (g : Group) (p : Lanes) (now : Nat) : (g.setWaits p now).seed = g.seed := rfl
@[simp] theorem Group.setWaits_spoil (g : Group) (p : Lanes) (now : Nat) : (g.setWaits p now).spoil = g.spoil := rfl
@[simp] theorem Group.setWaits_contState (g : Group) (p : Lanes) (now : Nat) : (g.setWaits p now).contState = g.contState := rfl
@[simp] theorem Group.setWaits_contLanes (g : Group) (p : Lanes) (now : Nat) : (g.setWaits p now).contLanes = g.contLanes := rfl
@[simp] theorem Group.setWaits_resumev (g : Group) (p : Lanes) (now : Nat) : (g.setWaits p now).resumev = g.resumev := rfl
@[simp] theorem Group.setWaits_tblanes (g : Group) (p : Lanes) (now : Nat) : (g.setWaits p now).tblanes = g.tblanes := rfl
@[simp] theorem Group.setWaits_tbwait (g : Group) (p : Lanes) (now : Nat) : (g.setWaits p now).tbwait = g.tbwait := rfl
@[simp] theorem Group.setWaits_tbpass (g : Group) (p : Lanes) (now : Nat) : (g.setWaits p now).tbpass = g.tbpass := rfl
@[simp] theorem Group.setWaits_bwstate (g : Group) (p : Lanes) (now : Nat) : (g.setWaits p now).bwstate = g.bwstate := rfl
@[simp] theorem Group.setWaits_bwlanes (g : Group) (p : Lanes) (now : Nat) : (g.setWaits p now).bwlanes = g.bwlanes := rfl
@[simp] theorem Group.setWaits_latches (g : Group) (p : Lanes) (now : Nat) : (g.setWaits p now).latches = g.latches := rfl
@[simp] theorem Group.setWaits_cur (g : Group) (p : Lanes) (now : Nat) : (g.setWaits p now).cur = g.cur := rfl
@[simp] theorem Group.setWaits_run (g : Group) (p : Lanes) (now : Nat) : (g.setWaits p now).run = g.run := rfl
@[simp] theorem Group.setWaits_count (g : Group) (p : Lanes) (now : Nat) : (g.setWaits p now).count = g.count := rfl
@[simp] theorem Group.setWaits_waiting (g : Group) (p : Lanes) (now : Nat) : (g.setWaits p now).waiting = g.waiting := rfl
@[simp] theorem Group.setWaits_stalled (g : Group) (p : Lanes) (now : Nat) : (g.setWaits p now).stalled = g.stalled := rfl
@[simp] theorem Group.setWaits_blocked (g : Group) (p : Lanes) (now : Nat) : (g.setWaits p now).blocked = g.blocked := rfl
@[simp] theorem Group.setWaits_retry (g : Group) (p : Lanes) (now : Nat) : (g.setWaits p now).retry = g.retry := rfl
@[simp] theorem Group.setWaits_kept (g : Group) (p : Lanes) (now : Nat) : (g.setWaits p now).kept = g.kept := rfl
@[simp] theorem Group.setWaits_pathLoop (g : Group) (p : Lanes) (now : Nat) : (g.setWaits p now).pathLoop = g.pathLoop := rfl
@[simp] theorem Group.setWaits_greed (g : Group) (p : Lanes) (now : Nat) : (g.setWaits p now).greed = g.greed := rfl
@[simp] theorem Group.setWaits_yielded (g : Group) (p : Lanes) (now : Nat) : (g.setWaits p now).yielded = g.yielded := rfl
@[simp] theorem Group.setWaits_yieldPend (g : Group) (p : Lanes) (now : Nat) : (g.setWaits p now).yieldPend = g.yieldPend := rfl
@[simp] theorem Group.setWaits_barred (g : Group) (p : Lanes) (now : Nat) : (g.setWaits p now).barred = g.barred := rfl
@[simp] theorem Group.setWaits_active (g : Group) (p : Lanes) (now : Nat) : (g.setWaits p now).active = g.active := rfl
@[simp] theorem Group.setWaits_readySince (g : Group) (p : Lanes) (now : Nat) : (g.setWaits p now).readySince = g.readySince := rfl
@[simp] theorem Group.setWaits_deadlines (g : Group) (p : Lanes) (now : Nat) : (g.setWaits p now).deadlines = g.deadlines := rfl
@[simp] theorem Group.setWaits_storeQ (g : Group) (p : Lanes) (now : Nat) : (g.setWaits p now).storeQ = g.storeQ := rfl
@[simp] theorem Group.setWaits_acks (g : Group) (p : Lanes) (now : Nat) : (g.setWaits p now).acks = g.acks := rfl
@[simp] theorem Group.setWaits_loads (g : Group) (p : Lanes) (now : Nat) : (g.setWaits p now).loads = g.loads := rfl
@[simp] theorem Group.setWaits_memNext (g : Group) (p : Lanes) (now : Nat) : (g.setWaits p now).memNext = g.memNext := rfl
@[simp] theorem Group.setWaits_posted (g : Group) (p : Lanes) (now : Nat) : (g.setWaits p now).posted = g.posted := rfl
@[simp] theorem Group.setWaits_recorded (g : Group) (p : Lanes) (now : Nat) : (g.setWaits p now).recorded = g.recorded := rfl
@[simp] theorem Group.setWaits_rdy (g : Group) (p : Lanes) (now : Nat) : (g.setWaits p now).rdy = g.rdy := rfl
@[simp] theorem Group.setWaits_mstats (g : Group) (p : Lanes) (now : Nat) : (g.setWaits p now).mstats = g.mstats := rfl
@[simp] theorem Group.setWaits_stop (g : Group) (p : Lanes) (now : Nat) : (g.setWaits p now).stop = g.stop := rfl
@[simp] theorem Group.setWaits_deferred (g : Group) (p : Lanes) (now : Nat) : (g.setWaits p now).deferred = g.deferred := rfl
@[simp] theorem Group.setWaits_cancelled (g : Group) (p : Lanes) (now : Nat) : (g.setWaits p now).cancelled = g.cancelled := rfl
@[simp] theorem Group.setWaits_preempt (g : Group) (p : Lanes) (now : Nat) : (g.setWaits p now).preempt = g.preempt := rfl
@[simp] theorem Group.setWaits_joining (g : Group) (p : Lanes) (now : Nat) : (g.setWaits p now).joining = g.joining := rfl
@[simp] theorem Group.setWaits_joinOn (g : Group) (p : Lanes) (now : Nat) : (g.setWaits p now).joinOn = g.joinOn := rfl
@[simp] theorem Group.setWaits_drain (g : Group) (p : Lanes) (now : Nat) : (g.setWaits p now).drain = g.drain := rfl

end Sys2Proof.Machine
end

