-- ==== Sys2Proof/Laws/Trap.lean ====
section
/-! SUPPORT. What a precise trap and a wait leave in the issuing group, and the frame of a word that computes. -/

namespace Sys2Proof.Machine

open Sys2Proof

/-- The group still issues, with its registers and the rest of its inner state. -/
structure State.KeptOwn (s t : State) : Prop where
  some : t.own?.isSome = true
  regs : s.own.KeptRegs t.own
  inner : s.own.KeptInner t.own

theorem State.KeptOwn.trans {s t u : State} (a : s.KeptOwn t) (b : t.KeptOwn u) : s.KeptOwn u :=
  ⟨b.some, a.regs.trans b.regs, a.inner.trans b.inner⟩

theorem State.KeptOwn.of_eq {s t : State} (h0 : s.own?.isSome = true) (h : t.own? = s.own?) : s.KeptOwn t := by
  have e : t.own = s.own := by simp only [State.own, h]
  exact ⟨by rw [h]; exact h0, by rw [e]; exact .refl _, by rw [e]; exact .refl _⟩

theorem State.KeptOwn.modOwn {s : State} (h0 : s.own?.isSome = true) {f : Group → Group}
    (hr : ∀ g : Group, g.KeptRegs (f g)) (hi : ∀ g : Group, g.KeptInner (f g)) : s.KeptOwn (s.modOwn f) :=
  ⟨by simpa using h0, by rw [State.modOwn_own h0]; exact hr _, by rw [State.modOwn_own h0]; exact hi _⟩

theorem State.own?_setReg (s : State) (o : Nat) (w : Word) : (s.setReg o w).own? = s.own? := rfl

theorem State.KeptOwn.setReg {s t : State} (h : s.KeptOwn t) (o : Nat) (w : Word) : s.KeptOwn (t.setReg o w) :=
  h.trans (.of_eq h.some rfl)

theorem State.own?_agentFail (s : State) : s.agentFail.own? = s.own? := by
  unfold State.agentFail
  generalize offFe + 8 = o
  split
  · rfl
  · rfl

theorem State.keptOwn_fwTrap {s : State} (h0 : s.own?.isSome = true) (t : Trap) : s.KeptOwn (s.fwTrap t) := by
  have h1 : s.KeptOwn (s.modOwn (fun g => { g.unwait.dropLatches with count := 0, pathLoop := none, kept := [], recorded := [] })) :=
    .modOwn h0 (fun g => by constructor <;> rfl) (fun g => by constructor <;> rfl)
  unfold State.fwTrap
  dsimp only
  generalize s.modOwn (fun g => { g.unwait.dropLatches with count := 0, pathLoop := none, kept := [], recorded := [] }) = s1 at *
  split
  · have h2 := h1.setReg (offCore s.focus.core + 0x300) 0
    exact h2.trans (.of_eq h2.some (State.own?_agentFail _))
  · refine .trans (.setReg (.setReg (.setReg h1 _ _) _ _) _ _) (.modOwn ?_ ?_ ?_)
    · exact (State.KeptOwn.setReg (.setReg (.setReg h1 _ _) _ _) _ _).some
    · intro g; constructor <;> rfl
    · intro g; constructor <;> rfl

theorem State.keptOwn_stopTrap {s : State} (h0 : s.own?.isSome = true) (t : Trap) : s.KeptOwn (s.stopTrap t) := by
  unfold State.stopTrap
  refine .trans (.of_eq (t := s.record _ _) h0 rfl) (.modOwn (by exact h0) ?_ ?_) <;> intro g <;> constructor <;> rfl

theorem Group.keeps_redirect (g : Group) (c h : Word) : g.KeptRegs (g.redirect c h) ∧ g.KeptInner (g.redirect c h) := by
  have kr : ∀ (l : List Nat) (k : Group), k.KeptRegs (l.foldl (fun (h : Group) l =>
      ({ h with resumev := sput 0 h.resumev l (h.pc l) }).setPc l c) k) := by
    intro l
    induction l with
    | nil => exact fun k => .refl k
    | cons a l ih =>
      intro k
      refine Group.KeptRegs.trans ?_ (ih _)
      constructor <;> rfl
  have ki : ∀ (l : List Nat) (k : Group), k.KeptInner (l.foldl (fun (h : Group) l =>
      ({ h with resumev := sput 0 h.resumev l (h.pc l) }).setPc l c) k) := by
    intro l
    induction l with
    | nil => exact fun k => .refl k
    | cons a l ih =>
      intro k
      refine Group.KeptInner.trans ?_ (ih _)
      constructor <;> rfl
  unfold Group.redirect
  dsimp only
  exact ⟨(kr _ g).trans (by constructor <;> rfl), (ki _ g).trans (by constructor <;> rfl)⟩

theorem State.own?_allocFuture {s : State} {e sc : Nat} {sv : Bool} {h : Word} {t : State}
    (ha : s.allocFuture e none sc sv = some (h, t)) : t.own? = s.own? := by
  unfold State.allocFuture at ha
  split at ha
  · cases ha
  · dsimp only at ha
    next e0 es _ =>
    generalize hd : (if es = [] then ((0 : Word), s) else ((s.draw).1, (s.draw).2)) = d at ha
    have h1 : d.2.own? = s.own? := by
      subst hd
      split <;> rfl
    injection ha with ha; injection ha with _ ha
    subst ha
    refine (State.own?_modOwnTeam ?_).trans h1
    intro m; rfl

/-- R48, R125, R405: a precise trap leaves the registers of the issuing group and the rest of its inner state alone. -/
theorem State.keptOwn_takeTrap {s : State} (h0 : s.own?.isSome = true) (t : Trap) : s.KeptOwn (s.takeTrap t) := by
  unfold State.takeTrap
  split
  · exact s.keptOwn_fwTrap h0 t
  · split
    · split
      · next h s1 ha =>
        have e := State.own?_allocFuture ha
        have h1 : s1.own?.isSome = true := by rw [e]; exact h0
        refine .trans (.of_eq h0 e) (.trans (.of_eq (t := s1.record _ _) h1 rfl) (.modOwn ?_ ?_ ?_))
        · exact h1
        · exact fun g => (Group.keeps_redirect g _ _).1
        · exact fun g => (Group.keeps_redirect g _ _).2
      · exact s.keptOwn_stopTrap h0 t
    · exact s.keptOwn_stopTrap h0 t

theorem State.own?_reselect (s : State) : s.reselect.own? = s.own? := by
  show (s.modCore s.focus.core _).group? s.focus.core s.focus.team s.focus.group = _
  rw [State.group?_modCore_setSlot]; rfl

theorem State.keptOwn_trapWord {s : State} (h0 : s.own?.isSome = true) (act : Lanes) (sh : Shape) (t : Trap) :
    s.KeptOwn (s.trapWord act sh t) := by
  unfold State.trapWord
  have h := s.keptOwn_takeTrap h0
    { t with lanes := if t.lanes = 0 then act else t.lanes, scope := if t.scope = 0 then sh.scope else t.scope }
  exact h.trans (.of_eq h.some (State.own?_reselect _))

theorem State.keptOwn_switchPoint {s : State} (h0 : s.own?.isSome = true) : s.KeptOwn s.switchPoint := by
  obtain ⟨g, hg⟩ := Option.isSome_iff_exists.1 h0
  have e := s.own?_switchPoint
  rw [hg] at e
  refine ⟨by rw [e]; rfl, ?_, ?_⟩
  · simp only [State.own, e, hg]; exact Group.keptRegs_atSwitch g s.ticks
  · simp only [State.own, e, hg]; exact Group.keptInner_atSwitch g s.ticks

/-- R23, R91: a word that waits leaves its group's registers alone. -/
theorem State.keptOwn_waitHere {s : State} (h0 : s.own?.isSome = true) : s.KeptOwn s.waitHere := by
  unfold State.waitHere
  have h1 : s.KeptOwn (s.modOwn (fun g =>
    { g with
      waiting := g.waiting ||| g.cur
      kept := if g.latches.any (·.valid) then (g.pathPc.toNat, g.latches) :: g.kept else g.kept })) :=
    .modOwn h0 (fun g => by constructor <;> rfl) (fun g => by constructor <;> rfl)
  exact h1.trans (State.keptOwn_switchPoint h1.some)

theorem State.keptOwn_blockHere {s : State} (h0 : s.own?.isSome = true) : s.KeptOwn s.blockHere := by
  unfold State.blockHere
  have h1 : s.KeptOwn (s.modOwn (fun g => { g with blocked := g.blocked ||| g.cur })) :=
    .modOwn h0 (fun g => by constructor <;> rfl) (fun g => by constructor <;> rfl)
  exact h1.trans (State.keptOwn_waitHere h1.some)

theorem State.keptOwn_pauseHere {s : State} (h0 : s.own?.isSome = true) : s.KeptOwn s.pauseHere := by
  unfold State.pauseHere
  have h1 : s.KeptOwn (s.modOwn (fun g => { g with stalled := g.stalled ||| g.cur })) :=
    .modOwn h0 (fun g => by constructor <;> rfl) (fun g => by constructor <;> rfl)
  exact h1.trans (.of_eq h1.some (State.own?_reselect _))

theorem State.keptOwn_stallFor {s : State} (h0 : s.own?.isSome = true) (uses : List Use) : s.KeptOwn (s.stallFor uses) := by
  unfold State.stallFor
  split
  · exact .of_eq h0 rfl
  · split
    · exact State.keptOwn_waitHere h0
    · exact State.keptOwn_pauseHere h0

/-! ## Words that compute -/

theorem Group.activeFor_congr {g h : Group} {f : Full} (hc : h.cur = g.cur) (hp : h.predv = g.predv) :
    h.activeFor f = g.activeFor f := by
  simp only [Group.activeFor, Group.p, Group.pred, hc, hp]

theorem State.Computed.of_kept {s t : State} {sh : Shape} {f : Full} {k : List Nat} (e : s.Elsewhere t) (h : s.KeptOwn t) :
    s.Computed t sh f k where
  elsewhere := e
  some := h.some
  inner := h.inner
  flags := fun i hi => by rw [h.regs.fpflags]; exact hi
  vec := fun n l _ hn => absurd (h.regs.v n l) hn
  scal := fun n hn => absurd (h.regs.s n) hn
  prd := fun l j _ hn => absurd (h.regs.p l j) hn

theorem Group.counter_congr {g h : Group} (a : h.pathPc = g.pathPc) (b : h.pathLoop = g.pathLoop) : h.counter = g.counter := by
  simp only [Group.counter, a, b]

/-- After a step that leaves the group's registers, lanes and loop alone. -/
theorem State.Computed.after {s u t : State} {sh : Shape} {f : Full} {k : List Nat} (e : s.Elsewhere u) (h : s.KeptOwn u)
    (ha : u.own.activeFor f = s.own.activeFor f) (hc : u.own.counter = s.own.counter) (c : u.Computed t sh f k) :
    s.Computed t sh f k where
  elsewhere := e.trans c.elsewhere
  some := c.some
  inner := h.inner.trans c.inner
  flags := fun i hi => c.flags i (by rw [h.regs.fpflags]; exact hi)
  vec := fun n l hl hn => by
    have := c.vec n l hl (by rw [h.regs.v]; exact hn)
    rwa [ha] at this
  scal := fun n hn => by
    have := c.scal n (by rw [h.regs.s]; exact hn)
    rwa [hc] at this
  prd := fun l j hj hn => by
    have := c.prd l j hj (by rw [h.regs.p]; exact hn)
    rwa [ha] at this

/-- R79, R80, R163, R167: whatever becomes of a word that computes lane by lane, this is all that changes. -/
theorem issue_computed {sh : Shape} {f : Full} {s t : State} {fn : State → Nat → List Word → LaneOut} {k : List Nat}
    (hk : ∀ s l xs, ∀ e ∈ (fn s l xs).preds, e.1 ∈ k) (hnw : sh.wFree = false)
    (hsc : ∀ u, sh.dst = some u → sh.scalarPath = false ∨ ∀ m, opd u.enc ≠ .v m)
    (h : issue sh f s (fun s act => State.compute sh (fn s) s act) = .next t) : s.Computed t sh f k := by
  obtain ⟨h0, ht⟩ := issue_next_iff.1 h
  have e1 : s.Elsewhere (s.modOwn Group.restore) := s.elsewhere_modOwn _
  have k1 : s.KeptOwn (s.modOwn Group.restore) :=
    .modOwn h0 Group.keptRegs_restore Group.keptInner_restore
  have ho : (s.modOwn Group.restore).own = s.own.restore := State.modOwn_own h0 _
  refine State.Computed.after e1 k1 (by rw [ho]; exact Group.activeFor_congr (by simp) (Group.keptRegs_restore _).predv)
    (by rw [ho]; exact Group.counter_congr (by simp) (by simp)) ?_
  have hs1 := k1.some
  unfold State.issueWord at ht
  generalize s.modOwn Group.restore = s1 at *
  dsimp only at ht
  split at ht
  · -- no active lane
    rw [← ht]
    unfold State.retireNop
    have hf := State.own_finish (s := s1) (sh := { op := 0, sw := false }) (f := f) (r := { s := s1 }) hs1 rfl rfl
      (fun res hres => by cases hres)
    refine ⟨State.elsewhere_finish (.refl s1) (fun u => .refl u), hf.1, hf.2.1, ?_, ?_, ?_, ?_⟩
    · intro i hi; rw [hf.2.2.1]; simp [hi]
    · intro n l hl hn
      refine absurd (hf.2.2.2.1 n l hl ?_) hn
      rintro ⟨u, res, m, _, hres, _⟩; cases hres
    · intro n hn
      by_cases hc : s1.own.counter = some n
      · exact .inl hc
      · refine absurd (hf.2.2.2.2.1 n ?_ hc) hn
        rintro ⟨u, res, _, hres, _⟩; cases hres
    · intro l j hj hn
      exact absurd (hf.2.2.2.2.2 l j hj (fun e he => by cases he)) hn
  · next hact =>
    split at ht
    · rw [← ht]; exact .of_kept (State.elsewhere_trapWord ..) (State.keptOwn_trapWord hs1 ..)
    · split at ht
      · rw [← ht]; exact .of_kept (State.elsewhere_blockHere _) (State.keptOwn_blockHere hs1)
      · split at ht
        · rw [← ht]; exact .of_kept (State.elsewhere_stallFor _ _) (State.keptOwn_stallFor hs1 _)
        · split at ht
          · rw [← ht]; exact .of_kept (State.elsewhere_pauseHere _) (State.keptOwn_pauseHere hs1)
          generalize hA : s1.own.activeFor f = act at ht hact
          rw [← ht]
          show s1.Computed (s1.apply sh f act (State.compute sh (fn s1) s1 act)) sh f k
          unfold State.compute
          split
          · exact .of_kept (State.elsewhere_trapWord ..) (State.keptOwn_trapWord hs1 ..)
          · next hpz =>
            dsimp only [State.apply]
            generalize hP : (if sh.scalarPath = true then [lowest act] else lanesOf act) = path
            have hpath : ∀ l ∈ path, l < 32 := by
              intro l hl; subst hP
              split at hl
              · rw [List.mem_singleton.1 hl]; exact lowest_lt act
              · exact (mem_lanesOf.1 hl).1
            generalize hout : path.map (fun l => (l, fn s1 l (sh.srcs.map (fun u => s1.value u l)))) = outs
            have houts : ∀ e ∈ outs, e.1 ∈ path ∧ ∃ xs, e.2 = fn s1 e.1 xs := by
              intro e he; subst hout
              obtain ⟨l, hl, rfl⟩ := List.mem_map.1 he
              exact ⟨hl, _, rfl⟩
            generalize hr : ({
              s := s1
              result := some { vals := outs.map (fun e => (e.1, e.2.val)) }
              flags := outs.foldl (fun acc e => acc ||| e.2.flags) 0
              preds := outs.flatMap (fun e => e.2.preds.flatMap (fun p =>
                (if sh.scalarPath then lanesOf act else [e.1]).map (fun l => (l, p.1, p.2)))) } : Retire) = r
            have hpreds : ∀ e ∈ r.preds, e.2.1 ∈ k ∧ act.getLsbD e.1 = true := by
              intro e he
              rw [← hr] at he
              obtain ⟨o, ho, he⟩ := List.mem_flatMap.1 he
              obtain ⟨q, hq, he⟩ := List.mem_flatMap.1 he
              obtain ⟨l, hl, rfl⟩ := List.mem_map.1 he
              obtain ⟨hop, xs, hxs⟩ := houts o ho
              rw [hxs] at hq
              refine ⟨hk _ _ _ q hq, ?_⟩
              split at hl
              · exact (mem_lanesOf.1 hl).2
              · next hsp =>
                rw [List.mem_singleton.1 hl]
                rw [← hP, if_neg hsp] at hop
                exact (mem_lanesOf.1 hop).2
            have hf := State.own_finish (s := s1) (sh := sh) (f := f) (r := r) hs1 (by rw [← hr]) (by rw [← hr])
              (fun res hres e he => by
                rw [← hr] at hres; injection hres with hres; subst hres
                obtain ⟨o, ho, rfl⟩ := List.mem_map.1 he
                exact hpath _ (houts o ho).1)
            refine ⟨State.elsewhere_finish (by rw [← hr]; exact .refl s1) (fun u => by rw [← hr]; exact .refl u),
              hf.1, hf.2.1, ?_, ?_, ?_, ?_⟩
            · intro i hi; rw [hf.2.2.1]; simp [hi]
            · intro n l hl hn
              have : r.hitsV sh f n l := Classical.byContradiction (fun hx => hn (hf.2.2.2.1 n l hl hx))
              obtain ⟨u, res, m, hu, hres, hw, hmem, hm, hnm⟩ := this
              refine ⟨u, m, hu, hm, hw.resolve_right (by simp [hnw]), hnm, ?_⟩
              rw [hA]
              rw [← hr] at hres; injection hres with hres; subst hres
              simp only [List.map_map, List.mem_map, Function.comp] at hmem
              obtain ⟨o, ho, rfl⟩ := hmem
              have hop := (houts o ho).1
              have hsp : sh.scalarPath = false := (hsc u hu).resolve_right (fun hx => hx m hm)
              rw [← hP, hsp] at hop
              exact (mem_lanesOf.1 hop).2
            · intro n hn
              by_cases hc : s1.own.counter = some n
              · exact .inl hc
              · have : r.hitsS sh n := Classical.byContradiction (fun hx => hn (hf.2.2.2.2.1 n hx hc))
                obtain ⟨u, res, hu, _, hs⟩ := this
                exact .inr ⟨u, hu, hs⟩
            · intro l j hj hn
              have : ∃ e ∈ r.preds, e.1 = l ∧ e.2.1 = j := Classical.byContradiction (fun hx =>
                hn (hf.2.2.2.2.2 l j hj (fun e he he2 => hx ⟨e, he, he2⟩)))
              obtain ⟨e, he, rfl, rfl⟩ := this
              exact ⟨(hpreds e he).1, by rw [hA]; exact (hpreds e he).2⟩

end Sys2Proof.Machine
end

