-- ==== Sys2Proof/Tests/Slice0.lean ====
section
/-! SUPPORT. The model's own tests: witnesses that the hypotheses of the statements can be met, decoding of words written out from
R68, R82 and R377, ill-formed terms, and results worked out by hand from the rules. Expected values come from the rule that each
comment names, never from the model. -/

set_option Elab.async false

namespace Sys2Proof.Tests

open Sys2Proof Sys2Proof.Machine Sys2Proof.Claims

/-! ## The states of the witnesses -/

/-- A group with lanes 0 and 1 on one path at address 0, v3 = 5 in lane 0, s4 = 7 and s8 = 64. -/
def grp : Group := { cur := 3, exited := 0xFFFFFFFC, vreg := [(96, 5)], sreg := [(4, 7), (8, 64)] }

/-- A team of ANY groups, with a scratchpad of 64 KiB. -/
def crew : Team :=
  { gridSlot := 0, gridSeq := 1, roleShape := 0x40000000000000, scratchSize := 65536, groups := [(0, grp)] }

/-- A launch record for one ANY group on core 0, one tile of one element, batches of four (R317, R318). -/
def goodRecord : List Word :=
  [0x1000, 1, 0, 0x0040000000000001, 256, 0, 0, 0x0000000100010001, 0x0004000000000000, 0, 0x0000020100000000, 0]
    ++ List.replicate 12 0

/-- A grid of context 0 on core 0. -/
def field0 : Grid := { context := 0, seq := 1, record := goodRecord, cores := 1 }

/-- The package with one team on core 0, changed by `f`, and its group as `g` makes it. -/
def rigWith (f : Team → Team) (g : Group → Group) (k : Core → Core := id) : State :=
  { State.reset with
    cores := [(0, k { teams := [(0, f { crew with groups := [(0, g grp)] })] })], grids := [(0, field0)] }

/-- The package with one team on core 0. -/
def rig : State := rigWith id id

/-- The package at reset, seen by core 0's firmware slot. -/
def desk : State := { State.reset with focus := { core := 0, team := 8 } }

/-- A word is ready, with clean sources. -/
def runs (sh : Full → Shape) (f : Full) (s : State) : Bool := ready (sh f) f s && clean (sh f).srcs f s

/-- Each word of a list is. -/
def allRun (l : List ((Full → Shape) × Full)) (s : State) : Bool := l.all (fun e => runs e.1 e.2 s)

/-! ## Witnesses: integer, move, floating-point, cross-lane, format and Spoil words -/

/-- Each lane-wise word runs on vector operands, or with FTYPE or the table that it needs. -/
theorem test_lanewise_words_run :
    (lanewise.map (fun e => e.2.1)).all (fun sh => runs sh (always 2 4 6 8 0) rig || runs sh (always 2 4 6 8 8) rig
      || runs sh (always 0x102 0 0 0 0) rig) = true := by
  decide +kernel

/-- MOV and FSTAT run on the scalar path. -/
theorem test_mov_and_fstat_run :
    allRun [((intShape 0x3C 1 ·), always 0x102 0x104 0 0 0), (fstatShape, always 0x102 0 0 0 0x01)] rig = true := by
  decide +kernel

/-- Each cross-lane word is ready, and no lane reads a poisoned value. -/
def crossRuns (sh : Full → Shape) (f : Full) (s : State) : Bool :=
  ready (sh f) f s && ((found s).crossPoison (active f s) (useA f) (fun _ => List.range 32) [useB f]).isNone

theorem test_cross_lane_words_run :
    [(shflShape, always 2 4 6 0x184 0), (bcastShape, always 2 4 0x1C3 0x184 0), (ballotShape, always 2 0 0 0 0),
      (scanShape 0x52 0x1FB, always 2 4 0x184 0x184 0), (scanShape 0x53 0x17B, always 2 4 0x184 0x184 0),
      (matchLanesShape, always 2 4 0 0 0), (histShape, always 2 4 0 0 0), (packShape, always 2 4 0 0 0)].all
      (fun e => crossRuns e.1 e.2 rig) = true := by
  decide +kernel

theorem test_format_words_run :
    allRun [(cvtShape 0x60 false, always 2 4 6 0 0), (cvtShape 0x61 true, always 2 4 6 0 0), (qblkShape, always 2 4 0 0 0),
      (osplitShape, always 2 4 6 0x1C3 0), (efqShape, always 2 4 6 0x1C3 0x10), (nfchkShape, always 2 4 0 0 0)] rig = true := by
  decide +kernel

/-- A Spoil word runs: no transfer blocks it and no lane fails. -/
def spoilRuns (sh : Full → Shape) (op : SpoilOp) (f : Full) (s : State) : Bool :=
  ready (sh f) f s && !(found s).spoilBlocked op (active f s) && !(found s).wordReported
    && ((found s).spoilAll (sh f) op (active f s)).fails = []

/-- The package whose group's lanes have each pushed one entry with a tag. -/
def pushed (tag : BitVec 4) (v : W32 := 0) : State :=
  let e : SpoilLane := { depth := 1, count := 1, window := [{ tag := tag, value := v }] }
  rigWith id (fun g => { g with spoil := [(0, e), (1, e)] })

theorem test_spoil_do_words_run :
    (let f := always 2 3 6 0x184 8
     spoilRuns (fun f => spoilShape 0x70 f [useA f, useB f] true false) (rmulnOp f) f rig
     && spoilRuns (fun f => spoilShape 0x72 f [useA f] true false) (rshrOp f) f rig
     && spoilRuns (fun f => spoilShape 0x78 f [useA f] true false) (rlrelOp f) f rig
     && spoilRuns (fun f => spoilShape 0x7A f [useA f] true false) (rnarrOp f) f rig
     && spoilRuns (fun f => spoilShape 0x7C f [useA f] false false) rmarkOp f rig) = true := by
  decide +kernel

/-- The undo words run on each tag that they accept. -/
theorem test_spoil_undo_words_run :
    (let f := always 2 3 6 0x184 8
     [1, 2, 3].all (fun t => spoilRuns (fun f => spoilShape 0x71 f [useA f, useB f] true false) (umulnOp f) f (pushed t))
     && spoilRuns (fun f => spoilShape 0x73 f [useA f] true false) (ushrOp f) f (pushed 4)
     && spoilRuns (fun f => spoilShape 0x79 f [useA f] true false) (ulrelOp f) f (pushed 5)
     && [6, 7].all (fun t => spoilRuns (fun f => spoilShape 0x7B f [useA f] true false) (unarrOp f) f (pushed t))
     && spoilRuns (fun f => spoilShape 0x7D f [useA f] false false) umarkOp { f with a := 5 } (pushed 8)) = true := by
  decide +kernel

/-! ## Witnesses: predicate, control, future, barrier and special-register words -/

theorem test_predicate_words_run :
    allRun [(psetShape, always 0x005 2 4 0x03F 0x000), (psetfShape, always 0x005 2 4 0x03F 0x000),
      (plopShape, always 1 2 3 4 0x080), (pmovGetShape, always 2 0 0 0 0), (pmovGetShape, always 0x102 0 0 0 0),
      (pmovSetShape, always 0 2 4 0 1), (kmovGetShape, always 0x102 0 0 0 0), (kmovSetShape, always 0 0x102 0 0 0x010)] rig
      = true := by
  decide +kernel

/-- VOTE runs in each of its three modes. -/
theorem test_vote_runs_in_each_mode :
    allRun [(voteShape, always 1 2 0 0 0), (voteShape, always 1 2 0 0 1), (voteShape, always 1 2 0 0 2)] rig = true := by
  decide +kernel

theorem test_control_words_run :
    allRun [(nopShape, always 0 0 0 0 0), (yieldShape, always 0 0 0 0 0), (loopShape, always 0x104 0 0 0 0x00B),
      (loopShape, always 0x105 0 0 0 0x00B), (ifenceShape, always 0 0 0 0 0), (braShape, always 0 0 0 0 4),
      (brxShape, always 0 2 0 0 0), (retShape, always 0 2 0 0 0), (callShape, always 2 0 0 0 0), (joinShape, always 0 2 0 0 5),
      (meetShape, always 0 0 0 0 2), (exitShape, always 0 0 0 0 0)] rig = true := by
  decide +kernel

/-- A paired word meets what it needs to issue; whether no half of it traps on poison. -/
def pairRuns (p : Paired) (s : State) : Option Bool :=
  let t := found s
  let a := t.own.activeHalf p.a
  let b := t.own.activeHalf p.b
  let us := p.a.uses false ++ p.b.uses true
  if s.own?.isSome && decide (a ||| b ≠ 0) && (p.check t.ownTeam s.focus.group t.own).isNone
      && !us.any (fun u => u.isPending t.own) && !us.any (fun u => u.inFlight t.own)
  then some (t.pairTrap p a b).isNone else none

/-- `add.s32 v0, v0, 1 :: fmul.rne.f32 v2, v2, s3` issues; so does one with a NOPH half, and one whose mov reads poison. -/
theorem test_paired_word_runs :
    (let add : Half := ⟨0x02, 7, 0x00, 0x65, 0⟩
     let stained := rigWith id (fun g => { g with vregPoison := [96] })
     pairRuns ⟨add, ⟨0x1D, 7, 0x00, 0x43, 0⟩, false⟩ rig = some true
       && pairRuns ⟨⟨0, 7, 0x7F, 0x7F, 0x7F⟩, ⟨0x2D, 7, 0, 1, 31⟩, false⟩ rig = some true
       && pairRuns ⟨add, ⟨0x01, 7, 0, 1, 0⟩, false⟩ stained = some true && (found stained).own.poisoned (Half.useS ⟨0x01, 7, 0, 1, 0⟩ true) 0
       && !rig.own.loopStep.2.2 && rig.own.blocked &&& rig.own.cur = 0) = true := by
  decide +kernel

/-- s4 holds the handle of entry 1, an operation of engine `n` in the state `st`. -/
def holding (n : Nat) (st : FutureState) (service : Bool := false) (spend : BitVec 128 := 0) : State :=
  rigWith (fun m => { m with ftab := [(1, { state := st, engine := n, gen := 1, service := service })] })
    (fun g => { g with sreg := [(4, mkHandle 1 n 1)], spend := spend })

/-- The future words run on a register that holds a status, and on a pending one where they do not block. -/
theorem test_future_words_run :
    (allRun [(ftestShape, always 0x184 0x104 0 0 2), (fwaitShape, always 0x106 0x104 0 0 0), (fwaitAllShape, always 0 0 0 0 2),
        (fcancelShape, always 0x106 0x104 0 0 0), (fmovShape, always 0x106 0x104 0 0 0), (fmovShape, always 0x106 0x104 0 0 1)]
        (holding 1 .exported)
      && allRun [(ftestShape, always 0x184 0x104 0 0 2), (fcancelShape, always 0x106 0x104 0 0 0),
        (fmovShape, always 0x106 0x104 0 0 0), (fmovShape, always 0x106 0x104 0 0 1)] (holding 1 .pending false 16)
      && decide ((found (holding 1 .exported)).own.spend = 0)) = true := by
  decide +kernel

/-- The `.h` forms find an exported operation behind s4, running and complete. -/
theorem test_exported_future_words_run :
    [FutureState.exported, .doneExported].all (fun st =>
      allRun [(ftestHShape, always 0x106 0x104 0 0 3), (fwaitHShape, always 0x106 0x104 0 0 1),
        (fcancelShape, always 0x106 0x104 0 0 1), (fmovShape, always 0x106 0x104 0 0 2)] (holding 1 st)
      && (let t := found (holding 1 st)
          (t.exported (t.own.s 4)).any (fun e => e.state = st && !e.service))) = true := by
  decide +kernel

/-- A word is ready. -/
def allReady (l : List ((Full → Shape) × Full)) (s : State) : Bool := l.all (fun e => ready (e.1 e.2) e.2 s)

theorem test_barrier_and_special_words_run :
    allRun [(tbarShape, always 0 0 0 0 3), (tbarArrShape, always 0 0 0 0 0x013), (srdShape, always 2 0 0 0 0),
      (srdShape, always 2 0 0 0 0x00C), (swrShape, always 0 2 0 0 0), (swrShape, always 0 2 0 0 7), (bkptShape, always 0 0 0 0 0),
      (trapShape, always 0 0 0 0 9)] rig = true
    ∧ ((found rig).reg (offCtx (found rig).ownTeam.context)).getLsbD 3 = false := by
  decide +kernel

/-- A context that takes breakpoints: BKPT traps there. -/
theorem test_bkpt_traps_where_its_context_takes_it :
    (let s := rig.setReg (offCtx 0) 8
     ready (bkptShape (always 0 0 0 0 0)) (always 0 0 0 0 0) s
       && ((found s).reg (offCtx (found s).ownTeam.context)).getLsbD 3) = true := by
  decide +kernel

/-- The lanes of `back` have left for their continuation, whose service future stands in entry 1. -/
def resuming (back : Word) (st : FutureState) : State :=
  rigWith (fun m => { m with ftab := [(1, { state := st, engine := 0, gen := 1, service := true })] })
    (fun g => { g with contLanes := back, contState := 0x100000000 })

/-- FRESUME in each of its three cases: no lane to resume; some lanes wait for their service; the service is complete. -/
theorem test_fresume_runs_in_each_case :
    (let f := always 0 0 0 0 0
     let back (s : State) : Lanes := active f s &&& (found s).own.contLanes.setWidth 32
     let e (s : State) : FutureEntry := (found s).ownTeam.fut (bits (found s).own.contState.toNat 32 8)
     ready (fresumeShape f) f rig && decide (back rig = 0)
       && (let s := resuming 1 .exported
           ready (fresumeShape f) f s && decide (back s ≠ 0) && decide ((e s).state ≠ .doneExported)
             && decide (back s ≠ active f s))
       && (let s := resuming 3 .doneExported
           ready (fresumeShape f) f s && decide (back s ≠ 0) && decide ((e s).state = .doneExported)
             && decide (bits (e s).status.toNat 0 8 = 0))) = true := by
  decide +kernel

/-! ## Witnesses: load and store words -/

/-- `opens` holds of the state found, and of the state that it answers. -/
def gate (s : State) (act : Lanes) (release : Bool) (scope : Nat) : Option State :=
  if release then (match s.own.quiet, s.wideGate act scope with | true, .go t => some t | _, _ => none) else some s

/-- A word is ready, and no lane reads poison in the fields `us`. -/
def fit (sh : Shape) (f : Full) (s : State) (us : List Use) : Bool := ready sh f s && clean us f s

def loadRuns (sh : Shape) (f : Full) (s : State) (q : LoadForm) : Bool :=
  let a := useA f (if q.scalar then .scalar else .reg) 2
  match (found s).accesses q.scalar { n := q.n, acc := 1 } ((found s).eas a (loadOff f) (actLanes q.scalar (active f s))) with
  | (t, .ok as) => fit sh f s [a] && t.ortRoom (linesOf as).length && t.remoteReads f as = []
      && !((t.remoteReads f as).foldl (Sending.one t.loadIssuer) ({ s := t } : Sending Lanes)).full
  | _ => false

def storeRuns (sh : Shape) (f : Full) (s : State) (n : Nat) (scalar : Bool) : Bool :=
  let a := useA f (if scalar then .scalar else .reg) 2
  match (found s).accesses scalar { n := n, acc := 2 } ((found s).eas a (storeOff f) (actLanes scalar (active f s))) with
  | (t, .ok _) => fit sh f s [a]
      && (gate t (active f s) (lsSem f = 1 && decide (scopeF f ≥ 7)) (scopeF f)).any (fun u => decide (u.own.queued < 16))
  | _ => false

def lineRuns (sh : Shape) (f : Full) (s : State) (acc : Nat) : Bool :=
  match (found s).accesses false { n := 1, acc := acc } ((found s).eas (useA f .reg 2) (loadOff f) (lanesOf (active f s))) with
  | (t, .ok as) => fit sh f s [useA f .reg 2] && t.own.storeQ.length = 0 && as.length ≠ 0
      && (gate t (active f s) (lsSem f = 1 && decide (scopeF f ≥ 7)) (scopeF f)).any (fun u => decide (u.own.queued < 16))
  | _ => false

theorem test_loads_run :
    (let f := always 2 4 0 0x010 0x004
     let g := always 8 4 0 0x010 0
     let h := always 0x102 0x104 0 0x010 5
     loadRuns (ldShape f) f rig { n := 4, regs := 1, ttype := 4 }
       && loadRuns (ldvShape g) g rig { n := 16, regs := 4, quad := true, ttype := 4 }
       && loadRuns (sldShape h) h rig { n := 8, regs := 2, scalar := true, ttype := 5 }
       && fit (ldsShape f) f rig [useA f .noLatch]
       && ((found rig).ownTeam.spAccesses 4 false 1
          ((found rig).spEas (useA f .noLatch) (loadOff f) (lanesOf (active f rig)))).isNone) = true := by
  decide +kernel

/-- Stores run, as weak stores and as releases at a wide scope; DISC likewise. -/
theorem test_stores_run :
    [(0 : BitVec 11), 0x3A0].all (fun o =>
      let f := always 0 4 2 0x010 (4 ||| o)
      let g := always 0 4 8 0x010 o
      let h := always 0 0x104 0x106 0x010 (5 ||| o)
      storeRuns (stShape f) f rig 4 false && storeRuns (stvShape g) g rig 16 false && storeRuns (sstShape h) h rig 8 true
        && fit (stsShape f) f rig [useA f .noLatch]
        && ((found rig).ownTeam.spAccesses 4 false 2
          ((found rig).spEas (useA f .noLatch) (storeOff f) (lanesOf (active f rig)))).isNone) = true := by
  decide +kernel

theorem test_line_words_run :
    (let f (n : BitVec 11) : Full := always 0 4 0 0x010 n
     lineRuns (lineShape 0x87 (f 0) false) (f 0) rig 2 && [0, 1, 2].all (fun n => lineRuns (lineShape 0x88 (f n) false) (f n) rig 1)
       && [0, 1].all (fun n => fit (lineShape 0x86 (f n) false false) (f n) rig [useA (f n) .reg 2])) = true := by
  decide +kernel

/-- An atomic word meets what it needs to retire; where it also lies in this package, its room. -/
def atomRuns (sh : Shape) (f : Full) (s : State) (q : AtomForm) : Bool :=
  match (found s).accesses false { n := q.n, acc := 4, aligned := true, pci := q.pci }
      ((found s).eas (useA f .reg 2) 0 (lanesOf (active f s))) with
  | (t, .ok as) =>
    match gate t (active f s) (bit (lsSem f) 1 && decide (scopeF f ≥ 7)) (scopeF f) with
    | some u =>
      let ps := atomParts q.aop q.wide q.comb (atomLanes (found s) t sh.srcs as)
      fit sh f s sh.srcs && u.ortRoom ((ps.map (fun p => p.addr / 128)).eraseDups).length
        && !ps.any (fun p => u.isRemote p.addr || decide (region (localOf p.addr) ≠ .dram))
    | none => false
  | _ => false

/-- The atomic words run, relaxed and as releases at a wide scope. -/
theorem test_atomics_run :
    [(0 : BitVec 11), 0x3C0].all (fun o =>
      let f := always 2 4 6 0 (if o = 0 then 0 else o)
      let g := always 2 4 6 8 o
      atomRuns (atomShape 0x89 f true) f rig (atomForm f true) && atomRuns (atomShape 0x8C f false) f rig (atomForm f false)
        && atomRuns (casShape g) g rig { aop := 15, wide := false }
        && fit (atomsShape f) f rig (atomsShape f).srcs
        && ((found rig).ownTeam.spAccesses 4 true 4
          ((found rig).spEas (useA f .noLatch) 0 (lanesOf (active f rig)))).isNone
        && (gate (found rig) (active f rig) (bit (lsSem f) 1 && decide (scopeF f ≥ 7)) (scopeF f)).isSome) = true := by
  decide +kernel

theorem test_fences_run :
    ([(0 : BitVec 11), 1, 2].all (fun k =>
      let f := always 0 0 0 0 (0x380 ||| k)
      ready (fenceShape f false false) f rig && decide ((found rig).own.loads = []) && (gate (found rig) (active f rig) true 7).isSome)
      && (let f := always 0 0 0 0 0x00B
          ready (fenceShape f (!f.fn.getLsbD 3) true) f rig)) = true := by
  decide +kernel

/-- MWAIT on a word that differs from its value (0 against 7), on one that does not with its wait over, and on a poisoned one. -/
theorem test_mwait_runs :
    (let go (b : BitVec 9) (s : State) : Option (Word × Bool) :=
       let f := always 0x106 0x10A b 0x1C0 4
       match (found s).accesses true { n := 4, acc := 1, aligned := true }
           [(lowest (active f s), ((found s).value (useA f .scalar 2) 0).toNat)] with
       | (u, .ok as) =>
         let x := (((as.headD ⟨0, 0, []⟩).xs).headD ⟨0, 0⟩)
         if fit (mwaitShape f) f s (mwaitShape f).srcs && u.own.quiet && !u.isRemote x.pa then
           match u.mwaitNear (active f s) (scopeF f) 4 x with
           | .value _ w p => some (w ^^^ cut 1 ((found s).value (useB f .scalarIn) 0), p || u.timedOut)
           | _ => none
         else none
       | _ => none
     let late := rigWith id (fun g => { g with deadlines := [(0, 0), (1, 0)] })
     (go 0x104 rig).any (fun r => decide (r.1 ≠ 0)) && (go 0x106 late).any (fun r => r.2)
       && (go 0x106 { rig with poison := [0] }).any (fun r => r.1 = 0 && r.2)) = true := by
  decide +kernel

/-! ## Witnesses: words of the engines -/

/-- The first operand field of each word names s4, the second s6, the third s10; their values. -/
def values (a b c : Word) : Group → Group := fun g => { g with sreg := [(4, a), (6, b), (10, c)] }

/-- A word of an engine, unbound or with its handle in s12, and the FN bits `fn`. -/
def engineWord (h : Bool) (fn : BitVec 11) : Full := always (if h then 0x10C else 0x184) 0x104 0x106 0x10A fn

/-- `starts` applies: the release performs, the engine has room, and a table entry is free. -/
def startRuns (sh : Shape) (f : Full) (s : State) (from_ : State) (engine scope : Nat) (room : State → Bool) : Bool :=
  ready sh f s && (gate from_ (active f s) true scope).any (fun t => room t &&
    (match handleReg f with
     | none => true
     | some r => (t.allocFuture engine (some r) scope).isSome))

/-- Each word starts with a handle and without. -/
def bothWays (fn : BitVec 11) (p : Full → Bool) : Bool := p (engineWord false fn) && p (engineWord true fn)

def haulRuns (op : Nat) (f : Full) (s : State) (n : Nat) (bad : List W32 → Option Nat) : Bool :=
  let sh := haulShape op f false
  let t := found s
  let o := t.haulDraft sh f
  match o.describe t.ownScratch f (t.src f (asyncC f)).toNat n bad with
  | .ok d =>
    let o1 := { o with desc := d }
    let o2 := { o1 with total := o1.bytes (t.src f (asyncC f)).toNat }
    clean sh.srcs f s && (o2.ranges t.ownScratch).isNone && startRuns sh f s t 1 (scopeF f) State.haulRoom
  | .error _ => false

/-- Copies of 64 bytes, and of a descriptor of zeros, into the scratchpad; with BAR, whose object lies at 0x100. -/
theorem test_copies_start :
    (let s := rigWith id (values 0x200 0x400 0x10000000040)
     [(0x280 : BitVec 11), 0x290, 0x2C0].all (fun fn =>
       bothWays fn (fun f => haulRuns 0xA0 f s 0 (fun _ => none) && haulRuns 0xA2 { f with fn := f.fn &&& 0x7C0 } s 0 (fun _ => none)
         && haulRuns 0xA3 { f with fn := f.fn &&& 0x7C0 } s 8 gatherBad && haulRuns 0xA4 { f with fn := f.fn &&& 0x7C0 } s 8 gatherBad
         && haulRuns 0xA1 { f with fn := f.fn &&& 0x7C0 } s 16 (tileBad (f.fn &&& 0x7C0))))) = true := by
  decide +kernel

/-- Progress words find an exported operation of their engine, running or complete. -/
def tellRuns (sh : Full → Shape) (engine : Nat) (fn : BitVec 11) : Bool :=
  let f := always 0x10C 0x104 0 0 fn
  [FutureState.exported, .doneExported].all (fun st =>
    let s := holding engine st
    fit (sh f) f s [useA f .scalar] && ((found s).ownTeam.futOf ((found s).own.s (bits f.a.toNat 0 7))).any (fun e =>
      e.state = st && e.engine = engine && !e.service))

theorem test_progress_words_run :
    (tellRuns hstatShape 1 0 && tellRuns (fun f => ksShape 0xC4 (some (useD f .scalar)) [useA f .scalar] [(0, !fnOnly f 1)]) 3 0
      && tellRuns qstatShape 4 0) = true := by
  decide +kernel

/-- A barrier word with object 0x100, in the scratchpad, whose phase is 0. -/
def barRuns (sh : Full → Shape) (f : Full) (s : State) : Bool :=
  let t := found s
  let a := barAddr (t.src f (asyncA f)).toNat
  runs sh f s && !t.ownTeam.spBeyond a 16 && !t.ownTeam.spPoisoned a 16 && (gate t (active f s) true 2).isSome

/-- The words that act, with a token of 0, equal to the phase, and those that want it flipped, with a token of 1. -/
theorem test_barrier_words_run :
    (let s := rigWith id (values 0x100 0 0)
     let w := rigWith id (values 0x100 1 0)
     [((fun f => barShape 0xA6 f false true 0 : Full → Shape), always 0 0x104 0x106 0 0),
       (fun f => barShape 0xA7 f true true 0, always 0x10C 0x104 0x106 0 0),
       (fun f => barShape 0xA8 f false true 1, always 0 0x104 0x106 0 0),
       (fun f => barShape 0xA8 f true true 1, always 0x10C 0x104 0x106 0 1),
       (fun f => barShape 0xAA f false true 0x3F, always 0 0x104 0x106 0 5),
       (bcontShape, always 0 0x104 0x106 0 0), (fun f => barShape 0xAC f false true 0, always 0 0x104 0x106 0 0)].all
       (fun e => barRuns e.1 e.2 s && !(found s).own.storeQ.any (·.scratch))
     && barRuns (fun f => barShape 0xA9 f true true 0) (always 0x10C 0x104 0x106 0 0) w
     && barRuns bcontShape (always 0 0x104 0x106 0 0) w
     && (found w).flipped (always 0x10C 0x104 0x106 0 0) 0x100 && !(found s).flipped (always 0x10C 0x104 0x106 0 0) 0x100
     && !(found s).own.bwstate.getLsbD 33) = true := by
  decide +kernel

/-- An Ashlar operation word whose descriptor passes its checks. -/
def ashRuns (sh : Shape) (f : Full) (s : State) (has : Bool) (slot : Option Nat)
    (late : Team → List W32 → State → Option Trap) : Bool :=
  let t := found s
  match t.ashDesc f (t.ashOp sh f true []) has 3 with
  | .ok d => clean sh.srcs f s && (late t.ownScratch d t).isNone
      && startRuns sh f s t 2 (bits f.fn.toNat 7 4) (State.ashMay slot)
  | .error _ => false

theorem test_ashlar_operations_start :
    (let s := rigWith id (values 0x200 0 0)
     let d (f : Full) : Option Use := some (asyncD f)
     bothWays 0x280 (fun f => ashRuns (ashShape 0xB0 f (d f) [asyncA f, asyncC f] true false) f s true none
         (fun m x _ => firstTrap [wdTrap f.fn x, m.wdExtents f.fn x])
       && ashRuns (ashShape 0xB1 f (d f) [asyncC f] true false) f s false none (fun _ _ _ => none)
       && ashRuns (ashShape 0xB2 f (d f) [asyncA f, asyncC f] true false) f s true none
         (fun m x u => firstTrap [sdTrap f.fn x u.ashPlanned, m.sdExtents f.fn x u.ashPlanned])
       && (let g := { f with fn := f.fn ||| 0x20 }
           ashRuns (ashShape 0xB2 g (d g) [asyncA g, asyncB g, asyncC g] true false) g s true (some 0)
             (fun m x u => firstTrap [sdTrap g.fn x u.ashPlanned, m.sdExtents g.fn x u.ashPlanned]))
       && (let sh := ashShape 0xB4 f (d f) [asyncA f, asyncB f, asyncC f] true false
           ashRuns sh f s true none (ddLate sh f))
       && (let sh := ashShape 0xB5 f (d f) [asyncA f, asyncB f, asyncC f] true false
           ashRuns sh f s true none (ddLate sh f))
       && ashRuns (ashShape 0xB6 f (d f) [asyncB f, asyncC f] true false) f s false none (fun _ _ _ => none))) = true := by
  decide +kernel

/-- The Ashlar settings, MRDY and MSTAT. -/
theorem test_ashlar_settings_run :
    (let s := rigWith id (values 0x200 0 0)
     let f := always 0x184 0x104 0x106 0 0
     let g := always 0x10C 0 0x106 0 0
     let t := found s
     let settle (sh : Shape) (has : Bool) (late : List W32 → Option Trap) : Bool :=
       match t.ashDesc f (t.ashOp sh f false []) has 5 with
       | .ok d => fit sh f s sh.srcs && (late d).isNone && t.ashRoom
       | .error _ => false
     settle (ashShape 0xB7 f none [asyncB f] false false) false (fun _ => none)
       && settle (ashShape 0xB8 f none [asyncB f] false false) false (fun _ => none)
       && settle (ashShape 0xB9 f none [asyncA f] false false) true mapTrap
       && ready (ashShape 0xB3 f none [] false false) f s && !t.own.storeQ.any (·.scratch)
       && (let stat := ashShape 0xBA g (some (useD g .dstScalar)) [asyncB g] false false
           fit stat g s stat.srcs && decide (t.mstatSince (active g s) ≤ (t.core t.focus.core).ash.ended))) = true := by
  decide +kernel

/-- Tag 3 of context 0 is allocated, and destination entry 0 is valid and goes to core 0's station. -/
def tagged (a b : Word) : State :=
  ({ rigWith id (values a b 0) with tagsUsed := [(0, [(3, 1)])] } : State).setReg (offCtx 0 + 0x900) 4

def sendRuns (sh : Shape) (f : Full) (s : State) (n : Nat) : Bool :=
  let t := found s
  let tag : W32 := (t.src f (asyncB f)).setWidth 32
  let cdf : W32 := (t.src f (asyncB f)).extractLsb' 32 32
  match t.ksTarget t.ownCtx tag cdf n with
  | (u, .ok _) => fit sh f s sh.srcs && !badCdf cdf && (t.tagTrap t.ownCtx tag cdf).isNone
      && startRuns sh f s u 3 (bits f.fn.toNat 7 4) (fun _ => true)
  | _ => false

/-- KSEND of two words of the scratchpad, KSENDS of one and of two words of a register. -/
theorem test_sends_start :
    (bothWays 0x301 (fun f => sendRuns (ksendShape f) f (tagged 0x100 3) 8
        && !(found (tagged 0x100 3)).ownScratch.spBeyond 0x100 8 && sendRuns (ksendsShape f) f (tagged 0x100 3) 8)
      && bothWays 0x300 (fun f => sendRuns (ksendsShape f) f (tagged 0x100 3) 4)) = true := by
  decide +kernel

/-- TAGA of 4 numbers, of none and of too many; TAGF of tag 3; counters 0, 5, 6 and 7; the settings at their limits. -/
theorem test_keystone_settings_run :
    (let f := always 0x10C 0x104 0x106 0 0
     let taga := ksShape 0xC0 (some (useD f .scalar)) [asyncB f] [(0, false)]
     let tagf := ksShape 0xC1 none [asyncA f, asyncB f] [(0, false)]
     let ctr := ksShape 0xC4 (some (useD f .scalar)) [asyncB f] [(0, false)]
     let dest : Shape := { ksShape 0xC5 none [asyncA f, asyncB f] [(0, false)] with behind := true }
     let one := ksShape 0xC5 none [asyncB f] [(0, false)]
     fit taga f (tagged 3 4) taga.srcs && ((found (tagged 3 4)).tagPool 0).fit 4 = some 4
       && ((found (tagged 3 4)).tagPool 0).fit 65536 = some 4 && fit tagf f (tagged 3 1) tagf.srcs
       && ((found (tagged 3 1)).tagfFail 0 3 1).isNone && [(0 : Word), 65536, 65537].all (fun n => fit taga f (tagged 3 n) taga.srcs)
       && [(0 : Word), 4, 5, 6, 7].all (fun n => fit ctr f (tagged 3 n) ctr.srcs)
       && [(0 : Word), 15].all (fun n => fit dest f (tagged 0x100 n) dest.srcs && !(found (tagged 0x100 n)).ownScratch.spBeyond 0x100 32
         && !(found (tagged 0x100 n)).ownScratch.spPoisoned 0x100 32
         && (kdestBad ((found (tagged 0x100 n)).ownScratch.spWords 0x100 8)).isNone)
       && fit one f (tagged 0 0xFFFFFFFF) one.srcs) = true := by
  decide +kernel

theorem test_dispenser_words_run :
    (let s := rigWith id (values 0 0x3C00 0)
     let d := always 0x10C 0x104 0x106 0 0
     allRun [(fetchShape, d), (tdoneShape, d), (gcfgShape, d), (gcfgShape, { d with fn := 1 }), (gcfgShape, { d with fn := 2 }),
         (gstatShape, d), (gfillShape, d)] s
       && (found s).ownGrid.any (fun g => g.walk ≠ g.total && g.openJobs = 0) && (gate (found s) (active d s) true 6).isSome
       && !badTarget 0x3C00 && !badTarget 0 && !badTarget 0x7BFF) = true := by
  decide +kernel

/-- GFILL ends when the walk is over, and when its wait has run out. -/
theorem test_gfill_ends :
    (let s := { rig with grids := [(0, { field0 with walk := field0.total })] }
     let w := rigWith id (fun g => { g with deadlines := [(0, 0), (1, 0)] })
     (found s).ownGrid.any (fun g => g.walk = g.total && g.openJobs = 0) && (found w).timedOut
       && runs gfillShape (always 0x10C 0x104 0x106 0 0) s && runs gfillShape (always 0x10C 0x104 0x106 0 0) w) = true := by
  decide +kernel

/-- In the firmware slot, which has no grid, the words answer too. -/
theorem test_dispenser_words_run_in_the_firmware_slot :
    (allRun [(fetchShape, always 0x10C 0 0 0 0), (gstatShape, always 0x10C 0 0x106 0 0), (gfillShape, always 0x10C 0 0x106 0 0)] desk
      && (found desk).ownGrid.isNone) = true := by
  decide +kernel

/-- QLOADX of 1 and of 16384 elements, QGEMV of a descriptor of one row, the fences and QSTAT. -/
theorem test_quarry_words_run :
    (let room : State → Bool := fun s => s.ownTeam.quarry.length < 8
     bothWays 0x100 (fun f => [(1 : Word), 16384].all (fun n =>
       let s := rigWith id (values 0x200 n 0)
       let load := quarryShape 0xD0 f [asyncA f, asyncB f] false
       fit load f s load.srcs && !(found s).ownTeam.spBeyond 0x200 (n.toNat * ifmtBytes 0)
         && startRuns load f s (found s) 4 (scopeF f) room))
     && [(0x100 : BitVec 11), 0x101].all (fun fn =>
       let f := always 0 0 0 0 fn
       ready (qfenceShape f false) f rig && (gate (found rig) (active f rig) true (scopeF f)).isSome && !(found rig).ownQuarry
         && decide ((found rig).own.cancelled = []))
     && runs qstatStShape (always 0x10C 0 0x106 0 1) rig) = true := by
  decide +kernel

/-- Context 0 is valid, and its tables at 0x1000, 0x2000 and 0x3000 map the first GiB to itself, every access allowed, with QLAYOUT 1 and
QFMT 1. -/
def mapped (s : State) : State :=
  let t := (((s.setReg (offCtx 0) 1).setReg (offCtx 0 + 8) 0x1000).setReg (offCtx 0 + 0x900) 4)
  { t with
    tagsUsed := [(0, [(3, 1)])]
    dram := ((t.dram.write 0x1000 (bytesOfNat 8 0x2001)).write 0x2000 (bytesOfNat 8 0x3001)).write 0x3000
      (bytesOfNat 8 0x011000000000003F) }

/-- QGEMV of one row of 32 elements with a pitch of 64 bytes, against the input of slot 0. -/
def gemvRuns (ks h : Bool) : Bool :=
  let s := mapped (rigWith (fun m => { m with scratch := [(0x210, 64), (0x218, 1)], qslotHdr := [(0, 32)] })
    (values 0x200 (if ks then 3 else 0x400) 0))
  let f := engineWord h (0x101 ||| (if ks then 0x040 else 0))
  let t := found s
  let sh := quarryShape 0xD1 f ([asyncA f, asyncB f] ++ if ks then [asyncC f] else []) false
  let o0 := t.quarryOp f true 1
  let o : QuarryOp := { o0 with
    ks := ks, len := (t.ownScratch.qplanned o0.slot).1, desc := t.ownScratch.spWords 0x200 8
    bval := t.src f (asyncB f), cval := (t.src f (asyncC f)).setWidth 32 }
  let r := t.gemvTrap f t.ownScratch o 0x200
  decide (o.rows = 1) && r.2.isNone && fit sh f s sh.srcs
    && startRuns sh f s r.1 4 (scopeF f) (fun s => s.ownTeam.quarry.length < 8)

theorem test_qgemv_starts : (gemvRuns false true && gemvRuns true false) = true := by
  decide +kernel

/-- A launch packet of one rank, this package. -/
def launchWords : List Word := [0x100000000, 0, 0, 0, 0x1000, 1] ++ List.replicate 10 0

/-- The bytes of words, lowest first. -/
def bytesOf (ws : List Word) : List Byte := ws.flatMap (fun w => bytesOfNat 8 w.toNat)

/-- The group's package with the words `ws` at 0x80 in its LLC, where s4 points, and `b` in s6. -/
def recorded (ws : List Word) (b : Word := 0) : State :=
  let line (n : Nat) : Line := { bytes := Memory.write [] 0 (bytesOf ((ws.drop (16 * n)).take 16)) }
  { rigWith id (values 0x80 b 0) with llc := [(1, line 0), (2, line 1)] }

/-- LLAUNCH of that packet, with a handle; the word without one is ready in the same state. -/
theorem test_llaunch_runs :
    (let f := always 0x10C 0x104 0 0 0
     let s := recorded launchWords
     match gate (found s) (active f s) true 8 with
     | some u =>
       match u.readRecord f (active f s) 0x80 128 with
       | .bytes v bs => fit (llaunchShape f) f s [asyncA f] && fit (llaunchShape { f with d := 0x184 }) { f with d := 0x184 } s [asyncA f]
           && decide (words8 (words4 bs) = launchWords) && (v.packetOf launchWords none).fail v.pkgid v.maxpkg = none
           && (v.allocFuture 5 (some 12) 8).isSome
       | _ => false
     | none => false) = true := by
  decide +kernel

/-- LFLAG on two ports; LWAIT on a flag that has reached its value, and when its wait is over; LSTAT; a slot of another
context. -/
theorem test_lintel_words_run :
    (let s := rigWith id (values 3 0 0)
     let f := always 0x10C 0x104 0x106 0x10A 0
     fit (lflagShape f) f s [asyncA f, asyncB f] && selPorts ((found s).src f (asyncA f)) = [0, 1]
       && (gate (found s) (active f s) true 8).isSome
       && (let one := rigWith id (values 2 0 0)
           let late := rigWith id (fun g => { values 2 1 0 g with deadlines := [(0, 0), (1, 0)] })
           let other := one.setReg (offLn 1 + 0x100) 5
           let t := found one
           [lwaitShape, lstatShape].all (fun sh => runs sh f one && runs sh f other)
             && selPorts (t.src f (asyncA f)) = [1] && t.slotOwner 1 0 = t.ownCtx && reached ((t.slot 1 0).flag 0) 0
             && runs lwaitShape f late && (found late).timedOut && (found other).slotOwner 1 0 ≠ 0)) = true := by
  decide +kernel

/-! ## Witnesses: sequencer words -/

/-- Port 2's slot 1 runs, at instruction 5, with the values `c` in its registers. -/
def runner (c : Nat → Word) (t : Slot → Slot := id) : State :=
  { State.reset with
    focus := { port := 2, slot := 1 }
    seqs := [(2, { slots := [(1, t { (List.range 16).foldl (fun (u : Slot) i => u.setC (BitVec.ofNat 4 i) (c i)) {} with
      state := .run, pc := 5, current := some { context := 0, issuer := 0, words := [], future := none } })] })] }

def turnRuns (s : State) : Bool :=
  let t := s.slot s.focus.port s.focus.slot
  t.state = .run && t.current.isSome && t.sending = none

/-- The legal fields of the register, branch and flag words; a flag at 0 has reached 0 and not 1; branches from instruction 5 to
-1, 0, 511 and 512. -/
theorem test_sequencer_plain_words_run :
    (let q : SeqWord := { ca := 0, cb := 0, cc := 0, fi := 0, md := 0, imm := 0 }
     turnRuns (runner (fun _ => 0)) && [({} : SeqUses), { imm := true }, { fi := true, imm := true }].all (fun u => !u.bad q)
       && !SeqUses.bad { ca := true, cb := true, cc := true, imm := true, md := 1 } { q with md := 1, imm := 7, cc := 3 }
       && !SeqUses.bad { cb := true, fi := true, imm := true, md := 3 } { q with md := 3, fi := 63 }
       && (let t := (runner (fun _ => 0)).slot 2 1
           reached (t.flag 0) 0 && !reached (t.flag 0) 1 && decide ((t.pc : Int) + 1 ≤ 511)
             && decide (peerDst (t.c 0) ≤ (runner (fun _ => 0)).maxpkg)
             && [(-6, false), (-5, true), (506, true), (507, false)].all (fun e => decide (
               let target : Int := t.pc + (BitVec.ofInt 32 e.1).toInt
               (0 ≤ target ∧ target ≤ 511) ↔ e.2 = true)))) = true := by
  decide +kernel

/-! ## Witnesses: chunk words, front-end and firmware words -/

/-- Port 2's slot 1, with addresses in C1 and C2, and a chunk of 32 bytes from package 0 staged. -/
def mover : State :=
  runner (fun i => if i = 1 then 0x1000 else if i = 2 then 0x2000 else 0) (fun t => { t with
    staged := [{ source := 0, owner := 0, elems := List.replicate 8 0, xf := 0, poison := [] }] })

def moveRuns (u : SeqUses) (q : SeqWord) (combines : Bool) (c : ChunkForm) : Bool :=
  let s := mover
  let t := s.slot s.focus.port s.focus.slot
  let r := s.chunkSpans (s.slotOwner s.focus.port s.focus.slot) c.len c.read 1
  let w := r.1.chunkSpans (s.slotOwner s.focus.port s.focus.slot) c.len c.write 2
  turnRuns s && (chunkCause u q t combines c).isNone && c.send.all (fun d => decide (d ≤ s.maxpkg))
    && (c.recv.bind t.chunkFrom).all (fun ch => decide (4 * ch.elems.length = c.len)) && t.canMove c
    && r.2.toOption.isSome && w.2.toOption.isSome

theorem test_chunk_words_move :
    (let q : SeqWord := { ca := 1, cb := 0, cc := 2, fi := 0, md := 0, imm := 32 }
     let a := some 0x1000
     let c := some 0x2000
     moveRuns { ca := true, cb := true, imm := true } { q with cc := 0 } false { len := 32, read := a, send := some 0 }
       && moveRuns { cb := true, cc := true, imm := true } { q with ca := 0 } false { len := 32, recv := some 0, write := c }
       && moveRuns { ca := true, cb := true, cc := true, imm := true, md := 0x0F } q true
         { len := 32, recv := some 0, read := a, write := c, cop := some 0 }
       && moveRuns { ca := true, cb := true, cc := true, imm := true, md := 0x1F } { q with md := 0x10 } true
         { len := 32, recv := some 0, read := a, write := c, send := some 0, cop := some 0 }
       && moveRuns { ca := true, cb := true, imm := true, md := 0x1F } { q with cc := 0 } true
         { len := 32, recv := some 0, read := a, send := some 0, cop := some 0 }
       && moveRuns { cb := true, cc := true, imm := true, md := 0x10 } { q with ca := 0, md := 0x10 } false
         { len := 32, recv := some 0, write := c, send := some 0 }
       && [(0 : BitVec 8), 1].all (fun m => moveRuns { ca := true, cc := true, imm := true, md := 1 } { q with md := m } false
         { len := 32, read := a, write := c, scale := some (m = 1) })) = true := by
  decide +kernel

/-- LAUNCHC of the good record, with and without a handle. -/
theorem test_launchc_runs :
    (let s := recorded goodRecord
     let f := always 0x10C 0x104 0x106 0 0
     match gate (found s) (active f s) true 6 with
     | some u =>
       match u.readRecord f (active f s) 0x80 192 with
       | .bytes v bs => fit (launchcShape f) f s [asyncA f, asyncB f]
           && fit (launchcShape { f with d := 0x184 }) { f with d := 0x184 } s [asyncA f, asyncB f]
           && decide (words8 (words4 bs) = goodRecord) && (v.recordFail v.ownCtx 0 goodRecord).isNone
           && (v.allocFuture 6 (some 12) 6).isSome
       | _ => false
     | none => false) = true := by
  decide +kernel

/-- JOINC of a register that has resolved, and of a complete exported launch; SNAP. -/
theorem test_joinc_and_snap_run :
    (let f := always 0x10C 0x104 0 0 0
     let g := always 0x10C 0x104 0 0 1
     let s := holding 6 .doneExported
     fit (joincShape f) f s [{ useA f .scalar 2 with blocks := false }] && !(found s).own.pending 4
       && fit (joincShape g) g s [{ useA g .scalar 2 with blocks := false }]
       && ((found s).exported ((found s).own.s 4)).any (fun e => e.engine = 6 && !e.service && e.state = .doneExported)
       && runs snapShape f rig) = true := by
  decide +kernel

/-- The firmware slot of a package with a team on core 0, with `a` in s4 and `b` in s6. -/
def chief (a b : Word) (s : State := rig) : State :=
  ({ s with focus := { core := 0, team := 8 } } : State).modOwn (values a b 0)

/-- CTXSW out of a resident team, and in of a team that is away, into team slot 3. -/
theorem test_context_switches_run :
    (let f := engineWord false 0
     let g := engineWord true 1
     let s := chief 0 0
     let w := { chief 0x100000 3 desk with away := [{ crew with image := 0x100000, residency := .out true }] }
     fit (ctxswOutShape f) f s [asyncA f] && [found s, found w].all (fun u => (gate u 1 true 6).isSome)
       && (sfind (bits ((found s).src f (asyncA f)).toNat 0 3) ((found s).core 0).teams).isSome
       && fit (ctxswInShape g) g w [asyncA g, asyncB g]
       && ((found w).away.find? (fun m => m.image = 0x100000 ∧ m.core = 0)).isSome
       && (sfind 3 ((found w).core 0).teams).isNone
       && ((found w).allocFuture 6 (some 12) 6).isSome) = true := by
  decide +kernel

/-- Each kind of TLBI, with nothing in flight. -/
theorem test_tlbi_runs :
    ([(0 : BitVec 11), 1, 2, 3, 4].all (fun k =>
        let f := always 0 0x104 0x106 0 k
        fit (tlbiShape f false) f (chief 0 0) (tlbiShape f false).srcs)
      && [0, 1, 2].all (fun k =>
        let t := found (chief 0 0)
        let u : State := { t with tlb := t.tlb.filter (fun e => !tlbiHits k 0 0 e) }
        u.drained k 0 0 (t.own.drain.getD (t.drainNow k 0)))) = true := by
  decide +kernel

theorem test_management_words_run :
    (let f := always 0x10C 0x104 0x106 0 4
     let s := chief 0x40 7
     let z := always 0 0 0 0 0
     [eretShape, haltShape].all (fun sh => ready (sh z) z s) && fit (psrdShape f) f s [asyncA f] && fit (pswrShape f) f s [asyncA f]
       && fit (pswrShape { f with fn := 0x3A4 }) { f with fn := 0x3A4 } s [asyncA f]
       && (gate (found s) (active f s) true 7).isSome && (physAddr 0x40 4 1).toOption = some 0x40
       && (physAddr 0x40 4 2).toOption = some 0x40 && (found s).ortRoom 1) = true := by
  decide +kernel

/-- WDPLACE of the good record, at 0x80 and in the host's memory, whose access completes without error. -/
theorem test_wdplace_runs :
    (let places (a : Nat) (s : State) : Bool :=
       let f := always 0x10C 0x104 0x106 0 0
       let t := found s
       let q := t.admitAll 0 1 ((List.range 192).map (a + ·)) false
       let r := q.1.peeks false a 192
       fit (wdplaceShape f) f s [asyncA f, asyncB f] && (gate t (active f s) true 6).isSome && decide ((t.src f (asyncA f)).toNat = a)
         && decide (region a ≠ .reserved) && decide (region a ≠ .mgmt) && q.2 && !r.2 && decide (t.input ≠ .flag true)
         && decide (words8 (words4 r.1) = goodRecord) && (q.1.recordFail 0 0 goodRecord).isNone && (q.1.allocFuture 6 (some 12) 6).isSome
     places 0x80 (chief 0x80 0 { recorded goodRecord with cores := [] })
       && places 0x8000000000 (chief 0x8000000000 0 { State.reset with dram := Memory.write [] 0x8000000000 (bytesOf goodRecord) })
       && decide (region 0x8000000000 = .pci)) = true := by
  decide +kernel

/-! ## Witnesses: device events -/

/-- Nine words have gone by; a barrier has timed out; a monitor is armed and its poll is due. -/
theorem test_group_events_happen :
    ((rigWith id (fun g => { g with count := 9 })).own?.any (fun g => decide (9 ≤ g.count))
      && (let s := { rigWith (fun m => { m with barTimeout := 9, tbstate := [(3, { arrived := 1 })] }) id with
            ticks := 50, focus := { index := 3 } }
          (s.team? 0 0).any (fun m => m.barTimeout ≠ 0 && (m.tbar 3).arrived ≠ 0
            && decide (m.barTimeout.toNat < (s.clock + 2 ^ 48 - (m.tbar 3).first) % 2 ^ 48)))
      && (let s := { rigWith id (fun g => { g with mwaitAddr := 0x8000000000000000 }) with ticks := 6144 }
          s.own.armed && decide (s.own.mwaitRead + 1024 ≤ s.uncore))) = true := by
  decide +kernel

/-- The group's package with one store in its queue. -/
def storing (e : StoreEntry) : State := rigWith id (fun g => { g with storeQ := [e] })

/-- A load that may return, and loads and an atomic that may perform ahead; a store of a scratchpad, one of no byte, and one of a byte,
that may perform; a report. -/
theorem test_memory_events_happen :
    ((rigWith id (fun g => { g with loads := [{ dest := 2 }] })).returnable = [{ dest := 2 }]
      && [({ scratch := true, bytes := [(0, 1)] } : StoreEntry), {}, { bytes := [(0, 1)] }].all (fun e =>
        (storing e).own.mayStore e && !(storing e).storeVeiled e && (storing e).own?.isSome && (storing e).ortRoom (e.taken (0, 1)))
      && (storing { bytes := [(0, 1)] }).isRemote 0 = false
      && [({ dest := 2 } : LoadEntry), { dest := 2, lastUse := true }, { dest := 2, atomic := true }].all (fun e =>
        let s := { rigWith id (fun g => { g with loads := [e] }) with focus := { slot := 1 } }
        s.focus.slot = 1 && s.own.loads[s.focus.number]? = some e)
      && decide (({ rig with reports := [{ code := 0x15, core := 0, grid := 0, group := 0, pc := 0, address := 0, lanes := 1 }] }
        : State).reports ≠ [])) = true := by
  decide +kernel

/-- Register 5 is in its image, whose granules admit the fill, and, where the tables refuse it, do not; register 0 and the last one,
255, may be evicted. -/
theorem test_register_cache_events_happen :
    (let away := rigWith id (fun g => { g with evicted := [5] })
     let shut := away.setReg (offAt (homeSlice 0x2280 / 8)) 0
     let all (s : State) : Bool :=
       (s.admitAll (masterId 0 s.ownTeam.context) 1 ((List.range 128).map (s.ownTeam.image + recordOff 0 + 128 * 5 + ·)) false).2
     away.own.evicted.contains 5 && all away && !all shut
       && [0, 255].all (fun n => decide (n < rig.ownTeam.regsOf 0) && !rig.own.evicted.contains n
         && !rig.own.loads.any (fun e => (spanOf e.dest e.regs).contains n || (e.quad && decide (e.dest ≤ n ∧ n < e.dest + 4))))) = true := by
  decide +kernel

/-- The host's package, with an access of the host as the turn's input. -/
def asked (a n : Nat) (d : Option (List Byte)) (s : State := State.reset) : State := { s with input := .host ⟨a, n, d⟩ }

/-- The first byte of DRAM is inside the window, the first past its size is not, until the host makes it larger; a
refused access; a function with a context; BAR0 at its kick pages, at its window and between them, and a refused read there. -/
theorem test_host_events_happen :
    (let inside (s : State) (a : Nat) : Bool :=
       decide ((asked a 1 none s).input = .host ⟨a, 1, none⟩) && !decide (a ≥ s.bar2Size * 2 ^ 30 ∨ region a ≠ .dram)
     inside State.reset 0 && !inside State.reset (2 ^ 30) && inside (State.reset.hostWrite 64 6 4) (2 ^ 30)
       && (State.reset.admitAll 0 1 [0] false).2 && (State.reset.admitAll 0 2 [0] false).2
       && !((State.reset.setReg (offAt (homeSlice 0 / 8)) 0).admitAll 0 2 [0] false).2
       && (let s := State.reset.setReg (offCtx 3 + 0x30) 7
           s.vfContext 7 = some 3 && decide (2 ^ 30 - 8 + 8 ≤ s.vfBar2Size * 2 ^ 30))
       && [0x18, 0xFFFF8, 0x100000, 0x1000000, 0x1FFFFF8].all (fun n => (State.reset.bar0Read 0 n).2.isSome)
       && (State.reset.bar0Read 7 0x1000000).2 = some 0 && ((State.reset.setReg (offAt 48) 0).bar0Read 0 0x1000000).2.isNone
       && decide (State.reset.cores = []) && (State.reset.core 0).spSteps ≠ min 6 ((State.reset.setReg (offCore 0 + 0x180) 6).regBits
         (offCore 0 + 0x180) 0 3)) = true := by
  decide +kernel

/-- A copy of the group's grid. -/
def copy (count : Nat) : HaulOp :=
  { id := 1, grid := 0, group := 0, pc := 0, op := 0xA0, fn := 0x280, dst := 0x200, src := 0x400, total := 64, count := count }

theorem test_haul_and_ashlar_events_happen :
    (let s (n : Nat) := rigWith id id (fun k => { k with haul := [copy n] })
     !(s 0).veiledCore 0 && (((s 0).core 0).haul.find? ((s 0).haulRuns 0)).isSome
       && [1, 2].all (fun n =>
         let a : State := { s 0 with focus := { number := n } }
         decide (a.focus.number ≠ 0) && ((a.core 0).haul[a.focus.slot]?).any (a.haulRuns 0))
       && (((s 64).core 0).haul.find? (fun o => (s 64).haulOver o && (((s 64).core 0).slotOf o.grid).isSome)).isSome
       && (let a := rigWith id id (fun k => { k with ash := { queue := [{ op := 0xB6, fn := 0x280 }] } })
           (a.core 0).ash.queue.length = 1 && (a.core 0).ashOwner.isSome)) = true := by
  decide +kernel

/-- An operand of a tag. -/
def operand (t : W32) : Operand := { tag := t, payload := [1, 2] }

theorem test_keystone_events_happen :
    (let s := { rig with ticks := 0x10000000000, stations := [(stationOf 3, { store := [operand 3] })] }
     ((s.stations.flatMap (fun e => e.2.store) ++ s.ksOverflow).find? s.ksDue).any (fun x => (s.takeWaiting x.tag).isSome)
       && ({ rig with ksFlight := [operand 3] } : State).ksFlight[0]?.isSome
       && (let r := { rig with ticks := 6144, ksRetry := [operand 3] }
           r.ksRetry.findIdx? (fun o => r.uncore ≥ o.since + 1024) = some 0)
       && (let h : HeldRecord := { number := 0, operand := operand 3, station := 0, ds := 0 }
           let w := { rig with ksHeld := [h] }
           (w.ksHeld.find? w.ksMoves).isSome)) = true := by
  decide +kernel

/-- A grid whose teams have exited, and one that only awaits its jobs. -/
theorem test_grid_end_happens :
    (let g := { field0 with exited := [0] }
     let s : State := { State.reset with grids := [(0, g)] }
     let w : State := { State.reset with ending := [g] }
     (s.ending.find? (fun g => g.openJobs = 0)).isNone && (s.grids.find? (fun e => e.2.over)).isSome
       && (w.ending.find? (fun g => g.openJobs = 0)).isSome) = true := by
  decide +kernel

/-- The crew's package with one Quarry operation, under the page tables of `mapped`. -/
def quarrying (o : QuarryOp) (t : Nat := 0) : State :=
  { mapped (rigWith (fun m => { m with quarry := [o], qslotHdr := [(0, 32)] }) id) with ticks := t }

/-- A QLOADX whose slot is ready; a QGEMV that may run, and one that is over; a refused operand; a row that its page refuses. -/
theorem test_quarry_events_happen :
    (let load : QuarryOp := { id := 1, gemv := false, slot := 0, fmt := 0, len := 1 }
     let gemv : QuarryOp := { id := 1, gemv := true, slot := 0, fmt := 1, len := 32, desc := [0, 0, 0, 0, 64, 0, 1, 0] }
     let back := quarrying { gemv with ks := true, refused := [operand 3] } 6144
     let bad := { quarrying { gemv with desc := [0, 0x100, 0, 0, 64, 0, 1, 0] } with focus := {} }
     ((quarrying load).pickQuarry (fun m o => !o.gemv && m.slotReady o)).isSome
       && ((quarrying gemv).pickQuarry (fun m o => o.gemv && (o.over || m.qmayRun o))).any (fun e => !e.2.over)
       && ((quarrying { gemv with cancelled := true }).pickQuarry (fun m o => o.gemv && (o.over || m.qmayRun o))).any (fun e => e.2.over)
       && (back.pickQuarry (fun _ o => back.resendDue o)).any (fun e =>
         (e.2.refused.find? (fun x => back.uncore ≥ x.since + 1024)).isSome)
       && (bad.pickQuarry (fun m o => m.qmayRun o && bad.qstops m o)).isSome)
     = true := by
  decide +kernel

/-- A chunk, a peer update and an answer that a slot has before it, for its own package; a full and a foreign slot. -/
theorem test_sequencer_events_happen :
    (let ch : Chunk := { source := 0, owner := 0, elems := [1], xf := 0, poison := [] }
     let s : State := { State.reset with focus := { port := 2, slot := 1 } }
     let sent (t : Slot → Slot) : State := runner (fun _ => 0) t
     (s.stageChunk 2 1 ch).any (fun r => r.2) && (s.stageChunk 2 1 { ch with owner := 5 }).any (fun r => !r.2)
       && (let a := sent (fun t => { t with sent := [(0, ch)] })
           decide (a.input = .none) && decide ((a.slot 2 1).sent = [(a.pkgid, ch)]) && (a.stageChunk 2 1 ch).isSome)
       && (let a := sent (fun t => { t with peerSent := [(0, 63, true, 1)] })
           decide ((a.slot 2 1).peerSent = [(a.pkgid, 63, true, 1)]))
       && (let a := { sent (fun t => { t with sending := some { dst := 0, peer := false, since := 0 } }) with ticks := 0x10000000000 }
           (a.slot 2 1).sending.any (fun d => decide (d.since + a.fzTimeout ≤ a.ns)))
       && (let a : State := { State.reset with launchSent := [⟨0, 0, launchWords, none, 0⟩] }
           decide (a.input = .none) && decide (a.launchSent ≠ []))) = true := by
  decide +kernel

/-- A waiting copy at `a`, of context 0 under `k`. -/
def waitingAt (a : Nat) (s : State) : State := 
  { s with poolWait := [{ context := 0, pick := 0, address := a, record := [], owner := {} }] }

/-- Its record is good; is not; is poisoned; lies at no address; lies in another package. -/
theorem test_child_copies_are_taken :
    (let read (s : State) (a : Nat) : Reading := s.engineReadRun 0 0 a 192 .childCopy
     let good := waitingAt 0x80 (recorded goodRecord)
     let poor := recorded [] (b := 0)
     let far := (mapped rig).setReg (offCtx 0 + 8) 0x1000
     let away := { far with pkgcfg := 0x10000, dram := far.dram.write 0x3000 (bytesOfNat 8 0x000001000000003F) }
     decide (good.pool.length < 4096) && !(read good 0x80).paused && (read good 0x80).fail.isNone
       && !(read good 0x80).bytes.any (·.2) && (good.recordFail 0 0 goodRecord).isNone
       && decide (words8 (words4 ((read good 0x80).bytes.map (·.1))) = goodRecord)
       && (poor.recordFail 0 0 (List.replicate 24 0)).isSome
       && (read { good with llc := [(1, { poison := [0] }), (2, {})] } 0x80).bytes.any (·.2)
       && (read good (2 ^ 56)).fail.isSome && !(read good (2 ^ 56)).paused && (read away 0).paused) = true := by
  decide +kernel

/-- Core 0 with seven teams. -/
def crowd : Core := { teams := (List.range 7).map (fun n => (n, { crew with gridSlot := n + 2, scratchSize := 0, roleShape := 0 })) }

/-- A parked team comes back into the one free slot; a team leaves; a switch-in waits, and one goes on; a grid is placed. -/
theorem test_residency_events_happen :
    (let parked : Team := { crew with joinParked := true, joinReady := true, residency := .out false }
     let s : State := { State.reset with cores := [(0, crowd)], away := [parked] }
     (s.away.find? (fun m => m.core = 0 && m.joinParked && m.joinReady && s.admitsBack 0 m)).isSome
       && (s.pick (s.freeSeats 0)).1 = some 7 && (rig.away.find? (fun m => m.core = 0)).isNone && (sfind 0 (rig.core 0).teams).isSome
       && (let w : State := { State.reset with away := [{ crew with residency := .out false }], switchIns := [⟨0, 3, 0, none⟩] }
           decide (((w.switchIns.filter (fun w => w.core = 0)).foldl State.tryIn w).switchIns ≠ w.switchIns))
       && (let g : State := { State.reset with grids := [(0, field0)] }
           decide (((g.switchIns.filter (fun w => w.core = 0)).foldl State.tryIn g).switchIns = g.switchIns)
             && (g.placeable 0)[0]?.isSome)) = true := by
  decide +kernel

/-- Polls of a packet that is empty, is not, and has not come; a claimed AND packet; packets that end, well and not; a record
that its queue has room for. -/
theorem test_queue_events_happen :
    (let read (s : State) : Reading := s.engineReadRun 0 (s.uqCtx 0) (s.packetAddr 0 (s.uq 0 0x18).toNat) 8 (.packet 0)
     let kind (s : State) : Nat := packetKind (word8 ((read s).bytes.map (·.1)))
     let s : State := { State.reset with emptySince := [(0, 0)], ticks := 6144 }
     let full : State := { s with dram := s.dram.write 0 [2] }
     let away : State := { mapped s with pkgcfg := 0x10000, dram := (mapped s).dram.write 0x3000 (bytesOfNat 8 0x000001000000003F) }
     let claim (w : Word) : ClaimedPacket := { queue := 0, index := 0, words := w :: List.replicate 7 0 }
     sfind 0 s.emptySince = some 0 && decide (0 + 1024 ≤ s.uncore) && (read s).fail.isNone && kind s = 0
       && (read full).fail.isNone && kind full = 2 && (read away).paused && !(read s).paused
       && packetKind (claim 3).header = 3 && (claim 3).over false
       && [(1 : Word), 2, 4].all (fun w => (claim w).over true && (packetError w.toNat 0).isNone)
       && ({ s with claimed := [{ claim 5 with written := some ([], 0) }] } : State).marksMet []
       && (claim 5).over false && (packetError 1 0x15).isSome && (packetError 2 0x10).isSome && (packetError 4 0x8000000000000010).isSome
       && (State.reset.setReg (offCtx 0 + 0x10) 0x10000).fqRoom 0) = true := by
  decide +kernel

/-- A time that has come, a port that is up, sensors as a turn brings them. -/
theorem test_clock_and_power_events_happen :
    (let s : State := { State.reset with snapDue := [0] }
     let up := State.reset.setReg (offPort 4 + 8) 2
     decide (s.input = .none) && (s.snapDue.find? (fun d => decide (d ≤ s.ftime))).isSome && up.lowestUp = some 4
       && decide (({ s with input := .sensors 1801 104 94 } : State).input = .sensors 1801 104 94)) = true := by
  decide +kernel

/-- The package with port 0 changed, its register FZ_CTRL and its register FZ_STATUS. -/
def ported (f : Port → Port) (ctrl status : Word) (i : Input := .none) : State :=
  { ((({ State.reset with ports := [(0, f {})] } : State).setReg (offPort 0) ctrl).setReg (offPort 0 + 8) status) with input := i }

/-- A link trains without keys, finds none, and trains with them; a flit leaves in each of its four ways. -/
theorem test_link_events_happen :
    (let down (ctrl : Word) (f : Port → Port) : Bool :=
       let s := ported f ctrl 0
       (s.portReg 0 0).getLsbD 0 && !s.linkUp 0 && decide (s.input ≠ .flag false)
     let up (f : Port → Port) (i : Input) : Bool := (ported f 1 2 i).linkUp 0 && decide ((ported f 1 2 i).input = i)
     down 1 id && down 3 id && down 3 (fun q => { q with installed := some {} }) && up (fun q => { q with askReplay := true }) .none
       && up (fun q => { q with replay := [5], retry := [(5, [])] }) .none && up id (.packetData true [1, 2]) && up id .none
       && (let s : State := ported (fun q => { q with remap := none }) 1 0
           s.portIdle 0 && decide (((s.setReg (offPort 0 + 0x10) 0x13).remapWanted 0) ≠ (s.port 0).remap)
             && (List.range 16).all (fun p => (s.port p).outstanding = []))) = true := by
  decide +kernel

/-- A request of package 7, number `n` in its sequence. -/
def asking (n : Nat) : RemoteRequest :=
  { package := 7, srcPort := 0, seq := n, context := 0, address := 0, op := .read false, bytes := [], posted := false
    discEn := false, poison := [] }

/-- A request reaches an ingress that is off, and one that is on; an answer, and a timeout, of a request that stands open; a
gap that has lasted. -/
theorem test_request_events_happen :
    (let o : Outstanding := { id := 9, request := asking 0, dst := 7, issuer := .frontEnd 0, postedNo := none, since := 0 }
     let open_ (i : Input) : State := { ported (fun q => { q with outstanding := [o] }) 1 2 i with focus := { number := 9 }, ticks := 0x10000000000 }
     let found_ (s : State) : Bool := ((s.port 0).outstanding.find? (fun o => o.id = s.focus.number ∧ !o.reported)).isSome
     !((ported id 0 0 (.request (asking 0))).portReg 0 0).getLsbD 0 && ((ported id 1 2 (.request (asking 0))).portReg 0 0).getLsbD 0
       && decide ((State.ingressSeq (ported id 1 2) 0 (ingressKey 7 0)).next ≤ 0)
       && [RemoteResponse.refused, .ingressOff, .ack, .data []].all (fun r =>
         found_ (open_ (.response r)) && decide ((open_ (.response r)).input = .response r))
       && decide (o.since + (open_ .none).fzTimeout ≤ (open_ .none).ns)
       && (let k := ingressKey 7 0
           let s : State := { ported (fun q => { q with ingress := [(k, { held := [asking 3], gapSince := some 0 })] }) 1 2 with
             focus := { number := k }, ticks := 0x10000000000 }
           let g := s.ingressSeq 0 k
           g.gapSince = some 0 && decide (g.held = [asking 3]) && decide (0 + s.fzTimeout ≤ s.ns))) = true := by
  decide +kernel

/-- A flit of 48 zero bytes, the TAG `tag` and the CRC `crc`. -/
def flitOf (tag crc : Nat) : BitVec 512 := BitVec.ofNat 512 (tag * 2 ^ 384 + crc * 2 ^ 480)

def flitGood (f : BitVec 512) : Bool :=
  let bs := bytesOfNat 64 f.toNat
  natOfBytes (bs.drop 60) = (crc32 (bs.take 60)).toNat

/-- A flit of zeros: the CRC of 60 zero bytes is right, with another it is not; so is that of a flit with a TAG. -/
theorem test_flit_crc :
    (flitGood (flitOf 0 0x04128908) && !flitGood (flitOf 0 0x04128909) && flitGood (flitOf 0x8BD4BC85BD72F71B84E4839C 0x213CBBC8)) = true := by
  decide +kernel

/-- The port of such a flit is up, with and without encryption. -/
theorem test_flits_arrive :
    [(2 : Word), 6].all (fun st =>
      let s := ported id 1 st (.flit (flitOf 0 0x04128908))
      s.linkUp 0 && decide (s.encOn 0 = (st = 6)) && decide (s.input = .flit (flitOf 0 0x04128908))
        && decide (s.reg (offPort 0 + 0x70) = 0) && decide ((s.port 0).keys.rx = 0)) = true := by
  decide +kernel

/-- The bytes of a number that bytes stand for are those bytes. -/
theorem bytesOfNat_natOfBytes (l : List Byte) : bytesOfNat l.length (natOfBytes l) = l := by
  induction l with
  | nil => rfl
  | cons b l ih =>
    have h : BitVec.ofNat 8 (b.toNat + 256 * natOfBytes l) = b := by
      have hb := b.isLt
      apply BitVec.eq_of_toNat_eq
      rw [BitVec.toNat_ofNat]
      omega
    have h2 : (b.toNat + 256 * natOfBytes l) / 256 = natOfBytes l := by omega
    simp [bytesOfNat, natOfBytes, h, h2, ih]

theorem natOfBytes_lt (l : List Byte) : natOfBytes l < 256 ^ l.length := by
  induction l with
  | nil => simp [natOfBytes]
  | cons b l ih =>
    have hb := b.isLt
    simp only [natOfBytes, List.length_cons, Nat.pow_succ]
    omega

/-- For the keys of reset there is a flit whose CRC and TAG both hold: 48 zero bytes, their TAG, and the CRC of both. -/
theorem flit_bytes_with_their_tag :
    ∃ bs : List Byte, bs.length = 64 ∧ natOfBytes (bs.drop 60) = (crc32 (bs.take 60)).toNat
      ∧ gcmTag (roundKeys (keyBytes 0)) (flitIv 0 0) (bs.take 48) = (bs.drop 48).take 12 := by
  let z : List Byte := List.replicate 48 0
  obtain ⟨tag, ht⟩ : ∃ tag, gcmTag (roundKeys (keyBytes 0)) (flitIv 0 0) z = tag := ⟨_, rfl⟩
  have hl : tag.length = 12 := by
    rw [← ht]
    decide +kernel
  have h4 : ∀ v, (bytesOfNat 4 v).length = 4 := fun _ => rfl
  have hn : ∀ v, v < 2 ^ 32 → natOfBytes (bytesOfNat 4 v) = v := by
    intro v hv
    simp only [bytesOfNat, natOfBytes, BitVec.toNat_ofNat]
    omega
  refine ⟨z ++ (tag ++ bytesOfNat 4 (crc32 (z ++ tag)).toNat), ?_, ?_, ?_⟩
  · simp [z, hl, h4]
  · rw [← List.append_assoc, List.drop_append_of_le_length (by simp [z, hl]), List.take_append_of_le_length (by simp [z, hl]),
      List.drop_of_length_le (by simp [z, hl]), List.take_of_length_le (by simp [z, hl]), List.nil_append, hn _ (BitVec.isLt _)]
  · rw [List.take_append_of_le_length (by simp [z]), List.take_of_length_le (by simp [z]), ht,
      List.drop_append_of_le_length (by simp [z]), List.drop_of_length_le (by simp [z]), List.nil_append,
      List.take_append_of_le_length (by simp [hl]), List.take_of_length_le (by simp [hl])]

theorem test_a_flit_with_its_tag_exists :
    ∃ f : BitVec 512, flitGood f = true
      ∧ gcmTag (roundKeys (keyBytes 0)) (flitIv 0 0) ((bytesOfNat 64 f.toNat).take 48) = ((bytesOfNat 64 f.toNat).drop 48).take 12 := by
  obtain ⟨bs, hl, hc, ht⟩ := flit_bytes_with_their_tag
  have hb : natOfBytes bs < 2 ^ 512 := by
    have h := natOfBytes_lt bs
    rw [hl, show (256 : Nat) = 2 ^ 8 from rfl, ← Nat.pow_mul, show 8 * 64 = 512 from rfl] at h
    exact h
  have hf : bytesOfNat 64 (BitVec.ofNat 512 (natOfBytes bs)).toNat = bs := by
    rw [BitVec.toNat_ofNat, Nat.mod_eq_of_lt hb, ← hl]
    exact bytesOfNat_natOfBytes bs
  refine ⟨BitVec.ofNat 512 (natOfBytes bs), ?_, ?_⟩
  · simp only [flitGood, hf]
    exact decide_eq_true hc
  · rw [hf]
    exact ht

/-! ## Witnesses: what every word does -/

/-- A full-form word, one of a reserved opcode and a paired word, none of whose lanes is active: PRED is p0, which is false. -/
theorem test_words_with_no_active_lane :
    (let f : Full := { always 2 3 4 0x184 0 with pred := 0 }
     let w := f.toWord 0x20
     let p : Paired := ⟨⟨2, 0, 0, 0x65, 0⟩, ⟨0x1D, 1, 0, 0x43, 0⟩, false⟩
     decide (fullWord (.add f) = some w) && rig.own?.isSome && decide (active (Full.ofWord w) rig = 0)
       && decide ((found rig).own.activeHalf p.a ||| (found rig).own.activeHalf p.b = 0)
       && (match decodeWord (f.toWord 0x1B) with
           | .error (.reservedOpcode op) => op = 0x1B
           | _ => false)) = true := by
  decide +kernel

/-- A group of a role of a team with one group of each role, or in a loop body. -/
def roled (n : Nat) (looping : Bool := false) : State :=
  { rigWith (fun m => { m with
      roleShape := 0x1008040040201
      groups := [(n, { grp with pcv := if looping then [(0, mkPc 0 true 0), (1, mkPc 0 true 0)] else [] })] }) id with
    focus := { group := n } }

/-- A word outside its place: a branch in a loop body, a privileged word of a team, a vector word of the copy and of the matrix role;
the opcodes at the ends of the privileged range. -/
theorem test_words_outside_their_place :
    (let place (i : Instr) (s : State) : Option (Bool × Bool × Bool) :=
       (fullWord i).bind (fun w =>
         let f := Full.ofWord w
         let t := found s
         if i.wf && s.own?.isSome && decide (active f s ≠ 0) then
           some (pcLooping t.own.pathPc && noLoopOps.contains (opcodeOf w),
             decide (0xE3 ≤ opcodeOf w) && decide (t.ownTeam.gridSlot ≠ 64),
             (rolesFor (opcodeOf w) f).contains (t.ownTeam.roleOf s.focus.group))
         else none)
     place (.bra (always 0 0 0 0 4)) (roled 2 true) = some (true, false, true)
       && place (.ctxswOut (always 0x184 0x104 0 0 0)) rig = some (false, true, true)
       && place (.halt (always 0 0 0 0 0)) rig = some (false, true, true)
       && place (.add (always 2 3 4 0x184 0)) (roled 0) = some (false, false, false)
       && place (.add (always 2 3 4 0x184 0)) (roled 1) = some (false, false, false)
       && place (.snap (always 0 0 0 0 0)) rig = some (false, false, true)) = true := by
  decide +kernel

/-- Paired words outside their place, in turn: a reserved short opcode in half A and in half B, bit [0] = 1, and the copy and matrix
roles; the vector role and ANY are theirs. -/
theorem test_paired_words_outside_their_place :
    (let half (n : BitVec 7) : Half := ⟨n, 7, 0, 0, 0⟩
     let place (p : Paired) (s : State) : Option (Bool × Bool × Bool × Nat) :=
       let g := (found s).own
       if s.own?.isSome && decide (g.activeHalf p.a ||| g.activeHalf p.b ≠ 0) then
         some (decide (0x30 ≤ p.a.sop.toNat), decide (0x30 ≤ p.b.sop.toNat), p.bit0, (found s).ownTeam.roleOf s.focus.group)
       else none
     place ⟨half 0x30, half 2, false⟩ rig = some (true, false, false, 3)
       && place ⟨half 0x2F, half 0x7F, false⟩ rig = some (false, true, false, 3)
       && place ⟨half 0x2F, half 0x2F, true⟩ rig = some (false, false, true, 3)
       && [0, 1, 2].all (fun n => place ⟨half 2, half 0, false⟩ (roled n) = some (false, false, false, n))) = true := by
  decide +kernel

/-- Half A and half B with a destination that is no vector register, with a modifier bit that the opcode does not name, with a register
beyond the role's eight, and with an invalid latch. -/
theorem test_paired_operand_checks :
    (let good : Half := ⟨0x02, 7, 0, 0x65, 0⟩
     let wide : Half := ⟨0x02, 7, 0x40, 0x65, 0⟩
     let mods : Half := ⟨0x1B, 7, 0, 0x65, 0x08⟩
     let far : Half := ⟨0x02, 7, 4, 0x65, 0⟩
     let lost : Half := ⟨0x02, 7, 0, 0x60, 0⟩
     let s := roled 2
     let g := (found s).own
     let count := s.ownTeam.roleRegs (s.ownTeam.roleOf 2)
     let legal (h : Half) : Bool := decide (h.sop = 0) || (decide (h.d.toNat < 0x40) && decide (h.m &&& ~~~ modBits h.sop.toNat = 0))
     decide (s.ownTeam.roleOf 2 = 2) && count = 8 && [good, far, lost].all legal && !(List.any [wide, mods] legal)
       && decide (0x40 ≤ wide.d.toNat) && decide (mods.d.toNat < 0x40) && decide (mods.m &&& ~~~ modBits mods.sop.toNat ≠ 0)
       && [false, true].all (fun isB =>
         (good.uses isB).all (fun u => (u.beyond count).isNone) && (lost.uses isB).all (fun u => (u.beyond count).isNone)
           && (far.uses isB).any (fun u => decide (u.beyond count = some (if isB then 10 else 8)))
           && (good.sources isB).all (fun u => (u.lostLatch g).isNone)
           && (lost.sources isB).any (fun u => decide (opd u.enc = .y 0))) && !((g.latches[0]?).getD ({} : Latch)).valid) = true := by
  decide +kernel

/-- The three ranks in turn: a destination that is an inline value, a register beyond the role's eight, an invalid latch. -/
theorem test_operand_checks :
    (let sh (f : Full) : Shape := intShape 0x20 2 f (sat := true)
     let s := roled 2
     let bad := always 0x1C5 3 4 0x184 0
     let far := always 2 8 4 0x184 0
     let lost := always 2 3 0x180 0x184 0
     let m := s.ownTeam
     let count := m.roleRegs (m.roleOf 2)
     decide ((sh bad).noLoop = false) && decide ((sh bad).priv = false) && (sh bad).roles.contains (m.roleOf 2)
       && (sh bad).dst.any (fun u => u.fld = 1 && !u.ok) && count = 8
       && decide ((sh far).badFields far = []) && (sh far).uses.any (fun u => u.beyond count = some 8)
       && decide ((sh lost).badFields lost = []) && (sh lost).uses.all (fun u => (u.beyond count).isNone)
       && (sh lost).srcs.any (fun u => decide (opd u.enc = .y 0)) && !((s.own.latches[0]?).getD ({} : Latch)).valid) = true := by
  decide +kernel

/-- v3 is poisoned in lane 0: an ADD that reads it is ready, and its second source is the first that is poisoned. -/
theorem test_poisoned_source :
    (let s := rigWith id (fun g => { g with vregPoison := [96] })
     let f := always 2 4 3 0x184 0
     let sh := intShape 0x20 2 f (sat := true)
     ready sh f s && decide (sh.srcs = [useA f .any 1, useB f .any 1]) && (lanesOf (active f s)).contains 0
       && (found s).own.poisoned (useB f .any 1) 0 && (lanesOf (active f s)).all (fun j => !(found s).own.poisoned (useA f .any 1) j)) = true := by
  decide +kernel

/-- v1, v2 and v3 are poisoned in lane 0. Half A reads v1 behind a clean destination, half B its own v2, or v2 in lane 0 for every lane; a
mov reads v3 and does not trap. -/
theorem test_poisoned_paired_words :
    (let s := rigWith id (fun g => { g with vregPoison := [32, 64, 96] })
     let t := found s
     let clean_ : Half := ⟨0x02, 7, 0, 0x65, 0⟩
     let a : Half := ⟨0x02, 7, 0, 0x01, 0⟩
     let b : Half := ⟨0x02, 7, 0, 0x65, 0⟩
     let far : Half := ⟨0x2D, 7, 1, 0, 0⟩
     let go (p : Paired) : List (List Nat) :=
       if (pairRuns p s).isSome then [false, true].map (fun isB => (List.range 32).filter (readsPoison t p isB)) else []
     go ⟨{ a with s := 0x40 }, ⟨0x01, 7, 0, 1, 0⟩, false⟩ = [[], []] && go ⟨clean_, b, false⟩ = [[], [0]]
       && go ⟨a, b, false⟩ = [[0], [0]] && t.own.poisoned (a.useS false) 0 && !t.own.poisoned (a.useD false) 0 && go ⟨clean_, far, false⟩ = [[], [0, 1]]
       && t.own.poisoned (b.useD true) 0 && t.own.poisoned (far.useS true) (readLane far (far.useS true) 1)
       && (pairRuns ⟨clean_, b, false⟩ s) = some false) = true := by
  decide +kernel

/-- Results in lanes 0 and 31, with a predicate, and without: the lists have no repeats. -/
theorem test_retirement_hypotheses :
    (let sh := intShape 0x20 2 (always 2 3 4 0x184 0) (sat := true)
     let vals : List (Nat × Word) := [(0, 1), (31, 2)]
     let preds : List (Nat × Nat × Bool) := [(0, 62, true), (31, 0, false)]
     rig.own?.isSome && sh.dst.isSome && vals.all (fun e => decide (e.1 < 32)) && decide ((vals.map (·.1)).Nodup)
       && decide ((preds.map (fun e => (e.1, e.2.1))).Nodup) && sh.result && !sh.sw && !sh.wFree && !sh.scalarPath
       && !rig.own.loopStep.2.2 && !pcLooping rig.own.pathPc && (ldShape (always 2 4 0 0 4)).sw) = true := by
  decide +kernel

/-- A precise trap of a group without a continuation; in the firmware slot, outside a trap and within one. -/
theorem test_trap_hypotheses :
    (let t : Trap := { code := 0x10, access := 1, scope := 2 }
     rig.own?.isSome && decide (rig.focus.team ≠ 8) && decide (rig.redirects t = false) && decide (rig.focus.core < 96)
       && desk.own?.isSome && decide (desk.focus.team = 8) && !(desk.fwReg 0x318).getLsbD 8
       && ((desk.setReg 0x318 0x100).fwReg 0x318).getLsbD 8) = true := by
  decide +kernel

def isNext (o : Host.Outcome State Fault Refusal) : Bool :=
  match o with
  | .next _ => true
  | _ => false

/-- The lane-wise and the store words answer a next state, and find where they store. -/
theorem test_words_answer_next :
    (isNext (exec (.add (always 2 3 4 0x184 0)) rig) && isNext (exec (.plop (always 1 2 3 4 0x80)) rig)
      && [Instr.st (always 0 4 2 0x010 4), .stv (always 0 4 8 0x010 0), .sts (always 0 4 2 0x010 4), .sst (always 0 0x104 0x106 0x010 5)].all
        (fun i => isNext (exec i rig)) && isNext (exec (.pswr (always 0 0x104 0x106 0 4)) (chief 0x40 7))
      && [(false, 4), (true, 8)].all (fun e =>
        (storedTo (found rig) e.1 e.2 (always 0 (if e.1 then 0x104 else 4) 2 0x010 4) 3).toOption.isSome)) = true := by
  decide +kernel

/-- The atomic, engine and barrier words answer a next state. -/
theorem test_engine_words_answer_next :
    (let f := always 0x10C 0x104 0x106 0x10A 0
     let g := always 2 4 6 8 0
     let s := recorded launchWords
     engineWords.all (fun e => isNext (exec (e.1 f) s) && isNext (exec (e.1 g) s))
       && [Instr.qfenceW, .qfenceWr, .llaunch].all (fun i => isNext (exec (i { f with fn := 0x100 }) s))
       && objectWords.all (fun e => isNext (exec (e.1 f) s))) = true := by
  decide +kernel

def goes (t : Slot) : Bool := decide (t.state = .run ∨ t.state = .ready ∨ t.state = .wait)

/-- The words of a sequencer answer a next state in which the program goes on, HALT one in which it does not; each chunk word finds its
ranges. -/
theorem test_sequencer_words_answer_next :
    (let q : SeqWord := { ca := 0, cb := 0, cc := 0, fi := 0, md := 0, imm := 0 }
     let after (i : Instr) (s : State) : Option Bool :=
       match exec i s with
       | .next t => some (goes (t.slot 2 1))
       | _ => none
     let u := mover.slot 2 1
     let forms : List SeqWord := [(1, 0, 0, 0), (0, 0, 2, 0), (1, 0, 2, 0), (1, 0, 2, 0x10), (0, 0, 2, 0x10), (1, 0, 2, 0), (1, 0, 2, 0)].map
       (fun e : Nat × Nat × Nat × Nat => { q with ca := BitVec.ofNat 4 e.1, cb := BitVec.ofNat 4 e.2.1, cc := BitVec.ofNat 4 e.2.2.1,
                                                  md := BitVec.ofNat 8 e.2.2.2, imm := 32 })
     (plainSeqWords q).all (fun e => after e.1 (runner (fun _ => 0)) = some (e.1 != .seqHalt q))
       && forms.zipIdx.all (fun w => ((chunkSeqWords w.1 u)[w.2]?).any (fun e => after e.1 mover = some true
         && (((mover.chunkSpans (mover.slotOwner 2 1) 32 e.2.1 1).1.chunkSpans (mover.slotOwner 2 1) 32 e.2.2 2).2).toOption.isSome))) = true := by
  decide +kernel

theorem test_mover_is_canonical : mover.Canonical := by
  constructor <;> decide +kernel

/-- A scratchpad store, and one to this package's DRAM, may perform; one behind an acquire may not. -/
theorem test_store_perform_hypotheses :
    (let a : StoreEntry := { scratch := true, bytes := [(0, 1), (65535, 2)] }
     let b : StoreEntry := { bytes := [(0, 1), (0, 2)], seq := 1 }
     let held := rigWith id (fun g => { g with storeQ := [b], loads := [{ acquire := true }] })
     (storing a).own?.isSome && decide ((storing a).own.storeQ = [a]) && (storing a).own.mayStore a && (storing b).own.mayStore b
       && !b.scratch && !b.drop && b.bytes.all (fun e => !(storing b).isRemote e.1 && decide (region (localOf e.1) = .dram))
       && !held.own.mayStore b) = true := by
  decide +kernel

/-- A table that permits an access, and the last table, shut; a store none of whose granules is permitted. -/
theorem test_access_table_hypotheses :
    (let shut := rig.setReg (offAt 1216) 0
     let b : StoreEntry := { bytes := [(0, 1)] }
     let closed := rig.setReg (offAt (homeSlice 0 / 8)) 0
     State.reset.atAllows 0 0 1 0 && !shut.atAllows 1216 255 15 0 && !State.reset.atAllows 0 1 1 0
       && (closed.storeAdmit b).2.contains 0) = true := by
  decide +kernel

/-- RMULN of 5 by 3 in a lane with an empty stack, and with a full window, answers. -/
theorem test_undo_hypotheses :
    (let f := always 2 3 6 0x184 8
     let e : SpoilEntry := {}
     let go (ln : SpoilLane) (op : SpoilOp) : Bool :=
       match ({ s := rig, lane := ln } : SpoilRun).lane1 op 0 0 5 3 none with
       | (_, .ok _) => decide (ln.count ≤ 8) && (decide (ln.window.length = ln.count))
       | _ => false
     decide (sh6 f ≤ 32) && [rmulnOp f, rshrOp f, rlrelOp f, rnarrOp f, rmarkOp].all (fun op =>
       go {} op && go { depth := 7, count := 7, window := List.replicate 7 e } op)) = true := by
  decide +kernel

/-- The example of FIPS 180-4: SHA-384 of the bytes of "abc" (R432). -/
theorem test_sha384_of_abc :
    sha384 [0x61, 0x62, 0x63]
      = 0xCB00753F45A35E8BB5A03D699AC65007272C32AB0EDED1631A8B605A43FF5BED8086072BA1E7CC2358BAECA134C825A7 := by
  decide +kernel

/-! ## Witnesses: steps -/

/-- The firmware slot's turn, with NOP at its program counter, in no cache, in DRAM that its table permits. -/
theorem test_firmware_turn_reads_its_word :
    (let s := State.reset.withFetchWord 64 0x007E6130984C2000
     let t := s.nextTurn
     let s1 := (t.2.begin t.1).catchUp s.ticks
     t.1.wf && !(t.2.begin t.1).tripped && decide (t.1.what = .firmware) &&
       (match s1.enterFirmware 0 with
        | (s2, true) =>
          (match s2.resumeLoop with
           | (s3, none) =>
             (match s3.fetchNext with
              | (_, .ok w) => w = 0x007E6130984C2000
              | _ => false)
             && s3.identity s3.ownCtx && decide (region (pcAddr s3.own.pathPc) = .dram) && pcAddr s3.own.pathPc % 8 = 0
             && (sfind 0 (s3.core 0).icache).isNone && (sfind 0 s3.llc).isNone && !s3.poison.contains 0
             && (s3.admitOne (masterId 0 s3.ownCtx) 3 0 false).2 && !pcLooping s3.own.pathPc
           | _ => false)
        | _ => false)) = true := by
  decide +kernel

/-- A slot's turn selects the team's group and reads the word of zeros. -/
theorem test_slot_turn_reads_its_word :
    (let s := { rig with agenda := [{ what := .issue }] }
     let t := s.nextTurn
     let s1 := (t.2.begin t.1).catchUp s.ticks
     t.1.wf && !(t.2.begin t.1).tripped && decide (t.1.what = .issue) &&
       (match s1.enterSlot 0 0 with
        | (s2, true) =>
          (match s2.resumeLoop with
           | (s3, none) =>
             match s3.fetchNext with
             | (_, .ok w) => w = 0
             | _ => false
           | _ => false)
        | _ => false)) = true := by
  decide +kernel

/-- A sequencer's turn reads its word; an event's turn brings it, but for the timeouts that come at the end of their cycle. -/
theorem test_sequencer_and_event_turns :
    (let at_ (w : What) (s : State) : Turn × State := { s with agenda := [{ what := w, focus := { port := 2, slot := 1 } }] }.nextTurn
     let q := at_ .sequencer ((runner (fun _ => 0)).setReg (offLn 2) 1)
     let s1 := (q.2.begin q.1).catchUp 0
     let e := at_ (.event .reset) State.reset
     let b := at_ (.event .barTimeout) State.reset
     q.1.wf && !(q.2.begin q.1).tripped && (match s1.seqEnter 2 with
       | (_, some w) => (match decodeSeqWord w with
         | .ok i => decide (i.isSeqWord = true)
         | _ => false)
       | _ => false)
       && e.1.wf && !(e.2.begin e.1).tripped && decide (e.1.what = .event .reset) && Instr.isEvent .reset && !atCycleEnd e.1.what
       && b.1.wf && !(b.2.begin b.1).tripped && decide (b.1.what = .event .barTimeout) && Instr.isEvent .barTimeout && atCycleEnd b.1.what)
     = true := by
  decide +kernel

/-- A request to package 0 stands open; a step goes on. -/
theorem test_invariant_hypotheses :
    (let o : Outstanding := { id := 9, request := asking 0, dst := 0, issuer := .frontEnd 0, postedNo := none, since := 0 }
     let s := ported (fun q => { q with outstanding := [o] }) 1 2
     s.ports.all (fun e => e.2.outstanding.all (fun o => o.reported || decide (o.dst ≤ s.maxpkg))) && isNext (step s)
       && decide (s.ports ≠ [])) = true := by
  decide +kernel

/-- A package with a team, a line in its LLC, bytes in DRAM and in the scratchpad and a register away from its reset value is canonical,
and its step goes on. -/
theorem test_canonical_hypotheses :
    ∃ s : State, s.Canonical ∧ s.dram ≠ [] ∧ s.llc ≠ [] ∧ s.mgmt ≠ [] ∧ isNext (step s) = true := by
  let t := rigWith (fun m => { m with scratch := [(3, 1)] }) id
  let s : State := { mapped t with llc := [(1, { bytes := [(2, 7)] })], agenda := [{ what := .issue }] }
  refine ⟨s, ⟨?_, ?_, ?_, ?_, ?_, ?_, ?_, ?_, ?_, ?_, ?_, ?_, ?_⟩, ?_, ?_, ?_, ?_⟩ <;> decide +kernel

/-- After a trip turns of barred kinds come. -/
theorem test_trip_hypotheses :
    [What.issue, .firmware, .sequencer, .event .storePerform, .event .teamPlace].all (fun w =>
      let s : State := { rig with agenda := [{ what := w }], tripped := true }
      s.nextTurn.1.wf && (s.nextTurn.2.begin s.nextTurn.1).tripped && !afterTrip s.nextTurn.1.what && decide (s.nextTurn.1.what = w)) = true := by
  decide +kernel

/-! ## Decoding: the opcodes of R82, the layout of R68, and the mode bits of each instruction's rule -/

/-- A word decodes to an instruction. -/
def reads (w : Word) (i : Instr) : Bool :=
  match decodeWord w with
  | .ok j => decide (j = i)
  | .error _ => false

/-- D = s10, A = v33, B = s66, C = inline 3. -/
def fields (fn : BitVec 11) : Full := always 0x10A 0x021 0x142 0x1C3 fn

theorem test_decode_control_and_predicate_words :
    (reads 0x007E4284342E1800 (.nop (fields 0)) && reads 0x00FE4284342E1800 (.bra (fields 0))
      && reads 0x017E4284342E1800 (.brx (fields 0)) && reads 0x01FE4284342E1800 (.call (fields 0))
      && reads 0x027E4284342E1800 (.ret (fields 0)) && reads 0x02FE4284342E1800 (.join (fields 0))
      && reads 0x037E4284342E1800 (.meet (fields 0)) && reads 0x03FE4284342E1800 (.exit (fields 0))
      && reads 0x047E4284342E1800 (.pset (fields 0)) && reads 0x04FE4284342E1800 (.psetf (fields 0))
      && reads 0x057E4284342E1800 (.plop (fields 0)) && reads 0x05FE4284342E1800 (.pmovGet (fields 0))
      && reads 0x05FE4284342E1801 (.pmovSet (fields 1)) && reads 0x067E4284342E1800 (.vote (fields 0))
      && reads 0x06FE4284342E1803 (.kmovGet (fields 3)) && reads 0x06FE4284342E1813 (.kmovSet (fields 19))
      && reads 0x077E4284342E1800 (.ftest (fields 0)) && reads 0x077E4284342E1801 (.ftestH (fields 1))
      && reads 0x07FE4284342E1800 (.fwait (fields 0)) && reads 0x07FE4284342E1801 (.fwaitH (fields 1))
      && reads 0x07FE4284342E1802 (.fwaitAll (fields 2)) && reads 0x087E4284342E1800 (.fcancel (fields 0))
      && reads 0x08FE4284342E1800 (.fmovMove (fields 0)) && reads 0x08FE4284342E1801 (.fmovExport (fields 1))
      && reads 0x08FE4284342E1802 (.fmovImport (fields 2)) && reads 0x097E4284342E1803 (.tbar (fields 3))
      && reads 0x097E4284342E1813 (.tbarArr (fields 19)) && reads 0x09FE4284342E1800 (.yield (fields 0))
      && reads 0x0A7E4284342E1800 (.loop (fields 0)) && reads 0x0AFE4284342E1800 (.srd (fields 0))
      && reads 0x0B7E4284342E1800 (.swr (fields 0)) && reads 0x0BFE4284342E1800 (.trap (fields 0))
      && reads 0x0C7E4284342E1800 (.bkpt (fields 0)) && reads 0x0CFE4284342E1800 (.fresume (fields 0))
      && reads 0x0D7E4284342E1800 (.ifence (fields 0))) = true := by
  decide +kernel

theorem test_decode_integer_and_move_words :
    (reads 0x107E4284342E1800 (.add (fields 0)) && reads 0x10FE4284342E1800 (.sub (fields 0))
      && reads 0x117E4284342E1800 (.addc (fields 0)) && reads 0x11FE4284342E1800 (.subb (fields 0))
      && reads 0x127E4284342E1800 (.mul (fields 0)) && reads 0x12FE4284342E1800 (.mulh (fields 0))
      && reads 0x137E4284342E1800 (.mad (fields 0)) && reads 0x13FE4284342E1800 (.madw (fields 0))
      && reads 0x147E4284342E1800 (.min (fields 0)) && reads 0x14FE4284342E1800 (.max (fields 0))
      && reads 0x157E4284342E1800 (.abs (fields 0)) && reads 0x15FE4284342E1800 (.sad (fields 0))
      && reads 0x167E4284342E1800 (.and (fields 0)) && reads 0x16FE4284342E1800 (.or (fields 0))
      && reads 0x177E4284342E1800 (.xor (fields 0)) && reads 0x17FE4284342E1800 (.andn (fields 0))
      && reads 0x187E4284342E1800 (.shl (fields 0)) && reads 0x18FE4284342E1800 (.shr (fields 0))
      && reads 0x197E4284342E1800 (.sar (fields 0)) && reads 0x19FE4284342E1800 (.fshf (fields 0))
      && reads 0x1A7E4284342E1800 (.bfx (fields 0)) && reads 0x1AFE4284342E1800 (.bfi (fields 0))
      && reads 0x1B7E4284342E1800 (.popc (fields 0)) && reads 0x1BFE4284342E1800 (.clz (fields 0))
      && reads 0x1C7E4284342E1800 (.brev (fields 0)) && reads 0x1CFE4284342E1800 (.sel (fields 0))
      && reads 0x1D7E4284342E1800 (.lea (fields 0)) && reads 0x1DFE4284342E1800 (.addx (fields 0))
      && reads 0x1E7E4284342E1800 (.mov (fields 0)) && reads 0x1EFE4284342E1800 (.movw (fields 0))
      && reads 0x1F7E4284342E1800 (.ext (fields 0))) = true := by
  decide +kernel

theorem test_decode_float_and_cross_lane_words :
    (reads 0x1FFE4284342E1800 (.fadd (fields 0)) && reads 0x207E4284342E1800 (.fsub (fields 0))
      && reads 0x20FE4284342E1800 (.fmul (fields 0)) && reads 0x217E4284342E1800 (.ffma (fields 0))
      && reads 0x21FE4284342E1800 (.fmin (fields 0)) && reads 0x227E4284342E1800 (.fmax (fields 0))
      && reads 0x22FE4284342E1800 (.frcp (fields 0)) && reads 0x237E4284342E1800 (.frsq (fields 0))
      && reads 0x23FE4284342E1800 (.fsqrt (fields 0)) && reads 0x247E4284342E1800 (.fexp2 (fields 0))
      && reads 0x24FE4284342E1800 (.flog2 (fields 0)) && reads 0x257E4284342E1800 (.fdiv (fields 0))
      && reads 0x25FE4284342E1800 (.fclass (fields 0)) && reads 0x267E4284342E1800 (.fdot2 (fields 0))
      && reads 0x26FE4284342E1800 (.cadd (fields 0)) && reads 0x277E4284342E1800 (.fstat (fields 0))
      && reads 0x27FE4284342E1800 (.shfl (fields 0)) && reads 0x287E4284342E1800 (.bcast (fields 0))
      && reads 0x28FE4284342E1800 (.ballot (fields 0)) && reads 0x297E4284342E1800 (.scan (fields 0))
      && reads 0x29FE4284342E1800 (.redux (fields 0)) && reads 0x2A7E4284342E1800 (.matchLanes (fields 0))
      && reads 0x2AFE4284342E1800 (.hist (fields 0)) && reads 0x2B7E4284342E1800 (.pack (fields 0))) = true := by
  decide +kernel

theorem test_decode_format_and_spoil_words :
    (reads 0x307E4284342E1800 (.cvt (fields 0)) && reads 0x30FE4284342E1800 (.cvts (fields 0))
      && reads 0x317E4284342E1800 (.qblk (fields 0)) && reads 0x31FE4284342E1800 (.dqblk (fields 0))
      && reads 0x327E4284342E1800 (.ppq (fields 0)) && reads 0x32FE4284342E1800 (.ppdq (fields 0))
      && reads 0x337E4284342E1800 (.osplit (fields 0)) && reads 0x33FE4284342E1800 (.efq (fields 0))
      && reads 0x347E4284342E1800 (.iqs (fields 0)) && reads 0x34FE4284342E1800 (.idqs (fields 0))
      && reads 0x357E4284342E1800 (.fscale (fields 0)) && reads 0x35FE4284342E1800 (.fexpo (fields 0))
      && reads 0x367E4284342E1800 (.nfchk (fields 0)) && reads 0x387E4284342E1800 (.rmuln (fields 0))
      && reads 0x38FE4284342E1800 (.umuln (fields 0)) && reads 0x397E4284342E1800 (.rshr (fields 0))
      && reads 0x39FE4284342E1800 (.ushr (fields 0)) && reads 0x3A7E4284342E1800 (.radd (fields 0))
      && reads 0x3AFE4284342E1800 (.uadd (fields 0)) && reads 0x3B7E4284342E1800 (.rmad (fields 0))
      && reads 0x3BFE4284342E1800 (.umad (fields 0)) && reads 0x3C7E4284342E1800 (.rlrel (fields 0))
      && reads 0x3CFE4284342E1800 (.ulrel (fields 0)) && reads 0x3D7E4284342E1800 (.rnarr (fields 0))
      && reads 0x3DFE4284342E1800 (.unarr (fields 0)) && reads 0x3E7E4284342E1800 (.rmark (fields 0))
      && reads 0x3EFE4284342E1800 (.umark (fields 0))) = true := by
  decide +kernel

theorem test_decode_load_and_store_words :
    (reads 0x407E4284342E1800 (.ld (fields 0)) && reads 0x40FE4284342E1800 (.st (fields 0))
      && reads 0x417E4284342E1800 (.lds (fields 0)) && reads 0x41FE4284342E1800 (.sts (fields 0))
      && reads 0x427E4284342E1800 (.ldv (fields 0)) && reads 0x42FE4284342E1800 (.stv (fields 0))
      && reads 0x437E4284342E1800 (.prefL1 (fields 0)) && reads 0x437E4284342E1801 (.prefLlc (fields 1))
      && reads 0x43FE4284342E1800 (.disc (fields 0)) && reads 0x447E4284342E1800 (.flushWb (fields 0))
      && reads 0x447E4284342E1801 (.flushInv (fields 1)) && reads 0x447E4284342E1802 (.flushL1 (fields 2))
      && reads 0x44FE4284342E1800 (.atom (fields 0)) && reads 0x457E4284342E1800 (.cas (fields 0))
      && reads 0x45FE4284342E1800 (.atoms (fields 0)) && reads 0x467E4284342E1800 (.red (fields 0))
      && reads 0x46FE4284342E1800 (.fenceAcq (fields 0)) && reads 0x46FE4284342E1801 (.fenceRel (fields 1))
      && reads 0x46FE4284342E1802 (.fenceFull (fields 2)) && reads 0x46FE4284342E1803 (.fenceL1inv (fields 3))
      && reads 0x477E4284342E1800 (.mwait (fields 0)) && reads 0x47FE4284342E1800 (.sld (fields 0))
      && reads 0x487E4284342E1800 (.sst (fields 0))) = true := by
  decide +kernel

theorem test_decode_haul_and_barrier_words :
    (reads 0x507E4284342E1800 (.hcopy (fields 0)) && reads 0x50FE4284342E1800 (.htile (fields 0))
      && reads 0x517E4284342E1800 (.hfill (fields 0)) && reads 0x51FE4284342E1800 (.hgather (fields 0))
      && reads 0x527E4284342E1800 (.hscatter (fields 0)) && reads 0x52FE4284342E1800 (.hstat (fields 0))
      && reads 0x537E4284342E1800 (.binit (fields 0)) && reads 0x53FE4284342E1800 (.barrive (fields 0))
      && reads 0x547E4284342E1800 (.bexpect (fields 0)) && reads 0x547E4284342E1801 (.bexpectArr (fields 1))
      && reads 0x54FE4284342E1800 (.bwait (fields 0)) && reads 0x557E4284342E1800 (.btry (fields 0))
      && reads 0x55FE4284342E1800 (.bcont (fields 0)) && reads 0x567E4284342E1800 (.btrig (fields 0))) = true := by
  decide +kernel

theorem test_decode_ashlar_and_keystone_words :
    (reads 0x587E4284342E1800 (.mldw (fields 0)) && reads 0x58FE4284342E1800 (.mswap (fields 0))
      && reads 0x597E4284342E1800 (.mstream (fields 0)) && reads 0x59FE4284342E1800 (.mrdy (fields 0))
      && reads 0x5A7E4284342E1800 (.mdrain (fields 0)) && reads 0x5AFE4284342E1800 (.mapply (fields 0))
      && reads 0x5B7E4284342E1800 (.mzero (fields 0)) && reads 0x5BFE4284342E1800 (.mcfg (fields 0))
      && reads 0x5C7E4284342E1800 (.mscale (fields 0)) && reads 0x5CFE4284342E1800 (.mdmap (fields 0))
      && reads 0x5D7E4284342E1800 (.mstat (fields 0)) && reads 0x607E4284342E1800 (.taga (fields 0))
      && reads 0x60FE4284342E1800 (.tagf (fields 0)) && reads 0x617E4284342E1800 (.ksend (fields 0))
      && reads 0x61FE4284342E1800 (.ksends (fields 0)) && reads 0x627E4284342E1800 (.kstat (fields 0))
      && reads 0x627E4284342E1801 (.kstatCtr (fields 1)) && reads 0x62FE4284342E1800 (.kcfgDest (fields 0))
      && reads 0x62FE4284342E1801 (.kcfgTmo (fields 1)) && reads 0x62FE4284342E1802 (.kcfgOvf (fields 2))) = true := by
  decide +kernel

theorem test_decode_dispenser_quarry_and_lintel_words :
    (reads 0x647E4284342E1800 (.fetch (fields 0)) && reads 0x64FE4284342E1800 (.tdone (fields 0))
      && reads 0x657E4284342E1800 (.gcfgTarget (fields 0)) && reads 0x657E4284342E1801 (.gcfgRung (fields 1))
      && reads 0x657E4284342E1802 (.gcfgProbe (fields 2)) && reads 0x65FE4284342E1800 (.gstat (fields 0))
      && reads 0x667E4284342E1800 (.gfill (fields 0)) && reads 0x687E4284342E1800 (.qloadx (fields 0))
      && reads 0x68FE4284342E1800 (.qgemv (fields 0)) && reads 0x697E4284342E1801 (.qfenceW (fields 1))
      && reads 0x697E4284342E1802 (.qfenceR (fields 2)) && reads 0x697E4284342E1803 (.qfenceWr (fields 3))
      && reads 0x69FE4284342E1800 (.qstat (fields 0)) && reads 0x69FE4284342E1801 (.qstatSt (fields 1))
      && reads 0x6C7E4284342E1800 (.llaunch (fields 0)) && reads 0x6CFE4284342E1800 (.lflagAdd (fields 0))
      && reads 0x6CFE4284342E1801 (.lflagSet (fields 1)) && reads 0x6D7E4284342E1800 (.lwait (fields 0))
      && reads 0x6DFE4284342E1800 (.lstat (fields 0))) = true := by
  decide +kernel

theorem test_decode_front_end_words :
    (reads 0x707E4284342E1800 (.launchc (fields 0)) && reads 0x70FE4284342E1800 (.joinc (fields 0))
      && reads 0x717E4284342E1800 (.snap (fields 0)) && reads 0x71FE4284342E1800 (.ctxswOut (fields 0))
      && reads 0x71FE4284342E1801 (.ctxswIn (fields 1)) && reads 0x727E4284342E1800 (.tlbiVa (fields 0))
      && reads 0x727E4284342E1801 (.tlbiCtx (fields 1)) && reads 0x727E4284342E1802 (.tlbiAll (fields 2))
      && reads 0x727E4284342E1803 (.tlbiIc (fields 3)) && reads 0x727E4284342E1804 (.tlbiIcall (fields 4))
      && reads 0x72FE4284342E1800 (.eret (fields 0)) && reads 0x737E4284342E1800 (.psrd (fields 0))
      && reads 0x73FE4284342E1800 (.pswr (fields 0)) && reads 0x747E4284342E1800 (.wdplace (fields 0))
      && reads 0x74FE4284342E1800 (.halt (fields 0))) = true := by
  decide +kernel

/-- A word of a sequencer program decodes to an instruction with CA = 10, CB = 5, CC = 12, FI = 43 and IMM = -3 (R377). -/
def seqReads (w : Word) (i : SeqWord → Instr) (md : BitVec 8) : Bool :=
  match decodeSeqWord w with
  | .ok j => decide (j = i { ca := 10, cb := 5, cc := 12, fi := 43, md := md, imm := 0xFFFFFFFD })
  | .error _ => false

theorem test_decode_sequencer_words :
    (seqReads 0x02972B00FFFFFFFD .seqNop 0
      && seqReads 0x06972B00FFFFFFFD .xmit 0
      && seqReads 0x0A972B00FFFFFFFD .rcvst 0
      && seqReads 0x0E972B00FFFFFFFD .rcvcmb 0
      && seqReads 0x12972B00FFFFFFFD .rcvcf 0
      && seqReads 0x16972B00FFFFFFFD .rcvfw 0
      && seqReads 0x1A972B00FFFFFFFD .waitf 0
      && seqReads 0x1E972B01FFFFFFFD .sigf 1
      && seqReads 0x1E972B03FFFFFFFD .sigfPeer 3
      && seqReads 0x22972B00FFFFFFFD .seqLoop 0
      && seqReads 0x26972B00FFFFFFFD .movi 0
      && seqReads 0x2A972B00FFFFFFFD .addi 0
      && seqReads 0x2E972B00FFFFFFFD .seqAdd 0
      && seqReads 0x32972B00FFFFFFFD .bnz 0
      && seqReads 0x36972B00FFFFFFFD .scaleEnc 0
      && seqReads 0x36972B01FFFFFFFD .scaleDec 1
      && seqReads 0x3A972B00FFFFFFFD .seqYield 0
      && seqReads 0x3E972B00FFFFFFFD .seqHalt 0) = true := by
  decide +kernel

/-- An ADD with PRED = 5, PN = 1, W = 1, A = y0, B = inline −1 and every FN bit in its place; a paired word of R83; a paired word with
bit [0] set; reserved opcodes of both kinds (R82, R377). -/
theorem test_decode_other_words :
    (reads 0x100B80F01FFC22A5 (.add { pred := 5, pn := true, w := true, d := 3, a := 0x180, b := 0x1FF, c := 0x184, fn := 0x2A5 })
      && reads 0x82E0B2803A814300 (.pairedWord ⟨⟨0x02, 7, 0x02, 0x65, 0⟩, ⟨0x1D, 2, 0x02, 0x43, 0⟩, false⟩)
      && reads 0x82E0B2803A814301 (.pairedWord ⟨⟨0x02, 7, 0x02, 0x65, 0⟩, ⟨0x1D, 2, 0x02, 0x43, 0⟩, true⟩)
      && [0x1B, 0x57, 0x6D, 0x7E, 0x91, 0xAD, 0xBB, 0xC6, 0xCD, 0xD4, 0xDC, 0xEA, 0xFF].all (fun op =>
        match decodeWord (BitVec.ofNat 64 (op * 2 ^ 55)) with
        | .error (.reservedOpcode o) => o.toNat = op
        | _ => false)
      && [0x10, 0x3F].all (fun op =>
        match decodeSeqWord (BitVec.ofNat 64 (op * 2 ^ 58)) with
        | .error (.reservedSeqOpcode o) => o.toNat = op
        | _ => false)) = true := by
  decide +kernel

/-- The table's words go through the same decoder, and bytes are taken lowest first (R68). -/
theorem test_decode_bytes :
    ((decodeTableWord 64 0x057E4284342E1880).isSome
      && (match decodeBytes [0x0B, 0x20, 0x4C, 0x98, 0x70, 0x42, 0x7E, 0x0A, 0xEE] with
          | .ok (i, rest) => decide (i = .loop (always 0x109 0x184 0x184 0x184 0x00B)) && rest = [0xEE]
          | .error _ => false)
      && (match decodeBytes [1, 2, 3] with
          | .error .shortInput => true
          | _ => false)) = true := by
  decide +kernel

/-! ## Well-formed terms -/

/-- Each check of `Instr.wf` refuses a constructor whose FN or MOD selects another form. -/
theorem test_ill_formed_terms_are_refused :
    ([Instr.pmovGet (fields 1), .pmovSet (fields 0), .kmovGet (fields 19), .kmovSet (fields 3), .ftest (fields 1),
      .ftestH (fields 0), .fwait (fields 1), .fwaitH (fields 2), .fwaitAll (fields 0), .fmovMove (fields 1),
      .fmovExport (fields 2), .fmovImport (fields 0), .tbar (fields 19), .tbarArr (fields 3), .prefL1 (fields 1),
      .prefLlc (fields 0), .flushWb (fields 1), .flushInv (fields 2), .flushL1 (fields 0), .fenceAcq (fields 1),
      .fenceRel (fields 2), .fenceFull (fields 3), .fenceL1inv (fields 0), .bexpect (fields 1),
      .bexpectArr (fields 0), .kstat (fields 1), .kstatCtr (fields 0), .kcfgDest (fields 1), .kcfgTmo (fields 2),
      .kcfgOvf (fields 0), .gcfgTarget (fields 1), .gcfgRung (fields 2), .gcfgProbe (fields 0), .qfenceW (fields 2),
      .qfenceR (fields 3), .qfenceWr (fields 1), .qstat (fields 1), .qstatSt (fields 0), .lflagAdd (fields 1),
      .lflagSet (fields 0), .ctxswOut (fields 1), .ctxswIn (fields 0), .tlbiVa (fields 1), .tlbiCtx (fields 2),
      .tlbiAll (fields 3), .tlbiIc (fields 4), .tlbiIcall (fields 0),
      .sigf { ca := 0, cb := 0, cc := 0, fi := 0, md := 2, imm := 0 },
      .sigfPeer { ca := 0, cb := 0, cc := 0, fi := 0, md := 1, imm := 0 },
      .scaleEnc { ca := 0, cb := 0, cc := 0, fi := 0, md := 1, imm := 0 },
      .scaleDec { ca := 0, cb := 0, cc := 0, fi := 0, md := 0, imm := 0 }].all (fun i => !i.wf)) = true := by
  decide +kernel

/-- Each of the same constructors is well formed with its own form, and its encoding decodes to it. -/
theorem test_forms_encode_and_decode :
    ([Instr.pmovGet (fields 0), .pmovSet (fields 1), .kmovGet (fields 3), .kmovSet (fields 19), .ftest (fields 0),
      .ftestH (fields 1), .fwait (fields 0), .fwaitH (fields 1), .fwaitAll (fields 2), .fmovMove (fields 0),
      .fmovExport (fields 1), .fmovImport (fields 2), .tbar (fields 3), .tbarArr (fields 19), .prefL1 (fields 0),
      .prefLlc (fields 1), .flushWb (fields 0), .flushInv (fields 1), .flushL1 (fields 2), .fenceAcq (fields 0),
      .fenceRel (fields 1), .fenceFull (fields 2), .fenceL1inv (fields 3), .bexpect (fields 0),
      .bexpectArr (fields 1), .kstat (fields 0), .kstatCtr (fields 1), .kcfgDest (fields 0), .kcfgTmo (fields 1),
      .kcfgOvf (fields 2), .gcfgTarget (fields 0), .gcfgRung (fields 1), .gcfgProbe (fields 2), .qfenceW (fields 1),
      .qfenceR (fields 2), .qfenceWr (fields 3), .qstat (fields 0), .qstatSt (fields 1), .lflagAdd (fields 0),
      .lflagSet (fields 1), .ctxswOut (fields 0), .ctxswIn (fields 1), .tlbiVa (fields 0), .tlbiCtx (fields 1),
      .tlbiAll (fields 2), .tlbiIc (fields 3), .tlbiIcall (fields 4)].all (fun i => i.wf && (encode i).any (fun w => reads w i))) = true := by
  decide +kernel

/-! ## Results, by hand from the rules -/

/-- Lane 0's 32-bit result in v2 of a word that reads v4, v6 and v8. -/
def gives (i : Full → Instr) (fn : BitVec 11) (a b c : W32) : Option W32 :=
  match exec (i (always 2 4 6 8 fn)) (rigWith id (fun g => { g with vreg := [(128, a), (192, b), (256, c)] })) with
  | .next t => some (t.own.v 2 0)
  | _ => none

/-- Wrapping, saturating and high-half arithmetic (R170, R171): -1 + 2, 2^31 - 1 + 1 saturated, 1 - 2 as unsigned saturated, the high
halves of (-1)(-1) and of (2^32 - 1)^2, and the most negative number's magnitude. -/
theorem test_integer_results :
    (gives .add 0 0xFFFFFFFF 2 0 = some 1 && gives .add 4 0x7FFFFFFF 1 0 = some 0x7FFFFFFF && gives .sub 5 1 2 0 = some 0
      && gives .mulh 0 0xFFFFFFFF 0xFFFFFFFF 0 = some 0 && gives .mulh 1 0xFFFFFFFF 0xFFFFFFFF 0 = some 0xFFFFFFFE
      && gives .abs 0 0x80000000 0 0 = some 0x80000000 && gives .abs 4 0x80000000 0 0 = some 0x7FFFFFFF
      && gives .mad 0 3 5 7 = some 22 && gives .sad 0 3 5 7 = some 9 && gives .min 0 0xFFFFFFFF 1 0 = some 0xFFFFFFFF
      && gives .min 1 0xFFFFFFFF 1 0 = some 1) = true := by
  decide +kernel

/-- Shifts by the width and more, fields at the edges, and the bit counts (R173 to R175). -/
theorem test_bit_results :
    (gives .shl 0 1 32 0 = some 0 && gives .shl 0 1 31 0 = some 0x80000000 && gives .shr 0 0x80000000 31 0 = some 1
      && gives .sar 0 0x80000000 40 0 = some 0xFFFFFFFF && gives .fshf 1 0x12345678 0x9 4 = some 0x91234567
      && gives .bfx 0 0xF0 0x0404 0 = some 0xFFFFFFFF && gives .bfx 1 0xF0 0x0404 0 = some 0xF
      && gives .bfi 0 0 0xFF 0x0408 = some 0xF00 && gives .popc 0 0xF0F0 0 0 = some 8 && gives .clz 0 0 0 0 = some 32
      && gives .brev 0 1 0 0 = some 0x80000000 && gives .ext 0 0x80 0 0 = some 0xFFFFFF80 && gives .andn 0 0xFF 0x0F 0 = some 0xF0
      && gives .sel 0x1F9 1 2 0 = some 1) = true := by
  decide +kernel

/-- Rounding to nearest even and up, infinity less infinity, overflow towards zero, exact cancellation, 1/3, roots, powers and
logarithms, and a division by zero (R179 to R184). -/
theorem test_float_results :
    (gives .fadd 0 0x3F800000 0x33800000 0 = some 0x3F800000 && gives .fadd 2 0x3F800000 0x33800000 0 = some 0x3F800001
      && gives .fadd 0 0x7F800000 0xFF800000 0 = some 0x7FC00000 && gives .fmul 1 0x7F7FFFFF 0x40000000 0 = some 0x7F7FFFFF
      && gives .ffma 0 0x3F800000 0x3F800000 0xBF800000 = some 0 && gives .fdiv 0 0x3F800000 0x40400000 0 = some 0x3EAAAAAB
      && gives .fsqrt 0 0x40800000 0 0 = some 0x40000000 && gives .frsq 0 0x40800000 0 0 = some 0x3F000000
      && gives .fexp2 0 0x40400000 0 0 = some 0x41000000 && gives .flog2 0 0x41000000 0 0 = some 0x40400000
      && gives .fdiv 0 0x3F800000 0 0 = some 0x7F800000 && gives .frcp 0 0xBF800000 0 0 = some 0xBF800000) = true := by
  decide +kernel

/-- The example of R215: 1.0 in v4 as an E4M3 code, 0x38, goes to byte 2 of the destination, whose other bytes stay. -/
theorem test_conversion_places_its_byte :
    (match exec (.cvt { always 2 4 0x184 0x00A 0x003 with d := 2 })
        (rigWith id (fun g => { g with vreg := [(64, 0x11223344), (128, 0x3F800000)] })) with
     | .next t => t.own.v 2 0 = 0x11383344
     | _ => false) = true := by
  decide +kernel

/-- BRA goes from address 0 to 8 times its offset, C:FN = 2048 + 3 (R104); LOOP with a count sets it up with its body, and skips its
body at a count of 0. -/
theorem test_control_results :
    ((match exec (.bra (always 0x184 0 0 1 3)) rig with
      | .next t => pcAddr t.own.pathPc = 8 * (2048 + 3)
      | _ => false)
     && (match exec (.loop (always 0x104 0 0 0 0x00B)) rig with
         | .next t => t.own.s 4 = 0x0000000B00000007 && pcAddr t.own.pathPc = 8
         | _ => false)
     && (match exec (.loop (always 0x105 0 0 0 0x00B)) rig with
         | .next t => pcAddr t.own.pathPc = 104
         | _ => false)) = true := by
  decide +kernel

/-- The first step of a firmware slot runs the word that was placed for it: HALT clears its run bit. -/
theorem test_step_runs_the_placed_word :
    (match step (State.reset.withFetchWord 64 0x74FE6130984C2000) with
     | .next t => t.reg 0x300 = 0
     | _ => false) = true := by
  decide +kernel

end Sys2Proof.Tests
end

section
/-! Cache, soft-error, scratchpad-share and host events (R6, R55, R132, R136, R138, R142, R406 to R408): one lemma for each branch of
an event's meaning, under the condition in which it is taken. -/

namespace Sys2Proof.Machine

/-- How many bytes a host access takes in: as many as it writes, or as many as it asks for. -/
def HostAccess.size (h : HostAccess) : Nat := (h.data.map List.length).getD h.count

/-- The addresses that a host access names. -/
def HostAccess.addrs (h : HostAccess) : List Nat := (List.range h.size).map (h.address + ·)

/-- The access leaves the window of the physical function's BAR2, or the DRAM behind it (R407). -/
def State.leavesBar2 (s : State) (h : HostAccess) : Bool :=
  h.addrs.any (fun a => decide (a ≥ s.bar2Size * 2 ^ 30 ∨ region a ≠ .dram))

/-- What the access tables answer to a host access through BAR2, as master 0x00 (R407). -/
def State.bar2Admit (s : State) (h : HostAccess) : State × Bool :=
  s.admitAll 0 (if h.data.isSome then 2 else 1) h.addrs false

/-- What a permitted write through BAR2 of the physical function leaves: the bytes in memory, and the header fields of resident
teams' images among them in effect (log 76). -/
def State.bar2Write (s : State) (h : HostAccess) (bs : List Byte) : State :=
  ((s.bar2Admit h).1.poke false false (h.addrs.zip bs) []).takeHeaders (h.addrs.zip bs)

/-- What a permitted read through BAR2 of the physical function leaves: the bytes, and whether one of them is poisoned (R164). -/
def State.bar2Read (s : State) (h : HostAccess) : State :=
  { (s.bar2Admit h).1 with
    hostData := ((s.bar2Admit h).1.peeks false h.address h.size).1
    hostPoisoned := ((s.bar2Admit h).1.peeks false h.address h.size).2 }

/-- The access stands within BAR2 of the virtual function that `focus.number` names, to which context `x` is bound (R407). -/
structure State.ViaVf (s : State) (h : HostAccess) (x : Nat) : Prop where
  bound : s.vfContext s.focus.number = some x
  virtual : s.focus.number ≠ 0
  window : h.address + h.size ≤ s.vfBar2Size * 2 ^ 30

/-- Such an access passes the check of function and window that its event makes. -/
theorem State.ViaVf.not_outside {s : State} {h : HostAccess} {x : Nat} (v : s.ViaVf h x) :
    ¬ (s.focus.number = 0 ∨ h.address + h.size > s.vfBar2Size * 2 ^ 30) :=
  not_or.mpr ⟨v.virtual, Nat.not_lt.mpr v.window⟩

/-- What a write through BAR2 of a virtual function leaves: context `x` translates it, and may pause it or refuse it (R407). -/
def State.vfWrite (s : State) (h : HostAccess) (x : Nat) (bs : List Byte) : State :=
  let a := s.engineAdmit 0 x (bs.zipIdx.map (fun e => (h.address + e.2, e.1, false)))
  if a.paused then a.s else if a.fail.isSome then a.s.unsupported else (a.s.emit (.frontEnd 0) x (h.size + 1) a.out).1

/-- What a read through BAR2 of a virtual function leaves, likewise. -/
def State.vfRead (s : State) (h : HostAccess) (x : Nat) : State :=
  let r := s.engineReadRun 0 x h.address h.size (.virtual s.focus.number)
  if r.paused then r.s else if r.fail.isSome then r.s.unsupported
    else { r.s with hostData := r.bytes.map (·.1), hostPoisoned := r.bytes.any (·.2) }

end Sys2Proof.Machine

namespace Sys2Proof.Claims

open Sys2Proof Sys2Proof.Machine

section

variable {s t : State} {h : HostAccess} {x : Nat} {bs : List Byte} {w : Word}

/-! ## Errors, caches and shares -/

theorem happens_softError {e : SoftTarget} (hin : s.input = .soft e) : happens .softError s (s.softError e) := by
  change execSoftError s = _
  rw [execSoftError, hin]

theorem happens_spStepsTakeEffect (hteams : (s.core s.focus.core).teams = [])
    (hwritten : (s.core s.focus.core).spWritten = true) :
    happens .spStepsTakeEffect s (s.modCore s.focus.core (fun k =>
      { k with spSteps := min 6 (s.regBits (offCore s.focus.core + 0x180) 0 3), spWritten := false, l1 := [] })) := by
  change execSpStepsTakeEffect s = _
  exact if_pos ⟨hteams, hwritten⟩

/-! ## Registers -/

theorem happens_readClearRegister_answered (hread : s.hostRead s.focus.index s.focus.number = (t, some w)) :
    happens .readClearRegister s { t with hostData := bytesOfNat 8 w.toNat, hostPoisoned := false } := by
  change execReadClearRegister s = _
  rw [execReadClearRegister, hread]

theorem happens_readClearRegister_unsupported (hread : s.hostRead s.focus.index s.focus.number = (t, none)) :
    happens .readClearRegister s t.unsupported := by
  change execReadClearRegister s = _
  rw [execReadClearRegister, hread, State.unsupported]

theorem happens_registerWrite (hin : s.input = .word w) :
    happens .registerWrite s (s.hostWrite s.focus.index s.focus.number w) := by
  change execRegisterWrite s = _
  rw [execRegisterWrite, hin]

/-! ## BAR2 of the physical function -/

/-- The event in the order of its checks: the window, the access tables, then the access itself. -/
theorem execHostBar2Access_of_host (hin : s.input = .host h) :
    execHostBar2Access s =
      if s.leavesBar2 h then .next s.unsupported
      else if !(s.bar2Admit h).2 then .next (s.bar2Admit h).1.unsupported
      else .next (h.data.elim (s.bar2Read h) (s.bar2Write h)) := by
  obtain ⟨a, n, d⟩ := h
  rw [execHostBar2Access, hin]
  cases d <;> rfl

theorem happens_hostBar2Access_outside (hin : s.input = .host h) (hout : s.leavesBar2 h = true) :
    happens .hostBar2Access s s.unsupported :=
  (execHostBar2Access_of_host hin).trans (if_pos hout)

theorem happens_hostBar2Access_refused (hin : s.input = .host h) (hout : s.leavesBar2 h = false)
    (hadmit : (s.bar2Admit h).2 = false) : happens .hostBar2Access s (s.bar2Admit h).1.unsupported :=
  (execHostBar2Access_of_host hin).trans (by simp [hout, hadmit])

theorem happens_hostBar2Access_permitted (hin : s.input = .host h) (hout : s.leavesBar2 h = false)
    (hadmit : (s.bar2Admit h).2 = true) :
    happens .hostBar2Access s (h.data.elim (s.bar2Read h) (s.bar2Write h)) :=
  (execHostBar2Access_of_host hin).trans (by simp [hout, hadmit])

theorem happens_hostBar2Access_write (hin : s.input = .host h) (hout : s.leavesBar2 h = false)
    (hadmit : (s.bar2Admit h).2 = true) (hdata : h.data = some bs) : happens .hostBar2Access s (s.bar2Write h bs) :=
  (happens_hostBar2Access_permitted hin hout hadmit).trans (by rw [hdata]; rfl)

theorem happens_hostBar2Access_read (hin : s.input = .host h) (hout : s.leavesBar2 h = false)
    (hadmit : (s.bar2Admit h).2 = true) (hdata : h.data = none) : happens .hostBar2Access s (s.bar2Read h) :=
  (happens_hostBar2Access_permitted hin hout hadmit).trans (by rw [hdata]; rfl)

/-! ## BAR2 of a virtual function -/

theorem happens_vfBar2Access (hin : s.input = .host h) (hvia : s.ViaVf h x) :
    happens .vfBar2Access s (h.data.elim (s.vfRead h x) (s.vfWrite h x)) := by
  obtain ⟨a, n, d⟩ := h
  change execVfBar2Access s = _
  rw [execVfBar2Access, hin]
  simp only [hvia.bound]
  refine (if_neg hvia.not_outside).trans ?_
  cases d <;> rfl

theorem happens_vfBar2Access_write (hin : s.input = .host h) (hvia : s.ViaVf h x) (hdata : h.data = some bs) :
    happens .vfBar2Access s (s.vfWrite h x bs) :=
  (happens_vfBar2Access hin hvia).trans (by rw [hdata]; rfl)

theorem happens_vfBar2Access_read (hin : s.input = .host h) (hvia : s.ViaVf h x) (hdata : h.data = none) :
    happens .vfBar2Access s (s.vfRead h x) :=
  (happens_vfBar2Access hin hvia).trans (by rw [hdata]; rfl)

end

/-! ## The statement -/

/-- Settles O31, event by event; the evictions and the zero-length read have one outcome each, which is their meaning itself. -/
theorem cacheAndHostEventsHaveTheirEffect : Obligations.CacheAndHostEventsHaveTheirEffect := by
  intro s
  refine ⟨fun _ => happens_softError, rfl, rfl, happens_spStepsTakeEffect, rfl,
    fun _ _ => happens_readClearRegister_answered, fun _ => happens_readClearRegister_unsupported,
    fun _ => happens_registerWrite, fun h hin => ⟨?_, ?_, ?_, ?_⟩, fun h hin => ⟨?_, ?_⟩⟩
  · intro hout
    exact happens_hostBar2Access_outside hin (Bool.of_not_eq_false hout)
  · exact happens_hostBar2Access_refused hin
  · exact fun _ => happens_hostBar2Access_write hin
  · exact happens_hostBar2Access_read hin
  · exact fun _ _ ⟨hbound, hvf, hwindow⟩ => happens_vfBar2Access_write hin ⟨hbound, hvf, hwindow⟩
  · exact fun _ ⟨hbound, hvf, hwindow⟩ => happens_vfBar2Access_read hin ⟨hbound, hvf, hwindow⟩

end Sys2Proof.Claims
end

section
/-! What becomes of a word that is `ready`: one rule for each way in which its effect ends (R79, R80, R163, R167). -/

namespace Sys2Proof.Claims

open Sys2Proof Sys2Proof.Machine

variable {i : Instr} {sh : Shape} {f : Full} {s : State} {body : State → Lanes → Effect}

/-- The six conditions that `ready` joins. -/
theorem ready_iff : ready sh f s = true ↔
    s.own?.isSome = true ∧ active f s ≠ 0 ∧ sh.check f (found s).ownTeam s.focus.group (found s).own = none
      ∧ sh.uses.any (fun u => u.isPending (found s).own) = false ∧ sh.uses.any (fun u => u.inFlight (found s).own) = false
      ∧ sh.heldUp (found s).own = false := by
  simp only [ready, Bool.and_eq_true, Bool.not_eq_true', bne_iff_ne, Option.isNone_iff_eq_none, and_assoc]

/-- A ready word has its own effect. -/
theorem issue_of_ready (hr : ready sh f s = true) :
    issue sh f s body = .next ((found s).apply sh f (active f s) (body (found s) (active f s))) := by
  obtain ⟨hgroup, hactive, hcheck, hpending, hflight, hheld⟩ := ready_iff.1 hr
  exact (issue_some hgroup).trans (congrArg _ (issueWord_effect hactive hcheck hpending hflight hheld))

theorem retires_of_ready {r : Retire} (hi : exec i s = issue sh f s body) (hr : ready sh f s = true)
    (hb : body (found s) (active f s) = .retire r) : retires i sh f s r :=
  hi.trans ((issue_of_ready hr).trans (by rw [hb]; rfl))

theorem traps_of_ready {t : Trap} (hi : exec i s = issue sh f s body) (hr : ready sh f s = true)
    (hb : body (found s) (active f s) = .trap t) : traps i sh f s t :=
  hi.trans ((issue_of_ready hr).trans (by rw [hb]; rfl))

theorem poisonTrap_of_clean {us : List Use} (hc : clean us f s = true) : (found s).poisonTrap us (active f s) = none :=
  Option.isNone_iff_eq_none.1 hc

/-- R167: with no poisoned source, a computation retires with what it computes. -/
theorem compute_of_unpoisoned {fn : Nat → List Word → LaneOut} {act : Lanes} (h : s.poisonTrap sh.srcs act = none) :
    s.compute sh fn act = .retire (computed sh fn s act) := by
  simp only [State.compute, h, computed, Shape.path, List.map_map, List.foldl_map, List.flatMap_map]
  rfl

theorem computes_of_issue {fn : State → Nat → List Word → LaneOut} {g : Nat → List Word → LaneOut}
    (hi : exec i s = issue sh f s (fun s act => s.compute sh (fn s) act)) (hfn : fn (found s) = g) : computes i sh f s g :=
  fun hr hc => retires_of_ready hi hr (hfn ▸ compute_of_unpoisoned (poisonTrap_of_clean hc))

/-- R36, R142: a release whose gate is open lets the word have its effect. -/
theorem released_of_opens {act : Lanes} {release : Bool} {scope : Nat} {u : State} {k : State → Effect}
    (h : opens s act release scope u) : s.released act release scope k = k u := by
  cases release with
  | false => obtain rfl : u = s := h; rfl
  | true => obtain ⟨hquiet, hgate⟩ := h; simp [State.released, hquiet, hgate]

theorem operandPoison_of_clean {us : List Use} (acc : Nat) (hc : clean us f s = true) :
    (found s).operandPoison acc us (active f s) = none := by
  simp [State.operandPoison, poisonTrap_of_clean hc]

end Sys2Proof.Claims
end

section
/-! The branch unit's predicate, barrier, special-register and continuation words, fences and MWAIT: each retires with its effect
(R108 to R113, R120 to R126, R156, R158). -/

namespace Sys2Proof.Claims

open Sys2Proof Sys2Proof.Machine

/-! ## Predicate words -/

/-- Settles O7, word by word: each clause is the word's own effect, with no poisoned source. -/
theorem predicateWordsWriteWhatTheirRulesGive : Obligations.PredicateWordsWriteWhatTheirRulesGive := by
  rintro f s t act rfl rfl
  refine ⟨computes_of_issue rfl rfl, computes_of_issue rfl rfl, computes_of_issue rfl rfl, computes_of_issue rfl rfl, ?_, ?_,
    computes_of_issue rfl rfl, ?_⟩
  · intro hr hc
    exact retires_of_ready rfl hr (by rw [poisonTrap_of_clean hc])
  · exact fun hr => retires_of_ready rfl hr rfl
  · intro hr hc
    exact retires_of_ready rfl hr (by rw [poisonTrap_of_clean hc])

/-! ## Barrier, special-register and continuation words -/

/-- Settles O11: the arrival of TBAR needs the earlier accesses only where lanes arrive, and each case of FRESUME is a branch of
its meaning. -/
theorem barrierAndSpecialWordsRetire : Obligations.BarrierAndSpecialWordsRetire := by
  rintro f s t act rfl rfl n pass fresh arrive clear
  have goes (h : clear) : ¬ (fresh ≠ 0 && !(found s).own.quiet) = true := by
    rcases h with h | h <;> simp [h]
  refine ⟨?_, ?_, computes_of_issue rfl rfl, ?_, ?_, ?_, ?_, ?_⟩
  · exact fun h hr => retires_of_ready rfl hr (if_neg (goes h))
  · exact fun h hr => retires_of_ready rfl hr (if_neg (goes h))
  · intro a hr hc
    exact retires_of_ready rfl hr (by rw [poisonTrap_of_clean hc])
  · exact fun hoff hr => retires_of_ready rfl hr (if_neg (ne_true_of_eq_false hoff))
  · intro back e hr
    refine ⟨fun h0 => ?_, fun h0 hstate hall => ?_, fun h0 hstate hcode => ?_⟩
    · exact retires_of_ready rfl hr (if_pos h0)
    · exact retires_of_ready rfl hr ((if_neg h0).trans ((if_pos hstate).trans (if_neg hall)))
    · exact retires_of_ready rfl hr ((if_neg h0).trans ((if_neg (not_not_intro hstate)).trans (if_pos hcode)))
  · exact fun hr => traps_of_ready rfl hr rfl
  · exact fun hon hr => traps_of_ready rfl hr (if_pos hon)

/-! ## Fences and the monitor -/

/-- Settles O17: a fence has its effect once what it orders is done; MWAIT ends with the value that its read gives. -/
theorem fenceAndMonitorWordsRetire : Obligations.FenceAndMonitorWordsRetire := by
  rintro f s t u act rfl rfl
  refine ⟨fun hr => ⟨fun hloads => ?_, fun hopens => ⟨?_, fun hcancelled => ?_⟩⟩, fun hr => ?_, ?_⟩
  · exact retires_of_ready rfl hr (if_pos hloads)
  · exact retires_of_ready rfl hr (released_of_opens hopens)
  · exact retires_of_ready rfl hr ((if_neg (not_not_intro hcancelled)).trans (released_of_opens hopens))
  · exact retires_of_ready rfl hr rfl
  · rintro as v w p ⟨hr, hc⟩ hacc hquiet
    dsimp only
    intro hveil hread hend
    refine retires_of_ready rfl hr ?_
    rw [operandPoison_of_clean 1 hc]
    dsimp only
    rw [hacc]
    have earlierDone : ¬ (!u.own.quiet) = true := by simp [hquiet]
    refine (if_neg earlierDone).trans ((if_neg (ne_true_of_eq_false hveil)).trans ?_)
    rw [hread]
    exact if_pos (by rw [Bool.or_eq_true, Bool.or_eq_true, decide_eq_true_iff, or_assoc]; exact hend)

end Sys2Proof.Claims
end

section
/-! What a retired word leaves in its group's registers, predicates and latches, and what the writes of its lanes give when they are
taken together (R20, R71, R77, R86, R101, R109). -/

namespace Sys2Proof.Machine

open Sys2Proof

/-! ## Writes of several lanes -/

theorem Group.p_foldl_setP (k : Nat) (val : Nat → Bool) {i : Nat} (hi : i < 63) (j : Nat) : ∀ (ls : List Nat) (g : Group),
    (ls.foldl (fun (h : Group) l => h.setP l k (val l)) g).p j i = if j ∈ ls ∧ i = k then val j else g.p j i
  | [], g => by simp
  | l :: ls, g => by
    rw [List.foldl_cons, Group.p_foldl_setP k val hi j ls, Group.p_setP _ _ hi]
    by_cases hl : j = l
    · subst hl; by_cases hk : i = k <;> simp [hk]
    · simp [hl]

/-- Each lane's predicate word is rewritten from what that lane held: `f` is applied once to each lane of the list. -/
theorem Group.pred_foldl_setPredWord (f : Nat → Word → Word) (j : Nat) : ∀ (ls : List Nat) (g : Group), ls.Nodup →
    (ls.foldl (fun (h : Group) l => h.setPredWord l (f l (h.pred l))) g).pred j
      = if j ∈ ls then f j (g.pred j) ||| 0x8000000000000000 else g.pred j
  | [], g, _ => by simp
  | l :: ls, g, hnd => by
    obtain ⟨hl, hnd⟩ := List.nodup_cons.1 hnd
    rw [List.foldl_cons, Group.pred_foldl_setPredWord f j ls _ hnd]
    by_cases hj : j = l
    · subst hj; simp [hl]
    · simp [hj, Group.pred_setPredWord_ne _ _ hj]

theorem pair_of_halves (w : Word) : w.extractLsb' 32 32 ++ w.setWidth 32 = w := by
  refine BitVec.eq_of_getLsbD_eq (fun i hi => ?_)
  rw [BitVec.getLsbD_append]
  by_cases h : i < 32
  · simp [h]
  · simp [h, show i - 32 < 32 by omega, show 32 + (i - 32) = i by omega]

/-- R69, R71: a 64-bit vector destination, read as the pair that it spans. -/
theorem Group.pair_foldl_writeDst {enc : BitVec 9} {n : Nat} (hn : opd enc = .v n) (val : Nat → Word) (p : Nat → Bool)
    {j : Nat} (hj : j < 32) : ∀ (ls : List Nat) (g : Group), (∀ l ∈ ls, l < 32) →
    (ls.foldl (fun (h : Group) l => h.writeDst enc 2 l (val l) (p l)) g).v (n + 1) j
        ++ (ls.foldl (fun (h : Group) l => h.writeDst enc 2 l (val l) (p l)) g).v n j
      = if j ∈ ls then val j else g.v (n + 1) j ++ g.v n j
  | [], g, _ => by simp
  | l :: ls, g, hls => by
    have hl : l < 32 := hls l (List.mem_cons_self ..)
    have halves : (val j).extractLsb' 32 32 ++ (val j).setWidth 32 = val j := pair_of_halves (val j)
    rw [List.foldl_cons, Group.pair_foldl_writeDst hn val p hj ls _ (fun m hm => hls m (List.mem_cons_of_mem _ hm)),
      Group.v_writeDst _ hn _ _ hl hj, Group.v_writeDst _ hn _ _ hl hj]
    by_cases hjl : j = l
    · subst hjl; simp [halves]
    · simp [hjl]

theorem sget_foldl_sput {α : Type} [DecidableEq α] (d : α) (val : Nat → α) (j : Nat) : ∀ (ks : List Nat) (m : Sparse α),
    sget d (ks.foldl (fun m k => sput d m k (val k)) m) j = if j ∈ ks then val j else sget d m j
  | [], m => by simp
  | k :: ks, m => by
    rw [List.foldl_cons, sget_foldl_sput d val j ks, sget_sput]
    by_cases hj : j = k
    · subst hj; simp
    · simp [hj]

/-- The value that a list of lane values holds for one of its lanes. -/
theorem find?_lane_map {α : Type} (val : Nat → α) {j : Nat} : ∀ {ls : List Nat}, j ∈ ls →
    ((ls.map (fun l => (l, val l))).find? (fun e => e.1 = j)).map (·.2) = some (val j)
  | l :: ls, h => by
    by_cases hl : l = j
    · subst hl; simp
    · have hmem : j ∈ ls := (List.mem_cons.1 h).resolve_left (Ne.symm hl)
      simpa [List.find?_cons, hl] using find?_lane_map val hmem

theorem nodup_lanesOf (m : Lanes) : (lanesOf m).Nodup := List.nodup_range.filter _

/-! ## Moving on -/

theorem Group.latches_setPcs (next : List (Nat × Word)) (g : Group) :
    (next.foldl (fun (h : Group) e => h.setPc e.1 e.2) g).latches = g.latches :=
  foldl_keeps Group.latches (fun (h : Group) e => h.setPc e.1 e.2) next (fun _ _ _ => rfl) g

theorem Group.latches_goTo (g : Group) (next : List (Nat × Word)) (now : Nat) : (g.goTo next now).latches = g.latches := by
  rw [← Group.latches_setPcs next g]
  unfold Group.goTo
  dsimp only
  split <;> rfl

/-- R77: moving on keeps the latches. -/
theorem Group.latches_advance (g : Group) (target : Option (List (Nat × Word))) (hold : Lanes) (now : Nat) :
    (g.advance target hold now).1.latches = g.latches := by
  unfold Group.advance
  dsimp only
  rw [Group.latches_goTo]
  split
  · rfl
  · exact g.loopStep_keeps.2.2.2.2.2.1

/-- A path that is not at the end of a loop iteration does not come to one by moving on. -/
theorem Group.advance_ends {g : Group} (h : g.loopStep.2.2 = false) (target : Option (List (Nat × Word))) (hold : Lanes)
    (now : Nat) : (g.advance target hold now).2 = false := by
  unfold Group.advance
  dsimp only
  split
  · rfl
  · exact h

/-- R86: whether a path ends a loop iteration is told by its program counter, its loop and the counter register. -/
theorem Group.loopStep_ends_congr {g h : Group} (hpc : h.pathPc = g.pathPc) (hloop : h.pathLoop = g.pathLoop)
    (hs : ∀ n, h.s n = g.s n) : h.loopStep.2.2 = g.loopStep.2.2 := by
  unfold Group.loopStep
  simp only [hpc, hloop, hs]
  by_cases hlooping : pcLooping g.pathPc = true
  · simp only [if_pos hlooping]
    generalize (if (g.pathLoop.getD (0, 64)).2 < 64 then (g.pathLoop.getD (0, 64)).2 else _) = last
    by_cases hlast : pcIndex g.pathPc = last ∨ pcIndex g.pathPc = 63
    · simp only [if_pos hlast]
      split <;> rfl
    · simp only [if_neg hlast]
  · simp only [if_neg hlooping]

/-! ## A commit -/

theorem Group.commit_of_noDst {sh : Shape} (h : sh.dst = none) (g old : Group) (f : Full) (r : Retire) :
    g.commit old sh f r = r.preds.foldl (fun (h : Group) e => h.setP e.1 e.2.1 e.2.2) (g.raise r.flags) := by
  unfold Group.commit
  rw [h]
  cases r.result <;> rfl

/-- R71, R77: a word that writes no predicate commits its result, and on the vector path its latch entry. -/
theorem Group.commit_of_result {sh : Shape} {r : Retire} {u : Use} {res : Result} (hdst : sh.dst = some u)
    (hres : r.result = some res) (hpreds : r.preds = []) (g old : Group) (f : Full) :
    g.commit old sh f r =
      if sh.result && !sh.sw && !sh.wFree && !sh.scalarPath
      then ((g.raise r.flags).writeResult sh f res).shiftLatch (old.latchEntry u.enc u.regs res)
      else (g.raise r.flags).writeResult sh f res := by
  unfold Group.commit
  rw [hdst, hres, hpreds]
  rfl

theorem Group.writeResult_of_dst {sh : Shape} {u : Use} (hdst : sh.dst = some u) {f : Full} (hw : f.w = false) (g : Group)
    (res : Result) : g.writeResult sh f res
      = res.vals.foldl (fun (h : Group) e => h.writeDst u.enc u.regs e.1 e.2 (res.poison.getLsbD e.1)) g := by
  simp [Group.writeResult, hdst, hw]

/-- R77: in a lane that has a result, the latch entry of a 64-bit result holds it. -/
theorem Group.latchEntry_lane (g : Group) (enc : BitVec 9) {res : Result} {val : Nat → Word} {ls : List Nat}
    (hvals : res.vals = ls.map (fun l => (l, val l))) {l : Nat} (hl : l < 32) (hmem : l ∈ ls) :
    sget 0 (g.latchEntry enc 2 res).vals l = val l := by
  show sget 0 ((List.range 32).foldl (fun m l => sput 0 m l (cut 2
    (((res.vals.find? (fun e => e.1 = l)).map (·.2)).getD (g.readDst enc 2 l)))) []) l = val l
  rw [sget_foldl_sput, if_pos (List.mem_range.2 hl), hvals, find?_lane_map val hmem]
  rfl

theorem Shape.path_lt {sh : Shape} {act : Lanes} {l : Nat} (h : l ∈ sh.path act) : l < 32 := by
  unfold Shape.path at h
  split at h
  · rw [List.mem_singleton.1 h]
    exact lowest_lt act
  · exact (mem_lanesOf.1 h).1

/-- A commit leaves the path where it is. -/
theorem Group.path_commit {g old : Group} {sh : Shape} {f : Full} {r : Retire}
    (hl : ∀ res, r.result = some res → ∀ e ∈ res.vals, e.1 < 32) :
    (g.commit old sh f r).pathPc = g.pathPc ∧ (g.commit old sh f r).pathLoop = g.pathLoop := by
  have hshell := (g.commit_keeps old sh f r hl).1
  have hcur : (g.commit old sh f r).cur = g.cur := (congrArg Group.cur hshell :)
  have hpcv : (g.commit old sh f r).pcv = g.pcv := (congrArg Group.pcv hshell :)
  exact ⟨by simp only [Group.pathPc, Group.pc, hcur, hpcv], (congrArg Group.pathLoop hshell :)⟩

/-! ## A retirement -/

/-- The group of a retiring word once its results are committed. -/
def State.resultGroup (s : State) (sh : Shape) (f : Full) (r : Retire) : Group := r.s.own.commit s.own sh f r

/-- A word whose own effect leaves the state alone leaves the path of its group where it is until it moves on. -/
theorem State.path_resultGroup {s : State} {sh : Shape} {f : Full} {r : Retire} (hs : r.s = s)
    (hl : ∀ res, r.result = some res → ∀ e ∈ res.vals, e.1 < 32) :
    (s.resultGroup sh f r).pathPc = s.own.pathPc ∧ (s.resultGroup sh f r).pathLoop = s.own.pathLoop := by
  subst hs
  exact Group.path_commit hl

/-- That group, moved on and counted (R42, R86, R101). -/
def State.movedGroup (s : State) (sh : Shape) (f : Full) (r : Retire) : Group :=
  let adv := ((s.resultGroup sh f r).advance r.target r.hold s.ticks).1
  { adv with count := adv.count + 1, run := adv.run + 1, greed := adv.greed + 1, blocked := adv.blocked &&& ~~~ s.own.cur }

section

variable {s : State} {sh : Shape} {f : Full} {r : Retire}

/-- R41, R42: the group of a retired word has moved on, and passed a switch point where the word is one, ends a loop iteration, or
blocked before it issued. -/
theorem State.own_finish_eq (h0 : r.s.own?.isSome = true) (ha : r.after = id) :
    (s.finish sh f r).own =
      if sh.sw || ((s.resultGroup sh f r).advance r.target r.hold s.ticks).2 || s.own.blocked &&& s.own.cur ≠ 0
      then (s.movedGroup sh f r).atSwitch r.s.ticks else s.movedGroup sh f r := by
  have hcommit : (r.s.modOwn (fun g => g.commit s.own sh f r)).own = s.resultGroup sh f r := State.modOwn_own h0 _
  unfold State.finish
  dsimp only
  rw [hcommit, ha]
  generalize hs2 : State.endCapture _ _ = s2
  have hown : s2.own? = some (s.movedGroup sh f r) := by
    obtain ⟨g, hg⟩ := Option.isSome_iff_exists.1 h0
    rw [← hs2, State.own?_endCapture, State.modOwn_own?, State.modOwn_own?, hg]
    rfl
  have hticks : s2.ticks = r.s.ticks := by rw [← hs2, State.ticks_endCapture]; rfl
  simp only [id]
  split
  · simp [State.own, State.own?_switchPoint, hown, hticks]
  · simp [State.own, hown]

/-- Moving on, and a switch point, leave the vector registers and predicates that were committed, and the scalar registers but for
the counter of a loop. -/
theorem State.own_finish_committed (h0 : r.s.own?.isSome = true) (ha : r.after = id) :
    (s.finish sh f r).own.predv = (s.resultGroup sh f r).predv ∧ (s.finish sh f r).own.vreg = (s.resultGroup sh f r).vreg
      ∧ ∀ n, (s.resultGroup sh f r).counter ≠ some n → (s.finish sh f r).own.s n = (s.resultGroup sh f r).s n := by
  obtain ⟨-, hvreg, hpredv, -, -, -, hs⟩ := (s.resultGroup sh f r).advance_keeps r.target r.hold s.ticks
  rw [State.own_finish_eq h0 ha]
  split
  · have hk := Group.keptRegs_atSwitch (s.movedGroup sh f r) r.s.ticks
    exact ⟨hk.predv.trans hpredv, hk.vreg.trans hvreg, fun n hn => (hk.s n).trans (hs n hn)⟩
  · exact ⟨hpredv, hvreg, hs⟩

theorem State.pred_finish (h0 : r.s.own?.isSome = true) (ha : r.after = id) (l : Nat) :
    (s.finish sh f r).own.pred l = (s.resultGroup sh f r).pred l := by
  simp only [Group.pred, (State.own_finish_committed h0 ha).1]

theorem State.v_finish (h0 : r.s.own?.isSome = true) (ha : r.after = id) (n l : Nat) :
    (s.finish sh f r).own.v n l = (s.resultGroup sh f r).v n l := by
  simp only [Group.v, (State.own_finish_committed h0 ha).2.1]

theorem State.s_finish (h0 : r.s.own?.isSome = true) (ha : r.after = id) {n : Nat}
    (hn : (s.resultGroup sh f r).counter ≠ some n) : (s.finish sh f r).own.s n = (s.resultGroup sh f r).s n :=
  (State.own_finish_committed h0 ha).2.2 n hn

/-- R77: a word that is no switch point keeps the latches that it committed. -/
theorem State.latches_finish (h0 : r.s.own?.isSome = true) (ha : r.after = id) (hsw : sh.sw = false)
    (hloop : (s.resultGroup sh f r).loopStep.2.2 = false) (hblocked : s.own.blocked &&& s.own.cur = 0) :
    (s.finish sh f r).own.latches = (s.resultGroup sh f r).latches := by
  rw [State.own_finish_eq h0 ha, Group.advance_ends hloop, hsw, if_neg (by simp [hblocked])]
  exact Group.latches_advance ..

end

end Sys2Proof.Machine
end

section
/-! What a ready word finds in its group, and which of the checks of R80 it has passed. -/

namespace Sys2Proof.Claims

open Sys2Proof Sys2Proof.Machine

variable {f : Full} {s : State}

/-! ## The group that the word finds -/

theorem found_some {sh : Shape} (hr : ready sh f s = true) : (found s).own?.isSome = true := by
  rw [found, State.modOwn_own?, Option.isSome_map]
  exact (ready_iff.1 hr).1

/-- R43: taking back its latches changes nothing of a group that these words read. -/
theorem found_own {sh : Shape} (hr : ready sh f s = true) : (found s).own = s.own.restore :=
  State.modOwn_own (ready_iff.1 hr).1 _

theorem found_pred {sh : Shape} (hr : ready sh f s = true) (l : Nat) : (found s).own.pred l = s.own.pred l := by
  rw [found_own hr, Group.pred, Group.pred, (Group.keptRegs_restore s.own).predv]

theorem found_p {sh : Shape} (hr : ready sh f s = true) (l k : Nat) : (found s).own.p l k = s.own.p l k :=
  congrArg (·.getLsbD k) (found_pred hr l)

theorem found_counter {sh : Shape} (hr : ready sh f s = true) : (found s).own.counter = s.own.counter := by
  rw [found_own hr]
  exact Group.counter_congr (Group.restore_pathPc _) (Group.restore_pathLoop _)

theorem found_loopStep_ends {sh : Shape} (hr : ready sh f s = true) :
    (found s).own.loopStep.2.2 = s.own.loopStep.2.2 := by
  rw [found_own hr]
  exact Group.loopStep_ends_congr (Group.restore_pathPc _) (Group.restore_pathLoop _) (Group.keptRegs_restore _).s

theorem found_blocked {sh : Shape} (hr : ready sh f s = true) :
    (found s).own.blocked &&& (found s).own.cur = s.own.blocked &&& s.own.cur := by
  rw [found_own hr, Group.restore_cur]
  unfold Group.restore
  split <;> rfl

/-! ## Illegal fields -/

/-- A word that passes every check has no illegal field (R80). -/
theorem badFields_of_ready {sh : Shape} (hr : ready sh f s = true) : sh.badFields f = [] := by
  have hcheck := (ready_iff.1 hr).2.2.1
  unfold Shape.check at hcheck
  cases hbad : sh.badFields f with
  | nil => rfl
  | cons k ks =>
    simp only [hbad] at hcheck
    repeat' split at hcheck
    all_goals cases hcheck

/-- R71: a word on the scalar path does not suppress its result. -/
theorem w_of_scalar_ready {sh : Shape} (hr : ready sh f s = true) (hscalar : sh.scalarPath = true) (hfree : sh.wFree = false) :
    f.w = false := by
  have hok : sh.wOk f = true := by
    cases hok : sh.wOk f with
    | true => rfl
    | false =>
      have hmem : 5 ∈ sh.badFields f := by simp [Shape.badFields, hok]
      rw [badFields_of_ready hr] at hmem
      cases hmem
  simpa [Shape.wOk, hscalar, hfree] using hok

/-- R80, R81: a word in its place with an illegal field traps with ILLEGAL_MOD, which names the first such field. -/
theorem check_of_badFields {sh : Shape} {m : Team} {gi : Nat} {g : Group} {k : Nat} {ks : List Nat}
    (hloop : sh.noLoop = false) (hpriv : sh.priv = false) (hrole : sh.roles.contains (m.roleOf gi) = true)
    (hbad : sh.badFields f = k :: ks) : sh.check f m gi g = some { code := 0x02, info := BitVec.ofNat 32 k } := by
  unfold Shape.check
  simp only [hloop, hpriv, hrole, hbad, Bool.false_and, Bool.not_true, Bool.false_eq_true, if_false]

end Sys2Proof.Claims
end

section
/-! PLOP, PMOV and VOTE: what the retired word leaves (R111 to R113). -/

namespace Sys2Proof.Claims

open Sys2Proof Sys2Proof.Machine

section

variable {f : Full} {s : State}

/-! ## Words that write one predicate in every active lane -/

/-- R109: a word that writes predicate `k` in its active lanes, and no register, changes no other predicate. -/
theorem next_of_preds {i : Instr} {sh : Shape} {r : Retire} {k : Nat} {val : Nat → Bool} (hret : retires i sh f s r)
    (hr : ready sh f s = true) (hs : r.s = found s) (ha : r.after = id) (hdst : sh.dst = none)
    (hp : r.preds = (lanesOf (active f s)).map (fun l => (l, k, val l))) :
    ∃ t, exec i s = .next t ∧ ∀ l j, l < 32 → j < 63 →
      t.own.p l j = if (active f s).getLsbD l = true ∧ j = k then val l else s.own.p l j := by
  have h0 : r.s.own?.isSome = true := hs ▸ found_some hr
  refine ⟨_, hret, fun l j hl hj => ?_⟩
  rw [Group.p, State.pred_finish h0 ha, ← Group.p, State.resultGroup, Group.commit_of_noDst hdst, hp, List.foldl_map,
    Group.p_foldl_setP k val hj, Group.p_raise, hs, found_p hr]
  simp only [mem_lanesOf, hl, true_and]

/-! ## PLOP -/

/-- R111: PLOP's table indexed by three predicates. -/
theorem plop_of_table (fn : BitVec 11) (a b c : Bool) :
    (fn = 0x80 → fn.getLsbD (4 * a.toNat + 2 * b.toNat + c.toNat) = (a && b && c))
      ∧ (fn = 0xF0 → fn.getLsbD (4 * a.toNat + 2 * b.toNat + c.toNat) = a)
      ∧ (fn = 0x0F → fn.getLsbD (4 * a.toNat + 2 * b.toNat + c.toNat) = !a) := by
  refine ⟨?_, ?_, ?_⟩ <;> rintro rfl <;> revert a b c <;> decide

theorem p_after_plop (hr : ready (plopShape f) f s = true) :
    ∃ t, exec (.plop f) s = .next t ∧ ∀ l j, l < 32 → j < 63 → t.own.p l j =
      if (active f s).getLsbD l = true ∧ j = pNo f.d then
        f.fn.getLsbD (4 * (s.own.p l (pNo f.a)).toNat + 2 * (s.own.p l (pNo f.b)).toNat + (s.own.p l (pNo f.c)).toNat)
      else s.own.p l j := by
  have hret := retires_of_ready (i := .plop f) rfl hr (compute_of_unpoisoned rfl)
  refine next_of_preds hret hr rfl rfl rfl ?_
  simp only [← found_p hr]
  exact (List.map_eq_flatMap ..).symm

/-! ## VOTE -/

/-- The active lanes in which predicate `k` is 1. -/
def lanesTrue (s : State) (act : Lanes) (k : Nat) : Lanes := lanesWhere (fun l => act.getLsbD l && s.own.p l k)

theorem getLsbD_lanesTrue (act : Lanes) (k : Nat) {l : Nat} (hl : l < 32) :
    (lanesTrue s act k).getLsbD l = (act.getLsbD l && s.own.p l k) := by
  rw [lanesTrue, getLsbD_lanesWhere, decide_eq_true hl, Bool.true_and]

theorem lanesTrue_eq_iff {act : Lanes} {k : Nat} :
    lanesTrue s act k = act ↔ ∀ l, l < 32 ∧ act.getLsbD l = true → s.own.p l k = true := by
  refine ⟨fun h l hl => ?_, fun h => lanes_ext fun l hl => ?_⟩
  · have hmem := getLsbD_lanesTrue (s := s) act k hl.1
    rw [h, hl.2, Bool.true_and] at hmem
    exact hmem.symm
  · rw [getLsbD_lanesTrue act k hl]
    cases hact : act.getLsbD l
    · rfl
    · exact h l ⟨hl, hact⟩

theorem lanesTrue_eq_zero_iff {act : Lanes} {k : Nat} :
    lanesTrue s act k = 0 ↔ ∀ l, l < 32 ∧ act.getLsbD l = true → ¬ s.own.p l k = true := by
  refine ⟨fun h l hl => ?_, fun h => lanes_ext fun l hl => ?_⟩
  · have hmem := getLsbD_lanesTrue (s := s) act k hl.1
    rw [h, hl.2, Bool.true_and] at hmem
    simp [← hmem]
  · rw [getLsbD_lanesTrue act k hl]
    cases hact : act.getLsbD l
    · simp
    · simp [h l ⟨hl, hact⟩]

/-- R113: what VOTE makes of the active lanes in which its predicate is 1. -/
def voteOf (mode : Nat) (ones act : Lanes) : Bool :=
  match mode with
  | 0 => ones = act
  | 1 => ones ≠ 0
  | _ => ones = 0 || ones = act

/-- MODE 0: the predicate is 1 in every active lane. -/
theorem voteOf_all {mode k : Nat} {act : Lanes} (hmode : mode = 0) :
    voteOf mode (lanesTrue s act k) act = true ↔ ∀ l, l < 32 ∧ act.getLsbD l = true → s.own.p l k = true := by
  subst hmode
  simp only [voteOf, decide_eq_true_iff, lanesTrue_eq_iff]

/-- MODE 1: it is 1 in some active lane. -/
theorem voteOf_some {mode k : Nat} {act : Lanes} (hmode : mode = 1) :
    voteOf mode (lanesTrue s act k) act = true ↔ ∃ l, (l < 32 ∧ act.getLsbD l = true) ∧ s.own.p l k = true := by
  subst hmode
  simp only [voteOf, decide_eq_true_iff, ne_eq, lanesTrue_eq_zero_iff, Classical.not_forall,
    Classical.not_not, exists_prop]

/-- MODE 2: it has the same value in every active lane. -/
theorem voteOf_same {mode k : Nat} {act : Lanes} (hmode : mode = 2) :
    voteOf mode (lanesTrue s act k) act = true ↔
      (∀ l, l < 32 ∧ act.getLsbD l = true → s.own.p l k = true)
        ∨ ∀ l, l < 32 ∧ act.getLsbD l = true → ¬ s.own.p l k = true := by
  subst hmode
  simp only [voteOf, Bool.or_eq_true, decide_eq_true_iff, lanesTrue_eq_iff, lanesTrue_eq_zero_iff, or_comm]

theorem p_after_vote (hr : ready (voteShape f) f s = true) :
    ∃ t, exec (.vote f) s = .next t ∧ ∀ l j, l < 32 → j < 63 → t.own.p l j =
      if (active f s).getLsbD l = true ∧ j = pNo f.d then
        voteOf (bits f.fn.toNat 0 2) (lanesTrue s (active f s) (pNo f.a)) (active f s)
      else s.own.p l j := by
  have hret := retires_of_ready (i := .vote f) rfl hr rfl
  have hfound : lanesTrue (found s) (active f s) (pNo f.a) = lanesTrue s (active f s) (pNo f.a) := by
    simp only [lanesTrue, found_p hr]
  exact next_of_preds hret hr rfl rfl rfl (by rw [← hfound]; rfl)

theorem mode_of_vote_ready (hr : ready (voteShape f) f s = true) : bits f.fn.toNat 0 2 ≠ 3 := by
  intro hmode
  have := badFields_of_ready hr
  simp [Shape.badFields, voteShape, hmode] at this

/-- R80, R113: MODE 3 of VOTE is an illegal modifier, whatever else is wrong with the word. -/
theorem check_vote_reserved (hmode : bits f.fn.toNat 0 2 = 3) (m : Team) (gi : Nat) (g : Group) (hrole : m.roleOf gi < 4) :
    ∃ k, k ∈ [0, 1, 2] ∧ (voteShape f).check f m gi g = some { code := 0x02, info := BitVec.ofNat 32 k } := by
  have hbad : ∃ k ks, k ∈ [0, 1, 2] ∧ (voteShape f).badFields f = k :: ks := by
    cases hd : badP f.d <;> cases ha : badP f.a <;>
      simp [Shape.badFields, voteShape, hmode, hd, ha, Shape.uses, List.filter_cons]
  obtain ⟨k, ks, hk, hbad⟩ := hbad
  have hroles : (voteShape f).roles.contains (m.roleOf gi) = true := by
    have hcases : m.roleOf gi = 0 ∨ m.roleOf gi = 1 ∨ m.roleOf gi = 2 ∨ m.roleOf gi = 3 := by omega
    rcases hcases with h | h | h | h <;> exact (congrArg (voteShape f).roles.contains h).trans rfl
  exact ⟨k, hk, check_of_badFields rfl rfl hroles hbad⟩

/-! ## PMOV -/

/-- A computation that raises no flag and writes no predicate retires with its values alone. -/
theorem computed_of_values {sh : Shape} {val : Nat → Word} {act : Lanes} :
    computed sh (fun l _ => { val := val l }) s act
      = { s := s, result := some { vals := (sh.path act).map (fun l => (l, val l)) } } := by
  have hflags : (sh.path act).foldl (fun acc _ => acc ||| (0 : BitVec 5)) 0 = 0 :=
    foldl_keeps id _ _ (fun _ _ _ => BitVec.or_zero) 0
  have hpreds : (sh.path act).flatMap (fun _ => ([] : List (Nat × Nat × Bool))) = [] :=
    List.flatMap_eq_nil_iff.2 (fun _ _ => rfl)
  simp only [computed, hflags, List.flatMap_nil, hpreds]

/-- The result of PMOV.get: the predicates of each lane of its path. -/
def pmovGetResult (f : Full) (s : State) : Result :=
  { vals := ((pmovGetShape f).path (active f s)).map (fun l => (l, (found s).own.pred l)) }

/-- What PMOV.get retires with. -/
def pmovGetRetire (f : Full) (s : State) : Retire := { s := found s, result := some (pmovGetResult f s) }

/-- The state in which PMOV.get has retired. -/
def afterPmovGet (f : Full) (s : State) : State := (found s).finish (pmovGetShape f) f (pmovGetRetire f s)

theorem exec_pmovGet (hr : ready (pmovGetShape f) f s = true) : exec (.pmovGet f) s = .next (afterPmovGet f s) := by
  exact retires_of_ready (r := pmovGetRetire f s) rfl hr
    ((compute_of_unpoisoned rfl).trans (congrArg Effect.retire computed_of_values))

theorem pmovGetRetire_lt (res : Result) (hres : (pmovGetRetire f s).result = some res) : ∀ e ∈ res.vals, e.1 < 32 := by
  cases hres
  intro e he
  obtain ⟨l, hl, rfl⟩ := List.mem_map.1 he
  exact Shape.path_lt hl

/-- R71: a vector destination of PMOV.get takes each active lane's predicates, as a pair. -/
theorem v_after_pmovGet (hr : ready (pmovGetShape f) f s = true) {n l : Nat} (hn : opd f.d = .v n) (hw : f.w = false)
    (hl : (active f s).getLsbD l = true) :
    (afterPmovGet f s).own.v (n + 1) l ++ (afterPmovGet f s).own.v n l = s.own.pred l := by
  have hl32 : l < 32 := BitVec.lt_of_getLsbD hl
  have hscalar : (pmovGetShape f).scalarPath = false := by simp [Shape.scalarPath, pmovGetShape, useD, Use.isScalar, hn]
  have h0 : (pmovGetRetire f s).s.own?.isSome = true := found_some hr
  rw [afterPmovGet, State.v_finish h0 rfl, State.v_finish h0 rfl, State.resultGroup, Group.commit_of_result rfl rfl rfl, hscalar]
  have hwrite (g : Group) : g.writeResult (pmovGetShape f) f (pmovGetResult f s)
      = (lanesOf (active f s)).foldl
          (fun (h : Group) l => h.writeDst f.d 2 l ((found s).own.pred l) ((0 : Lanes).getLsbD l)) g := by
    rw [Group.writeResult_of_dst rfl hw, pmovGetResult, List.foldl_map, Shape.path, hscalar, if_neg Bool.false_ne_true]
    rfl
  show (Group.v (Group.writeResult _ _ f (pmovGetResult f s)) (n + 1) l : W32)
    ++ (Group.v (Group.writeResult _ _ f (pmovGetResult f s)) n l : W32) = s.own.pred l
  rw [hwrite, Group.pair_foldl_writeDst hn _ _ hl32 _ _ (fun m hm => (mem_lanesOf.1 hm).1),
    if_pos (mem_lanesOf.2 ⟨hl32, hl⟩), found_pred hr]

/-- R71: a scalar destination of PMOV.get takes the lowest active lane's predicates. -/
theorem s_after_pmovGet (hr : ready (pmovGetShape f) f s = true) {n : Nat} (hn : opd f.d = .s n)
    (hcounter : s.own.counter ≠ some n) :
    (afterPmovGet f s).own.s n = s.own.pred (lowest (active f s)) := by
  have hscalar : (pmovGetShape f).scalarPath = true := by simp [Shape.scalarPath, pmovGetShape, useD, Use.isScalar, hn]
  have hw : f.w = false := w_of_scalar_ready hr hscalar rfl
  have h0 : (pmovGetRetire f s).s.own?.isSome = true := found_some hr
  obtain ⟨hpc, hloop⟩ := State.path_resultGroup (s := found s) (sh := pmovGetShape f) (f := f) (r := pmovGetRetire f s) rfl
    pmovGetRetire_lt
  have hcounter' : ((found s).resultGroup (pmovGetShape f) f (pmovGetRetire f s)).counter ≠ some n := by
    rw [Group.counter_congr hpc hloop, found_counter hr]
    exact hcounter
  rw [afterPmovGet, State.s_finish h0 rfl hcounter', State.resultGroup, Group.commit_of_result rfl rfl rfl, hscalar]
  show (Group.writeResult _ (pmovGetShape f) f (pmovGetResult f s)).s n = _
  rw [Group.writeResult_of_dst rfl hw, pmovGetResult, Shape.path, hscalar]
  show (Group.writeDst _ f.d _ _ ((found s).own.pred _) _).s n = _
  rw [Group.s_writeDst, if_pos hn, found_pred hr]

/-- R77: PMOV.get with a vector destination shifts the predicates into the latches. -/
theorem latches_after_pmovGet (hr : ready (pmovGetShape f) f s = true) (hvec : (useD f).isScalar = false)
    (hloop : s.own.loopStep.2.2 = false) (hblocked : s.own.blocked &&& s.own.cur = 0) :
    (afterPmovGet f s).own.latches
      = (found s).own.latchEntry f.d 2 (pmovGetResult f s) :: (found s).own.latches.take 3 := by
  have hscalar : (pmovGetShape f).scalarPath = false := hvec
  have h0 : (pmovGetRetire f s).s.own?.isSome = true := found_some hr
  obtain ⟨hpc, hpl⟩ := State.path_resultGroup (s := found s) (sh := pmovGetShape f) (f := f) (r := pmovGetRetire f s) rfl
    pmovGetRetire_lt
  obtain ⟨-, -, -, hs, -⟩ := (found s).own.commit_keeps (found s).own (pmovGetShape f) f (pmovGetRetire f s)
    pmovGetRetire_lt
  have hends : ((found s).resultGroup (pmovGetShape f) f (pmovGetRetire f s)).loopStep.2.2 = false := by
    refine (Group.loopStep_ends_congr hpc hpl (fun n => hs n ?_)).trans ((found_loopStep_ends hr).trans hloop)
    rintro ⟨u, res, hu, -, hn⟩
    cases hu
    simp [Use.isScalar, show opd (useD f).enc = .s n from hn] at hvec
  rw [afterPmovGet, State.latches_finish h0 rfl rfl hends ((found_blocked hr).trans hblocked), State.resultGroup,
    Group.commit_of_result rfl rfl rfl, hscalar]
  show _ :: List.take 3 (Group.writeResult _ (pmovGetShape f) f (pmovGetResult f s)).latches = _
  rw [(Group.writeResult_shell ..).2.2.2]
  rfl

/-- R77: that latch entry holds each active lane's predicates. -/
theorem latch_of_pmovGet (hvec : (useD f).isScalar = false) {l : Nat} (hl : (active f s).getLsbD l = true) :
    sget 0 ((found s).own.latchEntry f.d 2 (pmovGetResult f s)).vals l = (found s).own.pred l := by
  have hl32 : l < 32 := BitVec.lt_of_getLsbD hl
  have hscalar : (pmovGetShape f).scalarPath = false := hvec
  refine Group.latchEntry_lane _ _ rfl hl32 ?_
  rw [Shape.path, hscalar]
  exact mem_lanesOf.2 ⟨hl32, hl⟩

/-- R112: PMOV.set replaces the predicates that B selects by A's; p63 stays 1. -/
theorem pred_after_pmovSet (hr : ready (pmovSetShape f) f s = true) (hc : clean [useA f .any 2, useB f .any 2] f s = true) :
    ∃ t, exec (.pmovSet f) s = .next t ∧ ∀ l, l < 32 → t.own.pred l =
      if (active f s).getLsbD l = true then
        (s.own.pred l &&& ~~~ (found s).value (useB f .any 2) l)
          ||| ((found s).value (useA f .any 2) l &&& (found s).value (useB f .any 2) l) ||| 0x8000000000000000
      else s.own.pred l := by
  have hret := retires_of_ready (i := .pmovSet f) rfl hr (by rw [poisonTrap_of_clean hc])
  refine ⟨_, hret, fun l hl => ?_⟩
  rw [State.pred_finish (by simpa using found_some hr) rfl, State.resultGroup, Group.commit_of_noDst rfl]
  show ((found s).modOwn _).own.pred l = _
  rw [State.modOwn_own (found_some hr), Group.pred_foldl_setPredWord (fun l w =>
    (w &&& ~~~ (found s).value (useB f .any 2) l) ||| ((found s).value (useA f .any 2) l &&& (found s).value (useB f .any 2) l))
    l _ _ (nodup_lanesOf _), found_pred hr]
  simp only [mem_lanesOf, hl, true_and]

end

/-- Settles O50: PLOP and VOTE each write one predicate in the active lanes, PMOV.get a result and a latch entry, PMOV.set the
predicates that B selects. -/
theorem plopPmovAndVoteFollowTheirRules : Obligations.PlopPmovAndVoteFollowTheirRules := by
  refine ⟨fun f => ⟨rfl, rfl, rfl, rfl⟩, fun f s hr => ?_, fun f s hr => ?_, fun f s => pred_after_pmovSet,
    fun f s => ⟨fun hr => ?_, ?_⟩⟩
  · obtain ⟨t, hnext, hp⟩ := p_after_plop hr
    refine ⟨t, hnext, fun l j hl hj => ⟨hp l j hl hj, fun hact hd => ?_⟩⟩
    rw [hp l j hl hj, if_pos ⟨hact, hd⟩]
    exact plop_of_table ..
  · refine ⟨_, exec_pmovGet hr, fun l => Group.p_63 _ l, fun n l => v_after_pmovGet hr, fun n => s_after_pmovGet hr,
      fun hvec hloop hblocked => ⟨_, latches_after_pmovGet hr hvec hloop hblocked, rfl, fun l hl => ?_⟩⟩
    exact (latch_of_pmovGet hvec hl).trans (found_pred hr l)
  · obtain ⟨t, hnext, hp⟩ := p_after_vote hr
    exact ⟨mode_of_vote_ready hr, t, hnext, _, hp, voteOf_all, voteOf_some, voteOf_same⟩
  · exact check_vote_reserved

end Sys2Proof.Claims
end

section
/-! Integer, bit, move and floating-point words: each computes, lane by lane, what its rule gives (R170 to R189, R224, R225). -/

namespace Sys2Proof.Claims

open Sys2Proof Sys2Proof.Machine

section

variable {i : Instr} {sh : Shape} {f : Full} {s : State}

/-- A word whose computation reads nothing but its sources. -/
theorem computes_of_compute {fn : Nat → List Word → LaneOut} (hi : exec i s = issue sh f s (State.compute sh fn)) :
    computes i sh f s fn :=
  computes_of_issue hi rfl

/-! ## Integer words -/

/-- A word computes an exact result however its meaning writes the function of its operands. -/
theorem computes_exactInt {fn gn : Int → Int → Int → Int}
    (hi : exec i s = issue sh f s (State.compute sh (exactInt f fn))) (heq : ∀ a b c, fn a b c = gn a b c) :
    computes i sh f s (exactInt f gn) := by
  obtain rfl : fn = gn := funext fun a => funext fun b => funext fun c => heq a b c
  exact computes_of_compute hi

/-- Likewise for a word that carries through its predicate. -/
theorem computes_carryInt {fn gn : Nat → Word → Word → Bool → Nat × Bool}
    (hi : exec i s = issue sh f s (fun s act => s.compute sh (carryInt f fn s.own) act))
    (heq : ∀ w a b p, fn w a b p = gn w a b p) : computes i sh f s (carryInt f gn (found s).own) := by
  obtain rfl : fn = gn := funext fun w => funext fun a => funext fun b => funext fun p => heq w a b p
  exact computes_of_issue hi rfl

/-- ABS: the two branches of its meaning give the absolute value. -/
theorem ite_neg_eq_natAbs (a : Int) : (if a < 0 then -a else a) = (a.natAbs : Int) := by
  split <;> omega

/-- SAD: so do those of its distance. -/
theorem ite_sub_eq_natAbs (a b : Int) : (if a < b then b - a else a - b) = ((a - b).natAbs : Int) := by
  split <;> omega

/-- The low part of a difference of numbers up to `m` is that of the number that two `m` more make positive. -/
theorem sub_mod_eq_toNat_emod {m x y : Nat} (h : y ≤ m) : (x + 2 * m - y) % m = (((x : Int) - y) % (m : Int)).toNat := by
  have hcast : ((x + 2 * m - y : Nat) : Int) = (x : Int) - y + 2 * m := by omega
  rw [← Int.add_mul_emod_self_right _ 2, ← hcast, ← Int.natCast_emod, Int.toNat_natCast]

/-- R172: SUBB's low bits and borrow are those of the exact difference. -/
theorem subBorrow_eq_exact (w : Nat) (a b : Word) (p : Bool) :
    subBorrow w a b p = (let t : Int := (a.toNat % 2 ^ w : Nat) - (b.toNat % 2 ^ w : Nat) - (p.toNat : Nat)
      ((t % (2 ^ w : Nat)).toNat, decide (t < 0))) := by
  have hb : b.toNat % 2 ^ w < 2 ^ w := Nat.mod_lt _ (Nat.two_pow_pos w)
  have hp : p.toNat ≤ 1 := Bool.toNat_le p
  have hlow := sub_mod_eq_toNat_emod (x := a.toNat % 2 ^ w) (show b.toNat % 2 ^ w + p.toNat ≤ 2 ^ w by omega)
  rw [Int.natCast_add, ← Int.sub_sub] at hlow
  refine Prod.ext hlow (decide_eq_decide.2 ?_)
  omega

end

/-- Settles O1, word by word: MIN, MAX, ABS, SAD and SUBB compute by branches, or within the naturals, what is stated of the exact
integers. -/
theorem integerWordsComputeTheirResults : Obligations.IntegerWordsComputeTheirResults := by
  intro f s
  refine ⟨computes_of_compute rfl, computes_of_compute rfl, ?addc, ?subb, computes_of_compute rfl, computes_of_compute rfl,
    computes_of_compute rfl, computes_of_compute rfl, ?min, ?max, ?abs, ?sad, computes_of_compute rfl⟩
  case addc => exact computes_carryInt rfl fun _ _ _ _ => rfl
  case subb => exact computes_carryInt rfl subBorrow_eq_exact
  case min => exact computes_exactInt rfl fun a b _ => (Int.min_def ..).symm
  case max => exact computes_exactInt rfl fun a b _ => (Int.max_def ..).symm
  case abs => exact computes_exactInt rfl fun a _ _ => ite_neg_eq_natAbs a
  case sad => exact computes_exactInt rfl fun a b c => congrArg (· + c) (ite_sub_eq_natAbs a b)

/-! ## Logical, shift, bit-field and move words -/

/-- Settles O2, word by word: SEL reads a predicate of the group that it finds, MOV no check of poison. -/
theorem bitWordsComputeTheirResults : Obligations.BitWordsComputeTheirResults := by
  intro f s
  refine ⟨computes_of_compute rfl, computes_of_compute rfl, computes_of_compute rfl, computes_of_compute rfl,
    computes_of_compute rfl, computes_of_compute rfl, computes_of_compute rfl, computes_of_compute rfl,
    computes_of_compute rfl, computes_of_compute rfl, computes_of_compute rfl, computes_of_compute rfl,
    computes_of_compute rfl, ?sel, computes_of_compute rfl, computes_of_compute rfl, computes_of_compute rfl, ?mov⟩
  case sel => exact computes_of_issue rfl rfl
  case mov => exact fun hr => retires_of_ready rfl hr rfl

/-! ## Floating-point words -/

/-- Settles O3, word by word: FSTAT reads no operand, so that no poison stops it. -/
theorem floatWordsComputeTheirResults : Obligations.FloatWordsComputeTheirResults := by
  intro f s
  refine ⟨computes_of_compute rfl, computes_of_compute rfl, computes_of_compute rfl, computes_of_compute rfl,
    computes_of_compute rfl, computes_of_compute rfl, computes_of_compute rfl, computes_of_compute rfl,
    computes_of_compute rfl, computes_of_compute rfl, computes_of_compute rfl, computes_of_compute rfl,
    computes_of_compute rfl, computes_of_compute rfl, computes_of_compute rfl, computes_of_compute rfl,
    computes_of_compute rfl, ?fstat⟩
  case fstat => exact fun hr => retires_of_ready rfl hr rfl

end Sys2Proof.Claims
end

section
/-! Cross-lane words: each reads the lanes that its rule names before it writes any (R190 to R198). -/

namespace Sys2Proof.Claims

open Sys2Proof Sys2Proof.Machine

section

variable {i : Instr} {sh : Shape} {f : Full} {s : State} {a : Use} {reads : Reads} {own : List Use}
  {fn : (Nat → Nat) → Nat → Nat} {flags : (Nat → Nat) → BitVec 5}

/-- R190: where no lane reads a poisoned value, the word retires with what it computes from the lanes' values. -/
theorem cross_of_unpoisoned {act : Lanes} (h : s.crossPoison act a reads own = none) :
    s.cross act a reads own fn flags = .retire {
      s := s
      result := some { vals := (lanesOf act).map (fun l => (l, BitVec.ofNat 64 (fn (fun l => (s.value a l).toNat) l))) }
      flags := flags (fun l => (s.value a l).toNat) } := by
  simp only [State.cross, h]

theorem crosses_of_issue {body : State → Lanes → Effect} (hi : exec i s = issue sh f s body)
    (hb : body (found s) (active f s) = (found s).cross (active f s) a reads own fn flags) :
    crosses i sh f s a reads own fn flags :=
  fun hr hp => retires_of_ready hi hr (hb.trans (cross_of_unpoisoned hp))

end

/-- Settles O4, word by word: BALLOT reads predicates alone, so that no poison stops it. -/
theorem crossLaneWordsComputeTheirResults : Obligations.CrossLaneWordsComputeTheirResults := by
  rintro f s t act rfl rfl
  refine ⟨crosses_of_issue rfl rfl, crosses_of_issue rfl rfl, ?ballot, crosses_of_issue rfl rfl, crosses_of_issue rfl rfl,
    crosses_of_issue rfl rfl, crosses_of_issue rfl rfl, crosses_of_issue rfl rfl⟩
  case ballot => exact fun hr => retires_of_ready rfl hr rfl

end Sys2Proof.Claims
end

section
/-! Format words: conversions, block scaling, residuals and the non-finite check, with the SEEDs of stochastic rounding (R212 to
R226). -/

namespace Sys2Proof.Claims

open Sys2Proof Sys2Proof.Machine

section

variable {i : Instr} {sh : Shape} {f : Full} {s : State}

/-- R53: a word that retires advances the SEEDs of its lanes where it rounds with them. -/
theorem stepSeeds_of_retire {e : Effect} {r : Retire} {on : Bool} {ls : List Nat} (he : e = .retire r) :
    e.stepSeeds on ls = .retire { r with s := if on then r.s.stepSeeds ls else r.s } := by
  subst he
  rfl

/-- R212: a computation that rounds with the lanes' SEEDs retires with what it computes, and advances the SEEDs of its path. -/
theorem retires_seeded_of_issue {fn : State → Nat → List Word → LaneOut} {on : Bool}
    (hi : exec i s = issue sh f s (fun s act => (s.compute sh (fn s) act).stepSeeds on (sh.path act)))
    (h : issues sh f s) :
    retires i sh f s (seeded sh (active f s) on (computed sh (fn (found s)) (found s) (active f s))) := by
  obtain ⟨hr, hc⟩ := h
  exact retires_of_ready hi hr (stepSeeds_of_retire (compute_of_unpoisoned (poisonTrap_of_clean hc)))

end

/-- Settles O5, word by word: CVT, CVTS and EFQ compute with the SEEDs of the group that they find; QBLK reads the lanes of its
block, as a cross-lane word does; OSPLIT and NFCHK check poison themselves. -/
theorem formatWordsComputeTheirResults : Obligations.FormatWordsComputeTheirResults := by
  rintro f s t act rfl rfl
  refine ⟨retires_seeded_of_issue rfl, retires_seeded_of_issue rfl, ?qblk, computes_of_compute rfl, computes_of_compute rfl,
    computes_of_compute rfl, ?osplit, retires_seeded_of_issue rfl, computes_of_compute rfl, computes_of_compute rfl, ?nfchk⟩
  case qblk =>
    intro near v one hr hp
    refine retires_of_ready rfl hr ((stepSeeds_of_retire (cross_of_unpoisoned hp)).trans ?_)
    simp only [decide_eq_true_eq]
    rfl
  case osplit =>
    rintro a b past n ⟨hr, hc⟩
    exact retires_of_ready rfl hr (by rw [poisonTrap_of_clean hc])
  case nfchk =>
    intro hit hr hc
    refine retires_of_ready rfl hr ?_
    rw [nfchkBody, poisonTrap_of_clean hc]

end Sys2Proof.Claims
end

section
/-! The stack of a Spoil lane under one push and one pop (R231): what PREPARE, FILL and PUSH leave in the window, and what POP then
finds on top. -/

namespace Sys2Proof.Machine

open Sys2Proof Sys2Proof.Claims

variable {r q : SpoilRun} {gi l : Nat}

theorem length_entriesOf (bytes : List Byte) (poison : Bool) : (entriesOf bytes poison).length = 8 := by
  rw [entriesOf, List.length_map, List.length_range]

/-- A FILL that succeeds gives the lane a window of as many of the block's 8 entries as it asked for, and changes nothing else of
the lane. -/
theorem SpoilRun.fill_succeeds {b n : Nat} (h : r.fill gi l b n = (q, none)) (hn : n ≤ 8) :
    ∃ w : List SpoilEntry, w.length = n ∧ q.lane = { r.lane with window := w } := by
  unfold SpoilRun.fill at h
  dsimp only at h
  repeat' split at h
  all_goals cases h
  exact ⟨_, by rw [List.length_take, length_entriesOf, Nat.min_eq_left hn], rfl⟩

theorem SpoilRun.prepare_of_loaded (h : r.lane.loaded = true) : r.prepare gi l = (r, none) := if_pos h

/-- A PREPARE that succeeds leaves a window that holds the lane's entries, at the depth that it had. -/
theorem SpoilRun.prepare_succeeds (h : r.prepare gi l = (q, none)) (hlane : goodLane r.lane) :
    q.lane.loaded = true ∧ q.lane.window.length = q.lane.count ∧ q.lane.depth = r.lane.depth := by
  obtain ⟨hcount, hwindow⟩ := hlane
  by_cases hload : r.lane.loaded = true
  · rw [SpoilRun.prepare_of_loaded hload] at h
    cases h
    exact ⟨hload, hwindow (.inl hload), rfl⟩
  · rw [SpoilRun.prepare, if_neg hload] at h
    by_cases hdepth : r.lane.depth > 0
    · rw [if_pos hdepth] at h
      obtain ⟨q', e, hfill⟩ : ∃ q' e, r.fill gi l r.lane.nb r.lane.count = (q', e) := ⟨_, _, rfl⟩
      rw [hfill] at h
      cases e <;> cases h
      obtain ⟨w, hw, hq⟩ := SpoilRun.fill_succeeds hfill hcount
      exact ⟨rfl, by rw [hq]; exact hw, by rw [hq]⟩
    · rw [if_neg hdepth] at h
      cases h
      exact ⟨rfl, hwindow (.inr (Nat.eq_zero_of_not_pos hdepth)), rfl⟩

/-- Entry `e` is on top of a loaded lane, above `d` others. -/
structure SpoilLane.OnTop (sp : SpoilLane) (e : SpoilEntry) (d : Nat) : Prop where
  loaded : sp.loaded = true
  count : sp.count ≠ 0
  depth : sp.depth = d + 1
  entry : sp.window.getD (sp.count - 1) {} = e

theorem getD_concat_length {α : Type} (w : List α) (x d : α) : (w ++ [x]).getD w.length d = x := by
  rw [List.getD_eq_getElem?_getD, List.getElem?_concat_length, Option.getD_some]

/-- R231: a PUSH that succeeds leaves its entry on top, unpoisoned, whether or not it had to spill a full window first. -/
theorem SpoilRun.push_succeeds {tag : Nat} {v : W32} (h : r.push gi l tag v = (q, none)) (hlane : goodLane r.lane) :
    q.lane.OnTop { tag := BitVec.ofNat 4 tag, value := v } r.lane.depth := by
  obtain ⟨p, e, hprep⟩ : ∃ p e, r.prepare gi l = (p, e) := ⟨_, _, rfl⟩
  rw [SpoilRun.push, hprep] at h
  cases e with
  | some e => cases h
  | none =>
    obtain ⟨hload, hlen, hdepth⟩ := SpoilRun.prepare_succeeds hprep hlane
    dsimp only at h
    repeat' split at h
    all_goals cases h
    · exact ⟨hload, Nat.succ_ne_zero _, congrArg Nat.succ hdepth, rfl⟩
    · exact ⟨hload, Nat.succ_ne_zero _, congrArg Nat.succ hdepth, hlen ▸ getD_concat_length ..⟩

/-- R231: POP finds the entry on top, without a block transfer. -/
theorem SpoilRun.top_of_onTop {e : SpoilEntry} {d : Nat} (h : r.lane.OnTop e d) (expected : Nat) :
    r.top gi l expected = (r, .ok e) := by
  have hdepth : r.lane.depth ≠ 0 := h.depth ▸ Nat.succ_ne_zero d
  simp only [SpoilRun.top, SpoilRun.prepare_of_loaded h.loaded, if_neg hdepth, if_neg h.count, h.entry]

/-! ## A do word, then its undo word -/

/-- The entry that a do word pushes. -/
def DoOut.entry (o : DoOut) : SpoilEntry := { tag := BitVec.ofNat 4 o.tag, value := BitVec.ofInt 32 o.push }

/-- A do word that completes in a lane has pushed its entry, and writes what it computes. -/
theorem SpoilRun.lane1_push_succeeds {fn : Int → Int → DoOut} {a b v : Int} {o : Bool}
    (h : r.lane1 (.push fn) gi l a b none = (q, .ok (v, o))) (hlane : goodLane r.lane) :
    q.lane.OnTop (fn a b).entry r.lane.depth ∧ v = (fn a b).val := by
  obtain ⟨p, e, hpush⟩ : ∃ p e, r.push gi l (fn a b).tag (BitVec.ofInt 32 (fn a b).push) = (p, e) := ⟨_, _, rfl⟩
  simp only [SpoilRun.lane1, hpush] at h
  cases e <;> cases h
  exact ⟨SpoilRun.push_succeeds hpush hlane, rfl⟩

/-- An undo word that finds on top an unpoisoned entry that it accepts pops it, and writes what it computes from it. -/
theorem SpoilRun.lane1_pop_of_onTop {e : SpoilEntry} {d : Nat} {tags : List Nat} {fn : SpoilEntry → Int → Int → Int}
    {fits : SpoilEntry → Int → Bool} {a b : Int} (h : r.lane.OnTop e d) (expected : Nat) (hpoison : e.poison = false)
    (htag : tags.contains e.tag.toNat = true) (hfits : fits e a = true) :
    r.lane1 (.pop tags expected fn fits) gi l a b none = (r.drop, .ok (fn e a b, false)) := by
  simp only [SpoilRun.lane1, SpoilRun.top_of_onTop h, htag, hfits, hpoison, Bool.not_true, Bool.false_eq_true, if_false]

/-- What an undo word reads as A after a do word: the register that the do word wrote, or, for a marker, the do word's own A. -/
def DoOut.read (o : DoOut) (marks : Bool) (a : Int) : Int := if marks then a else (BitVec.ofInt 32 o.val).toInt

theorem DoOut.read_unmarked (o : DoOut) (a : Int) : o.read false a = (BitVec.ofInt 32 o.val).toInt :=
  if_neg Bool.false_ne_true

/-- An undo word accepts the entry that a do word pushed, and gives the do word's input A back from it. -/
structure DoOut.Restores (o : DoOut) (tags : List Nat) (back : SpoilEntry → Int → Int → Int) (fits : SpoilEntry → Int → Bool)
    (marks : Bool) (a b : Int) : Prop where
  accepted : tags.contains o.entry.tag.toNat = true
  fits : fits o.entry (o.read marks a) = true
  restored : marks = false → BitVec.ofInt 32 (back o.entry (o.read marks a) b) = BitVec.ofInt 32 a

/-- R227: an undo word reverses a do word in every lane when it does so on the one entry that the do word pushes. -/
theorem undoes_of_restores {fn : Int → Int → DoOut} {tags : List Nat} {expected : Nat} {back : SpoilEntry → Int → Int → Int}
    {fits : SpoilEntry → Int → Bool} {marks : Bool}
    (h : ∀ a b : Int, -(2 ^ 31) ≤ a → a < 2 ^ 31 → (fn a b).Restores tags back fits marks a b) :
    undoes (.push fn) (.pop tags expected back fits) marks := by
  intro r r1 gi l a b v o ha ha' _ _ hlane hdo
  obtain ⟨htop, rfl⟩ := SpoilRun.lane1_push_succeeds hdo hlane
  obtain ⟨haccepted, hfits, hrestored⟩ := h a b ha ha'
  exact ⟨_, _, SpoilRun.lane1_pop_of_onTop htop expected rfl haccepted hfits, hrestored, congrArg Nat.pred htop.depth⟩

end Sys2Proof.Machine
end

section
/-! The arithmetic of the reversible words (R237 to R242): a quotient by a power of two and the bits that the shift discards give
the dividend back. -/

namespace Sys2Proof.Machine

open Sys2Proof

/-- A value within 32 bits is read back as it was written. -/
theorem toInt_ofInt_32 {v : Int} (hlo : -(2 ^ 31) ≤ v) (hhi : v < 2 ^ 31) : (BitVec.ofInt 32 v).toInt = v :=
  BitVec.toInt_ofInt_eq_self (by decide) hlo hhi

/-- An operand that is kept whole in an entry comes back whole. -/
theorem ofInt_toNat_ofInt_32 (a : Int) : BitVec.ofInt 32 (BitVec.ofInt 32 a).toNat = BitVec.ofInt 32 a := by
  rw [BitVec.ofInt_natCast, BitVec.ofNat_toNat, BitVec.setWidth_eq]

theorem natCast_two_pow_pos (n : Nat) : (0 : Int) < (2 ^ n : Nat) := Int.natCast_pos.2 (Nat.two_pow_pos n)

theorem two_pow_dvd {m n : Nat} (h : m ≤ n) : ((2 ^ m : Nat) : Int) ∣ (2 ^ n : Nat) :=
  Int.natCast_dvd_natCast.2 (Nat.pow_dvd_pow 2 h)

theorem natCast_toNat_ofInt (w : Nat) (v : Int) : ((BitVec.ofInt w v).toNat : Int) = v % (2 ^ w : Nat) := by
  rw [BitVec.toNat_ofInt, Int.toNat_of_nonneg (Int.emod_nonneg _ (Int.ne_of_gt (natCast_two_pow_pos _)))]

theorem lowN_eq_emod (v : Int) (n : Nat) : lowN v n = v % (2 ^ n : Nat) :=
  Int.toNat_of_nonneg (Int.emod_nonneg _ (Int.ne_of_gt (natCast_two_pow_pos _)))

/-- An entry's 32 bits hold the discarded bits of a shift of up to 32. -/
theorem lowN_ofInt_lowN {n : Nat} (hn : n ≤ 32) (p : Int) : lowN (BitVec.ofInt 32 (lowN p n)).toNat n = lowN p n := by
  rw [lowN_eq_emod, natCast_toNat_ofInt, Int.emod_emod_of_dvd _ (two_pow_dvd hn), lowN_eq_emod, Int.emod_emod]

/-- R237, R238, R240, R241: a shift back, with the bits that the entry kept, undoes the shift. -/
theorem shiftBack_eq {n : Nat} (hn : n ≤ 32) (p : Int) :
    p / (2 ^ n : Nat) * (2 ^ n : Nat) + lowN (BitVec.ofInt 32 (lowN p n)).toNat n = p := by
  rw [lowN_ofInt_lowN hn, lowN_eq_emod, Int.ediv_mul_add_emod]

/-- A shift right keeps a value within 32 bits. -/
theorem toInt_ofInt_shift {a : Int} (hlo : -(2 ^ 31) ≤ a) (hhi : a < 2 ^ 31) (n : Nat) :
    (BitVec.ofInt 32 (a / (2 ^ n : Nat))).toInt = a / (2 ^ n : Nat) := by
  have hpos : (0 : Int) < (2 ^ n : Nat) := natCast_two_pow_pos n
  refine toInt_ofInt_32 ((Int.le_ediv_iff_mul_le hpos).2 ?_) ((Int.ediv_lt_iff_lt_mul hpos).2 ?_) <;> omega

/-- Saturation leaves alone just the values in range. -/
theorem satInt_true_eq_self_iff {w : Nat} {v : Int} :
    satInt true w v = v ↔ -(2 ^ (w - 1) : Nat) ≤ v ∧ v < (2 ^ (w - 1) : Nat) := by
  simp only [satInt, if_true]
  split
  · omega
  · split <;> omega

theorem setWidth_ofInt {w n : Nat} (hle : w ≤ n) (v : Int) : (BitVec.ofInt n v).setWidth w = BitVec.ofInt w v := by
  apply BitVec.eq_of_toInt_eq
  rw [BitVec.toInt_setWidth, BitVec.toInt_ofInt, natCast_toNat_ofInt, ← Int.emod_bmod,
    Int.emod_emod_of_dvd _ (two_pow_dvd hle), Int.emod_bmod]

/-- R241: a value in range is read back from its low bits. -/
theorem intVal_ofInt_64 {w : Nat} {v : Int} (hpos : 0 < w) (hle : w ≤ 64) (h : satInt true w v = v) :
    intVal true w (BitVec.ofInt 64 v) = v := by
  obtain ⟨hlo, hhi⟩ := satInt_true_eq_self_iff.1 h
  rw [intVal, if_pos rfl, BitVec.ofNat_toNat, setWidth_ofInt hle]
  exact BitVec.toInt_ofInt_eq_self hpos (by exact_mod_cast hlo) (by exact_mod_cast hhi)

theorem k5_le_32 (f : Full) : k5 f ≤ 32 := Nat.le_of_lt (Nat.lt_of_lt_of_le (Nat.mod_lt _ (by decide)) (by decide))

theorem narrBits_pos (f : Full) : 0 < narrBits f := by unfold narrBits; split <;> decide

theorem narrBits_le (f : Full) : narrBits f ≤ 64 := by unfold narrBits; split <;> decide

end Sys2Proof.Machine
end

section
/-! Each undo word restores the input of its do word (R227, R237 to R242). -/

namespace Sys2Proof.Claims

open Sys2Proof Sys2Proof.Machine

variable {f : Full}

/-- R237: a zero weight and a saturated result keep the input; otherwise the product comes back, and divides exactly. -/
theorem undoes_rmuln (hsh : sh6 f ≤ 32) : undoes (rmulnOp f) (umulnOp f) false := by
  refine undoes_of_restores fun a b _ _ => ?_
  dsimp only
  split
  case isTrue => exact ⟨rfl, rfl, fun _ => ofInt_toNat_ofInt_32 a⟩
  case isFalse hb =>
    split
    case isTrue => exact ⟨rfl, rfl, fun _ => ofInt_toNat_ofInt_32 a⟩
    case isFalse hsat =>
      obtain ⟨hlo, hhi⟩ := satInt_true_eq_self_iff.1 (Classical.not_not.1 hsat)
      have hread : (BitVec.ofInt 32 (a * b / (2 ^ sh6 f : Nat))).toInt = a * b / (2 ^ sh6 f : Nat) := toInt_ofInt_32 hlo hhi
      refine ⟨rfl, rfl, fun _ => ?_⟩
      simp only [DoOut.entry, DoOut.read_unmarked]
      rw [if_pos (by decide), if_neg hb, hread, shiftBack_eq hsh, Int.mul_tdiv_cancel _ hb]

/-- R238: the bits shifted out come back under the result. -/
theorem undoes_rshr (hsh : sh6 f ≤ 32) : undoes (rshrOp f) (ushrOp f) false := by
  refine undoes_of_restores fun a b hlo hhi => ⟨rfl, rfl, fun _ => ?_⟩
  simp only [DoOut.entry, DoOut.read_unmarked]
  rw [toInt_ofInt_shift hlo hhi, shiftBack_eq hsh]

/-- R240: the result has the sign of the input, so that the undo word takes the same branch. -/
theorem undoes_rlrel : undoes (rlrelOp f) (ulrelOp f) false := by
  refine undoes_of_restores fun a b hlo hhi => ?_
  split
  case isTrue ha =>
    have hneg : a / (2 ^ k5 f : Nat) < 0 := Int.ediv_neg_of_neg_of_pos ha (natCast_two_pow_pos _)
    refine ⟨rfl, rfl, fun _ => ?_⟩
    simp only [DoOut.entry, DoOut.read_unmarked]
    rw [toInt_ofInt_shift hlo hhi, if_pos hneg, shiftBack_eq (k5_le_32 f)]
  case isFalse ha =>
    refine ⟨rfl, rfl, fun _ => ?_⟩
    simp only [DoOut.read_unmarked]
    rw [toInt_ofInt_32 hlo hhi, if_neg ha]

/-- R241: a value in range is read back from its low bits and shifted back; a saturated one was kept. -/
theorem undoes_rnarr : undoes (rnarrOp f) (unarrOp f) false := by
  refine undoes_of_restores fun a b hlo hhi => ?_
  dsimp only
  split
  case isTrue hsat =>
    have hval : intVal true (narrBits f) (BitVec.ofInt 64 (a / (2 ^ k5 f : Nat))) = a / (2 ^ k5 f : Nat) :=
      intVal_ofInt_64 (narrBits_pos f) (narrBits_le f) hsat
    refine ⟨rfl, rfl, fun _ => ?_⟩
    simp only [DoOut.entry, DoOut.read_unmarked]
    rw [if_pos (by decide), toInt_ofInt_shift hlo hhi, hval, shiftBack_eq (k5_le_32 f)]
  case isFalse => exact ⟨rfl, rfl, fun _ => ofInt_toNat_ofInt_32 a⟩

/-- R242: the marker's 28 bits are found again. -/
theorem undoes_rmark : undoes rmarkOp umarkOp true := by
  refine undoes_of_restores fun a b _ _ => ⟨rfl, ?_, nofun⟩
  exact decide_eq_true (lowN_ofInt_lowN (by decide) a)

/-- R239: an addition that wraps is undone by the subtraction of the same term. -/
theorem ofInt_sub_of_wrapped_add (a t : Int) :
    BitVec.ofInt 32 ((BitVec.ofInt 32 (a + t)).toInt - t) = BitVec.ofInt 32 a := by
  apply BitVec.eq_of_toInt_eq
  simp only [BitVec.toInt_ofInt]
  rw [Int.bmod_sub_bmod, Int.add_sub_cancel]

/-- Settles O49, pair by pair; the words of R239 keep no entry, and wrap. -/
theorem undoWordsReverseTheirDoWords : Obligations.UndoWordsReverseTheirDoWords := by
  intro f hsh
  exact ⟨undoes_rmuln hsh, undoes_rshr hsh, undoes_rlrel, undoes_rnarr, undoes_rmark,
    fun a b c => ⟨ofInt_sub_of_wrapped_add a b, ofInt_sub_of_wrapped_add a (b * c / (2 ^ sh6 f : Nat))⟩⟩

end Sys2Proof.Claims
end

section
/-! Spoil words that push, pop or compute (R236 to R242): each retires when no lane fails. -/

namespace Sys2Proof.Claims

open Sys2Proof Sys2Proof.Machine

variable {i : Instr} {sh : Shape} {f : Full} {s : State}

theorem spoilLost_nil : s.spoilLost [] = s := rfl

theorem spoilTrap_nil : spoilTrap [] = none := rfl

/-- R231, R236: where no lane fails and every transfer is done, the stacks change and the word retires. -/
theorem spoilBody_of_done {op : SpoilOp} {act : Lanes} {u : State} (hblocked : s.spoilBlocked op act = false)
    (hreported : s.wordReported = false) (hmissing : (s.spoilAll sh op act).missing = [])
    (hfails : (s.spoilAll sh op act).fails = [])
    (hsent : (s.spoilAll sh op act).s.sendSpills ((s.spoilAll sh op act).writes.filter (fun w => s.isRemote w.x.pa))
      = (u, true, [])) :
    spoilBody sh op s act = .retire {
      s := ({ s.spoilAll sh op act with s := u.farDone s.wordReader } : SpoilAll).commit
      result := some { vals := (s.spoilAll sh op act).vals }
      flags := flIf (s.spoilAll sh op act).ovf flO } := by
  simp only [spoilBody, hblocked, hreported, hmissing, hsent, hfails, ne_eq, not_true_eq_false, Bool.false_eq_true,
    Bool.not_true, if_false, List.append_nil, List.filter_nil, spoilTrap_nil, spoilLost_nil]

theorem spoils_of_issue {op : SpoilOp} (hi : exec i s = issue sh f s (spoilBody sh op)) : spoils i sh f s op :=
  fun hr hblocked hreported hmissing hfails hacked hlost =>
    retires_of_ready hi hr (spoilBody_of_done hblocked hreported hmissing hfails (Prod.ext rfl (Prod.ext hacked hlost)))

/-- Settles O6, word by word: RADD, UADD, RMAD and UMAD compute from their sources alone; the other ten run on the stack. -/
theorem spoilWordsPushPopAndCompute : Obligations.SpoilWordsPushPopAndCompute := by
  intro f s two one none_
  exact ⟨spoils_of_issue rfl, spoils_of_issue rfl, spoils_of_issue rfl, spoils_of_issue rfl, computes_of_compute rfl,
    computes_of_compute rfl, computes_of_compute rfl, computes_of_compute rfl, spoils_of_issue rfl, spoils_of_issue rfl,
    spoils_of_issue rfl, spoils_of_issue rfl, spoils_of_issue rfl, spoils_of_issue rfl⟩

end Sys2Proof.Claims
end

section
/-! Engine words that start an operation behind a release, the Haul copies, the `stat` words and the barrier words: what each of their
bodies answers once its checks pass (R36, R38, R51, R245 to R251, R260 to R264). -/

namespace Sys2Proof.Claims

open Sys2Proof Sys2Proof.Machine

variable {i : Instr} {sh : Shape} {f : Full} {s t : State} {act : Lanes}

/-! ## Starting an operation -/

section

variable {engine scope : Nat} {room : State → Bool} {start : State → Option Word → State}

/-- R38, R244: an unbound operation starts once its release performs and its engine has room. -/
theorem startAsync_unbound (hopens : opens s act true scope t) (hroom : room t = true) (hreg : handleReg f = none) :
    s.startAsync f act engine scope room start = .retire { s := start t none } := by
  rw [State.startAsync, released_of_opens hopens, hreg]
  exact if_pos hroom

/-- R25, R38: an operation with a handle starts likewise, with the future-table entry that it takes. -/
theorem startAsync_bound {r : Nat} {h : Word} {u : State} (hopens : opens s act true scope t) (hroom : room t = true)
    (hreg : handleReg f = some r) (halloc : t.allocFuture engine (some r) scope = some (h, u)) :
    s.startAsync f act engine scope room start = .retire { s := start u (some h) } := by
  rw [State.startAsync, released_of_opens hopens, hreg]
  simp only [halloc]
  exact if_pos hroom

/-- A ready word whose body starts its operation starts it with and without a handle. -/
theorem starts_of_ready {body : State → Lanes → Effect} (hi : exec i s = issue sh f s body) (hr : ready sh f s = true)
    (hb : body (found s) (active f s) = (found s).startAsync f (active f s) engine scope room start) :
    starts i sh f s (found s) engine scope room start :=
  fun _ hopens hroom =>
    ⟨fun hreg => retires_of_ready hi hr (hb.trans (startAsync_unbound hopens hroom hreg)),
      fun _ _ _ hreg halloc => retires_of_ready hi hr (hb.trans (startAsync_bound hopens hroom hreg halloc))⟩

end

/-! ## Copies -/

/-- The operation that a copy word starts once its descriptor is read as `d`: its draft with the descriptor and the byte count. -/
def haulOf (sh : Shape) (f : Full) (s : State) (d : List W32) : HaulOp :=
  let o : HaulOp := { s.haulDraft sh f with desc := d }
  { o with total := o.bytes (s.src f (asyncC f)).toNat }

/-- R245: a copy word that passes its checks starts its copy. -/
theorem haulBody_of_checked {n : Nat} {bad : List W32 → Option Nat} {d : List W32} (hpoison : s.poisonTrap sh.srcs act = none)
    (hdesc : (s.haulDraft sh f).describe s.ownScratch f (s.src f (asyncC f)).toNat n bad = .ok d)
    (hranges : (haulOf sh f s d).ranges s.ownScratch = none) :
    haulBody sh f n bad s act = s.startAsync f act 1 (scopeF f) State.haulRoom (State.haulStart (haulOf sh f s d)) := by
  simp only [haulOf] at hranges
  simp only [haulBody, hpoison, hdesc, hranges, haulOf]

theorem hauls_of_issue {op n : Nat} {badFn : Bool} {bad : List W32 → Option Nat}
    (hi : exec i s = issue (haulShape op f badFn) f s (haulBody (haulShape op f badFn) f n bad)) :
    hauls i op badFn f s n bad :=
  fun _ ⟨hr, hc⟩ hdesc hranges =>
    starts_of_ready hi hr (haulBody_of_checked (poisonTrap_of_clean hc) hdesc hranges)

/-! ## Progress -/

/-- R51: an exported handle of the engine answers its progress record. -/
theorem statWord_of_exported {engine : Nat} {e : FutureEntry} (hfut : s.ownTeam.futOf (s.src f (asyncA f)) = some e)
    (hstate : e.state = .exported ∨ e.state = .doneExported) (hengine : e.engine = engine) (hown : e.service = false) :
    s.statWord f engine = .retire { s := s, result := some { vals := [(0, BitVec.ofNat 64
      (bits e.progress.toNat 0 60 + engine * 2 ^ 60))] } } := by
  have hserves : ¬ e.service = true := ne_true_of_eq_false hown
  simp only [State.statWord, hfut]
  exact if_pos ⟨hstate, hengine, hserves⟩

/-- A `stat` word whose operand `a` is its A field, and not poisoned, answers its engine's progress record. -/
theorem tells_of_issue {a : Use} {engine : Nat} {body : State → Lanes → Effect} (hi : exec i s = issue sh f s body)
    (ha : (found s).src f a = (found s).src f (asyncA f))
    (hb : (found s).poisonTrap [a] (active f s) = none → body (found s) (active f s) = (found s).statWord f engine) :
    tells i sh f s a engine :=
  fun _ ⟨hr, hc⟩ hfut hstate hengine hown =>
    retires_of_ready hi hr ((hb (poisonTrap_of_clean hc)).trans
      (statWord_of_exported (ha ▸ hfut) hstate hengine hown))

/-- Settles O18: the five copy words differ in their descriptors alone. -/
theorem haulWordsStartTheirCopies : Obligations.HaulWordsStartTheirCopies := by
  intro f s
  refine ⟨hauls_of_issue rfl, hauls_of_issue rfl, hauls_of_issue rfl, hauls_of_issue rfl, hauls_of_issue rfl, ?_⟩
  exact tells_of_issue rfl rfl (fun hpoison => by rw [hpoison])

/-! ## Barrier words -/

section

variable {a : Nat} {e : BarEvent} {r : Retire}

/-- R32, R34: with the group's earlier scratchpad accesses performed, a word that writes an object does so. -/
theorem inOrder_of_quiet (h : s.scratchQuiet = true) (e : Effect) : s.inOrder e = e := if_pos h

/-- R261: an arrival has its effect on the object and answers the token. -/
theorem arriveWord_of_arrival (h : arrival s act a e r) : s.arriveWord act a e = .retire r := by
  obtain ⟨u, hopens, rfl⟩ := h
  exact released_of_opens hopens

/-- R260: a barrier word that passes its checks has its effect on its object. -/
theorem barBody_of_checked {reads : Bool} {k : State → Lanes → Nat → Effect} (hpoison : s.poisonTrap sh.srcs act = none)
    (hrange : s.ownTeam.spBeyond (barAddr (s.src f (asyncA f)).toNat) 16 = false)
    (hobject : reads = true → s.ownScratch.spPoisoned (barAddr (s.src f (asyncA f)).toNat) 16 = false) :
    barBody sh f reads k s act = k s act (barAddr (s.src f (asyncA f)).toNat) := by
  have hread : (reads && s.ownScratch.spPoisoned (barAddr (s.src f (asyncA f)).toNat) 16) = false := by
    cases reads with
    | false => rfl
    | true => exact hobject rfl
  simp only [barBody, hpoison, hrange, hread, Bool.false_eq_true, if_false]

theorem bars_of_issue {reads : Bool} {k : State → Lanes → Nat → Effect} {ok : Nat → Retire → Prop}
    (hi : exec i s = issue sh f s (barBody sh f reads k))
    (hk : ∀ a r, ok a r → k (found s) (active f s) a = .retire r) : bars i sh f s reads ok :=
  fun r ⟨hr, hc⟩ hrange hobject hok =>
    retires_of_ready hi hr ((barBody_of_checked (poisonTrap_of_clean hc) hrange hobject).trans (hk _ r hok))

end

/-- Settles O19: past the checks that all barrier words share, each word's effect is the branch that its clause names. -/
theorem barrierWordsActOnTheirObject : Obligations.BarrierWordsActOnTheirObject := by
  rintro f s t act rfl rfl b label token pend
  refine ⟨?binit, ?barrive, ?bexpect, ?bexpectArr, ?bwait, ?btry, ?bcont, ?btrig⟩
  case binit => exact bars_of_issue rfl (fun a r ⟨hquiet, hr⟩ => hr ▸ inOrder_of_quiet hquiet _)
  case barrive => exact bars_of_issue rfl (fun _ _ => arriveWord_of_arrival)
  case bexpect => exact bars_of_issue rfl (fun a r ⟨hquiet, hr⟩ => hr ▸ inOrder_of_quiet hquiet _)
  case bexpectArr => exact bars_of_issue rfl (fun _ _ => arriveWord_of_arrival)
  case bwait => exact bars_of_issue rfl (fun a r ⟨hflipped, hr⟩ => hr ▸ if_pos hflipped)
  case btry => exact bars_of_issue rfl (fun a r hr => hr ▸ rfl)
  case bcont =>
    refine bars_of_issue rfl (fun a r h => ?_)
    obtain ⟨hflipped, rfl⟩ | ⟨hsame, hfree, hquiet, rfl⟩ := h
    · exact if_pos hflipped
    · have hparks : ¬ ((found s).own.bwstate.getLsbD 33 = true
          ∧ ¬ (barAddr (bits (found s).own.bwstate.toNat 0 32) = a ∧ (found s).own.bwstate.getLsbD 32 = token)) := by
        rintro ⟨hbusy, hother⟩
        exact hfree.elim (ne_false_of_eq_true hbusy) hother
      exact (if_neg (ne_true_of_eq_false hsame)).trans ((if_neg hparks).trans (inOrder_of_quiet hquiet _))
  case btrig =>
    exact bars_of_issue rfl (fun a r ⟨hkind, hquiet, hr⟩ => (if_neg hkind).trans (hr ▸ inOrder_of_quiet hquiet _))

end Sys2Proof.Claims
end

section
/-! Events of the Haul, Ashlar, Keystone, Grout, grid and Quarry engines: an event that looks for an operation has its effect on the
one that it finds (R243 to R353). -/

namespace Sys2Proof.Claims

open Sys2Proof Sys2Proof.Machine

variable {i : Instr} {s : State}

/-! ## Haul -/

/-- R243: in its turn, a core that is not veiled moves a unit of the first operation that has something to move. -/
theorem happens_haulUnitTransfer_turn {o : HaulOp} (hveil : s.veiledCore s.focus.core = false) (hturn : s.focus.number = 0)
    (hpick : (s.core s.focus.core).haul.find? (s.haulRuns s.focus.core) = some o) :
    happens .haulUnitTransfer s
      (((s.touch s.focus.core none).modCore s.focus.core (fun k =>
        { k with haul := dropFirst (fun p => p.id = o.id) k.haul ++ [o] })).haulUnit s.focus.core o) := by
  change execHaulUnitTransfer s = _
  simp only [execHaulUnitTransfer, hveil, hturn, hpick, Bool.false_eq_true, ne_eq, not_true_eq_false, if_false]

/-- R250: otherwise it moves the unit that the turn names, of the operation that the turn names, before its turn. -/
theorem happens_haulUnitTransfer_ahead {o : HaulOp} (hveil : s.veiledCore s.focus.core = false) (hturn : s.focus.number ≠ 0)
    (hpick : (s.core s.focus.core).haul[s.focus.slot]? = some o) (hruns : s.haulRuns s.focus.core o = true) :
    happens .haulUnitTransfer s
      ((s.touch s.focus.core none).haulAhead s.focus.core o s.focus.index (decide (s.focus.number = 2))) := by
  change execHaulUnitTransfer s = _
  simp only [execHaulUnitTransfer, hveil, hturn, hpick, hruns, Bool.false_eq_true, ne_eq, not_false_eq_true, if_false, if_true]

/-! ## Ashlar -/

/-- R285: the operation at the head of engine order takes its turn, for the team that owns the engine. -/
theorem happens_ashlarOpComplete {o : AshOp} {rest : List AshOp} {n : Nat} {m : Team}
    (hqueue : (s.core s.focus.core).ash.queue = o :: rest) (howner : (s.core s.focus.core).ashOwner = some (n, m)) :
    happens .ashlarOpComplete s (s.ashRun s.focus.core n m o) := by
  change execAshlarOpComplete s = _
  simp only [execAshlarOpComplete, hqueue, howner]

/-! ## Keystone -/

/-- R303: the operand in flight that the turn names leaves its flight and is offered to its station. -/
theorem happens_ksOperandArrive {o : Operand} (hpick : s.ksFlight[s.focus.number % max 1 s.ksFlight.length]? = some o) :
    happens .ksOperandArrive s ((State.arrive
      { s with ksFlight := s.ksFlight.eraseIdx (s.focus.number % max 1 s.ksFlight.length) } o).getD s) := by
  change execKsOperandArrive s = _
  simp only [execKsOperandArrive, hpick]

/-- R303: the operand that has waited for TIMEOUT leaves its place, is delivered alone, and its orphan record is held. -/
theorem happens_ksOrphanTimeout {x y : Operand} {u : State}
    (hdue : (s.stations.flatMap (fun e => e.2.store) ++ s.ksOverflow).find? s.ksDue = some x)
    (htake : s.takeWaiting x.tag = some (y, u)) :
    happens .ksOrphanTimeout s
      ((((u.dropExpired (stationOf y.tag)).modStation (stationOf y.tag) (fun st => st.addOrphan y.tag s.uncore)).deliver y 2).getD
        s) := by
  change execKsOrphanTimeout s = _
  simp only [execKsOrphanTimeout, hdue, htake]

/-- R304: the refused operand that is due is offered to its station again. -/
theorem happens_ksForwardRetry {n : Nat} {o : Operand}
    (hdue : s.ksRetry.findIdx? (fun o => s.uncore ≥ o.since + 1024) = some n) (hn : s.ksRetry[n]? = some o) :
    happens .ksForwardRetry s ((State.arrive { s with ksRetry := s.ksRetry.eraseIdx n } o).getD s) := by
  change execKsForwardRetry s = _
  simp only [execKsForwardRetry, hdue, hn]

/-- R306, R307: the first held record that has something to write, or is over, is released as far as it can be now. -/
theorem happens_ksRecordDeferredWrite {r : HeldRecord} (hpick : s.ksHeld.find? s.ksMoves = some r) :
    happens .ksRecordDeferredWrite s (s.ksRelease r) := by
  change execKsRecordDeferredWrite s = _
  simp only [execKsRecordDeferredWrite, hpick]

/-! ## Grids -/

/-- R337: a grid on its way out that Grout has finished with leaves, and resolves its owner's futures. -/
theorem happens_gridEnd_reported {g : Grid} (hpick : s.ending.find? (fun g => g.openJobs = 0) = some g) :
    happens .gridEnd s (g.owner.futures.foldl (fun (t : State) r => t.resolve r g.statusWord)
      { s with ending := s.ending.filter (fun h => h.seq ≠ g.seq) }) := by
  change execGridEnd s = _
  simp only [execGridEnd, hpick]

/-- R337: while no grid on its way out is finished with, a grid whose last team has exited gives up its slot. -/
theorem happens_gridEnd_released {e : Nat × Grid} (hnone : s.ending.find? (fun g => g.openJobs = 0) = none)
    (hover : s.grids.find? (fun e => e.2.over) = some e) :
    happens .gridEnd s (State.fillSlots 1 { s with grids := sdel e.1 s.grids, ending := s.ending ++ [e.2.release] }) := by
  change execGridEnd s = _
  simp only [execGridEnd, hnone, hover]

/-! ## Quarry -/

/-- R346: a QLOADX whose slot is free takes effect. -/
theorem happens_qloadxComplete {m : Team} {o : QuarryOp}
    (hpick : s.pickQuarry (fun m o => !o.gemv && m.slotReady o) = some (m, o)) :
    happens .qloadxComplete s (s.qload s.focus.core s.focus.team m o) := by
  change execQloadxComplete s = _
  simp only [execQloadxComplete, hpick]

/-- R349: a QGEMV that has delivered everything ends, another delivers its next chunk. -/
theorem happens_qgemvComplete {m : Team} {o : QuarryOp}
    (hpick : s.pickQuarry (fun m o => o.gemv && (o.over || m.qmayRun o)) = some (m, o)) :
    happens .qgemvComplete s (if o.over then s.quarryEnd s.focus.core s.focus.team m o o.status
      else s.qrun s.focus.core s.focus.team m o) := by
  change execQgemvComplete s = _
  simp only [execQgemvComplete, hpick]
  cases o.over <;> rfl

/-- R349: the refused operand that is due is in flight again, and no longer with its operation. -/
theorem happens_quarryOperandResend {m : Team} {o : QuarryOp} {x : Operand}
    (hpick : s.pickQuarry (fun _ o => s.resendDue o) = some (m, o))
    (hdue : o.refused.find? (fun x => s.uncore ≥ x.since + 1024) = some x) :
    happens .quarryOperandResend s (State.modQuarry { s with ksFlight := s.ksFlight ++ [x] } s.focus.core s.focus.team o.id
      (fun o => { o with refused := dropFirst (· = x) o.refused })) := by
  change execQuarryOperandResend s = _
  simp only [execQuarryOperandResend, hpick, hdue]

/-- R352: an operation whose next rows cannot be read takes its turn, in which it stops or ends. -/
theorem happens_quarryAsyncFault {m : Team} {o : QuarryOp}
    (hpick : s.pickQuarry (fun m o => m.qmayRun o && s.qstops m o) = some (m, o)) :
    happens .quarryAsyncFault s (s.qrun s.focus.core s.focus.team m o) := by
  change execQuarryAsyncFault s = _
  simp only [execQuarryAsyncFault, hpick]

/-! ## The statement -/

/-- Settles O32, event by event; the windows, the records' expiry and Grout's two turns have one outcome each, which is their meaning
itself. -/
theorem engineEventsHaveTheirEffect : Obligations.EngineEventsHaveTheirEffect := by
  intro s c t
  refine ⟨?haulTurn, ?haulAhead, ?haulEnd, ?ashlar, rfl, ?arrive, ?orphan, rfl, ?retry, ?record, rfl, rfl, ?gridReported,
    ?gridReleased, ?qload, ?qgemv, ?resend, ?qfault, rfl⟩
  case haulTurn => exact fun _ => happens_haulUnitTransfer_turn
  case haulAhead => exact fun _ => happens_haulUnitTransfer_ahead
  case haulEnd =>
    intro o hover
    change execHaulOpComplete s = _
    cases hbar : o.bar <;> simp only [execHaulOpComplete, hover, hbar, c]
  case ashlar => exact fun _ _ _ _ => happens_ashlarOpComplete
  case arrive => exact fun _ => happens_ksOperandArrive
  case orphan => exact fun _ _ _ => happens_ksOrphanTimeout
  case retry => exact fun _ _ => happens_ksForwardRetry
  case record => exact fun _ => happens_ksRecordDeferredWrite
  case gridReported => exact fun _ => happens_gridEnd_reported
  case gridReleased => exact fun _ => happens_gridEnd_released
  case qload => exact fun _ _ => happens_qloadxComplete
  case qgemv => exact fun _ _ => happens_qgemvComplete
  case resend => exact fun _ _ _ => happens_quarryOperandResend
  case qfault => exact fun _ _ => happens_quarryAsyncFault

end Sys2Proof.Claims
end

section
/-! Ashlar words: what the bodies of its operation and setting words answer once their descriptors pass their checks, and what
MRDY and MSTAT wait for (R270 to R272, R284, R291). -/

namespace Sys2Proof.Claims

open Sys2Proof Sys2Proof.Machine

variable {i : Instr} {sh : Shape} {f : Full} {s : State} {act : Lanes} {d : List W32} {has : Bool}

/-! ## Operation words -/

/-- R271, R272: past its late ranks too, an operation word whose staging slot is free starts its operation. -/
theorem ashBody_of_checked {slot : Option Nat} {late : Team → List W32 → State → Option Trap}
    (hpoison : s.poisonTrap sh.srcs act = none) (hdesc : s.ashDesc f (s.ashOp sh f true []) has 3 = .ok d)
    (hlate : late s.ownScratch d s = none) (hfree : s.ashStaged slot = false) :
    ashBody sh f has slot late s act = s.startAsync f act 2 (bits f.fn.toNat 7 4) (State.ashMay slot)
      (State.ashStart slot { s.ashOp sh f true [] with desc := d }) := by
  simp only [ashBody, hpoison, hdesc, hlate, hfree, Bool.false_eq_true, if_false]

/-- The staging slot of the word may depend on the state that it finds, as that of a triggered stream does. -/
theorem ashlars_of_issue {slot : State → Option Nat} {late : Team → List W32 → State → Option Trap}
    (hi : exec i s = issue sh f s (fun u act => ashBody sh f has (slot u) late u act)) :
    ashlars i sh f s has (slot (found s)) late :=
  fun _ ⟨hr, hc⟩ hdesc hlate hfree =>
    starts_of_ready hi hr (ashBody_of_checked (poisonTrap_of_clean hc) hdesc hlate hfree)

/-- A word with no triggered form has no staging slot. -/
theorem ashlars_of_untriggered {late : Team → List W32 → State → Option Trap}
    (hi : exec i s = issue sh f s (ashBody sh f has none late)) : ashlars i sh f s has none late :=
  ashlars_of_issue (slot := fun _ => none) hi

/-! ## Setting words -/

/-- R271: a setting word that passes its checks enters engine order, once the engine has room. -/
theorem ashSetBody_of_checked {late : List W32 → Option Trap} (hpoison : s.poisonTrap sh.srcs act = none)
    (hdesc : s.ashDesc f (s.ashOp sh f false []) has 5 = .ok d) (hlate : late d = none) (hroom : s.ashRoom = true) :
    ashSetBody sh f has late s act = .retire { s := s.ashEnter { s.ashOp sh f false [] with desc := d } } := by
  simp only [ashSetBody, hpoison, hdesc, hlate, hroom, if_true]

theorem settles_of_issue {late : List W32 → Option Trap} (hi : exec i s = issue sh f s (ashSetBody sh f has late)) :
    settles i sh f s has late :=
  fun _ ⟨hr, hc⟩ hdesc hlate hroom =>
    retires_of_ready hi hr (ashSetBody_of_checked (poisonTrap_of_clean hc) hdesc hlate hroom)

/-! ## The statement -/

/-- Settles O20: the operation words differ in their descriptors and late ranks alone, and so do the setting words; MRDY and MSTAT
pass their waits. -/
theorem ashlarWordsEnterTheEngine : Obligations.AshlarWordsEnterTheEngine := by
  rintro f s t act rfl rfl desc drain apply trig stat
  refine ⟨?mldw, ?mswap, ?mstream, ?mrdy, ?mdrain, ?mapply, ?mzero, ?mcfg, ?mscale, ?mdmap, ?mstat⟩
  case mldw => exact ashlars_of_untriggered rfl
  case mswap => exact ashlars_of_untriggered rfl
  case mstream =>
    exact ashlars_of_issue (slot := fun u => if trig then some (bits (u.src f (asyncB f)).toNat 0 3) else none) rfl
  case mrdy =>
    exact fun hr hperformed => retires_of_ready rfl hr (if_neg (ne_true_of_eq_false hperformed))
  case mdrain => exact ashlars_of_untriggered rfl
  case mapply => exact ashlars_of_untriggered rfl
  case mzero => exact ashlars_of_untriggered rfl
  case mcfg => exact settles_of_issue rfl
  case mscale => exact settles_of_issue rfl
  case mdmap => exact settles_of_issue rfl
  case mstat =>
    rintro ⟨hr, hc⟩ hended
    refine retires_of_ready rfl hr ?_
    rw [poisonTrap_of_clean hc]
    exact if_neg (Nat.not_lt.mpr hended)

end Sys2Proof.Claims
end

section
/-! Keystone words: the tags that TAGA takes and TAGF gives back, the operand that KSEND and KSENDS send, and the counters and
settings of the context (R297 to R300, R309 to R313). -/

namespace Sys2Proof.Claims

open Sys2Proof Sys2Proof.Machine

variable {i : Instr} {sh : Shape} {f : Full} {s t : State} {act : Lanes}

/-- A word with no poisoned source retires with what its body answers past that check. -/
theorem retires_of_okay {us : List Use} {r : Retire} {body : State → Lanes → Effect} (hi : exec i s = issue sh f s body)
    (hokay : okay sh f s us)
    (hb : (found s).poisonTrap us (active f s) = none → body (found s) (active f s) = .retire r) : retires i sh f s r := by
  obtain ⟨hr, hc⟩ := hokay
  exact retires_of_ready hi hr (hb (poisonTrap_of_clean hc))

/-- As `starts_of_ready`, for a word whose checks change the state that it finds: it starts its operation from what they leave. -/
theorem starts_from_of_ready {engine scope : Nat} {room : State → Bool} {start : State → Option Word → State}
    {body : State → Lanes → Effect} (hi : exec i s = issue sh f s body) (hr : ready sh f s = true)
    (hb : body (found s) (active f s) = t.startAsync f (active f s) engine scope room start) :
    starts i sh f s t engine scope room start :=
  fun _ hopens hroom =>
    ⟨fun hreg => retires_of_ready hi hr (hb.trans (startAsync_unbound hopens hroom hreg)),
      fun _ _ _ hreg halloc => retires_of_ready hi hr (hb.trans (startAsync_bound hopens hroom hreg halloc))⟩

/-! ## Sending an operand -/

/-- The operand that a sending word forms (R302). -/
def sentOperand (f : Full) (s : State) (payload : List W32) (poison : List Nat) (ps : List Piece) (senders : List Sender) :
    Operand where
  tag := (s.src f (asyncB f)).setWidth 32
  payload := payload
  flags := (s.src f (asyncC f)).setWidth 32
  cdf := (s.src f (asyncB f)).extractLsb' 32 32
  scope := bits f.fn.toNat 7 4
  gridSlot := s.ownTeam.gridSlot
  target := ps
  poison := poison
  master := masterId 0 s.ownCtx
  senders := senders

/-- The start of a send: the operand is on its way, with the sender's handle `h` where the word has one. -/
def sendStart (operand : List Sender → Operand) (v : State) (h : Option Word) : State :=
  ({ v with ksFlight := v.ksFlight ++ [operand (h.map (fun h => Sender.future (v.ownRef h))).toList] } : State).noteProgress
    v.focus.core v.ownTeam.gridSlot h 3 0

/-- R311: past ranks 4 to 6 of R309, a sending word starts its send from the state `t` that its translation leaves. -/
theorem sendWord_of_checked {payload : List W32} {poison : List Nat} {ps : List Piece}
    (hcdf : badCdf ((s.src f (asyncB f)).extractLsb' 32 32) = false)
    (htag : s.tagTrap s.ownCtx ((s.src f (asyncB f)).setWidth 32) ((s.src f (asyncB f)).extractLsb' 32 32) = none)
    (htarget : s.ksTarget s.ownCtx ((s.src f (asyncB f)).setWidth 32) ((s.src f (asyncB f)).extractLsb' 32 32)
      (4 * payload.length) = (t, .ok ps)) :
    s.sendWord f act payload poison = t.startAsync f act 3 (bits f.fn.toNat 7 4) (fun _ => true)
      (sendStart (sentOperand f s payload poison ps)) := by
  simp only [State.sendWord, hcdf, htag, htarget, Bool.false_eq_true, if_false]
  congr 1
  funext v h
  cases h with
  | none => rfl
  | some _ => rfl

theorem sends_of_issue {payload : List W32} {poison : List Nat} {body : State → Lanes → Effect}
    (hi : exec i s = issue sh f s body)
    (hb : (found s).poisonTrap sh.srcs (active f s) = none →
      body (found s) (active f s) = (found s).sendWord f (active f s) payload poison) : sends i sh f s payload poison :=
  fun _ _ ⟨hr, hc⟩ hcdf htag htarget =>
    starts_from_of_ready hi hr ((hb (poisonTrap_of_clean hc)).trans (sendWord_of_checked hcdf htag htarget))

/-! ## The statement -/

/-- Settles O21: past the poison check that the words share, each clause is the branch of its word that the clause's premises
choose. -/
theorem keystoneWordsRetire : Obligations.KeystoneWordsRetire := by
  rintro f s t rfl b ctx taga tagf ctr dest tmo ovf n words a sel
  refine ⟨?taga, ?tagf, ?ksend, ?ksends, ?kstat, ?kstatCtr, ?kcfgDest, ?kcfgTmo, ?kcfgOvf⟩
  case taga =>
    refine fun hokay => ⟨fun x hpos hmax hfit => ?taken, fun hnone => ?refused⟩
    case taken =>
      refine retires_of_okay rfl hokay (fun hpoison => ?_)
      have hrun : (if n = 0 ∨ n > 65536 then none else ((found s).tagPool ctx).fit n) = some x :=
        (if_neg (by omega)).trans hfit
      rw [hpoison]
      dsimp only
      rw [hrun]
    case refused =>
      refine retires_of_okay rfl hokay (fun hpoison => ?_)
      have hrun : (if n = 0 ∨ n > 65536 then none else ((found s).tagPool ctx).fit n) = none :=
        ite_eq_left_iff.2 (or_assoc.2 hnone).resolve_left
      rw [hpoison]
      dsimp only
      rw [hrun]
  case tagf =>
    refine fun hokay hvalid => retires_of_okay rfl hokay (fun hpoison => ?_)
    rw [hpoison]
    dsimp only
    rw [hvalid]
  case ksend =>
    exact fun hrange => sends_of_issue rfl (fun hpoison => by rw [hpoison]; exact if_neg (ne_true_of_eq_false hrange))
  case ksends => exact sends_of_issue rfl (fun hpoison => by rw [hpoison])
  case kstat => exact tells_of_issue rfl rfl (fun hpoison => by rw [hpoison])
  case kstatCtr => exact fun hokay => retires_of_okay rfl hokay (fun hpoison => by rw [hpoison])
  case kcfgDest =>
    intro hokay hrange hclean himage hindex
    refine retires_of_okay rfl hokay (fun hpoison => ?_)
    rw [hpoison]
    refine (if_neg (ne_true_of_eq_false hrange)).trans ((if_neg (ne_true_of_eq_false hclean)).trans ?_)
    rw [himage]
    exact if_neg (Nat.not_le.mpr hindex)
  case kcfgTmo => exact fun hokay => retires_of_okay rfl hokay (fun hpoison => by rw [hpoison])
  case kcfgOvf => exact fun hokay => retires_of_okay rfl hokay (fun hpoison => by rw [hpoison])

end Sys2Proof.Claims
end

section
/-! Dispenser words: the items that FETCH answers and TDONE declares, and the settings and counts of the group's grid (R331 to R335). -/

namespace Sys2Proof.Claims

open Sys2Proof Sys2Proof.Machine

variable {i : Instr} {f : Full} {s : State}

/-- R333: a GCFG word whose value lies within its limits sets its field of the grid. -/
theorem retires_of_gcfgWord {bad : Nat → Bool} {set : Grid → Nat → Grid} (hi : exec i s = gcfgWord f s bad set)
    (hokay : okay (gcfgShape f) f s (gcfgShape f).srcs)
    (hgood : bad ((found s).src f (asyncB f)).toNat = false) :
    retires i (gcfgShape f) f s
      { s := (found s).modOwnGrid (fun g => set g ((found s).src f (asyncB f)).toNat) } :=
  retires_of_okay hi hokay (fun hpoison => by rw [hpoison]; exact if_neg (ne_true_of_eq_false hgood))

/-- Settles O22: each clause is the branch of its word that a grid, or the firmware slot's lack of one, chooses. -/
theorem dispenserWordsRetire : Obligations.DispenserWordsRetire := by
  rintro f s t act rfl rfl b gcfg
  refine ⟨?fetch, ?tdone, ?gcfg, ?grid, ?firmware⟩
  case fetch =>
    intro hr
    exact ⟨fun g hgrid => retires_of_ready rfl hr (by rw [hgrid]),
      fun hnone => retires_of_ready rfl hr (by rw [hnone]; rfl)⟩
  case tdone =>
    intro u hokay hopens
    exact retires_of_okay rfl hokay (fun hpoison => by rw [hpoison]; exact released_of_opens hopens)
  case gcfg =>
    intro hokay
    refine ⟨fun hgood => ?_, fun hgood => ?_, ?_⟩
    · exact retires_of_gcfgWord (bad := fun b => badTarget (bits b 0 16))
        (set := fun g b => { g with target := BitVec.ofNat 16 b }) rfl hokay hgood
    · exact retires_of_gcfgWord (bad := fun b => bits b 0 3 = 7)
        (set := fun g b => if g.adapt then { g with rung := min (bits b 0 3) g.start, lowrun := false } else g) rfl hokay
        (decide_eq_false hgood)
    · exact retires_of_gcfgWord (bad := fun _ => false) (set := fun g b => { g with probeCode := bits b 0 2 }) rfl hokay rfl
  case grid =>
    refine fun g hgrid => ⟨fun hokay => ?_, fun hokay hover => ?_⟩
    · exact retires_of_okay rfl hokay (fun hpoison => by rw [hpoison, hgrid])
    · exact retires_of_okay rfl hokay (fun hpoison => by rw [hpoison, hgrid]; exact if_pos hover)
  case firmware =>
    refine fun hnone => ⟨fun hokay => ?_, fun hokay => ?_⟩
    · exact retires_of_okay rfl hokay (fun hpoison => by rw [hpoison, hnone]; rfl)
    · exact retires_of_okay rfl hokay (fun hpoison => by rw [hpoison, hnone]; rfl)

end Sys2Proof.Claims
end

section
/-! Quarry words: the operations that QLOADX and QGEMV enter in the team's order, and what QFENCE waits for (R343 to R353). -/

namespace Sys2Proof.Claims

open Sys2Proof Sys2Proof.Machine

variable {i : Instr} {sh : Shape} {f : Full} {s t u : State} {act : Lanes} {engine scope : Nat} {room : State → Bool}
  {start : State → Option Word → State} {full : State → Effect}

/-- R38: what a word does while its engine is full does not matter once there is room. -/
theorem startAsync_of_room (hopens : opens s act true scope t) (hroom : room t = true) :
    s.startAsync f act engine scope room start full = s.startAsync f act engine scope room start := by
  simp only [State.startAsync, released_of_opens hopens, hroom, if_true]

/-- As `starts_from_of_ready`, for a word with a meaning of its own while its engine is full. -/
theorem starts_from_of_ready_full {body : State → Lanes → Effect} (hi : exec i s = issue sh f s body) (hr : ready sh f s = true)
    (hb : body (found s) (active f s) = t.startAsync f (active f s) engine scope room start full) :
    starts i sh f s t engine scope room start :=
  fun _ hopens hroom =>
    have hstart := hb.trans (startAsync_of_room hopens hroom)
    ⟨fun hreg => retires_of_ready hi hr (hstart.trans (startAsync_unbound hopens hroom hreg)),
      fun _ _ _ hreg halloc => retires_of_ready hi hr (hstart.trans (startAsync_bound hopens hroom hreg halloc))⟩

/-- Settles O23: past the checks of R345 the two operation words enter the team's order; each fence passes its own waits. -/
theorem quarryWordsRetire : Obligations.QuarryWordsRetire := by
  rintro f s t u act rfl rfl a n fmt load ks gfmt gemv o0 o room st
  refine ⟨?qloadx, ?qgemv, ?qfenceW, ?qfenceR, ?qstat, ?qstatSt⟩
  case qloadx =>
    rintro ⟨hr, hc⟩ hpos hmax hrange
    have hin : ¬ (n ≠ 0 && (found s).ownTeam.spBeyond a (n * ifmtBytes fmt)) = true := by simp [hrange]
    refine starts_from_of_ready_full (full := fun s => .settled s.haltHere) rfl hr ?_
    rw [poisonTrap_of_clean hc]
    exact (if_neg hin).trans (if_neg (by omega))
  case qgemv =>
    rintro ⟨hr, hc⟩ hcdf hchecked
    have hflags : ¬ (ks && badCdf o.cval) = true := by
      cases hks : ks with
      | false => simp
      | true => simp [hcdf hks]
    refine starts_from_of_ready_full (full := fun s => .settled s.haltHere) rfl hr ((if_neg hflags).trans ?_)
    rw [poisonTrap_of_clean hc]
    dsimp only
    rw [hchecked]
  case qfenceW =>
    exact fun hr hcancelled hopens =>
      retires_of_ready rfl hr ((if_neg (not_not_intro hcancelled)).trans (released_of_opens hopens))
  case qfenceR =>
    intro hr hidle
    refine ⟨retires_of_ready rfl hr (if_neg (ne_true_of_eq_false hidle)), fun hcancelled hopens => ?_⟩
    have hgoes : ¬ ((found s).ownQuarry || (found s).own.cancelled ≠ []) = true := by simp [hidle, hcancelled]
    exact retires_of_ready rfl hr ((if_neg hgoes).trans (released_of_opens hopens))
  case qstat => exact tells_of_issue rfl rfl (fun hpoison => by rw [hpoison])
  case qstatSt => exact fun hokay => retires_of_okay rfl hokay (fun hpoison => by rw [hpoison] <;> rfl)

end Sys2Proof.Claims
end

section
/-! Lintel words of a group: the collective that LLAUNCH starts, and the flags and slots that LFLAG, LWAIT and LSTAT name (R396 to
R400). -/

namespace Sys2Proof.Claims

open Sys2Proof Sys2Proof.Machine

variable {f : Full} {s : State} {act : Lanes} {k : Nat → Nat → Nat → Effect} {p : Nat}

/-! ## Slots of one port -/

/-- R396: a slot of another context refuses the word, which is reported. -/
theorem oneSlot_denied (hport : selPorts (s.src f (asyncA f)) = [p])
    (hother : s.slotOwner p (selSlot (s.src f (asyncA f))) ≠ s.ownCtx) :
    s.oneSlot f act k = .retire { s := s.denySlot act 1 } := by
  simp only [State.oneSlot, hport]
  exact if_pos hother

/-- R396: the word has its effect on a slot of the group's own context. -/
theorem oneSlot_owned (hport : selPorts (s.src f (asyncA f)) = [p])
    (howner : s.slotOwner p (selSlot (s.src f (asyncA f))) = s.ownCtx) :
    s.oneSlot f act k = k p (selSlot (s.src f (asyncA f))) (selFlag (s.src f (asyncA f))) := by
  simp only [State.oneSlot, hport]
  exact if_neg (not_not_intro howner)

/-! ## LFLAG -/

/-- R398: past its checks LFLAG changes the flags of the slots that the group's context owns, and reports the others. -/
theorem lflagBody_of_checked {set : Bool} {u : State} (hpoison : s.poisonTrap [asyncA f, asyncB f] act = none)
    (hports : selPorts (s.src f (asyncA f)) ≠ []) (hopens : opens s act true 8 u) :
    lflagBody f set s act =
      let sel := s.src f (asyncA f)
      let w := (selPorts sel).foldl (State.flagAt (selSlot sel) (selFlag sel) set ((s.src f (asyncB f)).setWidth 32)) u
      .retire { s := if (selPorts sel).any (fun p => u.slotOwner p (selSlot sel) ≠ u.ownCtx) then w.denySlot act 2 else w } := by
  simp only [lflagBody, hpoison]
  exact (if_neg hports).trans (released_of_opens hopens)

/-- Settles O24: past its checks each word has the effect that the slot's owner, the flag or the record chooses. -/
theorem lintelWordsRetire : Obligations.LintelWordsRetire := by
  rintro f s t u v act rfl rfl sel ports i fl b flag value
  refine ⟨?llaunch, ?lflag, fun p hport => ⟨fun hokay => ⟨fun hother => ?lwaitDenied, fun howner hends => ?lwait⟩,
    fun hokay => ⟨fun hother => ?lstatDenied, fun howner => ?lstat⟩⟩⟩
  case llaunch =>
    rintro bs ⟨hr, hc⟩ haligned hopens hread ws l hvalid htrigger
    have hbase : ¬ (active f s ≠ 0 ∧ sel.toNat % 64 ≠ 0) := fun h => h.2 haligned
    have hstaged : ¬ (l.trigEn && (sfind (l.f 9 33 2) v.ownTeam.lintelStaged).isSome) = true := by
      rw [Bool.and_eq_true]
      exact fun h => ne_true_of_eq_false (htrigger h.1) h.2
    refine ⟨fun hreg => ?unbound, fun r h w hreg halloc => ?bound⟩
    all_goals
      refine retires_of_ready rfl hr ((if_neg hbase).trans ?_)
      rw [poisonTrap_of_clean hc]
      dsimp only
      rw [released_of_opens hopens, hread]
      dsimp only
      rw [hvalid]
      refine (if_neg hstaged).trans ?_
      rw [hreg]
    case bound =>
      dsimp only
      rw [halloc]
  case lflag =>
    rintro ⟨hr, hc⟩ hports hopens
    have hpoison := poisonTrap_of_clean hc
    exact ⟨retires_of_ready rfl hr (lflagBody_of_checked hpoison hports hopens),
      retires_of_ready rfl hr (lflagBody_of_checked hpoison hports hopens)⟩
  case lwaitDenied => exact retires_of_okay rfl hokay (fun hpoison => by rw [hpoison]; exact oneSlot_denied hport hother)
  case lwait =>
    refine retires_of_okay rfl hokay (fun hpoison => ?_)
    rw [hpoison]
    exact (oneSlot_owned hport howner).trans (if_pos (by rw [Bool.or_eq_true]; exact hends))
  case lstatDenied => exact retires_of_okay rfl hokay (fun hpoison => by rw [hpoison]; exact oneSlot_denied hport hother)
  case lstat =>
    exact retires_of_okay rfl hokay (fun hpoison => by rw [hpoison]; exact oneSlot_owned hport howner)

end Sys2Proof.Claims
end

section
/-! Words of a sequencer program: the register, branch and flag words, and the checks that a chunk word passes before it moves its
chunk (R378, R382 to R386). -/

namespace Sys2Proof.Claims

open Sys2Proof Sys2Proof.Machine

variable {i : Instr} {s : State} {q : SeqWord} {u : SeqUses} {p n : Nat} {t : Slot}

/-! ## Issuing -/

/-- A word of the slot that runs has its meaning there (R376). -/
theorem seqIssue_of_slotRuns {body : State → Nat → Nat → Slot → State} {r : State} (hruns : slotRuns s)
    (hb : body s s.focus.port s.focus.slot (s.slot s.focus.port s.focus.slot) = r) : seqIssue s body = .next r := by
  obtain ⟨hstate, hcurrent, hsending⟩ := hruns
  exact (if_pos ⟨hstate, hcurrent, by rw [hsending]; rfl⟩).trans (congrArg _ hb)

/-! ## Register, branch and flag words -/

theorem plainWord_of_legal {next : Int} {f : Slot → Slot} (hbad : u.bad q = false) (hlow : 0 ≤ next) (hhigh : next ≤ 511) :
    s.plainWord p n u q next f = s.plainDone p n (fun t => { f t with pc := next.toNat }) :=
  (if_neg (ne_true_of_eq_false hbad)).trans (if_neg (by omega))

/-- CAUSE 4: no word goes on to an instruction outside the program. -/
theorem plainWord_of_outside {next : Int} {f : Slot → Slot} (hbad : u.bad q = false) (hout : next < 0 ∨ 511 < next) :
    s.plainWord p n u q next f = s.seqIllegal p n 4 :=
  (if_neg (ne_true_of_eq_false hbad)).trans (if_pos hout)

/-- A word whose body is a plain word that goes on at `next`. -/
theorem goesOn_of_plainWord {body : State → Nat → Nat → Slot → State} {next : Int} {f : Slot → Slot}
    (hi : exec i s = seqIssue s body)
    (hb : body s s.focus.port s.focus.slot (s.slot s.focus.port s.focus.slot)
      = s.plainWord s.focus.port s.focus.slot u q next f) : goesOn i s u q next f :=
  fun hruns hbad hlow hhigh => hi.trans <| seqIssue_of_slotRuns hruns (hb.trans (plainWord_of_legal hbad hlow hhigh))

/-- A branch whose target lies in the program goes there when it is taken. -/
theorem branchNext_of_inside {taken : Bool} (hlow : 0 ≤ t.seqTarget q) (hhigh : t.seqTarget q ≤ 511) :
    t.branchNext q taken = if taken then t.seqTarget q else t.seqNext := by
  have hin : decide (t.seqTarget q < 0 ∨ t.seqTarget q > 511) = false := decide_eq_false (by omega)
  simp only [Slot.branchNext, hin, Bool.or_false]

/-- Log 37: a target outside the program counts whether or not the branch is taken. -/
theorem branchNext_of_outside {taken : Bool} (hout : t.seqTarget q < 0 ∨ 511 < t.seqTarget q) :
    t.branchNext q taken = t.seqTarget q :=
  if_pos (by rw [Bool.or_eq_true]; exact .inr (decide_eq_true hout))

/-- A branch of a legal form halts its slot when its target lies outside the program. -/
theorem branchWord_of_outside {taken : Bool} {f : Slot → Slot} (hbad : u.bad q = false)
    (hout : t.seqTarget q < 0 ∨ 511 < t.seqTarget q) : s.plainWord p n u q (t.branchNext q taken) f = s.seqIllegal p n 4 := by
  rw [branchNext_of_outside hout]
  exact plainWord_of_outside hbad hout

/-- Settles O25: each word's body is the plain word, or the branch of its meaning, that its clause names. -/
theorem sequencerPlainWordsComplete : Obligations.SequencerPlainWordsComplete := by
  intro q s p n t m0 next target a
  refine ⟨?nop, ?movi, ?addi, ?add, fun hlow hhigh => ⟨?loop, ?bnz⟩, fun hout hruns => ⟨?loopOut, ?bnzOut⟩, ?waitfPasses, ?waitfWaits,
    ?sigf, ?sigfPeer, ?yield, ?halt⟩
  case nop => exact goesOn_of_plainWord (show execSeqNop q s = _ from rfl) rfl
  case movi => exact goesOn_of_plainWord (show execMovi q s = _ from rfl) rfl
  case addi =>
    have hi : exec (.addi q) s = seqIssue s (fun s p n t => s.plainWord p n { ca := true, cb := true, cc := m0, imm := true, md := 1 } q
        t.seqNext (fun u => u.setC q.ca (addiValue m0 (u.c q.cb) (u.c q.cc) q.imm))) := rfl
    exact goesOn_of_plainWord hi rfl
  case add => exact goesOn_of_plainWord (show execSeqAdd q s = _ from rfl) rfl
  case loop =>
    have hgo : t.branchNext q (a - 1 ≠ 0) = if a - 1 ≠ 0 then target else next := by
      rw [branchNext_of_inside hlow hhigh]
      simp only [decide_eq_true_eq]
      rfl
    exact goesOn_of_plainWord (show execSeqLoop q s = _ from rfl) (by rw [← hgo])
  case bnz =>
    have hgo : t.branchNext q (decide (a ≠ 0) != m0) = if (decide (a ≠ 0) != m0) = true then target else next :=
      branchNext_of_inside hlow hhigh
    exact goesOn_of_plainWord (show execBnz q s = _ from rfl) (by rw [← hgo])
  case loopOut =>
    exact fun hbad => (show execSeqLoop q s = _ from seqIssue_of_slotRuns hruns (branchWord_of_outside hbad hout))
  case bnzOut =>
    exact fun hbad => (show execBnz q s = _ from seqIssue_of_slotRuns hruns (branchWord_of_outside hbad hout))
  case waitfPasses =>
    exact fun hreached => goesOn_of_plainWord (show execWaitf q s = _ from rfl) (if_pos (.inr (.inr hreached)))
  case waitfWaits =>
    intro hruns hbad hnext hreached
    refine show execWaitf q s = _ from seqIssue_of_slotRuns hruns (if_neg ?_)
    rintro (h | (h : t.pc + 1 > 511) | h)
    · exact ne_true_of_eq_false hbad h
    · omega
    · exact ne_true_of_eq_false hreached h
  case sigf =>
    intro hruns hbad hnext
    have hok : (!SeqUses.bad { fi := true, imm := true, md := 1 } q && decide (t.pc + 1 ≤ 511)) = true := by
      rw [hbad, Bool.not_false, Bool.true_and, decide_eq_true_iff]
      omega
    refine show execSigf q s = _ from seqIssue_of_slotRuns hruns ?_
    dsimp only
    rw [if_pos hok]
    exact plainWord_of_legal hbad (by omega : 0 ≤ next) hnext
  case sigfPeer =>
    intro hruns hbad hnext hpeer
    have hin : ¬ t.pc + 1 > 511 := by omega
    exact show execSigfPeer q s = _ from seqIssue_of_slotRuns hruns
      ((if_neg (ne_true_of_eq_false hbad)).trans ((if_neg hin).trans (if_neg (Nat.not_lt.mpr hpeer))))
  case yield => exact goesOn_of_plainWord (show execSeqYield q s = _ from rfl) rfl
  case halt =>
    exact fun hruns hbad =>
      (show execSeqHalt q s = _ from seqIssue_of_slotRuns hruns (if_neg (ne_true_of_eq_false hbad)))

/-! ## Chunk words -/

/-- R382: past steps 1 and 2, with its ranges mapped, a chunk instruction performs. -/
theorem chunkStep_of_checked {c : ChunkForm} {s1 s2 : State} {rs ws : List Span}
    (hdst : ∀ d, c.send = some d → d ≤ s.maxpkg)
    (hlen : ∀ ch, c.recv.bind (s.slot p n).chunkFrom = some ch → 4 * ch.elems.length = c.len)
    (hmove : (s.slot p n).canMove c = true) (hread : s.chunkSpans (s.slotOwner p n) c.len c.read 1 = (s1, .ok rs))
    (hwrite : s1.chunkSpans (s.slotOwner p n) c.len c.write 2 = (s2, .ok ws)) :
    s.chunkStep p n c = s2.chunkPerform p n c rs ws := by
  have hsend : c.send.filter (fun d => decide (s.maxpkg < d ∧ d ≠ treeUnit)) = none := by
    rw [Option.filter_eq_none_iff]
    intro d hd hbeyond
    exact absurd (of_decide_eq_true hbeyond).1 (Nat.not_lt.mpr (hdst d hd))
  have hfits : ¬ c.recv.any (fun src => (s.slot p n).wrongLen src c.len) = true := by
    cases hrecv : c.recv with
    | none => simp
    | some src =>
      rw [hrecv] at hlen
      cases hstaged : (s.slot p n).chunkFrom src with
      | none => simp [Slot.wrongLen, hstaged]
      | some ch => simp [Slot.wrongLen, hstaged, hlen ch hstaged]
  have hgoes : ¬ (!(s.slot p n).canMove c) = true := by simp [hmove]
  simp only [State.chunkStep, hsend, if_neg hfits, if_neg hgoes, hread, hwrite]

/-- A word whose body is the chunk word of the form `c`. -/
theorem moves_of_chunkWord {body : State → Nat → Nat → Slot → State} {combines : Bool} {c : ChunkForm}
    (hi : exec i s = seqIssue s body)
    (hb : body s s.focus.port s.focus.slot (s.slot s.focus.port s.focus.slot)
      = s.chunkWord s.focus.port s.focus.slot (s.slot s.focus.port s.focus.slot) u q combines c) : moves i s u q combines c := by
  intro s1 s2 rs ws hruns hcause hdst hlen hmove hread hwrite
  refine hi.trans <| seqIssue_of_slotRuns hruns (hb.trans ?_)
  simp only [State.chunkWord, hcause]
  exact chunkStep_of_checked hdst hlen hmove hread hwrite

/-- Settles O26: the seven words differ in their forms alone. -/
theorem sequencerChunkWordsMoveTheirChunk : Obligations.SequencerChunkWordsMoveTheirChunk := by
  intro q s t a c src dst len cop st
  refine ⟨?xmit, ?rcvst, ?rcvcmb, ?rcvcf, ?rcvfw, ?scaleEnc, ?scaleDec⟩
  case xmit => exact moves_of_chunkWord (show execXmit q s = _ from rfl) rfl
  case rcvst => exact moves_of_chunkWord (show execRcvst q s = _ from rfl) rfl
  case rcvcmb => exact moves_of_chunkWord (show execRcvcmb q s = _ from rfl) rfl
  case rcvcf => exact moves_of_chunkWord (show execRcvcf q s = _ from rfl) rfl
  case rcvfw => exact moves_of_chunkWord (show execRcvfw q s = _ from rfl) rfl
  case scaleEnc => exact moves_of_chunkWord (show execScaleEnc q s = _ from rfl) rfl
  case scaleDec => exact moves_of_chunkWord (show execScaleDec q s = _ from rfl) rfl

end Sys2Proof.Claims
end

section
/-! The end of a send that DST has not staged within FZ_TIMEOUT (R382, R385): it gives its credit back (log 36). -/

namespace Sys2Proof.Claims

open Sys2Proof Sys2Proof.Machine

/-- Slot 0 of port 0 has sent a chunk to package 1, for which one credit is in use, and FZ_TIMEOUT has passed since. -/
def lateChunk : State :=
  { State.reset with
    ticks := 12 * 100000
    seqs := [(0, { slots := [(0, { credits := [(1, 1)], sending := some { dst := 1, peer := false, since := 0 } })] })] }

/-- How many credits for package 1 slot 0 of port 0 has in use in the next state. -/
def creditsAfter : Host.Outcome State Fault Refusal → Nat
  | .next t => sget 0 (t.slot 0 0).credits 1
  | _ => 0

/-- The timeout of a chunk returns its credit before the slot traps. -/
theorem creditsAfter_seqSendTimeout_lateChunk : creditsAfter (exec .seqSendTimeout lateChunk) = 0 := by decide +kernel

/-- The trap alone leaves the credit in use. -/
theorem creditsAfter_seqTrap_lateChunk :
    creditsAfter (.next (lateChunk.seqTrap 0 0 { code := 0x18, operand := 2, addr := 1 })) = 1 := by decide +kernel

/-- Refutes O33: the clause of SEQ_SEND_TIMEOUT takes the trap alone, while a chunk that was not staged gives its credit back as
well. -/
theorem not_sequencerEventsHaveTheirEffect : ¬ Obligations.SequencerEventsHaveTheirEffect := by
  intro h
  obtain ⟨-, -, -, -, -, -, -, -, -, -, -, htimeout, -⟩ := h lateChunk
  have hnext : exec .seqSendTimeout lateChunk = .next (lateChunk.seqTrap 0 0 { code := 0x18, operand := 2, addr := 1 }) :=
    htimeout { dst := 1, peer := false, since := 0 } (by decide +kernel) (by decide +kernel)
  have hcredits := congrArg creditsAfter hnext
  rw [creditsAfter_seqSendTimeout_lateChunk, creditsAfter_seqTrap_lateChunk] at hcredits
  exact absurd hcredits (by decide)

end Sys2Proof.Claims
end

section
/-! Events of the ports: what a link sends and receives, and the ends of requests and gaps (R358 to R372). -/

namespace Sys2Proof.Claims

open Sys2Proof Sys2Proof.Machine

variable {s : State}

/-! ## Training (R368) -/

section

variable (hon : (s.portReg s.focus.port 0).getLsbD 0 = true) (hdown : s.linkUp s.focus.port = false)
include hon hdown

/-- A training with ENC_EN = 0 that the other end does not fail succeeds, and leaves installed keys alone (log 39). -/
theorem happens_linkTrain_plain (hends : s.input ≠ .flag false) (henc : (s.portReg s.focus.port 0).getLsbD 1 = false) :
    happens .linkTrain s (s.linkTrained s.focus.port false) := by
  change execLinkTrain s = _
  simp only [execLinkTrain, hon, hdown, henc, hends, Bool.not_true, Bool.not_false, Bool.false_or, Bool.false_and, Bool.false_eq_true,
    if_false, if_true]

/-- A training with ENC_EN = 1 and no keys waits for them. -/
theorem happens_linkTrain_keyless (henc : (s.portReg s.focus.port 0).getLsbD 1 = true)
    (hkeys : (s.port s.focus.port).installed = none) : happens .linkTrain s (s.setLink s.focus.port 3 false) := by
  change execLinkTrain s = _
  simp only [execLinkTrain, hon, hdown, henc, hkeys, Option.isNone_none, Bool.not_true, Bool.false_or, Bool.and_self,
    Bool.false_eq_true, if_false, if_true]

/-- A training with ENC_EN = 1 takes the installed keys into use. -/
theorem happens_linkTrain_keyed {k : LinkKeys} (hends : s.input ≠ .flag false)
    (henc : (s.portReg s.focus.port 0).getLsbD 1 = true) (hkeys : (s.port s.focus.port).installed = some k) :
    happens .linkTrain s
      (((s.modPort s.focus.port (fun q => { q with keys := k, installed := none })).setReg (offPort s.focus.port + 0x60) 0).linkTrained
        s.focus.port true) := by
  change execLinkTrain s = _
  simp only [execLinkTrain, hon, hdown, henc, hkeys, hends, Option.isNone_some, Bool.not_true, Bool.false_or, Bool.and_false,
    Bool.false_eq_true, if_false]

end

/-! ## Flits (R367, R369) -/

section

variable (hup : s.linkUp s.focus.port = true)
include hup

theorem happens_flitTransmit_askReplay (hask : (s.port s.focus.port).askReplay = true) :
    happens .flitTransmit s ((s.modPort s.focus.port (fun q => { q with askReplay := false })).newFlit s.focus.port 3
      (bytesOfNat 2 (s.port s.focus.port).rxSeq)) := by
  change execFlitTransmit s = _
  simp [execFlitTransmit, hup, hask]

/-- A flit to send again goes ahead of new ones. -/
theorem happens_flitTransmit_replay {n : Nat} {rest : List Nat} {e : Nat × List Byte}
    (hask : (s.port s.focus.port).askReplay = false) (hreplay : (s.port s.focus.port).replay = n :: rest)
    (hkept : (s.port s.focus.port).retry.find? (fun e => e.1 = n) = some e) :
    happens .flitTransmit s (((s.modPort s.focus.port (fun q => { q with replay := rest })).incReg
      (offPort s.focus.port + 0x88)).putFlit s.focus.port e.2) := by
  change execFlitTransmit s = _
  simp only [execFlitTransmit, hup, hask, hreplay, hkept, Bool.not_true, Bool.false_eq_true, if_false]

theorem happens_flitTransmit_data {start : Bool} {bs : List Byte} (hask : (s.port s.focus.port).askReplay = false)
    (hreplay : (s.port s.focus.port).replay = []) (hin : s.input = .packetData start bs) :
    happens .flitTransmit s (s.newFlit s.focus.port (if start then 1 else 2) bs) := by
  change execFlitTransmit s = _
  simp only [execFlitTransmit, hup, hask, hreplay, hin, Bool.not_true, Bool.false_eq_true, if_false]

theorem happens_flitTransmit_idle (hask : (s.port s.focus.port).askReplay = false)
    (hreplay : (s.port s.focus.port).replay = []) (hin : s.input = .none) :
    happens .flitTransmit s (s.fillData.2.draw.2.putFlit s.focus.port
      (linkHeader s.fillData.2.draw.1.toNat (s.port s.focus.port).ack 0 ++ s.fillData.1)) := by
  change execFlitTransmit s = _
  simp only [execFlitTransmit, hup, hask, hreplay, hin, Bool.not_true, Bool.false_eq_true, if_false]

end

/-! ## The ends of requests and gaps (R360, R362, R364) -/

theorem happens_remoteRequestArrive_off {r : RemoteRequest} (hin : s.input = .request r)
    (hoff : (s.portReg s.focus.port 0).getLsbD 0 = false) :
    happens .remoteRequestArrive s (s.answer s.focus.port r .ingressOff) := by
  change execRemoteRequestArrive s = _
  simp only [execRemoteRequestArrive, hin, hoff, Bool.not_false, if_true]

/-- A request that is not behind its pair's sequence is held, and what is next in sequence performs. -/
theorem happens_remoteRequestArrive_held {r : RemoteRequest} (hin : s.input = .request r)
    (hon : (s.portReg s.focus.port 0).getLsbD 0 = true)
    (hnext : (s.ingressSeq s.focus.port (ingressKey r.package r.srcPort)).next ≤ r.seq) :
    happens .remoteRequestArrive s
      (let k := ingressKey r.package r.srcPort
       let g := s.ingressSeq s.focus.port k
       State.drainIngress s.focus.port k (g.held.length + 2) (s.setIngressSeq s.focus.port k { g with held := g.held ++ [r] })) := by
  change execRemoteRequestArrive s = _
  simp only [execRemoteRequestArrive, hin, hon, Bool.not_true, Bool.false_eq_true, if_false]
  exact if_neg (Nat.not_lt.mpr hnext)

theorem happens_remoteResponseArrive {r : RemoteResponse} {o : Outstanding} (hin : s.input = .response r)
    (hfind : (s.port s.focus.port).outstanding.find? (fun o => o.id = s.focus.number ∧ !o.reported) = some o) :
    happens .remoteResponseArrive s (match r with
      | .refused => s.failRequest s.focus.port o 0x15 0
      | .ingressOff => s.failRequest s.focus.port o 0x18 3
      | .ack => s.acked s.focus.port o
      | r => s.returned s.focus.port o r) := by
  change execRemoteResponseArrive s = _
  simp only [execRemoteResponseArrive, hin, hfind]
  cases r <;> rfl

/-- A gap that has lasted for FZ_TIMEOUT is skipped, up to the lowest number held. -/
theorem happens_fzGapTimeout {t : Nat} {r : RemoteRequest} {rest : List RemoteRequest}
    (hgap : (s.ingressSeq s.focus.port s.focus.number).gapSince = some t)
    (hheld : (s.ingressSeq s.focus.port s.focus.number).held = r :: rest) (hover : t + s.fzTimeout ≤ s.ns) :
    happens .fzGapTimeout s
      (let g := s.ingressSeq s.focus.port s.focus.number
       State.drainIngress s.focus.port s.focus.number (g.held.length + 2) (s.setIngressSeq s.focus.port s.focus.number
         { g with next := rest.foldl (fun m x => min m x.seq) r.seq, gapSince := none })) := by
  change execFzGapTimeout s = _
  simp only [execFzGapTimeout, hgap, hheld]
  exact if_neg (Nat.not_lt.mpr hover)

theorem happens_fzRequestTimeout {o : Outstanding}
    (hfind : (s.port s.focus.port).outstanding.find? (fun o => o.id = s.focus.number ∧ !o.reported) = some o)
    (hover : o.since + s.fzTimeout ≤ s.ns) :
    happens .fzRequestTimeout s (s.failRequest s.focus.port o 0x18
      (if ((s.port s.focus.port).downSince.map (fun t => decide (t ≤ o.since))).getD false then 1 else 2)) := by
  change execFzRequestTimeout s = _
  simp only [execFzRequestTimeout, hfind]
  exact if_neg (Nat.not_lt.mpr hover)

/-! ## The statement -/

/-- Settles O37, event by event; keys, a link that goes down and remap writes have one outcome each, which is their meaning itself. -/
theorem portEventsHaveTheirEffect : Obligations.PortEventsHaveTheirEffect := by
  intro s p q
  refine ⟨rfl, rfl, ?train, ?transmit, ?receive, ?remapWrite, ?remap, ?pkgcfg, ?request, ?response, ?gap, ?timeout⟩
  case train =>
    exact fun hon hdown hends => ⟨happens_linkTrain_plain hon hdown hends, happens_linkTrain_keyless hon hdown,
      fun _ => happens_linkTrain_keyed hon hdown hends⟩
  case transmit =>
    exact fun hup => ⟨happens_flitTransmit_askReplay hup, fun _ _ _ => happens_flitTransmit_replay hup,
      fun _ _ => happens_flitTransmit_data hup, happens_flitTransmit_idle hup⟩
  case receive =>
    intro f hin hup o u bs ct good keys iv
    have hexec : exec .flitReceive s = if ¬ good then .next (u.badFlit p 0x78) else if !s.encOn p then .next (u.takeFlit p ct)
        else if gcmTag keys iv ct = (bs.drop 48).take 12 then .next (u.takeFlit p (gcmCrypt keys iv ct)) else
          let v := (u.badFlit p 0x80).modPort p (fun q => { q with authFails := q.authFails + 1 })
          .next (if (v.port p).authFails > v.regBits (offPort p + 0x90) 0 16 then v.linkDown p else v) := by
      change execFlitReceive s = _
      rw [execFlitReceive, hin]
      dsimp only
      rw [hup]
      rfl
    refine ⟨fun hbad => ?_, fun hgood hplain => ?_, fun hgood henc htag => ?_, fun hgood henc htag => ?_⟩
    · exact hexec.trans (if_pos hbad)
    · exact hexec.trans ((if_neg (not_not_intro hgood)).trans (if_pos (by rw [hplain]; rfl)))
    · exact hexec.trans ((if_neg (not_not_intro hgood)).trans ((if_neg (by rw [henc]; decide)).trans (if_pos htag)))
    · exact hexec.trans ((if_neg (not_not_intro hgood)).trans ((if_neg (by rw [henc]; decide)).trans (if_neg htag)))
  case remapWrite =>
    intro w hin
    change execFzRemapWrite s = _
    rw [execFzRemapWrite, hin]
  case remap =>
    intro hidle hwanted
    exact if_pos (by rw [Bool.and_eq_true]; exact ⟨hidle, decide_eq_true hwanted⟩)
  case pkgcfg => exact fun hidle => if_pos hidle
  case request =>
    exact fun r hin => ⟨happens_remoteRequestArrive_off hin, happens_remoteRequestArrive_held hin⟩
  case response => exact fun r _ hin hfind => (happens_remoteResponseArrive hin hfind).trans (by cases r <;> rfl)
  case gap => exact fun _ _ _ => happens_fzGapTimeout
  case timeout => exact fun _ => happens_fzRequestTimeout

end Sys2Proof.Claims
end

section
/-! The requests that a failed request leaves outstanding at the ports (R364): it ends or is reported, no other one changes, and no new
one is made. -/

namespace Sys2Proof.Machine

open Sys2Proof

/-- The configuration in effect and the requests outstanding at every port stay as they are. -/
def State.KeepsRequests (s t : State) : Prop :=
  t.pkgcfg = s.pkgcfg ∧ ∀ p, (t.port p).outstanding = (s.port p).outstanding

/-- Every request that is still outstanding and unreported was outstanding before, and is none of those that `ended` names by port and
number. -/
def State.EndsRequests (ended : Nat → Nat → Prop) (s t : State) : Prop :=
  t.pkgcfg = s.pkgcfg ∧ ∀ q, ∀ o ∈ (t.port q).outstanding,
    o.reported = true ∨ o ∈ (s.port q).outstanding ∧ ¬ ended q o.id

/-! ## Changes that leave the requests alone -/

theorem State.KeepsRequests.refl (s : State) : s.KeepsRequests s := ⟨rfl, fun _ => rfl⟩

theorem State.KeepsRequests.trans {s t u : State} (a : s.KeepsRequests t) (b : t.KeepsRequests u) : s.KeepsRequests u :=
  ⟨b.1.trans a.1, fun p => (b.2 p).trans (a.2 p)⟩

/-- A change that keeps the ports and the configuration. -/
theorem State.keepsRequests_of_ports {s t : State} (hports : t.ports = s.ports) (hcfg : t.pkgcfg = s.pkgcfg) : s.KeepsRequests t :=
  ⟨hcfg, fun p => by simp [State.port, hports]⟩

theorem State.keepsRequests_foldl {α : Type} {f : State → α → State} (hf : ∀ (s : State) x, s.KeepsRequests (f s x)) (xs : List α)
    (s : State) :
    s.KeepsRequests (xs.foldl f s) := by
  induction xs generalizing s with
  | nil => exact .refl s
  | cons x xs ih => exact (hf s x).trans (ih _)

theorem State.keepsRequests_modTeamBy (s : State) (c grid : Nat) (f : Team → Team) : s.KeepsRequests (s.modTeamBy c grid f) := by
  unfold State.modTeamBy
  split <;> exact keepsRequests_of_ports rfl rfl

theorem State.keepsRequests_wakeGrid (s : State) (seq : Nat) : s.KeepsRequests (s.wakeGrid seq) := by
  unfold State.wakeGrid
  split <;> exact keepsRequests_of_ports rfl rfl

theorem State.keepsRequests_modPort {s : State} {p : Nat} {f : Port → Port} (hf : ∀ q, (f q).outstanding = q.outstanding) :
    s.KeepsRequests (s.modPort p f) := by
  refine ⟨rfl, fun q => ?_⟩
  simp only [State.port, State.modPort, sget_sput]
  split
  · next h => rw [hf, h]
  · rfl

theorem State.keepsRequests_noteProgress (s : State) (c grid : Nat) (h : Option Word) (engine n : Nat) :
    s.KeepsRequests (s.noteProgress c grid h engine n) := by
  unfold State.noteProgress
  split
  · exact s.keepsRequests_modTeamBy _ _ _
  · exact .refl s

theorem State.keepsRequests_record (s : State) (r : Rec) (what : Option Serviced) : s.KeepsRequests (s.record r what) :=
  keepsRequests_of_ports rfl rfl

theorem State.keepsRequests_incReg (s : State) (o : Nat) : s.KeepsRequests (s.incReg o) :=
  keepsRequests_of_ports rfl rfl

theorem State.keepsRequests_report (s : State) (r : Report) : s.KeepsRequests (s.report r) :=
  keepsRequests_of_ports rfl rfl

theorem State.keepsRequests_farGot (s : State) (p : Nat × Nat) (f : FarRead → FarRead) : s.KeepsRequests (s.farGot p f) :=
  keepsRequests_of_ports rfl rfl

theorem State.keepsRequests_modHaul (s : State) (c id : Nat) (f : HaulOp → HaulOp) : s.KeepsRequests (s.modHaul c id f) :=
  keepsRequests_of_ports rfl rfl

/-! ## What the engines do about a failure (R253, R307, R336) -/

theorem State.keepsRequests_haulFault (s : State) (c id : Nat) (e : HaulStop) : s.KeepsRequests (s.haulFault c id e) := by
  unfold State.haulFault
  split
  · exact .refl s
  · exact (s.keepsRequests_record _ _).trans (State.keepsRequests_modHaul _ _ _ _)

theorem State.keepsRequests_haulNote (s : State) (c id : Nat) : s.KeepsRequests (s.haulNote c id) := by
  unfold State.haulNote
  split
  · exact s.keepsRequests_noteProgress _ _ _ _ _
  · exact .refl s

theorem State.keepsRequests_haulLost (s : State) (c id : Nat) (p : Nat × Nat) (code : Nat) (info : W32) (pa : Nat) :
    s.KeepsRequests (s.haulLost c id p code info pa) := by
  unfold State.haulLost
  split
  · exact .refl s
  · exact (s.keepsRequests_modHaul c id _).trans ((State.keepsRequests_haulFault _ c id _).trans (State.keepsRequests_haulNote _ c id))

theorem State.keepsRequests_tellSender (status result : Nat) (fwd : Bool) (s : State) (d : Sender) :
    s.KeepsRequests (State.tellSender status result fwd s d) := by
  cases d with
  | none => exact .refl s
  | future r => exact (s.keepsRequests_modTeamBy _ _ _).trans (State.keepsRequests_modTeamBy _ _ _ _)
  | drainRow => exact keepsRequests_of_ports rfl rfl
  | gemv => exact s.keepsRequests_modTeamBy _ _ _

theorem State.keepsRequests_tell (s : State) (ds : List Sender) (status result : Nat) (fwd : Bool) :
    s.KeepsRequests (s.tell ds status result fwd) :=
  keepsRequests_foldl (keepsRequests_tellSender status result fwd) ds s

theorem State.keepsRequests_ksFail (s : State) (y : Operand) (code ds : Nat) (drop : Bool) :
    s.KeepsRequests (s.ksFail y code ds drop) := by
  have hcount : s.KeepsRequests (if drop then s.ksCount (tagCtx y.tag) 4 else s) := by
    split
    · exact s.keepsRequests_incReg _
    · exact .refl s
  unfold State.ksFail
  dsimp only
  split
  · exact hcount.trans (State.keepsRequests_tell _ _ _ _ _)
  · split
    · exact hcount
    · exact hcount.trans (State.keepsRequests_record _ _ _)

theorem State.keepsRequests_spRecords (y : Operand) (ds station a : Nat) (r : State × List Nat × Bool) (core : Nat) :
    r.1.KeepsRequests (State.spRecords y ds station a r core).1 := by
  have hwritten : ∀ t, r.1.spRecord y ds station a core = .written t → r.1.KeepsRequests t := by
    intro t h
    unfold State.spRecord at h
    split at h
    · cases h
    · dsimp only at h
      split at h
      · cases h
      · split at h
        · cases h
        · cases h
          exact keepsRequests_of_ports rfl rfl
  unfold State.spRecords
  split
  · next h => exact hwritten _ h
  · exact r.1.keepsRequests_incReg _
  · exact .refl _

theorem State.keepsRequests_spRecords_foldl (y : Operand) (ds station a : Nat) (cores : List Nat) (r : State × List Nat × Bool) :
    r.1.KeepsRequests (cores.foldl (State.spRecords y ds station a) r).1 := by
  induction cores generalizing r with
  | nil => exact .refl _
  | cons c cs ih => exact (State.keepsRequests_spRecords y ds station a r c).trans (ih _)

/-- A record that has failed writes no more. -/
theorem State.recordStep_of_failed {s : State} {r : HeldRecord} (h : r.failed.isSome = true) : s.recordStep r = (s, r) := by
  unfold State.recordStep
  exact if_pos (.inr (.inr (.inl h)))

theorem State.keepsRequests_ksRelease (s : State) {r : HeldRecord} (h : r.failed.isSome = true) : s.KeepsRequests (s.ksRelease r) := by
  unfold State.ksRelease
  dsimp only
  generalize hw : (if s.marksMet r.marks then r.cores.foldl (State.spRecords r.operand r.ds r.station r.address) (s, [], r.wrote)
    else (s, r.cores, r.wrote)) = w
  rw [recordStep_of_failed (s := w.1) (by exact h)]
  rw [recordStep_of_failed (s := w.1) (by exact h)]
  have hkeeps : s.KeepsRequests w.1 := by
    rw [← hw]
    split
    · exact State.keepsRequests_spRecords_foldl _ _ _ _ _ (s, [], r.wrote)
    · exact .refl s
  split
  · split
    · exact (hkeeps.trans (keepsRequests_of_ports rfl rfl)).trans (State.keepsRequests_ksFail _ _ _ _ _)
    · next hnone => exact absurd (show r.failed = none from hnone) (by simp [Option.ne_none_iff_isSome, h])
  · exact hkeeps.trans (keepsRequests_of_ports rfl rfl)

theorem State.keepsRequests_ksAck_failed (s : State) (n code : Nat) : s.KeepsRequests (s.ksAck n (some code)) := by
  unfold State.ksAck
  split
  · exact .refl s
  · refine State.keepsRequests_ksRelease s ?_
    dsimp only
    split
    · assumption
    · rfl

theorem State.keepsRequests_groutAbandon (s : State) (seq x y z : Nat) : s.KeepsRequests (s.groutAbandon seq x y z) := by
  unfold State.groutAbandon
  split
  · exact .refl s
  · exact .trans (keepsRequests_of_ports rfl rfl) (State.keepsRequests_wakeGrid _ _)

theorem State.keepsRequests_groutFault (s : State) (g : Grid) (j : GroutJob) (e : EngineFail) (va acc : Nat) :
    s.KeepsRequests (s.groutFault g j e va acc) := by
  unfold State.groutFault
  dsimp only
  split
  · exact keepsRequests_of_ports rfl rfl
  · exact (s.keepsRequests_record _ _).trans (State.keepsRequests_groutAbandon _ _ _ _ _)

theorem State.keepsRequests_keepFailure {s s0 t : State} (h : s.KeepsRequests t) (p : Nat) (o : Outstanding) (code cause : Nat) :
    s.KeepsRequests (s0.keepFailure t p o code cause) := by
  unfold State.keepFailure
  dsimp only
  split
  · split
    · exact h
    · refine h.trans (.trans (State.keepsRequests_modPort (p := p) (f := fun q => { q with failed := q.failed ++ [_] }) fun _ => rfl)
        (keepsRequests_of_ports rfl rfl))
  · exact h

/-! ## A request that fails, and those beyond MAXPKG (R364) -/

/-- The state from which a failed request ends: an UNREACHABLE one is counted. -/
theorem State.keepsRequests_counted (s : State) (code o : Nat) :
    s.KeepsRequests (if code = 0x18 then s.incReg o else s) := by
  split
  · exact s.keepsRequests_incReg _
  · exact .refl s

theorem State.EndsRequests.keeps {s t u : State} {ended : Nat → Nat → Prop} (a : s.EndsRequests ended t) (b : t.KeepsRequests u) :
    s.EndsRequests ended u := by
  refine ⟨b.1.trans a.1, fun q o ho => ?_⟩
  rw [b.2 q] at ho
  exact a.2 q o ho

theorem State.EndsRequests.after {s t u : State} {ended : Nat → Nat → Prop} (a : s.KeepsRequests t) (b : t.EndsRequests ended u) :
    s.EndsRequests ended u := by
  refine ⟨b.1.trans a.1, fun q o ho => ?_⟩
  rw [← a.2 q]
  exact b.2 q o ho

/-- The requests of port `p` under number `id`. -/
def requestAt (p id q i : Nat) : Prop := q = p ∧ i = id

/-- What a port holds once one port's requests have been passed through `f`. -/
theorem State.mem_outstanding_modPort {s : State} {p q : Nat} {f : List Outstanding → List Outstanding} {o : Outstanding}
    (h : o ∈ ((s.modPort p (fun x => { x with outstanding := f x.outstanding })).port q).outstanding) :
    (q ≠ p ∧ o ∈ (s.port q).outstanding) ∨ (q = p ∧ o ∈ f (s.port q).outstanding) := by
  simp only [State.port, State.modPort, sget_sput] at h
  split at h
  · next hq => subst hq; exact .inr ⟨rfl, h⟩
  · next hq => exact .inl ⟨hq, h⟩

theorem State.endsRequests_endRequest (s : State) (p id : Nat) : s.EndsRequests (requestAt p id) (s.endRequest p id) := by
  refine ⟨rfl, fun q o ho => .inr ?_⟩
  obtain ⟨hq, hm⟩ | ⟨hq, hm⟩ := State.mem_outstanding_modPort (f := fun l => l.filter (fun o => o.id ≠ id)) (show o ∈ _ from ho)
  · exact ⟨hm, fun h => hq h.1⟩
  · obtain ⟨hm, hid⟩ := List.mem_filter.1 hm
    exact ⟨hm, fun h => of_decide_eq_true hid h.2⟩

/-- A store's request stays until its report is taken (R365). -/
theorem State.endsRequests_reported (s : State) (p id : Nat) :
    s.EndsRequests (requestAt p id) (s.modPort p (fun q => { q with outstanding := q.outstanding.map (fun u =>
      if u.id = id then { u with reported := true } else u) })) := by
  refine ⟨rfl, fun q o ho => ?_⟩
  obtain ⟨hq, hm⟩ | ⟨hq, hm⟩ := State.mem_outstanding_modPort
    (f := fun l => l.map (fun u => if u.id = id then { u with reported := true } else u)) ho
  · exact .inr ⟨hm, fun h => hq h.1⟩
  · obtain ⟨u, hu, rfl⟩ := List.mem_map.1 hm
    by_cases h : u.id = id
    · exact .inl (by rw [if_pos h])
    · rw [if_neg h]
      exact .inr ⟨hu, fun e => h e.2⟩

theorem State.endsRequests_failRequest (s : State) (p : Nat) (o : Outstanding) (code cause : Nat) :
    s.EndsRequests (requestAt p o.id) (s.failRequest p o code cause) := by
  unfold State.failRequest
  dsimp only
  have h0 := s.keepsRequests_counted code (offPort p + 0x98)
  generalize (if code = 0x18 then s.incReg (offPort p + 0x98) else s) = s0 at h0
  have h1 := State.EndsRequests.after h0 (s0.endsRequests_endRequest p o.id)
  split
  · exact h1.keeps ((State.keepsRequests_modTeamBy _ _ _ _).trans (State.keepsRequests_report _ _))
  · exact h1.keeps ((State.keepsRequests_modTeamBy _ _ _ _).trans (State.keepsRequests_report _ _))
  · exact (State.EndsRequests.after h0 (s0.endsRequests_reported p o.id)).keeps (State.keepsRequests_report _ _)
  · exact h1.keeps (State.keepsRequests_keepFailure (State.keepsRequests_haulLost _ _ _ _ _ _ _) _ _ _ _)
  · exact h1.keeps (State.keepsRequests_keepFailure (State.keepsRequests_ksAck_failed _ _ _) _ _ _ _)
  · refine h1.keeps (State.keepsRequests_keepFailure ?_ _ _ _ _)
    split
    · exact State.keepsRequests_groutFault _ _ _ _ _ _
    · exact .refl _
  · exact h1.keeps (State.keepsRequests_farGot _ _ _)
  · exact h1.keeps (State.keepsRequests_keepFailure (State.keepsRequests_record _ _ _) _ _ _ _)

theorem State.endsRequests_foldl (code cause : Nat) (xs : List (Nat × Outstanding)) (s : State) :
    s.EndsRequests (fun q i => ∃ e ∈ xs, requestAt e.1 e.2.id q i)
      (xs.foldl (fun (t : State) e => t.failRequest e.1 e.2 code cause) s) := by
  induction xs generalizing s with
  | nil => exact ⟨rfl, fun q o ho => .inr ⟨ho, fun ⟨e, he, _⟩ => nomatch he⟩⟩
  | cons x xs ih =>
    have h1 := s.endsRequests_failRequest x.1 x.2 code cause
    have h2 := ih (s.failRequest x.1 x.2 code cause)
    refine ⟨h2.1.trans h1.1, fun q o ho => ?_⟩
    rcases h2.2 q o ho with h | ⟨hm, hrest⟩
    · exact .inl h
    · rcases h1.2 q o hm with h | ⟨hm, hfirst⟩
      · exact .inl h
      · refine .inr ⟨hm, fun ⟨e, he, hat⟩ => ?_⟩
        rcases List.mem_cons.1 he with rfl | he
        · exact hfirst hat
        · exact hrest ⟨e, he, hat⟩

/-- What is outstanding at a port stands in the list of the ports. -/
theorem State.mem_ports_of_outstanding {s : State} {q : Nat} {o : Outstanding} (h : o ∈ (s.port q).outstanding) :
    (q, s.port q) ∈ s.ports := by
  unfold State.port sget at h ⊢
  cases hf : sfind q s.ports with
  | none => rw [hf] at h; exact nomatch h
  | some x => exact mem_of_sfind hf

end Sys2Proof.Machine

namespace Sys2Proof.Claims

open Sys2Proof Sys2Proof.Machine

/-- Whatever the state, once the requests beyond MAXPKG have failed none of them is open. -/
theorem noneBeyond_failBeyond (s : State) : NoneBeyond s.failBeyond := by
  intro q o ho
  obtain ⟨hcfg, hends⟩ := s.endsRequests_foldl 0x18 0
    (s.ports.flatMap (fun e => (e.2.outstanding.filter (fun o => !o.reported && decide (o.dst > s.maxpkg))).map (fun o => (e.1, o))))
  have hmax : s.failBeyond.maxpkg = s.maxpkg := congrArg (fun w : Word => bits w.toNat 16 12) hcfg
  rw [hmax]
  rcases hends q o ho with hr | ⟨hm, hopen⟩
  · exact .inl hr
  · by_cases hr : o.reported = true
    · exact .inl hr
    · refine .inr (Nat.le_of_not_lt fun hbeyond => ?_)
      exact hopen ⟨(q, o), List.mem_flatMap.2 ⟨_, State.mem_ports_of_outstanding hm,
        List.mem_map.2 ⟨o, List.mem_filter.2 ⟨hm, by simp [hr, hbeyond]⟩, rfl⟩⟩, rfl, rfl⟩

/-- A turn that begins leaves the ports and the configuration as they are. -/
theorem noneBeyond_begin {s : State} (h : NoneBeyond s) : NoneBeyond (s.nextTurn.2.begin s.nextTurn.1) := by
  have hturn : s.nextTurn.2.ports = s.ports ∧ s.nextTurn.2.pkgcfg = s.pkgcfg := by
    unfold State.nextTurn
    split
    · exact ⟨rfl, rfl⟩
    · split <;> exact ⟨rfl, rfl⟩
  intro p o ho
  have hport : (s.nextTurn.2.begin s.nextTurn.1).port p = s.port p := by
    simp only [State.port, State.begin, hturn.1]
  have hmax : (s.nextTurn.2.begin s.nextTurn.1).maxpkg = s.maxpkg := by
    simp only [State.maxpkg, State.begin, hturn.2]
  rw [hport] at ho
  rw [hmax]
  exact h p o ho

/-- Whatever a turn's action leaves, what follows every turn ends the requests beyond MAXPKG. -/
theorem noneBeyond_of_settle {s t : State} {o : Host.Outcome State Fault Refusal} (h : settle s o = .next t) : NoneBeyond t := by
  cases o with
  | next u =>
    cases h
    exact noneBeyond_failBeyond _
  | _ => cases h

/-- Settles O58: every step but a silent one after a trip ends in `failBeyond`, which leaves no such request open, whatever the state
was; a silent one leaves the ports and MAXPKG as they were. -/
theorem noRequestBeyondTheLastPackageStaysOpen : Obligations.NoRequestBeyondTheLastPackageStaysOpen := by
  intro s t hs hstep
  unfold step at hstep
  dsimp only at hstep
  split at hstep
  · cases hstep
  · split at hstep
    · cases hstep
      exact noneBeyond_begin hs
    · exact noneBeyond_of_settle hstep

end Sys2Proof.Claims
end

section
/-! Events of residency: child copies, parking, placement and switching of teams (R337, R404, R415 to R421). -/

namespace Sys2Proof.Claims

open Sys2Proof Sys2Proof.Machine

variable {s : State}

/-! ## Child copies (R415) -/

section

theorem copyCanBeTaken {p : PoolEntry} (hroom : s.pool.length < 4096) (hruns : p.stopped = none) :
    ¬ (s.pool.length ≥ 4096 ∨ p.stopped.isSome = true) := by
  simp [hruns, hroom]

/-- The state behind the read `r` of a child copy's record, in which the record waits no more. -/
def copyLeft (r : Reading) (rest : List PoolEntry) : State := { r.s with poolWait := rest }

/-- The record that the read `r` has brought. -/
def copyWords (r : Reading) : List Word := words8 (words4 (r.bytes.map (·.1)))

variable {p : PoolEntry} {rest : List PoolEntry} (hwait : s.poolWait = p :: rest) (hroom : s.pool.length < 4096)
  (hruns : p.stopped = none) {r : Reading} (hr : s.engineReadRun 0 p.context p.address 192 .childCopy = r)
include hwait hroom hruns hr

/-- A read that waits for another package goes on later. -/
theorem happens_childCopyTaken_waits (hpaused : r.paused = true) : happens .childCopyTaken s r.s := by
  change execChildCopyTaken s = _
  simp only [execChildCopyTaken, hwait, if_neg (copyCanBeTaken hroom hruns), hr, hpaused, if_true]

section

variable (hgoes : r.paused = false)
include hgoes

/-- A read that fails stops the copies. -/
theorem happens_childCopyTaken_fault {e : EngineFail} {va : Nat} (hfail : r.fail = some (e, va)) :
    happens .childCopyTaken s ((copyLeft r rest).copyFault p rest e.code ((copyLeft r rest).failAddr e va) e.info) := by
  change execChildCopyTaken s = _
  unfold copyLeft at *
  simp only [execChildCopyTaken, hwait, if_neg (copyCanBeTaken hroom hruns), hr, hgoes, hfail, Bool.false_eq_true, if_false]

variable (hread : r.fail = none)
include hread

theorem happens_childCopyTaken_poisoned (hpoison : r.bytes.any (·.2) = true) :
    happens .childCopyTaken s ((copyLeft r rest).copyFault p rest 0x17 p.address 0) := by
  change execChildCopyTaken s = _
  unfold copyLeft at *
  simp only [execChildCopyTaken, hwait, if_neg (copyCanBeTaken hroom hruns), hr, hgoes, hread, hpoison, Bool.false_eq_true, if_false,
    if_true]

variable (hclean : r.bytes.any (·.2) = false)
include hclean

/-- A record that fails its checks is no launch. -/
theorem happens_childCopyTaken_refused {e : RecFail}
    (hrecord : (copyLeft r rest).recordFail p.context p.pick (copyWords r) = some e) :
    happens .childCopyTaken s ((copyLeft r rest).failLaunch p.owner 0x26) := by
  change execChildCopyTaken s = _
  unfold copyLeft copyWords at *
  simp only [execChildCopyTaken, hwait, if_neg (copyCanBeTaken hroom hruns), hr, hgoes, hread, hclean, hrecord, Bool.false_eq_true,
    if_false]

theorem happens_childCopyTaken_takes
    (hrecord : (copyLeft r rest).recordFail p.context p.pick (copyWords r) = none) :
    happens .childCopyTaken s ((copyLeft r rest).poolTake { p with record := copyWords r }) := by
  change execChildCopyTaken s = _
  unfold copyLeft copyWords at *
  simp only [execChildCopyTaken, hwait, if_neg (copyCanBeTaken hroom hruns), hr, hgoes, hread, hclean, hrecord, Bool.false_eq_true,
    if_false]

end

end

/-! ## Parking and placement (R94, R416, R417) -/

/-- A join-parked team of which an awaited operation has completed enters a free seat. -/
theorem happens_joinPark_enter {m : Team} {seat : Nat} {u : State}
    (haway : s.away.find? (fun m => m.core = s.focus.core && m.joinParked && m.joinReady && s.admitsBack s.focus.core m) = some m)
    (hseat : s.pick (s.freeSeats s.focus.core) = (some seat, u)) : happens .joinPark s (u.enter s.focus.core seat m none) := by
  change execJoinPark s = _
  simp only [execJoinPark, haway, hseat]

/-- With no team to come back, a resident team of which every group joins goes out, and a switch-out goes on. -/
theorem happens_joinPark_out {m : Team}
    (haway : s.away.find? (fun m => m.core = s.focus.core && m.joinParked && m.joinReady && s.admitsBack s.focus.core m) = none)
    (hteam : sfind s.focus.team (s.core s.focus.core).teams = some m) :
    happens .joinPark s (if m.residency = .resident ∧ m.joinsOnly then
      ((s.modTeam s.focus.core s.focus.team (fun m => { m with joinParked := true, joinReady := false })).beginOut s.focus.core
        s.focus.team false none).outStep s.focus.core s.focus.team
      else s.outStep s.focus.core s.focus.team) := by
  change execJoinPark s = _
  simp only [execJoinPark, haway, hteam]
  split <;> rfl

/-- The state once every team that waits to be switched in at the core has tried. -/
def triedIn (s : State) : State := (s.switchIns.filter (fun w => w.core = s.focus.core)).foldl State.tryIn s

/-- A team that waits to be switched in comes first. -/
theorem happens_teamPlace_in (hin : (triedIn s).switchIns ≠ s.switchIns) : happens .teamPlace s (triedIn s) :=
  if_pos hin

theorem happens_teamPlace_place {g : Grid} (hin : (triedIn s).switchIns = s.switchIns)
    (hg : (s.placeable s.focus.core)[s.focus.number % max 1 (s.placeable s.focus.core).length]? = some g) :
    happens .teamPlace s (s.place s.focus.core g) := by
  change execTeamPlace s = _
  refine (if_neg (not_not_intro hin)).trans ?_
  rw [hg]

/-- Settles O34, event by event: a child copy by the answer of its read, and the four events with one outcome by their meaning. -/
theorem residencyEventsHaveTheirEffect : Obligations.ResidencyEventsHaveTheirEffect := by
  intro s
  refine ⟨fun p rest hwait hroom hruns => ?_,
    fun m seat u => happens_joinPark_enter, fun m => happens_joinPark_out, ⟨happens_teamPlace_in, fun g => happens_teamPlace_place⟩,
    rfl, rfl, rfl⟩
  generalize hr : s.engineReadRun 0 p.context p.address 192 .childCopy = r
  exact ⟨happens_childCopyTaken_waits hwait hroom hruns hr,
    fun e va hgoes hfail => happens_childCopyTaken_fault hwait hroom hruns hr hgoes hfail,
    fun hgoes hread => ⟨fun hpoison => happens_childCopyTaken_poisoned hwait hroom hruns hr hgoes hread hpoison,
      fun hclean => ⟨fun e hrecord => happens_childCopyTaken_refused hwait hroom hruns hr hgoes hread hclean hrecord,
        fun hrecord => happens_childCopyTaken_takes hwait hroom hruns hr hgoes hread hclean hrecord⟩⟩⟩

end Sys2Proof.Claims
end

section
/-! Events of the user queues and the front end (R409 to R412, R419, R420, R432). -/

namespace Sys2Proof.Claims

open Sys2Proof Sys2Proof.Machine

variable {s : State}

/-! ## The poll of an EMPTY packet (R411) -/

section

variable {since : Nat} (hempty : sfind (s.focus.number % 256) s.emptySince = some since) (hdue : since + 1024 ≤ s.uncore) {r : Reading}
  (hr : s.engineReadRun 0 (s.uqCtx (s.focus.number % 256))
    (s.packetAddr (s.focus.number % 256) (s.uq (s.focus.number % 256) 0x18).toNat) 8 (.packet (s.focus.number % 256)) = r)
include hempty hdue hr

/-- A read that waits for another package goes on later. -/
theorem happens_emptyPacketPoll_waits (hpaused : r.paused = true) : happens .emptyPacketPoll s r.s := by
  change execEmptyPacketPoll s = _
  simp only [execEmptyPacketPoll, hempty, hr, if_neg (Nat.not_lt.2 hdue), hpaused, if_true]

/-- A packet that is still EMPTY is read again later; any other is no longer noted as such. -/
theorem happens_emptyPacketPoll_reads (hgoes : r.paused = false) :
    happens .emptyPacketPoll s (if r.fail.isNone && decide (packetKind (word8 (r.bytes.map (·.1))) = 0) then
      { r.s with emptySince := sins (s.focus.number % 256) s.uncore r.s.emptySince }
      else { r.s with emptySince := sdel (s.focus.number % 256) r.s.emptySince }) := by
  change execEmptyPacketPoll s = _
  simp only [execEmptyPacketPoll, hempty, hr, if_neg (Nat.not_lt.2 hdue), hgoes, Bool.not_false, Bool.true_and, Bool.false_eq_true,
    if_false]

end

/-! ## The poll of an AND packet (R410) -/

/-- A poll that is due reads every used DEP word. -/
theorem happens_andDependencyPoll_due {k : ClaimedPacket}
    (hk : s.claimed.find? (fun c => c.queue = s.focus.number % 256 ∧ c.index = s.focus.index ∧ ¬ c.complete
      ∧ packetKind c.header = 3) = some k)
    (hdue : ∀ since, k.polled = some since → since + 1024 ≤ s.uncore) :
    happens .andDependencyPoll s (k.deps.foldl (fun (t : State) d => t.pollDep (s.focus.number % 256) s.focus.index k d)
      (s.modPacket (s.focus.number % 256) s.focus.index (fun c => { c with polled := some s.uncore }))) := by
  have hearly : (k.polled.map (fun t => decide (s.uncore < t + 1024))).getD false = false := by
    cases hp : k.polled with
    | none => rfl
    | some since => exact decide_eq_false (Nat.not_lt.2 (hdue since hp))
  change execAndDependencyPoll s = _
  simp only [execAndDependencyPoll, hk, hearly, Bool.false_eq_true, if_false]

/-! ## The completion of a packet (R410, R412) -/

section

variable {k : ClaimedPacket}
  (hk : s.claimed.find? (fun c => c.queue = s.focus.number % 256 ∧ c.index = s.focus.index ∧ ¬ c.complete) = some k)
include hk

/-- A packet whose completion release was written is over once the release has performed. -/
theorem happens_packetComplete_written {m : List (Nat × Nat)} {w : Word} (hwritten : k.written = some (m, w))
    (hmet : s.marksMet m = true) : happens .packetComplete s (s.packetEnd k w) := by
  change execPacketComplete s = _
  simp only [execPacketComplete, hk, hwritten, hmet, if_true]

section

variable (hwritten : k.written = none) (hover : k.over (s.agentKnows (packetKind k.header)) = true)
include hwritten hover

/-- A packet whose work has ended in an error halts its queue. -/
theorem happens_packetComplete_failed {e : Nat × Nat}
    (hbad : (if packetKind k.header = 3 ∨ packetKind k.header = 5 then none
      else packetError (packetKind k.header) s.givenOrFree.1) = some e) :
    happens .packetComplete s (s.packetFailed (s.focus.number % 256) k.index e.1 e.2) := by
  change execPacketComplete s = _
  simp only [execPacketComplete, hk, hwritten, hover, hbad, Bool.not_true, Bool.false_eq_true, if_false]

/-- The others write their completion release, once what it covers has performed. -/
theorem happens_packetComplete_done
    (hgood : (if packetKind k.header = 3 ∨ packetKind k.header = 5 then none
      else packetError (packetKind k.header) s.givenOrFree.1) = none) :
    happens .packetComplete s
      (if s.marksMet (k.marks.getD s.marks) && (s.coveredFailure (k.marks.getD s.marks)).isNone then
        s.givenOrFree.2.packetDone k s.givenOrFree.1
      else s.modPacket (s.focus.number % 256) k.index (fun c => { c with marks := some (k.marks.getD s.marks) })) := by
  change execPacketComplete s = _
  simp only [execPacketComplete, hk, hwritten, hover, hgood, Bool.not_true, Bool.false_eq_true, if_false]
  split <;> rfl

end

end

/-! ## Fault records and the registers of a queue (R409, R419) -/

theorem happens_faultRecordWrite {r : FaultRecord} (hr : s.records.find? (fun r => s.fqRoom r.context) = some r) :
    happens .faultRecordWrite s (State.writeRecord { s with records := dropFirst (· = r) s.records } r) := by
  change execFaultRecordWrite s = _
  simp only [execFaultRecordWrite, hr]

theorem happens_uqWptrWrite {w : Word} (hw : s.input = .word w) :
    happens .uqWptrWrite s (s.writeWptr (s.focus.number % 256) w.toNat) := by
  change execUqWptrWrite s = _
  simp only [execUqWptrWrite, hw]

theorem happens_uqCfgWrite {w : Word} (hw : s.input = .word w) :
    happens .uqCfgWrite s (s.writeUqCfg (s.focus.number % 256) w) := by
  change execUqCfgWrite s = _
  simp only [execUqCfgWrite, hw]

/-- Settles O35, event by event: the claim, the resume forms, the queue's controls and boot have one outcome each, which is their
meaning. -/
theorem queueEventsHaveTheirEffect : Obligations.QueueEventsHaveTheirEffect := by
  intro s
  refine ⟨rfl, fun since hempty hdue => ?_, fun k => happens_andDependencyPoll_due,
    fun k m w hk => happens_packetComplete_written hk,
    fun k hk hwritten hover => ⟨fun e => happens_packetComplete_failed hk hwritten hover,
      happens_packetComplete_done hk hwritten hover⟩,
    fun r => happens_faultRecordWrite, fun w hw => ⟨happens_uqWptrWrite hw, happens_uqCfgWrite hw⟩, rfl, rfl, rfl, rfl, rfl, rfl⟩
  generalize hr : s.engineReadRun 0 (s.uqCtx (s.focus.number % 256))
    (s.packetAddr (s.focus.number % 256) (s.uq (s.focus.number % 256) 0x18).toNat) 8 (.packet (s.focus.number % 256)) = r
  refine ⟨happens_emptyPacketPoll_waits hempty hdue hr, fun hgoes hkind => ?_, fun hgoes hkind => ?_⟩
  · exact (happens_emptyPacketPoll_reads hempty hdue hr hgoes).trans (by rw [if_pos hkind])
  · exact (happens_emptyPacketPoll_reads hempty hdue hr hgoes).trans (by rw [if_neg (Bool.eq_false_iff.1 hkind)])

end Sys2Proof.Claims
end

section
/-! The front-end words of a group: LAUNCHC, JOINC and SNAP (R415, R416, R427). -/

namespace Sys2Proof.Claims

open Sys2Proof Sys2Proof.Machine

/-- Settles O27: past its checks LAUNCHC starts its child with the handle that its D asks for, and each clause of JOINC is the branch
that its register or its exported operation chooses. -/
theorem launchJoinAndSnapWordsRetire : Obligations.LaunchJoinAndSnapWordsRetire := by
  rintro f s t u v act rfl rfl base pick n h joins snap
  refine ⟨?launchc, ?register, ?exported, fun hr => retires_of_ready rfl hr rfl⟩
  case launchc =>
    rintro bs ⟨hr, hc⟩ hpick haligned hopens hread r hgood
    have hteams : ∀ b : Bool, ¬ (!b && decide (pick > 96)) = true := fun b => by simp [hpick]
    refine ⟨fun hreg => ?unbound, fun d k w hreg halloc => ?bound⟩
    all_goals
      refine retires_of_ready rfl hr ((if_neg (hteams _)).trans ?_)
      rw [poisonTrap_of_clean hc]
      refine (if_neg (not_not_intro haligned)).trans ?_
      rw [released_of_opens hopens, hread]
      dsimp only
      rw [hgood, hreg]
    case bound =>
      dsimp only
      rw [halloc]
  case register =>
    intro hjoins hplain hresolved
    refine retires_of_okay rfl hjoins (fun hpoison => ?_)
    rw [hpoison]
    exact (if_neg (ne_true_of_eq_false hplain)).trans (if_neg (ne_true_of_eq_false hresolved))
  case exported =>
    intro e hjoins hexported hentry hengine hservice hdone
    have hmine : ((found s).exported h).filter (fun e => e.engine = 6 && !e.service) = some e := by
      rw [hentry]
      simp [Option.filter, hengine, hservice]
    refine retires_of_okay rfl hjoins (fun hpoison => ?_)
    rw [hpoison]
    refine (if_pos hexported).trans ?_
    rw [hmine]
    exact if_pos hdone

end Sys2Proof.Claims
end

section
/-! The privileged words of the firmware slot (R405, R417, R421, R426, R428, R429). -/

namespace Sys2Proof.Claims

open Sys2Proof Sys2Proof.Machine

variable {i : Instr} {sh : Shape} {f : Full} {s u : State} {act : Lanes}

theorem countPoison_false (s : State) : s.countPoison false = s := rfl

/-- R142: a store word enters its accesses once its release is open and the group's queue has room. -/
theorem enqueue_of_opens {es : State → List StoreEntry} (hopens : opens s act (lsSem f = 1 && scopeF f ≥ 7) (scopeF f) u)
    (hroom : u.own.queued < 16) : s.enqueue f act es = .retire { s := u.pushStore (es u) } :=
  (released_of_opens hopens).trans (if_neg (Nat.not_le.2 hroom))

/-- The state that a translation form of TLBI leaves of the translations in use. -/
def tlbiLeft (k : Nat) (f : Full) (s : State) : State :=
  { s with tlb := s.tlb.filter (fun e => !tlbiHits k (s.tlbiCtxOf f) (s.tlbiAddr f) e) }

/-- R428: a translation form of TLBI is over once every access that used a removed entry is. -/
theorem tlbi_of_drained {k : Nat} (hpoison : s.poisonTrap (tlbiShape f false).srcs act = none)
    (hdrained : (tlbiLeft k f s).drained k (s.tlbiCtxOf f) (s.tlbiAddr f)
      (s.own.drain.getD (s.drainNow k (s.tlbiCtxOf f))) = true) :
    s.tlbi k f act = .retire { s := (tlbiLeft k f s).modOwn (fun g => { g with drain := none }) } := by
  unfold State.tlbi
  rw [hpoison]
  exact if_pos hdrained

/-- Settles O28: past its checks each word has the effect of its one branch; the launches and switches with the handle that D asks
for. -/
theorem firmwareWordsRetire : Obligations.FirmwareWordsRetire := by
  rintro f s t act rfl rfl c a b n tlbi handed
  refine ⟨?out, ?into, ?va, ?ctx, ?all, ?ic, ?icall, fun hr => retires_of_ready rfl hr rfl, ?psrd, ?pswr, ?wdplace,
    fun hr => retires_of_ready rfl hr rfl⟩
  case out =>
    rintro u ⟨hr, hc⟩ hopens c n hteam
    have hthere : ¬ (sfind n (u.core c).teams).isNone = true := fun h => by
      rw [Option.isNone_iff_eq_none.1 h] at hteam
      cases hteam
    refine ⟨fun hreg => ?_, fun d k w hreg halloc => ?_⟩
    all_goals
      refine retires_of_ready rfl hr ?_
      rw [poisonTrap_of_clean hc]
      refine (released_of_opens hopens).trans ((if_neg hthere).trans ?_)
      rw [hreg]
    · rfl
    · dsimp only
      rw [halloc]
      rfl
  case into =>
    rintro u m ⟨hr, hc⟩ hopens c n haway hfree
    refine ⟨fun hreg => ?_, fun d k w hreg halloc => ?_⟩
    all_goals
      refine retires_of_ready rfl hr ?_
      rw [poisonTrap_of_clean hc]
      refine (released_of_opens hopens).trans ?_
      dsimp only
      rw [haway]
      refine (if_neg (ne_true_of_eq_false hfree)).trans ?_
      rw [hreg]
    dsimp only
    rw [halloc]
  case va => exact fun hokay hdrained => retires_of_okay rfl hokay (fun hpoison => tlbi_of_drained hpoison hdrained)
  case ctx => exact fun hokay hdrained => retires_of_okay rfl hokay (fun hpoison => tlbi_of_drained hpoison hdrained)
  case all => exact fun hokay hdrained => retires_of_okay rfl hokay (fun hpoison => tlbi_of_drained hpoison hdrained)
  case ic => exact fun hokay => retires_of_okay rfl hokay (fun hpoison => by rw [hpoison])
  case icall =>
    refine fun hokay => retires_of_okay rfl hokay (fun hpoison => ?_)
    have hsame : (found s).poisonTrap (tlbiShape f false).srcs (active f s) = none := hpoison
    rw [hsame]
  case psrd =>
    rintro pa ⟨hr, hc⟩ haddr at_ hroom
    refine retires_of_ready rfl hr ?_
    rw [operandPoison_of_clean 1 hc]
    dsimp only
    rw [haddr]
    exact if_neg (ne_true_of_eq_false ((Bool.not_eq_false' _).mpr hroom))
  case pswr =>
    rintro pa u ⟨hr, hc⟩ haddr hopens hroom base bytes
    refine retires_of_ready rfl hr ?_
    rw [operandPoison_of_clean 2 hc]
    dsimp only
    rw [haddr]
    exact enqueue_of_opens hopens hroom
  case wdplace =>
    rintro u ⟨hr, hc⟩ hopens a b haligned hinside hreserved hmgmt q r hadmitted hlink hclean hgood
    have hgoes : ¬ (!q.2 || (decide (region a = .pci) && decide (u.input = .flag true))) = true := by
      rw [hadmitted]
      simpa using hlink
    have hcount : q.1.countPoison r.2 = q.1 := by rw [hclean, countPoison_false]
    refine ⟨fun hreg => ?_, fun d k w hreg halloc => ?_⟩
    all_goals
      refine retires_of_ready rfl hr ?_
      rw [poisonTrap_of_clean hc]
      refine (released_of_opens hopens).trans ?_
      refine (if_neg (not_not_intro haligned)).trans ((if_neg (Nat.not_le.2 hinside)).trans
        ((if_neg (not_or_intro hreserved hmgmt)).trans ((if_neg hgoes).trans ?_)))
      refine (if_neg (ne_true_of_eq_false hclean)).trans ?_
      dsimp only
      rw [hcount, hgood, hreg]
    dsimp only
    rw [halloc]

end Sys2Proof.Claims
end

section
/-! Traps in the firmware slot and ERET (R405): the registers of the core that they save and read. -/

namespace Sys2Proof.Claims

open Sys2Proof Sys2Proof.Machine

variable {s : State}

/-! ## The registers of the firmware slot -/

theorem own_setReg (s : State) (o : Nat) (w : Word) : (s.setReg o w).own = s.own := rfl

theorem own?_setReg (s : State) (o : Nat) (w : Word) : (s.setReg o w).own? = s.own? := rfl

theorem fwReg_modOwn (s : State) (g : Group → Group) (k : Nat) : (s.modOwn g).fwReg k = s.fwReg k := rfl

theorem fwReg_setReg {c : Nat} (hc : s.focus.core = c) (j k : Nat) (w : Word) :
    (s.setReg (offCore c + k) w).fwReg j = if j = k then w else s.fwReg j := by
  subst hc
  split
  · next h => rw [h]; exact State.reg_setReg s _ w
  · next h => exact State.reg_setReg_ne s w (fun e => h (Nat.add_left_cancel e))

/-- FE_STATUS is a register of no core. -/
theorem offFe_ne_offCore {c k : Nat} (_ : c < 96) (_ : k < 0x1000) : offFe + 8 ≠ offCore c + k := by
  simp only [offFe, offCore]
  omega

/-! ## A nested trap -/

theorem own_agentFail (s : State) : s.agentFail.own = s.own := by
  unfold State.agentFail
  split <;> rfl

/-- AGENT_FAIL stands once it is set. -/
theorem agentFail_getLsbD (s : State) : (s.agentFail.reg (offFe + 8)).getLsbD 1 = true := by
  unfold State.agentFail
  split
  · assumption
  · change ((s.setReg (offFe + 8) (s.reg (offFe + 8) ||| 2)).reg (offFe + 8)).getLsbD 1 = true
    rw [State.reg_setReg]
    simp

/-- AGENT_FAIL lies in no register of a core. -/
theorem fwReg_agentFail {k : Nat} (hc : s.focus.core < 96) (hk : k < 0x1000) : s.agentFail.fwReg k = s.fwReg k := by
  have hne := (offFe_ne_offCore hc hk).symm
  unfold State.agentFail
  split
  · rfl
  · exact State.reg_setReg_ne s _ hne

/-- What a trap of the firmware slot leaves of its group before it is sent on. -/
def fwDropped (g : Group) : Group :=
  { g.unwait.dropLatches with count := 0, pathLoop := none, kept := [], recorded := [] }

theorem fwTrap_nested (t : Trap) (h : (s.fwReg 0x318).getLsbD 8 = true) :
    s.fwTrap t = ((s.modOwn fwDropped).setReg (offCore s.focus.core + 0x300) 0).agentFail := by
  unfold State.fwTrap
  exact if_pos h

/-- A trap outside a trap saves the trapping word and goes to FW_TVEC. -/
theorem fwTrap_first (t : Trap) (h : (s.fwReg 0x318).getLsbD 8 = false) :
    s.fwTrap t = ((((s.modOwn fwDropped).setReg (offCore s.focus.core + 0x310) s.own.pathPc).setReg (offCore s.focus.core + 0x318)
      (BitVec.ofNat 64 (t.code % 256 + 256 + t.info.toNat * 2 ^ 32))).setReg (offCore s.focus.core + 0x320) t.addr).modOwn
        (fun g => g.setPc 0 (s.fwReg 0x308)) := by
  unfold State.fwTrap
  exact if_neg (ne_true_of_eq_false h)

/-- The group of a trapping firmware slot. -/
theorem own_fwTrap (t : Trap) (hown : s.own?.isSome = true) :
    (s.fwTrap t).own = if (s.fwReg 0x318).getLsbD 8 = true then fwDropped s.own else (fwDropped s.own).setPc 0 (s.fwReg 0x308) := by
  split
  · next h => rw [fwTrap_nested t h, own_agentFail, own_setReg, State.modOwn_own hown]
  · next h =>
    have hkept : (s.modOwn fwDropped).own?.isSome = true := by rwa [State.modOwn_own?, Option.isSome_map]
    rw [fwTrap_first t (Bool.eq_false_iff.2 h), State.modOwn_own (by rwa [own?_setReg, own?_setReg, own?_setReg]), own_setReg,
      own_setReg, own_setReg, State.modOwn_own hown]

theorem records_setReg (s : State) (o : Nat) (w : Word) : (s.setReg o w).records = s.records := rfl

theorem records_modOwn (s : State) (g : Group → Group) : (s.modOwn g).records = s.records := rfl

theorem records_agentFail (s : State) : s.agentFail.records = s.records := by
  unfold State.agentFail
  split <;> rfl

theorem records_fwTrap (s : State) (t : Trap) : (s.fwTrap t).records = s.records := by
  cases h : (s.fwReg 0x318).getLsbD 8 with
  | true => rw [fwTrap_nested t h, records_agentFail, records_setReg, records_modOwn]
  | false => rw [fwTrap_first t h, records_modOwn, records_setReg, records_setReg, records_setReg, records_modOwn]

/-- The registers of the core behind a trap outside a trap. -/
theorem fwReg_fwTrap_first (t : Trap) (h : (s.fwReg 0x318).getLsbD 8 = false) (j : Nat) :
    (s.fwTrap t).fwReg j = if j = 0x320 then t.addr
      else if j = 0x318 then BitVec.ofNat 64 (t.code % 256 + 256 + t.info.toNat * 2 ^ 32)
      else if j = 0x310 then s.own.pathPc else s.fwReg j := by
  rw [fwTrap_first t h, fwReg_modOwn, fwReg_setReg (by rw [State.setReg_focus, State.setReg_focus, State.modOwn_focus]),
    fwReg_setReg (by rw [State.setReg_focus, State.modOwn_focus]), fwReg_setReg (by rw [State.modOwn_focus]), fwReg_modOwn]

/-- FW_CTRL behind a nested trap. -/
theorem fwReg_fwTrap_nested (t : Trap) (hc : s.focus.core < 96) (h : (s.fwReg 0x318).getLsbD 8 = true) :
    (s.fwTrap t).fwReg 0x300 = 0 := by
  rw [fwTrap_nested t h, fwReg_agentFail (by rwa [State.setReg_focus, State.modOwn_focus]) (by decide),
    fwReg_setReg (by rw [State.modOwn_focus]), if_pos rfl]

theorem keptRegs_fwDropped (g : Group) : g.KeptRegs (fwDropped g) := by constructor <;> rfl

theorem keptInner_fwDropped (g : Group) : g.KeptInner (fwDropped g) := by constructor <;> rfl

theorem pcv_fwDropped (g : Group) : (fwDropped g).pcv = g.pcv := rfl

/-- Settles O45: a trap saves into registers that differ from each other and from FE_STATUS, and ERET reads them back. -/
theorem firmwareTrapsAndReturns : Obligations.FirmwareTrapsAndReturns := by
  intro s t hown hteam hcore hcode
  have htrap : s.takeTrap t = s.fwTrap t := if_pos hteam
  have helse := State.elsewhere_takeTrap s t
  have hgroup := own_fwTrap t hown
  rw [htrap] at helse ⊢
  refine ⟨⟨records_fwTrap s t, ?regs, ?inner, helse, fun hfirst => ?first, fun hnested => ?nested⟩, ?back⟩
  case regs =>
    rw [hgroup]
    split
    · exact keptRegs_fwDropped _
    · exact (keptRegs_fwDropped _).trans (by constructor <;> rfl)
  case inner =>
    rw [hgroup]
    split
    · exact keptInner_fwDropped _
    · exact (keptInner_fwDropped _).trans (by constructor <;> rfl)
  case first =>
    have hregs := fwReg_fwTrap_first t hfirst
    rw [Nat.mod_eq_of_lt hcode] at hregs
    refine ⟨hregs 0x310, hregs 0x318, hregs 0x320, ?_, hregs 0x300⟩
    rw [hgroup, if_neg (ne_true_of_eq_false hfirst), Group.pc_setPc, if_pos rfl]
  case nested =>
    refine ⟨?_, ?_, ?_⟩
    · rw [fwReg_fwTrap_nested t hcore hnested]
      rfl
    · rw [fwTrap_nested t hnested]
      exact agentFail_getLsbD _
    · rw [hgroup, if_pos hnested, pcv_fwDropped]
  case back =>
    have hgroup : s.fwReturn.own = { s.own.setPc 0 (s.fwReg 0x310 &&& 0x7FFFFFFFFFFFFFF8) with pathLoop := none } := by
      unfold State.fwReturn
      rw [State.modOwn_own (by rwa [own?_setReg]), own_setReg]
    have hcause : s.fwReturn.fwReg 0x318 = s.fwReg 0x318 &&& ~~~ (256 : Word) := by
      unfold State.fwReturn
      rw [fwReg_modOwn, fwReg_setReg rfl, if_pos rfl]
    have hbit : ∀ i, (256 : Word).getLsbD i = decide (i = 8) := fun i => by
      rw [show (256 : Word) = BitVec.twoPow 64 8 from rfl, BitVec.getLsbD_twoPow]
      simp [eq_comm]
    refine ⟨?_, ?_, fun i hi => ?_, ?_⟩
    · rw [hgroup]
      exact (Group.pc_setPc _ _ _ _).trans (if_pos rfl)
    · rw [hcause, BitVec.getLsbD_and, BitVec.getLsbD_not, hbit]
      simp
    · rw [hcause, BitVec.getLsbD_and, BitVec.getLsbD_not, hbit, decide_eq_false hi]
      by_cases h : i < 64
      · simp [h]
      · simp [BitVec.getLsbD_of_ge _ _ (Nat.le_of_not_lt h)]
    · rw [hgroup]
      constructor <;> rfl

end Sys2Proof.Claims
end

section
/-! What reset leaves (R403, R432), and what a turn after a TRIP leaves (R434). -/

namespace Sys2Proof.Claims

open Sys2Proof Sys2Proof.Machine

/-! ## Reset -/

/-- Reset sets no run bit of a firmware slot. -/
theorem reset_fwCtrl : ∀ c, c < 96 → (State.reset.reg (offCore c + 0x300)).getLsbD 0 = false := by
  decide +kernel

/-- No core hosts a team but that of its firmware slot. -/
theorem reset_team? (c : Nat) {n : Nat} (h : n ≠ 8) : State.reset.team? c n = none := if_neg h

/-- Every memory and sparse map is empty. -/
theorem canonical_reset : State.reset.Canonical where
  dram := rfl
  llc := rfl
  lines := fun _ h => nomatch h
  cores := rfl
  fw := fun _ h => nomatch h
  teams := fun _ h => nomatch h
  away := fun _ h => nomatch h
  mgmt := rfl
  regs := fun _ h => nomatch h
  ports := rfl
  seqs := rfl
  grids := rfl
  stations := rfl

/-- Settles O53: reset is the state of default values, in which every map and queue is empty. -/
theorem resetLeavesTheStatedValues : Obligations.ResetLeavesTheStatedValues :=
  ⟨fun _ => rfl, reset_fwCtrl, fun c _ => reset_team? c, fun _ => rfl, rfl, rfl, rfl, rfl, canonical_reset, fun _ _ h => nomatch h⟩

/-! ## After a TRIP -/

/-- What the host writes as a turn begins lands in its own memory alone. -/
theorem byte_hostWrites {a : Nat} (ha : region a ≠ .pci) : ∀ (cs : List Host.Cell) (m : Memory),
    Memory.byte (cs.foldl (fun m c => if region c.1 = .pci then m.setByte c.1 c.2 else m) m) a = m.byte a
  | [], _ => rfl
  | c :: cs, m => by
    refine (byte_hostWrites ha cs _).trans ?_
    dsimp only
    split
    · next hc => exact Memory.byte_setByte_ne m _ (fun e => ha (e ▸ hc))
    · rfl

/-- Taking the next turn off its list changes the list alone. -/
theorem exists_nextTurn (s : State) : ∃ agenda queued, s.nextTurn.2 = { s with agenda := agenda, queued := queued } := by
  unfold State.nextTurn
  split
  · exact ⟨_, _, rfl⟩
  · split <;> exact ⟨_, _, rfl⟩

/-- A turn that TRIP bars ends as it has begun. -/
theorem step_of_tripped {s : State} (hwf : s.nextTurn.1.wf = true) (htripped : (s.nextTurn.2.begin s.nextTurn.1).tripped = true)
    (hbarred : afterTrip s.nextTurn.1.what = false) : step s = .next (s.nextTurn.2.begin s.nextTurn.1) := by
  have hgoes : ¬ (!s.nextTurn.1.wf) = true := by simp [hwf]
  have hstops : ((s.nextTurn.2.begin s.nextTurn.1).tripped && !afterTrip s.nextTurn.1.what) = true := by simp [htripped, hbarred]
  exact (if_neg hgoes).trans (if_pos hstops)

/-- Settles O60: the turn begins, and nothing follows. -/
theorem afterATripOnlyManagementActs : Obligations.AfterATripOnlyManagementActs := by
  intro s hwf htripped hbarred
  obtain ⟨agenda, queued, h⟩ := exists_nextTurn s
  refine ⟨_, step_of_tripped hwf htripped hbarred, ?_, fun a ha => ?_⟩
  · rw [h]
    rfl
  · rw [h]
    exact byte_hostWrites ha _ _

end Sys2Proof.Claims
end

section
/-! What the accesses of a sequencer change of the package (R375, R382): nothing but what the access itself counts and caches, and, for
a write, the bytes that it writes, read through the copy that has them. -/

namespace Sys2Proof.Machine

open Sys2Proof

/-- The slots of the sequencers, the ports, the cores, the grids and the stations stay as they are. -/
structure State.KeepsUnits (s t : State) : Prop where
  seqs : t.seqs = s.seqs
  grids : t.grids = s.grids
  stations : t.stations = s.stations
  ports : t.ports = s.ports
  cores : t.cores = s.cores

/-- Every byte of memory reads as before, in the copy of the LLC and in that of DRAM. -/
structure State.OnlyReads (s t : State) : Prop extends State.KeepsUnits s t where
  peek : ∀ x a, t.peek x a = s.peek x a

/-- Every byte outside `w` reads, in either copy, as it read before in one of the two. -/
structure State.WritesIn (w : Nat → Prop) (s t : State) : Prop extends State.KeepsUnits s t where
  peek : ∀ a, ¬ w a → ∀ x, (t.peek x a).1 = (s.peek x a).1 ∨ (t.peek x a).1 = (s.peek (!x) a).1

variable {s t u : State} {w : Nat → Prop}

theorem State.KeepsUnits.trans (a : s.KeepsUnits t) (b : t.KeepsUnits u) : s.KeepsUnits u :=
  ⟨b.seqs.trans a.seqs, b.grids.trans a.grids, b.stations.trans a.stations, b.ports.trans a.ports, b.cores.trans a.cores⟩

theorem State.OnlyReads.refl (s : State) : s.OnlyReads s := ⟨⟨rfl, rfl, rfl, rfl, rfl⟩, fun _ _ => rfl⟩

theorem State.OnlyReads.trans (a : s.OnlyReads t) (b : t.OnlyReads u) : s.OnlyReads u :=
  ⟨a.toKeepsUnits.trans b.toKeepsUnits, fun x y => (b.peek x y).trans (a.peek x y)⟩

theorem State.OnlyReads.writesIn (a : s.OnlyReads t) (w : Nat → Prop) : s.WritesIn w t :=
  ⟨a.toKeepsUnits, fun y _ x => .inl (congrArg Prod.fst (a.peek x y))⟩

theorem State.WritesIn.trans (a : s.WritesIn w t) (b : t.WritesIn w u) : s.WritesIn w u := by
  refine ⟨a.toKeepsUnits.trans b.toKeepsUnits, fun y hy x => ?_⟩
  rcases b.peek y hy x with h | h
  · rw [h]
    exact a.peek y hy x
  · rw [h]
    simpa using (a.peek y hy (!x)).symm

theorem State.WritesIn.mono {w' : Nat → Prop} (a : s.WritesIn w t) (h : ∀ y, w y → w' y) : s.WritesIn w' t :=
  ⟨a.toKeepsUnits, fun y hy => a.peek y (fun hw => hy (h y hw))⟩

/-! ## Accesses that count, cache and look, but write nothing -/

theorem State.onlyReads_setReg (s : State) (o : Nat) (v : Word) : s.OnlyReads (s.setReg o v) := ⟨⟨rfl, rfl, rfl, rfl, rfl⟩, fun _ _ => rfl⟩

theorem State.onlyReads_draw (s : State) : s.OnlyReads s.draw.2 := ⟨⟨rfl, rfl, rfl, rfl, rfl⟩, fun _ _ => rfl⟩

theorem State.onlyReads_record (s : State) (r : Rec) (x : Option Serviced) : s.OnlyReads (s.record r x) :=
  ⟨⟨rfl, rfl, rfl, rfl, rfl⟩, fun _ _ => rfl⟩

theorem State.onlyReads_atCheck (s : State) (i master acc a : Nat) : s.OnlyReads (s.atCheck i master acc a).1 := by
  unfold State.atCheck State.atDeny State.incReg
  split
  · exact .refl s
  · exact (s.onlyReads_setReg _ _).trans ((State.onlyReads_setReg _ _ _).trans (State.onlyReads_setReg _ _ _))

/-- A line's own mark changes no byte of it. -/
theorem State.onlyReads_noteMixed (s : State) (uc : Bool) (ln : Nat) : s.OnlyReads (s.noteMixed uc ln) := by
  unfold State.noteMixed
  split
  · refine ⟨⟨rfl, rfl, rfl, rfl, rfl⟩, fun x a => ?_⟩
    cases x with
    | true => rfl
    | false =>
      simp only [State.peek, Bool.false_eq_true, if_false]
      by_cases h : a / 128 = ln
      · rw [h, sfind_smod_same]
        cases sfind ln s.llc <;> rfl
      · rw [sfind_smod_ne _ h]
  · exact .refl s

theorem State.onlyReads_admitAt (s : State) (master acc a : Nat) (dram : Bool) : s.OnlyReads (s.admitAt master acc a dram).1 := by
  unfold State.admitAt
  split
  · dsimp only
    split
    · exact (s.onlyReads_atCheck _ _ _ _).trans (State.onlyReads_atCheck _ _ _ _ _)
    · exact s.onlyReads_atCheck _ _ _ _
  · exact s.onlyReads_atCheck _ _ _ _
  · exact .refl s

theorem State.onlyReads_admitOne (s : State) (master acc a : Nat) (uc : Bool) : s.OnlyReads (s.admitOne master acc a uc).1 := by
  unfold State.admitOne
  dsimp only
  split
  · exact (s.onlyReads_admitAt _ _ _ _).trans (State.onlyReads_noteMixed _ _ _)
  · exact s.onlyReads_admitAt _ _ _ _

theorem State.onlyReads_walkDenied (s : State) (ctx va : Nat) : s.OnlyReads (s.walkDenied ctx va) := by
  unfold State.walkDenied
  dsimp only
  split
  · exact .refl s
  · split
    · exact s.onlyReads_admitOne _ _ _ _
    · exact .refl s

theorem State.onlyReads_lookup (s : State) (ctx va : Nat) : s.OnlyReads (s.lookup ctx va).1 := by
  unfold State.lookup
  dsimp only
  cases s.walkCtx ctx va with
  | ok l =>
    have hadd : ∀ t : State, t.OnlyReads { t with tlb := addNew ⟨ctx, l.1, pageOf l.1 va, l.2⟩ t.tlb } :=
      fun _ => ⟨⟨rfl, rfl, rfl, rfl, rfl⟩, fun _ _ => rfl⟩
    split
    · exact hadd s
    · split
      · exact s.onlyReads_draw
      · exact s.onlyReads_draw.trans (hadd _)
  | error e =>
    split
    · exact s.onlyReads_walkDenied ctx va
    · split
      · exact s.onlyReads_draw
      · exact s.onlyReads_draw.trans (State.onlyReads_walkDenied _ ctx va)

theorem State.onlyReads_translate (s : State) (ctx va acc : Nat) : s.OnlyReads (s.translate ctx va acc).1 := by
  have hlookup := s.onlyReads_lookup ctx va
  unfold State.translate
  split
  · exact .refl s
  · split
    · dsimp only
      split <;> exact .refl s
    · dsimp only
      split
      · exact hlookup
      · split
        · exact hlookup
        · split <;> exact hlookup

theorem State.onlyReads_foldl {α β : Type} {f : State × β → α → State × β} (hf : ∀ (r : State × β) x, r.1.OnlyReads (f r x).1) (xs : List α)
    (r : State × β) : r.1.OnlyReads (xs.foldl f r).1 := by
  induction xs generalizing r with
  | nil => exact .refl _
  | cons x xs ih => exact (hf r x).trans (ih _)

theorem State.onlyReads_states {α : Type} {f : State → α → State} (hf : ∀ (t : State) x, t.OnlyReads (f t x)) (xs : List α) (s : State) :
    s.OnlyReads (xs.foldl f s) := by
  induction xs generalizing s with
  | nil => exact .refl s
  | cons x xs ih => exact (hf s x).trans (ih _)

theorem State.onlyReads_seqSpans (s : State) (ctx va n acc : Nat) : s.OnlyReads (s.seqSpans ctx va n acc).1 := by
  unfold State.seqSpans
  refine State.onlyReads_foldl (fun r e => ?_) _ (s, _)
  have hpiece := r.1.onlyReads_translate ctx e.1 acc
  split
  · exact .refl _
  · split
    · next h => rwa [h] at hpiece
    · next h =>
      rw [h] at hpiece
      split <;> exact hpiece

theorem State.onlyReads_chunkSpans (s : State) (ctx len : Nat) (a : Option Nat) (acc : Nat) :
    s.OnlyReads (s.chunkSpans ctx len a acc).1 := by
  cases a with
  | none => exact .refl s
  | some va => exact s.onlyReads_seqSpans _ _ _ _

theorem State.onlyReads_recent (s : State) (ws : List StrongWrite) : s.OnlyReads { s with recent := ws } :=
  ⟨⟨rfl, rfl, rfl, rfl, rfl⟩, fun _ _ => rfl⟩

/-- The records of the accesses that overlap a recent write of another size. -/
theorem State.onlyReads_noteParts (s : State) (write : Bool) (kind ctx : Nat) (unit : Option Nat) (parts : List (Nat × Nat)) :
    s.OnlyReads (s.noteParts write kind ctx unit parts) := by
  unfold State.noteParts
  split
  · exact .refl s
  · cases unit with
    | none =>
      dsimp only
      split
      · exact .refl s
      · exact s.onlyReads_recent _
    | some n =>
      dsimp only
      generalize hs1 : parts.foldl _ s = s1
      have hrecords : s.OnlyReads s1 := by
        rw [← hs1]
        refine State.onlyReads_states (fun t p => ?_) parts s
        split
        · exact .refl t
        · exact t.onlyReads_record _ _
      split
      · exact hrecords
      · exact hrecords.trans (State.onlyReads_recent _ _)

theorem State.onlyReads_noteAccesses (s : State) (write : Bool) (kind ctx : Nat) (unit : Option Nat) (addrs : List Nat) :
    s.OnlyReads (s.noteAccesses write kind ctx unit addrs) := by
  unfold State.noteAccesses
  split
  · exact .refl s
  · exact s.onlyReads_noteParts _ _ _ _ _

theorem State.onlyReads_seqGet (p ctx : Nat) (sp : Span) (n : Nat) (s : State) (off : Nat) :
    s.OnlyReads (State.seqGet p ctx sp n s off).1 := by
  induction n generalizing s off with
  | zero => exact .refl s
  | succ n ih =>
    unfold State.seqGet
    split
    · exact .refl s
    · have hadmit := s.onlyReads_admitOne (masterId 2 ctx) 1 ((localOf sp.x.pa + off) / 64 * 64) (s.isUc sp.x)
      dsimp only
      split
      · exact hadmit
      · exact hadmit.trans ((State.onlyReads_noteAccesses _ _ _ _ _ _).trans (ih _ _))

theorem State.onlyReads_seqRead (s : State) (p ctx : Nat) (ps : List Span) : s.OnlyReads (s.seqRead p ctx ps).1 := by
  unfold State.seqRead
  refine State.onlyReads_foldl (fun r sp => ?_) ps (s, _)
  split
  · exact .refl _
  · exact State.onlyReads_seqGet _ _ _ _ _ _

/-! ## Writes -/

/-- A byte of a line of DRAM stands in the line's own copy. -/
theorem byte_lineOf {ln a : Nat} (h : a / 128 = ln) : ∀ m : Memory,
    Memory.byte (m.filterMap (fun c => if c.1 / 128 = ln then some (c.1 % 128, c.2) else none)) (a % 128) = m.byte a
  | [] => rfl
  | (b, v) :: m => by
    have ih := byte_lineOf h m
    unfold Memory.byte sget at ih ⊢
    rw [List.filterMap_cons]
    by_cases hb : b = a
    · subst hb
      simp [sfind, h]
    · by_cases hline : b / 128 = ln
      · have hoff : b % 128 ≠ a % 128 := by omega
        simp only [hline, if_true, sfind, hoff, hb, if_false]
        exact ih
      · simp only [hline, if_false, sfind, hb]
        exact ih

/-- Bytes set at other places leave a byte alone. -/
theorem byte_setBytes {α : Type} {at_ : α → Nat} {val : α → Byte} {a : Nat} (xs : List α) (h : ∀ x ∈ xs, at_ x ≠ a) (m : Memory) :
    Memory.byte (xs.foldl (fun m x => m.setByte (at_ x) (val x)) m) a = m.byte a := by
  induction xs generalizing m with
  | nil => rfl
  | cons x xs ih =>
    refine (ih (fun y hy => h y (List.mem_cons_of_mem _ hy)) _).trans ?_
    exact Memory.byte_setByte_ne m _ (h x List.mem_cons_self).symm

/-! ## The two copies of a byte -/

theorem State.peek_false_of_held {l : Line} {a : Nat} (h : sfind (a / 128) s.llc = some l) :
    (s.peek false a).1 = l.bytes.byte (a % 128) := by
  simp only [State.peek, Bool.false_eq_true, if_false, h]

theorem State.peek_false_of_absent {a : Nat} (h : sfind (a / 128) s.llc = none) : (s.peek false a).1 = s.dram.byte a := by
  simp only [State.peek, Bool.false_eq_true, if_false, h]

/-- What a byte of the LLC's copy reads depends on its line and on DRAM behind it. -/
theorem State.peek_false_congr {a : Nat} (hline : sfind (a / 128) t.llc = sfind (a / 128) s.llc) (hdram : t.dram.byte a = s.dram.byte a) :
    (t.peek false a).1 = (s.peek false a).1 := by
  cases h : sfind (a / 128) s.llc with
  | none => rw [peek_false_of_absent h, peek_false_of_absent (hline.trans h), hdram]
  | some l => rw [peek_false_of_held h, peek_false_of_held (hline.trans h)]

/-! ## Room in the LLC (R132, R149) -/

/-- DRAM once a line has been written back there. -/
theorem byte_lineWritten (m : Memory) (ln a : Nat) (val : Nat → Byte) :
    Memory.byte ((List.range 128).foldl (fun m i => m.setByte (128 * ln + i) (val i)) m) a
      = if a / 128 = ln then val (a % 128) else m.byte a := by
  have hkeys : (List.range 128).foldl (fun m i => Memory.setByte m (128 * ln + i) (val i)) m
      = ((List.range 128).map (128 * ln + ·)).foldl (fun m k => sput 0#8 m k (val (k - 128 * ln))) m := by
    rw [List.foldl_map]
    simp only [Memory.setByte, Nat.add_sub_cancel_left]
  have hmem : a ∈ (List.range 128).map (128 * ln + ·) ↔ a / 128 = ln := by
    simp only [List.mem_map, List.mem_range]
    exact ⟨fun ⟨i, hi, ha⟩ => by omega, fun h => ⟨a % 128, by omega, by omega⟩⟩
  rw [Memory.byte, hkeys, sget_foldl_sput]
  by_cases h : a / 128 = ln
  · rw [if_pos (hmem.2 h), if_pos h, show a - 128 * ln = a % 128 by omega]
  · rw [if_neg (mt hmem.1 h), if_neg h]
    rfl

/-- An evicted line is no longer there; every other stays. -/
theorem State.sfind_evictLine (s : State) (ln j : Nat) :
    sfind j (s.evictLine ln).llc = if j = ln then none else sfind j s.llc := by
  unfold State.evictLine State.dropLine State.writeBack
  by_cases hj : j = ln
  · subst hj
    rw [if_pos rfl]
    exact sfind_sdel_same _ _
  · rw [if_neg hj]
    refine (sfind_sdel_ne hj _).trans ?_
    split
    · split
      · exact sfind_sins_ne hj _ _
      · rfl
    · rfl

/-- An evicted line is in DRAM if it was dirty. -/
theorem State.dram_evictLine_dirty {ln : Nat} {l : Line} (hl : sfind ln s.llc = some l) (hd : l.dirty = true) :
    (s.evictLine ln).dram = (List.range 128).foldl (fun m i => m.setByte (128 * ln + i) (l.bytes.byte i)) s.dram := by
  simp only [State.evictLine, State.dropLine, State.writeBack, hl, hd, if_true, List.foldl_cons, List.foldl_nil, State.poisonDram]

theorem State.dram_evictLine_clean {ln : Nat} (h : ∀ l, sfind ln s.llc = some l → l.dirty = false) :
    (s.evictLine ln).dram = s.dram := by
  cases hl : sfind ln s.llc with
  | none => simp only [State.evictLine, State.dropLine, State.writeBack, hl]
  | some l => simp only [State.evictLine, State.dropLine, State.writeBack, hl, h l hl, Bool.false_eq_true, if_false]

theorem State.keepsUnits_evictLine (s : State) (ln : Nat) : s.KeepsUnits (s.evictLine ln) := by
  unfold State.evictLine State.dropLine State.writeBack
  split
  · split <;> exact ⟨rfl, rfl, rfl, rfl, rfl⟩
  · exact ⟨rfl, rfl, rfl, rfl, rfl⟩

/-- Eviction makes the two copies of the line's bytes one: that of the LLC if it was dirty, that of DRAM if not. -/
theorem State.writesIn_evictLine (s : State) (ln : Nat) (w : Nat → Prop) : s.WritesIn w (s.evictLine ln) := by
  refine ⟨s.keepsUnits_evictLine ln, fun a _ x => ?_⟩
  by_cases ha : a / 128 = ln
  · have hgone : ((s.evictLine ln).peek x a).1 = (s.evictLine ln).dram.byte a := by
      cases x with
      | true => rfl
      | false => exact State.peek_false_of_absent ((s.sfind_evictLine ln _).trans (if_pos ha))
    have hcopy : (s.evictLine ln).dram.byte a = (s.peek true a).1 ∨ (s.evictLine ln).dram.byte a = (s.peek false a).1 := by
      cases hl : sfind ln s.llc with
      | none => exact .inl (by rw [State.dram_evictLine_clean (fun l h => by rw [hl] at h; cases h)]; rfl)
      | some l =>
        cases hd : l.dirty with
        | true => exact .inr (by rw [State.dram_evictLine_dirty hl hd, byte_lineWritten, if_pos ha, State.peek_false_of_held (ha ▸ hl)])
        | false => exact .inl (by rw [State.dram_evictLine_clean (fun k h => by rw [hl] at h; cases h; exact hd)]; rfl)
    rw [hgone]
    cases x with
    | true => exact hcopy
    | false => exact hcopy.symm
  · have hdram : (s.evictLine ln).dram.byte a = s.dram.byte a := by
      by_cases hd : ∃ l, sfind ln s.llc = some l ∧ l.dirty = true
      · obtain ⟨l, hl, hd⟩ := hd
        rw [State.dram_evictLine_dirty hl hd, byte_lineWritten, if_neg ha]
      · rw [State.dram_evictLine_clean (fun l hl => Bool.eq_false_iff.2 (fun h => hd ⟨l, hl, h⟩))]
    cases x with
    | true => exact .inl hdram
    | false => exact .inl (State.peek_false_congr ((s.sfind_evictLine ln _).trans (if_neg ha)) hdram)

theorem State.writesIn_sliceRoom (s : State) (ln : Nat) (w : Nat → Prop) : s.WritesIn w (s.sliceRoom ln) := by
  have hvictim : ∀ keys room, s.OnlyReads (s.victim keys room).1 := by
    intro keys room
    unfold State.victim
    split
    · exact .refl s
    · exact s.onlyReads_draw
  unfold State.sliceRoom
  dsimp only
  split
  · exact (State.OnlyReads.refl s).writesIn w
  · split
    · exact ((hvictim _ _).writesIn w).trans (State.writesIn_evictLine _ _ w)
    · exact (hvictim _ _).writesIn w

/-- A line comes to the LLC as DRAM has it. -/
theorem State.writesIn_allocLine (s : State) (ln : Nat) (first : Bool) (w : Nat → Prop) : s.WritesIn w (s.allocLine ln first) := by
  unfold State.allocLine
  split
  · next l hl =>
    split
    · refine ⟨⟨rfl, rfl, rfl, rfl, rfl⟩, fun a _ x => .inl ?_⟩
      cases x with
      | true => rfl
      | false =>
        by_cases h : a / 128 = ln
        · rw [State.peek_false_of_held (l := { l with first := true }) (by rw [h]; exact sfind_sins_same _ _ _),
            State.peek_false_of_held (h ▸ hl)]
        · exact State.peek_false_congr (sfind_sins_ne h _ _) rfl
    · exact (State.OnlyReads.refl s).writesIn w
  · refine (s.writesIn_sliceRoom ln w).trans ⟨⟨rfl, rfl, rfl, rfl, rfl⟩, fun a _ x => ?_⟩
    generalize s.sliceRoom ln = s1
    cases x with
    | true => exact .inl rfl
    | false =>
      by_cases h : a / 128 = ln
      · refine .inr ?_
        rw [State.peek_false_of_held (l := { s1.dramLine ln with first := first }) (by rw [h]; exact sfind_sins_same _ _ _)]
        exact byte_lineOf h s1.dram
      · exact .inl (State.peek_false_congr (sfind_sins_ne h _ _) rfl)

/-! ## Bytes written (R162) -/

/-- The bytes of a list set in DRAM, whatever becomes of its poison. -/
theorem State.writesIn_dramBytes (s : State) (bs : List (Nat × Byte)) (poison : List Nat) :
    s.WritesIn (fun a => ∃ b ∈ bs, b.1 = a) { s with
      dram := bs.foldl (fun m e => m.setByte e.1 e.2) s.dram, poison := poison } := by
  refine ⟨⟨rfl, rfl, rfl, rfl, rfl⟩, fun a ha x => .inl ?_⟩
  have hdram : Memory.byte (bs.foldl (fun m e => m.setByte e.1 e.2) s.dram) a = s.dram.byte a :=
    byte_setBytes bs (fun b hb hab => ha ⟨b, hb, hab⟩) s.dram
  cases x with
  | true => exact hdram
  | false => exact State.peek_false_congr rfl hdram

/-- A line of the LLC changed by `f`. -/
theorem State.writesIn_smod {ln : Nat} {f : Line → Line}
    (hf : ∀ l a, a / 128 = ln → ¬ w a → (f l).bytes.byte (a % 128) = l.bytes.byte (a % 128)) (s : State) :
    s.WritesIn w { s with llc := smod ln f s.llc } := by
  refine ⟨⟨rfl, rfl, rfl, rfl, rfl⟩, fun a ha x => .inl ?_⟩
  cases x with
  | true => rfl
  | false =>
    by_cases h : a / 128 = ln
    · have hmod : sfind (a / 128) (smod ln f s.llc) = (sfind (a / 128) s.llc).map f := by rw [h, sfind_smod_same]
      cases hl : sfind (a / 128) s.llc with
      | none => rw [State.peek_false_of_absent hl, State.peek_false_of_absent (by rw [hmod, hl]; rfl)]
      | some l => rw [State.peek_false_of_held hl, State.peek_false_of_held (l := f l) (by rw [hmod, hl]; rfl), hf l a h ha]
    · exact State.peek_false_congr (sfind_smod_ne _ h _) rfl

theorem State.writesIn_pokeLine (s : State) (uc first : Bool) (ln : Nat) (bs : List (Nat × Byte)) (half : Nat → Option Bool)
    (hline : ∀ b ∈ bs, b.1 / 128 = ln) : s.WritesIn (fun a => ∃ b ∈ bs, b.1 = a) (s.pokeLine uc first ln bs half) := by
  unfold State.pokeLine
  split
  · simp only [List.foldl_cons, List.foldl_nil]
    cases half 0 <;> cases half 1 <;> exact s.writesIn_dramBytes bs _
  · refine (s.writesIn_allocLine ln first _).trans (State.writesIn_smod (fun l a ha hw => ?_) _)
    exact byte_setBytes bs (fun b hb hab => hw ⟨b, hb, by have := hline b hb; omega⟩) l.bytes

theorem State.writesIn_poke (s : State) (uc first : Bool) (bs : List (Nat × Byte)) (poison : List Nat) :
    s.WritesIn (fun a => ∃ b ∈ bs, b.1 = a) (s.poke uc first bs poison) := by
  unfold State.poke
  dsimp only
  generalize (bs.map (fun e => e.1 / 128)).eraseDups = lines
  induction lines generalizing s with
  | nil => exact (State.OnlyReads.refl s).writesIn _
  | cons ln lines ih =>
    refine .trans ?_ (ih _)
    refine (s.writesIn_pokeLine _ first ln (bs.filter (fun e => e.1 / 128 = ln)) _ (fun b hb => ?_)).mono (fun a ⟨b, hb, hab⟩ => ?_)
    · exact of_decide_eq_true (List.mem_filter.1 hb).2
    · exact ⟨b, (List.mem_filter.1 hb).1, hab⟩

/-! ## The elements of a chunk (R375, R382) -/

theorem length_bytesOfWords (ws : List W32) : (bytesOfWords ws).length = 4 * ws.length := by
  induction ws with
  | nil => rfl
  | cons w ws ih =>
    have hword : (bytesOfNat 4 w.toNat).length = 4 := rfl
    rw [bytesOfWords, List.flatMap_cons, List.length_append, hword, List.length_cons]
    rw [bytesOfWords] at ih
    omega

/-- Elements that end within the span's `len` bytes are written there. -/
theorem State.writesIn_seqPut (p ctx : Nat) (sp : Span) (n : Nat) (s : State) (off : Nat) (es : List (W32 × Bool))
    (hfits : es = [] ∨ off + 4 * es.length ≤ sp.len) :
    s.WritesIn (fun a => localOf sp.x.pa ≤ a ∧ a < localOf sp.x.pa + sp.len) (State.seqPut p ctx sp n s off es).1 := by
  induction n generalizing s off es with
  | zero => exact (State.OnlyReads.refl s).writesIn _
  | succ n ih =>
    cases es with
    | nil => exact (State.OnlyReads.refl s).writesIn _
    | cons e es =>
      have hlen : off + 4 * (e :: es).length ≤ sp.len := hfits.resolve_left (List.cons_ne_nil _ _)
      have hadmit := s.onlyReads_admitOne (masterId 2 ctx) 2 ((localOf sp.x.pa + off) / 64 * 64) (s.isUc sp.x)
      unfold State.seqPut
      dsimp only
      split
      · exact hadmit.writesIn _
      · refine (hadmit.writesIn _).trans (((State.writesIn_poke _ _ _ _ _).mono ?_).trans
          (((State.onlyReads_noteAccesses _ _ _ _ _ _).writesIn _).trans (ih _ _ _ ?_)))
        · rintro a ⟨b, hb, rfl⟩
          obtain ⟨⟨v, i⟩, hi, rfl⟩ := List.mem_map.1 hb
          have hbound := (List.mem_zipIdx hi).2.1
          rw [length_bytesOfWords, List.length_map, List.length_take] at hbound
          dsimp only
          omega
        · rw [List.length_drop]
          by_cases hdrop : (e :: es).length ≤ granuleRoom (localOf sp.x.pa + off)
          · exact .inl (List.drop_eq_nil_of_le hdrop)
          · exact .inr (by omega)

theorem State.writesIn_foldl {α β : Type} {f : State × β → α → State × β} (xs : List α)
    (hf : ∀ (r : State × β), ∀ x ∈ xs, r.1.WritesIn w (f r x).1) (r : State × β) : r.1.WritesIn w (xs.foldl f r).1 := by
  induction xs generalizing r with
  | nil => exact (State.OnlyReads.refl _).writesIn w
  | cons x xs ih =>
    exact (hf r x List.mem_cons_self).trans (ih (fun r y hy => hf r y (List.mem_cons_of_mem _ hy)) _)

/-- The bytes of the spans of a range. -/
def inSpans (ps : List Span) (a : Nat) : Prop := ∃ sp ∈ ps, localOf sp.x.pa ≤ a ∧ a < localOf sp.x.pa + sp.len

theorem State.writesIn_seqWrite (s : State) (p ctx : Nat) (ps : List Span) (es : List (W32 × Bool)) :
    s.WritesIn (inSpans ps) (s.seqWrite p ctx ps es).1 := by
  unfold State.seqWrite
  refine State.writesIn_foldl ps (fun r sp hsp => ?_) (s, _)
  split
  · exact (State.OnlyReads.refl _).writesIn _
  · refine (State.writesIn_seqPut p ctx sp _ r.1 0 _ (.inr ?_)).mono (fun a ha => ⟨sp, hsp, ha⟩)
    rw [List.length_take]
    omega

end Sys2Proof.Machine
end

section
/-! What the ends of a sequencer's instructions leave of its slots (R387, R388, R392): whatever happens to a collective, the registers,
the flags and the queues of its slots stay, and a slot that has left its program does not take it up again. -/

namespace Sys2Proof.Machine

open Sys2Proof

/-- The slot keeps what a program names: its registers, its flags and E, and its queue. -/
structure Slot.KeepsNamed (u v : Slot) : Prop where
  e : v.e = u.e
  queue : v.queue = u.queue
  creg : v.creg = u.creg
  flags : v.flags = u.flags

/-- The slot runs no program: none is there, or it has ended, or a fault keeps it. -/
def Slot.Stopped (u : Slot) : Prop := u.state ≠ .run ∧ u.state ≠ .ready ∧ u.state ≠ .wait

/-- Every slot keeps what a program names, a stopped one stays so, and no grid and no station changes. -/
structure State.WindsUp (s t : State) : Prop where
  grids : t.grids = s.grids
  stations : t.stations = s.stations
  named : ∀ x y, (s.slot x y).KeepsNamed (t.slot x y)
  stopped : ∀ x y, (s.slot x y).Stopped → (t.slot x y).Stopped

variable {s t u : State}

theorem Slot.KeepsNamed.refl (u : Slot) : u.KeepsNamed u := ⟨rfl, rfl, rfl, rfl⟩

theorem Slot.KeepsNamed.trans {u v w : Slot} (a : u.KeepsNamed v) (b : v.KeepsNamed w) : u.KeepsNamed w :=
  ⟨b.e.trans a.e, b.queue.trans a.queue, b.creg.trans a.creg, b.flags.trans a.flags⟩

theorem State.WindsUp.trans (a : s.WindsUp t) (b : t.WindsUp u) : s.WindsUp u :=
  ⟨b.grids.trans a.grids, b.stations.trans a.stations, fun x y => (a.named x y).trans (b.named x y),
    fun x y h => b.stopped x y (a.stopped x y h)⟩

theorem State.slot_congr (h : t.seqs = s.seqs) (x y : Nat) : t.slot x y = s.slot x y := by simp only [State.slot, h]

/-- A change outside the sequencers, the grids and the stations. -/
theorem State.windsUp_of_seqs (hseqs : t.seqs = s.seqs) (hgrids : t.grids = s.grids) (hstations : t.stations = s.stations) :
    s.WindsUp t :=
  ⟨hgrids, hstations, fun x y => by rw [State.slot_congr hseqs]; exact .refl _, fun x y h => by rwa [State.slot_congr hseqs]⟩

theorem State.WindsUp.refl (s : State) : s.WindsUp s := windsUp_of_seqs rfl rfl rfl

theorem State.KeepsUnits.windsUp (h : s.KeepsUnits t) : s.WindsUp t := State.windsUp_of_seqs h.seqs h.grids h.stations

theorem State.windsUp_states {α : Type} {f : State → α → State} (hf : ∀ (t : State) x, t.WindsUp (f t x)) (xs : List α) (s : State) :
    s.WindsUp (xs.foldl f s) := by
  induction xs generalizing s with
  | nil => exact .refl s
  | cons x xs ih => exact (hf s x).trans (ih _)

/-! ## One slot -/

theorem State.slot_modSlot (s : State) (p i : Nat) (f : Slot → Slot) (x y : Nat) :
    (s.modSlot p i f).slot x y = if x = p ∧ y = i then f (s.slot p i) else s.slot x y := by
  unfold State.slot State.modSlot
  simp only [sget_sput]
  by_cases hx : x = p
  · subst hx
    simp only [true_and, if_true, sget_sput]
  · simp only [hx, false_and, if_false]

theorem State.slot_modSlot_same (s : State) (p i : Nat) (f : Slot → Slot) : (s.modSlot p i f).slot p i = f (s.slot p i) := by
  rw [slot_modSlot, if_pos ⟨rfl, rfl⟩]

theorem State.slot_modSlot_ne (s : State) {p i x y : Nat} (f : Slot → Slot) (h : (x, y) ≠ (p, i)) :
    (s.modSlot p i f).slot x y = s.slot x y := by
  rw [slot_modSlot, if_neg (fun e => h (Prod.ext e.1 e.2))]

theorem State.windsUp_modSlot (s : State) (p i : Nat) {f : Slot → Slot} (hnamed : ∀ u : Slot, u.KeepsNamed (f u))
    (hstopped : ∀ u : Slot, u.Stopped → (f u).Stopped) : s.WindsUp (s.modSlot p i f) := by
  refine ⟨rfl, rfl, fun x y => ?_, fun x y h => ?_⟩
  · rw [State.slot_modSlot]
    split
    · next e => obtain ⟨rfl, rfl⟩ := e; exact hnamed _
    · exact .refl _
  · rw [State.slot_modSlot]
    split
    · next e => obtain ⟨rfl, rfl⟩ := e; exact hstopped _ h
    · exact h

/-! ## The ends of a collective (R387, R388, R392) -/

theorem State.windsUp_setReg (s : State) (o : Nat) (w : Word) : s.WindsUp (s.setReg o w) := windsUp_of_seqs rfl rfl rfl

theorem State.windsUp_tellSlot (s : State) (p i dst : Nat) (n : CreditNews) : s.WindsUp (s.tellSlot p i dst n) := by
  unfold State.tellSlot
  split
  · split
    · exact s.windsUp_modSlot p i (fun _ => by constructor <;> rfl) (by exact fun _ h => h)
    · exact .refl s
  · exact s.windsUp_modSlot p i (fun _ => by constructor <;> rfl) (by exact fun _ h => h)

theorem State.windsUp_freeChunk (s : State) (p i src : Nat) : s.WindsUp (s.freeChunk p i src) :=
  (s.windsUp_modSlot p i (fun _ => by constructor <;> rfl) (by exact fun _ h => h)).trans (State.windsUp_tellSlot _ p i src _)

theorem State.windsUp_slotRecord (s : State) (p i code cause operand addr acc : Nat) :
    s.WindsUp (s.slotRecord p i code cause operand addr acc) := by
  unfold State.slotRecord
  exact (s.onlyReads_record _ _).windsUp

theorem State.windsUp_resolve (s : State) (r : FutureRef) (status : Word) : s.WindsUp (s.resolve r status) := by
  unfold State.resolve State.modTeamBy
  split <;> exact windsUp_of_seqs rfl rfl rfl

theorem State.windsUp_freeSlots (s : State) (l : LaunchPacket) (status xft : Nat) : s.WindsUp (s.freeSlots l status xft) := by
  have hfree : ∀ (t : State) (q : Nat), t.WindsUp (t.modSlot q l.slot (fun t =>
      { t with state := .free, current := none, builtin := 0, gotNo := 0, doneFault := false, aborting := false
               endCode := 0, plain := 0 })) := fun t q =>
    t.windsUp_modSlot q l.slot (fun _ => by constructor <;> rfl) (fun _ _ => by exact ⟨nofun, nofun, nofun⟩)
  unfold State.freeSlots
  dsimp only
  split
  · exact (State.windsUp_states hfree l.ports s).trans (State.windsUp_resolve _ _ _)
  · exact State.windsUp_states hfree l.ports s

/-- The state that the write of a completion record leaves. -/
def DoneWrite.state : DoneWrite → State
  | .wrote s => s
  | .waits s => s
  | .lost s _ => s

theorem State.windsUp_writeDone (s : State) (l : LaunchPacket) (p : Nat) (w : Word) : s.WindsUp (s.writeDone l p w).state := by
  have hspans := (s.onlyReads_seqSpans (s.slotOwner p l.slot) (l.words.getD 10 0).toNat 8 2).windsUp
  have hbad : ∀ (t : State) (code operand addr : Nat), t.WindsUp (t.draw.2.slotRecord p l.slot code 0 operand addr 2) :=
    fun t code operand addr => t.onlyReads_draw.windsUp.trans (State.windsUp_slotRecord _ _ _ _ _ _ _ _)
  unfold State.writeDone
  dsimp only
  split
  · next s1 code addr h =>
    rw [h] at hspans
    split
    · have hfault : ∀ t : State, t.WindsUp (t.modSlot p l.slot (fun t => { t with state := .fault, doneFault := true })) := fun t =>
        t.windsUp_modSlot p l.slot (fun _ => ⟨rfl, rfl, rfl, rfl⟩) (fun _ _ => ⟨nofun, nofun, nofun⟩)
      exact hspans.trans ((hbad s1 code _ addr).trans (hfault _))
    · exact hspans.trans (hbad s1 code _ addr)
  · next s1 ps h =>
    rw [h] at hspans
    have hwrite := (s1.writesIn_seqWrite p (s.slotOwner p l.slot) ps [(w.setWidth 32, false), (w.extractLsb' 32 32, false)]).windsUp
    split
    · next h2 =>
      rw [h2] at hwrite
      exact hspans.trans (hwrite.trans (hbad _ _ _ _))
    · next h2 =>
      rw [h2] at hwrite
      exact hspans.trans hwrite

theorem State.windsUp_slotEnded (s : State) (p i : Nat) : s.WindsUp (s.slotEnded p i) := by
  unfold State.slotEnded
  split
  · exact .refl s
  · next l _ =>
    split
    · exact .refl s
    · dsimp only
      split
      · exact s.windsUp_freeSlots _ _ _
      · generalize hw : s.writeDone l _ _ = w
        have hwrite : s.WindsUp w.state := hw ▸ s.windsUp_writeDone l _ _
        cases w with
        | wrote s1 => exact hwrite.trans (State.windsUp_freeSlots s1 _ _ _)
        | waits s1 => exact hwrite
        | lost s1 code => exact hwrite.trans (State.windsUp_freeSlots s1 _ _ _)

theorem State.windsUp_seqStep (s : State) (p : Nat) : s.WindsUp (s.seqStep p) := by
  unfold State.seqStep
  split
  · exact .refl s
  · exact s.windsUp_setReg _ _

/-- The slot winds up, and runs its program no more. -/
structure State.Stops (s t : State) (p i : Nat) : Prop extends State.WindsUp s t where
  here : (t.slot p i).Stopped

/-- A slot that is put in a state in which it runs no program, and what follows. -/
theorem State.stops_modSlot (s : State) (p i : Nat) {f : Slot → Slot} (hnamed : ∀ u : Slot, u.KeepsNamed (f u))
    (hstopped : ∀ u : Slot, (f u).Stopped) : s.Stops (s.modSlot p i f) p i :=
  ⟨s.windsUp_modSlot p i hnamed (fun u _ => hstopped u), by rw [State.slot_modSlot_same]; exact hstopped _⟩

theorem State.Stops.trans {p i : Nat} (a : s.Stops t p i) (b : t.WindsUp u) : s.Stops u p i :=
  ⟨a.toWindsUp.trans b, b.stopped p i a.here⟩

theorem State.WindsUp.stops {p i : Nat} (a : s.WindsUp t) (b : t.Stops u p i) : s.Stops u p i :=
  ⟨a.trans b.toWindsUp, b.here⟩

theorem State.stops_slotError (s : State) (p i code : Nat) : s.Stops (s.slotError p i code) p i := by
  have herror : ∀ t : State, t.Stops (t.modSlot p i (fun t => { t with
      state := .error, endCode := code, sending := none, sent := [], peerSent := [], aborting := false })) p i := fun t =>
    t.stops_modSlot p i (fun _ => ⟨rfl, rfl, rfl, rfl⟩) (fun _ => ⟨nofun, nofun, nofun⟩)
  have hdrop := State.windsUp_states (fun t (c : Chunk) => t.windsUp_freeChunk p i c.source) (s.slot p i).staged s
  unfold State.slotError
  dsimp only
  generalize (s.slot p i).staged.foldl _ s = s1 at hdrop ⊢
  exact hdrop.stops ((herror s1).trans (State.windsUp_slotEnded _ p i))

/-- R387: a trap stops its slot. -/
theorem State.stops_seqTrap (s : State) (p i : Nat) (t : SeqTrap) : s.Stops (s.seqTrap p i t) p i := by
  have hcount : s.WindsUp (if t.code = 0x18 then s.incReg (offPort p + 0x98) else s) := by
    split
    · exact s.windsUp_setReg _ _
    · exact .refl s
  have hfault : ∀ t : State, t.Stops (t.modSlot p i (fun u => { u with state := .fault, plain := 0 })) p i := fun t =>
    t.stops_modSlot p i (fun _ => ⟨rfl, rfl, rfl, rfl⟩) (fun _ => ⟨nofun, nofun, nofun⟩)
  unfold State.seqTrap
  dsimp only
  generalize (if t.code = 0x18 then s.incReg (offPort p + 0x98) else s) = s0 at hcount ⊢
  have hrecord := hcount.trans (s0.windsUp_slotRecord p i t.code t.cause t.operand t.addr t.access)
  generalize s0.slotRecord p i t.code t.cause t.operand t.addr t.access = s1 at hrecord ⊢
  refine hrecord.stops (.trans ?_ (State.windsUp_seqStep _ p))
  split
  · exact hfault s1
  · exact s1.stops_slotError p i _

theorem State.stops_seqIllegal (s : State) (p i cause : Nat) : s.Stops (s.seqIllegal p i cause) p i := s.stops_seqTrap p i _

/-- R386: a program that halts runs no more. -/
theorem State.stops_halt (s : State) (p i : Nat) :
    s.Stops (((s.modSlot p i (fun t => { t with state := .halted, plain := 0, pc := t.pc + 1 })).slotEnded p i).seqStep p) p i := by
  have hhalt : s.Stops (s.modSlot p i (fun t => { t with state := .halted, plain := 0, pc := t.pc + 1 })) p i :=
    s.stops_modSlot p i (fun _ => ⟨rfl, rfl, rfl, rfl⟩) (fun _ => ⟨nofun, nofun, nofun⟩)
  exact (hhalt.trans (State.windsUp_slotEnded _ p i)).trans (State.windsUp_seqStep _ p)

end Sys2Proof.Machine
end

section
/-! Frame of the register, branch and flag words of a sequencer program (R374, R378, R384 to R386). -/

namespace Sys2Proof.Machine

open Sys2Proof

variable {s t u : State} {p i : Nat} {sig : Bool} {f g : Slot → Slot}

/-! ## Groups that try their words again (R91) -/

/-- A sparse map changed value by value. -/
theorem sfind_map_values {α β : Type} (h : Nat → α → β) (k : Nat) : ∀ m : Sparse α,
    sfind k (m.map (fun e => (e.1, h e.1 e.2))) = (sfind k m).map (h k)
  | [] => rfl
  | (j, v) :: m => by
    by_cases hj : j = k
    · subst hj
      simp [sfind]
    · simpa [sfind, hj] using sfind_map_values h k m

theorem keptRegs_wake (g : Group) : g.KeptRegs g.wake := by constructor <;> rfl

/-- A team whose groups are woken, or not, keeps the registers of its groups. -/
theorem Team.exists_group_of_wake {m : Team} {b : Prop} [Decidable b] {k : Nat} {g : Group} (h : sfind k m.groups = some g) :
    ∃ g', sfind k (if b then m.wake else m).groups = some g' ∧ g.KeptRegs g' := by
  split
  · exact ⟨g.wake, (sfind_map_values (fun _ => Group.wake) k m.groups).trans (by rw [h]; rfl), keptRegs_wake g⟩
  · exact ⟨g, h, .refl g⟩

/-- A team of a core once the groups of a context have been woken. -/
theorem State.team?_wakeContext (s : State) (ctx c n : Nat) :
    (s.wakeContext ctx).team? c n = s.team? c n
      ∨ (s.wakeContext ctx).team? c n = (s.team? c n).map (fun m => if s.ctxOf c n = ctx then m.wake else m) := by
  have hcore := sfind_map_values (fun c (k : Core) => ({ k with
    teams := k.teams.map (fun m => (m.1, if s.ctxOf c m.1 = ctx then m.2.wake else m.2))
    fw := if s.ctxOf c 8 = ctx then k.fw.wake else k.fw } : Core)) c s.cores
  unfold State.team? State.core State.wakeContext sget
  dsimp only
  rw [hcore]
  cases sfind c s.cores with
  | none => exact .inl rfl
  | some k =>
    refine .inr ?_
    unfold Core.team?
    by_cases hn : n = 8
    · subst hn
      rfl
    · simp only [hn, if_false, Option.map_some, Option.getD_some]
      exact sfind_map_values (fun n m => if s.ctxOf c n = ctx then m.wake else m) n k.teams

/-- Waking groups changes no register of theirs. -/
theorem State.exists_group_of_wakeContext (s : State) (ctx c n k : Nat) {g : Group} (h : s.group? c n k = some g) :
    ∃ g', (s.wakeContext ctx).group? c n k = some g' ∧ g.KeptRegs g' := by
  obtain ⟨m, hm, hg⟩ := Option.bind_eq_some_iff.1 h
  unfold State.group?
  rcases s.team?_wakeContext ctx c n with hteam | hteam
  · rw [hteam, hm]
    exact ⟨g, hg, .refl g⟩
  · rw [hteam, hm]
    exact Team.exists_group_of_wake hg

/-! ## Changes of one slot -/

/-- Slot `i` of port `p` becomes what `f` makes of it, and nothing else of the package changes but LN_DBGSTAT of the port; with `sig`
the groups may try their words again. -/
structure State.MovesSlot (p i : Nat) (sig : Bool) (f : Slot → Slot) (s t : State) : Prop where
  grids : t.grids = s.grids
  stations : t.stations = s.stations
  dram : t.dram = s.dram
  llc : t.llc = s.llc
  poison : t.poison = s.poison
  ports : t.ports = s.ports
  records : t.records = s.records
  tlb : t.tlb = s.tlb
  cores : sig = false → t.cores = s.cores
  groups : ∀ c n k g, s.group? c n k = some g → ∃ h, t.group? c n k = some h ∧ g.KeptRegs h
  reg : ∀ o, o ≠ offLn p + 0x18 → t.reg o = s.reg o
  slot : t.slot p i = f (s.slot p i)
  slots : ∀ x y, (x, y) ≠ (p, i) → t.slot x y = s.slot x y

theorem State.MovesSlot.trans (a : s.MovesSlot p i sig f t) (b : t.MovesSlot p i sig g u) : s.MovesSlot p i sig (g ∘ f) u where
  grids := b.grids.trans a.grids
  stations := b.stations.trans a.stations
  dram := b.dram.trans a.dram
  llc := b.llc.trans a.llc
  poison := b.poison.trans a.poison
  ports := b.ports.trans a.ports
  records := b.records.trans a.records
  tlb := b.tlb.trans a.tlb
  cores := fun h => (b.cores h).trans (a.cores h)
  groups := fun c n k x hx => by
    obtain ⟨y, hy, hxy⟩ := a.groups c n k x hx
    obtain ⟨z, hz, hyz⟩ := b.groups c n k y hy
    exact ⟨z, hz, hxy.trans hyz⟩
  reg := fun o h => (b.reg o h).trans (a.reg o h)
  slot := b.slot.trans (congrArg g a.slot)
  slots := fun x y h => (b.slots x y h).trans (a.slots x y h)

theorem State.movesSlot_modSlot (s : State) (p i : Nat) (sig : Bool) (f : Slot → Slot) : s.MovesSlot p i sig f (s.modSlot p i f) where
  grids := rfl
  stations := rfl
  dram := rfl
  llc := rfl
  poison := rfl
  ports := rfl
  records := rfl
  tlb := rfl
  cores := fun _ => rfl
  groups := fun _ _ _ g h => ⟨g, h, .refl g⟩
  reg := fun _ _ => rfl
  slot := s.slot_modSlot_same p i f
  slots := fun _ _ h => s.slot_modSlot_ne f h

/-- What single-step mode notes is LN_DBGSTAT alone (R389). -/
theorem State.movesSlot_seqStep (s : State) (p i : Nat) (sig : Bool) : s.MovesSlot p i sig id (s.seqStep p) := by
  unfold State.seqStep
  split
  · exact ⟨rfl, rfl, rfl, rfl, rfl, rfl, rfl, rfl, fun _ => rfl, fun _ _ _ g h => ⟨g, h, .refl g⟩, fun _ _ => rfl, rfl, fun _ _ _ => rfl⟩
  · exact ⟨rfl, rfl, rfl, rfl, rfl, rfl, rfl, rfl, fun _ => rfl, fun _ _ _ g h => ⟨g, h, .refl g⟩,
      fun _ h => State.reg_setReg_ne s _ h, rfl, fun _ _ _ => rfl⟩

theorem State.movesSlot_wakeContext (s : State) (p i ctx : Nat) : s.MovesSlot p i true id (s.wakeContext ctx) :=
  ⟨rfl, rfl, rfl, rfl, rfl, rfl, rfl, rfl, nofun, fun c n k _ h => s.exists_group_of_wakeContext ctx c n k h, fun _ _ => rfl, rfl,
    fun _ _ _ => rfl⟩

/-- R376: a plain word that completes changes its slot by `f`, and counts. -/
def plainCounted (f : Slot → Slot) (t : Slot) : Slot :=
  let u := f t
  if t.plain + 1 < 64 then { u with plain := t.plain + 1 } else { u with plain := 0, state := .ready }

theorem State.movesSlot_plainDone (s : State) (p i : Nat) (sig : Bool) (f : Slot → Slot) :
    s.MovesSlot p i sig (plainCounted f) (s.plainDone p i f) :=
  (s.movesSlot_modSlot p i sig (plainCounted f)).trans (State.movesSlot_seqStep _ p i sig)

/-! ## What a plain word does to its slot -/

/-- The slot keeps everything but its place in the program and what it sends, its register `ca` and its flag `fi`. -/
structure Slot.MovesOn (u : Slot) (ca fi : Option Nat) (v : Slot) : Prop where
  shape : v = { u with
    creg := v.creg, flags := v.flags, pc := v.pc, state := v.state, plain := v.plain, sending := v.sending, peerSent := v.peerSent }
  creg : ∀ k, ca ≠ some k → sget 0 v.creg k = sget 0 u.creg k
  flags : ∀ k, fi ≠ some k → v.flag k = u.flag k

variable {ca fi : Option Nat}

theorem Slot.MovesOn.trans {u v w : Slot} (a : u.MovesOn ca fi v) (b : v.MovesOn ca fi w) : u.MovesOn ca fi w := by
  refine ⟨?_, fun k h => (b.creg k h).trans (a.creg k h), fun k h => (b.flags k h).trans (a.flags k h)⟩
  rw [b.shape, a.shape]

theorem Slot.MovesOn.e {u v : Slot} (h : u.MovesOn ca fi v) : v.e = u.e := (congrArg Slot.e h.shape).trans rfl

theorem Slot.MovesOn.queue {u v : Slot} (h : u.MovesOn ca fi v) : v.queue = u.queue := (congrArg Slot.queue h.shape).trans rfl

theorem Slot.movesOn_setC (u : Slot) (c : BitVec 4) (w : Word) (fi : Option Nat) : u.MovesOn (some c.toNat) fi (u.setC c w) :=
  ⟨rfl, fun _ h => sget_sput_ne _ _ _ (fun e => h (congrArg some e.symm)), fun _ _ => rfl⟩

theorem Slot.movesOn_plainCounted (hf : ∀ u : Slot, u.MovesOn ca fi (f u)) (u : Slot) : u.MovesOn ca fi (plainCounted f u) := by
  refine (hf u).trans ?_
  unfold plainCounted
  dsimp only
  split
  · exact ⟨rfl, fun _ _ => rfl, fun _ _ => rfl⟩
  · exact ⟨rfl, fun _ _ => rfl, fun _ _ => rfl⟩

end Sys2Proof.Machine

namespace Sys2Proof.Claims

open Sys2Proof Sys2Proof.Machine

variable {s t : State} {q : SeqWord} {ca fi : Option Nat} {sig : Bool} {f : Slot → Slot}

theorem seqIssue_next {body : State → Nat → Nat → Slot → State} (h : seqIssue s body = .next t) :
    t = body s s.focus.port s.focus.slot (s.slot s.focus.port s.focus.slot) := by
  unfold seqIssue at h
  dsimp only at h
  split at h
  · cases h
    rfl
  · cases h

/-- What a plain word leaves of the package (R374, R378, R384 to R386): the slot, with `sig` the waits of groups, and what the word
names. -/
def plainFrame (s t : State) (ca fi : Option Nat) (sig : Bool) : Prop :=
  keptSlots s t ca fi ∧ t.grids = s.grids ∧ t.stations = s.stations
  ∧ (underWay (t.slot s.focus.port s.focus.slot) →
      t.dram = s.dram ∧ t.llc = s.llc ∧ t.poison = s.poison ∧ t.ports = s.ports ∧ t.records = s.records ∧ t.tlb = s.tlb
      ∧ (sig = false → t.cores = s.cores) ∧ others s t (fun _ _ _ => Group.KeptRegs)
      ∧ (∀ o, o ≠ offLn s.focus.port + 0x18 → t.reg o = s.reg o)
      ∧ (∀ x y, (x, y) ≠ (s.focus.port, s.focus.slot) → t.slot x y = s.slot x y)
      ∧ t.slot s.focus.port s.focus.slot = { s.slot s.focus.port s.focus.slot with
          creg := (t.slot s.focus.port s.focus.slot).creg, flags := (t.slot s.focus.port s.focus.slot).flags
          pc := (t.slot s.focus.port s.focus.slot).pc, state := (t.slot s.focus.port s.focus.slot).state
          plain := (t.slot s.focus.port s.focus.slot).plain, sending := (t.slot s.focus.port s.focus.slot).sending
          peerSent := (t.slot s.focus.port s.focus.slot).peerSent })

theorem not_underWay {v : Slot} (h : v.Stopped) : ¬ underWay v :=
  fun e => e.elim h.1 (fun e => e.elim h.2.1 h.2.2)

theorem keptSlots_of_windsUp (h : s.WindsUp t) (ca fi : Option Nat) : keptSlots s t ca fi := by
  intro p i u v here
  obtain ⟨he, hqueue, hcreg, hflags⟩ := h.named p i
  exact ⟨he, hqueue, fun k _ => congrArg (sget 0 · k) hcreg, fun k _ => congrArg (sget 0 · k) hflags⟩

theorem plainFrame_of_stops (h : s.Stops t s.focus.port s.focus.slot) : plainFrame s t ca fi sig :=
  ⟨keptSlots_of_windsUp h.toWindsUp ca fi, h.grids, h.stations, fun hgoes => absurd hgoes (not_underWay h.here)⟩

theorem plainFrame_of_movesSlot (h : s.MovesSlot s.focus.port s.focus.slot sig f t) (hf : ∀ u : Slot, u.MovesOn ca fi (f u)) :
    plainFrame s t ca fi sig := by
  have hmoves : (s.slot s.focus.port s.focus.slot).MovesOn ca fi (t.slot s.focus.port s.focus.slot) := by
    rw [h.slot]
    exact hf _
  refine ⟨fun p i => ?_, h.grids, h.stations, fun _ => ⟨h.dram, h.llc, h.poison, h.ports, h.records, h.tlb, h.cores,
    fun c n k g _ hg => h.groups c n k g hg, h.reg, h.slots, hmoves.shape⟩⟩
  by_cases hhere : p = s.focus.port ∧ i = s.focus.slot
  · obtain ⟨rfl, rfl⟩ := hhere
    exact ⟨hmoves.e, hmoves.queue, fun k hk => hmoves.creg k (fun e => hk ⟨⟨rfl, rfl⟩, e⟩),
      fun k hk => hmoves.flags k (fun e => hk ⟨⟨rfl, rfl⟩, e⟩)⟩
  · have hsame : t.slot p i = s.slot p i := h.slots p i (fun e => hhere ⟨congrArg Prod.fst e, congrArg Prod.snd e⟩)
    dsimp only
    rw [hsame]
    exact ⟨rfl, rfl, fun _ _ => rfl, fun _ _ => rfl⟩

/-- A plain word traps, or completes and goes on. -/
theorem plainFrame_plainWord {uses : SeqUses} {next : Int} (hf : ∀ u : Slot, u.MovesOn ca fi (f u)) :
    plainFrame s (s.plainWord s.focus.port s.focus.slot uses q next f) ca fi sig := by
  unfold State.plainWord
  split
  · exact plainFrame_of_stops (s.stops_seqIllegal _ _ _)
  · split
    · exact plainFrame_of_stops (s.stops_seqIllegal _ _ _)
    · exact plainFrame_of_movesSlot (s.movesSlot_plainDone _ _ sig _)
        (Slot.movesOn_plainCounted (fun u => (hf u).trans ⟨rfl, fun _ _ => rfl, fun _ _ => rfl⟩))

theorem movesOn_same (u : Slot) : u.MovesOn ca fi u := ⟨rfl, fun _ _ => rfl, fun _ _ => rfl⟩

theorem movesOn_setFlag (u : Slot) (k : Nat) (w : W32) : u.MovesOn ca (some k) { u with flags := sput 0 u.flags k w } :=
  ⟨rfl, fun _ _ => rfl, fun _ h => sget_sput_ne _ _ _ (fun e => h (congrArg some e.symm))⟩

/-- R385: SIGF changes its flag, wakes groups, and completes. -/
theorem plainFrame_sigf {uses : SeqUses} {k : Nat} {set : Bool} {v : W32} {next : Int} (hbad : uses.bad q = false) (hlow : 0 ≤ next)
    (hhigh : next ≤ 511) : plainFrame s ((s.setFlag s.focus.port s.focus.slot k set v).plainWord s.focus.port s.focus.slot uses q next
      id) ca (some k) true := by
  rw [plainWord_of_legal hbad hlow hhigh]
  have hflag := (s.movesSlot_modSlot s.focus.port s.focus.slot true
    (fun t => { t with flags := sput 0 t.flags k (flagValue (t.flag k) set v) })).trans
    (State.movesSlot_wakeContext _ _ _ (s.slotOwner s.focus.port s.focus.slot))
  refine plainFrame_of_movesSlot (hflag.trans (State.movesSlot_plainDone _ _ _ true _)) (fun u => ?_)
  refine (movesOn_setFlag u k _).trans (Slot.movesOn_plainCounted (fun u => ?_) _)
  exact ⟨rfl, fun _ _ => rfl, fun _ _ => rfl⟩

/-- The words that are no chunk words, word by word. -/
theorem plainFrame_of_exec : ∀ e ∈ plainSeqWords q, exec e.1 s = .next t →
    plainFrame s t (if e.2.1 then some q.ca.toNat else none) (if e.2.2 then some q.fi.toNat else none) e.2.2 := by
  simp only [plainSeqWords, List.forall_mem_cons, List.not_mem_nil, false_implies, implies_true, and_true]
  refine ⟨fun h => ?nop, fun h => ?movi, fun h => ?addi, fun h => ?add, fun h => ?loop, fun h => ?bnz, fun h => ?waitf, fun h => ?sigf,
    fun h => ?peer, fun h => ?yield, fun h => ?halt⟩
  case nop =>
    rw [seqIssue_next (show execSeqNop q s = _ from h)]
    exact plainFrame_plainWord movesOn_same
  case movi =>
    rw [seqIssue_next (show execMovi q s = _ from h)]
    exact plainFrame_plainWord (fun u => u.movesOn_setC q.ca _ none)
  case addi =>
    have hissue : execAddi q s = .next t := h
    unfold execAddi at hissue
    dsimp only at hissue
    rw [seqIssue_next hissue]
    exact plainFrame_plainWord (fun u => u.movesOn_setC q.ca _ none)
  case add =>
    rw [seqIssue_next (show execSeqAdd q s = _ from h)]
    exact plainFrame_plainWord (fun u => u.movesOn_setC q.ca _ none)
  case loop =>
    rw [seqIssue_next (show execSeqLoop q s = _ from h)]
    exact plainFrame_plainWord (fun u => u.movesOn_setC q.ca _ none)
  case bnz =>
    rw [seqIssue_next (show execBnz q s = _ from h)]
    exact plainFrame_plainWord movesOn_same
  case waitf =>
    rw [seqIssue_next (show execWaitf q s = _ from h)]
    dsimp only
    split
    · exact plainFrame_plainWord movesOn_same
    · exact plainFrame_of_movesSlot (s.movesSlot_modSlot _ _ _ _) (fun _ => ⟨rfl, fun _ _ => rfl, fun _ _ => rfl⟩)
  case sigf =>
    rw [seqIssue_next (show execSigf q s = _ from h)]
    dsimp only
    split
    · next hok =>
      obtain ⟨hbad, hnext⟩ := (Bool.and_eq_true _ _).mp hok
      have hpc := of_decide_eq_true hnext
      exact plainFrame_sigf ((Bool.not_eq_true' _).mp hbad) (by unfold Slot.seqNext; omega) (by unfold Slot.seqNext; omega)
    · exact plainFrame_plainWord movesOn_same
  case peer =>
    rw [seqIssue_next (show execSigfPeer q s = _ from h)]
    dsimp only
    split
    · exact plainFrame_of_stops (s.stops_seqIllegal _ _ _)
    · split
      · exact plainFrame_of_stops (s.stops_seqIllegal _ _ _)
      · split
        · exact plainFrame_of_stops (s.stops_seqTrap _ _ _)
        · exact plainFrame_of_movesSlot (s.movesSlot_modSlot _ _ _ _) (fun _ => ⟨rfl, fun _ _ => rfl, fun _ _ => rfl⟩)
  case yield =>
    rw [seqIssue_next (show execSeqYield q s = _ from h)]
    exact plainFrame_plainWord (fun _ => ⟨rfl, fun _ _ => rfl, fun _ _ => rfl⟩)
  case halt =>
    rw [seqIssue_next (show execSeqHalt q s = _ from h)]
    dsimp only
    split
    · exact plainFrame_of_stops (s.stops_seqIllegal _ _ _)
    · exact plainFrame_of_stops (s.stops_halt _ _)

end Sys2Proof.Claims
end

section
/-! Frame of the chunk words of a sequencer program (R375, R378, R382, R383). -/

namespace Sys2Proof.Machine

open Sys2Proof

variable {s t u : State} {p i : Nat}

/-- Slot `i` of port `p` keeps what its program names, and nothing else of the package changes that programs read. -/
structure State.MovesChunk (p i : Nat) (s t : State) : Prop where
  grids : t.grids = s.grids
  stations : t.stations = s.stations
  ports : t.ports = s.ports
  cores : t.cores = s.cores
  peek : ∀ x a, t.peek x a = s.peek x a
  slots : ∀ x y, (x, y) ≠ (p, i) → t.slot x y = s.slot x y
  named : (s.slot p i).KeepsNamed (t.slot p i)

theorem State.MovesChunk.trans (a : s.MovesChunk p i t) (b : t.MovesChunk p i u) : s.MovesChunk p i u :=
  ⟨b.grids.trans a.grids, b.stations.trans a.stations, b.ports.trans a.ports, b.cores.trans a.cores,
    fun x y => (b.peek x y).trans (a.peek x y), fun x y h => (b.slots x y h).trans (a.slots x y h), a.named.trans b.named⟩

theorem State.OnlyReads.movesChunk (h : s.OnlyReads t) (p i : Nat) : s.MovesChunk p i t :=
  ⟨h.grids, h.stations, h.ports, h.cores, h.peek, fun x y _ => State.slot_congr h.seqs x y,
    by rw [State.slot_congr h.seqs]; exact .refl _⟩

theorem State.movesChunk_modSlot (s : State) (p i : Nat) {f : Slot → Slot} (hf : ∀ u : Slot, u.KeepsNamed (f u)) :
    s.MovesChunk p i (s.modSlot p i f) :=
  ⟨rfl, rfl, rfl, rfl, fun _ _ => rfl, fun _ _ h => s.slot_modSlot_ne f h, by rw [State.slot_modSlot_same]; exact hf _⟩

theorem State.movesChunk_seqStep (s : State) (p i : Nat) : s.MovesChunk p i (s.seqStep p) := by
  refine State.OnlyReads.movesChunk ?_ p i
  unfold State.seqStep
  split
  · exact .refl s
  · exact s.onlyReads_setReg _ _

theorem State.movesChunk_freeChunk (s : State) (p i src : Nat) : s.MovesChunk p i (s.freeChunk p i src) := by
  have hdrop : s.MovesChunk p i (s.modSlot p i (fun t => { t with staged := dropFirst (fun c => c.source = src) t.staged })) :=
    s.movesChunk_modSlot p i (fun _ => ⟨rfl, rfl, rfl, rfl⟩)
  refine hdrop.trans ?_
  unfold State.freeChunk State.tellSlot
  split
  · exact State.movesChunk_modSlot _ p i (fun _ => by constructor <;> rfl)
  · exact State.movesChunk_modSlot _ p i (fun _ => by constructor <;> rfl)

/-! ## The end of a chunk word (R376, R379, R382) -/

theorem Slot.keepsNamed_advance (u : Slot) (passes : Bool) : u.KeepsNamed (u.advance passes) := by
  unfold Slot.advance
  split
  · exact ⟨rfl, rfl, rfl, rfl⟩
  · split <;> exact ⟨rfl, rfl, rfl, rfl⟩

/-- A slot that stops behind a change of its own. -/
theorem State.Stops.behind (hgrids : t.grids = s.grids) (hstations : t.stations = s.stations)
    (hslots : ∀ x y, (x, y) ≠ (p, i) → t.slot x y = s.slot x y) (hnamed : (s.slot p i).KeepsNamed (t.slot p i))
    (b : t.Stops u p i) : s.Stops u p i := by
  refine ⟨⟨b.grids.trans hgrids, b.stations.trans hstations, fun x y => ?_, fun x y h => ?_⟩, b.here⟩
  · refine .trans ?_ (b.named x y)
    by_cases hxy : (x, y) = (p, i)
    · cases hxy
      exact hnamed
    · rw [hslots x y hxy]
      exact .refl _
  · by_cases hxy : (x, y) = (p, i)
    · cases hxy
      exact b.here
    · exact b.stopped x y (by rwa [hslots x y hxy])

theorem State.MovesChunk.stops (a : s.MovesChunk p i t) (b : t.Stops u p i) : s.Stops u p i :=
  .behind a.grids a.stations a.slots a.named b

/-- The slot behind a chunk that it has moved: it counts the chunk, and its turn ends (R376). -/
def chunkCounted (passes : Bool) (t : Slot) : Slot :=
  { t.advance passes with chunk := t.chunk + 1, state := .ready, plain := 0, sending := none }

theorem keepsNamed_chunkCounted (passes : Bool) (u : Slot) : u.KeepsNamed (chunkCounted passes u) :=
  (u.keepsNamed_advance passes).trans ⟨rfl, rfl, rfl, rfl⟩

/-- The slot of an aborted collective stops behind its chunk; another goes on. -/
theorem State.chunkEnd_cases (a : s.MovesChunk p i t) (passes aborting : Bool) :
    s.Stops ((if aborting then (t.modSlot p i (chunkCounted passes)).slotError p i 0x80
      else t.modSlot p i (chunkCounted passes)).seqStep p) p i
    ∨ s.MovesChunk p i ((if aborting then (t.modSlot p i (chunkCounted passes)).slotError p i 0x80
      else t.modSlot p i (chunkCounted passes)).seqStep p) := by
  have hcounted := a.trans (t.movesChunk_modSlot p i (keepsNamed_chunkCounted passes))
  generalize t.modSlot p i (chunkCounted passes) = u at hcounted ⊢
  cases aborting with
  | true => exact .inl (hcounted.stops ((u.stops_slotError p i 0x80).trans (State.windsUp_seqStep _ p)))
  | false => exact .inr (hcounted.trans (u.movesChunk_seqStep p i))

/-- A chunk that has been moved frees its buffer, counts and ends the turn. -/
theorem State.chunkDone_cases (s : State) (p i : Nat) (consumed : Option Nat) (passes : Bool) :
    s.Stops (s.chunkDone p i consumed passes) p i ∨ s.MovesChunk p i (s.chunkDone p i consumed passes) := by
  cases consumed with
  | none => exact State.chunkEnd_cases ((State.OnlyReads.refl s).movesChunk p i) passes _
  | some src => exact State.chunkEnd_cases (s.movesChunk_freeChunk p i src) passes _

theorem State.movesChunk_sendChunk (s : State) (p i dst : Nat) (c : ChunkForm) (es : List (W32 × Bool)) :
    s.MovesChunk p i (s.sendChunk p i dst c es) := by
  unfold State.sendChunk
  exact s.movesChunk_modSlot p i (fun _ => by constructor <;> rfl)

/-- What a chunk word leaves of memory: every byte as before where it writes none, and otherwise the bytes outside `ws`. -/
structure State.ChunkMoved (p i : Nat) (ws : List Span) (s t : State) : Prop where
  grids : t.grids = s.grids
  stations : t.stations = s.stations
  ports : t.ports = s.ports
  cores : t.cores = s.cores
  slots : ∀ x y, (x, y) ≠ (p, i) → t.slot x y = s.slot x y
  named : (s.slot p i).KeepsNamed (t.slot p i)
  same : ws = [] → ∀ x a, t.peek x a = s.peek x a
  outside : ∀ a, ¬ inSpans ws a → ∀ x, (t.peek x a).1 = (s.peek x a).1 ∨ (t.peek x a).1 = (s.peek (!x) a).1

theorem State.ChunkMoved.before {ws : List Span} (a : s.MovesChunk p i t) (b : t.ChunkMoved p i ws u) : s.ChunkMoved p i ws u where
  grids := b.grids.trans a.grids
  stations := b.stations.trans a.stations
  ports := b.ports.trans a.ports
  cores := b.cores.trans a.cores
  slots := fun x y h => (b.slots x y h).trans (a.slots x y h)
  named := a.named.trans b.named
  same := fun h x y => (b.same h x y).trans (a.peek x y)
  outside := fun y hy x => by
    rw [← a.peek x y, ← a.peek (!x) y]
    exact b.outside y hy x

theorem State.ChunkMoved.after {ws : List Span} (a : s.ChunkMoved p i ws t) (b : t.MovesChunk p i u) : s.ChunkMoved p i ws u where
  grids := b.grids.trans a.grids
  stations := b.stations.trans a.stations
  ports := b.ports.trans a.ports
  cores := b.cores.trans a.cores
  slots := fun x y h => (b.slots x y h).trans (a.slots x y h)
  named := a.named.trans b.named
  same := fun h x y => (b.peek x y).trans (a.same h x y)
  outside := fun y hy x => by
    rw [b.peek x y]
    exact a.outside y hy x

theorem State.MovesChunk.moved (a : s.MovesChunk p i t) (ws : List Span) : s.ChunkMoved p i ws t :=
  ⟨a.grids, a.stations, a.ports, a.cores, a.slots, a.named, fun _ => a.peek, fun y _ x => .inl (congrArg Prod.fst (a.peek x y))⟩

theorem State.ChunkMoved.stops {ws : List Span} (a : s.ChunkMoved p i ws t) (b : t.Stops u p i) : s.Stops u p i :=
  .behind a.grids a.stations a.slots a.named b

/-- A chunk's elements are written in their spans alone, and none where there is none. -/
theorem State.chunkMoved_seqWrite (s : State) (p i n ctx : Nat) (ws : List Span) (es : List (W32 × Bool)) :
    s.ChunkMoved p i ws (s.seqWrite n ctx ws es).1 := by
  have hwrite := s.writesIn_seqWrite n ctx ws es
  refine ⟨hwrite.grids, hwrite.stations, hwrite.ports, hwrite.cores, fun x y _ => State.slot_congr hwrite.seqs x y, ?_,
    fun h x a => ?_, hwrite.peek⟩
  · rw [State.slot_congr hwrite.seqs]
    exact .refl _
  · subst h
    rfl

/-! ## The steps of a chunk word (R382) -/

/-- Step 4 over translated ranges: the slot traps, or the chunk is moved. -/
theorem State.chunkPerform_cases (s : State) (p i : Nat) (c : ChunkForm) (rs ws : List Span) :
    s.Stops (s.chunkPerform p i c rs ws) p i ∨ s.ChunkMoved p i ws (s.chunkPerform p i c rs ws) := by
  have hread := s.onlyReads_seqRead p (s.slotOwner p i) rs
  unfold State.chunkPerform
  dsimp only
  split
  · next s1 near a h =>
    rw [h] at hread
    exact .inl (hread.windsUp.stops (s1.stops_seqTrap p i _))
  · next s1 near h =>
    rw [h] at hread
    generalize c.result _ _ _ near = r
    generalize hs2 : s1.draw.2.modSlot p i _ = s2
    have hxf : s.MovesChunk p i s2 := by
      rw [← hs2]
      exact ((hread.trans s1.onlyReads_draw).movesChunk p i).trans
        (State.movesChunk_modSlot _ p i (fun _ => by constructor <;> rfl))
    have hwrite := s2.chunkMoved_seqWrite p i p (s.slotOwner p i) ws r.1
    split
    · next s3 a h3 =>
      rw [h3] at hwrite
      exact .inl ((State.ChunkMoved.before hxf hwrite).stops (s3.stops_seqTrap p i _))
    · next s3 h3 =>
      rw [h3] at hwrite
      have hmoved := State.ChunkMoved.before hxf hwrite
      split
      · exact .inr (hmoved.after (s3.movesChunk_sendChunk p i _ _ _))
      · exact (s3.chunkDone_cases p i _ _).imp hmoved.stops hmoved.after

/-- R382: the slot traps, waits, or moves its chunk between the spans of its ranges. -/
theorem State.chunkStep_cases (s : State) (p i : Nat) (c : ChunkForm) :
    s.Stops (s.chunkStep p i c) p i ∨ s.MovesChunk p i (s.chunkStep p i c)
    ∨ ∃ ws, ((s.chunkSpans (s.slotOwner p i) c.len c.read 1).1.chunkSpans (s.slotOwner p i) c.len c.write 2).2 = .ok ws
        ∧ s.ChunkMoved p i ws (s.chunkStep p i c) := by
  have hread := s.onlyReads_chunkSpans (s.slotOwner p i) c.len c.read 1
  unfold State.chunkStep
  dsimp only
  split
  · exact .inl (s.stops_seqTrap p i _)
  · split
    · exact .inl (s.stops_seqIllegal p i 5)
    · split
      · exact .inr (.inl (s.movesChunk_modSlot p i (fun _ => by constructor <;> rfl)))
      · split
        · next s1 e h =>
          rw [h] at hread
          exact .inl (hread.windsUp.stops (s1.stops_seqTrap p i _))
        · next s1 rs h =>
          rw [h] at hread ⊢
          have hwrite := s1.onlyReads_chunkSpans (s.slotOwner p i) c.len c.write 2
          dsimp only at hread ⊢
          split
          · next s2 e h2 =>
            rw [h2] at hwrite
            exact .inl ((hread.trans hwrite).windsUp.stops (s2.stops_seqTrap p i _))
          · next s2 ws h2 =>
            rw [h2] at hwrite
            have hreads := (hread.trans hwrite).movesChunk p i
            rcases s2.chunkPerform_cases p i c rs ws with hstops | hmoved
            · exact .inl (hreads.stops hstops)
            · exact .inr (.inr ⟨ws, congrArg Prod.snd h2, .before hreads hmoved⟩)

end Sys2Proof.Machine
end

section
namespace Sys2Proof.Claims

open Sys2Proof Sys2Proof.Machine

variable {s t : State} {q : SeqWord} {c : ChunkForm}

/-- What a chunk word that reads the range from `read` and writes that from `write` leaves of the package (R375, R382, R383). -/
def chunkFrame (q : SeqWord) (s t : State) (read write : Option Nat) : Prop :=
  keptSlots s t none none ∧ t.grids = s.grids ∧ t.stations = s.stations
  ∧ (underWay (t.slot s.focus.port s.focus.slot) →
      t.ports = s.ports ∧ t.cores = s.cores ∧ (∀ x y, (x, y) ≠ (s.focus.port, s.focus.slot) → t.slot x y = s.slot x y)
      ∧ (write = none → ∀ a x, t.peek x a = s.peek x a)
      ∧ (s.Canonical → ∀ ws,
          ((s.chunkSpans (s.slotOwner s.focus.port s.focus.slot) (bits q.imm.toNat 0 17) read 1).1.chunkSpans
            (s.slotOwner s.focus.port s.focus.slot) (bits q.imm.toNat 0 17) write 2).2 = .ok ws →
          ∀ a x, (∀ w ∈ ws, a < localOf w.x.pa ∨ localOf w.x.pa + w.len ≤ a) →
            (t.peek x a).1 = (s.peek x a).1 ∨ (t.peek x a).1 = (s.peek (!x) a).1))

theorem keptSlots_of_named {p i : Nat} (hslots : ∀ x y, (x, y) ≠ (p, i) → t.slot x y = s.slot x y)
    (hnamed : (s.slot p i).KeepsNamed (t.slot p i)) : keptSlots s t none none := by
  intro x y u v here
  have hkept : u.KeepsNamed v := by
    by_cases hxy : (x, y) = (p, i)
    · cases hxy
      exact hnamed
    · change (s.slot x y).KeepsNamed (t.slot x y)
      rw [hslots x y hxy]
      exact .refl _
  exact ⟨hkept.e, hkept.queue, fun k _ => congrArg (sget 0 · k) hkept.creg, fun k _ => congrArg (sget 0 · k) hkept.flags⟩

theorem chunkFrame_of_stops {read write : Option Nat} (h : s.Stops t s.focus.port s.focus.slot) : chunkFrame q s t read write :=
  ⟨keptSlots_of_windsUp h.toWindsUp none none, h.grids, h.stations, fun hgoes => absurd hgoes (not_underWay h.here)⟩

/-- A word that waits has changed its slot alone. -/
theorem chunkFrame_of_movesChunk {read write : Option Nat} (h : s.MovesChunk s.focus.port s.focus.slot t) :
    chunkFrame q s t read write :=
  ⟨keptSlots_of_named h.slots h.named, h.grids, h.stations, fun _ => ⟨h.ports, h.cores, h.slots, fun _ a x => h.peek x a,
    fun _ _ _ a x _ => .inl (congrArg Prod.fst (h.peek x a))⟩⟩

/-- A chunk word of LEN bytes traps, waits, or moves its chunk. -/
theorem chunkFrame_chunkWord {u : Slot} {uses : SeqUses} {combines : Bool} (hlen : c.len = bits q.imm.toNat 0 17) :
    chunkFrame q s (s.chunkWord s.focus.port s.focus.slot u uses q combines c) c.read c.write := by
  unfold State.chunkWord
  split
  · exact chunkFrame_of_stops (s.stops_seqIllegal _ _ _)
  · rcases s.chunkStep_cases s.focus.port s.focus.slot c with hstops | hwaits | ⟨ws, hspans, hmoved⟩
    · exact chunkFrame_of_stops hstops
    · exact chunkFrame_of_movesChunk hwaits
    · refine ⟨keptSlots_of_named hmoved.slots hmoved.named, hmoved.grids, hmoved.stations, fun _ => ⟨hmoved.ports, hmoved.cores,
        hmoved.slots, fun hnone a x => hmoved.same ?_ x a, fun _ vs hvs a x hout => hmoved.outside a ?_ x⟩⟩
      · rw [hnone] at hspans
        exact (Except.ok.inj hspans).symm
      · rw [← hlen, hspans] at hvs
        obtain rfl := Except.ok.inj hvs
        rintro ⟨w, hw, hlow, hhigh⟩
        have := hout w hw
        omega

/-- The chunk words, word by word. -/
theorem chunkFrame_of_exec : ∀ e ∈ chunkSeqWords q (s.slot s.focus.port s.focus.slot), exec e.1 s = .next t →
    chunkFrame q s t e.2.1 e.2.2 := by
  simp only [chunkSeqWords, List.forall_mem_cons, List.not_mem_nil, false_implies, implies_true, and_true]
  refine ⟨fun h => ?xmit, fun h => ?rcvst, fun h => ?rcvcmb, fun h => ?rcvcf, fun h => ?rcvfw, fun h => ?scaleEnc, fun h => ?scaleDec⟩
  case xmit =>
    rw [seqIssue_next (show execXmit q s = _ from h)]
    exact chunkFrame_chunkWord rfl
  case rcvst =>
    rw [seqIssue_next (show execRcvst q s = _ from h)]
    exact chunkFrame_chunkWord rfl
  case rcvcmb =>
    rw [seqIssue_next (show execRcvcmb q s = _ from h)]
    exact chunkFrame_chunkWord rfl
  case rcvcf =>
    rw [seqIssue_next (show execRcvcf q s = _ from h)]
    exact chunkFrame_chunkWord rfl
  case rcvfw =>
    rw [seqIssue_next (show execRcvfw q s = _ from h)]
    exact chunkFrame_chunkWord rfl
  case scaleEnc =>
    rw [seqIssue_next (show execScaleEnc q s = _ from h)]
    exact chunkFrame_chunkWord rfl
  case scaleDec =>
    rw [seqIssue_next (show execScaleDec q s = _ from h)]
    exact chunkFrame_chunkWord rfl

/-- Settles O52: a word of a sequencer program stops its slot, which changes nothing that a program names, or changes the slot and what
the word names alone; what a chunk word reads and writes of memory is a chain of accesses, each framed by itself. -/
theorem sequencerWordsChangeOnlyWhatTheyName : Obligations.SequencerWordsChangeOnlyWhatTheyName := by
  intro q s t p i u v
  exact ⟨plainFrame_of_exec, chunkFrame_of_exec⟩

end Sys2Proof.Claims
end
